-- ==== Sys2Proof/Word.lean ====
section
/-! DEFINITION. Word types of the ICL-9080 model: register words, operand codes, sparse tables. -/

namespace Sys2Proof

/-- A byte of memory (R3). -/
abbrev Byte := BitVec 8

/-- A 32-bit register word (R88, R90). -/
abbrev Word := BitVec 32

/-- A 64-bit word: an `s` or `g` register, a PC, an address (R38, R66, R126). -/
abbrev DWord := BitVec 64

/-- An 8-bit operand code (R341). -/
abbrev Code := BitVec 8

/-- The 32 bytes of one sector (R5), byte 0 in bits [7:0]. -/
abbrev Sector := BitVec 256

/-- A table of values by number, sparse, in rising order of the numbers. -/
abbrev Tab (α : Type) := List (Nat × α)

end Sys2Proof
end

