-- ==== Sys2Proof/Syntax.lean ====
section
/-! DEFINITION. The rows of the table of operations: every encoded instruction (R343) with the fields of its
entry, and every event of the device (95_what_each_step_holds.md). -/

namespace Sys2Proof

/-- The common fields of R336 below `OP` and `FMT`: guard negate, guard predicate, flag attachment. -/
structure Ctl where
  gn : Bool
  gp : BitVec 3
  cf : BitVec 2
  deriving DecidableEq, Repr

/-- Operand B of an RRR or RRI instruction (R337): a register field, or IMM32. -/
inductive Src where
  | reg (c : Code)
  | imm (v : Word)
  deriving DecidableEq, Repr

/-- A branch target of the BRA format (R68): line offset and slot. -/
structure Target where
  off  : BitVec 29
  slot : BitVec 3
  deriving DecidableEq, Repr

/-- The address fields of the MEM format (R339): A, B as an index, `IDX`, `SH`, OFF24. -/
structure Addr where
  a   : Code
  b   : Code
  off : BitVec 24
  idx : Bool
  sh  : BitVec 3
  deriving DecidableEq, Repr

/-- The ordering and cache fields of the MEM format (R7, R8, R138, R339). -/
structure Mo where
  pol   : BitVec 4
  scope : BitVec 3
  order : BitVec 3
  size  : BitVec 3
  deriving DecidableEq, Repr

/-- A party that issues instructions (R27, R38, R167). A team number at or above `handlerBase` names the
supervisor handler of core `number - handlerBase` (R295). -/
inductive Party where
  | group (team g : Nat)
  | lead (team : Nat)
  | porter (core p : Nat)
  deriving DecidableEq, Repr

/-- R310: whose BAR0 an access of the host goes to: the PF's, or that of VF `v`. -/
inductive Bar0 where
  | pf
  | vf (v : Nat)
  deriving DecidableEq, Repr

/-- A host access through CXL.mem (R144, R165): a read, a write, or an atomic operation of R367. -/
inductive CxlAccess where
  | read
  | write (data : List Byte)
  | atomic (op : BitVec 4) (data cmp : DWord)
  deriving DecidableEq, Repr

/-- One row of the table of operations and events. -/
inductive Instr where
  -- class 0 (R364 to R466)
  | iadd (c : Ctl) (d a : Code) (b : Src) (sat : BitVec 2)
  | isub (c : Ctl) (d a : Code) (b : Src) (sat : BitVec 2)
  | imul (c : Ctl) (d a : Code) (b : Src)
  | imulh (c : Ctl) (d a : Code) (b : Src) (u : Bool)
  | imad (c : Ctl) (d a : Code) (b : Src) (e : Code)
  | imadw (c : Ctl) (d a : Code) (b : Src) (e : Code) (u : Bool)
  | idot4 (c : Ctl) (d a : Code) (b : Src) (e : Code) (ua ub : Bool)
  | imin (c : Ctl) (d a : Code) (b : Src) (u : Bool)
  | imax (c : Ctl) (d a : Code) (b : Src) (u : Bool)
  | iabs (c : Ctl) (d a : Code)
  | icmp (c : Ctl) (d a : Code) (b : Src) (cond : BitVec 4) (comb : BitVec 2) (pc : Code)
  | tern (c : Ctl) (d a : Code) (b : Src) (pc : Code)
  | loca (c : Ctl) (d a : Code) (b : Src) (sh : BitVec 3) (w : Bool)
  | bAnd (c : Ctl) (d a : Code) (b : Src)
  | bAndn (c : Ctl) (d a : Code) (b : Src)
  | bOr (c : Ctl) (d a : Code) (b : Src)
  | bXor (c : Ctl) (d a : Code) (b : Src)
  | shl (c : Ctl) (d a : Code) (b : Src)
  | shr (c : Ctl) (d a : Code) (b : Src)
  | sar (c : Ctl) (d a : Code) (b : Src)
  | funl (c : Ctl) (d a : Code) (b : Src) (e : Code)
  | bfx (c : Ctl) (d a : Code) (b : Src) (s : Bool)
  | bfi (c : Ctl) (d a : Code) (b : Src) (e : Code)
  | popc (c : Ctl) (d a : Code)
  | clz (c : Ctl) (d a : Code)
  | brev (c : Ctl) (d a : Code)
  | mixb (c : Ctl) (d a : Code) (b : Src) (e : Code) (fill : BitVec 2)
  | psop (c : Ctl) (d a b e : Code) (n : Bool) (terms : BitVec 24)
  | mov (c : Ctl) (d a : Code) (b64 : Bool)
  | movi (c : Ctl) (d : Code) (v : Word) (hi : Bool)
  -- class 1
  | fadd (c : Ctl) (d a : Code) (b : Src) (ty : BitVec 2) (rnd : BitVec 3)
  | fsub (c : Ctl) (d a : Code) (b : Src) (ty : BitVec 2) (rnd : BitVec 3)
  | fmul (c : Ctl) (d a : Code) (b : Src) (ty : BitVec 2) (rnd : BitVec 3)
  | ffma (c : Ctl) (d a : Code) (b : Src) (e : Code) (ty : BitVec 2) (rnd : BitVec 3)
  | fmin (c : Ctl) (d a : Code) (b : Src) (ty : BitVec 2)
  | fmax (c : Ctl) (d a : Code) (b : Src) (ty : BitVec 2)
  | fcmp (c : Ctl) (d a : Code) (b : Src) (ty : BitVec 2) (cond : BitVec 4) (comb : BitVec 2) (pc : Code)
  | frnd (c : Ctl) (d a : Code) (ty : BitVec 2) (rnd : BitVec 3)
  | fclass (c : Ctl) (d a : Code) (ty : BitVec 2)
  | fdivf (c : Ctl) (d a : Code) (b : Src) (ty : BitVec 2) (rnd : BitVec 3)
  -- class 2
  | cvt (c : Ctl) (d a e : Code) (mrg : Bool) (dsel ssel : BitVec 3) (sat : Bool) (rnd : BitVec 3) (df sf : BitVec 4)
  | rcp (c : Ctl) (d a : Code) (ty : BitVec 2) (rnd : BitVec 3)
  | rsq (c : Ctl) (d a : Code) (ty : BitVec 2) (rnd : BitVec 3)
  | sqrt (c : Ctl) (d a : Code) (ty : BitVec 2) (rnd : BitVec 3)
  | exp2 (c : Ctl) (d a : Code) (ty : BitVec 2) (rnd : BitVec 3)
  | log2 (c : Ctl) (d a : Code) (ty : BitVec 2) (rnd : BitVec 3)
  | sincos (c : Ctl) (d a : Code) (ty : BitVec 2) (rnd : BitVec 3)
  | tanh (c : Ctl) (d a : Code) (ty : BitVec 2) (rnd : BitVec 3)
  | rngc (c : Ctl) (d a b : Code)
  | edge (c : Ctl) (d a b e : Code) (conj : Bool)
  | swiz (c : Ctl) (d a b : Code) (useImm : Bool) (imm7 : BitVec 7) (mode : BitVec 2)
  | ballot (c : Ctl) (d a : Code)
  | redux (c : Ctl) (d a : Code) (op : BitVec 4) (rnd : BitVec 3)
  | scan (c : Ctl) (d a : Code) (op : BitVec 4) (rnd : BitVec 3) (x : Bool)
  -- class 3
  | ld (c : Ctl) (d : Code) (m : Addr) (o : Mo) (s : Bool)
  | st (c : Ctl) (a b : Code) (off : BitVec 24) (o : Mo)
  | lds (c : Ctl) (d : Code) (m : Addr) (size : BitVec 3) (s : Bool)
  | sts (c : Ctl) (a b : Code) (off : BitVec 24) (size : BitVec 3)
  | atom (c : Ctl) (d a b : Code) (off : BitVec 24) (o : Mo) (op : BitVec 4)
  | atomb (c : Ctl) (d a b : Code) (off : BitVec 24) (size : BitVec 3) (op : BitVec 4)
  | red (c : Ctl) (a b : Code) (off : BitVec 24) (o : Mo) (op : BitVec 4)
  | monw (c : Ctl) (d a b : Code) (off : BitVec 24) (o : Mo) (cond : BitVec 4)
  | pref (c : Ctl) (m : Addr) (pol : BitVec 4)
  | fence (c : Ctl) (scope order : BitVec 3)
  | cwb (c : Ctl) (a b : Code) (off : BitVec 24)
  | cinv (c : Ctl) (a b : Code) (off : BitVec 24)
  | iinv (c : Ctl) (a b : Code) (off : BitVec 24) (scope : BitVec 3)
  | cpin (c : Ctl) (d a b : Code) (off : BitVec 24)
  | cunpin (c : Ctl) (d a b : Code) (off : BitVec 24)
  -- class 4 (with WAYPT, a SYS-format instruction)
  | nop (c : Ctl)
  | br (c : Ctl) (t : Target)
  | brc (c : Ctl) (a b : Code) (cond : BitVec 3) (t : Target)
  | brv (c : Ctl) (a : Code) (t m : Target)
  | bdq (c : Ctl) (n : BitVec 6) (z : Bool) (t : Target)
  | brx (c : Ctl) (a : Code)
  | call (c : Ctl) (slide : BitVec 3) (t : Target)
  | callx (c : Ctl) (a : Code) (slide : BitVec 3)
  | ret (c : Ctl)
  | loop (c : Ctl) (a : Code) (t : Target)
  | exit (c : Ctl)
  | dqpush (c : Ctl) (a : Code)
  | dqpop (c : Ctl) (d : Code) (b32 : Bool)
  | setmeet (c : Ctl) (no : Bool) (m : Target)
  | waypt (c : Ctl) (mask : BitVec 16)
  | rstlbl (c : Ctl) (close : Bool) (t : Target)
  | yield (c : Ctl)
  | fbar (c : Ctl)
  -- class 5
  | qpush (c : Ctl) (a : Code) (q : BitVec 4)
  | qpop (c : Ctl) (d : Code) (q : BitVec 4) (e : Code)
  | qstat (c : Ctl) (d : Code) (q : BitVec 4)
  | qbind (c : Ctl) (d a : Code) (q : BitVec 4) (kind : BitVec 3) (slot : BitVec 4) (port : BitVec 3) (unbind : Bool)
  | tdset (c : Ctl) (a : Code) (td : BitVec 6) (w : Bool) (i : BitVec 3)
  | tdget (c : Ctl) (d : Code) (td : BitVec 6) (w : Bool) (i : BitVec 3)
  | mldw (c : Ctl) (a b : Code) (td : BitVec 6) (pair : Bool)
  | mswap (c : Ctl) (b : Code) (pair : Bool)
  | mma (c : Ctl) (d a b : Code) (td : BitVec 6) (pair : Bool)
  | mmaq (c : Ctl) (d b : Code) (td : BitVec 6) (q : BitVec 4) (pair : Bool)
  | mzero (c : Ctl) (d b : Code) (pair : Bool)
  | mlda (c : Ctl) (d a b : Code) (td : BitVec 6) (pair : Bool)
  | msta (c : Ctl) (d a b : Code) (td : BitVec 6) (pair : Bool) (rnd : BitVec 2) (sat : Bool)
  | pstart (c : Ctl) (d a b : Code) (unit : BitVec 3) (entry : BitVec 16) (n : BitVec 3) (resume : Bool)
  | pstop (c : Ctl) (d : Code) (unit : BitVec 3)
  | pstat (c : Ctl) (d : Code) (unit : BitVec 3) (sel : BitVec 16)
  | iload (c : Ctl) (d a b e : Code) (kind : BitVec 3)
  | ictlState (c : Ctl) (d a : Code) (kind : BitVec 3)
  | ictlResume (c : Ctl) (d a : Code) (kind : BitVec 3)
  | ictlDiscard (c : Ctl) (d a : Code) (kind : BitVec 3)
  | ictlFaultAddress (c : Ctl) (d a : Code) (kind : BitVec 3)
  | passbegin (c : Ctl) (d a : Code)
  | passend (c : Ctl) (d a : Code)
  | passstat (c : Ctl) (d a : Code)
  | resolve (c : Ctl) (d a : Code)
  -- class 6
  | xldi (c : Ctl) (d a : Code) (off : BitVec 24) (pol : BitVec 4) (size : BitVec 3) (sp : Bool)
  | xcoord (c : Ctl) (d a : Code) (td : BitVec 6)
  | xcopy (c : Ctl) (a b e : Code) (td : BitVec 6) (q : BitVec 4) (pad : BitVec 8) (dir : BitVec 3)
  | xgather (c : Ctl) (a b e : Code) (td : BitVec 6) (pad : BitVec 8) (n : BitVec 10)
  | xscatter (c : Ctl) (a b e : Code) (td : BitVec 6) (pad : BitVec 8) (n : BitVec 10)
  | xmcast (c : Ctl) (a b e : Code) (td : BitVec 6) (pad : BitVec 8)
  | xstmx (c : Ctl) (a b : Code) (td : BitVec 6) (pad : BitVec 8) (bf16 had : Bool)
  | xfill (c : Ctl) (a b e : Code) (td : BitVec 6) (s : Bool)
  | xarrive (c : Ctl) (imm : Bool) (a : Code) (v : BitVec 16)
  | xstamp (c : Ctl) (a b : Code) (off : BitVec 24) (pol : BitVec 4) (scope : BitVec 3)
  | xwait (c : Ctl) (bar : Bool) (a : Code) (n : BitVec 5)
  | xfence (c : Ctl) (scope order : BitVec 3)
  | xtrap (c : Ctl) (v : BitVec 16)
  | xend (c : Ctl)
  -- class 7
  | balloc (c : Ctl) (d : Code) (pair : Bool) (f : Code)
  | bfree (c : Ctl) (a : Code)
  | binit (c : Ctl) (a : Code) (n : BitVec 24)
  | barrive (c : Ctl) (a : Code) (n : BitVec 24) (f : Code)
  | bwait (c : Ctl) (d a : Code) (f : Code)
  | btest (c : Ctl) (d a : Code) (r f : Code)
  | binval (c : Ctl) (a : Code)
  | sync (c : Ctl)
  | rdsr (c : Ctl) (d : Code) (sr : BitVec 8)
  | wrsr (c : Ctl) (a : Code) (sr : BitVec 8) (imm : Bool) (v : BitVec 24)
  | trap (c : Ctl) (v : BitVec 24)
  | tret (c : Ctl) (act : BitVec 2)
  -- events of the device: no encoding; their arguments name what they act on
  /-- R295: the handler of `core` starts on its oldest waiting trap. -/
  | handlerEntry (core : Nat)
  /-- R91: the outstanding operation `op` of party `p` completes. -/
  | instructionComplete (p : Party) (op : Nat)
  /-- R57: the oldest reserved record of queue `q` of instance `inst` becomes visible. -/
  | queueRecordVisible (inst q : Nat)
  /-- R377: the oldest pending arrival of barrier entry `entry` of `core` is applied. -/
  | barriveArrivalApplied (core entry : Nat)
  /-- R153, R155: lane `lane` of the pending load `op` of party `p`, or its releasing store `op`, is performed at the
  slice. -/
  | sliceAccess (p : Party) (op lane : Nat)
  /-- R142: the fill of the SC line `line` completes. -/
  | scFillComplete (line : Nat)
  /-- R144: atomics waiting at physical address `pa` are applied in requester order. -/
  | sliceAtomic (pa : Nat)
  /-- R154: entry `i` of the write buffer of `core` drains. -/
  | writeBufferDrain (core i : Nat)
  /-- R162: the monitor `op` of party `p` re-reads lane `lane`. -/
  | monitorReread (p : Party) (op lane : Nat)
  /-- R131: the outstanding walk number `i` completes. -/
  | pageWalkComplete (i : Nat)
  /-- R134, R333: the fetch line at virtual address `va` enters the instruction cache of `core`, wanted or ahead of
  need. -/
  | instructionLineFill (core va : Nat)
  | lqwrWrite (ctx q : Nat) (v : Word)
  | lqcfgWrite (ctx q : Nat) (v : DWord)
  /-- R277: the packet at `LQRD` becomes the head of its queue. -/
  | packetBecomesHead (ctx q : Nat)
  /-- R280: the launch unit re-reads the tokens of launch `l`. -/
  | tokenReread (l : Nat)
  | admissionStep
  | contextZeroingDone (core : Nat)
  | porterSectionCopyDone (core : Nat)
  | teamStart (team : Nat)
  | teamRetirement (team : Nat)
  | launchEnd (l : Nat)
  | rebalanceInterval (inst : Nat)
  | deadlineApproach (ctx : Nat) (v : Word)
  | teamSave (team : Nat)
  | powerAlarmRaise (cores : List Nat)
  | powerAlarmLower
  | matrixRowWrite (core : Nat)
  | matrixCommandComplete (core : Nat)
  /-- R176: the next unit of transfer `x` of porter `p` of `core` is performed. -/
  | porterUnitPerform (core p x : Nat)
  /-- R180: the next unit of multicast `x` is delivered to core `dst`. -/
  | xmcastDelivery (core p x dst : Nat)
  | xstampWrite (core p : Nat)
  | porterFault (core p : Nat)
  | droppedCreditFault (core p : Nat)
  | porterDrainEnd (core p : Nat)
  | iloadComplete (ctx : Nat)
  /-- R229: the island `idx` of `kind` loads its owner's image. -/
  | islandLoad (kind idx : Nat)
  /-- R231: the sampler island of `core` takes the next unit of binding `b`. -/
  | sample2d (core b : Nat)
  | sampleCube (core b : Nat)
  | rayBox4 (core b : Nat)
  | rayTri (core b : Nat)
  | rayFrustum64 (core b : Nat)
  | blendColour (b : Nat)
  | rasterCoarse (quad b : Nat)
  | rasterPath (quad b : Nat)
  | islandResponseDeliver (kind idx : Nat)
  | islandFault (kind idx : Nat)
  | ctxCreate (ctx : Nat)
  | ctxReset (ctx : Nat)
  | ctxAttest (ctx : Nat)
  | ctxExport (ctx : Nat)
  | ctxImport (ctx : Nat)
  | ctxConfirm (ctx : Nat)
  | ctxRelease (ctx : Nat)
  | ctxAbort (ctx : Nat)
  | kesload (ctx : Nat)
  | ctxCommandComplete
  | tlbinvWrite (ctx : Nat) (v : DWord)
  | tlbInvalidationDone (ctx : Nat)
  | trapactWrite (ctx : Nat) (v : DWord)
  | coreReset (core : Nat)
  | scownWrite (p : Nat) (v : Byte)
  | ecccntClear
  | registerWrite (bar : Bar0) (off : Nat) (v : DWord)
  | deviceReset
  | vfFunctionLevelReset (vf : Nat)
  | hkcBringupComplete
  | bar2Write (off : Nat) (data : List Byte)
  | bar2Read (off n : Nat)
  /-- R144, R165: a host access through CXL.mem to `n` bytes. -/
  | hostCxlMemAccess (pa n : Nat) (acc : CxlAccess)
  | bandwidthWindowEnd (mc : Nat)
  | systemSpaceRefusal (pa : Nat)
  | vfEnable (n : Nat)
  deriving DecidableEq, Repr

end Sys2Proof
end

