-- ==== Sys2Proof/WellFormed.lean ====
section
/-! DEFINITION. Well-formed encoded instructions: the reserved values and unused subfields that trap
ILLEGAL_ENCODING with detail 0 (R338 to R340, step 6 of R346), and the checks with detail 0 that an entry lists (step
8). -/

namespace Sys2Proof

/-- R336: `CF` = 11 is illegal. -/
def Ctl.wf (c : Ctl) : Bool := c.cf != 3

/-- R68: slots 5 to 7 are illegal. -/
def Target.wf (t : Target) : Bool := decide (t.slot.toNat ≤ 4)

/-- R338: unused target fields are zero. -/
def Target.zero (t : Target) : Bool := t.off == 0 && t.slot == 0

/-- R340: `TYPE` 11 is reserved. -/
def tyOk (ty : BitVec 2) : Bool := ty != 3

/-- R340: `RND` 001 to 011 are reserved. -/
def rndOk (r : BitVec 3) : Bool := r == 0 || decide (4 ≤ r.toNat)

/-- R339 and the LD entry: `SH` 5 to 7 illegal; without `IDX`, B and `SH` are unused. -/
def Addr.wf (m : Addr) : Bool :=
  decide (m.sh.toNat ≤ 4) && (m.idx || (m.b == 0 && m.sh == 0))

/-- R339: SIZE 6, 7, SCOPE 7, ORDER 4 to 7 refused, and an ORDER needs a SCOPE. -/
def Mo.wf (o : Mo) : Bool :=
  decide (o.size.toNat ≤ 5) && o.scope != 7 && decide (o.order.toNat ≤ 3) && (o.order == 0 || o.scope != 0)

/-- R421, R432: ORDER 0, 1 or 3. -/
def Mo.loadOrder (o : Mo) : Bool := o.order != 2

/-- R469, R455: ORDER 0, 2 or 3. -/
def Mo.storeOrder (o : Mo) : Bool := o.order != 1

/-- R366, R432: SIZE b32 or b64. -/
def wordSize (s : BitVec 3) : Bool := s == 2 || s == 3

/-- R367: operations 0x0 to 0xA; `.fadd` is b32 only. -/
def atomOp (op : BitVec 4) (size : BitVec 3) : Bool := decide (op.toNat ≤ 10) && (op != 10 || size == 2)

/-- R398: elements of a format in one 32-bit register. -/
def elemCount (f : BitVec 4) : Nat :=
  if f = 0 ∨ f = 9 then 1 else if f = 1 ∨ f = 2 then 2 else if f = 7 then 8 else 4

/-- R398: INT8, INT32 and MXINT8 count as integers. -/
def isIntFmt (f : BitVec 4) : Bool := f == 8 || f == 9 || f == 10

/-- R119: `.sat` only for E4M3, E5M2, E3M2, E2M3 and E2M1. -/
def satDest (f : BitVec 4) : Bool := decide (3 ≤ f.toNat ∧ f.toNat ≤ 7)

/-- R440: a polarity bit needs its care bit, in term `j`. -/
def termOk (terms : BitVec 24) (j : Nat) : Bool :=
  let t := terms.toNat / 2 ^ (6 * j) % 64
  (t / 8) &&& (7 - t % 8) == 0

/-- Which encoded instructions step 6 of R346 accepts: reserved values of R338 to R340 and R68, and unused fields. Events
have no encoding. -/
def Instr.formOk : Instr → Bool
  | .iadd c .. | .isub c .. => c.wf
  | .imul c .. | .imulh c .. | .imad c .. | .imadw c .. | .idot4 c .. | .imin c .. | .imax c .. | .iabs c .. => c.wf
  | .icmp c _ _ _ _ comb pc => c.wf && (comb != 0 || pc == 0)
  | .tern c .. | .loca c .. | .bAnd c .. | .bAndn c .. | .bOr c .. | .bXor c .. | .shl c .. | .shr c .. | .sar c ..
  | .funl c .. | .bfx c .. | .bfi c .. | .popc c .. | .clz c .. | .brev c .. | .mixb c .. => c.wf
  | .psop c .. | .mov c .. | .movi c .. => c.wf
  | .fadd c _ _ _ ty rnd | .fsub c _ _ _ ty rnd | .fmul c _ _ _ ty rnd | .ffma c _ _ _ _ ty rnd
  | .fdivf c _ _ _ ty rnd | .frnd c _ _ ty rnd => c.wf && tyOk ty && rndOk rnd
  | .fmin c _ _ _ ty | .fmax c _ _ _ ty | .fclass c _ _ ty => c.wf && tyOk ty
  | .fcmp c _ _ _ ty _ comb pc => c.wf && tyOk ty && (comb != 0 || pc == 0)
  | .cvt c _ _ e mrg _ _ _ rnd _ _ => c.wf && rndOk rnd && (mrg || e == 0)
  | .rcp c _ _ ty rnd | .rsq c _ _ ty rnd | .sqrt c _ _ ty rnd | .exp2 c _ _ ty rnd | .log2 c _ _ ty rnd
  | .sincos c _ _ ty rnd | .tanh c _ _ ty rnd => c.wf && tyOk ty && rndOk rnd
  | .rngc c .. | .edge c .. | .ballot c .. => c.wf
  | .swiz c _ _ b useImm imm7 _ => c.wf && (if useImm then b == 0 else imm7 == 0)
  | .redux c _ _ op rnd | .scan c _ _ op rnd _ => c.wf && rndOk rnd && (op == 0 || rnd == 0)
  | .ld c _ m o _ => c.wf && m.wf && o.wf
  | .st c _ _ _ o | .atom c _ _ _ _ o _ | .red c _ _ _ o _ | .monw c _ _ _ _ o _ => c.wf && o.wf
  | .lds c _ m size _ => c.wf && m.wf && decide (size.toNat ≤ 5)
  | .sts c _ _ _ size | .atomb c _ _ _ _ size _ => c.wf && decide (size.toNat ≤ 5)
  | .pref c m _ => c.wf && m.wf
  | .fence c scope order => c.wf && (order == 0 || scope != 0) && scope != 7 && decide (order.toNat ≤ 4)
  | .cwb c .. | .cinv c .. | .cpin c .. | .cunpin c .. => c.wf
  | .iinv c _ _ _ scope => c.wf && scope != 7
  | .nop c | .brx c _ | .callx c _ _ | .ret c | .exit c | .dqpush c _ | .dqpop c _ _ | .waypt c _ | .yield c
  | .fbar c => c.wf
  | .br c t | .brc c _ _ _ t | .bdq c _ _ t | .call c _ t | .loop c _ t => c.wf && t.wf
  | .brv c _ t m => c.wf && t.wf && m.wf
  | .setmeet c nn m => c.wf && m.wf && (!nn || m.zero)
  | .rstlbl c close t => c.wf && t.wf && (!close || t.zero)
  | .qpush c .. | .qpop c .. | .qstat c .. => c.wf
  | .qbind c .. => c.wf
  | .tdset c _ _ w i | .tdget c _ _ w i => c.wf && (w || i == 0)
  | .mldw c .. | .mswap c .. | .mma c .. | .mmaq c .. | .mzero c .. | .mlda c .. | .msta c .. => c.wf
  | .pstart c _ a _ _ entry n resume => c.wf && (n != 0 || a == 0) && (!resume || (a == 0 && entry == 0 && n == 0))
  | .pstop c .. | .pstat c .. | .iload c .. | .ictlState c .. | .ictlResume c .. | .ictlDiscard c ..
  | .ictlFaultAddress c .. => c.wf
  | .passbegin c .. | .passend c .. | .passstat c .. | .resolve c .. => c.wf
  | .xldi c _ _ _ _ size _ => c.wf && decide (size.toNat ≤ 5)
  | .xcoord c .. | .xgather c .. | .xscatter c .. | .xmcast c .. | .xstmx c .. | .xtrap c .. | .xend c => c.wf
  | .xcopy c a b e td q pad dir =>
    c.wf && (if dir.toNat ≤ 1 then e == 0 && q == 0
      else if dir.toNat ≤ 3 then b == 0 && e == 0 && pad == 0
      else decide (6 ≤ dir.toNat) || (a == 0 && td == 0 && pad == 0))
  | .xfill c _ b _ td s => c.wf && (if s then td == 0 else b == 0)
  | .xarrive c imm a v => c.wf && (if imm then a == 0 else v == 0)
  | .xstamp c _ _ _ _ scope => c.wf && scope != 7
  | .xwait c bar a n => c.wf && (if bar then n == 0 else a == 0)
  | .xfence c scope order => c.wf && (order == 0 || scope != 0) && scope != 7 && decide (order.toNat ≤ 4)
  | .balloc c .. | .bfree c .. | .barrive c .. | .bwait c .. | .btest c .. | .binval c .. | .sync c | .rdsr c ..
  | .trap c .. | .tret c .. | .binit c .. => c.wf
  | .wrsr c a _ imm v => c.wf && (if imm then a == 0 else v == 0)
  | .handlerEntry .. | .instructionComplete .. | .queueRecordVisible .. | .barriveArrivalApplied ..
  | .sliceAccess .. | .scFillComplete .. | .sliceAtomic .. | .writeBufferDrain .. | .monitorReread ..
  | .pageWalkComplete .. | .instructionLineFill .. | .lqwrWrite .. | .lqcfgWrite .. | .packetBecomesHead ..
  | .tokenReread .. | .admissionStep .. | .contextZeroingDone .. | .porterSectionCopyDone .. | .teamStart ..
  | .teamRetirement .. | .launchEnd .. | .rebalanceInterval .. | .deadlineApproach .. | .teamSave ..
  | .powerAlarmRaise .. | .powerAlarmLower .. | .matrixRowWrite .. | .matrixCommandComplete ..
  | .porterUnitPerform .. | .xmcastDelivery .. | .xstampWrite .. | .porterFault .. | .droppedCreditFault ..
  | .porterDrainEnd .. | .iloadComplete .. | .islandLoad .. | .sample2d .. | .sampleCube .. | .rayBox4 ..
  | .rayTri .. | .rayFrustum64 .. | .blendColour .. | .rasterCoarse .. | .rasterPath .. | .islandResponseDeliver ..
  | .islandFault .. | .ctxCreate .. | .ctxReset .. | .ctxAttest .. | .ctxExport .. | .ctxImport .. | .ctxConfirm ..
  | .ctxRelease .. | .ctxAbort .. | .kesload .. | .ctxCommandComplete .. | .tlbinvWrite ..
  | .tlbInvalidationDone .. | .trapactWrite .. | .coreReset .. | .scownWrite .. | .ecccntClear ..
  | .registerWrite .. | .deviceReset .. | .vfFunctionLevelReset .. | .hkcBringupComplete .. | .bar2Write ..
  | .bar2Read .. | .hostCxlMemAccess .. | .bandwidthWindowEnd .. | .systemSpaceRefusal .. | .vfEnable .. => false

/-- The checks of ILLEGAL_ENCODING with detail 0 that the entries list (R346 step 8). -/
def Instr.entryOk : Instr → Bool
  | .iadd _ _ _ _ sat | .isub _ _ _ _ sat => sat != 3
  | .icmp _ _ _ _ cond _ _ => decide (cond.toNat < 10)
  | .psop _ _ _ _ _ _ terms => termOk terms 0 && termOk terms 1 && termOk terms 2 && termOk terms 3
  | .fcmp _ _ _ _ _ cond _ _ => decide (cond.toNat < 13)
  | .cvt _ _ _ _ _ dsel ssel sat _ df sf =>
    decide (sf.toNat < 12) && decide (df.toNat < 12) && decide (ssel.toNat < elemCount sf) &&
      decide (dsel.toNat < elemCount df) && !(isIntFmt sf && isIntFmt df) &&
      !(sf == 11 && isIntFmt df) && !(df == 11 && isIntFmt sf) && (!sat || satDest df)
  | .redux _ _ _ op _ | .scan _ _ _ op _ _ => decide (op.toNat < 9)
  | .ld _ _ _ o s => o.loadOrder && (!s || decide (o.size.toNat < 3))
  | .st _ _ _ _ o => o.storeOrder
  | .lds _ _ _ size s => decide (size.toNat ≤ 4) && (!s || decide (size.toNat < 2))
  | .sts _ _ _ _ size => decide (size.toNat ≤ 4)
  | .atom _ _ _ _ _ o op => wordSize o.size && atomOp op o.size
  | .atomb _ _ _ _ _ size op => wordSize size && atomOp op size
  | .red _ _ _ _ o op => o.storeOrder && wordSize o.size && atomOp op o.size && op != 9
  | .monw _ _ _ _ _ o cond => o.loadOrder && wordSize o.size && decide (cond.toNat ≤ 6)
  | .fence _ _ order => order != 0
  | .iinv _ _ _ _ scope => decide (3 ≤ scope.toNat)
  | .qbind _ _ _ _ kind _ _ _ => decide (kind.toNat < 4)
  | .pstart _ _ _ b unit entry n resume =>
    decide (unit.toNat < 4) && decide (n.toNat ≤ 4) && decide (entry.toNat / 8 % 8 = 0) && decide (entry.toNat % 8 ≤ 4) &&
      (!resume || b == 0xD0)
  | .pstop _ _ unit | .pstat _ _ unit _ => decide (unit.toNat < 4)
  | .iload _ _ _ _ _ kind | .ictlState _ _ _ kind | .ictlResume _ _ _ kind | .ictlDiscard _ _ _ kind
  | .ictlFaultAddress _ _ _ kind => decide (kind.toNat < 4)
  | .xcopy _ _ _ _ _ _ _ dir => decide (dir.toNat ≤ 5)
  | .xstamp _ _ _ _ _ scope => scope != 0
  | .xfence _ _ order => order != 0 && order != 4
  | .binit _ _ n => n != 0
  | _ => true

/-- A well-formed encoded instruction: one that no check of ILLEGAL_ENCODING with detail 0 refuses. -/
def Instr.wf (i : Instr) : Bool := i.formOk && i.entryOk

end Sys2Proof
end

