-- ==== Sys2Proof/Decode.lean ====
section
/-! DEFINITION. The decoder of 96-bit instruction words (R336 to R346) and the encoder, written from the same
tables. A word is a `Nat` whose bit n is instruction bit n. -/

namespace Sys2Proof

/-- Bits [lo + n - 1 : lo] of a word. -/
def fld (w lo n : Nat) : BitVec n := BitVec.ofNat n (w / 2 ^ lo)

/-- One bit of a word. -/
def bit (w lo : Nat) : Bool := w / 2 ^ lo % 2 == 1

/-- R338: the `n` bits from `lo` are unused and hold zero. -/
def zr (w lo n : Nat) : Bool := w / 2 ^ lo % 2 ^ n == 0

/-- Why a word is no instruction: the detail of ILLEGAL_ENCODING (R346 steps 2 to 6); or, with its operand codes still
to be checked first (step 7), an ICTL whose selector R234 does not list or whose UNIT names no kind of island, and an
XSTAMP of another SIZE than 3, with the detail of step 8. -/
inductive Bad where
  | detail (n : Nat)
  | selector (c : Ctl) (d a : Code) (sel : Nat)
  | stampSize (c : Ctl) (a b : Code)
  deriving DecidableEq, Repr

/-- R345: the assigned opcodes. -/
def opAssigned (op : Nat) : Bool :=
  op ≤ 0x00C || (0x010 ≤ op && op ≤ 0x01E) || op == 0x020 || op == 0x021 || (0x080 ≤ op && op ≤ 0x089) ||
  (0x100 ≤ op && op ≤ 0x109) || (0x110 ≤ op && op ≤ 0x113) || (0x180 ≤ op && op ≤ 0x18E) ||
  (0x200 ≤ op && op ≤ 0x211) || (0x280 ≤ op && op ≤ 0x283) || op == 0x288 || op == 0x289 ||
  (0x290 ≤ op && op ≤ 0x296) || (0x2A0 ≤ op && op ≤ 0x2A2) || op == 0x2B0 || op == 0x2B1 ||
  (0x300 ≤ op && op ≤ 0x30D) || (0x380 ≤ op && op ≤ 0x387) || op == 0x390 || op == 0x391 || op == 0x398 || op == 0x399

/-- R343: the opcodes that the map marks with formats 0 and 1. -/
def opRRI (op : Nat) : Bool :=
  op ≤ 0x008 || (0x00A ≤ op && op ≤ 0x00C) || (0x010 ≤ op && op ≤ 0x019) || op == 0x01D ||
  (0x080 ≤ op && op ≤ 0x086) || op == 0x089

/-- R343: the opcodes of the BRA format. -/
def opBRA (op : Nat) : Bool :=
  (0x201 ≤ op && op ≤ 0x204) || op == 0x206 || op == 0x209 || op == 0x20D || op == 0x20F

/-- R343, column "Fmt". -/
def fmtOk (op fmt : Nat) : Bool :=
  if op == 0x021 then fmt == 1
  else if opRRI op then fmt ≤ 1
  else if op < 0x180 then fmt == 0
  else if op < 0x200 then fmt == 2
  else if op < 0x280 then if op == 0x20E then fmt == 5 else if opBRA op then fmt == 3 else fmt == 0
  else if op < 0x300 then fmt == 4
  else if op < 0x380 then
    if op == 0x300 || op == 0x309 || op == 0x30B then fmt == 2 else if op ≤ 0x307 then fmt == 4 else fmt == 5
  else fmt == 5

/-- R336: guard and flag fields. -/
def decCtl (w : Nat) : Ctl := ⟨bit w 82, fld w 79 3, fld w 77 2⟩

/-- The instruction when its unused fields are zero (R338) and no field holds a reserved value, else the
ILLEGAL_ENCODING of step 6. The checks that its entry lists (step 8) come after those of its operand codes, at issue. -/
def need (ok : Bool) (i : Instr) : Except Bad Instr :=
  if ok && i.formOk then .ok i else .error (.detail 0)

/-- R337: operand B, or IMM32. -/
def decSrc (w fmt : Nat) : Src := if fmt == 1 then .imm (fld w 29 32) else .reg (fld w 53 8)

/-- MOD bits from `lo` upwards are zero: MOD has 45 bits in RRR and 29 in RRI (R337). -/
def hiZ (w fmt lo : Nat) : Bool := if fmt == 1 then zr w lo (29 - lo) else zr w lo (45 - lo)

/-- MOD bits from `lo` upwards, and C in RRR, are zero. -/
def hiZC (w fmt lo : Nat) : Bool := if fmt == 1 then zr w lo (29 - lo) else zr w lo (53 - lo)

/-- The C operand: bits [52:45] in RRR, bits [lo+7:lo] of MOD in RRI. -/
def decC (w fmt lo : Nat) : Code := if fmt == 1 then fld w lo 8 else fld w 45 8

/-- In RRR the MOD bits [hi:lo] that would hold C in RRI are zero. -/
def cZ (w fmt lo : Nat) : Bool := fmt == 1 || zr w lo 8

/-- R68: the target of a BRA-format instruction. -/
def decTgt (w : Nat) : Target := ⟨fld w 48 29, fld w 45 3⟩

/-- R68: the meet of a BRA-format instruction. -/
def decMeet (w : Nat) : Target := ⟨fld w 16 29, fld w 13 3⟩

/-- R339: the address fields. -/
def decAddr (w : Nat) : Addr := ⟨fld w 61 8, fld w 53 8, fld w 29 24, bit w 11, fld w 8 3⟩

/-- R339: the cache, scope, order and size fields. -/
def decMo (w : Nat) : Mo := ⟨fld w 25 4, fld w 22 3, fld w 19 3, fld w 16 3⟩

/-- Classes 0 to 2. -/
def decodeAlu (w op fmt : Nat) : Except Bad Instr :=
  let c := decCtl w
  let d := fld w 69 8
  let a := fld w 61 8
  let br := fld w 53 8
  let b := decSrc w fmt
  let ty : BitVec 2 := fld w 0 2
  let rnd : BitVec 3 := fld w 2 3
  match op with
  | 0x000 => need (zr w 0 8 && hiZC w fmt 10) (.iadd c d a b (fld w 8 2))
  | 0x001 => need (zr w 0 8 && hiZC w fmt 10) (.isub c d a b (fld w 8 2))
  | 0x002 => need (hiZC w fmt 0) (.imul c d a b)
  | 0x003 => need (zr w 0 8 && hiZC w fmt 9) (.imulh c d a b (bit w 8))
  | 0x004 => need (cZ w fmt 0 && hiZ w fmt 8) (.imad c d a b (decC w fmt 0))
  | 0x005 => need (cZ w fmt 0 && hiZ w fmt 9) (.imadw c d a b (decC w fmt 0) (bit w 8))
  | 0x006 => need (cZ w fmt 0 && hiZ w fmt 10) (.idot4 c d a b (decC w fmt 0) (bit w 8) (bit w 9))
  | 0x007 => need (zr w 0 8 && hiZC w fmt 9) (.imin c d a b (bit w 8))
  | 0x008 => need (zr w 0 8 && hiZC w fmt 9) (.imax c d a b (bit w 8))
  | 0x009 => need (zr w 0 61) (.iabs c d a)
  | 0x00A => need (zr w 0 5 && cZ w fmt 11 && hiZ w fmt 19)
      (.icmp c d a b (fld w 5 4) (fld w 9 2) (decC w fmt 11))
  | 0x00B => need (cZ w fmt 0 && hiZ w fmt 8) (.tern c d a b (decC w fmt 0))
  | 0x00C => need (hiZC w fmt 4) (.loca c d a b (fld w 0 3) (bit w 3))
  | 0x010 => need (hiZC w fmt 0) (.bAnd c d a b)
  | 0x011 => need (hiZC w fmt 0) (.bOr c d a b)
  | 0x012 => need (hiZC w fmt 0) (.bXor c d a b)
  | 0x013 => need (hiZC w fmt 0) (.bAndn c d a b)
  | 0x014 => need (hiZC w fmt 0) (.shl c d a b)
  | 0x015 => need (hiZC w fmt 0) (.shr c d a b)
  | 0x016 => need (hiZC w fmt 0) (.sar c d a b)
  | 0x017 => need (cZ w fmt 0 && hiZ w fmt 8) (.funl c d a b (decC w fmt 0))
  | 0x018 => need (hiZC w fmt 1) (.bfx c d a b (bit w 0))
  | 0x019 => need (cZ w fmt 0 && hiZ w fmt 8) (.bfi c d a b (decC w fmt 0))
  | 0x01A => need (zr w 0 61) (.popc c d a)
  | 0x01B => need (zr w 0 61) (.clz c d a)
  | 0x01C => need (zr w 0 61) (.brev c d a)
  | 0x01D => need (cZ w fmt 0 && hiZ w fmt 10) (.mixb c d a b (decC w fmt 0) (fld w 8 2))
  | 0x01E => need (zr w 25 20) (.psop c d a br (fld w 45 8) (bit w 24) (fld w 0 24))
  | 0x020 => need (zr w 1 60) (.mov c d a (bit w 0))
  | 0x021 => need (zr w 61 8 && zr w 1 28) (.movi c d (fld w 29 32) (bit w 0))
  | 0x080 => need (hiZC w fmt 5) (.fadd c d a b ty rnd)
  | 0x081 => need (hiZC w fmt 5) (.fsub c d a b ty rnd)
  | 0x082 => need (hiZC w fmt 5) (.fmul c d a b ty rnd)
  | 0x083 => need (cZ w fmt 5 && hiZ w fmt 13) (.ffma c d a b (decC w fmt 5) ty rnd)
  | 0x084 => need (hiZC w fmt 2) (.fmin c d a b ty)
  | 0x085 => need (hiZC w fmt 2) (.fmax c d a b ty)
  | 0x086 => need (zr w 2 3 && cZ w fmt 11 && hiZ w fmt 19)
      (.fcmp c d a b ty (fld w 5 4) (fld w 9 2) (decC w fmt 11))
  | 0x087 => need (zr w 5 56) (.frnd c d a ty rnd)
  | 0x088 => need (zr w 2 59) (.fclass c d a ty)
  | 0x089 => need (hiZC w fmt 5) (.fdivf c d a b ty rnd)
  | 0x100 => need (zr w 19 26 && zr w 53 8)
      (.cvt c d a (fld w 45 8) (bit w 18) (fld w 15 3) (fld w 12 3) (bit w 11) (fld w 8 3) (fld w 4 4) (fld w 0 4))
  | 0x101 => need (zr w 5 56) (.rcp c d a ty rnd)
  | 0x102 => need (zr w 5 56) (.rsq c d a ty rnd)
  | 0x103 => need (zr w 5 56) (.sqrt c d a ty rnd)
  | 0x104 => need (zr w 5 56) (.exp2 c d a ty rnd)
  | 0x105 => need (zr w 5 56) (.log2 c d a ty rnd)
  | 0x106 => need (zr w 5 56) (.sincos c d a ty rnd)
  | 0x107 => need (zr w 5 56) (.tanh c d a ty rnd)
  | 0x108 => need (zr w 0 53) (.rngc c d a br)
  | 0x109 => need (zr w 1 44) (.edge c d a br (fld w 45 8) (bit w 0))
  | 0x110 => need (zr w 10 43) (.swiz c d a br (bit w 2) (fld w 3 7) (fld w 0 2))
  | 0x111 => need (zr w 0 61) (.ballot c d a)
  | 0x112 => need (zr w 7 54) (.redux c d a (fld w 0 4) (fld w 4 3))
  | 0x113 => need (zr w 8 53) (.scan c d a (fld w 0 4) (fld w 4 3) (bit w 7))
  | _ => .error (.detail (0x10000 + op))

/-- Class 3 (R339, R366, R393, R411, R421, R432, R441, R455, R469). -/
def decodeMem (w op : Nat) : Except Bad Instr :=
  let c := decCtl w
  let d := fld w 69 8
  let a := fld w 61 8
  let b := fld w 53 8
  let off := fld w 29 24
  let m := decAddr w
  let o := decMo w
  let sz := fld w 16 3
  let opx := fld w 12 4
  match op with
  | 0x180 => need (zr w 12 4 && zr w 1 7) (.ld c d m o (bit w 0))
  | 0x181 => need (zr w 69 8 && zr w 0 16) (.st c a b off o)
  | 0x182 => need (zr w 19 10 && zr w 12 4 && zr w 1 7) (.lds c d m sz (bit w 0))
  | 0x183 => need (zr w 69 8 && zr w 19 10 && zr w 0 16) (.sts c a b off sz)
  | 0x184 => need (zr w 0 12) (.atom c d a b off o opx)
  | 0x185 => need (zr w 19 10 && zr w 0 12) (.atomb c d a b off sz opx)
  | 0x186 => need (zr w 69 8 && zr w 0 12) (.red c a b off o opx)
  | 0x187 => need (zr w 0 12) (.monw c d a b off o opx)
  | 0x188 => need (zr w 69 8 && zr w 12 13 && zr w 0 8) (.pref c m (fld w 25 4))
  | 0x189 => need (zr w 25 52 && zr w 0 19) (.fence c (fld w 22 3) (fld w 19 3))
  | 0x18A => need (zr w 69 8 && zr w 0 29) (.cwb c a b off)
  | 0x18B => need (zr w 69 8 && zr w 0 29) (.cinv c a b off)
  | 0x18C => need (zr w 69 8 && zr w 25 4 && zr w 0 22) (.iinv c a b off (fld w 22 3))
  | 0x18D => need (zr w 0 29) (.cpin c d a b off)
  | 0x18E => need (zr w 0 29) (.cunpin c d a b off)
  | _ => .error (.detail (0x10000 + op))

/-- Class 4. -/
def decodeCtrl (w op : Nat) : Except Bad Instr :=
  let c := decCtl w
  let a := fld w 61 8
  let ab := fld w 5 8
  let t := decTgt w
  match op with
  | 0x200 => need (zr w 0 77) (.nop c)
  | 0x201 => need (zr w 0 45) (.br c t)
  | 0x202 => need (zr w 24 21 && zr w 13 3 && zr w 3 2) (.brc c ab (fld w 16 8) (fld w 0 3) t)
  | 0x203 => need (zr w 0 5) (.brv c ab t (decMeet w))
  | 0x204 => need (zr w 23 22 && zr w 0 16) (.bdq c (fld w 16 6) (bit w 22) t)
  | 0x205 => need (zr w 69 8 && zr w 0 61) (.brx c a)
  | 0x206 => need (zr w 3 42) (.call c (fld w 0 3) t)
  | 0x207 => need (zr w 69 8 && zr w 3 58) (.callx c a (fld w 0 3))
  | 0x208 => need (zr w 0 77) (.ret c)
  | 0x209 => need (zr w 13 32 && zr w 0 5) (.loop c ab t)
  | 0x20A => need (zr w 0 77) (.exit c)
  | 0x20B => need (zr w 69 8 && zr w 0 61) (.dqpush c a)
  | 0x20C => need (zr w 1 68) (.dqpop c (fld w 69 8) (bit w 0))
  | 0x20D => need (zr w 45 32 && zr w 1 12) (.setmeet c (bit w 0) (decMeet w))
  | 0x20E => need (zr w 45 32 && zr w 0 29) (.waypt c (fld w 29 16))
  | 0x20F => need (zr w 1 44) (.rstlbl c (bit w 0) t)
  | 0x210 => need (zr w 0 77) (.yield c)
  | 0x211 => need (zr w 0 77) (.fbar c)
  | _ => .error (.detail (0x10000 + op))

/-- R230, R234, R252: the ICTL rows by selector. -/
def decodeIctl (w : Nat) : Except Bad Instr :=
  let c := decCtl w
  let d := fld w 69 8
  let a := fld w 61 8
  let k : BitVec 3 := fld w 32 3
  let sel := w / 2 ^ 16 % 2 ^ 16
  let ok := zr w 35 26 && zr w 0 16
  match sel with
  | 0x0000 => need ok (.ictlState c d a k)
  | 0x0001 => need ok (.ictlResume c d a k)
  | 0x0002 => need ok (.ictlDiscard c d a k)
  | 0x0003 => need ok (.ictlFaultAddress c d a k)
  | _ =>
    if ok && c.wf then
      if k == 0 && sel == 0x10 then .ok (.passbegin c d a)
      else if k == 0 && sel == 0x11 then .ok (.passend c d a)
      else if k == 0 && sel == 0x12 then .ok (.passstat c d a)
      else if k == 0 && sel == 0x13 then .ok (.resolve c d a)
      else .error (.selector c d a (if k.toNat < 4 ∨ sel / 16 = 1 then sel else 0))
    else .error (.detail 0)

/-- Class 5. -/
def decodeEng (w op : Nat) : Except Bad Instr :=
  let c := decCtl w
  let d := fld w 69 8
  let a := fld w 61 8
  let b := fld w 53 8
  let td := fld w 39 6
  let q := fld w 35 4
  let u := fld w 32 3
  match op with
  | 0x280 => need (zr w 69 8 && zr w 39 22 && zr w 0 35) (.qpush c a q)
  | 0x281 => need (zr w 39 30 && zr w 8 27) (.qpop c d q (fld w 0 8))
  | 0x282 => need (zr w 39 30 && zr w 0 35) (.qstat c d q)
  | 0x283 => need (zr w 39 22 && zr w 28 4 && zr w 19 5 && zr w 1 15)
      (.qbind c d a q u (fld w 24 4) (fld w 16 3) (bit w 0))
  | 0x288 => need (zr w 69 8 && zr w 45 16 && zr w 19 20 && zr w 1 15) (.tdset c a td (bit w 0) (fld w 16 3))
  | 0x289 => need (zr w 45 24 && zr w 19 20 && zr w 1 15) (.tdget c d td (bit w 0) (fld w 16 3))
  | 0x290 => need (zr w 69 8 && zr w 45 8 && zr w 1 38) (.mldw c a b td (bit w 0))
  | 0x291 => need (zr w 61 16 && zr w 1 52) (.mswap c b (bit w 0))
  | 0x292 => need (zr w 45 8 && zr w 1 38) (.mma c d a b td (bit w 0))
  | 0x293 => need (zr w 61 8 && zr w 45 8 && zr w 1 34) (.mmaq c d b td q (bit w 0))
  | 0x294 => need (zr w 61 8 && zr w 1 52) (.mzero c d b (bit w 0))
  | 0x295 => need (zr w 45 8 && zr w 1 38) (.mlda c d a b td (bit w 0))
  | 0x296 => need (zr w 45 8 && zr w 4 35) (.msta c d a b td (bit w 0) (fld w 1 2) (bit w 3))
  | 0x2A0 => need (zr w 35 18 && zr w 4 12) (.pstart c d a b u (fld w 16 16) (fld w 0 3) (bit w 3))
  | 0x2A1 => need (zr w 35 34 && zr w 0 32) (.pstop c d u)
  | 0x2A2 => need (zr w 35 34 && zr w 0 16) (.pstat c d u (fld w 16 16))
  | 0x2B0 => need (zr w 35 10 && zr w 0 32) (.iload c d a b (fld w 45 8) u)
  | 0x2B1 => decodeIctl w
  | _ => .error (.detail (0x10000 + op))

/-- Class 6 (R484, R485). -/
def decodePorter (w op : Nat) : Except Bad Instr :=
  let c := decCtl w
  let d := fld w 69 8
  let a := fld w 61 8
  let b := fld w 53 8
  let e := fld w 45 8
  let td := fld w 39 6
  let q := fld w 35 4
  let pad := fld w 16 8
  let lowZ := zr w 24 11
  match op with
  | 0x300 => need (zr w 53 8 && zr w 19 6 && zr w 1 15) (.xldi c d a (fld w 29 24) (fld w 25 4) (fld w 16 3) (bit w 0))
  | 0x301 => need (zr w 45 16 && zr w 0 39) (.xcoord c d a td)
  | 0x302 => need (zr w 69 8 && lowZ && zr w 3 13) (.xcopy c a b e td q pad (fld w 0 3))
  | 0x303 => need (zr w 69 8 && lowZ && zr w 35 4 && zr w 10 6) (.xgather c a b e td pad (fld w 0 10))
  | 0x304 => need (zr w 69 8 && lowZ && zr w 35 4 && zr w 10 6) (.xscatter c a b e td pad (fld w 0 10))
  | 0x305 => need (zr w 69 8 && lowZ && zr w 35 4 && zr w 0 16) (.xmcast c a b e td pad)
  | 0x306 => need (zr w 69 8 && zr w 45 8 && lowZ && zr w 35 4 && zr w 2 14) (.xstmx c a b td pad (bit w 0) (bit w 1))
  | 0x307 => need (zr w 69 8 && zr w 16 23 && zr w 1 15) (.xfill c a b e td (bit w 0))
  | 0x308 => need (zr w 69 8 && zr w 45 16 && zr w 1 28) (.xarrive c (bit w 0) a (fld w 29 16))
  | 0x309 =>
    let ok := zr w 69 8 && zr w 19 3 && zr w 0 16
    let i : Instr := .xstamp c a b (fld w 29 24) (fld w 25 4) (fld w 22 3)
    if fld w 16 3 == (3 : BitVec 3) then need ok i
    else if ok && i.formOk && decide ((fld w 16 3).toNat < 6) then .error (.stampSize c a b)
    else .error (.detail 0)
  | 0x30A => need (zr w 69 8 && zr w 34 27 && zr w 1 28) (.xwait c (bit w 0) a (fld w 29 5))
  | 0x30B => need (zr w 25 52 && zr w 0 19) (.xfence c (fld w 22 3) (fld w 19 3))
  | 0x30C => need (zr w 45 32 && zr w 0 29) (.xtrap c (fld w 29 16))
  | 0x30D => need (zr w 0 77) (.xend c)
  | _ => .error (.detail (0x10000 + op))

/-- Class 7 (R372, R452, R472, R477, R478, R480). -/
def decodeSys (w op : Nat) : Except Bad Instr :=
  let c := decCtl w
  let d := fld w 69 8
  let a := fld w 61 8
  let sr := fld w 53 8
  let n := fld w 29 24
  match op with
  | 0x380 => need (zr w 29 40 && zr w 9 20) (.balloc c d (bit w 8) (fld w 0 8))
  | 0x381 => need (zr w 69 8 && zr w 0 61) (.bfree c a)
  | 0x382 => need (zr w 69 8 && zr w 53 8 && zr w 0 29) (.binit c a n)
  | 0x383 => need (zr w 69 8 && zr w 53 8 && zr w 8 21) (.barrive c a n (fld w 0 8))
  | 0x384 => need (zr w 8 53) (.bwait c d a (fld w 0 8))
  | 0x385 => need (zr w 16 45) (.btest c d a (fld w 8 8) (fld w 0 8))
  | 0x386 => need (zr w 69 8 && zr w 0 61) (.binval c a)
  | 0x387 => need (zr w 0 77) (.sync c)
  | 0x390 => need (zr w 61 8 && zr w 0 53) (.rdsr c d sr)
  | 0x391 => need (zr w 69 8 && zr w 1 28) (.wrsr c a sr (bit w 0) n)
  | 0x398 => need (zr w 53 24 && zr w 0 29) (.trap c n)
  | 0x399 => need (zr w 31 46 && zr w 0 29) (.tret c (fld w 29 2))
  | _ => .error (.detail (0x10000 + op))

/-- R346, steps 2 to 6 (the part of step 5 that needs no line word). -/
def decode (w : Nat) : Except Bad Instr :=
  let op := w / 2 ^ 86 % 1024
  let fmt := w / 2 ^ 83 % 8
  if 6 ≤ fmt then .error (.detail (0x20000 + fmt))
  else if !opAssigned op then .error (.detail (0x10000 + op))
  else if !fmtOk op fmt then .error (.detail (0x20000 + fmt))
  else if op < 0x180 then decodeAlu w op fmt
  else if op < 0x200 then decodeMem w op
  else if op < 0x280 then decodeCtrl w op
  else if op < 0x300 then decodeEng w op
  else if op < 0x380 then decodePorter w op
  else decodeSys w op

/-- The host's view: the word's bits are the 96 instruction bits, bit 0 lowest (R336). -/
def decodeTableWord (nbits w : Nat) : Option Instr :=
  match decode (w % 2 ^ min nbits 96) with
  | .ok i => some i
  | .error _ => none

/-! ### The encoder -/

/-- The common fields of R336. -/
def encHead (op fmt : Nat) (c : Ctl) : Nat :=
  op * 2 ^ 86 + fmt * 2 ^ 83 + c.gn.toNat * 2 ^ 82 + c.gp.toNat * 2 ^ 79 + c.cf.toNat * 2 ^ 77

/-- D and A. -/
def encDA (d a : Code) : Nat := d.toNat * 2 ^ 69 + a.toNat * 2 ^ 61

/-- An RRR or RRI instruction without a C operand. -/
def encAB (op : Nat) (c : Ctl) (d a : Code) (b : Src) (mod : Nat) : Nat :=
  match b with
  | .reg r => encHead op 0 c + encDA d a + r.toNat * 2 ^ 53 + mod
  | .imm v => encHead op 1 c + encDA d a + v.toNat * 2 ^ 29 + mod

/-- An RRR or RRI instruction with a C operand, which RRI holds at MOD bit `lo`. -/
def encABC (op : Nat) (c : Ctl) (d a : Code) (b : Src) (e : Code) (lo mod : Nat) : Nat :=
  match b with
  | .reg r => encHead op 0 c + encDA d a + r.toNat * 2 ^ 53 + e.toNat * 2 ^ 45 + mod
  | .imm v => encHead op 1 c + encDA d a + v.toNat * 2 ^ 29 + e.toNat * 2 ^ lo + mod

/-- `TYPE` and `RND` (R340). -/
def encTy (ty : BitVec 2) (rnd : BitVec 3) : Nat := ty.toNat + rnd.toNat * 2 ^ 2

/-- A register-only RRR instruction with operands D and A. -/
def encR (op : Nat) (c : Ctl) (d a : Code) (mod : Nat) : Nat := encHead op 0 c + encDA d a + mod

/-- MEM format: A, B, OFF24. -/
def encM (op : Nat) (c : Ctl) (d a b : Code) (off : BitVec 24) (low : Nat) : Nat :=
  encHead op 2 c + encDA d a + b.toNat * 2 ^ 53 + off.toNat * 2 ^ 29 + low

/-- POL, SCOPE, ORDER and SIZE. -/
def encMo (o : Mo) : Nat :=
  o.pol.toNat * 2 ^ 25 + o.scope.toNat * 2 ^ 22 + o.order.toNat * 2 ^ 19 + o.size.toNat * 2 ^ 16

/-- `IDX` and `SH`. -/
def encIdx (m : Addr) : Nat := m.idx.toNat * 2 ^ 11 + m.sh.toNat * 2 ^ 8

/-- TOFF and TSLOT. -/
def encTgt (t : Target) : Nat := t.off.toNat * 2 ^ 48 + t.slot.toNat * 2 ^ 45

/-- MOFF and MSLOT. -/
def encMeet (t : Target) : Nat := t.off.toNat * 2 ^ 16 + t.slot.toNat * 2 ^ 13

/-- ENG format. -/
def encE (op : Nat) (c : Ctl) (d a b e : Code) (td : BitVec 6) (q : BitVec 4) (low : Nat) : Nat :=
  encHead op 4 c + encDA d a + b.toNat * 2 ^ 53 + e.toNat * 2 ^ 45 + td.toNat * 2 ^ 39 + q.toNat * 2 ^ 35 + low

/-- SYS format. -/
def encS (op : Nat) (c : Ctl) (d a sr : Code) (n : BitVec 24) (low : Nat) : Nat :=
  encHead op 5 c + encDA d a + sr.toNat * 2 ^ 53 + n.toNat * 2 ^ 29 + low

/-- The word of an encoded instruction (R336 to R343 and the entries); events have none. -/
def encode : Instr → Option Nat
  | .iadd c d a b sat => some (encAB 0x000 c d a b (sat.toNat * 2 ^ 8))
  | .isub c d a b sat => some (encAB 0x001 c d a b (sat.toNat * 2 ^ 8))
  | .imul c d a b => some (encAB 0x002 c d a b 0)
  | .imulh c d a b u => some (encAB 0x003 c d a b (u.toNat * 2 ^ 8))
  | .imad c d a b e => some (encABC 0x004 c d a b e 0 0)
  | .imadw c d a b e u => some (encABC 0x005 c d a b e 0 (u.toNat * 2 ^ 8))
  | .idot4 c d a b e ua ub => some (encABC 0x006 c d a b e 0 (ua.toNat * 2 ^ 8 + ub.toNat * 2 ^ 9))
  | .imin c d a b u => some (encAB 0x007 c d a b (u.toNat * 2 ^ 8))
  | .imax c d a b u => some (encAB 0x008 c d a b (u.toNat * 2 ^ 8))
  | .iabs c d a => some (encR 0x009 c d a 0)
  | .icmp c d a b cond comb pc =>
    some (encABC 0x00A c d a b pc 11 (cond.toNat * 2 ^ 5 + comb.toNat * 2 ^ 9))
  | .tern c d a b pc => some (encABC 0x00B c d a b pc 0 0)
  | .loca c d a b sh w => some (encAB 0x00C c d a b (sh.toNat + w.toNat * 2 ^ 3))
  | .bAnd c d a b => some (encAB 0x010 c d a b 0)
  | .bOr c d a b => some (encAB 0x011 c d a b 0)
  | .bXor c d a b => some (encAB 0x012 c d a b 0)
  | .bAndn c d a b => some (encAB 0x013 c d a b 0)
  | .shl c d a b => some (encAB 0x014 c d a b 0)
  | .shr c d a b => some (encAB 0x015 c d a b 0)
  | .sar c d a b => some (encAB 0x016 c d a b 0)
  | .funl c d a b e => some (encABC 0x017 c d a b e 0 0)
  | .bfx c d a b s => some (encAB 0x018 c d a b s.toNat)
  | .bfi c d a b e => some (encABC 0x019 c d a b e 0 0)
  | .popc c d a => some (encR 0x01A c d a 0)
  | .clz c d a => some (encR 0x01B c d a 0)
  | .brev c d a => some (encR 0x01C c d a 0)
  | .mixb c d a b e fill => some (encABC 0x01D c d a b e 0 (fill.toNat * 2 ^ 8))
  | .psop c d a b e n terms =>
    some (encABC 0x01E c d a (.reg b) e 0 (terms.toNat + n.toNat * 2 ^ 24))
  | .mov c d a b64 => some (encR 0x020 c d a b64.toNat)
  | .movi c d v hi => some (encAB 0x021 c d 0 (.imm v) hi.toNat)
  | .fadd c d a b ty rnd => some (encAB 0x080 c d a b (encTy ty rnd))
  | .fsub c d a b ty rnd => some (encAB 0x081 c d a b (encTy ty rnd))
  | .fmul c d a b ty rnd => some (encAB 0x082 c d a b (encTy ty rnd))
  | .ffma c d a b e ty rnd => some (encABC 0x083 c d a b e 5 (encTy ty rnd))
  | .fmin c d a b ty => some (encAB 0x084 c d a b ty.toNat)
  | .fmax c d a b ty => some (encAB 0x085 c d a b ty.toNat)
  | .fcmp c d a b ty cond comb pc =>
    some (encABC 0x086 c d a b pc 11 (ty.toNat + cond.toNat * 2 ^ 5 + comb.toNat * 2 ^ 9))
  | .frnd c d a ty rnd => some (encR 0x087 c d a (encTy ty rnd))
  | .fclass c d a ty => some (encR 0x088 c d a ty.toNat)
  | .fdivf c d a b ty rnd => some (encAB 0x089 c d a b (encTy ty rnd))
  | .cvt c d a e mrg dsel ssel sat rnd df sf =>
    some (encR 0x100 c d a (e.toNat * 2 ^ 45 + mrg.toNat * 2 ^ 18 + dsel.toNat * 2 ^ 15 + ssel.toNat * 2 ^ 12 +
      sat.toNat * 2 ^ 11 + rnd.toNat * 2 ^ 8 + df.toNat * 2 ^ 4 + sf.toNat))
  | .rcp c d a ty rnd => some (encR 0x101 c d a (encTy ty rnd))
  | .rsq c d a ty rnd => some (encR 0x102 c d a (encTy ty rnd))
  | .sqrt c d a ty rnd => some (encR 0x103 c d a (encTy ty rnd))
  | .exp2 c d a ty rnd => some (encR 0x104 c d a (encTy ty rnd))
  | .log2 c d a ty rnd => some (encR 0x105 c d a (encTy ty rnd))
  | .sincos c d a ty rnd => some (encR 0x106 c d a (encTy ty rnd))
  | .tanh c d a ty rnd => some (encR 0x107 c d a (encTy ty rnd))
  | .rngc c d a b => some (encR 0x108 c d a (b.toNat * 2 ^ 53))
  | .edge c d a b e conj => some (encR 0x109 c d a (b.toNat * 2 ^ 53 + e.toNat * 2 ^ 45 + conj.toNat))
  | .swiz c d a b useImm imm7 mode =>
    some (encR 0x110 c d a (b.toNat * 2 ^ 53 + imm7.toNat * 2 ^ 3 + useImm.toNat * 2 ^ 2 + mode.toNat))
  | .ballot c d a => some (encR 0x111 c d a 0)
  | .redux c d a op rnd => some (encR 0x112 c d a (op.toNat + rnd.toNat * 2 ^ 4))
  | .scan c d a op rnd x => some (encR 0x113 c d a (op.toNat + rnd.toNat * 2 ^ 4 + x.toNat * 2 ^ 7))
  | .ld c d m o s => some (encM 0x180 c d m.a m.b m.off (encMo o + encIdx m + s.toNat))
  | .st c a b off o => some (encM 0x181 c 0 a b off (encMo o))
  | .lds c d m size s => some (encM 0x182 c d m.a m.b m.off (size.toNat * 2 ^ 16 + encIdx m + s.toNat))
  | .sts c a b off size => some (encM 0x183 c 0 a b off (size.toNat * 2 ^ 16))
  | .atom c d a b off o op => some (encM 0x184 c d a b off (encMo o + op.toNat * 2 ^ 12))
  | .atomb c d a b off size op => some (encM 0x185 c d a b off (size.toNat * 2 ^ 16 + op.toNat * 2 ^ 12))
  | .red c a b off o op => some (encM 0x186 c 0 a b off (encMo o + op.toNat * 2 ^ 12))
  | .monw c d a b off o cond => some (encM 0x187 c d a b off (encMo o + cond.toNat * 2 ^ 12))
  | .pref c m pol => some (encM 0x188 c 0 m.a m.b m.off (pol.toNat * 2 ^ 25 + encIdx m))
  | .fence c scope order => some (encM 0x189 c 0 0 0 0 (scope.toNat * 2 ^ 22 + order.toNat * 2 ^ 19))
  | .cwb c a b off => some (encM 0x18A c 0 a b off 0)
  | .cinv c a b off => some (encM 0x18B c 0 a b off 0)
  | .iinv c a b off scope => some (encM 0x18C c 0 a b off (scope.toNat * 2 ^ 22))
  | .cpin c d a b off => some (encM 0x18D c d a b off 0)
  | .cunpin c d a b off => some (encM 0x18E c d a b off 0)
  | .nop c => some (encHead 0x200 0 c)
  | .br c t => some (encHead 0x201 3 c + encTgt t)
  | .brc c a b cond t =>
    some (encHead 0x202 3 c + encTgt t + b.toNat * 2 ^ 16 + a.toNat * 2 ^ 5 + cond.toNat)
  | .brv c a t m => some (encHead 0x203 3 c + encTgt t + encMeet m + a.toNat * 2 ^ 5)
  | .bdq c n z t => some (encHead 0x204 3 c + encTgt t + n.toNat * 2 ^ 16 + z.toNat * 2 ^ 22)
  | .brx c a => some (encR 0x205 c 0 a 0)
  | .call c slide t => some (encHead 0x206 3 c + encTgt t + slide.toNat)
  | .callx c a slide => some (encR 0x207 c 0 a slide.toNat)
  | .ret c => some (encHead 0x208 0 c)
  | .loop c a t => some (encHead 0x209 3 c + encTgt t + a.toNat * 2 ^ 5)
  | .exit c => some (encHead 0x20A 0 c)
  | .dqpush c a => some (encR 0x20B c 0 a 0)
  | .dqpop c d b32 => some (encR 0x20C c d 0 b32.toNat)
  | .setmeet c nn m => some (encHead 0x20D 3 c + encMeet m + nn.toNat)
  | .waypt c mask => some (encHead 0x20E 5 c + mask.toNat * 2 ^ 29)
  | .rstlbl c close t => some (encHead 0x20F 3 c + encTgt t + close.toNat)
  | .yield c => some (encHead 0x210 0 c)
  | .fbar c => some (encHead 0x211 0 c)
  | .qpush c a q => some (encE 0x280 c 0 a 0 0 0 q 0)
  | .qpop c d q e => some (encE 0x281 c d 0 0 0 0 q e.toNat)
  | .qstat c d q => some (encE 0x282 c d 0 0 0 0 q 0)
  | .qbind c d a q kind slot port unbind =>
    some (encE 0x283 c d a 0 0 0 q (kind.toNat * 2 ^ 32 + slot.toNat * 2 ^ 24 + port.toNat * 2 ^ 16 + unbind.toNat))
  | .tdset c a td w i => some (encE 0x288 c 0 a 0 0 td 0 (i.toNat * 2 ^ 16 + w.toNat))
  | .tdget c d td w i => some (encE 0x289 c d 0 0 0 td 0 (i.toNat * 2 ^ 16 + w.toNat))
  | .mldw c a b td pair => some (encE 0x290 c 0 a b 0 td 0 pair.toNat)
  | .mswap c b pair => some (encE 0x291 c 0 0 b 0 0 0 pair.toNat)
  | .mma c d a b td pair => some (encE 0x292 c d a b 0 td 0 pair.toNat)
  | .mmaq c d b td q pair => some (encE 0x293 c d 0 b 0 td q pair.toNat)
  | .mzero c d b pair => some (encE 0x294 c d 0 b 0 0 0 pair.toNat)
  | .mlda c d a b td pair => some (encE 0x295 c d a b 0 td 0 pair.toNat)
  | .msta c d a b td pair rnd sat =>
    some (encE 0x296 c d a b 0 td 0 (pair.toNat + rnd.toNat * 2 ^ 1 + sat.toNat * 2 ^ 3))
  | .pstart c d a b unit entry n resume =>
    some (encE 0x2A0 c d a b 0 0 0 (unit.toNat * 2 ^ 32 + entry.toNat * 2 ^ 16 + n.toNat + resume.toNat * 2 ^ 3))
  | .pstop c d unit => some (encE 0x2A1 c d 0 0 0 0 0 (unit.toNat * 2 ^ 32))
  | .pstat c d unit sel => some (encE 0x2A2 c d 0 0 0 0 0 (unit.toNat * 2 ^ 32 + sel.toNat * 2 ^ 16))
  | .iload c d a b e kind => some (encE 0x2B0 c d a b e 0 0 (kind.toNat * 2 ^ 32))
  | .ictlState c d a kind => some (encE 0x2B1 c d a 0 0 0 0 (kind.toNat * 2 ^ 32))
  | .ictlResume c d a kind => some (encE 0x2B1 c d a 0 0 0 0 (kind.toNat * 2 ^ 32 + 1 * 2 ^ 16))
  | .ictlDiscard c d a kind => some (encE 0x2B1 c d a 0 0 0 0 (kind.toNat * 2 ^ 32 + 2 * 2 ^ 16))
  | .ictlFaultAddress c d a kind => some (encE 0x2B1 c d a 0 0 0 0 (kind.toNat * 2 ^ 32 + 3 * 2 ^ 16))
  | .passbegin c d a => some (encE 0x2B1 c d a 0 0 0 0 (0x10 * 2 ^ 16))
  | .passend c d a => some (encE 0x2B1 c d a 0 0 0 0 (0x11 * 2 ^ 16))
  | .passstat c d a => some (encE 0x2B1 c d a 0 0 0 0 (0x12 * 2 ^ 16))
  | .resolve c d a => some (encE 0x2B1 c d a 0 0 0 0 (0x13 * 2 ^ 16))
  | .xldi c d a off pol size sp =>
    some (encM 0x300 c d a 0 off (pol.toNat * 2 ^ 25 + size.toNat * 2 ^ 16 + sp.toNat))
  | .xcoord c d a td => some (encE 0x301 c d a 0 0 td 0 0)
  | .xcopy c a b e td q pad dir => some (encE 0x302 c 0 a b e td q (pad.toNat * 2 ^ 16 + dir.toNat))
  | .xgather c a b e td pad n => some (encE 0x303 c 0 a b e td 0 (pad.toNat * 2 ^ 16 + n.toNat))
  | .xscatter c a b e td pad n => some (encE 0x304 c 0 a b e td 0 (pad.toNat * 2 ^ 16 + n.toNat))
  | .xmcast c a b e td pad => some (encE 0x305 c 0 a b e td 0 (pad.toNat * 2 ^ 16))
  | .xstmx c a b td pad bf16 had =>
    some (encE 0x306 c 0 a b 0 td 0 (pad.toNat * 2 ^ 16 + bf16.toNat + had.toNat * 2 ^ 1))
  | .xfill c a b e td s => some (encE 0x307 c 0 a b e td 0 s.toNat)
  | .xarrive c imm a v => some (encHead 0x308 5 c + a.toNat * 2 ^ 61 + v.toNat * 2 ^ 29 + imm.toNat)
  | .xstamp c a b off pol scope =>
    some (encM 0x309 c 0 a b off (pol.toNat * 2 ^ 25 + scope.toNat * 2 ^ 22 + 3 * 2 ^ 16))
  | .xwait c bar a n => some (encHead 0x30A 5 c + a.toNat * 2 ^ 61 + n.toNat * 2 ^ 29 + bar.toNat)
  | .xfence c scope order => some (encM 0x30B c 0 0 0 0 (scope.toNat * 2 ^ 22 + order.toNat * 2 ^ 19))
  | .xtrap c v => some (encHead 0x30C 5 c + v.toNat * 2 ^ 29)
  | .xend c => some (encHead 0x30D 5 c)
  | .balloc c d pair f => some (encS 0x380 c d 0 0 0 (pair.toNat * 2 ^ 8 + f.toNat))
  | .bfree c a => some (encS 0x381 c 0 a 0 0 0)
  | .binit c a n => some (encS 0x382 c 0 a 0 n 0)
  | .barrive c a n f => some (encS 0x383 c 0 a 0 n f.toNat)
  | .bwait c d a f => some (encS 0x384 c d a 0 0 f.toNat)
  | .btest c d a r f => some (encS 0x385 c d a 0 0 (r.toNat * 2 ^ 8 + f.toNat))
  | .binval c a => some (encS 0x386 c 0 a 0 0 0)
  | .sync c => some (encHead 0x387 5 c)
  | .rdsr c d sr => some (encS 0x390 c d 0 sr 0 0)
  | .wrsr c a sr imm v => some (encS 0x391 c 0 a sr v imm.toNat)
  | .trap c v => some (encS 0x398 c 0 0 0 v 0)
  | .tret c act => some (encHead 0x399 5 c + act.toNat * 2 ^ 29)
  | .handlerEntry .. | .instructionComplete .. | .queueRecordVisible .. | .barriveArrivalApplied ..
  | .sliceAccess .. | .scFillComplete .. | .sliceAtomic .. | .writeBufferDrain .. | .monitorReread ..
  | .pageWalkComplete .. | .instructionLineFill .. | .lqwrWrite .. | .lqcfgWrite .. | .packetBecomesHead ..
  | .tokenReread .. | .admissionStep .. | .contextZeroingDone .. | .porterSectionCopyDone .. | .teamStart ..
  | .teamRetirement .. | .launchEnd .. | .rebalanceInterval .. | .deadlineApproach .. | .teamSave ..
  | .powerAlarmRaise .. | .powerAlarmLower .. | .matrixRowWrite .. | .matrixCommandComplete ..
  | .porterUnitPerform .. | .xmcastDelivery .. | .xstampWrite .. | .porterFault .. | .droppedCreditFault ..
  | .porterDrainEnd .. | .iloadComplete .. | .islandLoad .. | .sample2d .. | .sampleCube .. | .rayBox4 ..
  | .rayTri .. | .rayFrustum64 .. | .blendColour .. | .rasterCoarse .. | .rasterPath .. | .islandResponseDeliver ..
  | .islandFault .. | .ctxCreate .. | .ctxReset .. | .ctxAttest .. | .ctxExport .. | .ctxImport .. | .ctxConfirm ..
  | .ctxRelease .. | .ctxAbort .. | .kesload .. | .ctxCommandComplete .. | .tlbinvWrite ..
  | .tlbInvalidationDone .. | .trapactWrite .. | .coreReset .. | .scownWrite .. | .ecccntClear ..
  | .registerWrite .. | .deviceReset .. | .vfFunctionLevelReset .. | .hkcBringupComplete .. | .bar2Write ..
  | .bar2Read .. | .hostCxlMemAccess .. | .bandwidthWindowEnd .. | .systemSpaceRefusal .. | .vfEnable .. => none

end Sys2Proof
end

