-- ==== Sys2Proof/Config.lean ====
section
/-! DEFINITION. What the manual fixes for every part, what one part fixes for itself, and the free values that the
manual leaves open. A constant declared `opaque` here stands for every value: nothing can evaluate it. -/

namespace Sys2Proof

/-- R145 to R147: an error that the environment causes in one of the device's stores. -/
inductive Upset where
  /-- A single-bit error, corrected and counted. -/
  | corrected
  /-- Uncorrectable data errors: a memory sector; a sector in a core's L1; a descriptor; a pool word of a scratchpad
  window, the registers of one pool word, a queue record, the registers of one word of a rucksack, the elements of one
  word of a tile, a weight column. -/
  | sector (n : Nat)
  | l1Data (core sector : Nat)
  | descriptor (team td : Nat)
  | window (team half word : Nat)
  | register (team group : Nat) (key : Nat)
  | record (inst queue i : Nat)
  | rucksack (team group : Nat) (keys : List Nat)
  | tile (team half : Nat) (elements : List Nat)
  | column (core : Nat) (shadow : Bool) (j : Nat)
  /-- Parity errors: a TLB entry, an L1 tag, an SC tag, a cached fetch line (`twice`: the refetch fails as well). -/
  | tlb (i : Nat)
  | l1Tag (core line : Nat)
  | scTag (line : Nat)
  | codeLine (core va : Nat) (twice : Bool)
  /-- A line of a porter program store. -/
  | storeLine (core i : Nat)
  deriving DecidableEq, Repr

end Sys2Proof

namespace Sys2Proof.Config

/-- R26, R312: `DEVIDENT`. -/
def devident : Nat := 0x90801110

/-- R10: cores of the device. -/
def cores : Nat := 80

/-- Team numbers from here on name supervisor handlers, one per core (R295). -/
def handlerBase : Nat := 0x1000000

/-- R18: which of the three fits is installed (the part's; log entry 6). -/
opaque memFit : Nat

/-- R5, R18, R126, R312: installed GDDR7 capacity in bytes: 128, 256 or 512 GB. -/
def memCap : Nat := 128000000000 * 2 ^ (memFit % 3)

/-- R312, R330: the errata mask of the firmware that runs after boot number `n` (the part's; log entry 6). -/
opaque errata : Nat → BitVec 64

/-- R316: host memory answers by CXL.cache or PCI Express; whether host address `h` lies in host memory. -/
opaque hostMemory : Nat → Bool

/-! ### Choices of timing and scheduling (log entries 1, 4, 5) -/

/-- Which of the enabled moves is made when the agenda is empty; the argument is `State.tick`. -/
opaque freeMove : Nat → Nat

/-- The error that strikes before a move is chosen, and the event that the host or another outside agent offers. -/
opaque freeUpset : Nat → Option Upset

opaque freeHost : Nat → Option Instr

/-- R144: which of the requesters waiting at one address have reached the slice. -/
opaque freeArrive : Nat → Nat

/-- R238: the place of a texel position that is not finite, by step, lane and axis (log entry 7). -/
opaque freePlace : Nat → Nat → Nat → BitVec 32

/-- R282: the memory controller that serves a 32-byte sector, modulo 32; the manual maps no address to a controller. -/
opaque controllerOf : Nat → Nat

/-- R287: watts of the full-width credit that the PA grants one matrix engine; R282, R287: watts of the credits that it has
granted the other agents of a context. -/
opaque meCredit : Nat

opaque freePower : Nat → Nat → Nat

/-- R304: whether a save area below the size that never fails serves. -/
opaque freeSave : Nat → Bool

/-- R228, R304: where in its area the device stores a verified configuration or a save, and the bytes. -/
opaque freeStore : Nat → Nat → Nat × List Byte

/-- R255: where in the usable pool of a pass its entries begin to be put; the manual gives the bins no place. -/
opaque freePool : Nat → Nat

/-- How many cycles a core has counted since its `%cycle` was last read (R289). -/
opaque freeCycles : Nat → Nat

/-- Which L1 line, instruction line, TLB entry, write-buffer sector or SC line is replaced (R17, R137, R131, R139). -/
opaque freeVictim : Nat → Nat

/-- R154: the set of a core's L1 into which a 128-byte line falls; the manual gives L1 no geometry. -/
opaque l1Set : Nat → Nat

/-- R134, R164: the virtual address of a line that a core fetches ahead of need. -/
opaque freeAhead : Nat → Nat

/-- R147: the vector register that shares an 8-byte pool word with another, by number within a group's allocation
(physical row x 64 + lane); the manual does not say which two do. -/
opaque poolMate : Nat → Nat

/-- R145: what a descriptor reads as once its store has lost a word to an uncorrectable error. -/
opaque freeDescriptor : Nat → BitVec 512

/-- R129: which of the 16 entries of a 64 KiB page whose entries differ is used. -/
opaque freeEntry : Nat → Nat

/-! ### Security functions whose keys no program reaches (R318 to R324; log entry 20) -/

/-- R318: the fused 256-bit root. -/
opaque root : BitVec 256

/-- R321: a 32-byte salt drawn from the TRNG; `none` when its health test fails. -/
opaque trng : Nat → Option (BitVec 256)

/-- R326: whether the root read and the KDU self-test pass. -/
opaque kduOk : Nat → Bool

/-- R326: whether the firmware signature verifies at boot. -/
opaque firmwareOk : Nat → Bool

/-- R226: an SM2 signature verifies under a public key, over a 32-byte digest. -/
opaque sm2Verify : (key : BitVec 512) → (digest : BitVec 256) → (sig : BitVec 512) → Bool

/-- R322, R323: the SM2 signature of a digest with a private key; the last argument is the signer's random draw. -/
opaque sm2Sign : (priv : Nat) → (digest : BitVec 256) → Nat → BitVec 512

/-- R318: the SM2 public key of a private key. -/
opaque sm2Public : Nat → BitVec 512

/-- R323: SM2 public-key encryption of a wrapped 16-byte key, as bytes. -/
opaque sm2Encrypt : (key : BitVec 512) → BitVec 128 → Nat → List Byte

/-- R323: SM2 decryption of a wrapped key; `none` when the image was sealed to another device. -/
opaque sm2Decrypt : (priv : Nat) → List Byte → Option (BitVec 128)

/-- R226: Tchilvaern's image public key and whether a publisher is revoked. -/
opaque imageKey : BitVec 512

opaque revoked : BitVec 64 → Bool

/-- R322: version and digest of the firmware that runs after boot number `n`; serial number and certificate of the
part. -/
opaque fwVersion : Nat → BitVec 32

opaque fwDigest : Nat → BitVec 256

opaque serial : BitVec 64

opaque certSig : BitVec 512

/-! ### Formats that the manual does not give (log entry 21) -/

/-- R323: the ranges (virtual address, bytes) of a range list, from the memory bytes at its address. -/
opaque rangeList : List Byte → Option (List (Nat × Nat))

/-- R323: the header of an export image: its bytes for a tenant, a period, the source key, the wrapped key, the ranges
and a number drawn for the saves' bytes. -/
opaque imageHeader : BitVec 64 → BitVec 32 → BitVec 512 → List Byte → List (Nat × Nat) → Nat → List Byte

/-- R327, R330: bytes of a Kesor image, from those of its header and kernel entries. -/
opaque kesBytes : List Byte → Nat

/-- R328: the loader's width for a kernel that declares none, from image, kernel and `ERRATA`. -/
opaque kesWidth : List Byte → Nat → BitVec 64 → Nat

/-- R329: which of a region's allowed modes is chosen, from image, kernel, width code, `ERRATA` and region. -/
opaque kesMode : List Byte → Nat → Nat → BitVec 64 → Nat → Nat

/-- R329: the log2 less 1, modulo 4, of the items per thread of a region that is coarsened, from the same. -/
opaque kesFactor : List Byte → Nat → Nat → BitVec 64 → Nat → Nat

/-- R330, R331: the HKC's translator: from image, kernel, width code, `ERRATA`, and each region's mode and items per thread, the
translated code, and where in it an address of the image's code lies. -/
opaque kesCode : List Byte → Nat → Nat → BitVec 64 → List (Nat × Nat) → List Byte

opaque kesMoved : List Byte → Nat → Nat → BitVec 64 → List (Nat × Nat) → Nat → Nat

/-- R331: units of 64 bytes left before a part of an entry (0 header, 1 region table, 2 code, 3 porter section). -/
opaque kesGap : List Byte → Nat → Nat → BitVec 64 → Nat → Nat

/-! ### Values that the manual does not state (log entry 7) -/

/-- Which of two adjacent values is the correctly rounded result, where the interval computation could not decide
(log entry 12). -/
opaque freeRound : Nat → Nat

/-- Data of an island class that is not one of the baseline classes (R248), and of bytes never specified. -/
opaque freeWord : Nat → Word

end Sys2Proof.Config
end

