-- ==== Sys2Proof/Machine/State.lean ====
section
/-! DEFINITION. The state of the ICL-9080 as plain data, with its reset value. A `Tab` that lists no entry for a
number reads as the default its docstring names. -/

namespace Sys2Proof.Machine

/-- R288: the stall reasons a party records. `translation` is the model's name for the wait of an access on a page walk,
to which the manual gives no reason of its own; a wait on the walk for a fetch records *fetch* (R68). -/
inductive Stall where
  | fetch | lineWait | meetWait | scoreboard | dqEmpty | dqFull | queueEmpty | queueFull | barrierWait
  | spReplay | portBusy | translation
  deriving DecidableEq, Repr

/-- R290: what one trap records. -/
structure TrapInfo where
  code   : Byte
  detail : Word
  pc     : DWord
  va     : DWord
  deriving DecidableEq, Repr

/-- Whether a party runs (R292, R298, R286, R45). -/
inductive Run where
  | running | trapped | escalated | stopped | exited
  deriving DecidableEq, Repr

/-- A barrier reached through a pool entry: core, entry and the handle's low 16 bits (R306, R290). -/
structure BarRef where
  core  : Nat
  entry : Nat
  low   : BitVec 16
  deriving DecidableEq, Repr

/-- R153, R161, R189, R390: how a wait on a barrier was released: by BINVAL (`fail`), or by a flip, with the cores on which
the arrivals and the credits of the phase that ended were made. -/
structure WaitEnd where
  fail  : Bool
  cores : List Nat
  deriving DecidableEq, Repr

/-- R390, R472: what a party held at its PC waits for. `done` says how a BWAIT has been released. -/
inductive Wait where
  | bwait (bar : BarRef) (done : Option WaitEnd)
  | sync
  deriving DecidableEq, Repr

/-- One lane of an outstanding access (R149): its addresses and what has become of it. -/
structure Lane where
  lane  : Nat
  va    : DWord
  pa    : Nat
  key   : Nat
  /-- L1 and SC levels of R138. -/
  l1    : Nat
  sc    : Nat
  part  : Nat
  /-- ST, ATOM, RED, MONW: the data operand; and the comparand. -/
  data  : Nat
  cmp   : Nat
  /-- The value returned, once the lane has been performed. -/
  done  : Option Nat
  bad   : Bool
  deriving DecidableEq, Repr

/-- What an outstanding operation still has to do (R91, R348). -/
inductive OpKind where
  /-- A fixed-latency instruction with an attached flag, or one whose effect has been made. -/
  | fixed
  /-- LD, ATOM, RED, MONW, and an ST whose release leaves the core: lanes performed one by one. -/
  | access
  /-- The result stands in `value` and is written at completion. -/
  | value
  /-- FENCE: complete once every earlier access has returned (R156, R411). -/
  | fence
  /-- An engine command: MATRIX_COMMAND_COMPLETE clears the flag. -/
  | engine
  /-- PSTOP: complete when the porter is IDLE (R445). -/
  | pstop (core p : Nat)
  /-- QBIND to a loading island, or `.unbind` (R447). -/
  | qbind
  /-- ILOAD: ILOAD_COMPLETE writes the status (R230). The bytes are those copied at issue (R419), with their poison;
  `st` is the status once verification has ended, and `seq` the order of issue. -/
  | iload (seq : Nat) (kind : Nat) (base : DWord) (len : Nat) (bytes : List Byte) (bad : Bool) (st : Option Nat)
    (bar : Option BarRef)
  /-- R395: IINV of a context, with its scope: at completion the instruction caches drop these fetch lines. -/
  | iinv (ctx : Nat) (scope : Nat) (lines : List Nat)
  /-- PASSEND (R253); RESOLVE (R275), with the next tile and the tiles materialised so far. -/
  | passend (pass : Nat)
  | resolve (desc : BitVec 512) (next count : Nat)
  deriving DecidableEq, Repr

/-- R91, R293, R433: one outstanding operation of a party. -/
structure Op where
  id     : Nat
  instr  : Instr
  pc     : DWord
  flag   : Option Nat
  kind   : OpKind
  active : List Nat
  lanes  : List Lane
  /-- Registers still to be written: (register key, lane whose value it takes, 32-bit or 64-bit word of the value). A
  later instruction that writes one of them takes it out (R348). Keys: `regKey` of Operands. -/
  dst    : List (Nat × Nat × Nat)
  /-- 64-bit result of a `value` operation. -/
  value  : Nat
  /-- Poison came back: the trap is still to be raised (R293). -/
  poisoned : Bool
  deriving DecidableEq, Repr

/-- Control state that groups and leads have alike (R91, R106, R107, R290, R300). -/
structure Common where
  /-- f0 to f11: counts of 6 bits; unlisted 0. -/
  flags  : Tab Nat
  fcr    : Word
  fsr    : Word
  wcount : Nat
  tcode  : Byte
  tdetail : Word
  tpc    : DWord
  st     : Run
  stall  : Option Stall
  wait   : Option Wait
  ops    : List Op
  nextOp : Nat
  /-- R293: the trap being served is the deferred one of this operation. -/
  defer  : Option Nat
  /-- R92, R302, R304: a save has recorded count 0 for the flags of deferred traps while the party stood at another trap; they
  are raised as soon as that one ends. -/
  late   : Bool
  deriving DecidableEq, Repr

/-- R97, R106, R107: at start. -/
def Common.start : Common :=
  { flags := [], fcr := 0x100, fsr := 0, wcount := 0, tcode := 0, tdetail := 0, tpc := 0, st := .running,
    stall := none, wait := none, ops := [], nextOp := 0, defer := none, late := false }

/-- R78: a return-stack entry: return PC with n / 8 - 1 in bits [5:3], and the caller's `%meet`. -/
structure Frame where
  ret  : DWord
  meet : DWord
  deriving DecidableEq, Repr

/-- R69: control state of one thread. -/
structure Thread where
  live : Bool
  pc   : DWord
  meet : DWord
  yld  : Bool
  hold : Option (DWord × Nat)
  wb   : Nat
  /-- Innermost entry first. -/
  stack : List Frame
  /-- R78, R461: the entries that still stand in the rucksack above the top of the stack, the lowest first. A call writes
  over the first, and a restart may take them back. -/
  above : List Frame
  /-- R334: the slot was entered and its `TGT` bit not yet tested. -/
  entered : Bool
  /-- R67: the line was arrived in and its WAIT mask not yet tested. -/
  arrived : Bool
  deriving DecidableEq, Repr

/-- R66: the value *none*. -/
def noPc : DWord := 0xFFFFFFFFFFFFFFFF

/-- R69: at group start. -/
def Thread.start (entry : DWord) : Thread :=
  { live := true, pc := entry, meet := noPc, yld := false, hold := none, wb := 0, stack := [], above := [],
    entered := true, arrived := true }

/-- R216, R461: what a restart label records for a group: label, `rd`, and per thread `%wb`, `%meet`, depth. -/
structure Label where
  pc  : DWord
  rd  : Nat
  thr : List (Nat × DWord × Nat)
  deriving DecidableEq, Repr

/-- A group (R27 to R31, R88 to R91). -/
structure Group where
  core : Nat
  part : Nat
  slot : Nat
  thr  : List Thread
  /-- Vector registers by physical index x 64 + lane; unlisted: the register marker (R89). -/
  v    : Tab Word
  /-- R147: poisoned vector registers, same numbering. -/
  vpoison : List Nat
  k    : Tab Word
  /-- Predicates by lane; bit n is pn; p0 reads true whatever bit 0 holds; unlisted 0. -/
  p    : Tab Byte
  low  : Nat
  /-- R79, R80: spilled blocks: block number to registers (register in block x 64 + lane). -/
  spill : Tab (Tab Word)
  /-- R147: poisoned registers of spilled blocks: logical register x 64 + lane. -/
  spillPoison : List Nat
  rd   : Nat
  sync : Nat
  label : Option Label
  /-- R301: the live mask of the WAYPT at which the group, whole, has stopped for a save. -/
  live : Option (BitVec 16)
  com  : Common
  deriving DecidableEq, Repr

/-- The lead thread (R38). -/
structure Lead where
  s     : Tab DWord
  p     : Byte
  pc    : DWord
  stack : List DWord
  /-- R81, R461: as for a thread, the return PCs that still stand above the top. -/
  above : List DWord
  entered : Bool
  arrived : Bool
  com   : Common
  deriving DecidableEq, Repr

/-- R216: an open recomputable region: the lead's label, `wr` and return-stack depth. -/
structure Region where
  pc    : DWord
  wr    : Nat
  depth : Nat
  deriving DecidableEq, Repr

/-- R306: a barrier name: generation, and the pool entry when the team holds it. -/
structure Name where
  gen  : Nat
  bar  : Option (Nat × Nat)
  pair : Bool
  deriving DecidableEq, Repr

/-- A team (R32), a stage team (R49) or a supervisor handler (R295). -/
structure Team where
  launch : Nat
  inst   : Nat
  idx    : Nat
  stage  : Nat
  tx : Nat
  ty : Nat
  tz : Nat
  nx : Nat
  ny : Nat
  nz : Nat
  ctx    : Nat
  width  : Nat
  /-- R29: the kernel declares its width. -/
  declared : Bool
  alloc  : Nat
  ruck   : Nat
  window : Nat
  nt     : Nat
  nd     : Nat
  pair   : Bool
  core   : Nat
  slot   : Nat
  producer : Option Nat
  argblk : DWord
  lead   : Lead
  groups : Tab Group
  /-- R39: the ring of the last 64 entries pushed, oldest first; `wr` counts all pushes. -/
  dq     : List DWord
  wr     : Nat
  syncP  : Nat
  /-- R214: the sticky bits [6:1] of `%mstat`. -/
  mstat  : Word
  region : Option Region
  /-- R196: descriptors; unlisted 0. -/
  tds    : Tab (BitVec 512)
  /-- R93: windows on the home and the partner core; unlisted 0. -/
  win0   : Tab Byte
  win1   : Tab Byte
  /-- R147: poisoned 8-byte words of the windows. -/
  wpo0   : List Nat
  wpo1   : List Nat
  /-- R96: tiles, element (t, i, j) at t x 4096 + 64 i + j; unlisted +0.0. -/
  tiles0 : Tab Word
  tiles1 : Tab Word
  tpo0   : List Nat
  tpo1   : List Nat
  names  : Tab Name
  preempt : Bool
  killed : Bool
  /-- R45, R304: running on its core; a saved team is not resident. -/
  resident : Bool
  /-- R283: placed, but not started because zeroing or the porter copy runs. -/
  started : Bool
  deriving DecidableEq, Repr

/-- Where a record was pushed: on a core, or by an agent that reaches memory at the slices (R160). -/
inductive Origin where
  | core (c : Nat)
  | device
  deriving DecidableEq, Repr

/-- A queue record (R52, R57, R231). -/
structure Record where
  words : List Word
  vis   : Bool
  poison : Bool
  /-- The pusher, and for an addressed output queue the popper it is meant for. -/
  tag   : Option Party
  dest  : Option Party
  /-- R231: number of an island's response unit, 0 for every other record. -/
  unit  : Nat
  /-- R59: the pusher's operations with lower numbers are earlier than the push. -/
  after : Nat
  /-- R243: the order in which records of all queues became visible. -/
  seen  : Nat
  /-- R153, R160: what the pop's acquire must reach. -/
  origin : Origin
  deriving DecidableEq, Repr

/-- A queue (R52 to R62). -/
structure Queue where
  decl : Word
  recs : List Record
  pclosed : Bool
  cclosed : Bool
  /-- R231: streamed units claimed: (unit, popper). -/
  claims : List (Nat × Party)
  deriving DecidableEq, Repr

/-- R50, R63: rebalancing data of a stage. -/
structure Stage where
  ginit : Nat
  gmin  : Nat
  gmax  : Nat
  inq   : Option Nat
  team  : Nat
  grpEntry : DWord
  /-- R63: some group of the stage has executed EXIT. -/
  exited : Bool
  deriving DecidableEq, Repr

/-- A pipeline instance (R49), or the queues of one kernel team (R51). -/
structure Instance where
  core  : Nat
  pair  : Bool
  queues : Tab Queue
  stages : Tab Stage
  /-- R63: queues that held a visible record in some cycle of the running interval. -/
  qseen : List Nat
  resident : Bool
  deriving DecidableEq, Repr

/-- A barrier of the pool (R187, R307). -/
structure Barrier where
  exp : Nat
  arr : Nat
  tx  : Int
  ph  : Bool
  /-- BARRIVEs whose release has not been performed (R377): the bytes of each, the issuer, and the number below which
  the issuer's operations are earlier ones. -/
  pend : List (Nat × Party × Nat)
  /-- R153, R161: the cores on which the arrivals and the credits of the running phase, and of the phase before it, were
  made. -/
  arrived : List Nat
  last : List Nat
  waiters : Nat
  refs : Nat
  inval : Bool
  pair : Bool
  team : Nat
  name : Nat
  deriving DecidableEq, Repr

/-- R167: porter states. -/
inductive PSt where
  | idle | running | draining | faulted
  deriving DecidableEq, Repr

/-- R192: a porter's fault record. -/
structure PFault where
  pc    : DWord
  code  : Byte
  cause : Nat
  info  : Nat
  roff  : Nat
  va    : DWord
  deriving DecidableEq, Repr

/-- An outstanding transfer (R174 to R181): its instruction, its captured operands and its progress. -/
structure Xfer where
  id    : Nat
  instr : Instr
  pc    : DWord
  desc  : BitVec 512
  coord : List Int
  sp    : Nat
  /-- gC: core mask or pattern. -/
  extra : DWord
  /-- Bytes of the packed image, and the units that the checks at issue let through (R176, R192). -/
  len   : Nat
  stop  : Nat
  /-- Next unit to be performed; of a queue form, whose units are checked as they come, the units below `okTo` are. -/
  next  : Nat
  okTo  : Nat
  /-- Pages of the tensor side as checked: page number to the page's address, key slot, `CA` and `SCP`. -/
  pages : Tab (Nat × Nat × Nat × Nat)
  /-- XGATHER, XSCATTER: the indices. -/
  idx   : List Int
  /-- Queue side: bytes of records popped and not used, or not yet pushed, with their poison; and the image bytes read
  on the push side. -/
  buf   : List (Byte × Bool)
  got   : Nat
  /-- XMCAST: the image as read at the slices, and per core the next unit due. -/
  image : List (Byte × Bool)
  dsts  : Tab Nat
  /-- A credit was dropped (R191). -/
  dropped : Bool
  deriving DecidableEq, Repr

/-- R190: an XSTAMP that waits for the transfers issued before it (those with numbers below `after`); the address as
checked at issue. -/
structure Stamp where
  after : Nat
  pa   : Nat
  key  : Nat
  ca   : Nat
  scp  : Nat
  data : DWord
  pol  : BitVec 4
  scope : BitVec 3
  deriving DecidableEq, Repr

/-- A porter (R168). -/
structure Porter where
  st   : PSt
  g    : Tab DWord
  pc   : DWord
  entered : Bool
  arrived : Bool
  bar  : Option BarRef
  team : Option Nat
  xfers : List Xfer
  nextXfer : Nat
  fault : Option PFault
  /-- A fault met, recorded once every earlier transfer has ended (R192). -/
  pending : Option PFault
  /-- A dropped credit of a transfer that has ended, to be raised (R191). -/
  dropped : Bool
  /-- R191, R192: the part of a faulting transfer that was performed had a credit dropped. -/
  carry : Bool
  /-- R194: resume offset of the instruction that PSTART `.resume` re-issues. -/
  roff : Nat
  /-- R496: the re-issued XTRAP does nothing. -/
  resumed : Bool
  stamps : List Stamp
  /-- R189: an XWAIT on the barrier waits, or how it has been released. -/
  wait  : Option (Option WaitEnd)
  /-- R194: bytes of a record that a faulted transfer had popped or not yet pushed. -/
  buf   : List (Byte × Bool)
  /-- R218: the starting team's region was open when the porter was started. -/
  inRegion : Bool
  deriving DecidableEq, Repr

/-- R167: IDLE. -/
def Porter.idle : Porter :=
  { st := .idle, g := [], pc := 0, entered := false, arrived := false, bar := none, team := none, xfers := [],
    nextXfer := 0, fault := none, pending := none, dropped := false, carry := false, roff := 0, resumed := false, stamps := [],
    wait := none, buf := [], inRegion := false }

/-- A weight plane (R201, R205): owner, formats, size, weights at k x 64 + j, scales at block x 64 + j. -/
structure Plane where
  owner : Option Nat
  fmt   : BitVec 4
  mx    : Bool
  kk    : Nat
  nn    : Nat
  w     : Tab Nat
  scale : Tab Nat
  /-- R215: poisoned columns. -/
  bad   : List Nat
  deriving DecidableEq, Repr

/-- R98: no plane. -/
def Plane.empty : Plane :=
  { owner := none, fmt := 0, mx := false, kk := 0, nn := 0, w := [], scale := [], bad := [] }

/-- A matrix command in a core's queue (R203, R204). A `.pair` command stands in both cores' queues. -/
structure MeCmd where
  id    : Nat
  team  : Nat
  party : Party
  /-- The operation of the party whose attached flag falls at completion. -/
  flag  : Option Nat
  instr : Instr
  desc  : BitVec 512
  /-- R210: MSTA to memory: page number to the page's address, key slot, `CA` and `SCP`, as checked at issue. -/
  pages : Tab (Nat × Nat × Nat × Nat)
  c0    : Int
  c1    : Int
  bar   : Option BarRef
  pair  : Bool
  /-- Whose tiles: 0 the home core's, 1 the partner core's. -/
  half  : Nat
  row   : Nat
  narrow : Bool
  begun : Bool
  region : Bool
  /-- `%mstat` bits this half has caused. -/
  sticky : Word
  deriving DecidableEq, Repr

/-- R297, R290: who trapped. -/
inductive Source where
  | party (p : Party)
  | porter (core n : Nat)
  | island (kind idx : Nat)
  deriving DecidableEq, Repr

/-- One trap waiting for a core's handler (R296). -/
structure TrapEntry where
  src  : Source
  team : Nat
  info : TrapInfo
  deriving DecidableEq, Repr

/-- A Grezal image as verified (R225 to R228): its hash tag, its classes with their port words, its bytes. -/
structure Image where
  tag   : Word
  classes : List (Nat × List Word)
  bytes : List Byte
  deriving DecidableEq, Repr

/-- R230: a binding of a queue to a port of a class. -/
structure Binding where
  id   : Nat
  team : Nat
  inst : Nat
  q    : Nat
  /-- The class slot, 0 to 3. -/
  cls  : Nat
  port : Nat
  param : DWord
  /-- R242: the blend target entry, read at the bind. -/
  entry : BitVec 128
  core : Nat
  /-- An `.unbind` waits for the requests in flight. -/
  closing : Bool
  deriving DecidableEq, Repr

/-- R231: a response unit not yet delivered. -/
structure Response where
  team : Nat
  producer : Option Party
  /-- The input binding and class slot of the request, and the request's number. -/
  inB  : Nat
  cls  : Nat
  req  : Nat
  words : List (List Word)
  deriving DecidableEq, Repr

/-- R233: what an island's fault stopped: a request with its number and records, a RESOLVE of a party, a pass that is
written to (`store`) or read from the last 16 KiB of its pool (R256), or the delivery of a pass's bins (R255). -/
inductive Stopped where
  | request (producer : Option Party) (req : Nat) (recs : List Record)
  | resolve (p : Party) (op : Nat)
  | pool (desc : BitVec 512) (store : Bool)
  | bins
  deriving DecidableEq, Repr

/-- R233: the faulted request of an island; `raised`: the trap has been raised. -/
structure IFault where
  code : Byte
  cause : Nat
  port : Nat
  va   : DWord
  bind : Nat
  cls  : Nat
  team : Nat
  core : Nat
  raised : Bool
  stopped : Stopped
  deriving DecidableEq, Repr

/-- R267, R268: the sub-pieces of an open path in one pixel: column, row, and their sums. -/
structure Cell where
  cx : Int
  cy : Int
  /-- Area, added to the pixel itself, in 1/7,864,320 pixel. -/
  c0 : Int
  /-- Cover, added to the pixels to the right of it. -/
  c1 : Int
  deriving DecidableEq, Repr

/-- R251 to R256: an open pass: captured descriptor, status word fields, bins, and the open path. -/
structure Pass where
  num  : Nat
  desc : BitVec 512
  ctx  : Nat
  flushes : Nat
  tflush : Nat
  pdrop : Nat
  badrec : Bool
  susp : Bool
  /-- Binned tile records, in the order they were appended. -/
  bins : List (Nat × Response)
  /-- SEQ counters by class slot and tile. -/
  seq  : Tab Nat
  /-- Tiles materialised in this pass (R274). -/
  clean : List Nat
  /-- PASSEND has been issued: the records reserved before it that are still to be taken, by binding (R253). -/
  ending : Option (Tab Nat)
  deriving DecidableEq, Repr

/-- R263, R270, R271: the open path of an input binding. -/
structure PathAcc where
  bind : Nat
  cells : List Cell
  /-- Sub-pieces held per tile since its last fold (R271). -/
  held : Tab Nat
  drop : Bool
  deriving DecidableEq, Repr

/-- R234: what an island holds. STATE is `empty`, `loading` or `ready` by the first two fields. -/
structure Island where
  owner : Option Nat
  image : Option Image
  loading : Option Image
  fault : Option IFault
  binds : List Binding
  /-- Last binding served, by class slot (round robin, R231). -/
  turn  : Tab Nat
  resps : List Response
  pass  : Option Pass
  /-- R254: the status word as the last pass left it. -/
  pstat : DWord
  paths : List PathAcc
  /-- Requests taken so far. -/
  reqs  : Nat
  deriving DecidableEq, Repr

/-- R229: an island with no owner. -/
def Island.empty : Island :=
  { owner := none, image := none, loading := none, fault := none, binds := [], turn := [], resps := [],
    pass := none, pstat := 0, paths := [], reqs := 0 }

/-- One core (R14). -/
structure Core where
  /-- R36: the tenancy: context and launch. -/
  tenant : Option (Nat × Nat)
  lastCtx : Option Nat
  zeroing : Bool
  copying : Bool
  poolword : Word
  /-- R169: the porter program store by 64-byte line; unlisted 0. -/
  pstore : Tab Nat
  p0 : Porter
  p1 : Porter
  pool : Tab Barrier
  active : Plane
  shadow : Plane
  me   : List MeCmd
  nextCmd : Nat
  narrow : Bool
  cycle : DWord
  traps : List TrapEntry
  serving : Option TrapEntry
  /-- R299: the handler itself has escalated. -/
  blocked : Bool
  ptest : Word
  deriving DecidableEq, Repr

/-- R167, R98, R289: a core after reset. -/
def Core.reset : Core :=
  { tenant := none, lastCtx := none, zeroing := false, copying := false, poolword := 0, pstore := [], p0 := .idle,
    p1 := .idle, pool := [], active := .empty, shadow := .empty, me := [], nextCmd := 0, narrow := false, cycle := 0,
    traps := [], serving := none, blocked := false, ptest := 0 }

/-- R137: a sector of a core's write buffer; bytes outside the mask are not written. -/
structure WbEntry where
  core : Nat
  sector : Nat
  mask : Word
  data : Sector
  key  : Nat
  part : Nat
  sc   : Nat
  bad  : Bool
  deriving DecidableEq, Repr

/-- R137: a sector held in a core's L1, as it stands at the slice (ciphertext on a keyed page). -/
structure L1Entry where
  core : Nat
  sector : Nat
  data : Sector
  bad  : Bool
  /-- R138: the level at which it was allocated. -/
  lv   : Nat
  deriving DecidableEq, Repr

/-- R138 to R141: a line held in the stacked cache: its partition, its way and its level. `back` is what GDDR7 holds under
a dirty line. -/
structure ScLine where
  line : Nat
  part : Nat
  way  : Nat
  lv   : Nat
  dirty : Bool
  pinned : Bool
  back : Option (BitVec 1024)
  deriving DecidableEq, Repr

/-- R131: where a translation is cached. -/
inductive TlbPlace where
  | part (core p : Nat)
  | core (c : Nat)
  | shared
  deriving DecidableEq, Repr

/-- R131: a cached translation: context, page number, page size (log2) and the leaf entry. -/
structure TlbEntry where
  place : TlbPlace
  ctx  : Nat
  vpn  : Nat
  lg   : Nat
  pte  : DWord
  deriving DecidableEq, Repr

/-- R133 checks 3 to 5: how a walk ended. -/
inductive WalkEnd where
  | leaf (pte : DWord) (lg : Nat)
  | absent | malformed | uncorrectable
  deriving DecidableEq, Repr

/-- R131: a walk: context, 4 KiB page, and its result once it has completed without a leaf. -/
structure Walk where
  ctx : Nat
  vpn : Nat
  core : Nat
  part : Option Nat
  ended : Option WalkEnd
  deriving DecidableEq, Repr

/-- R164, R332: a fetch line held by a core; `bad`: parity failed on both reads. -/
structure CodeLine where
  core : Nat
  ctx  : Nat
  va   : Nat
  data : Nat
  bad  : Bool
  deriving DecidableEq, Repr

/-- R279 to R281: a launch taken from a queue. -/
structure Launch where
  ctx : Nat
  queue : Nat
  index : Nat
  /-- The packet's 128 bytes as read when it became the head. -/
  packet : BitVec 1024
  /-- The header and width word bytes (R50, R278). -/
  header : List Byte
  /-- Virtual address of the packet. -/
  va : Nat
  placed : Nat
  retired : Nat
  killed : Nat
  published : List Nat
  /-- R280: every used wait has held at one time. -/
  released : Bool
  producer : Option Nat
  /-- CODE and REASON of R281 once the launch must end, 0 before; `ended`: STATUS has been written. -/
  code : Nat
  reason : Nat
  ended : Bool
  /-- R280: the error of a failing token read has been raised. -/
  tokenErr : Bool
  /-- The cores on which its teams were placed, by team index (R163). -/
  cores : List (Nat × Nat)
  deriving DecidableEq, Repr

/-- R298, R314: an escalation of a context. -/
structure Escalation where
  core : Nat
  trap : TrapEntry
  /-- R297: `%trapsrc` of the trap as it stood when it escalated. -/
  srcWord : Word
  /-- The handler itself trapped (R299): the trap it was serving. -/
  handler : Bool
  deriving DecidableEq, Repr

/-- R304: what a save holds beside the team's own record. -/
structure Saved where
  team : Nat
  ctx  : Nat
  launch : Nat
  /-- R314: the home core that the team left, and the bytes that its save takes in the area. -/
  core  : Nat
  bytes : Nat
  /-- By half (0 the home core, 1 the partner core): porters by number, barriers by the pool entry they held, planes
  (`true`: the shadow plane). -/
  porters : List (Nat × Nat × Porter)
  bars : List (Nat × Nat × Barrier)
  planes : List (Nat × Bool × Plane)
  /-- By island kind and half. -/
  binds : List (Nat × Nat × Binding)
  resps : List (Nat × Nat × Response)
  faults : List (Nat × Nat × IFault)
  pass  : Option Pass
  paths : List PathAcc
  traps : List TrapEntry
  deriving DecidableEq, Repr

/-- R319: what the HKC keeps for a context: state 0 FREE, 1 ACTIVE, 2 EXPORTED, 3 PENDING (R314). -/
structure Context where
  st : Nat
  tenant : BitVec 64
  period : Word
  salt : BitVec 256
  slots : List Nat
  /-- R323, R324: key slots held when the context was exported. -/
  nkeys : Nat
  /-- R228: the image set by kind. -/
  images : Tab Image
  /-- R314: PTROOT, HNDLEAD, HNDGRP, SAVEBASE, SAVESZ, ISLBASE, ISLSZ in force; by offset. -/
  force : Tab DWord
  /-- R323: destination key of the last EXPORT; source key and header hash of the last IMPORT. -/
  peer : BitVec 512
  hash : BitVec 256
  escalations : List Escalation
  /-- R315: an invalidation in progress. -/
  tlbinv : Option DWord
  /-- R276: queues whose malformed LQCFG has been reported; a written LQCFG that waits for the queue to be empty. -/
  lqErr : List Nat
  lqNext : Tab DWord
  /-- R277: the launch at each head; R279: the last launch taken. -/
  heads : Tab Nat
  last : Tab Nat
  /-- R285: the launch that a reservation serves, once known, and the cores it holds. -/
  reserve : Option Nat
  reserved : List Nat
  deriving DecidableEq, Repr

/-- R312, R314: FREE. -/
def Context.free : Context :=
  { st := 0, tenant := 0, period := 0, salt := 0, slots := [], nkeys := 0, images := [], force := [], peer := 0, hash := 0,
    escalations := [], tlbinv := none, lqErr := [], lqNext := [], heads := [], last := [], reserve := none, reserved := [] }

/-- R320: the command that the HKC runs: code, context, argument address, whether an EXPORT has raised its
pre-emptions, and its status once performed. -/
structure Command where
  code : Nat
  ctx  : Nat
  arg  : Nat
  begun : Bool
  result : Option Nat
  deriving DecidableEq, Repr

/-- R323: what an export image holds, with the bytes of its header: the destination and source keys, the EXPT key, the
pages (offset in the context's window, key index or 0), and the teams saved with their launches. -/
structure Exported where
  header : List Byte
  dest   : BitVec 512
  source : BitVec 512
  tenant : BitVec 64
  period : Word
  nkeys  : Nat
  key    : List Byte
  pages  : List (Nat × Nat)
  teams  : Tab Team
  insts  : Tab Instance
  launches : Tab Launch
  saves  : List Saved
  heads  : Tab Nat
  last   : Tab Nat
  deriving DecidableEq, Repr

/-- Which agent moves next (the model's own, log entry 1). -/
inductive Move where
  | issue (p : Party)
  | event (i : Instr)
  deriving DecidableEq, Repr

/-- No step of this hardware ends in a fault: every trap the manual describes is taken, as a next state. Nothing
raises this type, which has no constructor. -/
inductive Fault where
  deriving DecidableEq, Repr

/-- Why `exec` gives an instruction no meaning. -/
inductive Refusal where
  /-- Raised by an arm of `exec` whose meaning is not written; safe. -/
  | notModelled (mnemonic : String)
  /-- Raised by an encoded instruction that is executed while no party is issuing (`State.turn` names none, or
  one that does not exist); it cannot happen in a step, which sets `turn` first; safe. -/
  | noParty
  deriving DecidableEq, Repr

/-- The whole device. -/
structure State where
  -- the model's own fields (log entries 1 to 3)
  agenda : List Move
  tick : Nat
  turn : Option Party
  lw   : Word
  -- work
  teams : Tab Team
  insts : Tab Instance
  nextTeam : Nat
  nextInst : Nat
  /-- Number of the next binding of any island or of the next raster pass: a binding keeps its number when it is made again
  (R235), a pass when it is reopened (R256). -/
  nextBind : Nat
  launches : Tab Launch
  nextLaunch : Nat
  cores : Tab Core
  saves : List Saved
  -- memory system
  mem  : List Host.Cell
  /-- R147: poisoned 32-byte sectors. -/
  poison : List Nat
  wb   : List WbEntry
  l1   : List L1Entry
  sc   : List ScLine
  /-- R142: SC fills in flight. -/
  fills : List Nat
  tlb  : List TlbEntry
  walks : List Walk
  icache : List CodeLine
  fbuf : List CodeLine
  /-- R334, R68: fetches in flight: (core, context, line address). -/
  want : List (Nat × Nat × Nat)
  /-- R157: `.sc` fences performed so far. -/
  scFences : Nat
  /-- R243, R58: records that have become visible so far. -/
  seen : Nat
  /-- R146: lines of porter program stores that hold an uncorrectable error: (core, line). -/
  badStore : List (Nat × Nat)
  /-- R316: system-space addresses that the link refuses. -/
  refused : List Nat
  -- islands: raster by quadrant, sampler and ray by core, blend by SC slice (slice k serves quadrant k / 8, R139)
  raster : Tab Island
  sampler : Tab Island
  ray : Tab Island
  blend : Tab Island
  -- the device and its host
  /-- R312, R313: device-page registers by offset; unlisted: the reset value. -/
  dev : Tab DWord
  /-- R276, R314: context-page registers by context x 65,536 + offset; unlisted 0. -/
  page : Tab DWord
  ctxs : Tab Context
  command : Option Command
  /-- R311: MSI-X vectors raised: (function, vector), oldest first; function 0 is the PF. -/
  msix : List (Nat × Nat)
  vfs : Nat
  alarm : Bool
  /-- R319: key slots in use and the context that owns each. -/
  slots : Tab Nat
  /-- R282: bytes each controller moved per context in its last completed window and in the running one, at
  controller x 128 + context. -/
  bwLast : Tab Nat
  bwNow : Tab Nat
  /-- R283: contexts and queues last served, by PRIO and by context. -/
  servedCtx : Tab Nat
  servedQ : Tab Nat
  /-- R326: the bring-up after the last device reset is over. -/
  ready : Bool
  /-- The model's own: device resets so far, which number the boots; and the images exported (log entry 21). -/
  boots : Nat
  exports : List Exported
  /-- R26, R310: what the last BAR2 or CXL.mem read returned to the host: bytes and the poison mark. -/
  hostRead : Option (List Byte × Bool)
  deriving DecidableEq, Repr

/-- The device right after a device reset (R325, R326): no context, no team, every structure empty. -/
def State.reset : State :=
  { agenda := [], tick := 0, turn := none, lw := 0, teams := [], insts := [], nextTeam := 0, nextInst := 0, nextBind := 0,
    launches := [], nextLaunch := 0, cores := [], saves := [], mem := [], poison := [], wb := [], l1 := [], sc := [],
    fills := [], tlb := [], walks := [], icache := [], fbuf := [], want := [], scFences := 0, seen := 0, badStore := [],
    refused := [], raster := [], sampler := [], ray := [], blend := [], dev := [], page := [], ctxs := [],
    command := none, msix := [], vfs := 0, alarm := false, slots := [], bwLast := [], bwNow := [], servedCtx := [],
    servedQ := [], ready := false, boots := 0, exports := [], hostRead := none }

end Sys2Proof.Machine
end

