-- ==== Sys2Proof/Machine/Tab.lean ====
section
/-! DEFINITION. Sparse tables in rising order of their keys, bytes of numbers, and the list helpers that the
meanings share. -/

namespace Sys2Proof.Machine

/-- The entry for `k`. -/
def Tab.find {α : Type} (t : Tab α) (k : Nat) : Option α :=
  match t with
  | [] => none
  | (i, x) :: r => if i = k then some x else Tab.find r k

/-- The entry for `k`, or the default. -/
def Tab.get {α : Type} (t : Tab α) (k : Nat) (d : α) : α := (Tab.find t k).getD d

/-- Set the entry for `k`, keeping the keys in rising order. -/
def Tab.set {α : Type} (t : Tab α) (k : Nat) (x : α) : Tab α :=
  match t with
  | [] => [(k, x)]
  | (i, y) :: r => if k < i then (k, x) :: (i, y) :: r else if k = i then (k, x) :: r else (i, y) :: Tab.set r k x

/-- Drop every entry for `k`. -/
def Tab.del {α : Type} (t : Tab α) (k : Nat) : Tab α :=
  match t with
  | [] => []
  | (i, y) :: r => if k = i then Tab.del r k else (i, y) :: Tab.del r k

/-- Set the entry for `k`, listing nothing when the value is the default. -/
def Tab.put {α : Type} [DecidableEq α] (t : Tab α) (k : Nat) (x d : α) : Tab α :=
  if x = d then Tab.del t k else Tab.set t k x

/-- Keys in strictly rising order. -/
def Tab.sorted {α : Type} (t : Tab α) : Bool :=
  match t with
  | [] => true
  | (i, _) :: r => (match r with | [] => true | (j, _) :: _ => decide (i < j)) && Tab.sorted r

/-- Bytes of a number, lowest first (R3). -/
def bytesOf (n v : Nat) : List Byte :=
  match n with
  | 0 => []
  | n + 1 => BitVec.ofNat 8 v :: bytesOf n (v / 256)

/-- The number whose bytes these are, lowest first (R3). -/
def ofBytes (l : List Byte) : Nat :=
  match l with
  | [] => 0
  | b :: r => b.toNat + 256 * ofBytes r

/-- Sign extension of the low `n` bits of `v` to an integer (R2). -/
def sext (v n : Nat) : Int :=
  let x := v % 2 ^ n
  if 2 ^ (n - 1) ≤ x ∧ 0 < n then (x : Int) - (2 ^ n : Nat) else (x : Int)

/-- An integer modulo 2^n. -/
def wrap (i : Int) (n : Nat) : Nat := (i % ((2 ^ n : Nat) : Int)).toNat

/-- Bits [lo + n - 1 : lo] of a number. -/
def bits (v lo n : Nat) : Nat := v / 2 ^ lo % 2 ^ n

/-- One bit of a number. -/
def tb (v i : Nat) : Bool := v / 2 ^ i % 2 == 1

/-- Set or clear bit `i`. -/
def setBit (v i : Nat) (b : Bool) : Nat :=
  if tb v i = b then v else if b then v + 2 ^ i else v - 2 ^ i

/-- The numbers lo, lo + 1, ..., lo + n - 1. -/
def upto (lo n : Nat) : List Nat :=
  match n with
  | 0 => []
  | n + 1 => lo :: upto (lo + 1) n

/-- Smallest and largest of a list of naturals, with a default for the empty list. -/
def minOf (l : List Nat) (d : Nat) : Nat :=
  match l with
  | [] => d
  | x :: r => r.foldl min x

def maxOf (l : List Nat) (d : Nat) : Nat :=
  match l with
  | [] => d
  | x :: r => r.foldl max x

/-- Insert into a sorted list of naturals, without repeats. -/
def insSorted (l : List Nat) (x : Nat) : List Nat :=
  match l with
  | [] => [x]
  | y :: r => if x < y then x :: y :: r else if x = y then y :: r else y :: insSorted r x

/-- Replace the elements that satisfy a test. -/
def mapIf {α : Type} (l : List α) (p : α → Bool) (f : α → α) : List α := l.map fun x => if p x then f x else x

/-- The element at a position, or a default. -/
def nth {α : Type} (l : List α) (i : Nat) (d : α) : α := (l[i]?).getD d

/-- Replace the element at a position. -/
def setNth {α : Type} (l : List α) (i : Nat) (x : α) : List α := l.set i x

/-- Fold a function that may stop over a list. -/
def foldE {σ ε α : Type} (l : List α) (s : σ) (f : σ → α → Except ε σ) : Except ε σ :=
  match l with
  | [] => .ok s
  | x :: r => match f s x with
    | .ok s' => foldE r s' f
    | .error e => .error e

/-- Apply a function that may stop to every element. -/
def mapE {ε α β : Type} (l : List α) (f : α → Except ε β) : Except ε (List β) :=
  match l with
  | [] => .ok []
  | x :: r => match f x with
    | .error e => .error e
    | .ok y => match mapE r f with
      | .error e => .error e
      | .ok ys => .ok (y :: ys)

/-- ⌈a / b⌉. -/
def ceilDiv (a b : Nat) : Nat := (a + b - 1) / b

/-- `a` rounded up to a multiple of `b`. -/
def roundUp (a b : Nat) : Nat := ceilDiv a b * b

/-- Number of 1 bits among the low `n` bits. -/
def popCount (n v : Nat) : Nat :=
  match n with
  | 0 => 0
  | n + 1 => v % 2 + popCount n (v / 2)

/-! ### Memory cells: unlisted bytes read 0 (R326 zeroes every range), and no 0 is listed -/

/-- One byte. -/
def cellGet (m : List Host.Cell) (a : Nat) : Byte := Tab.get m a 0

/-- Write one byte, keeping the canonical form. -/
def cellPut (m : List Host.Cell) (a : Nat) (b : Byte) : List Host.Cell := Tab.put m a b 0

/-- `n` bytes from `a`. -/
def cellsGet (m : List Host.Cell) (a n : Nat) : List Byte := (upto a n).map (cellGet m)

/-- Write bytes from `a` upwards. -/
def cellsPut (m : List Host.Cell) (a : Nat) (l : List Byte) : List Host.Cell :=
  match l with
  | [] => m
  | b :: r => cellsPut (cellPut m a b) (a + 1) r

/-- The canonical form: addresses strictly rising, no byte equal to the default. -/
def Memory.wf (m : List Host.Cell) : Bool := Tab.sorted m && m.all fun c => c.2 != 0

end Sys2Proof.Machine
end

