-- ==== Sys2Proof/Machine/Access.lean ====
section
/-! DEFINITION. Reaching the parts of the state: cores, teams, groups, leads, parties, contexts, registers of the
device and context pages, and interrupt vectors. -/

namespace Sys2Proof.Machine

def getCore (s : State) (c : Nat) : Core := Tab.get s.cores c Core.reset
def setCore (s : State) (c : Nat) (x : Core) : State := { s with cores := Tab.set s.cores c x }
def modCore (s : State) (c : Nat) (f : Core → Core) : State := setCore s c (f (getCore s c))

def getTeam (s : State) (t : Nat) : Option Team := Tab.find s.teams t
def setTeam (s : State) (t : Nat) (x : Team) : State := { s with teams := Tab.set s.teams t x }
def modTeam (s : State) (t : Nat) (f : Team → Team) : State :=
  match getTeam s t with
  | some x => setTeam s t (f x)
  | none => s

def getGroup (s : State) (t g : Nat) : Option Group :=
  match getTeam s t with
  | some x => Tab.find x.groups g
  | none => none

def setGroup (x : Team) (g : Nat) (y : Group) : Team := { x with groups := Tab.set x.groups g y }

def modGroup (s : State) (t g : Nat) (f : Group → Group) : State :=
  match getTeam s t with
  | some x => match Tab.find x.groups g with
    | some y => setTeam s t (setGroup x g (f y))
    | none => s
  | none => s

def modLead (s : State) (t : Nat) (f : Lead → Lead) : State := modTeam s t fun x => { x with lead := f x.lead }

def getPorter (s : State) (c p : Nat) : Porter := if p = 0 then (getCore s c).p0 else (getCore s c).p1
def setPorter (s : State) (c p : Nat) (x : Porter) : State :=
  modCore s c fun k => if p = 0 then { k with p0 := x } else { k with p1 := x }
def modPorter (s : State) (c p : Nat) (f : Porter → Porter) : State := setPorter s c p (f (getPorter s c p))

/-- R295: a team number that names the handler of a core. -/
def isHandler (t : Nat) : Bool := decide (Config.handlerBase ≤ t)

/-- The program kind of a party (R344). -/
inductive Kind where
  | group | lead | porter
  deriving DecidableEq, Repr

def kindOf : Party → Kind
  | .group _ _ => .group
  | .lead _ => .lead
  | .porter _ _ => .porter

/-- The team of a party; a porter's is its starting team. -/
def teamOf (s : State) : Party → Nat
  | .group t _ => t
  | .lead t => t
  | .porter c p => ((getPorter s c p).team).getD 0

/-- The core a party issues on. -/
def coreOf (s : State) : Party → Nat
  | .group t g => ((getGroup s t g).map (·.core)).getD 0
  | .lead t => ((getTeam s t).map (·.core)).getD 0
  | .porter c _ => c

/-- The context of a party. -/
def ctxOf (s : State) (p : Party) : Nat := ((getTeam s (teamOf s p)).map (·.ctx)).getD 0

/-- R288: partition of a group; leads and porters use the core TLB directly (R131). -/
def partOf (s : State) : Party → Option Nat
  | .group t g => (getGroup s t g).map (·.part)
  | _ => none

/-- The control state of a group or lead. -/
def getCom (s : State) : Party → Option Common
  | .group t g => (getGroup s t g).map (·.com)
  | .lead t => (getTeam s t).map (·.lead.com)
  | .porter _ _ => none

def modCom (s : State) (p : Party) (f : Common → Common) : State :=
  match p with
  | .group t g => modGroup s t g fun x => { x with com := f x.com }
  | .lead t => modLead s t fun x => { x with com := f x.com }
  | .porter _ _ => s

def getCtx (s : State) (c : Nat) : Context := Tab.get s.ctxs c Context.free
def setCtx (s : State) (c : Nat) (x : Context) : State := { s with ctxs := Tab.set s.ctxs c x }
def modCtx (s : State) (c : Nat) (f : Context → Context) : State := setCtx s c (f (getCtx s c))

def getInst (s : State) (i : Nat) : Option Instance := Tab.find s.insts i
def modInst (s : State) (i : Nat) (f : Instance → Instance) : State :=
  match getInst s i with
  | some x => { s with insts := Tab.set s.insts i (f x) }
  | none => s

def getLaunch (s : State) (l : Nat) : Option Launch := Tab.find s.launches l
def modLaunch (s : State) (l : Nat) (f : Launch → Launch) : State :=
  match getLaunch s l with
  | some x => { s with launches := Tab.set s.launches l (f x) }
  | none => s

/-- R312: reset value of a device-page register. -/
def devReset (off : Nat) : DWord := if off = 0x0000 then BitVec.ofNat 64 Config.devident else if off = 0x0020 then 0x1A4 else 0

def devReg (s : State) (off : Nat) : DWord := Tab.get s.dev off (devReset off)
def setDev (s : State) (off : Nat) (v : DWord) : State := { s with dev := Tab.put s.dev off v (devReset off) }

/-- R276, R314: a context-page register. -/
def pageReg (s : State) (c off : Nat) : DWord := Tab.get s.page (c * 0x10000 + off) 0
def setPage (s : State) (c off : Nat) (v : DWord) : State :=
  { s with page := Tab.put s.page (c * 0x10000 + off) v 0 }

/-- R310: whether a slot belongs to an enabled VF. -/
def vfSlot (s : State) (c : Nat) : Bool := decide (64 < c) && decide (c - 64 ≤ s.vfs)

/-- R311: raise event k (0 completion, 1 queue error, 2 escalation, 3 command) of a context. -/
def raiseCtx (s : State) (c k : Nat) : State :=
  { s with msix := s.msix ++ [if vfSlot s c then (c - 64, k) else (0, 64 + 16 * c + k)] }

/-- R311: a PF vector. -/
def raisePF (s : State) (v : Nat) : State := { s with msix := s.msix ++ [(0, v)] }

/-- R313: `CTXGRANT` as its two 64-bit halves. -/
def grantLo (s : State) (c : Nat) : Nat := (devReg s (0x2000 + 16 * c)).toNat
def grantHi (s : State) (c : Nat) : Nat := (devReg s (0x2008 + 16 * c)).toNat
def grantJit (s : State) (c : Nat) : Bool := tb (grantHi s c) 1
def grantSys (s : State) (c : Nat) : Bool := tb (grantHi s c) 2
def grantPart (s : State) (c p : Nat) : Bool := tb (grantHi s c) (48 + p)

/-- R140, R312: the owner of SC partition p. -/
def scOwner (s : State) (p : Nat) : Option Nat :=
  let v := (devReg s (0x1410 + p)).toNat
  if tb v 7 then some (v % 128) else none

/-- R314: a context-page field in force. -/
def forceReg (s : State) (c off : Nat) : Nat := (Tab.get (getCtx s c).force off 0).toNat

/-- R35: the other core of a pair. -/
def partnerOf (c : Nat) : Nat := if c % 2 = 0 then c + 1 else c - 1

/-- R10: the quadrant of a core. -/
def quadOf (c : Nat) : Nat := c / 20

/-- The live groups of a team (R39). -/
def groupLive (g : Group) : Bool := g.com.st != .exited

def liveGroups (t : Team) : List (Nat × Group) := t.groups.filter fun x => groupLive x.2

/-- Removal of one element by position. -/
def dropAt {α : Type} (l : List α) (i : Nat) : List α := l.eraseIdx i

end Sys2Proof.Machine
end

