-- ==== Sys2Proof/Machine/Barrier.lean ====
section
/-! DEFINITION. Barriers: handles, references, arrivals, credits, the phase test and waiters (R187, R188, R191,
R306 to R308, R372 to R377). -/

namespace Sys2Proof.Machine

def getBar (s : State) (b : BarRef) : Option Barrier := Tab.find (getCore s b.core).pool b.entry
def modBar (s : State) (b : BarRef) (f : Barrier → Barrier) : State :=
  match getBar s b with
  | some x => modCore s b.core fun k => { k with pool := Tab.set k.pool b.entry (f x) }
  | none => s

/-- R307: one more reference. -/
def barTake (s : State) (b : BarRef) : State := modBar s b fun x => { x with refs := x.refs + 1 }

/-- R307: drop a reference; with the last one the entry returns to the pool. -/
def barDrop (s : State) (b : BarRef) : State :=
  match getBar s b with
  | some x =>
    if x.refs ≤ 1 then modCore s b.core fun k => { k with pool := Tab.del k.pool b.entry }
    else modBar s b fun x => { x with refs := x.refs - 1 }
  | none => s

/-- Apply a function to the control state of every group and lead. -/
def mapCommons (s : State) (f : Common → Common) : State :=
  { s with teams := s.teams.map fun x =>
      (x.1, { x.2 with lead := { x.2.lead with com := f x.2.lead.com },
                       groups := x.2.groups.map fun y => (y.1, { y.2 with com := f y.2.com }) }) }

/-- A BWAIT on `b` that has not been released yet is released (R390). -/
def releaseWait (b : BarRef) (w : WaitEnd) (c : Common) : Common :=
  match c.wait with
  | some (.bwait r none) =>
    if r.core = b.core ∧ r.entry = b.entry then { c with wait := some (.bwait r (some w)) } else c
  | _ => c

/-- R189: porters whose XWAIT waits on `b` are released. -/
def releasePorters (s : State) (b : BarRef) (w : WaitEnd) : State :=
  let one := fun (x : Porter) => match x.bar, x.wait with
    | some r, some none => if r.core = b.core ∧ r.entry = b.entry then { x with wait := some (some w) } else x
    | _, _ => x
  { s with cores := s.cores.map fun k => (k.1, { k.2 with p0 := one k.2.p0, p1 := one k.2.p1 }) }

/-- R187, R383: every waiter is released. -/
def releaseAll (s : State) (b : BarRef) (w : WaitEnd) : State :=
  releasePorters (mapCommons s (releaseWait b w)) b w

/-- R187: the phase test, after the arrivals and credits of a step. -/
def phaseTest (s : State) (b : BarRef) : State :=
  match getBar s b with
  | some x =>
    if x.arr = 0 ∧ x.tx = 0 then
      releaseAll (modBar s b fun x =>
        { x with ph := !x.ph, arr := x.exp, tx := 0, last := x.arrived, arrived := [] }) b ⟨false, x.arrived⟩
    else s
  | none => s

/-- R187: TX is a signed 40-bit balance. -/
def tx40 (i : Int) : Int := sext (wrap i 40) 40

/-- R188, R377: one arrival, made on core `at'`, with `n` bytes; dropped on an invalidated barrier. An arrival beyond the
missing ones leaves ARR at 0 (DESIGN CHOICE, log 45). -/
def barArrive (s : State) (b : BarRef) (at' n : Nat) : State :=
  match getBar s b with
  | some x =>
    if x.inval then s
    else phaseTest (modBar s b fun x =>
      { x with arr := x.arr - 1, tx := tx40 (x.tx + n), arrived := insSorted x.arrived at' }) b
  | none => s

/-- R161, R188: a credit of `n` bytes by a porter of core `at'`; the answer says whether it was dropped (R191). -/
def barCredit (s : State) (b : BarRef) (at' n : Nat) : State × Bool :=
  match getBar s b with
  | some x =>
    if x.inval then (s, true)
    else (phaseTest (modBar s b fun x =>
      { x with tx := tx40 (x.tx - n), arrived := insSorted x.arrived at' }) b, false)
  | none => (s, true)

/-- R383: BINVAL. -/
def barInvalidate (s : State) (b : BarRef) : State :=
  match getBar s b with
  | some x =>
    if x.inval then s
    else releaseAll (modBar s b fun x => { x with inval := true }) b ⟨true, []⟩
  | none => s

/-- R390: a BWAIT that completes, or is withdrawn, no longer counts as a waiter. -/
def barLeave (s : State) (b : BarRef) : State := modBar s b fun x => { x with waiters := x.waiters - 1 }

/-- R153, R161: observing a flip of a pair barrier makes a phase boundary when an arrival or a credit of the phase that
ended, made on `cores`, was made on another core. -/
def flipCrosses (x : Barrier) (cores : List Nat) (core : Nat) : Bool := x.pair && cores.any (· != core)

/-- R389, R390: how a flip already made releases its observer. -/
def lastFlip (x : Barrier) : WaitEnd := ⟨false, x.last⟩

/-- R306: the barrier whose `NAME` and `GEN` the team holds, from a handle used on a core: a barrier that is not a pair
barrier is reached only from the core whose pool holds it (R373). -/
def barHeld (s : State) (t : Team) (core h : Nat) : Option BarRef :=
  match Tab.find t.names (h % 64) with
  | some n =>
    match n.bar with
    | some (c, e) =>
      if n.gen = h / 2 ^ 14 ∧ h / 2 ^ 14 ≠ 0 ∧ bits h 7 7 = 0 ∧ tb h 6 = n.pair ∧ h < 2 ^ 32 ∧ (n.pair ∨ c = core) then
        let b : BarRef := ⟨c, e, BitVec.ofNat 16 h⟩
        if (getBar s b).isSome then some b else none
      else none
    | none => none
  | none => none

/-- R306: a valid handle. -/
def barValid (s : State) (t : Team) (core h : Nat) : Option BarRef :=
  match barHeld s t core h with
  | some b => if ((getBar s b).map (·.inval)).getD true then none else some b
  | none => none

/-- R188: the barrier of a given name on another team (XMCAST deliveries). -/
def barNamed (t : Team) (name : Nat) : Option BarRef :=
  match Tab.find t.names name with
  | some n => n.bar.map fun x => ⟨x.1, x.2, 0⟩
  | none => none

/-- R307: lowest free pool entry. -/
def freeEntry (s : State) (core : Nat) : Option Nat :=
  (upto 0 64).find? fun e => (Tab.find (getCore s core).pool e).isNone

/-- R375: lowest name the team does not hold. -/
def freeName (t : Team) : Option Nat :=
  (upto 0 64).find? fun n => ((Tab.find t.names n).bind (·.bar)).isNone

/-- R307: team retirement or kill drops every reference of the team. The barriers of a saved team stand in its save, and
no entry of a pool is its own any more. -/
def barDropTeam (s : State) (t : Nat) : State :=
  match getTeam s t with
  | some x =>
    let held := if x.resident then x.names else []
    let s := held.foldl (fun s n => match n.2.bar with
      | some (c, e) => barDrop s ⟨c, e, 0⟩
      | none => s) s
    setTeam s t { x with names := x.names.map fun n => (n.1, { n.2 with bar := none }) }
  | none => s

end Sys2Proof.Machine
end

