-- ==== Sys2Proof/Machine/Crypto.lean ====
section
/-! DEFINITION. The public algorithms the manual names: SM3 (GB/T 32905), HMAC over it, SM4 (GB/T 32907) and
SM4-XTS with one sector as data unit (R136, R318). Their steps are PRESUMED from the public standards, log entry 20. -/

namespace Sys2Proof.Machine

def rotl32 (x n : Nat) : Nat := (x * 2 ^ (n % 32) + x / 2 ^ (32 - n % 32)) % 2 ^ 32

/-! ### SM3 -/

def sm3P0 (x : Nat) : Nat := x ^^^ rotl32 x 9 ^^^ rotl32 x 17
def sm3P1 (x : Nat) : Nat := x ^^^ rotl32 x 15 ^^^ rotl32 x 23

/-- Big-endian 32-bit words of a byte list. -/
def beWords (n : Nat) (l : List Byte) : List Nat :=
  match n with
  | 0 => []
  | n + 1 => match l with
    | a :: b :: c :: d :: r =>
      (((a.toNat * 256 + b.toNat) * 256 + c.toNat) * 256 + d.toNat) :: beWords n r
    | _ => []

def beBytes (n v : Nat) : List Byte := (bytesOf n v).reverse

/-- Message expansion: words newest first. -/
def sm3Expand (n : Nat) (w : List Nat) : List Nat :=
  match n with
  | 0 => w
  | n + 1 =>
    let g := fun i => nth w i 0
    let x := sm3P1 (g 15 ^^^ g 8 ^^^ rotl32 (g 2) 15) ^^^ rotl32 (g 12) 7 ^^^ g 5
    sm3Expand n (x :: w)

/-- 64 rounds over (A, ..., H). -/
def sm3Rounds (n j : Nat) (w : List Nat) (a b c d e f g h : Nat) : List Nat :=
  match n with
  | 0 => [a, b, c, d, e, f, g, h]
  | n + 1 =>
    let t := if j < 16 then 0x79CC4519 else 0x7A879D8A
    let m := 2 ^ 32
    let a12 := rotl32 a 12
    let ss1 := rotl32 ((a12 + e + rotl32 t j) % m) 7
    let ss2 := ss1 ^^^ a12
    let ff := if j < 16 then a ^^^ b ^^^ c else (a &&& b) ||| (a &&& c) ||| (b &&& c)
    let gg := if j < 16 then e ^^^ f ^^^ g else (e &&& f) ||| ((m - 1 - e) &&& g)
    let wj := nth w j 0
    let wj4 := nth w (j + 4) 0
    let tt1 := (ff + d + ss2 + (wj ^^^ wj4)) % m
    let tt2 := (gg + h + ss1 + wj) % m
    sm3Rounds n (j + 1) w tt1 a (rotl32 b 9) c (sm3P0 tt2) e (rotl32 f 19) g

def sm3Block (v : List Nat) (blk : List Byte) : List Nat :=
  let w := (sm3Expand 52 (beWords 16 blk).reverse).reverse
  let i := fun k => nth v k 0
  (sm3Rounds 64 0 w (i 0) (i 1) (i 2) (i 3) (i 4) (i 5) (i 6) (i 7)).zipWith (· ^^^ ·) v

def sm3Blocks (n : Nat) (v : List Nat) (l : List Byte) : List Nat :=
  match n with
  | 0 => v
  | n + 1 => sm3Blocks n (sm3Block v (l.take 64)) (l.drop 64)

/-- The 32-byte digest. -/
def sm3 (msg : List Byte) : List Byte :=
  let len := msg.length
  let pad := (119 - len % 64) % 64
  let full := msg ++ [0x80#8] ++ List.replicate pad 0#8 ++ beBytes 8 (8 * len)
  let iv := [0x7380166F, 0x4914B2B9, 0x172442D7, 0xDA8A0600, 0xA96F30BC, 0x163138AA, 0xE38DEE4D, 0xB0FB0E4E]
  ((sm3Blocks (full.length / 64) iv full).map (beBytes 4)).flatten

/-- HMAC-SM3 with a key of at most 64 bytes. -/
def hmacSm3 (key msg : List Byte) : List Byte :=
  let k := key ++ List.replicate (64 - key.length) 0#8
  let x := fun (c : Byte) => k.map fun b => b ^^^ c
  sm3 (x 0x5C ++ sm3 (x 0x36 ++ msg))

/-! ### SM4 -/

/-- The S-box, sixteen bytes a row, as big-endian numbers. -/
def sm4SboxRows : List Nat :=
  [0xD690E9FECCE13DB716B614C228FB2C05, 0x2B679A762ABE04C3AA44132649860699,
   0x9C4250F491EF987A33540B43EDCFAC62, 0xE4B31CA9C908E89580DF94FA758F3FA6,
   0x4707A7FCF37317BA83593C19E6854FA8, 0x686B81B27164DA8BF8EB0F4B70569D35,
   0x1E240E5E6358D1A225227C3B01217887, 0xD40046579FD327524C3602E7A0C4C89E,
   0xEABF8AD240C738B5A3F7F2CEF96115A1, 0xE0AE5DA49B341A55AD933230F58CB1E3,
   0x1DF6E22E8266CA60C02923AB0D534E6F, 0xD5DB3745DEFD8E2F03FF6A726D6C5B51,
   0x8D1BAF92BBDDBC7F11D95C411F105AD8, 0x0AC13188A5CD7BBD2D74D012B8E5B4B0,
   0x8969974A0C96777E65B9F109C56EC684, 0x18F07DEC3ADC4D2079EE5F3ED7CB3948]

def sm4Sbox (b : Nat) : Nat := nth sm4SboxRows (b / 16 % 16) 0 / 256 ^ (15 - b % 16) % 256

def sm4Tau (x : Nat) : Nat :=
  ((sm4Sbox (x / 2 ^ 24 % 256) * 256 + sm4Sbox (x / 2 ^ 16 % 256)) * 256 + sm4Sbox (x / 2 ^ 8 % 256)) * 256 +
    sm4Sbox (x % 256)

def sm4T (x : Nat) : Nat :=
  let b := sm4Tau x
  b ^^^ rotl32 b 2 ^^^ rotl32 b 10 ^^^ rotl32 b 18 ^^^ rotl32 b 24

def sm4Tk (x : Nat) : Nat :=
  let b := sm4Tau x
  b ^^^ rotl32 b 13 ^^^ rotl32 b 23

def sm4Ck (i : Nat) : Nat :=
  let c := fun j => (4 * i + j) * 7 % 256
  ((c 0 * 256 + c 1) * 256 + c 2) * 256 + c 3

/-- Round keys, first round first. -/
def sm4KeysGo (n i a b c d : Nat) : List Nat :=
  match n with
  | 0 => []
  | n + 1 =>
    let k := a ^^^ sm4Tk (b ^^^ c ^^^ d ^^^ sm4Ck i)
    k :: sm4KeysGo n (i + 1) b c d k

def sm4Keys (key : List Byte) : List Nat :=
  let w := beWords 4 key
  let g := fun i => nth w i 0
  sm4KeysGo 32 0 (g 0 ^^^ 0xA3B1BAC6) (g 1 ^^^ 0x56AA3350) (g 2 ^^^ 0x677D9197) (g 3 ^^^ 0xB27022DC)

def sm4Go (ks : List Nat) (a b c d : Nat) : List Nat :=
  match ks with
  | [] => [d, c, b, a]
  | k :: r => sm4Go r b c d (a ^^^ sm4T (b ^^^ c ^^^ d ^^^ k))

/-- One block under a list of round keys; the reversed list decrypts. -/
def sm4Block (ks : List Nat) (blk : List Byte) : List Byte :=
  let w := beWords 4 blk
  let g := fun i => nth w i 0
  ((sm4Go ks (g 0) (g 1) (g 2) (g 3)).map (beBytes 4)).flatten

/-! ### XTS over one 32-byte data unit -/

/-- Multiplication by x in GF(2^128), on a little-endian number. -/
def xtsDouble (t : Nat) : Nat := if t / 2 ^ 127 % 2 = 1 then (t * 2 % 2 ^ 128) ^^^ 0x87 else t * 2

def xtsBlocks (ks : List Nat) (t : Nat) (l : List (List Byte)) : List Byte :=
  match l with
  | [] => []
  | b :: r =>
    let x := bytesOf 16 (ofBytes b ^^^ t)
    bytesOf 16 (ofBytes (sm4Block ks x) ^^^ t) ++ xtsBlocks ks (xtsDouble t) r

/-- R136: one sector under a key pair, with the tweak as a 128-bit little-endian value. -/
def xtsSector (enc : Bool) (k1 k2 : List Byte) (tweak : Nat) (l : List Byte) : List Byte :=
  let t := ofBytes (sm4Block (sm4Keys k2) (bytesOf 16 tweak))
  let ks := sm4Keys k1
  xtsBlocks (if enc then ks else ks.reverse) t [l.take 16, (l.drop 16).take 16]

/-- R318: K for a purpose, by the public formula over the fused root. -/
def deriveKey (purpose : List Byte) (tenant : BitVec 64) (period : Word) (salt : BitVec 256) (index : Nat) :
    List Byte :=
  hmacSm3 (bytesOf 32 Config.root.toNat)
    (purpose ++ bytesOf 8 tenant.toNat ++ bytesOf 4 period.toNat ++ bytesOf 32 salt.toNat ++ bytesOf 1 index)

/-- R318: the four ASCII purposes. -/
def purposeMem : List Byte := [0x4D, 0x45, 0x4D, 0x20]
def purposeImg : List Byte := [0x49, 0x4D, 0x47, 0x20]
def purposeExpt : List Byte := [0x45, 0x58, 0x50, 0x54]
def purposeAtst : List Byte := [0x41, 0x54, 0x53, 0x54]

/-- The order n of the SM2 recommended curve (R318). -/
def sm2Order : Nat := 0xFFFFFFFEFFFFFFFFFFFFFFFFFFFFFFFF7203DF6B21C6052B53BBF40939D54123

/-- R318: the ATST private key. -/
def atstKey : Nat := 1 + ofBytes (deriveKey purposeAtst 0 0 0 0) % (sm2Order - 1)

end Sys2Proof.Machine
end

