-- ==== Sys2Proof/Machine/Mmu.lean ====
section
/-! DEFINITION. Address translation and the checks of R133 to R135 (R126 to R135, R313). -/

namespace Sys2Proof.Machine

/-- R126: installed device memory, from `MEMCAP`. -/
def memCap (s : State) : Nat := (devReg s 0x0010).toNat

/-- R313: the context's GDDR7 window. -/
def inWindow (s : State) (c pa : Nat) : Bool :=
  decide (bits (grantLo s c) 0 10 * 2 ^ 30 ≤ pa) && decide (pa < bits (grantLo s c) 32 10 * 2 ^ 30)

/-- R126, R313: device GDDR7 that the context may reach. -/
def inGddr (s : State) (c pa : Nat) : Bool := decide (pa < memCap s) && inWindow s c pa

/-- R126: system space. -/
def isSys (pa : Nat) : Bool := decide (2 ^ 45 ≤ pa) && decide (pa < 2 ^ 46)

/-- R133 check 11, R313. -/
def backed (s : State) (c pa : Nat) : Bool := inGddr s c pa || (isSys pa && grantSys s c)

/-- R128: fields of an entry. -/
def pteValid (e : Nat) : Bool := tb e 0
def pteRead (e : Nat) : Bool := tb e 1
def pteWrite (e : Nat) : Bool := tb e 2
def pteExec (e : Nat) : Bool := tb e 3
def pteLeaf (e : Nat) : Bool := tb e 6
def pteC64 (e : Nat) : Bool := tb e 7
def pteCa (e : Nat) : Nat := bits e 10 2
def pteAddr (e : Nat) : Nat := bits e 12 34 * 4096
def pteKey (e : Nat) : Nat := bits e 50 6
def pteScp (e : Nat) : Nat := bits e 56 4
def ptePin (e : Nat) : Bool := tb e 60
def pteHcoh (e : Nat) : Bool := tb e 61

/-- R127: the levels from the root: shift and width of the index, size of a leaf (0: none). -/
def levels : List (Nat × Nat × Nat) := [(39, 10, 0), (30, 9, 30), (21, 9, 21), (12, 9, 12)]

/-- R129: a malformed present entry at a level whose leaf size is `lg`. -/
def pteMalformed (s : State) (c e lg : Nat) : Bool :=
  let size := if pteC64 e then 16 else lg
  bits e 4 2 != 0 || bits e 8 2 != 0 || bits e 46 4 != 0 || bits e 62 2 != 0 || pteCa e == 3 ||
  (if pteLeaf e then
    lg == 0 || (pteC64 e && lg != 12) || pteAddr e % 2 ^ size != 0
  else
    lg == 12 || e != 1 + pteAddr e || !inGddr s c (pteAddr e))

/-! ### What the memory controllers move (R282) -/

/-- The line that the SC holds. -/
def scFind (s : State) (line : Nat) : Option ScLine := s.sc.find? fun l => l.line == line

/-- R282: the controller that serves a sector of device memory counts its 32 bytes for a context, when one is known. -/
def countSector (s : State) (ctx : Option Nat) (sector : Nat) : State :=
  match ctx with
  | some c =>
    if isSys (32 * sector) then s
    else
      let k := Config.controllerOf sector % 32 * 128 + c
      { s with bwNow := Tab.put s.bwNow k (Tab.get s.bwNow k 0 + 32) 0 }
  | none => s

/-- R142, R282: a line is filled from GDDR7, or written back to it, for the context that owns its partition. -/
def countLine (s : State) (p line : Nat) : State := (upto (4 * line) 4).foldl (fun s k => countSector s (scOwner s p) k) s

/-- R282: an access of a sector whose line the SC does not hold reaches its controller. -/
def movedSector (s : State) (ctx sector : Nat) : State :=
  if (scFind s (sector / 4)).isSome then s else countSector s (some ctx) sector

/-- R282: the write-back of a line, when it is dirty. -/
def lineBack (s : State) (line : Nat) : State :=
  match scFind s line with
  | some l => if l.dirty then countLine s l.part line else s
  | none => s

/-! ### Walks -/

/-- An 8-byte table entry as the slices hold it (R127). -/
def readEntry (s : State) (pa : Nat) : Nat := ofBytes (cellsGet s.mem pa 8)

/-- R127 to R129: walk the tables from `base`. -/
def walkGo (s : State) (c va : Nat) (ls : List (Nat × Nat × Nat)) (base : Nat) : WalkEnd :=
  match ls with
  | [] => .malformed
  | (sh, n, lg) :: r =>
    let i := bits va sh n
    let pa := base + 8 * i
    if s.poison.contains (pa / 32) then .uncorrectable
    else
      let e0 := readEntry s pa
      -- R129: any one of the 16 entries of a 64 KiB page whose entries differ
      let blk := (upto 0 16).map fun j => readEntry s (base + 8 * (i / 16 * 16 + j))
      let e := if lg = 12 ∧ (blk.any fun x => pteValid x && pteC64 x) ∧ blk.any (· != e0) then
          nth blk (Config.freeEntry s.tick % 16) e0 else e0
      if !pteValid e then .absent
      else if pteMalformed s c e lg then .malformed
      else if pteLeaf e then .leaf (BitVec.ofNat 64 e) (if pteC64 e then 16 else lg)
      else walkGo s c va r (pteAddr e)

/-- R127: a walk of the context's tables. A root outside device memory is malformed. -/
def walkTables (s : State) (c va : Nat) : WalkEnd :=
  let root := forceReg s c 0x0300 / 2 ^ 13 % 2 ^ 33 * 2 ^ 13
  if inGddr s c root then walkGo s c va levels root else .malformed

/-- R282: the sectors of the entries that a walk reads. -/
def walkSectors (s : State) (c va : Nat) (ls : List (Nat × Nat × Nat)) (base : Nat) : List Nat :=
  match ls with
  | [] => []
  | (sh, n, _) :: r =>
    let pa := base + 8 * bits va sh n
    let e := readEntry s pa
    pa / 32 :: if pteValid e && !pteLeaf e && inGddr s c (pteAddr e) then walkSectors s c va r (pteAddr e) else []

/-- R282: a walk of the context's tables has been made. -/
def walked (s : State) (c va : Nat) : State :=
  let root := forceReg s c 0x0300 / 2 ^ 13 % 2 ^ 33 * 2 ^ 13
  if inGddr s c root then (walkSectors s c va levels root).foldl (fun s k => movedSector s c k) s else s

/-- R131: does an entry translate `va` for the context? -/
def tlbHit (e : TlbEntry) (c va : Nat) : Bool := e.ctx == c && e.vpn == va / 2 ^ e.lg

/-- R131: the places that an agent's translations are looked up in, in order; one that is on no core has the shared TLB
alone. -/
def tlbPlaces (core : Nat) (part : Option Nat) : List TlbPlace :=
  (match part with | some p => [.part core p] | none => []) ++ (if core < Config.cores then [.core core] else []) ++ [.shared]

/-- R131: the first structure that holds the translation. -/
def tlbFind (s : State) (c va : Nat) (places : List TlbPlace) : Option (Nat × Nat) :=
  match places with
  | [] => none
  | p :: r => match s.tlb.find? fun e => e.place == p && tlbHit e c va with
    | some e => some (e.pte.toNat, e.lg)
    | none => tlbFind s c va r

/-- R131: entries each structure holds. -/
def tlbCap : TlbPlace → Nat
  | .part _ _ => 32
  | .core _ => 1024
  | .shared => 16384

/-- Fill one structure, replacing a freely chosen entry of a full one. -/
def tlbFill (s : State) (e : TlbEntry) : State :=
  let same := s.tlb.filter fun x => x.place == e.place
  let rest := s.tlb.filter fun x => !(x.place == e.place && x.ctx == e.ctx && x.vpn == e.vpn && x.lg == e.lg)
  if same.length < tlbCap e.place then { s with tlb := rest ++ [e] }
  else
    match same[Config.freeVictim s.tick % same.length]? with
    | some v => { s with tlb := (rest.filter (· != v)) ++ [e] }
    | none => { s with tlb := rest ++ [e] }

/-- What an access is, for the checks of R133 and R134. -/
inductive Acc133 where
  | load | store | atom | red | monw | fetch
  /-- R394: CWB, CINV, CPIN, CUNPIN; and IINV. -/
  | range | rangeExec
  /-- R220: reads and writes of islands and launch-unit accesses that hold no key. -/
  | loadNoKey | storeNoKey
  deriving DecidableEq, Repr

/-- A checked address. -/
structure Phys where
  pa  : Nat
  key : Nat
  ca  : Nat
  scp : Nat
  pin : Bool
  hcoh : Bool
  deriving DecidableEq, Repr

/-- R290: codes of the memory traps. -/
def tcPage : Byte := 0x08
def tcAccess : Byte := 0x09
def tcMisaligned : Byte := 0x0A

/-- R133 checks 6 to 13 on a leaf. -/
def checkLeaf (s : State) (c va : Nat) (k : Acc133) (pte lg : Nat) : Except (Byte × Nat) Phys :=
  let pa := pteAddr pte / 2 ^ lg * 2 ^ lg + va % 2 ^ lg
  let key := pteKey pte
  let rd := k == .load || k == .atom || k == .monw || k == .range || k == .loadNoKey
  let wr := k == .store || k == .atom || k == .red || k == .storeNoKey
  let ex := k == .fetch || k == .rangeExec
  let noWX := !(k == .range || k == .rangeExec)
  let noKey := k == .atom || k == .red || k == .monw || k == .loadNoKey || k == .storeNoKey
  if rd && !pteRead pte then .error (tcAccess, 0x2)
  else if wr && !pteWrite pte then .error (tcAccess, 0x3)
  else if ex && !pteExec pte then .error (tcAccess, 0x4)
  else if noWX && pteWrite pte && pteExec pte && !grantJit s c then .error (tcAccess, 0x5)
  else if key != 0 && Tab.find s.slots key != some c then .error (tcAccess, 0x6)
  else if !backed s c pa then .error (tcAccess, 0x7)
  else if noKey && key != 0 then .error (tcAccess, 0x8)
  else if !(grantPart s c (pteScp pte) && scOwner s (pteScp pte) == some c) then .error (tcAccess, 0x9)
  else .ok ⟨pa, key, pteCa pte, pteScp pte, ptePin pte, pteHcoh pte⟩

/-- R133 checks 3 to 5: how an unsuccessful walk is reported. -/
def walkFault : WalkEnd → Byte × Nat
  | .absent => (tcPage, 0)
  | .malformed => (tcPage, 1)
  | .uncorrectable => (tcPage, 2)
  | .leaf _ _ => (tcPage, 0)

/-- R133 with a translation that is available at once: engines, the launch unit and the HKC walk within the step, which
`touchTlb` completes. -/
def checkNow (s : State) (c core va size : Nat) (k : Acc133) : Except (Byte × Nat) Phys :=
  if 2 ^ 49 ≤ va then .error (tcAccess, 0x1)
  else if va % size != 0 then .error (tcMisaligned, 0)
  else match tlbFind s c va (tlbPlaces core none) with
    | some (pte, lg) => checkLeaf s c va k pte lg
    | none => match walkTables s c va with
      | .leaf pte lg => checkLeaf s c va k pte.toNat lg
      | w => .error (walkFault w)

/-- R127, R131: where an address leads as the TLBs and the tables stand, without the checks of R133. -/
def translate (s : State) (c core va : Nat) : Option Nat :=
  let at' := fun (pte lg : Nat) => pteAddr pte / 2 ^ lg * 2 ^ lg + va % 2 ^ lg
  if 2 ^ 49 ≤ va then none
  else match tlbFind s c va (tlbPlaces core none) with
    | some (pte, lg) => some (at' pte lg)
    | none => match walkTables s c va with
      | .leaf pte lg => some (at' pte.toNat lg)
      | _ => none

/-- Outcome of the checks of an issuing party: a fault, a translation that must first be walked, or an address. -/
inductive Checked where
  | ok (p : Phys)
  | bad (code : Byte) (cause : Nat)
  | walk (vpn : Nat)
  deriving DecidableEq, Repr

/-- R133, R134 for a group, lead or fetch: a miss in the TLBs waits for a walk (R131). A walk that has ended without
a leaf faults the access that waited for it, unless the tables hold a leaf by now. -/
def checkParty (s : State) (c core : Nat) (part : Option Nat) (va size : Nat) (k : Acc133) : Checked :=
  if 2 ^ 49 ≤ va then .bad tcAccess 0x1
  else if va % size != 0 then .bad tcMisaligned 0
  else match tlbFind s c va (tlbPlaces core part) with
    | some (pte, lg) => match checkLeaf s c va k pte lg with
      | .ok p => .ok p
      | .error (code, cause) => .bad code cause
    | none => match s.walks.find? fun w => w.ctx == c && w.vpn == va / 4096 with
      | some w => match w.ended with
        | some _ => match walkTables s c va with
          | .leaf _ _ => .walk (va / 4096)
          | e => .bad (walkFault e).1 (walkFault e).2
        | none => .walk (va / 4096)
      | none => .walk (va / 4096)

/-- R131: the device's page walkers. -/
def walkers : Nat := 32

/-- R131: every walker is taken. -/
def walkersBusy (s : State) : Bool := decide (walkers ≤ (s.walks.filter fun w => w.ended.isNone).length)

/-- R131: start a walk, or join the one outstanding. With every walker taken none starts, and the requester asks again
when it next tries to issue. -/
def startWalk (s : State) (c core : Nat) (part : Option Nat) (vpn : Nat) : State :=
  if (s.walks.any fun w => w.ctx == c && w.vpn == vpn && w.ended.isNone) || walkersBusy s then s
  else { s with walks := s.walks.filter (fun w => !(w.ctx == c && w.vpn == vpn)) ++ [⟨c, vpn, core, part, none⟩] }

/-- R131: a walk that has found a leaf fills the TLBs of its requester. -/
def fillTlbs (s : State) (c core : Nat) (part : Option Nat) (va lg : Nat) (pte : DWord) : State :=
  (tlbPlaces core part).foldl (fun s p => tlbFill s ⟨p, c, va / 2 ^ lg, lg, pte⟩) s

/-- R131: the outstanding walk number `i` ends: a leaf fills the TLBs; anything else waits for the access that walked. -/
def endWalk (s : State) (i : Nat) : State :=
  match s.walks[i]? with
  | none => s
  | some w =>
    if w.ended.isSome then s
    else match walkTables s w.ctx (w.vpn * 4096) with
      | .leaf pte lg =>
        fillTlbs { walked s w.ctx (w.vpn * 4096) with walks := dropAt s.walks i } w.ctx w.core w.part (w.vpn * 4096) lg pte
      | e => { walked s w.ctx (w.vpn * 4096) with walks := setNth s.walks i { w with ended := some e } }

/-- R131: the position of the walk outstanding for a page, or, when every walker is taken, of the oldest walk. -/
def joinWalk (s : State) (c vpn : Nat) : Option Nat :=
  match s.walks.findIdx? fun w => w.ctx == c && w.vpn == vpn && w.ended.isNone with
  | some i => some i
  | none => if walkersBusy s then s.walks.findIdx? fun w => w.ended.isNone else none

/-- R131: the translation that an agent takes within one step (`checkNow`): on a miss it joins the walk outstanding for
the page, which then ends in this step, or has one of its own, for which a walker must be free: with all 32 taken the
oldest ends first. A leaf fills the TLBs that the agent looks in. -/
def touchTlb (s : State) (c core va : Nat) : State :=
  if 2 ^ 49 ≤ va ∨ (tlbFind s c va (tlbPlaces core none)).isSome then s
  else
    let s := match joinWalk s c (va / 4096) with
      | some i => endWalk s i
      | none => walked s c va
    match walkTables s c va with
    | .leaf pte lg => fillTlbs s c core none va lg pte
    | _ => s

/-- Start addresses of the pages that a range touches. -/
def pageStarts (fuel va n : Nat) : List Nat :=
  match fuel with
  | 0 => []
  | k + 1 => if n = 0 then [] else
    let m := min n (4096 - va % 4096)
    va :: pageStarts k (va + m) (n - m)

/-- R131: the translations of a range that an agent on no core, the launch unit or the HKC, takes within one step. -/
def touchRange (s : State) (c va n : Nat) : State :=
  (pageStarts (n / 4096 + 2) va n).foldl (fun s a => touchTlb s c Config.cores a) s

/-- A finished walk's result has been taken (R131: nothing of it is cached). -/
def dropWalk (s : State) (c vpn : Nat) : State :=
  { s with walks := s.walks.filter fun w => !(w.ctx == c && w.vpn == vpn && w.ended.isSome) }

/-- R138: the level that an access receives from a hint and a page's `CA`. -/
def polLevel (hint ca : Nat) (sc : Bool) : Nat :=
  let h := if hint = 0 then 2 else if hint = 1 then 3 else if hint = 2 then 1 else 0
  let ceil := match ca with
    | 0 => 3
    | 2 => if sc then 2 else 0
    | _ => 0
  min h ceil

end Sys2Proof.Machine
end

