-- ==== Sys2Proof/Machine/Cache.lean ====
section
/-! DEFINITION. Memory at the slices, the write buffers, L1, encryption of sectors and poison (R136 to R147,
R152 to R155, R165, R316). -/

namespace Sys2Proof.Machine

/-! ### Keys and sectors -/

/-- R318, R319: the SM4-XTS key pair of a key slot. -/
def slotKey (s : State) (slot : Nat) : List Byte × List Byte :=
  match Tab.find s.slots slot with
  | none => ([], [])
  | some c =>
    let x := getCtx s c
    let k := deriveKey purposeMem x.tenant x.period x.salt (x.slots.idxOf slot + 1)
    (k.take 16, k.drop 16)

/-- R136: encrypt or decrypt the 32 bytes of a sector under a slot; slot 0 leaves them plain. -/
def cryptSector (s : State) (enc : Bool) (slot sector : Nat) (l : List Byte) : List Byte :=
  if slot = 0 then l else let (k1, k2) := slotKey s slot; xtsSector enc k1 k2 sector l

/-- The 32 bytes of a sector as its slice holds them. -/
def sectorBytes (s : State) (sector : Nat) : List Byte := cellsGet s.mem (32 * sector) 32

/-- Bytes of `new` where the mask has a 1, of `old` elsewhere. -/
def mergeBytes (mask : Nat) (new old : List Byte) : List Byte :=
  match new, old with
  | a :: r, b :: t => (if mask % 2 = 1 then a else b) :: mergeBytes (mask / 2) r t
  | _, _ => []

def fullMask : Nat := 2 ^ 32 - 1

/-! ### The stacked cache -/

/-- R139: slice and set of a physical address. -/
def sliceOf (pa : Nat) : Nat := bits pa 7 5 ^^^ bits pa 24 5
def setOf (pa : Nat) : Nat := bits pa 12 12

/-- R140: the way mask of partition `q` in slice `sl`. -/
def wayMask (s : State) (sl q : Nat) : Nat := (devReg s (0x1000 + 32 * sl + 2 * q)).toNat % 2 ^ 16

/-- R140: the ways of slice `sl` that partition `p` holds: a way named in two masks belongs to the lower number. -/
def scWays (s : State) (sl p : Nat) : List Nat :=
  (upto 0 16).filter fun w => tb (wayMask s sl p) w && !(upto 0 p).any fun q => tb (wayMask s sl q) w

/-- The lines of the set of an address. -/
def scSet (s : State) (pa : Nat) : List ScLine :=
  s.sc.filter fun l => sliceOf (l.line * 128) == sliceOf pa && setOf (l.line * 128) == setOf pa

/-- The lines that a partition holds in the set of an address. -/
def scPeers (s : State) (pa p : Nat) : List ScLine := (scSet s pa).filter fun l => l.part == p

/-- R138: which lines of a set a new line of level `lv` may replace: a line of level 1 stands next in turn, and one of
level 3 stays before an insertion of level 1. -/
def nextVictims {α : Type} (lv : Nat) (level : α → Nat) (l : List α) : List α :=
  let next := l.filter fun x => level x == 1
  if next.isEmpty then l.filter fun x => !(lv == 1 && level x == 3) else next

/-- R138 to R140, R282: make a line resident in a way of its partition, filled from GDDR7, under a dirty line written back: a free one, or one whose unpinned line, of those that
R138 lets go, is freely chosen for replacement; where the partition has no such way in the slice, nothing is
allocated. -/
def scAllocate (s : State) (line p lv : Nat) : State :=
  let pa := line * 128
  if (scFind s line).isSome || isSys pa then s
  else
    let ways := scWays s (sliceOf pa) p
    let here := scSet s pa
    match ways.find? fun w => !here.any fun l => l.way == w with
    | some w => { countLine s p line with sc := s.sc ++ [⟨line, p, w, lv, false, false, none⟩] }
    | none =>
      let old := nextVictims lv (·.lv) (here.filter fun l => ways.contains l.way && !l.pinned)
      match old[Config.freeVictim s.tick % max 1 old.length]? with
      | some v =>
        { countLine (lineBack s v.line) p line with sc := s.sc.filter (· != v) ++ [⟨line, p, v.way, lv, false, false, none⟩] }
      | none => s

/-- R139: note a write to a resident line, keeping what GDDR7 holds under it. -/
def scDirty (s : State) (line : Nat) : State :=
  { s with sc := mapIf s.sc (fun l => l.line == line && !l.dirty) fun l =>
      { l with dirty := true, back := some (BitVec.ofNat 1024 (ofBytes (cellsGet s.mem (line * 128) 128))) } }

/-- R316: the link refuses the next request to a system-space sector. -/
def linkRefuses (s : State) (pa : Nat) : Bool := isSys pa && s.refused.contains (pa / 32)
def linkServed (s : State) (pa : Nat) : State := { s with refused := s.refused.filter (· != pa / 32) }

/-- Write masked bytes of a sector at its slice (R139, R155): a whole sector clears the poison mark, a partial write
leaves it (R147). `bad` writes the mark. -/
def sliceWrite (s : State) (ctx sector mask : Nat) (l : List Byte) (bad : Bool) : State :=
  let pa := 32 * sector
  if mask = 0 then s
  else if linkRefuses s pa then raiseCtx (linkServed s pa) ctx 1
  else
    let s := scDirty (movedSector s ctx sector) (pa / 128)
    let po := if bad then insSorted s.poison sector else if mask = fullMask then s.poison.filter (· != sector) else s.poison
    { s with mem := cellsPut s.mem pa (mergeBytes mask l (sectorBytes s sector)), poison := po }

/-- Read a sector at its slice: bytes and poison; a refused read returns poison (R316). -/
def sliceRead (s : State) (sector : Nat) : List Byte × Bool :=
  (sectorBytes s sector, s.poison.contains sector || linkRefuses s (32 * sector))

/-! ### L1 -/

def l1Find (s : State) (core sector : Nat) : Option L1Entry := s.l1.find? fun e => e.core == core && e.sector == sector
def l1Drop (s : State) (core sector : Nat) : State :=
  { s with l1 := s.l1.filter fun e => !(e.core == core && e.sector == sector) }

/-- R137: lines a core's L1 holds, 256 KiB of 128 bytes. -/
def l1Lines : Nat := 2048

/-- The lines of a core's L1, of those entries that satisfy a test. -/
def l1LinesOf (l : List L1Entry) : List Nat := (l.map fun e => e.sector / 4).eraseDups

/-- R137, R138, R154: hold a sector in L1 at a level. A sector of a line that is resident joins it. For a new line, a
freely chosen line of its set, of those that R138 lets go, may leave, and one must when L1 is full; where none may,
nothing is allocated. R138 gives levels to accesses and says nothing of a line whose sectors were read at different ones:
a sector of level 1 makes the whole line the next victim (DESIGN CHOICE, log 23). -/
def l1Allocate (s : State) (core sector lv : Nat) (l : List Byte) (bad : Bool) : State :=
  let s1 := l1Drop s core sector
  let add := fun (s : State) => { s with l1 := s.l1 ++ [⟨core, sector, BitVec.ofNat 256 (ofBytes l), bad, lv⟩] }
  let mine := s1.l1.filter fun e => e.core == core
  if mine.any fun e => e.sector / 4 == sector / 4 then add s1
  else
    let out := l1LinesOf (nextVictims lv (·.lv)
      (mine.filter fun e => Config.l1Set (e.sector / 4) == Config.l1Set (sector / 4)))
    let n := Config.freeVictim s.tick
    let room := decide ((l1LinesOf mine).length < l1Lines)
    match (if room then out[n]? else out[n % max 1 out.length]?) with
    | some v => add { s1 with l1 := s1.l1.filter fun e => !(e.core == core && e.sector / 4 == v) }
    | none => if room then add s1 else s1

/-- R149, R155: a sector that L1 holds takes what a read of its core has just returned from the slice, so that no later
read of that agent returns an older value (DEDUCED, log 11). -/
def l1Refresh (s : State) (core sector : Nat) (l : List Byte) (bad : Bool) : State :=
  { s with l1 := mapIf s.l1 (fun e => e.core == core && e.sector == sector) fun e =>
      { e with data := BitVec.ofNat 256 (ofBytes l), bad := bad } }

/-- R153: accesses in flight on a core deliver to their requesters but do not allocate in L1. -/
def noAllocate (s : State) (core : Nat) : State :=
  let one := fun (c : Common) => { c with ops := c.ops.map fun o => { o with lanes := o.lanes.map fun l => { l with l1 := 0 } } }
  { s with teams := s.teams.map fun t =>
      (t.1, { t.2 with lead := if t.2.core = core then { t.2.lead with com := one t.2.lead.com } else t.2.lead
                       groups := t.2.groups.map fun g => if g.2.core = core then (g.1, { g.2 with com := one g.2.com }) else g }) }

/-- R153: a phase boundary: every L1 line of the core is invalidated. -/
def phaseBoundary (s : State) (core : Nat) : State := noAllocate { s with l1 := s.l1.filter fun e => e.core != core } core

/-! ### The write buffer -/

def wbFind (s : State) (core sector : Nat) : Option WbEntry := s.wb.find? fun e => e.core == core && e.sector == sector
def wbDrop (s : State) (core sector : Nat) : State :=
  { s with wb := s.wb.filter fun e => !(e.core == core && e.sector == sector) }

/-- R36: the context whose tenancy a core serves; 0 when there is none. -/
def coreCtx (s : State) (core : Nat) : Nat := (((getCore s core).tenant).map (·.1)).getD 0

/-- R137, R154: one write-buffer sector is performed at its slice; a keyed sector is encrypted whole. R138 speaks of the
allocation of reads only: a store that misses the SC makes its line resident at its own SC level when its sector is
performed (DESIGN CHOICE, log 23). -/
def drainEntry (s : State) (e : WbEntry) : State :=
  let s := if e.sc = 0 then s else scAllocate s (e.sector / 4) e.part e.sc
  wbDrop (sliceWrite s (coreCtx s e.core) e.sector e.mask.toNat
    (cryptSector s true e.key e.sector (bytesOf 32 e.data.toNat)) e.bad) e.core e.sector

/-- R153: drain every sector of a core's write buffer. -/
def drainCore (s : State) (core : Nat) : State := (s.wb.filter fun e => e.core == core).foldl drainEntry s

/-- Drain one sector, when it is held (R369). -/
def drainSector (s : State) (core sector : Nat) : State :=
  match wbFind s core sector with
  | some e => drainEntry s e
  | none => s

/-- Bytes at an offset of a sector, as a masked sector image. -/
def placeBytes (off : Nat) (l : List Byte) : Nat × List Byte :=
  (2 ^ off * (2 ^ l.length - 1), List.replicate off 0#8 ++ l ++ List.replicate (32 - off - l.length) 0#8)

/-- R137, R138, R147: a store of at most 32 bytes within a sector enters the core's write buffer. `bad` writes poison
(a porter's or the matrix engine's). -/
def storeBytes (s : State) (core : Nat) (p : Phys) (l1 sc : Nat) (l : List Byte) (bad : Bool) : State :=
  let sector := p.pa / 32
  let (mask, img) := placeBytes (p.pa % 32) l
  let old := wbFind s core sector
  let oldMask := (old.map (·.mask.toNat)).getD 0
  let oldData := (old.map fun e => bytesOf 32 e.data.toNat).getD (List.replicate 32 0#8)
  let oldBad := (old.map (·.bad)).getD false
  let merged := mergeBytes mask img oldData
  let m := oldMask ||| mask
  let whole := m == fullMask
  -- a keyed sector is completed in plaintext (R137); its poison stays unless it was written whole (R147)
  let fetch := p.key != 0 && !whole
  let data := if fetch then mergeBytes m merged (cryptSector s false p.key sector (sliceRead s sector).1) else merged
  let m' := if fetch then fullMask else m
  let isBad := bad || (oldBad && mask != fullMask) || (fetch && (sliceRead s sector).2)
  let e : WbEntry := ⟨core, sector, BitVec.ofNat 32 m', BitVec.ofNat 256 (ofBytes data), p.key, p.scp, sc, isBad⟩
  let s := if fetch then movedSector s (coreCtx s core) sector else s
  -- L1: level 0 invalidates a present sector, the others update it (R138)
  let s1 := match l1Find s core sector with
    | none => s
    | some x =>
      if l1 = 0 then l1Drop s core sector
      else
        let plain := cryptSector s false p.key sector (bytesOf 32 x.data.toNat)
        let up := cryptSector s true p.key sector (mergeBytes mask img plain)
        let b := if mask = fullMask then bad else x.bad || bad
        { s with l1 := mapIf s.l1 (fun y => y.core == core && y.sector == sector) fun y =>
            { y with data := BitVec.ofNat 256 (ofBytes up), bad := b } }
  let s2 := { wbDrop s1 core sector with wb := (wbDrop s1 core sector).wb ++ [e] }
  let held := s2.wb.filter fun x => x.core == core
  if held.length ≤ 64 then s2
  else match held[Config.freeVictim s.tick % held.length]? with
    | some v => drainEntry s2 v
    | none => s2

/-- R147, R152: the plaintext bytes that the write buffer and a slice-side image of the sector give a load, with
poison. -/
def overlay (s : State) (core sector key : Nat) (img : List Byte) (bad : Bool) : List Byte × Bool :=
  let plain := cryptSector s false key sector img
  match wbFind s core sector with
  | none => (plain, bad)
  | some e =>
    let whole := e.mask.toNat == fullMask
    (mergeBytes e.mask.toNat (bytesOf 32 e.data.toNat) plain, if whole then e.bad else bad || e.bad)

/-- R137, R152, R154: the image of a sector that a core's L1 takes: what the slice returns under the bytes that the core's
own write buffer still holds, in ciphertext on a keyed page, with poison. -/
def coreImage (s : State) (core sector key : Nat) : List Byte × Bool :=
  let (img, bad) := sliceRead s sector
  match wbFind s core sector with
  | none => (img, bad)
  | some _ => let (l, b) := overlay s core sector key img bad; (cryptSector s true key sector l, b)

/-- R152: a read of at most 32 bytes that the write buffer or L1 can serve. -/
def readNear (s : State) (core : Nat) (pa key n : Nat) : Option (Nat × Bool) :=
  let sector := pa / 32
  let take := fun (l : List Byte) => ofBytes ((l.drop (pa % 32)).take n)
  match wbFind s core sector with
  | some e =>
    let (m, _) := placeBytes (pa % 32) (List.replicate n 0#8)
    if e.mask.toNat &&& m = m ∧ (e.mask.toNat = fullMask) then some (take (bytesOf 32 e.data.toNat), e.bad)
    else match l1Find s core sector with
      | some x => let (l, b) := overlay s core sector key (bytesOf 32 x.data.toNat) x.bad; some (take l, b)
      | none => none
  | none => match l1Find s core sector with
    | some x => let (l, b) := overlay s core sector key (bytesOf 32 x.data.toNat) x.bad; some (take l, b)
    | none => none

/-- R152, R155: a read performed at the slice, under the core's own write buffer; it fills the SC and L1 at the levels
of R138. -/
def readSlice (s : State) (core : Nat) (pa key n l1 sc part : Nat) : State × Nat × Bool :=
  let sector := pa / 32
  let (img, bad) := sliceRead s sector
  let (l, b) := overlay s core sector key img bad
  let held := coreImage s core sector key
  let s := linkServed s pa
  let s := if sc = 0 then s else scAllocate s (pa / 128) part sc
  let s := movedSector s (coreCtx s core) sector
  let s := if l1 = 0 then l1Refresh s core sector held.1 held.2 else l1Allocate s core sector l1 held.1 held.2
  (s, ofBytes ((l.drop (pa % 32)).take n), b)

/-- R160: a read made within one step, as a lead's would be served. -/
def readMem (s : State) (core : Nat) (p : Phys) (n l1 sc : Nat) : State × Nat × Bool :=
  match readNear s core p.pa p.key n with
  | some (v, b) => (s, v, b)
  | none => readSlice s core p.pa p.key n l1 sc p.scp

/-- Plaintext bytes read at the slices (raster and blend islands, launch unit, HKC, XMCAST): bytes and poison. -/
def readAt (s : State) (pa key n : Nat) : List Byte × Bool :=
  let (img, bad) := sliceRead s (pa / 32)
  (((cryptSector s false key (pa / 32) img).drop (pa % 32)).take n, bad)

/-- A write of plaintext bytes within a sector at its slice, without a core's write buffer. -/
def writeAt (s : State) (ctx : Nat) (p : Phys) (l : List Byte) : State :=
  let sector := p.pa / 32
  let (mask, img) := placeBytes (p.pa % 32) l
  if p.key = 0 then sliceWrite s ctx sector mask img false
  else
    let old := cryptSector s false p.key sector (sectorBytes s sector)
    sliceWrite s ctx sector fullMask (cryptSector s true p.key sector (mergeBytes mask img old))
      (mask != fullMask && s.poison.contains sector)

/-- Split a byte range into pieces that lie within sectors: (offset into the range, length). -/
def sectorPieces (fuel a n off : Nat) : List (Nat × Nat) :=
  match fuel with
  | 0 => []
  | k + 1 =>
    if n = 0 then []
    else
      let m := min n (32 - a % 32)
      (off, m) :: sectorPieces k (a + m) (n - m) (off + m)

/-- Virtual read by the launch unit or the HKC (R278, R330): every page checked, bytes at the slices. -/
def readVirt (s : State) (c va n : Nat) (k : Acc133) : Except (Byte × Nat) (List Byte × Bool) :=
  foldE (sectorPieces (n / 32 + 2) va n 0) (([], false) : List Byte × Bool) fun acc pc =>
    match checkNow s c Config.cores (va + pc.1) 1 k with
    | .ok p => let (l, b) := readAt s p.pa p.key pc.2; .ok (acc.1 ++ l, acc.2 || b)
    | .error e => .error e

/-- Virtual write at the slices, all pages checked first. -/
def writeVirt (s : State) (c va : Nat) (l : List Byte) (k : Acc133) : Except (Byte × Nat) State :=
  match mapE (sectorPieces (l.length / 32 + 2) va l.length 0) fun pc =>
      match checkNow s c Config.cores (va + pc.1) 1 k with
      | .ok p => .ok (p, pc)
      | .error e => .error e with
  | .error e => .error e
  | .ok ps => .ok (ps.foldl (fun s x => writeAt s c x.1 ((l.drop x.2.1).take x.2.2)) s)

/-- R131, R282: what reads at the slices of the pieces at virtual addresses leave in the TLBs and on the controllers'
counters, up to the first that fails a check. -/
def takenPieces (s : State) (c core : Nat) (k : Acc133) (l : List Nat) : State :=
  match l with
  | [] => s
  | va :: r =>
    let s1 := touchTlb s c core va
    match checkNow s c core va 1 k with
    | .ok p => takenPieces (movedSector s1 c (p.pa / 32)) c core k r
    | .error _ => s1

/-- R131, R282: what a read of `n` bytes for a context leaves so; an agent on no core is at `Config.cores`. -/
def takenVirt (s : State) (c core va n : Nat) (k : Acc133) : State :=
  takenPieces s c core k ((sectorPieces (n / 32 + 2) va n 0).map fun p => va + p.1)

/-- Bytes written at the slices for a context, those at or beyond `MEMCAP` dropped. -/
def physPut (s : State) (ctx pa : Nat) (l : List Byte) : State :=
  let l := l.take (memCap s - pa)
  (sectorPieces (l.length / 32 + 2) pa l.length 0).foldl (fun s p =>
    let (mask, img) := placeBytes ((pa + p.1) % 32) ((l.drop p.1).take p.2)
    sliceWrite s ctx ((pa + p.1) / 32) mask img false) s

/-- R165, R317: bytes written by the host at the slices, stored as received; what the host moves counts for no context
(R282). -/
def hostWrite (s : State) (pa : Nat) (l : List Byte) : State := { physPut s 0 pa l with bwNow := s.bwNow }

/-- R318: the IMG key of a context. -/
def imgKey (s : State) (c : Nat) : List Byte :=
  let x := getCtx s c
  (deriveKey purposeImg x.tenant x.period x.salt 0).take 16

/-- R318: bytes under the IMG key, by whole sectors from physical address `pa` (the data unit and the tweak as in R136:
DESIGN CHOICE, log entry 21). -/
def sealStore (key : List Byte) (pa : Nat) (l : List Byte) : List Byte :=
  ((upto 0 (l.length / 32)).map fun k => xtsSector true key key (pa / 32 + k) ((l.drop (32 * k)).take 32)).flatten

/-- R228, R304, R314: what the HKC puts into an area of `size` bytes that it keeps for a context: the offset and the plain
bytes, in whole units of 4,096 bytes, at no stated one of the area, none outside it, and no more than `limit` bytes. -/
def storePlan (s : State) (size limit n : Nat) : Nat × List Byte :=
  let x := Config.freeStore s.tick n
  let off := x.1 / 4096 * 4096
  let l := x.2.take (min (size - off) limit)
  (off, l.take (l.length / 4096 * 4096))

/-- R228, R304, R314, R318: the bytes of no stated layout are written under the context's IMG key. -/
def storeWrite (s : State) (c base size limit n : Nat) : State :=
  let x := storePlan s size limit n
  let u := physPut s c (base + x.1) (sealStore (imgKey s c) (base + x.1) x.2)
  { s with mem := u.mem, poison := u.poison, sc := u.sc, bwNow := u.bwNow }

end Sys2Proof.Machine
end

