-- ==== Sys2Proof/Machine/QueueOps.lean ====
section
/-! DEFINITION. Queues: declarations, ends, reservation, visibility, pops and closing (R52 to R62, R231). -/

namespace Sys2Proof.Machine

/-- R52: fields of a declaration word. -/
def qValid (d : Word) : Bool := tb d.toNat 31
def qCStage (d : Word) : Nat := bits d.toNat 28 3
def qCKind (d : Word) : Nat := bits d.toNat 24 4
def qPStage (d : Word) : Nat := bits d.toNat 20 3
def qPKind (d : Word) : Nat := bits d.toNat 16 4
def qDepth (d : Word) : Nat := bits d.toNat 6 10 + 1
def qWords (d : Word) : Nat := bits d.toNat 0 6 + 1

def getQueue (s : State) (i q : Nat) : Option Queue := (getInst s i).bind fun x => Tab.find x.queues q
def modQueue (s : State) (i q : Nat) (f : Queue → Queue) : State :=
  modInst s i fun x => match Tab.find x.queues q with
    | some y => { x with queues := Tab.set x.queues q (f y) }
    | none => x

/-- R61 reason 0x2: the issuer is the kind and stage bound at an end. -/
def endOk (kind stage : Nat) (k : Kind) (myStage : Nat) : Bool :=
  stage == myStage && (match k with
    | .group => kind == 1 || kind == 3
    | .lead => kind == 2 || kind == 3
    | .porter => kind == 6)

/-- R56, R57: no slot is free: reserved slots count as taken. -/
def qFull (x : Queue) : Bool := !x.cclosed && decide (qDepth x.decl ≤ x.recs.length)

/-- R231: may this popper take the record? Addressed records go to their addressee, a streamed unit to whoever claimed
it first. -/
def recFor (x : Queue) (p : Party) (r : Record) : Bool :=
  (match r.dest with | some d => d == p | none => true) &&
  (r.unit == 0 || (match x.claims.find? fun c => c.1 == r.unit with | some c => c.2 == p | none => true))

/-- R55, R56, R231: position of the record a popper takes: the oldest visible one for it. -/
def popIndex (x : Queue) (p : Party) : Option Nat := x.recs.findIdx? fun r => r.vis && recFor x p r

/-- R61 reason 0x3, R450: no visible record and no reservation for this popper, and the producer end closed. -/
def qEnded (x : Queue) (p : Party) : Bool := x.pclosed && !(x.recs.any fun r => recFor x p r)

/-- Take the record at a position; a streamed unit is claimed by its first pop (R231). -/
def popAt (x : Queue) (p : Party) (i : Nat) : Queue :=
  match x.recs[i]? with
  | none => x
  | some r =>
    let rest := dropAt x.recs i
    let claims := if r.unit == 0 then x.claims
      else if rest.any fun y => y.unit == r.unit then
        (if x.claims.any fun c => c.1 == r.unit then x.claims else x.claims ++ [(r.unit, p)])
      else x.claims.filter fun c => c.1 != r.unit
    { x with recs := rest, claims := claims }

/-- A record of `n` words. -/
def fitWords (n : Nat) (l : List Word) : List Word := l.take n ++ List.replicate (n - l.length) 0

/-- R57: reserve a record; after the consumer end has closed it is discarded (R60). -/
def pushRec (x : Queue) (words : List Word) (tag dest : Option Party) (unit : Nat) (poison : Bool)
    (after : Nat) (origin : Origin) : Queue :=
  if x.cclosed then x
  else { x with recs := x.recs ++ [⟨fitWords (qWords x.decl) words, false, poison, tag, dest, unit, after, 0, origin⟩] }

/-- R57: the oldest record that is reserved and not yet visible. -/
def reserved (x : Queue) : Option Record := x.recs.find? fun r => !r.vis

/-- R57, R231: the oldest reserved record becomes visible, with its place in the order of R243; a response unit becomes
visible whole. -/
def makeVisible (l : List Record) (n : Nat) : List Record :=
  match l.find? fun r => !r.vis with
  | none => l
  | some f =>
    if f.unit ≠ 0 then mapIf l (fun r => !r.vis && r.unit == f.unit) fun r => { r with vis := true, seen := n }
    else match l.findIdx? fun r => !r.vis with
      | some i => setNth l i { f with vis := true, seen := n }
      | none => l

/-- Some porter that the team started is not IDLE (R45, R60, R167). -/
def portersBusy (s : State) (t : Nat) : Bool :=
  s.cores.any fun k => (k.2.p0.team == some t && k.2.p0.st != .idle) || (k.2.p1.team == some t && k.2.p1.st != .idle)

/-- R60: an MMAQ of the team on this queue is outstanding. -/
def mmaqBusy (s : State) (t q : Nat) : Bool :=
  s.cores.any fun k => k.2.me.any fun m => m.team == t && (match m.instr with
    | .mmaq _ _ _ _ n _ => n.toNat == q
    | _ => false)

/-- R60: the condition under which an end of a stage kind closes. -/
def endClosed (s : State) (x : Instance) (kind stage q : Nat) : Bool :=
  match Tab.find x.stages stage with
  | none => false
  | some st =>
    match getTeam s st.team with
    | none => kind != 4
    | some t =>
      let noGroup := t.started && (liveGroups t).isEmpty
      let noLead := t.lead.com.st == .exited
      match kind with
      | 1 => noGroup
      | 2 => noLead
      | 3 => noGroup && noLead
      | 5 => noLead && !mmaqBusy s st.team q
      | 6 => noLead && !portersBusy s st.team
      | _ => false

/-- R60: close the ends whose producers or consumers are finished. A closed end stays closed. -/
def closeEnds (s : State) (i : Nat) : State :=
  match getInst s i with
  | none => s
  | some x =>
    let f : Nat × Queue → Nat × Queue := fun (q, y) =>
      let d := y.decl
      (q, { y with pclosed := y.pclosed || endClosed s x (qPKind d) (qPStage d) q,
                   cclosed := y.cclosed || endClosed s x (qCKind d) (qCStage d) q })
    modInst s i fun x => { x with queues := x.queues.map f }

/-- R62, R160: the input binding that joins a queue, as (island kind, index). -/
def boundIn (l : List Binding) (i q port : Nat) : Bool := l.any fun b => b.inst == i && b.q == q && b.port == port
def samplerOrRay (s : State) (i q port : Nat) : Bool :=
  (s.sampler.any fun x => boundIn x.2.binds i q port) || s.ray.any fun x => boundIn x.2.binds i q port

/-- R57, R59, R153, R160: what the release of a push orders, once its record becomes visible: on a pair, and towards a
raster or blend island (or an end not joined yet), the pusher's core drains. -/
def pushOrder (s : State) (core i q : Nat) : State :=
  match getInst s i, getQueue s i q with
  | some x, some y =>
    if x.pair || (qCKind y.decl == 4 && !samplerOrRay s i q 0) then drainCore s core else s
  | _, _ => s

/-- R59, R153, R160, R161: what a pop orders: a phase boundary when the record was pushed on another core, by a party or
by an island of that core, or by a raster island. -/
def popOrder (s : State) (core : Nat) (r : Record) : State :=
  if r.origin = .core core then s else phaseBoundary s core

end Sys2Proof.Machine
end

