-- ==== Sys2Proof/Machine/Ops.lean ====
section
/-! DEFINITION. The frontier of a group, the progress of a party, taking a trap and returning from one, porter
faults, and the end of teams (R66 to R71, R286, R290 to R303, R45, R173, R192). -/

namespace Sys2Proof.Machine

/-- Why an issue has no effect of its own: a trap, a stall that is retried, or a page walk to wait for. -/
inductive Stop where
  | trap (code : Byte) (detail : Nat) (va : Nat)
  /-- R293: the trap of an earlier load, reported here: its operation, code, detail, address. -/
  | deferred (op : Nat) (detail : Nat) (va : Nat)
  | stall (r : Stall)
  | walk (vpn : Nat)
  /-- R68, R134: wait for the fetch of a line, or for the page walk that its fetch needs. -/
  | fetch (va : Nat)
  | fetchWalk (vpn : Nat)
  deriving DecidableEq, Repr

/-- R290: trap codes. -/
def tcIllegal : Byte := 0x01
def tcContext : Byte := 0x02
def tcPrivilege : Byte := 0x03
def tcTarget : Byte := 0x04
def tcUninit : Byte := 0x05
def tcFp : Byte := 0x06
def tcParity : Byte := 0x07
def tcPoison : Byte := 0x0B
def tcSpill : Byte := 0x0C
def tcBarBusy : Byte := 0x10
def tcBarInvalid : Byte := 0x11
def tcRights : Byte := 0x12
def tcQueue : Byte := 0x13
def tcDesc : Byte := 0x14
def tcWidth : Byte := 0x15
def tcBound : Byte := 0x16
def tcRestart : Byte := 0x17
def tcPorter : Byte := 0x20
def tcIsland : Byte := 0x21
def tcMatrix : Byte := 0x22
def tcSoftware : Byte := 0x30

/-! ### PCs and the frontier -/

/-- R66: line address and slot of a PC. -/
def lineOf (pc : DWord) : Nat := pc.toNat / 64 * 64
def slotOf (pc : DWord) : Nat := pc.toNat % 8

/-- R66: the next PC. -/
def nextPc (pc : DWord) : DWord := if slotOf pc < 4 then pc + 1 else BitVec.ofNat 64 (lineOf pc + 64)

/-- R66: a well-formed PC. -/
def pcOk (v : DWord) : Bool := bits v.toNat 49 15 == 0 && bits v.toNat 3 3 == 0 && decide (slotOf v ≤ 4)

/-- R78: a return PC with the slide cleared out of bits [5:3]. -/
def retPc (f : Frame) : DWord := BitVec.ofNat 64 (f.ret.toNat / 64 * 64 + f.ret.toNat % 8)

/-- R78: the entry pushed at depth d (counted from 0). -/
def frameAt (t : Thread) (d : Nat) : Option Frame :=
  if d < t.stack.length then t.stack[t.stack.length - 1 - d]? else none

/-- R461: a return stack of depth `n`, from one whose popped entries still stand above its top: the stack and what stands
above it then. -/
def stackTo {α : Type} (stack above : List α) (n : Nat) : List α × List α :=
  let k := stack.length - n
  let up := n - stack.length
  ((above.take up).reverse ++ stack.drop k, (stack.take k).reverse ++ above.drop up)

/-- R70. -/
def heldThread (thr : List Thread) (t : Thread) : Bool :=
  (t.pc == t.meet && thr.any fun u => u.live && u.meet == t.meet && decide (u.pc.toNat < t.pc.toNat)) ||
  (match t.hold with
    | some (rp, d) => thr.any fun u => u.live && decide (d < u.stack.length) &&
        (match frameAt u d with | some f => retPc f == rp | none => false)
    | none => false)

/-- Lanes whose thread satisfies a test, ascending. -/
def lanesWhere (thr : List Thread) (i : Nat) (f : Thread → Bool) : List Nat :=
  match thr with
  | [] => []
  | t :: r => if f t then i :: lanesWhere r (i + 1) f else lanesWhere r (i + 1) f

/-- The thread of a lane. -/
def thread (g : Group) (l : Nat) : Thread := nth g.thr l (Thread.start 0)

/-- R70: the frontier: lanes and PC, with the yield bits cleared where the rule clears them; none when no thread is a
candidate. -/
def frontier (g : Group) : Option (Group × List Nat × DWord) :=
  let cand := lanesWhere g.thr 0 fun t => t.live && !heldThread g.thr t
  let pref := cand.filter fun l => !(thread g l).yld
  let g' := if pref.isEmpty then { g with thr := g.thr.map fun t => if t.live then { t with yld := false } else t } else g
  let pref := if pref.isEmpty then cand else pref
  match pref with
  | [] => none
  | x :: r =>
    let m := r.foldl (fun m l => min m (thread g l).pc.toNat) (thread g x).pc.toNat
    some (g', pref.filter fun l => (thread g l).pc.toNat == m, BitVec.ofNat 64 m)

/-- The PC a party would issue from. -/
def issuePc (s : State) : Party → DWord
  | .group t g => match getGroup s t g with
    | some x => match frontier x with
      | some (_, _, pc) => pc
      | none => 0
    | none => 0
  | .lead t => ((getTeam s t).map (·.lead.pc)).getD 0
  | .porter c p => (getPorter s c p).pc

/-- Change the threads of some lanes. -/
def mapLanes (thr : List Thread) (i : Nat) (ls : List Nat) (f : Nat → Thread → Thread) : List Thread :=
  match thr with
  | [] => []
  | t :: r => (if ls.contains i then f i t else t) :: mapLanes r (i + 1) ls f

/-- R67, R334: fall through to the next PC; the WAIT mask of a new line is still to be tested. -/
def fallThrough (t : Thread) : Thread :=
  { t with pc := nextPc t.pc, entered := false, arrived := decide (lineOf (nextPc t.pc) ≠ lineOf t.pc), hold := none }

/-- R298: the trapped instruction is skipped. A WAIT mask that has not been tested since the line was arrived in is still
to be tested (R67). -/
def skipThread (t : Thread) : Thread := { fallThrough t with arrived := t.arrived || (fallThrough t).arrived }

/-- R71: a frontier thread outside `Active` that keeps its PC: it has issued from its slot. -/
def stayThread (t : Thread) : Thread := { t with entered := false, arrived := false, hold := none }

/-- R334: enter a slot. -/
def enterAt (pc : DWord) (t : Thread) : Thread := { t with pc := pc, entered := true, arrived := true, hold := none }

def leadFall (l : Lead) : Lead :=
  { l with pc := nextPc l.pc, entered := false, arrived := decide (lineOf (nextPc l.pc) ≠ lineOf l.pc) }

def skipLead (l : Lead) : Lead := { leadFall l with arrived := l.arrived || (leadFall l).arrived }

def leadEnter (pc : DWord) (l : Lead) : Lead := { l with pc := pc, entered := true, arrived := true }

def porterFall (x : Porter) : Porter :=
  { x with pc := nextPc x.pc, entered := false, arrived := decide (lineOf (nextPc x.pc) ≠ lineOf x.pc), roff := 0,
           carry := false, resumed := false, wait := none, buf := [] }

def porterEnter (pc : DWord) (x : Porter) : Porter :=
  { x with pc := pc, entered := true, arrived := true, roff := 0, carry := false, resumed := false, wait := none, buf := [] }

/-- R178: a transfer with a queue side. -/
def queueSide : Instr → Bool
  | .xcopy _ _ _ _ _ _ _ dir => decide (2 ≤ dir.toNat)
  | _ => false

/-! ### Taking a trap -/

/-- R288: record why a party does not issue. -/
def recordStall (s : State) (p : Party) (r : Stall) : State := modCom s p fun c => { c with stall := some r }

/-- R297: `%trapsrc`. -/
def trapSrc (s : State) (e : TrapEntry) : Nat :=
  let slot := ((getTeam s e.team).map (·.slot)).getD 0
  let base := slot % 16 * 2 ^ 12
  match e.src with
  | .party (.group t g) =>
    let u := match getGroup s t g with
      | some x => x.part * 8 + x.slot
      | none => 0
    g % 256 * 2 ^ 16 + base + u % 256
  | .party _ => base + 2 ^ 8
  | .porter _ n => base + 2 * 2 ^ 8 + n
  | .island k _ => base + 3 * 2 ^ 8 + k

/-- R298, R299, R314: an escalation reaches the context page, which keeps the trap's record as it now stands, and raises
the trap vector. -/
def escalate (s : State) (core : Nat) (e : TrapEntry) (handler : Bool) : State :=
  let c := ((getTeam s e.team).map (·.ctx)).getD 0
  raiseCtx (modCtx s c fun x =>
    { x with escalations := x.escalations ++ [⟨core, e, BitVec.ofNat 32 (trapSrc s e), handler⟩] }) c 2

/-- R295, R296: a trap waits for the core's handler in the order of raising. -/
def queueTrap (s : State) (core : Nat) (e : TrapEntry) : State :=
  modCore s core fun k => { k with traps := k.traps ++ [e] }

/-- R290 to R292, R296, R299: TAKING A TRAP. The party stops at the instruction with code, detail and PC recorded;
in the handler the trap escalates at once. -/
def raiseTrap (s : State) (p : Party) (code : Byte) (detail : Nat) (pc : DWord) (va : Nat) : State :=
  let t := teamOf s p
  let core := coreOf s p
  let info : TrapInfo := ⟨code, BitVec.ofNat 32 detail, pc, BitVec.ofNat 64 va⟩
  let e : TrapEntry := ⟨.party p, t, info⟩
  let h := isHandler t
  let s := modCom s p fun c =>
    { c with st := if h then .escalated else .trapped, tcode := code, tdetail := info.detail, tpc := pc, stall := none }
  if h then escalate (modCore s core fun k => { k with blocked := true }) core e true
  else queueTrap s core e

/-- R293: the deferred trap of an operation is raised in its party, at the operation's PC. -/
def raiseDeferred (s : State) (p : Party) (o : Op) (detail va : Nat) : State :=
  raiseTrap (modCom s p fun c => { c with defer := some o.id }) p tcPoison detail o.pc va

/-- R147, R293: the lane that the deferred trap of an operation names, and its address. -/
def deferLane (o : Op) : Nat × Nat := ((o.lanes.find? (·.bad)).map fun l => (l.lane, l.va.toNat)).getD (0, 0)

/-- R193: the detail word of PORTER_FAULT. -/
def porterDetail (n : Nat) (f : PFault) : Nat :=
  f.code.toNat * 2 ^ 24 + f.cause % 16 * 2 ^ 20 + n * 2 ^ 16 + f.info % 2 ^ 16

/-- R191: a porter that leaves an XWAIT on its barrier no longer counts as a waiter. -/
def leaveXwait (s : State) (core n : Nat) : State :=
  let x := getPorter s core n
  match x.bar, x.wait with
  | some b, some _ => modPorter (barLeave s b) core n fun x => { x with wait := none }
  | _, _ => s

/-- R192, R193: the porter enters FAULTED with its record, and PORTER_FAULT is raised in the handler of its core. -/
def porterFaulted (s : State) (core n : Nat) (f : PFault) : State :=
  let t := ((getPorter s core n).team).getD 0
  let s := modPorter (leaveXwait s core n) core n fun x =>
    { x with st := .faulted, fault := some f, pending := none, pc := f.pc, roff := f.roff, wait := none }
  queueTrap s core ⟨.porter core n, t, ⟨tcPorter, BitVec.ofNat 32 (porterDetail n f), f.pc, f.va⟩⟩

/-- R192: a porter instruction that cannot complete: nothing later issues, and the fault is recorded once every
earlier transfer has ended. -/
def porterStop (s : State) (core n : Nat) (f : PFault) : State :=
  let x := getPorter s core n
  if x.xfers.isEmpty then porterFaulted s core n f else setPorter s core n { x with pending := some f }

/-! ### The end of porters, teams and handlers -/

/-- R60, R167, R191: a porter leaves DRAINING or FAULTED for IDLE and releases its barrier; its program's queue ends may
close. -/
def porterIdle (s : State) (core n : Nat) : State :=
  let x := getPorter s core n
  let s1 := setPorter s core n { Porter.idle with team := none }
  let s2 := match x.bar with
    | some b => barDrop s1 b
    | none => s1
  match x.team.bind (getTeam s) with
  | some t => closeEnds s2 t.inst
  | none => s2

/-- R173, R191: PSTOP: transfers' units not yet begun are cancelled and credit nothing. -/
def stopPorter (s : State) (core n : Nat) : State :=
  let x := getPorter s core n
  match x.st with
  | .idle => s
  | .faulted => porterIdle s core n
  | _ => modPorter (leaveXwait s core n) core n fun x => { x with st := .draining, xfers := [], pending := none, stamps := [], dropped := false }

/-- Every porter that a team started is stopped as by PSTOP (R298). -/
def stopPorters (s : State) (t : Nat) : State :=
  s.cores.foldl (fun s k =>
    let s := if k.2.p0.team == some t then stopPorter s k.1 0 else s
    if k.2.p1.team == some t then stopPorter s k.1 1 else s) s

/-- A matrix command that is given up releases its barrier reference (R307). -/
def dropCmd (s : State) (m : MeCmd) : State :=
  match m.bar with
  | some b => if m.pair && m.half != 0 then s else barDrop s b
  | none => s

/-- R218, R298: matrix commands of a team that satisfy a test are abandoned. -/
def abandonCmds (s : State) (t : Nat) (f : MeCmd → Bool) : State :=
  s.cores.foldl (fun s k =>
    let out := k.2.me.filter fun m => m.team == t && f m
    let s := out.foldl dropCmd s
    modCore s k.1 fun k => { k with me := k.me.filter fun m => !(m.team == t && f m) }) s

/-- R339: an acquire, and a release. -/
def moAcq (o : Mo) : Bool := o.order == 1 || o.order == 3
def moRel (o : Mo) : Bool := o.order == 2 || o.order == 3

/-- R150: an access whose completion is an acquire. -/
def acquires (o : Op) : Bool :=
  (match o.instr with
    | .ld _ _ _ m _ | .atom _ _ _ _ _ m _ | .monw _ _ _ _ _ m _ => moAcq m
    | _ => false) && !o.active.isEmpty

/-- R150, R151: an access with a lane that has still to be performed, or an acquire that has still to be made. -/
def accessOpen (o : Op) : Bool :=
  o.kind == .access && !o.poisoned && (acquires o || o.lanes.any fun l => l.done.isNone)

/-- R150 to R152: an access issued before operation `before` is not over. -/
def accessDue (c : Common) (before : Nat) : Bool := c.ops.any fun o => decide (o.id < before) && accessOpen o

/-- R401: the operations of a party that complete as issued whatever becomes of it. -/
def outlives (o : Op) : Bool :=
  match o.kind with
  | .access => match o.instr with
    | .st .. | .atom .. | .red .. => true
    | _ => false
  | .iload .. | .iinv .. | .qbind | .passend .. | .resolve .. => true
  | _ => false

/-- The control state of a party that issues no more, with the operations that still end; their results are discarded. -/
def endCommon (c : Common) (keep : Op → Bool) : Common :=
  { c with st := .exited, ops := (c.ops.filter keep).map fun o => { o with dst := [] }, wait := none, stall := none,
           defer := none, late := false }

/-- R401: a party that has exited; an operation with an attached flag still ends, so that its count falls. -/
def exitCommon (c : Common) : Common := endCommon c fun o => outlives o || o.flag.isSome

/-- R298: a party that is killed holds no flag any more. -/
def killCommon (c : Common) : Common :=
  let x := endCommon c outlives
  { x with flags := [], ops := x.ops.map fun o => { o with flag := none } }

/-- R472: P advances when every live group has counted past it. -/
def syncAdvance (s : State) (t : Nat) : State :=
  modTeam s t fun x =>
    let gs := liveGroups x
    if !gs.isEmpty && gs.all (fun g => decide (x.syncP < g.2.sync)) then { x with syncP := x.syncP + 1 } else x

/-- R45: a group whose last thread has exited exits; its SYNC count and its queue ends go with it. -/
def groupExit (s : State) (t g : Nat) : State :=
  let s := modGroup s t g fun x => { x with com := exitCommon x.com, label := none }
  closeEnds (syncAdvance s t) (((getTeam s t).map (·.inst)).getD 0)

/-- R401, R45: the lead exits. -/
def leadExit (s : State) (t : Nat) : State :=
  closeEnds (modLead s t fun x => { x with com := exitCommon x.com }) (((getTeam s t).map (·.inst)).getD 0)

/-- R298: every group and the lead of a team stop for good. -/
def stopTeam (s : State) (t : Nat) : State :=
  modTeam s t fun x =>
    { x with killed := true,
             lead := { x.lead with com := killCommon x.lead.com },
             groups := x.groups.map fun g =>
               (g.1, { g.2 with com := killCommon g.2.com, thr := g.2.thr.map fun h => { h with live := false } }) }

/-- Some half of a matrix command has begun (R211). -/
def cmdBegun (s : State) (m : MeCmd) : Bool :=
  s.cores.any fun k => k.2.me.any fun x =>
    x.team == m.team && x.id == m.id && x.pair == m.pair && (x.pair || x.half == m.half) && x.begun

/-- R298, R302, R307: what a kill takes out of the save of a team: its porters, stopped as by PSTOP with no unit begun, its
barriers, whose every reference is dropped, and the traps of its parties. -/
def killSaved (s : State) (t : Nat) : State :=
  { s with saves := mapIf s.saves (fun v => v.team == t) fun v => { v with porters := [], bars := [], traps := [] } }

/-- R298, R307: kill: every reference of the team to a barrier is dropped, those in its save included. The team then retires
under R45. -/
def killTeam (s : State) (t : Nat) : State :=
  let i := ((getTeam s t).map (·.inst)).getD 0
  closeEnds (killSaved (barDropTeam (abandonCmds (stopPorters (stopTeam s t) t) t fun m => !cmdBegun s m) t) t) i

/-- R295: the end of a core's handler: lead and group stop at once and the next waiting trap may enter. -/
def endHandler (s : State) (core : Nat) : State :=
  let s := modCore s core fun k => { k with serving := none, blocked := false }
  { s with teams := Tab.del s.teams (Config.handlerBase + core) }

/-- R91, R293: an operation is over: its record goes and its flag count drops. -/
def endOp (c : Common) (o : Op) : Common :=
  let flags := match o.flag with
    | some f => Tab.put c.flags f (Tab.get c.flags f 0 - 1) 0
    | none => c.flags
  { c with ops := c.ops.filter (fun x => x.id != o.id), flags := flags }

/-- R298, R293: the poisoned lanes are to be performed again. -/
def retryOp (c : Common) (id : Nat) : Common :=
  { c with ops := mapIf c.ops (fun o => o.id == id) fun o =>
      { o with poisoned := false, lanes := o.lanes.map fun l =>
          match o.instr with
          | .atom .. => if l.bad then { l with done := none, bad := false } else l
          | _ => { l with done := none, bad := false } } }

/-- R298, R293: the skip of a deferred trap drops the operation. -/
def skipOp (c : Common) (id : Nat) : Common :=
  match c.ops.find? fun o => o.id == id with
  | some o => endOp c o
  | none => c

/-- R298: the party stands at its trap, and has not been killed meanwhile. -/
def awaits (c : Common) : Bool := c.st == .trapped || c.st == .escalated

/-- R298 action 0: the party continues at its first check. -/
def resumeParty (s : State) (p : Party) : State :=
  modCom s p fun c =>
    if !awaits c then c else
    let c := { c with st := .running, wcount := if c.tcode = tcBound then 0 else c.wcount }
    match c.defer with
    | some id => retryOp { c with defer := none } id
    | none => c

/-- Move the whole frontier, or the lead, past the instruction (R298 action 1). -/
def movePast (s : State) (p : Party) : State :=
  match p with
  | .group t g => modGroup s t g fun x => match frontier x with
    | some (y, ls, _) => { y with thr := mapLanes y.thr 0 ls fun _ h => skipThread h }
    | none => x
  | .lead t => modLead s t skipLead
  | .porter _ _ => s

/-- R298 action 1. -/
def skipParty (s : State) (p : Party) : State :=
  if ((getCom s p).map awaits).getD false = false then s
  else match (getCom s p).bind (·.defer) with
  | some id => modCom s p fun c => { skipOp { c with defer := none } id with st := .running }
  | none =>
    movePast (modCom s p fun c =>
      { c with st := .running, wait := none, wcount := if c.tcode = tcBound then 0 else c.wcount }) p

/-- R298: the action on the trapped party, porter or island (the end of the handler is the caller's). -/
def applyAction (s : State) (core : Nat) (e : TrapEntry) (act : Nat) : State :=
  match act with
  | 0 => match e.src with
    | .party p => resumeParty s p
    | _ => s
  | 1 => match e.src with
    | .party p => skipParty s p
    | _ => s
  | 2 => killTeam s e.team
  | _ => match e.src with
    | .party p =>
      if ((getCom s p).map awaits).getD false then
        escalate (modCom s p fun c => { c with st := .escalated }) core e false
      else s
    | _ => escalate s core e false

/-! ### Starting a handler -/

/-- R97: a group at its start. -/
def startGroup (width core part slot rd sync : Nat) (entry : DWord) : Group :=
  { core := core, part := part, slot := slot, thr := List.replicate width (Thread.start entry), v := [], vpoison := [],
    k := [], p := [], low := 0, spill := [], spillPoison := [], rd := rd, sync := sync, label := none,
    live := none, com := Common.start }

/-- R97: a lead at its start. -/
def startLead (entry : DWord) : Lead :=
  { s := [], p := 0, pc := entry, stack := [], above := [], entered := true, arrived := true, com := Common.start }

/-- R295: the handler team of a core, started for a trap. What `%teamx` to `%teamz` and `%nteamx` to `%nteamz` read in the
handler's programs no rule says: they are the trapped team's (DESIGN CHOICE, log 44). -/
def handlerTeam (core : Nat) (of : Team) (part : Nat) (lead grp : DWord) : Team :=
  { of with
    inst := Config.handlerBase, idx := 0, stage := 0, width := 32, declared := true, alloc := 128, ruck := 0, window := 0, nt := 0,
    pair := false, core := core, slot := 16, producer := none, lead := startLead lead,
    groups := [(0, startGroup 32 core part 8 0 0 grp)], dq := [], wr := 0, syncP := 0, mstat := 0, region := none,
    tds := [], win0 := [], win1 := [], wpo0 := [], wpo1 := [], tiles0 := [], tiles1 := [], tpo0 := [], tpo1 := [],
    names := [], preempt := false, killed := false, resident := true, started := true }

/-- R299: a handler of the context on this core has trapped, and the host has not ended the escalation: no further trap of
the context is served there, also after the core's reset. -/
def handlerHeld (s : State) (core ctx : Nat) : Bool := (getCtx s ctx).escalations.any fun x => x.handler && x.core == core

/-- R295, R296, R299: the handler of a core enters on its oldest waiting trap; the trap of a party that was killed meanwhile
is passed over. -/
def enterHandler (s : State) (core : Nat) : State :=
  let k := getCore s core
  match k.serving, k.traps with
  | none, e :: rest =>
    let stands := match e.src with
      | .party p => ((getCom s p).map (·.st)) == some .trapped
      | _ => true
    match (getTeam s e.team).filter fun _ => stands with
    | some t =>
      if handlerHeld s core t.ctx then s else
      let part := match e.src with
        | .party p => (partOf s p).getD 0
        | _ => 0
      let h := handlerTeam core t part (BitVec.ofNat 64 (forceReg s t.ctx 0x0310)) (BitVec.ofNat 64 (forceReg s t.ctx 0x0318))
      setTeam (setCore s core { k with serving := some e, traps := rest }) (Config.handlerBase + core) h
    | none => setCore s core { k with traps := rest }
  | _, _ => s

/-- The trap that the handler of a core is serving. -/
def served (s : State) (core : Nat) : Option TrapEntry := (getCore s core).serving

end Sys2Proof.Machine
end

