-- ==== Sys2Proof/Machine/Flags.lean ====
section
/-! DEFINITION. `%fcr`, `%fsr` and the completion flags: rounding modes, the FP_EXCEPTION test, marker traps, and the
counts of f0 to f11 (R91, R106 to R108, R115, R116). -/

namespace Sys2Proof.Machine

/-- R106: `RM`, `FTZ`, the five trap enables, `MARK`. -/
def fcrRm (c : Common) : Nat := bits c.fcr.toNat 0 2
def fcrFtz (c : Common) : Bool := tb c.fcr.toNat 2
def fcrTraps (c : Common) : Nat := bits c.fcr.toNat 3 5
def fcrMark (c : Common) : Bool := tb c.fcr.toNat 8

/-- R106, R340: the rounding mode of an instruction: its own, or `RM`. -/
def rndMode (c : Common) (rnd : BitVec 3) : Nat := if rnd = 0 then fcrRm c else rnd.toNat % 4

/-- R115: the flags F either trap, with the enabled ones as detail, or join `%fsr`. -/
def fpTest (c : Common) (f : Nat) : Except Nat Common :=
  let hit := f &&& fcrTraps c
  if hit ≠ 0 then .error hit else .ok { c with fsr := c.fsr ||| BitVec.ofNat 32 f }

/-- R332: `SETA`, `SETB` and `WAIT` of a line word. -/
def lwSeta (lw : Nat) : Nat := bits lw 12 4
def lwSetb (lw : Nat) : Nat := bits lw 16 4
def lwWait (lw : Nat) : Nat := bits lw 0 12

/-- R333: a malformed line word. -/
def lwMalformed (lw : Nat) : Bool :=
  bits lw 30 2 != 0 || decide (12 ≤ lwSeta lw ∧ lwSeta lw ≤ 14) || decide (12 ≤ lwSetb lw ∧ lwSetb lw ≤ 14)

/-- R170: a line word that a porter refuses. -/
def lwPorterBad (lw : Nat) : Bool := lwMalformed lw || lwWait lw != 0 || lwSeta lw != 15 || lwSetb lw != 15

/-- R91, R336: the flag that `CF` attaches to; `none` when `CF` is 00. -/
def cfFlag (lw : Nat) (c : Ctl) : Option Nat :=
  if c.cf = 0 then none else if c.cf = 1 then some (lwSeta lw) else some (lwSetb lw)

/-- R346 step 5. -/
def cfBad (lw : Nat) (c : Ctl) : Bool := decide (c.cf = 3) || cfFlag lw c == some 15

/-- R91: a count. -/
def flagCount (c : Common) (f : Nat) : Nat := Tab.get c.flags f 0

/-- R91: one more outstanding operation. -/
def flagUp (c : Common) (f : Nat) : Common := { c with flags := Tab.put c.flags f (flagCount c f + 1) 0 }

/-- R91: the flags of a WAIT mask that are set. -/
def waitSet (c : Common) (mask : Nat) : Bool := (upto 0 12).any fun n => tb mask n && flagCount c n != 0

end Sys2Proof.Machine
end

