-- ==== Sys2Proof/Machine/Number.lean ====
section
/-! DEFINITION. Number formats and arithmetic (R99 to R125): exact values, `Decode`, `Round`, `Encode`, the
floating-point operations, conversions, the special functions and the counter-based generator. -/

namespace Sys2Proof.Machine

/-- R100: a floating-point layout; `ieee` formats have infinities, `e4m3` has only a NaN. -/
structure Fmt where
  code : Nat
  eb   : Nat
  mb   : Nat
  bias : Nat
  ieee : Bool
  nan  : Bool
  deriving DecidableEq, Repr

def fp32 : Fmt := ⟨0, 8, 23, 127, true, true⟩
def fp16 : Fmt := ⟨1, 5, 10, 15, true, true⟩
def bf16 : Fmt := ⟨2, 8, 7, 127, true, true⟩
def e4m3 : Fmt := ⟨3, 4, 3, 7, false, true⟩
def e5m2 : Fmt := ⟨4, 5, 2, 15, true, true⟩
def e3m2 : Fmt := ⟨5, 3, 2, 3, false, false⟩
def e2m3 : Fmt := ⟨6, 2, 3, 1, false, false⟩
def e2m1 : Fmt := ⟨7, 2, 1, 1, false, false⟩

/-- R99: the floating-point format of a code 0x0 to 0x7. -/
def fmtOf (c : Nat) : Fmt :=
  match c with
  | 0 => fp32 | 1 => fp16 | 2 => bf16 | 3 => e4m3 | 4 => e5m2 | 5 => e3m2 | 6 => e2m3 | _ => e2m1

/-- R99: element width in bits of a format code. -/
def fmtBits (c : Nat) : Nat :=
  match c with
  | 0 => 32 | 1 => 16 | 2 => 16 | 5 => 6 | 6 => 6 | 7 => 4 | 9 => 32 | _ => 8

/-- R340: `TYPE`. -/
def tyFmt (ty : BitVec 2) : Fmt := if ty = 0 then fp32 else if ty = 1 then fp16 else bf16

def Fmt.width (f : Fmt) : Nat := 1 + f.eb + f.mb

/-- R100: precision, smallest exponent and largest exponent. -/
def Fmt.prec (f : Fmt) : Int := f.mb + 1
def Fmt.emin (f : Fmt) : Int := 1 - (f.bias : Int)
def Fmt.emax (f : Fmt) : Int :=
  if f.ieee then (f.bias : Int) else ((2 ^ f.eb - 1 : Nat) : Int) - f.bias

/-- R100, R102: the largest finite value as significand, in units of 2^(emax - mb). -/
def Fmt.topSig (f : Fmt) : Nat := if f.nan && !f.ieee then 2 ^ (f.mb + 1) - 2 else 2 ^ (f.mb + 1) - 1

/-- The value of an encoding (R101, R102). `fin neg m e` is ±m x 2^e with m > 0. -/
inductive Fp where
  | nan (signalling : Bool)
  | inf (neg : Bool)
  | zero (neg : Bool)
  | fin (neg : Bool) (m : Nat) (e : Int)
  deriving DecidableEq, Repr

/-- R101, R102. -/
def fpDecode (f : Fmt) (v : Nat) : Fp :=
  let s := tb v (f.eb + f.mb)
  let e := bits v f.mb f.eb
  let m := bits v 0 f.mb
  let top := 2 ^ f.eb - 1
  if e = top ∧ f.ieee then
    if m = 0 then .inf s else .nan (!tb m (f.mb - 1))
  else if e = top ∧ f.nan ∧ m = 2 ^ f.mb - 1 then .nan false
  else if e = 0 then
    if m = 0 then .zero s else .fin s m (f.emin - f.mb)
  else .fin s (2 ^ f.mb + m) ((e : Int) - f.bias - f.mb)

/-- R102: the canonical NaN; the formats without NaN give +0 (R118). -/
def Fmt.cnan (f : Fmt) : Nat :=
  if f.ieee then (2 ^ f.eb - 1) * 2 ^ f.mb + 2 ^ (f.mb - 1) else if f.nan then 2 ^ (f.eb + f.mb) - 1 else 0

def Fmt.signBit (f : Fmt) (neg : Bool) : Nat := if neg then 2 ^ (f.eb + f.mb) else 0

/-- ±largest finite. -/
def Fmt.largest (f : Fmt) (neg : Bool) : Nat :=
  let e := if f.ieee then 2 ^ f.eb - 2 else 2 ^ f.eb - 1
  f.signBit neg + e * 2 ^ f.mb + (f.topSig - 2 ^ f.mb)

/-- ±∞, in a format that has it. -/
def Fmt.infinity (f : Fmt) (neg : Bool) : Nat := f.signBit neg + (2 ^ f.eb - 1) * 2 ^ f.mb

/-- Encode a representable magnitude k x 2^q, k > 0. -/
def encFin (f : Fmt) (neg : Bool) (k : Nat) (q : Int) : Nat :=
  let l : Int := (Nat.log2 k : Int) + q
  let sig := fun (u : Int) => if q ≥ u then k * 2 ^ (q - u).toNat else k / 2 ^ (u - q).toNat
  if l < f.emin then f.signBit neg + sig (f.emin - f.mb)
  else f.signBit neg + (l + f.bias).toNat * 2 ^ f.mb + (sig (l - f.mb) - 2 ^ f.mb)

/-- R107: the flag bits. -/
def flNV : Nat := 1
def flDZ : Nat := 2
def flOF : Nat := 4
def flUF : Nat := 8
def flNX : Nat := 16

/-- A result: its encoding and the flags it raises. -/
structure FRes where
  bits  : Nat
  flags : Nat
  deriving DecidableEq, Repr

/-- R106: rounding modes 0 RNE, 1 RZ, 2 RU, 3 RD; whether |x| between two multiples is rounded away from zero. -/
def roundsUp (mode : Nat) (neg : Bool) (k r d : Nat) : Bool :=
  if r = 0 then false
  else match mode with
    | 0 => decide (d < 2 * r) || (decide (2 * r = d) && k % 2 == 1)
    | 1 => false
    | 2 => !neg
    | _ => neg

/-- ⌊log2 (n / d)⌋ for n, d > 0. -/
def log2Q (n d : Nat) : Int :=
  let t : Int := (Nat.log2 n : Int) - (Nat.log2 d : Int)
  let ge := if t ≥ 0 then decide (n ≥ d * 2 ^ t.toNat) else decide (n * 2 ^ (-t).toNat ≥ d)
  if ge then t else t - 1

/-- The multiple of 2^q that (n / d) x 2^e rounds to, as a count, and whether it is exact. -/
def quant (mode : Nat) (neg : Bool) (n d : Nat) (e q : Int) : Nat × Bool :=
  let s := e - q
  let num := if s ≥ 0 then n * 2 ^ s.toNat else n
  let den := if s ≥ 0 then d else d * 2 ^ (-s).toNat
  let k := num / den
  let r := num % den
  (if roundsUp mode neg k r den then k + 1 else k, r == 0)

/-- k x 2^q > a x 2^b. -/
def gtScaled (k : Nat) (q : Int) (a : Nat) (b : Int) : Bool :=
  if q ≥ b then decide (k * 2 ^ (q - b).toNat > a) else decide (k > a * 2 ^ (b - q).toNat)

/-- R109 with R112 and R119: round ±(n / d) x 2^e, n > 0, into `f`. -/
def roundF (f : Fmt) (mode : Nat) (ftz sat neg : Bool) (n d : Nat) (e : Int) : FRes :=
  let l := log2Q n d + e
  let q := max l f.emin - f.prec + 1
  let (k, exact) := quant mode neg n d e q
  let tiny := if l ≥ f.emin then false
    else
      let (k2, _) := quant mode neg n d e (l - f.prec + 1)
      !(l == f.emin - 1 && decide (k2 = 2 ^ (f.mb + 1)))
  if tiny && ftz && decide (f.code ≤ 2) then ⟨f.signBit neg, flUF + flNX⟩
  else if gtScaled k q f.topSig (f.emax - f.mb) then
    let toInf := f.ieee && !sat && (match mode with
      | 0 => true
      | 1 => false
      | 2 => !neg
      | _ => neg)
    ⟨if toInf then f.infinity neg else f.largest neg, flOF + flNX⟩
  else
    let fl := (if exact then 0 else flNX) + (if tiny && !exact then flUF else 0)
    if k = 0 then ⟨f.signBit neg, fl⟩ else ⟨encFin f neg k q, fl⟩

/-- R112: a subnormal operand reads as a zero of its sign when `FTZ` is 1. -/
def flushIn (f : Fmt) (ftz : Bool) (v : Nat) : Nat :=
  if ftz && decide (f.code ≤ 2) && bits v f.mb f.eb == 0 then f.signBit (tb v (f.eb + f.mb)) else v

/-- Decode an operand of a class-1 or class-2 instruction. -/
def fpIn (f : Fmt) (ftz : Bool) (v : Nat) : Fp := fpDecode f (flushIn f ftz (v % 2 ^ f.width))

def Fp.isNan : Fp → Bool
  | .nan _ => true
  | _ => false

def Fp.isSnan : Fp → Bool
  | .nan s => s
  | _ => false

def Fp.neg? : Fp → Bool
  | .nan _ => false
  | .inf s => s
  | .zero s => s
  | .fin s _ _ => s

def Fp.negate : Fp → Fp
  | .nan s => .nan s
  | .inf s => .inf (!s)
  | .zero s => .zero (!s)
  | .fin s m e => .fin (!s) m e

/-- R114: the canonical NaN, raising invalid when an operand is signalling or the operation is invalid. -/
def nanRes (f : Fmt) (invalid : Bool) : FRes := ⟨f.cnan, if invalid then flNV else 0⟩

/-- A signed exact dyadic i x 2^e rounded; zero takes the sign of R113 given. -/
def roundDy (f : Fmt) (mode : Nat) (ftz sat : Bool) (i : Int) (e : Int) (zeroNeg : Bool) : FRes :=
  if i = 0 then ⟨f.signBit zeroNeg, 0⟩ else roundF f mode ftz sat (decide (i < 0)) i.natAbs 1 e

/-- Signed mantissa. -/
def sgn (neg : Bool) (m : Nat) : Int := if neg then -(m : Int) else (m : Int)

/-- i x 2^e as a mantissa for the exponent t ≤ e. -/
def atExp (i : Int) (e t : Int) : Int := i * ((2 ^ (e - t).toNat : Nat) : Int)

/-- Exact sum of dyadics. -/
def dyAdd (i : Int) (e : Int) (j : Int) (g : Int) : Int × Int :=
  let t := min e g
  (atExp i e t + atExp j g t, t)

/-- R110: a x b + c, rounded once. -/
def fpFma (f : Fmt) (mode : Nat) (ftz : Bool) (a b c : Fp) : FRes :=
  let snan := a.isSnan || b.isSnan || c.isSnan
  let s := a.neg? != b.neg?
  let rd := decide (mode = 3)
  let infZero := match a, b with
    | .inf _, .zero _ => true
    | .zero _, .inf _ => true
    | _, _ => false
  if infZero then nanRes f true
  else if a.isNan || b.isNan || c.isNan then nanRes f snan
  else match a, b, c with
    | .inf _, _, .inf t | _, .inf _, .inf t => if s = t then ⟨f.infinity s, 0⟩ else nanRes f true
    | .inf _, _, _ | _, .inf _, _ => ⟨f.infinity s, 0⟩
    | _, _, .inf t => ⟨f.infinity t, 0⟩
    | .fin _ m e, .fin _ n g, .fin t k h =>
      let (i, x) := dyAdd (sgn s (m * n)) (e + g) (sgn t k) h
      roundDy f mode ftz false i x rd
    | .fin _ m e, .fin _ n g, _ => roundF f mode ftz false s (m * n) 1 (e + g)
    | _, _, .fin t k h => roundF f mode ftz false t k 1 h
    | _, _, .zero t => ⟨f.signBit (if s = t then s else rd), 0⟩
    | _, _, _ => nanRes f true

def fpOne : Fp := .fin false 1 0

/-- R403. -/
def fpAdd (f : Fmt) (mode : Nat) (ftz : Bool) (a b : Fp) : FRes := fpFma f mode ftz a fpOne b

/-- R403. -/
def fpMul (f : Fmt) (mode : Nat) (ftz : Bool) (a b : Fp) : FRes :=
  let s := a.neg? != b.neg?
  if a.isNan || b.isNan then nanRes f (a.isSnan || b.isSnan)
  else match a, b with
    | .inf _, .zero _ | .zero _, .inf _ => nanRes f true
    | .inf _, _ | _, .inf _ => ⟨f.infinity s, 0⟩
    | .fin _ m e, .fin _ n g => roundF f mode ftz false s (m * n) 1 (e + g)
    | _, _ => ⟨f.signBit s, 0⟩

/-- a < b on values that are no NaN, with -0 below +0 when `zeros`. -/
def fpLt (zeros : Bool) (a b : Fp) : Bool :=
  let key : Fp → Int × Int := fun x => match x with
    | .fin s m e => (sgn s m, e)
    | _ => (0, 0)
  match a, b with
  | .nan _, _ | _, .nan _ => false
  | .inf s, .inf t => s && !t
  | .inf s, _ => s
  | _, .inf t => !t
  | .zero s, .zero t => zeros && s && !t
  | _, _ =>
    let (i, e) := key a
    let (j, g) := key b
    let t := min e g
    decide (atExp i e t < atExp j g t)

/-- Encode a value of the format (R109). -/
def fpEncode (f : Fmt) : Fp → Nat
  | .nan _ => f.cnan
  | .inf s => if f.ieee then f.infinity s else f.largest s
  | .zero s => f.signBit s
  | .fin s m e => encFin f s m e

/-- R110, R404: minimumNumber (or maximumNumber). -/
def fpMin (f : Fmt) (mx : Bool) (a b : Fp) : FRes :=
  let fl := if a.isSnan || b.isSnan then flNV else 0
  match a.isNan, b.isNan with
  | true, true => ⟨f.cnan, fl⟩
  | true, false => ⟨fpEncode f b, fl⟩
  | false, true => ⟨fpEncode f a, fl⟩
  | false, false => ⟨fpEncode f (if (if mx then fpLt true b a else fpLt true a b) then a else b), fl⟩

/-- R409: the FCMP conditions. -/
def fpCond (cond : Nat) (a b : Fp) : Bool :=
  let un := a.isNan || b.isNan
  let lt := fpLt false a b
  let gt := fpLt false b a
  let eq := !un && !lt && !gt
  match cond with
  | 0 => eq
  | 1 => un || !eq
  | 2 => lt
  | 3 => lt || eq
  | 4 => gt
  | 5 => gt || eq
  | 6 => !un
  | 7 => un
  | 8 => un || eq
  | 9 => un || lt
  | 10 => un || lt || eq
  | 11 => un || gt
  | _ => un || gt || eq

/-- Round an exact magnitude m x 2^e to an integer under a mode (R406, R118). -/
def toInteger (mode : Nat) (neg : Bool) (m : Nat) (e : Int) : Nat × Bool := quant mode neg m 1 e 0

/-- R406: FRND. -/
def fpRnd (f : Fmt) (mode : Nat) (a : Fp) : FRes :=
  match a with
  | .nan s => nanRes f s
  | .fin s m e =>
    let (k, _) := toInteger mode s m e
    if k = 0 then ⟨f.signBit s, 0⟩ else ⟨encFin f s k 0, 0⟩
  | x => ⟨fpEncode f x, 0⟩

/-- R407: the class bits 0 to 9 of an encoding. -/
def fpClass (f : Fmt) (v : Nat) : Nat :=
  match fpDecode f v with
  | .nan true => 1
  | .nan false => 2
  | .inf true => 4
  | .inf false => 512
  | .zero true => 32
  | .zero false => 64
  | .fin s _ _ =>
    let sub := bits v f.mb f.eb == 0
    match s, sub with
    | true, false => 8
    | true, true => 16
    | false, true => 128
    | false, false => 256

/-- R89: bits [31:12] equal 0x7FB00. -/
def isMarker (v : Nat) : Bool := v % 2 ^ 32 / 2 ^ 12 == 0x7FB00

/-! ### Exact roots, quotients and the special functions (R402, R405, R426, R427, R467, R468) -/

/-- R427: 1 / x. -/
def fpRcp (f : Fmt) (mode : Nat) (ftz : Bool) (a : Fp) : FRes :=
  match a with
  | .nan s => nanRes f s
  | .inf s => ⟨f.signBit s, 0⟩
  | .zero s => ⟨f.infinity s, flDZ⟩
  | .fin s m e => roundF f mode ftz false s 1 m (-e)

/-- R405: FDIVF, two rounded steps whose flags are merged. -/
def fpDivf (f : Fmt) (mode : Nat) (ftz : Bool) (a b : Fp) : FRes :=
  let y := fpRcp f 0 ftz b
  let q := fpMul f mode ftz a (fpIn f ftz y.bits)
  ⟨q.bits, y.flags ||| q.flags⟩

/-- Newton's iteration from above for ⌊√n⌋. -/
def isqrtGo (fuel n x : Nat) : Nat :=
  match fuel with
  | 0 => x
  | k + 1 => let y := (x + n / x) / 2
    if y < x then isqrtGo k n y else x

/-- ⌊√n⌋. -/
def isqrt (n : Nat) : Nat := if n = 0 then 0 else isqrtGo (Nat.log2 n + 8) n (2 ^ (Nat.log2 n / 2 + 1))

/-- √(m x 2^e), or its reciprocal, rounded. The root is taken to 128 bits; when it is inexact, the midpoint of its
last unit stands for it, which no rounding boundary of any format splits from the root. -/
def rootF (f : Fmt) (mode : Nat) (ftz recip : Bool) (m : Nat) (e : Int) : FRes :=
  let odd := e % 2 != 0
  let m1 := if odd then 2 * m else m
  let h := (if odd then e - 1 else e) / 2
  let sc : Nat := 128
  let n := m1 * 2 ^ (2 * sc)
  let s := isqrt n
  if s * s = n then
    if recip then roundF f mode ftz false false (2 ^ sc) s (-h) else roundF f mode ftz false false s 1 (h - sc)
  else if recip then
    -- 1 / √(m1) lies between 2^sc / (s + 1) and 2^sc / s
    roundF f mode ftz false false (2 ^ (sc + 1)) (2 * s + 1) (-h)
  else roundF f mode ftz false false (2 * s + 1) 1 (h - sc - 1)

/-- R468: SQRT. -/
def fpSqrt (f : Fmt) (mode : Nat) (ftz : Bool) (a : Fp) : FRes :=
  match a with
  | .nan s => nanRes f s
  | .zero s => ⟨f.signBit s, 0⟩
  | .inf false => ⟨f.infinity false, 0⟩
  | .fin false m e => rootF f mode ftz false m e
  | _ => nanRes f true

/-- R427: RSQ. -/
def fpRsq (f : Fmt) (mode : Nat) (ftz : Bool) (a : Fp) : FRes :=
  match a with
  | .nan s => nanRes f s
  | .zero s => ⟨f.infinity s, flDZ⟩
  | .inf false => ⟨f.signBit false, 0⟩
  | .fin false m e => rootF f mode ftz true m e
  | _ => nanRes f true

/-- Fractional bits of the fixed-point series below. -/
def fxP : Nat := 1280

/-- A bound, in last places, on the error of each series below (each has at most 420 truncated terms). -/
def fxErr : Nat := 2 ^ 14

/-- Σ y^k / k! from the term `t` of index `k`. -/
def expGo (n k t y acc : Nat) : Nat :=
  match n with
  | 0 => acc
  | n + 1 => let t' := t * y / (k * 2 ^ fxP)
    expGo n (k + 1) t' y (acc + t')

/-- e^y for a fixed-point y below 1. -/
def expFx (y : Nat) : Nat := expGo 260 1 (2 ^ fxP) y (2 ^ fxP)

/-- Σ z^(2k+1) / (2k+1). -/
def atanhGo (n k t z2 acc : Nat) : Nat :=
  match n with
  | 0 => acc
  | n + 1 => atanhGo n (k + 2) (t * z2 / 2 ^ fxP) z2 (acc + t / k)

/-- artanh z for a fixed-point z up to 1/3. -/
def atanhFx (z : Nat) : Nat := atanhGo 420 1 z (z * z / 2 ^ fxP) 0

/-- ln 2. -/
def ln2Fx : Nat := 2 * atanhFx (2 ^ fxP / 3)

/-- Alternating Σ ± t / k with t falling by the factor `d` each time. -/
def atanGo (n k t d : Nat) (pos : Bool) (acc : Int) : Int :=
  match n with
  | 0 => acc
  | n + 1 => atanGo n (k + 2) (t / d) d (!pos) (if pos then acc + t / k else acc - ((t / k : Nat) : Int))

/-- arctan (1 / m). -/
def atanInv (m : Nat) : Int := atanGo 300 1 (2 ^ fxP / m) (m * m) true 0

/-- π, by Machin's formula. -/
def piFx : Nat := (16 * atanInv 5 - 4 * atanInv 239).toNat

/-- Alternating power series: sin from (t = y, k = 1), cos from (t = 1, k = 0). -/
def trigGo (n k t y2 : Nat) (pos : Bool) (acc : Int) : Int :=
  match n with
  | 0 => acc
  | n + 1 =>
    trigGo n (k + 2) (t * y2 / (2 ^ fxP * ((k + 1) * (k + 2)))) y2 (!pos) (if pos then acc + t else acc - (t : Int))

/-- sin and cos of a fixed-point y up to 2. -/
def sinFx (y : Nat) : Nat := (trigGo 160 1 y (y * y / 2 ^ fxP) true 0).toNat
def cosFx (y : Nat) : Nat := (trigGo 160 0 (2 ^ fxP) (y * y / 2 ^ fxP) true 0).toNat

/-- A number of which only a fixed-point approximation `v` x 2^(e - fxP) with error `fxErr` x 2^b is known: when both
ends of the interval round alike, that is the rounded value; else which of the two it is stays free (log entry 12). -/
def roundIv (f : Fmt) (mode : Nat) (ftz neg : Bool) (v err : Nat) (e : Int) : FRes :=
  let lo := roundF f mode ftz false neg (if v > err then v - err else 1) 1 (e - fxP)
  let hi := roundF f mode ftz false neg (v + err) 1 (e - fxP)
  if lo = hi then lo
  else if Config.freeRound (v + 2 ^ 1400 * (mode + 4 * (f.mb + 64 * (e + 4096).toNat))) % 2 = 0 then lo else hi

/-- m x 2^e as a fixed-point number. -/
def toFx (m : Nat) (e : Int) : Nat :=
  let s := e + fxP
  if s ≥ 0 then m * 2 ^ s.toNat else m / 2 ^ (-s).toNat

/-- R402: 2^x. -/
def fpExp2 (f : Fmt) (mode : Nat) (ftz : Bool) (a : Fp) : FRes :=
  match a with
  | .nan s => nanRes f s
  | .inf true => ⟨f.signBit false, 0⟩
  | .inf false => ⟨f.infinity false, 0⟩
  | .zero _ => ⟨encFin f false 1 0, 0⟩
  | .fin s m e =>
    -- beyond ±1024 every format overflows, or is below half its smallest value
    if (Nat.log2 m : Int) + e ≥ 10 then roundF f mode ftz false false 1 1 (if s then -1100 else 1100)
    else
      let x := toFx m e
      let whole := x / 2 ^ fxP
      let frac := x % 2 ^ fxP
      if frac = 0 then roundF f mode ftz false false 1 1 (if s then -(whole : Int) else whole)
      else
        let (i, r) : Int × Nat := if s then (-(whole : Int) - 1, 2 ^ fxP - frac) else (whole, frac)
        roundIv f mode ftz false (expFx (r * ln2Fx / 2 ^ fxP)) fxErr i

/-- R426, R427: log2 x. -/
def fpLog2 (f : Fmt) (mode : Nat) (ftz : Bool) (a : Fp) : FRes :=
  match a with
  | .nan s => nanRes f s
  | .zero _ => ⟨f.infinity true, flDZ⟩
  | .inf false => ⟨f.infinity false, 0⟩
  | .fin false m e =>
    let l := Nat.log2 m
    let i : Int := (l : Int) + e
    if m = 2 ^ l then roundDy f mode ftz false i 0 false
    else
      let y := m * 2 ^ fxP / 2 ^ l
      let one := 2 ^ fxP
      let g := 2 * atanhFx ((y - one) * one / (y + one)) * one / ln2Fx
      let v : Int := i * (one : Int) + g
      roundIv f mode ftz (decide (v < 0)) v.natAbs fxErr 0
  | _ => nanRes f true

/-- R467, R468: sin πx (or cos πx). -/
def fpTrig (f : Fmt) (mode : Nat) (ftz cosine : Bool) (a : Fp) : FRes :=
  match a with
  | .nan s => nanRes f s
  | .inf _ => nanRes f true
  | .zero s => if cosine then ⟨encFin f false 1 0, 0⟩ else ⟨f.signBit s, 0⟩
  | .fin s m e =>
    -- quarter turns of |x|: x = (2 k + r) with r in [0, 2), in units of 2^-fxP
    let x := if e ≥ 1 then 0 else toFx m e % 2 ^ (fxP + 1)
    let half := 2 ^ (fxP - 1)
    let quad := x / half
    let r := x % half
    if r = 0 then
      let odd := quad % 2 == 1
      if cosine then
        if odd then ⟨f.signBit false, 0⟩ else ⟨encFin f (quad == 2) 1 0, 0⟩
      else if odd then ⟨encFin f (s != (quad == 3)) 1 0, 0⟩ else ⟨f.signBit s, 0⟩
    else
      let useCos := (quad % 2 == 1) != cosine
      let y := r * piFx / 2 ^ fxP
      let v := if useCos then cosFx y else sinFx y
      let neg := if cosine then quad == 1 || quad == 2 else s != decide (quad ≥ 2)
      roundIv f mode ftz neg v fxErr 0

/-- R467, R468: tanh x. -/
def fpTanh (f : Fmt) (mode : Nat) (ftz : Bool) (a : Fp) : FRes :=
  match a with
  | .nan s => nanRes f s
  | .zero s => ⟨f.signBit s, 0⟩
  | .inf s => ⟨encFin f s 1 0, 0⟩
  | .fin s m e =>
    -- from |x| = 128 on, 1 - tanh is below 2^-300: 1 - 2^-200 rounds alike in every mode
    if (Nat.log2 m : Int) + e ≥ 7 then roundF f mode ftz false s (2 ^ 200 - 1) 1 (-200)
    else
      -- E = e^(-2x) = 2^(-i) e^(-r ln 2); tanh = (1 - E) / (1 + E)
      let one := 2 ^ fxP
      let t := 2 * toFx m e
      let i := t / ln2Fx
      let r := t % ln2Fx
      let en := one * one / expFx r / 2 ^ i
      roundIv f mode ftz s ((one - en) * one / (one + en)) (4 * fxErr) 0

/-! ### Conversions (R117 to R119, R397, R398) -/

/-- R103: the exact value of an element in any format, as `Fp`. -/
def elemDecode (c : Nat) (ftz : Bool) (v : Nat) : Fp :=
  let ofInt := fun (i : Int) (e : Int) => if i = 0 then Fp.zero false else Fp.fin (decide (i < 0)) i.natAbs e
  match c with
  | 8 => ofInt (sext v 8) 0
  | 9 => ofInt (sext v 32) 0
  | 10 => ofInt (sext v 8) (-6)
  | 11 => if v % 256 = 255 then .nan false else .fin false 1 ((v % 256 : Nat) - 127)
  | _ => fpIn (fmtOf c) ftz v

/-- Conversion to an integer scaled by 2^-sh, of n bits (R118 and the MXINT8 case of R398). -/
def toIntFmt (n : Nat) (sh : Int) (mode : Nat) (clampFlags : Nat) (a : Fp) : FRes :=
  let hi := 2 ^ (n - 1) - 1
  match a with
  | .nan _ => ⟨0, flNV⟩
  | .inf s => ⟨if s then hi + 1 else hi, flNV⟩
  | .zero _ => ⟨0, 0⟩
  | .fin s m e =>
    let (k, exact) := toInteger mode s m (e + sh)
    if s && decide (k > hi + 1) then ⟨hi + 1, clampFlags⟩
    else if !s && decide (k > hi) then ⟨hi, clampFlags⟩
    else ⟨wrap (sgn s k) n, if exact then 0 else flNX⟩

/-- R118: Convert. `ftz` applies to FP32, FP16 and BF16 sources and results. An E4M3 NaN converted to E4M3 falls under two
rows; the model takes the one that raises invalid (DESIGN CHOICE, log entry 17). -/
def convert (sf df mode : Nat) (ftz sat : Bool) (v : Nat) : FRes :=
  let a := elemDecode sf ftz v
  if sf = 11 ∧ df = 11 then ⟨v % 256, 0⟩
  else match df with
  | 8 => toIntFmt 8 0 mode flNV a
  | 9 => toIntFmt 32 0 mode flNV a
  | 10 => toIntFmt 8 6 mode (flOF + flNX) a
  | 11 =>
    match a with
    | .nan _ | .inf _ => ⟨255, flNV⟩
    | .zero _ => ⟨0, flNX⟩
    | .fin _ m e =>
      let l : Int := (Nat.log2 m : Int) + e
      let k := min 254 (max 0 (l + 127))
      ⟨k.toNat, if m = 2 ^ Nat.log2 m ∧ k = l + 127 then 0 else flNX⟩
  | _ =>
    let f := fmtOf df
    match a with
    | .nan s => if sf = 11 then ⟨f.cnan, 0⟩ else ⟨f.cnan, if s || !f.ieee then flNV else 0⟩
    | .inf s => if f.ieee && !sat then ⟨f.infinity s, 0⟩ else ⟨f.largest s, flNV⟩
    | .zero s => ⟨f.signBit s, 0⟩
    | .fin s m e =>
      let r := roundF f mode ftz sat s m 1 e
      if sf = 11 then ⟨r.bits, 0⟩ else r

/-- R125: the counter-based generator, by the formula. -/
def rngc (key ctr : Nat) : Nat :=
  let round := fun x => (x ^^^ (x / 2 ^ 15)) * 0x9E854A3B % 2 ^ 32
  let y := round (round ((ctr ^^^ key) % 2 ^ 32))
  y ^^^ (y / 2 ^ 12)

/-! ### Sums of a slice or block (R120 to R122) -/

/-- R122: the exact sum of products so far. -/
inductive Acc where
  | nan
  | inf (neg : Bool)
  | dy (i : Int) (e : Int)
  deriving DecidableEq, Repr

/-- R120, R122: add one exact product. -/
def accMul (s : Acc) (a b : Fp) : Acc :=
  match s with
  | .nan => .nan
  | _ =>
    let neg := a.neg? != b.neg?
    match a, b with
    | .nan _, _ | _, .nan _ => .nan
    | .inf _, .zero _ | .zero _, .inf _ => .nan
    | .inf _, _ | _, .inf _ => match s with
      | .inf t => if t = neg then .inf t else .nan
      | _ => .inf neg
    | .fin _ m e, .fin _ n g => match s with
      | .dy i x => let (j, y) := dyAdd i x (sgn neg (m * n)) (e + g); .dy j y
      | t => t
    | _, _ => s

/-- R120, R122: acc := Round(acc + S, FP32, RNE), with the overflow flag of R214 and whether a NaN stands. -/
def accStep (acc : Nat) (s : Acc) : Nat × Bool × Bool :=
  let a := fpDecode fp32 acc
  match a, s with
  | .nan _, _ | _, .nan => (fp32.cnan, false, true)
  | .inf t, .inf u => if t = u then (fp32.infinity t, false, false) else (fp32.cnan, false, true)
  | .inf t, _ => (fp32.infinity t, false, false)
  | _, .inf u => (fp32.infinity u, false, false)
  | .zero t, .dy i e =>
    -- an exact S of zero is +0 (R120): -0 + +0 = +0
    if i = 0 then (fp32.signBit (t && false), false, false)
    else let r := roundDy fp32 0 false false i e false
      (r.bits, r.flags / flOF % 2 == 1, false)
  | .fin t m g, .dy i e =>
    let (j, x) := dyAdd (sgn t m) g i e
    let r := roundDy fp32 0 false false j x false
    (r.bits, r.flags / flOF % 2 == 1, false)

/-- R123: integer and floating-point tree operations of REDUX and SCAN (R457). -/
def treeOp (op mode : Nat) (ftz : Bool) (a b : Nat) : FRes :=
  match op with
  | 0 => fpAdd fp32 mode ftz (fpIn fp32 ftz a) (fpIn fp32 ftz b)
  | 1 => fpMin fp32 false (fpIn fp32 ftz a) (fpIn fp32 ftz b)
  | 2 => fpMin fp32 true (fpIn fp32 ftz a) (fpIn fp32 ftz b)
  | 3 => ⟨(a + b) % 2 ^ 32, 0⟩
  | 4 => ⟨if sext a 32 ≤ sext b 32 then a else b, 0⟩
  | 5 => ⟨if sext a 32 ≤ sext b 32 then b else a, 0⟩
  | 6 => ⟨a &&& b, 0⟩
  | 7 => ⟨a ||| b, 0⟩
  | _ => ⟨a ^^^ b, 0⟩

/-- R123: Id. -/
def treeId (op : Nat) : Nat :=
  match op with
  | 0 => 0x80000000
  | 1 => 0x7F800000
  | 2 => 0xFF800000
  | 4 => 0x7FFFFFFF
  | 5 => 0x80000000
  | 6 => 0xFFFFFFFF
  | _ => 0

/-- R112: an operand of the tree, as the floating-point operations read it. -/
def treeIn (op : Nat) (ftz : Bool) (v : Nat) : Nat := if op < 3 then flushIn fp32 ftz v else v

/-- R102, R114: a result made of one leaf is arithmetic's too: its NaN is the canonical one. -/
def treeOut (op v : Nat) : Nat := if op < 3 ∧ (fpDecode fp32 v).isNan then fp32.cnan else v

/-- One level of the tree. -/
def treeLevel (op mode : Nat) (ftz : Bool) (l : List Nat) : List Nat × Nat :=
  match l with
  | a :: b :: r =>
    let x := treeOp op mode ftz a b
    let (t, fl) := treeLevel op mode ftz r
    (x.bits :: t, x.flags ||| fl)
  | _ => ([], 0)

/-- R123: all levels, the leaves first, with the flags of every node. -/
def treeLevels (n op mode : Nat) (ftz : Bool) (l : List Nat) : List (List Nat) × Nat :=
  match n with
  | 0 => ([l], 0)
  | n + 1 =>
    let (u, fl) := treeLevel op mode ftz l
    let (t, fl2) := treeLevels n op mode ftz u
    (l :: t, fl ||| fl2)

/-- R124: combine the aligned blocks of lanes 0 to L from the left; `size` is the largest block tried. -/
def scanGo (n op mode : Nat) (ftz : Bool) (levels : List (List Nat)) (cnt start : Nat) (y : Option Nat) (fl : Nat) :
    Nat × Nat :=
  match n with
  | 0 => (y.getD 0, fl)
  | j + 1 =>
    if 2 ^ j ≤ cnt then
      let blk := nth (nth levels j []) (start / 2 ^ j) 0
      match y with
      | none => scanGo j op mode ftz levels (cnt - 2 ^ j) (start + 2 ^ j) (some blk) fl
      | some v =>
        let r := treeOp op mode ftz v blk
        scanGo j op mode ftz levels (cnt - 2 ^ j) (start + 2 ^ j) (some r.bits) (fl ||| r.flags)
    else scanGo j op mode ftz levels cnt start y fl

end Sys2Proof.Machine
end

