-- ==== Sys2Proof/Machine/Preempt.lean ====
section
/-! DEFINITION. Raising a pre-emption, and the points at which a party stops for it (R44, R92, R285, R286, R301 to
R303). -/

namespace Sys2Proof.Machine

/-- R278: a field of a launch packet, by byte and bit. -/
def packetField (l : Launch) (byte bit n : Nat) : Nat := bits l.packet.toNat (8 * byte + bit) n
def launchCores (l : Launch) : Bool := packetField l 20 2 1 == 1
def launchPair (l : Launch) : Bool := packetField l 20 1 1 == 1
def launchPipe (l : Launch) : Bool := packetField l 20 0 1 == 1
def launchPrio (l : Launch) : Nat := packetField l 20 5 2

/-- Does a resident team run on a core? -/
def teamOn (t : Team) (core : Nat) : Bool :=
  t.resident && (t.core == core || (t.pair && partnerOf t.core == core))

/-- Ask the resident teams that satisfy a test to stop. -/
def preemptWhere (s : State) (f : Nat × Team → Bool) : State :=
  { s with teams := s.teams.map fun x =>
      if !isHandler x.1 && x.2.resident && f x then (x.1, { x.2 with preempt := true }) else x }

/-- R285, R286, R303: pre-emption of every team of a core's tenancy; a co-resident launch and a pipeline instance
stop whole. -/
def preemptCore (s : State) (core : Nat) : State :=
  let here := s.teams.filter fun x => !isHandler x.1 && teamOn x.2 core
  let whole := fun (y : Team) => here.any fun x =>
    (x.2.inst == y.inst) || (x.2.launch == y.launch && ((getLaunch s y.launch).map launchCores).getD false)
  preemptWhere s fun x => teamOn x.2 core || whole x.2

/-- R303: a waypoint issued by a group of the core's tenancy passes `%preempttest`. -/
def preemptTest (s : State) (core : Nat) : State :=
  let v := (getCore s core).ptest.toNat
  if !tb v 31 then s
  else if v % 2 ^ 16 ≤ 1 then
    preemptCore (modCore s core fun k => { k with ptest := 0 }) core
  else modCore s core fun k => { k with ptest := BitVec.ofNat 32 (v - 1) }

/-- R44, R286, R302: a group for which the lead need not run on: stopped, exited, awaiting its handler, or stalled on *DQ
empty* with every entry popped. R286 counts the last as stopped once its lead has stopped, and R44 stops the lead once every
group has: the two stop together (DEDUCED, log 35), else neither would. -/
def groupHalted (t : Team) (g : Group) : Bool :=
  g.com.st != .running || (g.com.stall == some .dqEmpty && decide (t.wr ≤ g.rd))
def groupsHalted (t : Team) : Bool := t.groups.all fun x => groupHalted t x.2

/-- R92, R390: a waiting BWAIT is withdrawn. A SYNC that waits stays counted, and is issued again (R472). -/
def withdrawWait (s : State) (p : Party) : State :=
  match (getCom s p).bind (·.wait) with
  | some (.bwait b _) => modCom (barLeave s b) p fun c => { c with wait := none }
  | _ => s

/-- R286: a party stops. -/
def stopParty (s : State) (p : Party) : State :=
  modCom (withdrawWait s p) p fun c => { c with st := .stopped, stall := none }

/-- R433: the outstanding operations of a party are waiting monitors. -/
def onlyMonitors (c : Common) : Bool :=
  !c.ops.isEmpty && c.ops.all fun o => match o.instr with | .monw .. => true | _ => false

/-- R44, R286: does a stall count as a stop? A lead that stalls as R44 lists is stopped there as soon as no group needs it
to run on. -/
def stallStops (s : State) (p : Party) (r : Stall) : Bool :=
  match getTeam s (teamOf s p) with
  | none => false
  | some t =>
    let monitors := (r == .scoreboard || r == .lineWait) && (match getCom s p with
      | some c => onlyMonitors c
      | none => false)
    let queueOrBarrier := r == .queueEmpty || r == .queueFull || r == .barrierWait
    let leadStopped := t.lead.com.st == .stopped || t.lead.com.st == .trapped || t.lead.com.st == .escalated
    t.preempt && (match p with
      | .group _ _ => queueOrBarrier || monitors || (r == .dqEmpty && leadStopped)
      | .lead _ => (queueOrBarrier || monitors || r == .dqFull) && groupsHalted t
      | .porter _ _ => false)

/-- R92, R286, R293, R302: a party stops where it stalls, which counts as a waypoint: a deferred trap is raised there. -/
def stopStalled (s : State) (p : Party) : State :=
  match (getCom s p).bind fun c => c.ops.find? (·.poisoned) with
  | some o => raiseDeferred (withdrawWait s p) p o (deferLane o).1 (deferLane o).2
  | none => stopParty s p

/-- Record a stall, and stop the party when a pre-emption is pending and the stall counts as a stop. -/
def stallParty (s : State) (p : Party) (r : Stall) : State :=
  let s := recordStall s p r
  if stallStops s p r then stopStalled s p else s

/-- R77, R89, R301: the window registers of the blocks that a live mask leaves out become markers. -/
def maskWindow (g : Group) (alloc : Nat) (mask : BitVec 16) : Group :=
  let wsize := min alloc 128
  let drop := fun (key : Nat) =>
    let lane := key % 64
    let off := (key / 64 + alloc - (thread g lane).wb % alloc) % alloc
    decide (off < wsize) && !tb mask.toNat (off / 8)
  { g with v := g.v.filter fun x => !drop x.1, vpoison := g.vpoison.filter fun k => !drop k }

/-- R44, R286, R301: a party at a waypoint stops for a pending pre-emption, a lead once no group needs it to run on. `mask` is the live
mask when the whole group stands at a WAYPT; the save leaves out what it does not mark. -/
def stopAt (s : State) (p : Party) (mask : Option (BitVec 16)) (pending : Bool) : State :=
  if !pending then s
  else match p with
  | .group t g => modGroup (stopParty s p) t g fun x => { x with live := mask }
  | .lead t => if ((getTeam s t).map groupsHalted).getD false then stopParty s p else s
  | .porter _ _ => s

/-- R479, R461, R300, R303, R286: a waypoint has issued: the count restarts, an armed `%preempttest` falls, and a
pre-emption that was pending stops the party. -/
def waypointDone (s : State) (p : Party) (mask : Option (BitVec 16)) : State :=
  let s := modCom s p fun c => { c with wcount := 0 }
  let t := teamOf s p
  if isHandler t then s
  else
    -- a pre-emption that this waypoint itself raises stops its party at the next one (R519, R522)
    let s1 := match p with
      | .group _ _ => preemptTest s (coreOf s p)
      | _ => s
    stopAt s1 p mask (((getTeam s t).map (·.preempt)).getD false)

/-- R293, R298, R300: a party goes on after a trap. A resume or a skip after WAYPOINT_BOUND is a waypoint (`bound`): a deferred
trap is raised at it, else a pending pre-emption stops the party. So is a deferred trap that a save has kept waiting
behind the trap that ends (R92, R302). -/
def goOn (s : State) (p : Party) (c : Common) (bound : Bool) : State :=
  if bound || c.late then
    match c.ops.find? (·.poisoned) with
    | some o => raiseDeferred s p o (deferLane o).1 (deferLane o).2
    | none =>
      let s1 := modCom s p fun c => { c with late := false }
      if bound then stopAt s1 p none (((getTeam s (teamOf s p)).map (·.preempt)).getD false) else s1
  else s

/-- R298, R300, R302: the end of a trap by action `act`. -/
def endTrap (s : State) (core : Nat) (e : TrapEntry) (act : Nat) : State :=
  let s1 := applyAction s core e act
  match e.src with
  | .party p => match getCom s1 p with
    | some c =>
      if act ≤ 1 ∧ c.st = .running ∧ isHandler e.team = false then goOn s1 p c (e.info.code == tcBound) else s1
    | none => s1
  | _ => s1

end Sys2Proof.Machine
end

