-- ==== Sys2Proof/Machine/Operands.lean ====
section
/-! DEFINITION. Operand codes, operand values, the checks and stalls that every instruction makes before its own
effect, and the writing of results (R41, R54 to R61, R89, R90, R115, R116, R147, R291 to R293, R336, R341 to R348,
R364, R420). -/

namespace Sys2Proof.Machine

/-- How an instruction uses an operand field. -/
inductive Role where
  /-- A source of classes 0 to 2: register, queue, DQ or ZERO; `fp` marks the sources of R116. -/
  | src (fp : Bool)
  /-- A destination of classes 0 to 2: register, queue or ZERO. -/
  | dst
  /-- A source run of n registers (R420), or ZERO. -/
  | reg (n : Nat)
  /-- A destination run of n registers, or ZERO. -/
  | out (n : Nat)
  /-- As `reg`; its poison is tested by the entry (R470). -/
  | data (n : Nat)
  /-- As `reg`, but `k` registers only in a group (R429). -/
  | uni (n : Nat)
  /-- R202: a matrix coordinate: a run of `k` registers in a group, of `s` in a lead, or ZERO; every other code is
  illegal. -/
  | coord (n : Nat)
  /-- R483: a porter's scratchpad address: a `g` register, never ZERO. -/
  | sp
  /-- R230: a destination run of `k` registers in a group, `s` in a lead; never ZERO. -/
  | kout (n : Nat)
  /-- R428: a counter register: `k`, `s` or `g`. -/
  | ctr
  /-- A predicate read or written; `even` for the packed forms of R408. -/
  | pin (even : Bool)
  | pout (even : Bool)
  /-- R342: the tile field of a matrix command. -/
  | tile
  /-- n registers that are read as well, their code being checked as another field. -/
  | also (n : Nat)
  deriving DecidableEq, Repr

/-- An operand field in use. -/
structure Field where
  code : Code
  role : Role
  deriving DecidableEq, Repr

/-- What an issue works with. `s` has the popped records taken out; `g`, `tm`, `x` and `com` are the issuer's group,
team, porter and control state before the issue. -/
structure Env where
  s    : State
  i    : Instr
  c    : Ctl
  p    : Party
  kind : Kind
  t    : Nat
  core : Nat
  ctx  : Nat
  tm   : Team
  gid  : Nat
  g    : Group
  x    : Porter
  com  : Common
  pc   : DWord
  /-- The frontier's lanes, and those whose guard passes (R336). -/
  lanes : List Nat
  act  : List Nat
  /-- Records popped: queue, position and record. -/
  recs : List (Nat × Nat × Record)
  dq   : Option DWord
  deriving DecidableEq, Repr

/-- What an instruction's entry adds to the common checks. -/
structure Rules where
  fields : Kind → List Field
  /-- R346 step 8: a check of the entry that depends on the kind of program and has detail 0. -/
  modBad : Env → Bool := fun _ => false
  /-- R346 step 8: detail of ILLEGAL_ENCODING. -/
  illegal : Env → Option Nat := fun _ => none
  /-- Detail of WRONG_CONTEXT that the entry adds (R401). -/
  context : Env → Option Nat := fun _ => none
  /-- Detail of PRIVILEGE. -/
  privilege : Env → Option Nat := fun _ => none
  /-- R300: a waypoint. -/
  waypoint : Bool := false
  /-- R293: a waypoint or EXIT, at which deferred traps are raised. -/
  settles : Bool := false
  /-- BDQ and DQPOP (R41). -/
  dq : Bool := false
  /-- R43, R159, R472: a release at issue, made after every earlier access of the issuer. -/
  fork : Bool := false
  /-- R203, R430, R472, R473: the instruction acts in full whatever `Active` holds. -/
  whole : Bool := false
  /-- R364: it acts once per issue, with the operands of the lowest `Active` lane. -/
  once : Bool := false
  /-- R441: the instruction consumes no poison. -/
  noPoison : Bool := false

/-- R364: the width W of operands. -/
def Env.w (e : Env) : Nat := if e.kind = .group then 32 else 64

/-- R336: the opcode of an instruction. -/
def opOf (i : Instr) : Nat := ((encode i).getD 0) / 2 ^ 86
def clsOf (i : Instr) : Nat := opOf i / 128

/-- R343, column "Kinds", and R170. -/
def kindOk (op : Nat) : Kind → Bool
  | .porter => decide (op < 0x80) || [0x200, 0x201, 0x202, 0x209].contains op || decide (0x300 ≤ op ∧ op < 0x380)
  | .lead => decide (op < 0x100) || [0x180, 0x181, 0x184, 0x186, 0x187].contains op ||
      decide (0x189 ≤ op ∧ op ≤ 0x18D) ||
      (decide (0x200 ≤ op ∧ op < 0x280) && !([0x203, 0x204, 0x205, 0x207, 0x20C, 0x20D].contains op)) ||
      decide (0x280 ≤ op ∧ op < 0x300) || (decide (0x380 ≤ op) && op != 0x387)
  | .group => !decide (0x300 ≤ op ∧ op < 0x380) && op != 0x202 && op != 0x20B

/-! ### Operand codes -/

def isQ (c : Code) : Bool := decide (0xA0 ≤ c.toNat ∧ c.toNat ≤ 0xAF)
def qNum (c : Code) : Nat := c.toNat - 0xA0
def isDq (c : Code) : Bool := c.toNat == 0xD1
def isZero (c : Code) : Bool := c.toNat == 0xD0
def isPred (c : Code) : Bool := decide (0xB0 ≤ c.toNat ∧ c.toNat ≤ 0xB7)
def predNum (c : Code) : Nat := c.toNat - 0xB0
def isTile (c : Code) : Bool := decide (0xC0 ≤ c.toNat ∧ c.toNat ≤ 0xCF)
def isK (c : Code) : Bool := decide (0x80 ≤ c.toNat ∧ c.toNat ≤ 0x9F)

/-- R77: the window size. -/
def wsz (alloc : Nat) : Nat := min alloc 128

/-- R341: how many registers codes from 0 name for a kind. -/
def regCount (k : Kind) (alloc : Nat) : Nat :=
  match k with
  | .group => wsz alloc
  | .lead => 64
  | .porter => 16

/-- Registers that a role names. -/
def Role.run : Role → Nat
  | .reg n | .data n | .out n | .uni n | .coord n | .kout n | .also n => n
  | _ => 1

/-- Roles that take only `k` registers, or `s` registers in a lead (R202, R230, R429). -/
def Role.uniform : Role → Bool
  | .uni _ | .coord _ | .kout _ => true
  | _ => false

/-- Roles that may name a queue (R54). -/
def Role.queued : Role → Bool
  | .src _ | .dst => true
  | _ => false

/-- Roles that may not name ZERO (R230, R483). -/
def Role.noZero : Role → Bool
  | .kout _ | .sp => true
  | _ => false

/-- Roles that may not name the DQ (R41). -/
def Role.noDq (k : Kind) : Role → Bool
  | .dst | .out _ | .kout _ => true
  | .src _ => false
  | _ => k == .group

/-- R346 step 7 for a code that names registers or a special operand, taken as a run of n, where codes from 0 name a
registers. -/
def runIllegal (k : Kind) (cls a : Nat) (c : Code) (n : Nat) (r : Role) : Bool :=
  let m := c.toNat
  if m ≤ 0x7F then (r.uniform && k == .group) || decide (a < m + n) || m % n != 0
  else if m ≤ 0x9F then decide (0xA0 < m + n) || m % n != 0
  else if m ≤ 0xAF then k != .porter && !(r.queued && decide (cls ≤ 2))
  else if m ≤ 0xB7 then k != .porter
  else if m ≤ 0xBF then true
  else if m ≤ 0xCF then k != .porter
  else if m = 0xD0 then r.noZero
  else if m = 0xD1 then r.noDq k
  else true

/-- R346 step 7 for one field: is the code illegal here? -/
def codeIllegal (k : Kind) (cls alloc : Nat) (f : Field) : Bool :=
  match f.role with
  | .also _ => false
  | .pin ev | .pout ev => !isPred f.code || (ev && f.code.toNat % 2 == 1)
  | .tile => !isTile f.code
  | .ctr => if k = .group then !isK f.code else decide (regCount k alloc ≤ f.code.toNat)
  | .coord n => !isZero f.code &&
      (if k = .group then !isK f.code || decide (0xA0 < f.code.toNat + n) || f.code.toNat % n != 0
        else decide (regCount k alloc < f.code.toNat + n))
  | r => runIllegal k cls (regCount k alloc) f.code r.run r

/-- R341, R41, R54: a code that the program kind may not name; the answer is the detail. -/
def codeContext (k : Kind) (op : Nat) (f : Field) : Option Nat :=
  let c := f.code.toNat
  if k = .group then none
  else match f.role with
    | .also _ => none
    | _ =>
      if isDq f.code || (isQ f.code && k == .porter) then some c
      else if isK f.code || (k == .porter && (isPred f.code || isTile f.code)) then some op
      else none

/-! ### Register keys and values -/

/-- R77: physical index of window register m in a lane. -/
def physOf (g : Group) (alloc lane m : Nat) : Nat := ((thread g lane).wb + m) % alloc

/-- The key of register code + j in a lane: unit x 64 + lane, where a unit is a physical row of `v`, a `k` register
from 0x4000, a predicate from 0x5000, or an `s` or `g` register. -/
def regKey (e : Env) (c : Code) (j lane : Nat) : Nat :=
  if isPred c then (0x5000 + predNum c + j) * 64 + lane
  else if isK c then (0x4000 + (c.toNat - 0x80) + j) * 64
  else if e.kind = .group then physOf e.g e.tm.alloc lane (c.toNat + j) * 64 + lane
  else (c.toNat + j) * 64

/-- R89: the marker of a physical row. -/
def marker (n : Nat) : Word := BitVec.ofNat 32 (0x7FB00000 ||| n)

/-- A predicate in a lane (R90). -/
def predVal (e : Env) (n lane : Nat) : Bool :=
  n == 0 || (match e.kind with
    | .group => tb (Tab.get e.g.p lane 0).toNat n
    | .lead => tb e.tm.lead.p.toNat n
    | .porter => false)

/-- A 32-bit (group) or 64-bit (lead, porter) register. -/
def regVal (e : Env) (c : Code) (j lane : Nat) : Nat :=
  if isZero c then 0
  else match e.kind with
    | .group =>
      if isK c then (Tab.get e.g.k (c.toNat - 0x80 + j) 0).toNat
      else
        let n := physOf e.g e.tm.alloc lane (c.toNat + j)
        (Tab.get e.g.v (n * 64 + lane) (marker n)).toNat
    | .lead => (Tab.get e.tm.lead.s (c.toNat + j) 0).toNat
    | .porter => (Tab.get e.x.g (c.toNat + j) 0).toNat

/-- A run of n registers as one number, the first lowest (R420). -/
def runVal (e : Env) (c : Code) (n lane : Nat) : Nat :=
  match n with
  | 0 => 0
  | n + 1 => runVal e c n lane + regVal e c n lane * 2 ^ (e.w * n)

/-- R364: 64 bits: a pair in a group, one register in a lead or porter. -/
def val64 (e : Env) (c : Code) (lane : Nat) : Nat := runVal e c (if e.kind = .group then 2 else 1) lane

/-- R55: what a record gives a lane of a group, or a lead. -/
def recVal (k : Kind) (r : Record) (lane : Nat) : Nat :=
  let w := fun j => (nth r.words j 0).toNat
  if k = .group then w (lane % max 1 r.words.length) else w 0 + w 1 * 2 ^ 32

/-- R364: `val(X, L)` of an operand code. -/
def val (e : Env) (c : Code) (lane : Nat) : Nat :=
  if isQ c then match e.recs.find? fun r => r.1 == qNum c with
    | some r => recVal e.kind r.2.2 lane
    | none => 0
  else if isDq c then (e.dq.getD 0).toNat % 2 ^ 32
  else if isPred c then (predVal e (predNum c) lane).toNat
  else regVal e c 0 lane

/-- R364, R338: operand B, or IMM32. -/
def srcVal (e : Env) (b : Src) (lane : Nat) : Nat :=
  match b with
  | .reg c => val e c lane
  | .imm v => if e.kind = .group then v.toNat else wrap (sext v.toNat 32) 64

/-- The field of operand B. -/
def srcField (b : Src) (fp : Bool) : List Field :=
  match b with
  | .reg c => [⟨c, .src fp⟩]
  | .imm _ => []

/-- R364: the lane whose operands an instruction acting once per issue takes. -/
def Env.low (e : Env) : Nat := e.act.headD (e.lanes.headD 0)

/-! ### Making an issue ready -/

/-- The issue of instruction `i` by party `p`, when the party exists and has a frontier. -/
def envOf (s : State) (p : Party) (i : Instr) (c : Ctl) : Option Env :=
  let t := teamOf s p
  match getTeam s t with
  | none => none
  | some tm =>
    let base : Env :=
      { s := s, i := i, c := c, p := p, kind := kindOf p, t := t, core := coreOf s p, ctx := tm.ctx, tm := tm, gid := 0,
        g := startGroup 0 0 0 0 0 0 0, x := .idle, com := Common.start, pc := 0, lanes := [0], act := [0], recs := [],
        dq := none }
    match p with
    | .group _ n =>
      match Tab.find tm.groups n with
      | none => none
      | some g0 => match frontier g0 with
        | none => none
        | some (g, ls, pc) =>
          let s := setTeam s t (setGroup tm n g)
          let pass := fun l =>
            (c.gp == 0 || tb (Tab.get g.p l 0).toNat c.gp.toNat) != c.gn
          some { base with s := s, gid := n, g := g, com := g.com, pc := pc, lanes := ls, act := ls.filter pass }
    | .lead _ =>
      let pass := (c.gp == 0 || tb tm.lead.p.toNat c.gp.toNat) != c.gn
      some { base with com := tm.lead.com, pc := tm.lead.pc, act := if pass then [0] else [] }
    | .porter k n => let x := getPorter s k n; some { base with x := x, pc := x.pc }

/-- R336, R170: the guard and flag fields that step 5 of R346 and R170 refuse. -/
def ctlBad (k : Kind) (lw : Nat) (c : Ctl) : Bool :=
  if k = .porter then c.gn || c.gp != 0 || c.cf != 0 else cfBad lw c

/-- R291 items 2 to 5, the checks of R346 in its order. -/
def statics (e : Env) (r : Rules) : Except Stop Unit :=
  let op := opOf e.i
  let fs := r.fields e.kind
  let ill : Except Stop Unit → Bool → Nat → Except Stop Unit := fun x b d => if b then .error (.trap tcIllegal d 0) else x
  let bound := decide (e.kind ≠ .porter) && !r.waypoint && decide (4096 ≤ e.com.wcount)
  if bound then .error (.trap tcBound (if e.kind = .lead then 0x1001 else 0x1000) 0)
  else ill
    (match fs.find? (codeIllegal e.kind (clsOf e.i) e.tm.alloc) with
      | some f => .error (.trap tcIllegal f.code.toNat 0)
      | none => ill (match r.illegal e with
        | some d => .error (.trap tcIllegal d 0)
        | none => match (if kindOk op e.kind then none else some op) <|> fs.findSome? (codeContext e.kind op) <|> r.context e with
          | some d => .error (.trap tcContext d 0)
          | none => match r.privilege e with
            | some d => .error (.trap tcPrivilege d 0)
            | none => .ok ()) (!e.i.entryOk || r.modBad e) 0)
    (!e.i.formOk || ctlBad e.kind e.s.lw.toNat e.c) 0

/-- R364: the lanes whose source registers an issue takes. -/
def srcLanes (e : Env) (r : Rules) : List Nat :=
  if r.whole && e.act.isEmpty then [e.low] else if r.once then e.act.take 1 else e.act

/-- The register units that an issue reads (R348): its sources in the lanes it takes them from, and its guard predicate. -/
def readUnits (e : Env) (r : Rules) : List Nat :=
  let one : Field → List Nat := fun f =>
    if isZero f.code || isQ f.code || isDq f.code then []
    else match f.role with
      | .dst | .out _ | .kout _ | .pout _ | .tile => []
      | x => (srcLanes e r).flatMap fun l => (upto 0 x.run).map fun j => regKey e f.code j l / 64
  (if e.c.gp = 0 then [] else [0x5000 + e.c.gp.toNat]) ++ (r.fields e.kind).flatMap one

/-- R293: the deferred trap of an operation whose data came back poisoned. -/
def deferOf (o : Op) : Stop := .deferred o.id (deferLane o).1 (deferLane o).2

/-- R348: a reader of a pending destination stalls, or reports the deferred trap of a poisoned one. -/
def scoreboard (e : Env) (r : Rules) : Except Stop Unit :=
  if e.com.ops.isEmpty then .ok ()
  else
    let late := if r.settles then e.com.ops.find? (·.poisoned) else none
    let units := readUnits e r
    let hit := e.com.ops.find? fun o => o.dst.any fun d => units.contains (d.1 / 64)
    let loads := r.settles && e.com.ops.any fun o => o.kind == .access && (match o.instr with
      | .ld .. | .atom .. => true
      | _ => false)
    match late <|> hit with
    | some o => if o.poisoned then .error (deferOf o) else .error (.stall .scoreboard)
    | none =>
      if loads || (r.fork && (r.whole || !e.act.isEmpty) && accessDue e.com e.com.nextOp) then .error (.stall .scoreboard)
      else match cfFlag e.s.lw.toNat e.c with
        | some f => if flagCount e.com f = 63 then .error (.stall .scoreboard) else .ok ()
        | none => .ok ()

/-- R61: the reason for which a queue may not be used at an end; 0 when it may. -/
def queueReason (e : Env) (q : Nat) (pop : Bool) : Nat :=
  match getQueue e.s e.tm.inst q with
  | none => 1
  | some x =>
    if !qValid x.decl then 1
    else if !(if pop then endOk (qCKind x.decl) (qCStage x.decl) e.kind e.tm.stage
        else endOk (qPKind x.decl) (qPStage x.decl) e.kind e.tm.stage) then 2
    else if pop && qEnded x e.p then 3
    else 0

/-- The queue fields of an issue that pop, and those that push. -/
def popFields (fs : List Field) : List Nat :=
  (fs.filterMap fun f => match f.role with
    | .src _ => if isQ f.code then some (qNum f.code) else none
    | _ => none).eraseDups

def pushFields (fs : List Field) : List Nat :=
  fs.filterMap fun f => if f.role == .dst && isQ f.code then some (qNum f.code) else none

/-- R61: the first queue field, in the order D, A, B, C of R346 (DEDUCED, log 5), that traps QUEUE_BINDING. -/
def queueTraps (e : Env) (fs : List Field) : Option Nat :=
  fs.findSome? fun f =>
    if !isQ f.code then none
    else
      let n := match f.role with
        | .src _ => queueReason e (qNum f.code) true
        | .dst => queueReason e (qNum f.code) false
        | _ => 0
      if n = 0 then none else some (f.code.toNat + n * 256)

/-- The record that a pop would take. -/
def headRec (e : Env) (q : Nat) : Option (Nat × Nat × Record) :=
  match getQueue e.s e.tm.inst q with
  | none => none
  | some x => match popIndex x e.p with
    | none => none
    | some n => (x.recs[n]?).map fun r => (q, n, r)

/-- R39: the entry that a pop of the DQ would take. An entry that a restart (R218) asks for again after it was
overwritten is free. -/
def dqHead (e : Env) : Option DWord :=
  let first := e.tm.wr - e.tm.dq.length
  if e.tm.wr ≤ e.g.rd then none
  else if e.g.rd < first then some ((Config.freeWord e.s.tick).setWidth 64)
  else e.tm.dq[e.g.rd - first]?

/-- Does the issue consume the DQ (R41)? -/
def usesDq (e : Env) (r : Rules) : Bool :=
  e.kind == .group && (r.dq || (r.fields e.kind).any fun f => isDq f.code)

/-- R41, R45, R56: the DQ entry and the records that the issue takes, or why it must wait. -/
def takes (e : Env) (r : Rules) : Except Stop Env :=
  let fs := r.fields e.kind
  let step2 : Env → Except Stop Env := fun e =>
    match queueTraps e fs with
    | some _ => .ok e
    | none =>
      let qs := popFields fs
      let got := qs.filterMap (headRec e)
      if got.length < qs.length then .error (.stall .queueEmpty)
      else if (pushFields fs).any fun q => match getQueue e.s e.tm.inst q with
          | some x => qFull x
          | none => false then .error (.stall .queueFull)
      else .ok { e with recs := got }
  if usesDq e r then
    match dqHead e with
    | some v => step2 { e with dq := some v }
    | none =>
      if e.tm.lead.com.st = .exited then .error (.trap tcContext 0xD1 0) else .error (.stall .dqEmpty)
  else step2 e

/-- R116: the first marker among the floating-point sources. -/
def markerTrap (e : Env) (fs : List Field) : Except Stop Unit :=
  if e.kind = .porter ∨ fcrMark e.com = false then .ok ()
  else
    let hit := fs.findSome? fun f => match f.role with
      | .src true => e.act.findSome? fun l => if isMarker (val e f.code l) then some (val e f.code l % 4096) else none
      | _ => none
    match hit with
    | some n => .error (.trap tcUninit n 0)
    | none => .ok ()

/-- R147: a poisoned register or record among the sources: the lowest lane that reads one. -/
def poisonTrap (e : Env) (r : Rules) : Except Stop Unit :=
  let fs := if r.noPoison then [] else r.fields e.kind
  let bad : Nat → Bool := fun l => fs.any fun f =>
    if isZero f.code || isQ f.code || isDq f.code then false
    else match f.role with
      | .dst | .out _ | .kout _ | .data _ | .pout _ | .pin _ | .tile => false
      | r => (upto 0 r.run).any fun j => e.g.vpoison.contains (regKey e f.code j l)
  let regLane := if e.kind = .group ∧ e.g.vpoison ≠ [] then (srcLanes e r).find? bad else none
  let recLane := if e.recs.any fun x => x.2.2.poison then e.act.head? else none
  match regLane, recLane with
  | some l, some m => .error (.trap tcPoison (if m < l then m + 3 * 256 else l + 2 * 256) 0)
  | some l, none => .error (.trap tcPoison (l + 2 * 256) 0)
  | none, some m => .error (.trap tcPoison (m + 3 * 256) 0)
  | none, none => .ok ()

/-- R41, R43, R55, R59, R153: pop the DQ and the records taken; a DQ pop on the home core makes no phase boundary. -/
def popAll (e : Env) : Env :=
  let s1 := match e.dq with
    | none => e.s
    | some _ =>
      let s := modGroup e.s e.t e.gid fun g => { g with rd := g.rd + 1 }
      if e.tm.pair && e.core != e.tm.core then phaseBoundary s e.core else s
  let s2 := e.recs.foldl (fun s r =>
    popOrder (modQueue s e.tm.inst r.1 fun x => popAt x e.p r.2.1) e.core r.2.2) s1
  { e with s := s2 }

/-! ### Writing results -/

/-- One register of a group (R88, R90). -/
def putGroup (g : Group) (k v : Nat) : Group :=
  let u := k / 64
  if u < 0x4000 then { g with v := Tab.put g.v k (BitVec.ofNat 32 v) (marker u) }
  else if u < 0x5000 then { g with k := Tab.put g.k (u - 0x4000) (BitVec.ofNat 32 v) 0 }
  else if u = 0x5000 then g
  else
    let l := k % 64
    { g with p := Tab.put g.p l (BitVec.ofNat 8 (setBit (Tab.get g.p l 0).toNat (u - 0x5000) (v % 2 == 1))) 0 }

/-- R147: an instruction that writes the registers `ks` clears the mark of a pool word whose registers it writes both, and
leaves it where it writes one of them. -/
def clearMarks (g : Group) (ks : List Nat) : Group :=
  { g with vpoison := g.vpoison.filter fun k => !(ks.contains k && ks.contains (Config.poolMate k)) }

/-- One register of a lead (R38). -/
def putLead (l : Lead) (k v : Nat) : Lead :=
  let u := k / 64
  if u < 0x5000 then { l with s := Tab.put l.s u (BitVec.ofNat 64 v) 0 }
  else if u = 0x5000 then l
  else { l with p := BitVec.ofNat 8 (setBit l.p.toNat (u - 0x5000) (v % 2 == 1)) }

/-- Registers of a party, by key. -/
def putRegs (s : State) (p : Party) (kvs : List (Nat × Nat)) : State :=
  match p with
  | .group t g => modGroup s t g fun x => clearMarks (kvs.foldl (fun x kv => putGroup x kv.1 kv.2) x) (kvs.map (·.1))
  | .lead t => modLead s t fun x => kvs.foldl (fun x kv => putLead x kv.1 kv.2) x
  | .porter c n => modPorter s c n fun x =>
      { x with g := kvs.foldl (fun t kv => Tab.put t (kv.1 / 64) (BitVec.ofNat 64 kv.2) 0) x.g }

/-- R348: an outstanding operation no longer writes the registers `ks`. -/
def Op.drop (o : Op) (ks : List Nat) : Op := { o with dst := o.dst.filter fun d => !ks.contains d.1 }

/-- R348: what a later instruction writes, an earlier one no longer does. -/
def dropKeys (s : State) (p : Party) (ks : List Nat) : State :=
  modCom s p fun c =>
    if c.ops.all (fun o => o.dst.isEmpty) then c
    else { c with ops := c.ops.map (·.drop ks) }

/-- R90: the registers of a destination run: (key, lane whose value it takes, word of the value). -/
def outKeys (e : Env) (c : Code) (n : Nat) : List (Nat × Nat × Nat) :=
  if isZero c then []
  else
    let ls := if e.kind = .group ∧ !isK c then e.act else e.act.take 1
    ls.flatMap fun l => (upto 0 n).map fun j => (regKey e c j l, l, j)

/-- Write a destination run from the lanes' values. -/
def writeRun (e : Env) (s : State) (c : Code) (n : Nat) (v : Nat → Nat) : State :=
  let ks := outKeys e c n
  dropKeys (putRegs s e.p (ks.map fun k => (k.1, v k.2.1 / 2 ^ (e.w * k.2.2) % 2 ^ e.w))) e.p (ks.map (·.1))

/-- R90: write a predicate in every `Active` lane. -/
def writePred (e : Env) (s : State) (c : Code) (v : Nat → Bool) : State :=
  let ks := e.act.map fun l => (regKey e c 0 l, (v l).toNat)
  dropKeys (putRegs s e.p ks) e.p (ks.map (·.1))

/-- R55: the words of the record that a destination pushes. -/
def pushWords (e : Env) (w : Nat) (v : Nat → Nat) : List Word :=
  if e.kind = .group then (upto 0 w).map fun j => if e.act.contains j then BitVec.ofNat 32 (v j) else 0
  else if e.act.isEmpty then List.replicate w 0
  else (upto 0 w).map fun j => if j = 0 then BitVec.ofNat 32 (v 0) else if j = 1 then BitVec.ofNat 32 (v 0 / 2 ^ 32) else 0

/-- R55, R57, R59: push one record at the tail of a queue; its release is performed when it becomes visible. -/
def pushQueue (e : Env) (s : State) (q : Nat) (v : Nat → Nat) : State :=
  modQueue s e.tm.inst q fun x => pushRec x (pushWords e (qWords x.decl) v) (some e.p) none 0 false e.com.nextOp
    (.core e.core)

/-- R365: a destination of classes 0 to 2. -/
def writeOut (e : Env) (s : State) (c : Code) (v : Nat → Nat) : State :=
  if isZero c then s else if isQ c then pushQueue e s (qNum c) v else writeRun e s c 1 v

/-! ### Completing an issue -/

/-- R300: count an issue; a waypoint restarts the count. -/
def counted (e : Env) (s : State) : State :=
  modCom s e.p fun c => { c with wcount := c.wcount + 1, stall := none, wait := none }

/-- The record of a new operation of the issuer. -/
def newOp (e : Env) (com : Common) (kind : OpKind) (lanes : List Lane) (dst : List (Nat × Nat × Nat)) (value : Nat) : Op :=
  ⟨com.nextOp, e.i, e.pc, cfFlag e.s.lw.toNat e.c, kind, e.act, lanes, dst, value, false⟩

/-- R91, R348: the issue leaves an operation outstanding, with its attached flag; what it is to write, no earlier one
does. -/
def addOp (e : Env) (s : State) (kind : OpKind) (lanes : List Lane) (dst : List (Nat × Nat × Nat)) (value : Nat) : State :=
  modCom s e.p fun c =>
    let o := newOp e c kind lanes dst value
    let c := match o.flag with
      | some f => flagUp c f
      | none => c
    { c with ops := (if dst.isEmpty then c.ops else c.ops.map (·.drop (dst.map (·.1)))) ++ [o], nextOp := c.nextOp + 1 }

/-- R91, R348: an instruction of fixed latency leaves its attached flag to fall at INSTRUCTION_COMPLETE. -/
def attach (e : Env) (s : State) : State := if e.c.cf = 0 then s else addOp e s .fixed [] [] 0

/-- R67: the frontier, lead or porter falls through. -/
def fall (e : Env) (s : State) : State :=
  match e.p with
  | .group t g => modGroup s t g fun x => { x with thr := mapLanes x.thr 0 e.lanes fun _ h => fallThrough h }
  | .lead t => modLead s t leadFall
  | .porter c n => modPorter s c n porterFall

/-- An instruction whose effect has been made and that goes to the next PC. -/
def done (e : Env) (s : State) : State := fall e (attach e (counted e s))

/-- An instruction whose result is still to come and that goes to the next PC. -/
def later (e : Env) (s : State) (kind : OpKind) (lanes : List Lane) (dst : List (Nat × Nat × Nat)) (value : Nat) : State :=
  fall e (addOp e (counted e s) kind lanes dst value)

/-! ### Performing an instruction -/

/-- R333: a line whose parity failed leaves the caches, so that a resume fetches it again. -/
def dropLine (s : State) (core va : Nat) : State :=
  { s with icache := s.icache.filter fun l => !(l.core == core && l.va == va),
           fbuf := s.fbuf.filter fun l => !(l.core == core && l.va == va) }

/-- A fetch is sent, unless it is in flight. -/
def wantLine (s : State) (core ctx va : Nat) : State :=
  if s.want.contains (core, ctx, va) then s else { s with want := s.want ++ [(core, ctx, va)] }

/-- R193: cause of a porter's inner fault: that of R133, from a memory trap's detail. -/
def innerCause (i : Instr) (code : Byte) (detail : Nat) : Nat :=
  match i with
  | .xldi _ _ _ _ _ _ true => 0
  | _ => if code = tcPage ∨ code = tcAccess then bits detail 12 4 else 0

/-- What becomes of an issue that stops: a trap is taken, a stall recorded, a walk started. A porter faults instead of
trapping (R192). -/
def settle (s : State) (p : Party) (i : Instr) (pc : DWord) (x : Stop) : State :=
  match x with
  | .trap code detail va =>
    let s := if code = tcPage then dropWalk s (ctxOf s p) (va / 4096) else s
    let s := if code = tcParity then dropLine s (coreOf s p) (va / 64 * 64) else s
    match p with
    | .porter c n =>
      let roff := (getPorter s c n).roff
      porterStop s c n ⟨pc, code, innerCause i code detail, detail % 2 ^ 16, roff, BitVec.ofNat 64 va⟩
    | _ => raiseTrap s p code detail pc va
  | .deferred id detail va =>
    match (getCom s p).bind fun c => c.ops.find? fun o => o.id == id with
    | some o => raiseDeferred s p o detail va
    | none => s
  | .stall r => stallParty s p r
  | .fetch va => recordStall (wantLine s (coreOf s p) (ctxOf s p) va) p .fetch
  | .walk vpn => recordStall (startWalk s (ctxOf s p) (coreOf s p) (partOf s p) vpn) p .translation
  | .fetchWalk vpn => recordStall (startWalk s (ctxOf s p) (coreOf s p) (partOf s p) vpn) p .fetch

/-- R291, R346, R56: every check and stall that precedes an entry's own; the environment returned has its records
popped. -/
def ready (e : Env) (r : Rules) : Except Stop Env :=
  match statics e r with
  | .error x => .error x
  | .ok _ => match scoreboard e r with
    | .error x => .error x
    | .ok _ => match takes e r with
      | .error x => .error x
      | .ok e =>
        let fs := r.fields e.kind
        match markerTrap e fs with
        | .error x => .error x
        | .ok _ => match poisonTrap e r with
          | .error x => .error x
          | .ok _ => match queueTraps e fs with
            | some d => .error (.trap tcQueue d 0)
            | none => .ok (popAll e)

/-- One issue of an encoded instruction by `s.turn`: its checks and stalls, then its effect. -/
def perform (i : Instr) (c : Ctl) (r : Rules) (s : State) (body : Env → Except Stop State) :
    Host.Outcome State Fault Refusal :=
  match s.turn with
  | none => .refused .noParty
  | some p => match getTeam s (teamOf s p) with
    | none => .refused .noParty
    | some _ => match envOf s p i c with
      | none => .next (recordStall s p .meetWait)
      | some e => match ready e r with
        | .error x => .next (settle s p i e.pc x)
        | .ok e' => match body e' with
          | .error x => .next (settle s p i e.pc x)
          | .ok s' => .next s'

end Sys2Proof.Machine
end

