-- ==== Sys2Proof/Machine/Fetch.lean ====
section
/-! DEFINITION. Fetch lines, the checks before an issue, and the checks of a branch target (R66 to R68, R133, R134,
R146, R164, R169 to R171, R290, R291, R332 to R335). -/

namespace Sys2Proof.Machine

/-- R332: instruction word k and line word of a line. -/
def slotWord (line k : Nat) : Nat := bits line (96 * k) 96
def lineWord (line : Nat) : Nat := bits line 480 32

/-- R334: the `TGT` bit of a slot. -/
def tgtBit (line k : Nat) : Bool := tb (lineWord line) (20 + k)

/-- R333: both parity bits agree. -/
def parityOk (line : Nat) : Bool :=
  popCount 240 line % 2 == bits line 508 1 &&
  (popCount 240 (line / 2 ^ 240) + popCount 28 (lineWord line)) % 2 == bits line 509 1

/-- The line at `va` in a list of held lines. -/
def findLine (l : List CodeLine) (core ctx va : Nat) : Option CodeLine :=
  l.find? fun x => x.core == core && x.ctx == ctx && x.va == va

/-- R134: the checks of a line that a group or lead is about to issue from. -/
def fetchCheck (s : State) (p : Party) (va : Nat) : Except Stop Unit :=
  match checkParty s (ctxOf s p) (coreOf s p) (partOf s p) va 1 .fetch with
  | .ok _ => .ok ()
  | .bad code cause => .error (.trap code (cause * 4096 + 2048) va)
  | .walk vpn => .error (.fetchWalk vpn)

/-- The line as the core holds it, ahead of issue or in its instruction cache; a line whose parity failed twice traps
(R146), and one that is not held is waited for. -/
def heldLine (s : State) (p : Party) (va : Nat) : Except Stop CodeLine :=
  match (findLine s.fbuf (coreOf s p) (ctxOf s p) va).or (findLine s.icache (coreOf s p) (ctxOf s p) va) with
  | some l => if l.bad then .error (.trap tcParity (va % 2 ^ 32) va) else .ok l
  | none => .error (.fetch va)

/-- R134, R164, R315: the line that a group or lead issues from. It is checked when the party arrives in it, and when it is
fetched; what the party issues next from the same line stands on that check. A line fetched once stays ahead of issue
until FBAR. -/
def fetchLine (s : State) (p : Party) (va : Nat) (arrived : Bool) : Except Stop (State × Nat) :=
  let held := match heldLine s p va with
    | .error (.fetch _) => false
    | _ => true
  match (if arrived || !held then fetchCheck s p va else .ok ()), heldLine s p va with
  | .error x, _ => .error x
  | .ok _, .error x => .error x
  | .ok _, .ok l =>
    .ok (if (findLine s.fbuf (coreOf s p) (ctxOf s p) va).isSome then s else { s with fbuf := s.fbuf ++ [l] }, l.data)

/-- R169: a line of a core's porter store. The manual does not say what lies past the last line, 0x7FC0: a fall-through from
it reads a line of zeros, as the rest of the store (DESIGN CHOICE, log 27). -/
def storeLine (s : State) (core va : Nat) : Nat := Tab.get (getCore s core).pstore (va / 64) 0

/-- R68: the check of a branch target before any thread moves. -/
def targetCheck (e : Env) (tgt : DWord) : Except Stop Unit :=
  let va := lineOf tgt
  let test : Nat → Except Stop Unit := fun line =>
    if tgtBit line (slotOf tgt) then .ok () else .error (.trap tcTarget (tgt.toNat % 2 ^ 32) 0)
  match e.p with
  | .porter c _ => if e.s.badStore.contains (c, va / 64) then .ok () else test (storeLine e.s c va)
  | _ => match fetchCheck e.s e.p va, heldLine e.s e.p va with
    | .error (.trap _ _ _), _ => .ok ()
    | .error x, _ => .error x
    | .ok _, .error (.trap _ _ _) => .ok ()
    | .ok _, .error x => .error x
    | .ok _, .ok l => test l.data

/-- R68: the target of a BRA-format instruction. -/
def targetPc (pc : DWord) (t : Target) : DWord :=
  BitVec.ofNat 64 (lineOf pc) + (t.off.signExtend 64) * 64 + t.slot.setWidth 64

/-- R300: the waypoints among the encoded instructions. -/
def isWaypoint : Instr → Bool
  | .waypt .. | .rstlbl .. => true
  | _ => false

/-- R291, R346: the trap of a word that is no instruction, or of a malformed line. -/
def wordTrap (s : State) (p : Party) (b : Bad) : Stop :=
  let limit := match getCom s p with
    | some c => decide (4096 ≤ c.wcount)
    | none => false
  if limit then .trap tcBound (if kindOf p = .lead then 0x1001 else 0x1000) 0
  else match b with
    | .detail n => .trap tcIllegal n 0
    | .selector c d a sel =>
      let k := kindOf p
      let alloc := ((getTeam s (teamOf s p)).map (·.alloc)).getD 8
      let fs : List Field := [⟨d, .kout (if k = .group then 2 else 1)⟩, ⟨a, .uni (if k = .group then 2 else 1)⟩]
      if ctlBad k s.lw.toNat c then .trap tcIllegal 0 0
      else match fs.find? (codeIllegal k 5 alloc) with
        | some f => .trap tcIllegal f.code.toNat 0
        | none => .trap tcIllegal sel 0
    | .stampSize c a b =>
      let k := kindOf p
      let alloc := ((getTeam s (teamOf s p)).map (·.alloc)).getD 8
      if ctlBad k s.lw.toNat c then .trap tcIllegal 0 0
      else match [Field.mk a (.reg 1), ⟨b, .reg 1⟩].find? (codeIllegal k 6 alloc) with
        | some f => .trap tcIllegal f.code.toNat 0
        | none => .trap tcIllegal 0 0

/-- R92, R293: the WAIT test of a line just arrived in. -/
def waitTest (c : Common) (mask : Nat) : Except Stop Unit :=
  match c.ops.find? fun o => o.poisoned && (match o.flag with | some f => tb mask f | none => false) with
  | some o => .error (deferOf o)
  | none => if waitSet c mask then .error (.stall .lineWait) else .ok ()

/-- R286, R292, R296, R299, R171, R191, R195: may a party issue? -/
def mayIssue (s : State) (p : Party) : Bool :=
  let t := teamOf s p
  match getTeam s t with
  | none => false
  | some x =>
    let core := coreOf s p
    let k := getCore s core
    let h := isHandler t
    let ready := x.started && x.resident && !k.zeroing && !k.copying && (!h || !k.blocked)
    ready && (match p with
      | .group _ g => match Tab.find x.groups g with
        | some y => y.com.st == .running
        | none => false
      | .lead _ => x.lead.com.st == .running
      | .porter c n =>
        let y := getPorter s c n
        y.st == .running && y.pending.isNone && (!y.dropped || y.roff != 0) && !x.preempt && !y.xfers.any (queueSide ·.instr))

/-- What a party's issue comes to: a state, when it stops before an instruction is chosen, or the instruction and the
state in which `exec` performs it. -/
inductive Issued where
  | stopped (s : State)
  | run (i : Instr) (s : State)
  deriving DecidableEq, Repr

/-- From a line's word to an instruction: R332, R334, R67, R333, R346. -/
def issueSlot (s : State) (p : Party) (pc : DWord) (line : Nat) (entered arrived : Bool) : Issued :=
  let stop := fun x => Issued.stopped (settle s p (.nop ⟨false, 0, 0⟩) pc x)
  let lw := lineWord line
  let s1 := { s with turn := some p, lw := BitVec.ofNat 32 lw }
  if entered && !tgtBit line (slotOf pc) then stop (.trap tcTarget (pc.toNat % 2 ^ 32) 0)
  else
    let wait : Except Stop Unit := match getCom s p with
      | some c => if arrived then waitTest c (lwWait lw) else .ok ()
      | none => .ok ()
    match wait with
    | .error x => stop x
    | .ok _ =>
      let malformed := if kindOf p = .porter then arrived && lwPorterBad lw else lwMalformed lw
      match decode (slotWord line (slotOf pc)) with
      | .ok i => if malformed && !(isWaypoint i) then stop (wordTrap s1 p (.detail 0))
        else if malformed then stop (.trap tcIllegal 0 0)
        else .run i s1
      | .error b => stop (wordTrap s1 p (if malformed then .detail 0 else b))

/-- R67, R70, R134, R334: one try of a party to issue. R67 speaks of a party's arrival in a line and says nothing of a group
whose threads are divergent. Arrival is kept per thread: the WAIT mask is tested when a thread of the issuing frontier has
arrived in the line and not yet been tested there, and a switch of the frontier back to a line is no arrival (DESIGN
CHOICE, log 18). -/
def issueOf (s : State) (p : Party) : Issued :=
  if !mayIssue s p then .stopped s
  else match p with
  | .porter c n =>
    let x := getPorter s c n
    let va := lineOf x.pc
    if s.badStore.contains (c, va / 64) then
      .stopped (settle s p (.nop ⟨false, 0, 0⟩) x.pc (.trap tcParity (va % 2 ^ 32) 0))
    else issueSlot s p x.pc (storeLine s c va) x.entered x.arrived
  | _ =>
    let here : Option (DWord × Bool × Bool) := match p with
      | .lead t => (getTeam s t).map fun x => (x.lead.pc, x.lead.entered, x.lead.arrived)
      | .group t g => (getGroup s t g).bind fun x => match frontier x with
        | some (y, ls, pc) => some (pc, ls.any fun l => (thread y l).entered, ls.any fun l => (thread y l).arrived)
        | none => none
      | _ => none
    match here with
    | none => .stopped (recordStall s p .meetWait)
    | some (pc, entered, arrived) => match fetchLine s p (lineOf pc) arrived with
      | .error x => .stopped (settle s p (.nop ⟨false, 0, 0⟩) pc x)
      | .ok (s', line) => issueSlot s' p pc line entered arrived

end Sys2Proof.Machine
end

