-- ==== Sys2Proof/Machine/Scratch.lean ====
section
/-! DEFINITION. Scratchpad windows: addresses, checks, reads, writes and poison (R93 to R95, R147, R158). -/

namespace Sys2Proof.Machine

/-- Do two runs of bytes share one? -/
def overlaps (a m b n : Nat) : Bool := decide (a < b + n) && decide (b < a + m)

/-- R35: the half of a team that a core holds: 0 home, 1 partner. -/
def halfOf (t : Team) (core : Nat) : Nat := if core = t.core then 0 else 1

def winGet (t : Team) (half : Nat) : Tab Byte := if half = 0 then t.win0 else t.win1
def winPoison (t : Team) (half : Nat) : List Nat := if half = 0 then t.wpo0 else t.wpo1

/-- R93: the window half that an address names from a core. -/
def spHalf (t : Team) (core addr : Nat) : Nat :=
  if tb addr 24 then 1 - halfOf t core else halfOf t core

/-- R93: the checks of one address, in the order of the table; the answer is the trap code. -/
def spCheck (t : Team) (addr size : Nat) : Option Byte :=
  if bits addr 25 7 ≠ 0 ∨ t.window < addr % 2 ^ 24 + size ∨ (tb addr 24 ∧ !t.pair) then some tcAccess
  else if addr % size ≠ 0 then some tcMisaligned
  else none

/-- The 8-byte words that an access touches. -/
def spWords (off n : Nat) : List Nat := upto (off / 8) ((off + n - 1) / 8 + 1 - off / 8)

/-- Bytes of a window. -/
def spBytes (t : Team) (half off n : Nat) : List Byte := (upto off n).map fun a => Tab.get (winGet t half) a 0

/-- R147: does an access touch a poisoned word? -/
def spBad (t : Team) (half off n : Nat) : Bool := (spWords off n).any fun w => (winPoison t half).contains w

/-- Write bytes into a window table. -/
def winPut (w : Tab Byte) (off : Nat) (l : List Byte) : Tab Byte :=
  match l with
  | [] => w
  | b :: r => winPut (Tab.put w off b 0) (off + 1) r

/-- R147: the poison marks after a write: a word written whole is clean (or poisoned by a poisoned write), a word
written in part keeps its mark. -/
def markWords (marks : List Nat) (off n : Nat) (bad : Bool) : List Nat :=
  (spWords off n).foldl (fun m w =>
    if bad then insSorted m w
    else if off ≤ 8 * w ∧ 8 * w + 8 ≤ off + n then m.filter (· != w)
    else m) marks

/-- A write of a team's window. -/
def spWrite (t : Team) (half off : Nat) (l : List Byte) (bad : Bool) : Team :=
  if l.isEmpty then t
  else if half = 0 then { t with win0 := winPut t.win0 off l, wpo0 := markWords t.wpo0 off l.length bad }
  else { t with win1 := winPut t.win1 off l, wpo1 := markWords t.wpo1 off l.length bad }

/-- R339: the 32-bit effective address of a scratchpad access. -/
def spAddr (e : Env) (a b : Code) (off : BitVec 24) (idx : Bool) (sh : BitVec 3) (lane : Nat) : Nat :=
  let i : Int := if idx then sext (val e b lane) 32 * ((2 ^ sh.toNat : Nat) : Int) else 0
  wrap ((regVal e a 0 lane : Int) + i + sext off.toNat 24) 32

/-- R93: check every `Active` lane; the lowest failing lane's trap, with its address as detail. -/
def spLanes (e : Env) (size : Nat) (addr : Nat → Nat) : Except Stop (List (Nat × Nat)) :=
  mapE e.act fun l => match spCheck e.tm (addr l) size with
    | some code => .error (.trap code (addr l) 0)
    | none => .ok (l, addr l)

/-- R371, R424: every lane's words are checked for poison before any lane acts. -/
def spPoison (e : Env) (size : Nat) (ls : List (Nat × Nat)) : Except Stop Unit :=
  match ls.find? fun x => spBad e.tm (spHalf e.tm e.core x.2) (x.2 % 2 ^ 24) size with
  | some x => .error (.trap tcPoison (x.1 + 0x100) 0)
  | none => .ok ()

end Sys2Proof.Machine
end

