-- ==== Sys2Proof/Machine/Mem.lean ====
section
/-! DEFINITION. Class 3: loads, stores, atomics, monitors, fences, prefetch and range maintenance (R133 to R166, R339,
R366 to R371, R393 to R395, R411, R421 to R424, R432 to R434, R441, R455, R456, R469 to R471). -/

namespace Sys2Proof.Machine

/-- R153: does a scope leave the core? -/
def scopeLeaves (t : Team) (scope : BitVec 3) : Bool := decide (4 ≤ scope.toNat) || (scope == 2 && t.pair)

/-- R339: the 64-bit effective address. -/
def eaOf (e : Env) (m : Addr) (lane : Nat) : Nat :=
  let i : Int := if m.idx then sext (val e m.b lane) 32 * ((2 ^ m.sh.toNat : Nat) : Int) else 0
  wrap ((val64 e m.a lane : Int) + i + sext m.off.toNat 24) 64

/-- Registers of a 64-bit base, and of an access of 2^size bytes (R422). -/
def baseRun (k : Kind) : Nat := if k = .group then 2 else 1
def dataRun (k : Kind) (size : Nat) : Nat := if k = .group then max 1 (2 ^ size / 4) else max 1 (2 ^ size / 8)

/-- R339: the fields of an address. -/
def addrFields (k : Kind) (m : Addr) : List Field :=
  ⟨m.a, .reg (baseRun k)⟩ :: if m.idx then [⟨m.b, .src false⟩] else []

/-- R135. -/
def memDetail (cause lane : Nat) (wr : Bool) : Nat := cause * 4096 + (if wr then 1024 else 0) + lane

/-- R133: check every `Active` lane before any lane accesses memory. -/
def physLanes (e : Env) (size : Nat) (k : Acc133) (wr : Bool) (ea : Nat → Nat) :
    Except Stop (List (Nat × Nat × Phys)) :=
  mapE e.act fun l => match checkParty e.s e.ctx e.core (partOf e.s e.p) (ea l) size k with
    | .ok p => .ok (l, ea l, p)
    | .bad code cause => .error (.trap code (memDetail cause l wr) (ea l))
    | .walk vpn => .error (.walk vpn)

/-! ### Order among an agent's own accesses -/

/-- R152, R395, R411: the operations that later accesses of the agent wait for; `reads`: the access loads. -/
def holdsBack (o : Op) (write reads : Bool) : Bool :=
  match o.instr with
  | .ld _ _ _ m _ | .atom _ _ _ _ _ m _ | .monw _ _ _ _ _ m _ => moAcq m
  | .st _ _ _ _ m | .red _ _ _ _ m _ => m.order == 3
  | .fence _ _ order => write || order != 2
  | .cinv .. => reads
  | _ => false

/-- R395: an access that loads. -/
def loads : Instr → Bool
  | .ld .. | .lds .. | .atom .. | .atomb .. | .monw .. => true
  | _ => false

/-- R149: an operation that still has a load of some `Active` lane to return. -/
def loadsLane (o : Op) (act : List Nat) : Bool :=
  o.kind == .access && !o.poisoned && (match o.instr with
    | .st .. | .red .. => false
    | _ => true) && o.lanes.any fun l => l.done.isNone && act.contains l.lane

/-- Bytes of one lane of an access to memory. -/
def accessBytes : Instr → Nat
  | .ld _ _ _ o _ | .st _ _ _ _ o | .atom _ _ _ _ _ o _ | .red _ _ _ _ o _ | .monw _ _ _ _ _ o _ => 2 ^ o.size.toNat
  | _ => 0

/-- R150, R423, R432: an access that is performed after every earlier one of its agent: a release, and an LD or MONW with
ORDER 3. -/
def isRelease : Instr → Bool
  | .ld _ _ _ o _ | .st _ _ _ _ o | .atom _ _ _ _ _ o _ | .red _ _ _ _ o _ | .monw _ _ _ _ _ o _ => moRel o
  | _ => false

/-- R149, R150, R152, R156, R158: an access waits for the operations that order it, a store or an atomic to memory for
every earlier load of its agent, a release for every earlier access of its agent, and any access for an earlier one of
its agent to one of the same bytes. -/
def accessWait (e : Env) (write : Bool) (places : List (Nat × Nat)) : Except Stop Unit :=
  if e.com.ops.isEmpty then .ok ()
  else
    let held := e.com.ops.any fun o => !o.poisoned && holdsBack o write (loads e.i) && o.active.any e.act.contains
    let before := write && !places.isEmpty && e.com.ops.any fun o => loadsLane o e.act
    let earlier := isRelease e.i && e.com.ops.any fun o => o.kind == .access && !o.poisoned && o.lanes.any fun l =>
      l.done.isNone && e.act.contains l.lane
    let same := e.com.ops.any fun o => o.kind == .access && !o.poisoned && o.lanes.any fun l =>
      l.done.isNone && places.any fun x => x.1 == l.lane && overlaps x.2 (accessBytes e.i) l.pa (accessBytes o.instr)
    if held || before || earlier || same then .error (.stall .scoreboard) else .ok ()

/-- The lanes of an access, each with the address it names. -/
def placesOf (ls : List (Nat × Nat × Phys)) : List (Nat × Nat) := ls.map fun x => (x.1, x.2.2.pa)

/-! ### Loads and stores -/

/-- R422: a loaded value extended to the register width. -/
def extendTo (w size : Nat) (sx : Bool) (v : Nat) : Nat :=
  let n := 8 * 2 ^ size
  if sx ∧ n < w then wrap (sext v n) w else v

/-- R152, R153: what serves a load at issue: the write buffer and L1, or the write buffer alone for an acquire that
leaves the core and on an uncached page. -/
def nearValue (s : State) (core : Nat) (p : Phys) (n : Nat) (wbOnly : Bool) : Option (Nat × Bool) :=
  if wbOnly then
    match wbFind s core (p.pa / 32) with
    | some e => if e.mask.toNat = fullMask then readNear s core p.pa p.key n else none
    | none => none
  else readNear s core p.pa p.key n

/-- One lane of a new access. -/
def newLane (l va : Nat) (p : Phys) (pol : BitVec 4) (data cmp : Nat) : Lane :=
  { lane := l, va := BitVec.ofNat 64 va, pa := p.pa, key := p.key, l1 := polLevel (pol.toNat % 4) p.ca false,
    sc := polLevel (pol.toNat / 4) p.ca true, part := p.scp, data := data, cmp := cmp, done := none, bad := false }

/-- R423. -/
def execLd (c : Ctl) (d : Code) (m : Addr) (o : Mo) (sx : Bool) (s : State) : Host.Outcome State Fault Refusal :=
  perform (.ld c d m o sx) c
    { fields := fun k => ⟨d, .out (dataRun k o.size.toNat)⟩ :: addrFields k m
      modBad := fun e => sx && e.kind == .group && decide (2 ≤ o.size.toNat) } s fun e =>
    let n := 2 ^ o.size.toNat
    match physLanes e n .load false (eaOf e m) with
    | .error x => .error x
    | .ok ls => match accessWait e false (placesOf ls) with
      | .error x => .error x
      | .ok _ =>
        let far := moAcq o && scopeLeaves e.tm o.scope
        let lanes := ls.map fun x =>
          let y := newLane x.1 x.2.1 x.2.2 o.pol 0 0
          match nearValue e.s e.core x.2.2 n (far || x.2.2.ca == 1) with
          | some (v, b) => { y with done := some v, bad := b }
          | none => y
        .ok (later e e.s .access lanes (outKeys e d (dataRun e.kind o.size.toNat)) 0)

/-- R217: inside an open region the team's stores trap. -/
def regionTrap (e : Env) : Except Stop Unit :=
  if e.act ≠ [] ∧ e.tm.region.isSome then .error (.trap tcRestart (opOf e.i) 0) else .ok ()

/-- R470: a poisoned data register. -/
def dataPoison (e : Env) (b : Code) (n : Nat) : Except Stop Unit :=
  if e.kind ≠ .group ∨ isZero b ∨ e.g.vpoison = [] then .ok ()
  else match e.act.find? fun l => (upto 0 n).any fun j => e.g.vpoison.contains (regKey e b j l) with
    | some l => .error (.trap tcPoison (l + 0x200) 0)
    | none => .ok ()

/-- R470: the stores of the lanes, in ascending order. A store to an uncached page goes to its slice (R138). -/
def storeLanes (e : Env) (s : State) (pol : BitVec 4) (n : Nat) (data : Nat → Nat)
    (ls : List (Nat × Nat × Phys)) : State :=
  ls.foldl (fun s x =>
    let p := x.2.2
    let s := storeBytes s e.core p (polLevel (pol.toNat % 4) p.ca false) (polLevel (pol.toNat / 4) p.ca true)
      (bytesOf n (data x.1)) false
    if p.ca == 1 then drainSector s e.core (p.pa / 32) else s) s

/-- R470: a release that leaves the core is performed later, at the slices (R153), by SLICE_ACCESS. -/
def execSt (c : Ctl) (a b : Code) (off : BitVec 24) (o : Mo) (s : State) : Host.Outcome State Fault Refusal :=
  perform (.st c a b off o) c
    { fields := fun k => [⟨a, .reg (baseRun k)⟩, ⟨b, .data (dataRun k o.size.toNat)⟩] } s fun e =>
    let n := 2 ^ o.size.toNat
    let run := dataRun e.kind o.size.toNat
    match regionTrap e with
    | .error x => .error x
    | .ok _ => match physLanes e n .store true (eaOf e ⟨a, 0, off, false, 0⟩) with
      | .error x => .error x
      | .ok ls => match dataPoison e b run with
        | .error x => .error x
        | .ok _ => match accessWait e true (placesOf ls) with
          | .error x => .error x
          | .ok _ =>
            let data := fun l => runVal e b run l
            .ok (if moRel o && scopeLeaves e.tm o.scope && !e.act.isEmpty then
                later e e.s .access (ls.map fun x => newLane x.1 x.2.1 x.2.2 o.pol (data x.1) 0) [] 0
              else done e (storeLanes e e.s o.pol n data ls))

/-! ### Scratchpad -/

/-- R424. -/
def execLds (c : Ctl) (d : Code) (m : Addr) (size : BitVec 3) (sx : Bool) (s : State) :
    Host.Outcome State Fault Refusal :=
  perform (.lds c d m size sx) c
    { fields := fun k => [⟨d, .out (dataRun k size.toNat)⟩, ⟨m.a, .reg 1⟩] ++ if m.idx then [⟨m.b, .src false⟩] else [] }
    s fun e =>
    let n := 2 ^ size.toNat
    match spLanes e n (spAddr e m.a m.b m.off m.idx m.sh) with
    | .error x => .error x
    | .ok ls => match accessWait e false [] with
      | .error x => .error x
      | .ok _ => match spPoison e n ls with
        | .error x => .error x
        | .ok _ =>
          let get := fun l => match ls.find? fun x => x.1 == l with
            | some x => ofBytes (spBytes e.tm (spHalf e.tm e.core x.2) (x.2 % 2 ^ 24) n)
            | none => 0
          .ok (done e (writeRun e e.s d (dataRun e.kind size.toNat) fun l => extendTo e.w size.toNat sx (get l)))

/-- R471. -/
def execSts (c : Ctl) (a b : Code) (off : BitVec 24) (size : BitVec 3) (s : State) : Host.Outcome State Fault Refusal :=
  perform (.sts c a b off size) c { fields := fun k => [⟨a, .reg 1⟩, ⟨b, .data (dataRun k size.toNat)⟩] } s fun e =>
    let n := 2 ^ size.toNat
    let run := dataRun e.kind size.toNat
    match spLanes e n (spAddr e a 0 off false 0) with
    | .error x => .error x
    | .ok ls => match dataPoison e b run with
      | .error x => .error x
      | .ok _ => match accessWait e true [] with
        | .error x => .error x
        | .ok _ => .ok (done e (modTeam e.s e.t fun t => ls.foldl (fun t x =>
            spWrite t (spHalf t e.core x.2) (x.2 % 2 ^ 24) (bytesOf n (runVal e b run x.1)) false) t))

/-! ### Atomics -/

/-- R367: the new value of an n-bit location. -/
def atomicNew (op n old b cmp : Nat) : Nat :=
  match op with
  | 0 => (old + b) % 2 ^ n
  | 1 => if sext b n < sext old n then b else old
  | 2 => if sext old n < sext b n then b else old
  | 3 => min old b
  | 4 => max old b
  | 5 => old &&& b
  | 6 => old ||| b
  | 7 => old ^^^ b
  | 8 => b
  | 9 => if old = cmp then b else old
  | _ => (fpAdd fp32 0 false (fpDecode fp32 old) (fpDecode fp32 b)).bits

/-- R366, R368: the lanes of an atomic: data, comparand. -/
def atomicLanes (e : Env) (d b : Code) (o : Mo) (op : BitVec 4) (ls : List (Nat × Nat × Phys)) : List Lane :=
  let n := 8 * 2 ^ o.size.toNat
  let run := dataRun e.kind o.size.toNat
  ls.map fun x => newLane x.1 x.2.1 x.2.2 o.pol (runVal e b run x.1 % 2 ^ n)
    (if op = 9 then runVal e d run x.1 % 2 ^ n else 0)

/-- R368, R369, R456: the checks, the release, and the lanes sent to their slices. -/
def atomicIssue (e : Env) (d a b : Code) (off : BitVec 24) (o : Mo) (op : BitVec 4) (k : Acc133)
    (dst : List (Nat × Nat × Nat)) : Except Stop State :=
  match regionTrap e with
  | .error x => .error x
  | .ok _ => match physLanes e (2 ^ o.size.toNat) k true (eaOf e ⟨a, 0, off, false, 0⟩) with
    | .error x => .error x
    | .ok ls => match accessWait e true (placesOf ls) with
      | .error x => .error x
      | .ok _ =>
        let s1 := if moRel o && scopeLeaves e.tm o.scope && !e.act.isEmpty then drainCore e.s e.core else e.s
        .ok (later e s1 .access (atomicLanes e d b o op ls) dst 0)

def execAtom (c : Ctl) (d a b : Code) (off : BitVec 24) (o : Mo) (op : BitVec 4) (s : State) :
    Host.Outcome State Fault Refusal :=
  perform (.atom c d a b off o op) c
    { fields := fun k =>
        let n := dataRun k o.size.toNat
        [⟨d, .out n⟩, ⟨a, .reg (baseRun k)⟩, ⟨b, .reg n⟩] ++ if op = 9 then [⟨d, .also n⟩] else [] } s fun e =>
    atomicIssue e d a b off o op .atom (outKeys e d (dataRun e.kind o.size.toNat))

def execRed (c : Ctl) (a b : Code) (off : BitVec 24) (o : Mo) (op : BitVec 4) (s : State) :
    Host.Outcome State Fault Refusal :=
  perform (.red c a b off o op) c
    { fields := fun k => [⟨a, .reg (baseRun k)⟩, ⟨b, .reg (dataRun k o.size.toNat)⟩] } s fun e =>
    atomicIssue e 0xD0 a b off o op .red []

/-- R368, R371: ATOMB, lanes in ascending order at the banks. -/
def execAtomb (c : Ctl) (d a b : Code) (off : BitVec 24) (size : BitVec 3) (op : BitVec 4) (s : State) :
    Host.Outcome State Fault Refusal :=
  perform (.atomb c d a b off size op) c
    { fields := fun k =>
        let n := dataRun k size.toNat
        [⟨d, .out n⟩, ⟨a, .reg 1⟩, ⟨b, .reg n⟩] ++ if op = 9 then [⟨d, .also n⟩] else [] } s fun e =>
    let n := 2 ^ size.toNat
    let run := dataRun e.kind size.toNat
    match spLanes e n (spAddr e a 0 off false 0) with
    | .error x => .error x
    | .ok ls => match accessWait e true [] with
      | .error x => .error x
      | .ok _ => match spPoison e n ls with
        | .error x => .error x
        | .ok _ =>
          let step := fun (acc : Team × List (Nat × Nat)) (x : Nat × Nat) =>
            let half := spHalf acc.1 e.core x.2
            let old := ofBytes (spBytes acc.1 half (x.2 % 2 ^ 24) n)
            let new := atomicNew op.toNat (8 * n) old (runVal e b run x.1 % 2 ^ (8 * n))
              (if op = 9 then runVal e d run x.1 % 2 ^ (8 * n) else 0)
            (spWrite acc.1 half (x.2 % 2 ^ 24) (bytesOf n new) false, acc.2 ++ [(x.1, old)])
          let (_, olds) := ls.foldl step (e.tm, [])
          let s1 := modTeam e.s e.t fun t => (ls.foldl step (t, [])).1
          .ok (done e (writeRun e s1 d run fun l => match olds.find? fun x => x.1 == l with
            | some x => x.2
            | none => 0))

/-- R433. -/
def execMonw (c : Ctl) (d a b : Code) (off : BitVec 24) (o : Mo) (cond : BitVec 4) (s : State) :
    Host.Outcome State Fault Refusal :=
  perform (.monw c d a b off o cond) c
    { fields := fun k =>
        let n := dataRun k o.size.toNat
        [⟨d, .out n⟩, ⟨a, .reg (baseRun k)⟩, ⟨b, .reg n⟩] } s fun e =>
    let run := dataRun e.kind o.size.toNat
    let n := 2 ^ o.size.toNat
    match physLanes e n .monw false (eaOf e ⟨a, 0, off, false, 0⟩) with
    | .error x => .error x
    | .ok ls => match accessWait e false (placesOf ls) with
      | .error x => .error x
      | .ok _ =>
        let lanes := ls.map fun x => newLane x.1 x.2.1 x.2.2 o.pol (runVal e b run x.1 % 2 ^ (8 * n)) 0
        .ok (later e e.s .access lanes (outKeys e d run) 0)

/-- R432: the condition that a monitor waits for. -/
def monCond (cond n x b : Nat) : Bool :=
  match cond with
  | 0 => x == b
  | 1 => x != b
  | 2 => decide (b ≤ x)
  | 3 => decide (b < x)
  | 4 => decide (sext b n ≤ sext x n)
  | 5 => decide (sext b n < sext x n)
  | _ => (x &&& b) != 0

/-! ### Prefetch, fences and range maintenance -/

/-- R441: one lane's line, brought toward the core; a failing lane is dropped. -/
def prefLane (e : Env) (pol : BitVec 4) (s : State) (va : Nat) : State :=
  match checkNow s e.ctx e.core va 1 .load with
  | .error _ => s
  | .ok p =>
    let sc := polLevel (pol.toNat / 4) p.ca true
    let l1 := polLevel (pol.toNat % 4) p.ca false
    let s := touchTlb s e.ctx e.core va
    let s := if 1 ≤ sc then scAllocate s (p.pa / 128) p.scp sc else s
    if 1 ≤ l1 then
      (upto (p.pa / 128 * 4) 4).foldl (fun s n =>
        if (l1Find s e.core n).isSome then s
        else
          let (img, bad) := coreImage s e.core n p.key
          l1Allocate (movedSector s e.ctx n) e.core n l1 img bad) s
    else s

def execPref (c : Ctl) (m : Addr) (pol : BitVec 4) (s : State) : Host.Outcome State Fault Refusal :=
  perform (.pref c m pol) c { fields := fun k => addrFields k m, noPoison := true } s fun e =>
    .ok (done e (e.act.foldl (fun s l => prefLane e pol s (eaOf e m l)) e.s))

/-- R411: with `Active` empty a FENCE orders nothing. -/
def execFence (c : Ctl) (scope order : BitVec 3) (s : State) : Host.Outcome State Fault Refusal :=
  perform (.fence c scope order) c { fields := fun _ => [] } s fun e =>
    .ok (if e.act.isEmpty then done e e.s else later e e.s .fence [] [] 0)

/-- R393: the range of a maintenance instruction: address and length. -/
def rangeOf (e : Env) (a b : Code) (off : BitVec 24) : Nat × Nat :=
  (eaOf e ⟨a, 0, off, false, 0⟩ e.low, val e b e.low % 2 ^ 24)

/-- R394: every page of a range, checked in ascending order: (first address in the page, end, physical). -/
def rangePages (fuel : Nat) (e : Env) (k : Acc133) (va n : Nat) : Except Stop (List (Nat × Nat × Phys)) :=
  match fuel with
  | 0 => .ok []
  | f + 1 =>
    if n = 0 then .ok []
    else match checkParty e.s e.ctx e.core (partOf e.s e.p) va 1 k with
      | .bad code cause => .error (.trap code (memDetail cause e.low false) va)
      | .walk vpn => .error (.walk vpn)
      | .ok p =>
        let m := min n (4096 - va % 4096)
        match rangePages f e k (va + m) (n - m) with
        | .ok r => .ok ((va, m, p) :: r)
        | .error x => .error x

/-- The units of `size` bytes that pieces of a range overlap, by number of the address given. -/
def rangeUnits (size : Nat) (ps : List (Nat × Nat × Phys)) (f : Nat × Nat × Phys → Nat) : List (Nat × Phys) :=
  (ps.flatMap fun p => (upto (f p / size) ((f p + p.2.1 - 1) / size + 1 - f p / size)).map fun u => (u, p.2.2)).eraseDups

/-- R393 to R395: the mould of the range instructions; `act` gives the operation left outstanding and the result for D. -/
def rangeInstr (i : Instr) (c : Ctl) (d : Option Code) (a b : Code) (off : BitVec 24) (k : Acc133) (s : State)
    (act : Env → List (Nat × Nat × Phys) → State × OpKind × Nat) : Host.Outcome State Fault Refusal :=
  perform i c
    { fields := fun kd =>
        (match d with | some x => [⟨x, .out 1⟩] | none => []) ++ [⟨a, .reg (baseRun kd)⟩, ⟨b, .reg 1⟩]
      once := true } s fun e =>
    let (va, n) := rangeOf e a b off
    let dst := match d with
      | some x => outKeys e x 1
      | none => []
    if e.act.isEmpty then .ok (done e e.s)
    else match rangePages (n / 4096 + 2) e k va n with
      | .error x => .error x
      | .ok ps =>
        let (s1, kind, v) := act e ps
        .ok (later e s1 kind [] dst v)

/-- R282, R395: write one dirty line back. -/
def cleanLine (s : State) (line : Nat) : State :=
  { lineBack s line with sc := mapIf s.sc (fun l => l.line == line) fun l => { l with dirty := false, back := none } }

/-- R394: the parts of a range that map device memory; for the others an instruction behaves as for a line that is not
resident. -/
def deviceParts (ps : List (Nat × Nat × Phys)) : List (Nat × Nat × Phys) := ps.filter fun p => !isSys p.2.2.pa

/-- R394: the lines of device memory in a range. -/
def rangeLines (ps : List (Nat × Nat × Phys)) : List (Nat × Phys) := rangeUnits 128 (deviceParts ps) fun p => p.2.2.pa

def execCwb (c : Ctl) (a b : Code) (off : BitVec 24) (s : State) : Host.Outcome State Fault Refusal :=
  rangeInstr (.cwb c a b off) c none a b off .range s fun e ps =>
    let s1 := (rangeUnits 32 (deviceParts ps) fun p => p.2.2.pa).foldl (fun s x => drainSector s e.core x.1) e.s
    ((rangeLines ps).foldl (fun s x => cleanLine s x.1) s1, .value, 0)

def execCinv (c : Ctl) (a b : Code) (off : BitVec 24) (s : State) : Host.Outcome State Fault Refusal :=
  rangeInstr (.cinv c a b off) c none a b off .range s fun e ps =>
    let ls := (rangeLines ps).map (·.1)
    ({ e.s with l1 := e.s.l1.filter fun x => !(x.core == e.core && ls.contains (x.sector / 4)) }, .value, 0)

/-- R395: the cores whose instruction caches a scope covers. -/
def scopeCovers (scope core x : Nat) : Bool :=
  if scope = 3 then x == core else if scope = 4 then x / 2 == core / 2 else true

/-- R395: IINV; the caches drop the lines when it completes (R164). -/
def execIinv (c : Ctl) (a b : Code) (off : BitVec 24) (scope : BitVec 3) (s : State) :
    Host.Outcome State Fault Refusal :=
  rangeInstr (.iinv c a b off scope) c none a b off .rangeExec s fun e ps =>
    (e.s, .iinv e.ctx scope.toNat ((rangeUnits 64 (deviceParts ps) fun p => p.1).map (·.1)), 0)

/-- R141: pin one line in its page's partition; the answer says whether it is pinned. A line that is resident in the ways of
another partition is refused (DESIGN CHOICE, log 23: R141's conditions do not say). -/
def pinLine (s : State) (line : Nat) (p : Phys) : State × Bool :=
  match scFind s line with
  | some l =>
    if l.pinned ∧ l.part = p.scp then (s, true)
    else if !p.pin || isSys (line * 128) || l.part != p.scp then (s, false)
    else
      let q := (devReg s (0x1400 + p.scp)).toNat % 16
      if ((scPeers s (line * 128) p.scp).filter (·.pinned)).length < q then
        ({ s with sc := mapIf s.sc (fun x => x.line == line) fun x => { x with pinned := true } }, true)
      else (s, false)
  | none =>
    if !p.pin || isSys (line * 128) then (s, false)
    else
      let q := (devReg s (0x1400 + p.scp)).toNat % 16
      if ((scPeers s (line * 128) p.scp).filter (·.pinned)).length < q then
        let s1 := scAllocate s line p.scp 2
        if (scFind s1 line).isSome then
          ({ s1 with sc := mapIf s1.sc (fun x => x.line == line) fun x => { x with pinned := true } }, true)
        else (s, false)
      else (s, false)

def execCpin (c : Ctl) (d a b : Code) (off : BitVec 24) (s : State) : Host.Outcome State Fault Refusal :=
  rangeInstr (.cpin c d a b off) c (some d) a b off .range s fun e ps =>
    let (s1, ok, no) := (rangeUnits 128 ps fun p => p.2.2.pa).foldl (fun (acc : State × Nat × Nat) x =>
      let (s, b) := pinLine acc.1 x.1 x.2
      (s, if b then (acc.2.1 + 1, acc.2.2) else (acc.2.1, acc.2.2 + 1))) (e.s, 0, 0)
    (s1, .value, min no 0xFFFF * 2 ^ 16 + min ok 0xFFFF)

/-- R395: unpin lines; they stay resident. -/
def unpinLines (s : State) (ls : List Nat) : State :=
  { s with sc := mapIf s.sc (fun x => ls.contains x.line) fun x => { x with pinned := false } }

def execCunpin (c : Ctl) (d a b : Code) (off : BitVec 24) (s : State) : Host.Outcome State Fault Refusal :=
  rangeInstr (.cunpin c d a b off) c (some d) a b off .range s fun e ps =>
    let hit := (rangeLines ps).filter fun x => match scFind e.s x.1 with
      | some l => l.pinned && l.part == x.2.scp
      | none => false
    let ls := hit.map (·.1)
    (unpinLines e.s ls, .value, min hit.length 0xFFFFFFFF)

end Sys2Proof.Machine
end

