-- ==== Sys2Proof/Machine/CoreEvents.lean ====
section
/-! DEFINITION. The events of the cores and of the memory system: handler entry, records and arrivals, slice accesses,
fills, atomics, drains, monitors, walks and line fills (R57, R127, R131, R142 to R144, R154, R155, R162, R164, R295,
R333, R366 to R370, R377, R433, R456). -/

namespace Sys2Proof.Machine

/-- HANDLER_ENTRY (R295, R296). -/
def execHandlerEntry (core : Nat) (s : State) : Host.Outcome State Fault Refusal := .next (enterHandler s core)

/-- An access of a party that is earlier than operation `before` is still due. -/
def partyDue (s : State) (p : Party) (before : Nat) : Bool :=
  match getCom s p with
  | some c => accessDue c before
  | none => false

/-- QUEUE_RECORD_VISIBLE (R57, R59, R243). -/
def recordReady (s : State) (inst q : Nat) : Bool :=
  match (getQueue s inst q).bind reserved with
  | some r => match r.tag with
    | some p => !partyDue s p r.after
    | none => true
  | none => false

/-- R59, R150, R153: the release of the record that is about to become visible, when a party or a porter pushed it. -/
def recordRelease (s : State) (inst q : Nat) : State :=
  match (getQueue s inst q).bind reserved with
  | some r => match r.tag, r.origin with
    | some _, .core c => pushOrder s c inst q
    | _, _ => s
  | none => s

def execQueueRecordVisible (inst q : Nat) (s : State) : Host.Outcome State Fault Refusal :=
  if recordReady s inst q then
    let s1 := modQueue (recordRelease s inst q) inst q fun x => { x with recs := makeVisible x.recs (s.seen + 1) }
    .next { modInst s1 inst fun x => { x with qseen := insSorted x.qseen q } with seen := s.seen + 1 }
  else .next s

/-- BARRIVE_ARRIVAL_APPLIED (R153, R377 steps 2 and 3): on a pair barrier the release drains the issuer's core. -/
def execBarriveArrivalApplied (core entry : Nat) (s : State) : Host.Outcome State Fault Refusal :=
  let b : BarRef := ⟨core, entry, 0⟩
  match getBar s b with
  | none => .next s
  | some x => match x.pend with
    | [] => .next s
    | (n, p, before) :: rest =>
      if partyDue s p before then .next s
      else
        let s1 := if x.pair then drainCore s (coreOf s p) else s
        .next (barDrop (barArrive (modBar s1 b fun y => { y with pend := rest }) b (coreOf s p) n) b)

/-! ### Accesses of groups and leads -/

def findOp (s : State) (p : Party) (id : Nat) : Option Op := (getCom s p).bind fun c => c.ops.find? fun o => o.id == id

/-- Change one lane of an operation. -/
def modLane (s : State) (p : Party) (id lane : Nat) (f : Lane → Lane) : State :=
  modCom s p fun c => { c with ops := mapIf c.ops (fun o => o.id == id) fun o =>
    { o with lanes := mapIf o.lanes (fun l => l.lane == lane) f } }

def isLoad : Instr → Bool
  | .ld .. => true
  | _ => false

/-- The lane of an access that waits to be performed. -/
def dueLane (o : Op) (lane : Nat) : Option Lane := o.lanes.find? fun l => l.lane == lane && l.done.isNone

/-- A load's lane is performed at its slice (R152, R155). -/
def loadLane (s : State) (p : Party) (o : Op) (l : Lane) : State :=
  let (s, v, bad) := readSlice s (coreOf s p) l.pa l.key (accessBytes o.instr) l.l1 l.sc l.part
  modLane s p o.id l.lane fun y => { y with done := some v, bad := bad }

def isStore : Instr → Bool
  | .st .. => true
  | _ => false

/-- R153, R470: a lane of a releasing store is performed: the core's write buffer drains, and the lane goes directly to its
slice. -/
def storeLane (s : State) (p : Party) (o : Op) (l : Lane) : State :=
  let core := coreOf s p
  let s1 := storeBytes (drainCore s core) core ⟨l.pa, l.key, 0, l.part, false, false⟩ l.l1 l.sc
    (bytesOf (accessBytes o.instr) l.data) false
  modLane (drainSector s1 core (l.pa / 32)) p o.id l.lane fun y => { y with done := some 0 }

/-- R149: of lanes that store to the same bytes the highest-numbered is performed last. -/
def laneFirst (o : Op) (l : Lane) : Bool :=
  !o.lanes.any fun x => decide (x.lane < l.lane) && x.done.isNone &&
    overlaps x.pa (accessBytes o.instr) l.pa (accessBytes o.instr)

/-- SLICE_ACCESS (R142, R153, R155): the lane is performed, or the miss of its load starts a fill. -/
def execSliceAccess (p : Party) (op lane : Nat) (s : State) : Host.Outcome State Fault Refusal :=
  match findOp s p op with
  | none => .next s
  | some o =>
    if o.kind != .access || !(isLoad o.instr || isStore o.instr) then .next s
    else match dueLane o lane with
      | none => .next s
      | some l =>
        if isStore o.instr then .next (if laneFirst o l then storeLane s p o l else s)
        else
        let line := l.pa / 128
        if l.sc ≠ 0 ∧ (scFind s line).isNone ∧ isSys l.pa = false then
          .next (if s.fills.contains line then s else { s with fills := s.fills ++ [line] })
        else .next (loadLane s p o l)

/-- The groups and leads of the device. -/
def allParties (s : State) : List Party :=
  s.teams.flatMap fun t => t.2.groups.map (fun g => Party.group t.1 g.1) ++ [.lead t.1]

/-- The due lanes of loads on a line (R142). -/
def fillWaiters (s : State) (line : Nat) : List (Party × Op × Lane) :=
  (allParties s).flatMap fun p => match getCom s p with
    | none => []
    | some c => (c.ops.filter fun o => o.kind == .access && isLoad o.instr).flatMap fun o =>
        (o.lanes.filter fun l => l.done.isNone && l.sc != 0 && l.pa / 128 == line).map fun l => (p, o, l)

/-- SC_FILL_COMPLETE (R142): one fill serves every read that joined it. -/
def execScFillComplete (line : Nat) (s : State) : Host.Outcome State Fault Refusal :=
  if !s.fills.contains line then .next s
  else
    let s1 := { s with fills := s.fills.filter (· != line) }
    .next ((fillWaiters s line).foldl (fun s x => loadLane s x.1 x.2.1 x.2.2) s1)

/-! ### Atomics -/

def isAtomic : Instr → Bool
  | .atom .. | .red .. => true
  | _ => false

/-- R144: the unit part of a requester's identity. -/
def unitOf (s : State) (p : Party) : Nat :=
  match p with
  | .group t g => ((getGroup s t g).map (·.part)).getD 0
  | .lead _ => 8
  | .porter _ n => 9 + n

/-- R144: a lane that waits at an address, with its requester's identity. -/
structure Request where
  core : Nat
  unit : Nat
  party : Party
  op   : Op
  lane : Lane
  deriving DecidableEq, Repr

/-- R144: the lanes that wait at an address. -/
def atomicWaiters (s : State) (pa : Nat) : List Request :=
  (allParties s).flatMap fun p => match getCom s p with
    | none => []
    | some c => (c.ops.filter fun o => o.kind == .access && isAtomic o.instr).flatMap fun o =>
        (o.lanes.filter fun l => l.done.isNone && l.pa == pa).map fun l => ⟨coreOf s p, unitOf s p, p, o, l⟩

/-- R144: lower identities (core, unit, lane) first. -/
def idBefore (a b : Request) : Bool :=
  decide (a.core < b.core) || (a.core == b.core && (decide (a.unit < b.unit) ||
    (a.unit == b.unit && decide (a.lane.lane ≤ b.lane.lane))))

def insId (x : Request) (l : List Request) : List Request :=
  match l with
  | [] => [x]
  | y :: r => if idBefore x y then x :: y :: r else y :: insId x r

/-- R144, R368: the requests that reach the slice in one cycle, by their bits in `pick`; a lane comes no earlier than the
lower lanes of its own operation. -/
def reached (pick : Nat) (all : List Request) : List Request :=
  let l := all.zipIdx
  (l.filter fun x => tb pick x.2 && l.all fun y =>
    tb pick y.2 || !(y.1.party == x.1.party && y.1.op.id == x.1.op.id && decide (y.1.lane.lane < x.1.lane.lane))).map (·.1)

/-- The operation and size of an atomic. -/
def atomicOf : Instr → Nat × Nat
  | .atom _ _ _ _ _ o op | .red _ _ _ _ o op => (op.toNat, 2 ^ o.size.toNat)
  | _ => (0, 4)

def isRed : Instr → Bool
  | .red .. => true
  | _ => false

/-- R143, R369, R370, R456: one lane's read-modify-write at the slice. -/
def atomicLane (s : State) (p : Party) (o : Op) (l : Lane) : State :=
  let core := coreOf s p
  let sector := l.pa / 32
  let s := l1Drop (drainSector s core sector) core sector
  let s := if l.sc = 0 then s else scAllocate s (l.pa / 128) l.part l.sc
  let (img, bad) := sliceRead s sector
  let s := movedSector (linkServed s l.pa) (ctxOf s p) sector
  if bad then modLane s p o.id l.lane fun y => { y with done := some 0, bad := !isRed o.instr }
  else
    let (op, n) := atomicOf o.instr
    let old := ofBytes ((img.drop (l.pa % 32)).take n)
    let (mask, new) := placeBytes (l.pa % 32) (bytesOf n (atomicNew op (8 * n) old l.data l.cmp))
    let s := sliceWrite s (ctxOf s p) sector mask new false
    modLane s p o.id l.lane fun y => { y with done := some old }

/-- R144: the lanes that wait at an address, in the order of their identities. -/
def atomicQueue (s : State) (pa : Nat) : List Request := (atomicWaiters s pa).foldl (fun l x => insId x l) []

def applyLanes (s : State) (l : List Request) : State := l.foldl (fun s x => atomicLane s x.party x.op x.lane) s

/-- SLICE_ATOMIC (R144): those of the waiting lanes that have reached the slice are applied in the order of their
identities. -/
def execSliceAtomic (pa : Nat) (s : State) : Host.Outcome State Fault Refusal :=
  let now := reached (Config.freeArrive s.tick) (atomicQueue s pa)
  .next (applyLanes s (if now.isEmpty then atomicQueue s pa else now))

/-! ### Drains, monitors, walks and line fills -/

/-- WRITE_BUFFER_DRAIN (R154). -/
def execWriteBufferDrain (core i : Nat) (s : State) : Host.Outcome State Fault Refusal :=
  match (s.wb.filter fun e => e.core == core)[i]? with
  | some e => .next (drainEntry s e)
  | none => .next s

/-- R162, R433: a value that satisfies the condition completes a monitor's lane, and so does poison. -/
def monTake (s : State) (p : Party) (op : Nat) (l : Lane) (cond n v : Nat) (bad : Bool) : Option State :=
  if bad then some (modLane s p op l.lane fun y => { y with done := some 0, bad := true })
  else if monCond cond (8 * n) v l.data then some (modLane s p op l.lane fun y => { y with done := some v })
  else none

/-- R138, R162, R433: one read of a monitor's lane: at the slice, and before that in the core's write buffer and L1 when the
scope does not leave the core. -/
def monitorRead (s : State) (p : Party) (op lane : Nat) : State :=
  match findOp s p op with
  | none => s
  | some o => match o.instr, dueLane o lane, getTeam s (teamOf s p) with
    | .monw _ _ _ _ _ m cond, some l, some t =>
      let core := coreOf s p
      let n := 2 ^ m.size.toNat
      let near := if scopeLeaves t m.scope then none else readNear s core l.pa l.key n
      match near.bind fun x => monTake s p op l cond.toNat n x.1 x.2 with
      | some s => s
      | none =>
        let r := readSlice s core l.pa l.key n l.l1 l.sc l.part
        (monTake r.1 p op l cond.toNat n r.2.1 r.2.2).getD r.1
    | _, _, _ => s

/-- R433: the monitors of a party are armed: its team is resident, and it has not stopped for a save. -/
def monitorsArmed (s : State) (p : Party) : Bool :=
  ((getTeam s (teamOf s p)).map (·.resident)).getD false && ((getCom s p).map fun c => c.st != .stopped).getD false

/-- MONITOR_REREAD (R162, R433). -/
def execMonitorReread (p : Party) (op lane : Nat) (s : State) : Host.Outcome State Fault Refusal :=
  .next (if monitorsArmed s p then monitorRead s p op lane else s)

/-- The cache hints of a monitor (R138). -/
def monPol : Instr → BitVec 4
  | .monw _ _ _ _ _ m _ => m.pol
  | _ => 0

/-- R433: one lane of a monitor is armed again, at what its address now translates to, with a fresh read; one whose address
translates no more completes as a poisoned one does (DESIGN CHOICE, log entry 22). -/
def rearmLane (s : State) (p : Party) (o : Op) (l : Lane) : State :=
  match checkNow s (ctxOf s p) (coreOf s p) l.va.toNat 1 .monw with
  | .ok x =>
    let s := touchTlb s (ctxOf s p) (coreOf s p) l.va.toNat
    let pol := (monPol o.instr).toNat
    monitorRead (modLane s p o.id l.lane fun y => { y with
      pa := x.pa, key := x.key, part := x.scp, l1 := polLevel (pol % 4) x.ca false, sc := polLevel (pol / 4) x.ca true })
      p o.id l.lane
  | .error _ => modLane s p o.id l.lane fun y => { y with done := some 0, bad := true }

/-- R433: the pending monitors of a resumed party are armed again: each lane not done is read afresh. -/
def rearm (s : State) (p : Party) : State :=
  (((getCom s p).map (·.ops)).getD []).foldl (fun s o => match o.instr with
    | .monw .. => (o.lanes.filter fun l => l.done.isNone).foldl (fun s l => rearmLane s p o l) s
    | _ => s) s

/-- PAGE_WALK_COMPLETE (R127, R131): a leaf fills the TLBs; anything else waits for the access that walked. -/
def execPageWalkComplete (i : Nat) (s : State) : Host.Outcome State Fault Refusal := .next (endWalk s i)

/-- R17: lines of a core's instruction cache, 128 KiB of 64 bytes. -/
def icacheLines : Nat := 2048

/-- R17, R164: hold a line in its core's instruction cache; a full one replaces a freely chosen line. -/
def holdLine (s : State) (l : CodeLine) : State :=
  let rest := s.icache.filter fun x => !(x.core == l.core && x.ctx == l.ctx && x.va == l.va)
  let mine := rest.filter fun x => x.core == l.core
  if mine.length < icacheLines then { s with icache := rest ++ [l] }
  else match mine[Config.freeVictim s.tick % mine.length]? with
    | some v => { s with icache := rest.filter (· != v) ++ [l] }
    | none => { s with icache := rest ++ [l] }

/-- R134, R136, R332, R333: a line as a fetch of a core brings it, when the checks let it: read at the slices, with its
parity. -/
def fetchedLine (s : State) (core ctx va : Nat) : Option CodeLine :=
  match checkNow s ctx core va 64 .fetch with
  | .error _ => none
  | .ok p =>
    let (l0, b0) := readAt s p.pa p.key 32
    let (l1, b1) := readAt s (p.pa + 32) p.key 32
    let data := ofBytes (l0 ++ l1)
    some ⟨core, ctx, va, data, b0 || b1 || !parityOk data⟩

/-- R131, R282: what the fetch of a line leaves in the TLBs and on the counters. -/
def lineTaken (s : State) (core ctx va : Nat) : State := takenVirt s ctx core va 64 .fetch

/-- R134, R146, R164: a fetch ahead of need for the core's tenant: the line is held ahead of issue as well, as it was read,
also when its parity failed; one that fails a check is dropped without effect. -/
def fetchAhead (s : State) (core va : Nat) : State :=
  match (getCore s core).tenant with
  | none => s
  | some (ctx, _) =>
    let keep := fun (s : State) (l : CodeLine) =>
      if (findLine s.fbuf core ctx va).isSome then s else { s with fbuf := s.fbuf ++ [l] }
    match findLine s.icache core ctx va with
    | some l => keep s l
    | none => match fetchedLine s core ctx va with
      | some l => keep (holdLine (lineTaken s core ctx va) l) l
      | none => s

/-- INSTRUCTION_LINE_FILL (R134, R164, R332, R333): a line that a party waits for, or one fetched ahead of need. -/
def execInstructionLineFill (core va : Nat) (s : State) : Host.Outcome State Fault Refusal :=
  match s.want.find? fun w => w.1 == core && w.2.2 == va with
  | none => .next (if va % 64 = 0 then fetchAhead s core va else s)
  | some w =>
    let s1 := { s with want := s.want.filter (· != w) }
    .next (match fetchedLine s1 core w.2.1 va with
      | some l => holdLine (lineTaken s1 core w.2.1 va) l
      | none => s1)

end Sys2Proof.Machine
end

