-- ==== Sys2Proof/Machine/Queue.lean ====
section
/-! DEFINITION. QPUSH, QPOP, QSTAT and the descriptor instructions (R55 to R62, R196, R200, R448 to R451, R474 to
R476). -/

namespace Sys2Proof.Machine

/-- R61: QUEUE_BINDING for a queue named directly. -/
def queueTrapAt (q reason : Nat) : Stop := .trap tcQueue (0xA0 + q + reason * 256) 0

/-- R448: a DQ code is illegal in every kind. -/
def dqIllegal (c : Code) : Option Nat := if isDq c then some 0xD1 else none

/-- R449. -/
def execQpush (c : Ctl) (a : Code) (q : BitVec 4) (s : State) : Host.Outcome State Fault Refusal :=
  perform (.qpush c a q) c { fields := fun _ => [⟨a, .reg 1⟩], illegal := fun _ => dqIllegal a } s fun e =>
    let n := queueReason e q.toNat false
    if n ≠ 0 then .error (queueTrapAt q.toNat n)
    else match getQueue e.s e.tm.inst q.toNat with
      | none => .error (queueTrapAt q.toNat 1)
      | some x =>
        if qFull x then .error (.stall .queueFull)
        else .ok (done e (pushQueue e e.s q.toNat fun l => val e a l))

/-- R450. -/
def execQpop (c : Ctl) (d : Code) (q : BitVec 4) (p : Code) (s : State) : Host.Outcome State Fault Refusal :=
  perform (.qpop c d q p) c { fields := fun _ => [⟨d, .out 1⟩, ⟨p, .pout false⟩] } s fun e =>
    let n := queueReason e q.toNat true
    if n = 3 then .ok (done e (writePred e e.s p fun _ => true))
    else if n ≠ 0 then .error (queueTrapAt q.toNat n)
    else match headRec e q.toNat with
      | none => .error (.stall .queueEmpty)
      | some r =>
        if r.2.2.poison ∧ e.act ≠ [] then .error (.trap tcPoison (e.low + 0x300) 0)
        else
          let e' := popAll { e with recs := [r], dq := none }
          .ok (done e' (writePred e' (writeRun e' e'.s d 1 fun l => recVal e.kind r.2.2 l) p fun _ => false))

/-- R451. -/
def qstatWord (x : Queue) : Nat :=
  x.pclosed.toNat * 2 ^ 31 + x.cclosed.toNat * 2 ^ 30 + (qDepth x.decl - x.recs.length) * 2 ^ 11 +
    (x.recs.filter (·.vis)).length

def execQstat (c : Ctl) (d : Code) (q : BitVec 4) (s : State) : Host.Outcome State Fault Refusal :=
  perform (.qstat c d q) c { fields := fun _ => [⟨d, .out 1⟩] } s fun e =>
    if e.act.isEmpty then .ok (done e e.s)
    else match getQueue e.s e.tm.inst q.toNat with
      | some x =>
        if qValid x.decl then .ok (done e (writeRun e e.s d 1 fun _ => qstatWord x))
        else .error (queueTrapAt q.toNat 1)
      | none => .error (queueTrapAt q.toNat 1)

/-! ### Descriptors -/

/-- R295, R297: the team whose descriptors a party names: in the handler, that of the trap it serves. -/
def tdOwner (s : State) (core t : Nat) : Nat :=
  if isHandler t then ((served s core).map (·.team)).getD t else t

/-- R196: descriptor N of the issuer. -/
def tdGet (s : State) (core t n : Nat) : Except Stop (BitVec 512) :=
  match getTeam s (tdOwner s core t) with
  | some x => if n < x.nd then .ok (Tab.get x.tds n 0) else .error (.trap tcDesc (0x900 + n) 0)
  | none => .error (.trap tcDesc (0x900 + n) 0)

/-- R474: the registers of a form. -/
def tdRun (w : Bool) (k : Kind) : Nat := match w, k with
  | true, .group => 2
  | true, _ => 1
  | false, .group => 16
  | false, _ => 8

/-- R342, R474: ZERO is the source of a `.w` TDSET, or the discarded destination of TDGET. -/
def tdZeroBad (c : Code) (set w : Bool) : Option Nat := if isZero c && set && !w then some 0xD0 else dqIllegal c

/-- R475: bits [64i + 63 : 64i], or all, of an entry. -/
def tdPut (old : BitVec 512) (w : Bool) (i v : Nat) : BitVec 512 :=
  if w then BitVec.ofNat 512 (old.toNat - bits old.toNat (64 * i) 64 * 2 ^ (64 * i) + v % 2 ^ 64 * 2 ^ (64 * i))
  else BitVec.ofNat 512 v

def execTdset (c : Ctl) (a : Code) (td : BitVec 6) (w : Bool) (i : BitVec 3) (s : State) :
    Host.Outcome State Fault Refusal :=
  perform (.tdset c a td w i) c
    { fields := fun k => [⟨a, .reg (tdRun w k)⟩], once := true, illegal := fun _ => tdZeroBad a true w } s fun e =>
    if e.act.isEmpty then .ok (done e e.s)
    else match tdGet e.s e.core e.t td.toNat with
      | .error x => .error x
      | .ok old =>
        let new := tdPut old w i.toNat (runVal e a (tdRun w e.kind) e.low)
        .ok (done e (modTeam e.s (tdOwner e.s e.core e.t) fun x => { x with tds := Tab.put x.tds td.toNat new 0 }))

/-- R476. -/
def execTdget (c : Ctl) (d : Code) (td : BitVec 6) (w : Bool) (i : BitVec 3) (s : State) :
    Host.Outcome State Fault Refusal :=
  perform (.tdget c d td w i) c
    { fields := fun k => [⟨d, .out (tdRun w k)⟩], illegal := fun _ => tdZeroBad d false w } s fun e =>
    if e.act.isEmpty then .ok (done e e.s)
    else match tdGet e.s e.core e.t td.toNat with
      | .error x => .error x
      | .ok v =>
        let v := if w then bits v.toNat (64 * i.toNat) 64 else v.toNat
        .ok (done e (writeRun e e.s d (tdRun w e.kind) fun _ => v))

end Sys2Proof.Machine
end

