-- ==== Sys2Proof/Machine/Tensor.lean ====
section
/-! DEFINITION. Tensor descriptors: fields, checks, geometry, packing, and block scales (R104, R175, R176, R184, R185,
R196 to R199, R202). -/

namespace Sys2Proof.Machine

/-- R197: a field of a descriptor. -/
def tdF (d : BitVec 512) (lo n : Nat) : Nat := bits d.toNat lo n
def tdBase (d : BitVec 512) : Nat := tdF d 0 49
def tdPois (d : BitVec 512) : Bool := tb d.toNat 49
def tdOut (d : BitVec 512) : Bool := tb d.toNat 50
def tdMx (d : BitVec 512) : Bool := tb d.toNat 51
def tdBaxis (d : BitVec 512) : Nat := tdF d 52 3
def tdHad (d : BitVec 512) : Bool := tb d.toNat 55
def tdSpace (d : BitVec 512) : Bool := tb d.toNat 56
def tdRank (d : BitVec 512) : Nat := tdF d 57 3
def tdFmt (d : BitVec 512) : Nat := tdF d 60 4
def tdSbase (d : BitVec 512) : Nat := tdF d 431 49
def tdSeed (d : BitVec 512) : Nat := tdF d 480 32
def tdDimF (d : BitVec 512) (i : Nat) : Nat := tdF d (64 + 32 * i) 32
def tdBoxF (d : BitVec 512) (i : Nat) : Nat := tdF d (226 + 10 * i) 10
/-- Stride of dimension i, 1 to 4. -/
def tdStride (d : BitVec 512) (i : Nat) : Nat := if i = 0 then 0 else tdF d (276 + 36 * (i - 1)) 36

/-- R198, R175: size and box of dimension i; 1 at or above `RANK`. -/
def tdDim (d : BitVec 512) (i : Nat) : Nat := if i < tdRank d then tdDimF d i else 1
def tdBox (d : BitVec 512) (i : Nat) : Nat := if i < tdRank d then tdBoxF d i + 1 else 1
/-- Element width in bits. -/
def tdBits (d : BitVec 512) : Nat := fmtBits (tdFmt d)

/-- R199, reasons 0x1 to 0x8: the reason of a descriptor; 0 when it passes every check. Of several reasons the lowest number
is reported (DESIGN CHOICE, log 26: R199 gives no order). -/
def descReason (d : BitVec 512) : Nat :=
  let r := tdRank d
  let above := (upto 0 5).any fun i => decide (r ≤ i) &&
    (tdDimF d i != 0 || tdBoxF d i != 0 || (i != 0 && tdStride d i != 0))
  let b := tdBits d
  if tdF d 224 2 ≠ 0 ∨ tdF d 420 11 ≠ 0 then 1
  else if r = 0 ∨ 6 ≤ r then 2
  else if 12 ≤ tdFmt d then 3
  else if (upto 0 r).any (fun i => tdDimF d i == 0) || above then 4
  else if tdMx d ∧ r ≤ tdBaxis d then 5
  else if (tdMx d && !([3, 4, 5, 6, 7, 10].contains (tdFmt d))) || (tdHad d && !tdMx d) then 6
  else if 8 ≤ b ∧ (tdBase d % (b / 8) ≠ 0 ∨ (upto 1 4).any fun i => tdStride d i % (b / 8) != 0) then 7
  else if tdSpace d ∧ (tdBase d / 2 ^ 32 ≠ 0 ∨ tdSbase d / 2 ^ 32 ≠ 0) then 8
  else 0

/-- R175: is an element in bounds? -/
def inBounds (d : BitVec 512) (c : List Int) : Bool :=
  (upto 0 5).all fun i => decide (0 ≤ nth c i 0) && decide (nth c i 0 < tdDim d i)

/-- R198, R104: the address of an in-bounds element in bits. -/
def elemBit (d : BitVec 512) (c : List Int) : Nat :=
  8 * (tdBase d + (upto 1 4).foldl (fun a i => a + (nth c i 0).toNat * tdStride d i) 0) + (nth c 0 0).toNat * tdBits d

/-- The bytes that hold `b` bits from bit address `a`: first byte and count. -/
def bitSpan (a b : Nat) : Nat × Nat := (a / 8, (a % 8 + b - 1) / 8 + 1)

/-- An element's code out of the bytes of its span. -/
def codeOf (a b : Nat) (l : List Byte) : Nat := bits (ofBytes l) (a % 8) b

/-- R184: the linear index of the block that holds an element. -/
def blockIndex (d : BitVec 512) (c : List Int) : Nat :=
  (upto 0 5).reverse.foldl (fun acc i =>
    let x := (max 0 (nth c i 0)).toNat
    let (b, n) := if i = tdBaxis d then (x / 32, ceilDiv (tdDim d i) 32) else (x, tdDim d i)
    b + n * acc) 0

/-- R104: codes packed from byte 0, zero-extended to whole bytes. -/
def packCodes (b : Nat) (l : List Nat) : List Byte :=
  let v := l.foldr (fun x a => x % 2 ^ b + a * 2 ^ b) 0
  bytesOf (ceilDiv (l.length * b) 8) v

/-- R104: element k of packed bytes. -/
def unpackCode (b k : Nat) (l : List Byte) : Nat :=
  let (o, n) := bitSpan (k * b) b
  codeOf (k * b) b ((l.drop o).take n)

/-! ### Scratchpad elements -/

/-- R93, R198: a byte range of a window named by an address that must be a multiple of `size`; the answer is the trap
code. -/
def spRange (t : Team) (addr n size : Nat) : Option Byte :=
  if 2 ^ 25 ≤ addr ∨ t.window < addr % 2 ^ 24 + n ∨ (tb addr 24 ∧ !t.pair) then some 0x09
  else if addr % size ≠ 0 then some 0x0A
  else none

/-- R93, R147: bytes at a scratchpad address, from a core, with poison. -/
def spRead (t : Team) (core addr n : Nat) : List Byte × Bool :=
  let h := spHalf t core addr
  (spBytes t h (addr % 2 ^ 24) n, spBad t h (addr % 2 ^ 24) n)

/-- R202: the code of a scratchpad tensor's element and its poison; 0 out of bounds. -/
def spElem (t : Team) (core : Nat) (d : BitVec 512) (c : List Int) : Nat × Bool :=
  if inBounds d c then
    let a := elemBit d c
    let (o, n) := bitSpan a (tdBits d)
    let (l, bad) := spRead t core o n
    (codeOf a (tdBits d) l, bad)
  else (0, false)

/-- R202: the scale of the block of 32 elements that begins at a coordinate of a scratchpad tensor. -/
def spScale (t : Team) (core : Nat) (d : BitVec 512) (c : List Int) : Nat × Bool :=
  if (upto 0 32).any fun j => inBounds d (c.set (tdBaxis d) (nth c (tdBaxis d) 0 + j)) then
    let (l, bad) := spRead t core (tdSbase d + blockIndex d c) 1
    (ofBytes l, bad)
  else (0x7F, false)

/-! ### The Hadamard transform -/

/-- R185: one butterfly stage. -/
def hadStage (h : Nat) (x : List Nat) : List Nat :=
  (upto 0 32).map fun i =>
    let a := fpDecode fp32 (nth x (if tb i (Nat.log2 h) then i - h else i) 0)
    let b := fpDecode fp32 (nth x (if tb i (Nat.log2 h) then i else i + h) 0)
    (fpAdd fp32 0 false a (if tb i (Nat.log2 h) then b.negate else b)).bits

/-- R185: sign flips, five butterfly stages, and the scaling by 1/8. -/
def hadamard (seed bx : Nat) (x : List Nat) : List Nat :=
  let flip := (upto 0 32).map fun i =>
    let v := nth x i 0
    if tb (rngc seed ((bx * 32 + i) % 2 ^ 32)) i then v ^^^ 2 ^ 31 else v
  let y := hadStage 16 (hadStage 8 (hadStage 4 (hadStage 2 (hadStage 1 flip))))
  y.map fun v => (fpMul fp32 0 false (fpDecode fp32 v) (.fin false 1 (-3))).bits

end Sys2Proof.Machine
end

