-- ==== Sys2Proof/Machine/Matrix.lean ====
section
/-! DEFINITION. The matrix engine: the seven commands, their checks at issue, and the events that perform them
(R87, R98, R120 to R122, R196 to R217, R287, R429 to R431). -/

namespace Sys2Proof.Machine

def matrixTrap (reason low : Nat) : Stop := .trap tcMatrix (reason * 256 + low) 0

/-- R201: multiplications per element and cycle of a format; 0 for a format that no plane takes. -/
def fmtMacs (f : Nat) : Nat :=
  match f with
  | 1 | 2 => 1
  | 3 | 4 | 8 | 10 => 2
  | 5 | 6 => 4
  | 7 => 8
  | _ => 0

/-- R201: a format that a plane or a row may have, with or without MX scaling. -/
def fmtAllowed (f : Nat) (mx : Bool) : Bool :=
  match f with
  | 1 | 2 | 8 => !mx
  | 3 | 4 | 10 => true
  | 5 | 6 | 7 => mx
  | _ => false

/-- R201: activations and weights may be paired. -/
def fmtPaired (a w : Nat) : Bool :=
  a == w || (a == 3 && w == 4) || (a == 4 && w == 3) || (a == 5 && w == 6) || (a == 6 && w == 5)

/-- R201: the largest plane K of a format. -/
def largestK (f : Nat) : Nat := if fmtMacs f = 0 then 512 else 64 * fmtMacs f

/-- R204: the planes that the commands of a core's queue will leave, without their contents. -/
def planesAfter (k : Core) : Plane × Plane :=
  k.me.foldl (fun p m => match m.instr with
    | .mldw .. => (p.1, { Plane.empty with owner := some m.team, fmt := BitVec.ofNat 4 (tdFmt m.desc), mx := tdMx m.desc,
                                           kk := tdBox m.desc 0, nn := tdBox m.desc 1 })
    | .mswap .. => (p.2, p.1)
    | _ => p) (k.active, k.shadow)

/-- R205: a plane that a team owns, loaded. -/
def owns (p : Plane) (t : Nat) : Bool := p.owner == some t && p.kk != 0

/-- What a command asks of the engine. -/
inductive MeKind where
  | loadWeights | swap | rows | rowsQueue | zero | loadTile | storeTile
  deriving DecidableEq, Repr

/-- The parts of a matrix command. -/
structure MeReq where
  kind : MeKind
  tile : Option Code
  coord : Code
  td   : Option (BitVec 6)
  bar  : Code
  q    : Nat
  pair : Bool
  deriving DecidableEq, Repr

/-- R430 step 6: the reason of a refused shape, format, record size or ownership, given the planes of one core. -/
def meReason (d : BitVec 512) (r : MeReq) (t : Nat) (words : Nat) (planes : Plane × Plane) : Nat :=
  let k := tdBox d 0
  let n := tdBox d 1
  let f := tdFmt d
  let mx := tdMx d
  let own := owns planes.1 t
  let shape : Bool := match r.kind with
    | .loadWeights => decide (64 < n) || decide (largestK f < k) || (mx && k % 32 != 0)
    | .rows | .rowsQueue => decide (64 < n) || decide (largestK f < k) || (own && k != planes.1.kk) || (mx && k % 32 != 0)
    | .loadTile | .storeTile => decide (64 < n) || decide (64 < k)
    | _ => false
  let format : Bool := match r.kind with
    | .loadWeights => !fmtAllowed f mx || (mx && tdBaxis d != 0) || !tdSpace d
    | .rows | .rowsQueue => !fmtAllowed f mx || (mx && tdBaxis d != 0) || (r.kind == .rows && !tdSpace d) ||
        (own && (!fmtPaired f planes.1.fmt.toNat || mx != planes.1.mx))
    | .loadTile => !decide (f ≤ 2) || mx || !tdSpace d
    | .storeTile => !decide (f ≤ 4) || mx
    | _ => false
  let size := r.kind == .rowsQueue &&
    4 * words != roundUp (ceilDiv (k * tdBits d) 8 + if mx then ceilDiv k 32 else 0) 4
  let owner : Bool := match r.kind with
    | .rows | .rowsQueue => !own
    | .swap => !owns planes.2 t
    | _ => false
  if shape then 2 else if format then 3 else if size then 6 else if owner then 4 else 0

/-- The coordinates (dimension 1, dimension 0) of a box at (c0, c1), row by row. -/
def boxCoords (c0 c1 : Int) (cols rows : Nat) : List (List Int) :=
  (upto 0 rows).flatMap fun (i : Nat) => (upto 0 cols).map fun (j : Nat) => [c0 + (j : Int), c1 + (i : Int), 0, 0, 0]

/-- R198, R93: every in-bounds element and scale of a scratchpad box lies in the window. -/
def spBox (e : Env) (d : BitVec 512) (cs : List (List Int)) : Except Stop Unit :=
  let bad := cs.findSome? fun c =>
    if !inBounds d c then none
    else
      let (o, n) := bitSpan (elemBit d c) (tdBits d)
      match spRange e.tm o n (max 1 (tdBits d / 8)) with
      | some code => some (code, o)
      | none =>
        if !tdMx d then none
        else
          let a := tdSbase d + blockIndex d c
          (spRange e.tm a 1 1).map fun code => (code, a)
  match bad with
  | some (code, a) => .error (.trap code (a % 2 ^ 32) 0)
  | none => .ok ()

/-- R210, R133: the pages of a box in memory, every element checked for writing. -/
def memBox (e : Env) (d : BitVec 512) (cs : List (List Int)) : Except Stop (Tab (Nat × Nat × Nat × Nat)) :=
  let n := max 1 (tdBits d / 8)
  foldE (cs.filter (inBounds d)) ([] : Tab (Nat × Nat × Nat × Nat)) fun t c =>
    let a := elemBit d c / 8
    let known := if a % n = 0 ∧ a < 2 ^ 49 then (Tab.find t (a / 4096)).isSome else false
    if known then .ok t
    else match checkParty e.s e.ctx e.core (partOf e.s e.p) a n .store with
      | .ok p => .ok (Tab.set t (a / 4096) (p.pa / 4096 * 4096, p.key, p.ca, p.scp))
      | .bad code cause => .error (.trap code (memDetailOf cause) a)
      | .walk vpn => .error (.walk vpn)
where
  /-- R135, lane 0. -/
  memDetailOf (cause : Nat) : Nat := cause * 4096 + 1024

/-- R203: the barrier that a command names. -/
def meBar (e : Env) (b : Code) (pair : Bool) : Except Stop (Option BarRef) :=
  let h := val e b e.low % 2 ^ 32
  if h = 0 then .ok none
  else match barValid e.s e.tm e.core h with
    | some r => if pair && !tb h 6 then .error (.trap tcBarInvalid (h % 2 ^ 16) 0) else .ok (some r)
    | none => .error (.trap tcBarInvalid (h % 2 ^ 16) 0)

/-- R430 steps 1 to 3. -/
def meHead (e : Env) (r : MeReq) : Except Stop (BitVec 512) :=
  let td := (r.td.map (·.toNat)).getD 0
  if r.pair && !e.tm.pair then .error (matrixTrap 5 td)
  else if (match r.tile with | some c => decide (e.tm.nt ≤ c.toNat - 0xC0) | none => false) then
    .error (matrixTrap 1 ((r.tile.map (·.toNat)).getD 0))
  else match r.td with
    | none => .ok 0
    | some n => match tdGet e.s e.core e.t n.toNat with
      | .error x => .error x
      | .ok d => if descReason d = 0 then .ok d else .error (.trap tcDesc (descReason d * 256 + n.toNat) 0)

/-- R430 step 5: MMAQ's queue. -/
def meQueue (e : Env) (r : MeReq) : Except Stop Nat :=
  if r.kind != .rowsQueue then .ok 0
  else match getQueue e.s e.tm.inst r.q with
    | none => .error (queueTrapAt r.q 1)
    | some x =>
      if !qValid x.decl then .error (queueTrapAt r.q 1)
      else if qCKind x.decl != 5 || qCStage x.decl != e.tm.stage then .error (queueTrapAt r.q 2)
      else .ok (qWords x.decl)

/-- R204, R211: the command enters the queue of its core, or both halves those of a pair. -/
def meEnter (e : Env) (s : State) (m : MeCmd) : State :=
  let put := fun (s : State) (core : Nat) (m : MeCmd) => modCore s core fun k => { k with me := k.me ++ [m] }
  if m.pair then
    put (put (modCore s e.tm.core fun k => { k with nextCmd := k.nextCmd + 1 }) e.tm.core { m with half := 0 })
      (partnerOf e.tm.core) { m with half := 1 }
  else put (modCore s e.core fun k => { k with nextCmd := k.nextCmd + 1 }) e.core { m with half := halfOf e.tm e.core }

/-- R430: the checks in their order, then the entry into the command queue. -/
def meIssue (r : MeReq) (e : Env) : Except Stop State :=
  let td := (r.td.map (·.toNat)).getD 0
  match meHead e r with
  | .error x => .error x
  | .ok d => match meBar e r.bar r.pair with
    | .error x => .error x
    | .ok bar => match meQueue e r with
      | .error x => .error x
      | .ok words =>
        let cores := if r.pair then [e.tm.core, partnerOf e.tm.core] else [e.core]
        let reasons := (cores.map fun k => meReason d r e.t words (planesAfter (getCore e.s k))).filter (· != 0)
        let first := [2, 3, 6, 4].find? fun n => reasons.contains n
        match first with
        | some n => .error (matrixTrap n td)
        | none =>
          if r.kind == .storeTile && e.tm.region.isSome && !tdSpace d && !tdOut d then
            .error (.trap tcRestart (opOf e.i) 0)
          else
            let v := val64 e r.coord e.low
            let c0 := sext v 32
            let c1 := sext (v / 2 ^ 32) 32
            let cols := tdBox d 0
            let rows := tdBox d 1
            let cs := if r.kind == .rowsQueue || r.td.isNone then [] else boxCoords c0 c1 cols rows
            let far := if r.pair then boxCoords c0 (c1 + rows) cols rows else []
            let pages : Except Stop (Tab (Nat × Nat × Nat × Nat)) :=
              if r.td.isNone then .ok []
              else if tdSpace d then match spBox e d cs with
                | .error x => .error x
                | .ok _ => .ok []
              else if r.kind == .storeTile then memBox e d (cs ++ far)
              else .ok []
            match pages with
            | .error x => .error x
            | .ok pages =>
              let id := (getCore e.s (cores.headD 0)).nextCmd
              let m : MeCmd :=
                { id := id, team := e.t, party := e.p, flag := if e.c.cf = 0 then none else some e.com.nextOp, instr := e.i,
                  desc := d, pages := pages, c0 := c0, c1 := c1, bar := bar, pair := r.pair, half := 0, row := 0,
                  narrow := false, begun := false, region := e.tm.region.isSome, sticky := 0 }
              let s1 := match bar with
                | some b => barTake e.s b
                | none => e.s
              let s2 := meEnter e (if e.tm.pair then drainCore s1 e.core else s1) m
              .ok (if e.c.cf = 0 then done e s2 else later e s2 .engine [] [] 0)

/-- R202: the coordinate operand. -/
def coordRun (k : Kind) : Nat := if k = .group then 2 else 1

def execMldw (c : Ctl) (a b : Code) (td : BitVec 6) (pair : Bool) (s : State) : Host.Outcome State Fault Refusal :=
  perform (.mldw c a b td pair) c { fields := fun k => [⟨a, .coord (coordRun k)⟩, ⟨b, .uni 1⟩], fork := true, whole := true } s
    (meIssue ⟨.loadWeights, none, a, some td, b, 0, pair⟩)

def execMswap (c : Ctl) (b : Code) (pair : Bool) (s : State) : Host.Outcome State Fault Refusal :=
  perform (.mswap c b pair) c { fields := fun _ => [⟨b, .uni 1⟩], fork := true, whole := true } s (meIssue ⟨.swap, none, 0xD0, none, b, 0, pair⟩)

def execMma (c : Ctl) (d a b : Code) (td : BitVec 6) (pair : Bool) (s : State) : Host.Outcome State Fault Refusal :=
  perform (.mma c d a b td pair) c { fields := fun k => [⟨d, .tile⟩, ⟨a, .coord (coordRun k)⟩, ⟨b, .uni 1⟩], fork := true, whole := true } s
    (meIssue ⟨.rows, some d, a, some td, b, 0, pair⟩)

def execMmaq (c : Ctl) (d b : Code) (td : BitVec 6) (q : BitVec 4) (pair : Bool) (s : State) :
    Host.Outcome State Fault Refusal :=
  perform (.mmaq c d b td q pair) c { fields := fun _ => [⟨d, .tile⟩, ⟨b, .uni 1⟩], fork := true, whole := true } s
    (meIssue ⟨.rowsQueue, some d, 0xD0, some td, b, q.toNat, pair⟩)

def execMzero (c : Ctl) (d b : Code) (pair : Bool) (s : State) : Host.Outcome State Fault Refusal :=
  perform (.mzero c d b pair) c { fields := fun _ => [⟨d, .tile⟩, ⟨b, .uni 1⟩], fork := true, whole := true } s
    (meIssue ⟨.zero, some d, 0xD0, none, b, 0, pair⟩)

def execMlda (c : Ctl) (d a b : Code) (td : BitVec 6) (pair : Bool) (s : State) : Host.Outcome State Fault Refusal :=
  perform (.mlda c d a b td pair) c { fields := fun k => [⟨d, .tile⟩, ⟨a, .coord (coordRun k)⟩, ⟨b, .uni 1⟩], fork := true, whole := true } s
    (meIssue ⟨.loadTile, some d, a, some td, b, 0, pair⟩)

def execMsta (c : Ctl) (d a b : Code) (td : BitVec 6) (pair : Bool) (rnd : BitVec 2) (sat : Bool) (s : State) :
    Host.Outcome State Fault Refusal :=
  perform (.msta c d a b td pair rnd sat) c
    { fields := fun k => [⟨d, .tile⟩, ⟨a, .coord (coordRun k)⟩, ⟨b, .uni 1⟩], fork := true, whole := true } s
    (meIssue ⟨.storeTile, some d, a, some td, b, 0, pair⟩)

/-! ### Performing commands -/

def MeCmd.tile? (m : MeCmd) : Option Nat :=
  match m.instr with
  | .mma _ d _ _ _ _ | .mmaq _ d _ _ _ _ | .mzero _ d _ _ | .mlda _ d _ _ _ _ | .msta _ d _ _ _ _ _ _ =>
    some (d.toNat - 0xC0)
  | _ => none

/-- R202: rows of a row command; 0 for the others. -/
def meRows (m : MeCmd) : Nat :=
  match m.instr with
  | .mma .. | .mmaq .. => tdBox m.desc 1
  | _ => 0

def isRowCmd (m : MeCmd) : Bool := meRows m != 0

/-- R206: every row has entered. -/
def rowsIn (m : MeCmd) : Bool := m.row == meRows m

/-- R211: the row coordinate at which a half of an MLDA or MSTA starts. -/
def halfC1 (m : MeCmd) : Int :=
  match m.instr with
  | .mlda .. | .msta .. => if m.pair && m.half != 0 && !tdSpace m.desc then m.c1 + tdBox m.desc 1 else m.c1
  | _ => m.c1

/-- The bytes of scratchpad or memory that a command reads or writes through its descriptor: the place (0 for memory, or a
half of its own team's window), the first byte and the count. -/
def cmdSpans (t : Team) (core : Nat) (m : MeCmd) : List (Nat × Nat × Nat) :=
  let d := m.desc
  let at' := fun (a n : Nat) => if tdSpace d then (1 + 2 * m.team + spHalf t core a, a % 2 ^ 24, n) else (0, a, n)
  match m.instr with
  | .mldw .. | .mma .. | .mlda .. | .msta .. =>
    ((boxCoords m.c0 (halfC1 m) (tdBox d 0) (tdBox d 1)).filter (inBounds d)).flatMap fun c =>
      let (o, n) := bitSpan (elemBit d c) (tdBits d)
      at' o n :: if tdMx d then [at' (tdSbase d + blockIndex d c) 1] else []
  | _ => []

def spansMeet (a b : List (Nat × Nat × Nat)) : Bool :=
  a.any fun x => b.any fun y => x.1 == y.1 && overlaps x.2.1 x.2.2 y.2.1 y.2.2

/-- R204, R206, R207: a command waits for an earlier one whose effect it could meet: on its tile, on a plane, or on bytes
that one of the two stores. -/
def meConflict (t : Team) (core : Nat) (early lateCmd : MeCmd) : Bool :=
  let tile := early.team == lateCmd.team && early.tile?.isSome && early.tile? == lateCmd.tile?
  let isW := fun (m : MeCmd) => match m.instr with | .mldw .. => true | _ => false
  let isS := fun (m : MeCmd) => match m.instr with | .mswap .. => true | _ => false
  let isStore := fun (m : MeCmd) => match m.instr with | .msta .. => true | _ => false
  let streaming := isRowCmd early && !rowsIn early
  let planes :=
    if isW lateCmd then isW early || isS early
    else if isS lateCmd then isW early || isS early || streaming
    else if isRowCmd lateCmd then isS early || streaming
    else false
  let bytes := (isStore early || (isStore lateCmd && !(isRowCmd early && rowsIn early))) &&
    spansMeet (cmdSpans t core early) (cmdSpans t core lateCmd)
  planes || bytes || (tile && !(isRowCmd early && isRowCmd lateCmd && rowsIn early))

/-- The first command of a queue that no earlier one holds back and that satisfies a test. -/
def firstFree (hold : MeCmd → MeCmd → Bool) (l : List MeCmd) (before : List MeCmd) (f : MeCmd → Bool) : Option MeCmd :=
  match l with
  | [] => none
  | m :: r => if f m && !(before.any fun e => hold e m) then some m else firstFree hold r (before ++ [m]) f

/-- The first command of a core that is not held back and satisfies a test. A command whose team is gone meets no other. -/
def coreFree (s : State) (core : Nat) (f : MeCmd → Bool) : Option MeCmd :=
  firstFree (fun a b => match getTeam s b.team with
    | some t => meConflict t core a b
    | none => false) (getCore s core).me [] f

/-- Is this the half that stands on a core? -/
def sameCmd (a b : MeCmd) : Bool := a.id == b.id && a.team == b.team && a.pair == b.pair

def modCmd (s : State) (core : Nat) (m : MeCmd) (f : MeCmd → MeCmd) : State :=
  modCore s core fun k => { k with me := mapIf k.me (sameCmd m) f }

/-- The other half of a pair command, while it stands. -/
def otherHalf (s : State) (core : Nat) (m : MeCmd) : Option MeCmd :=
  if m.pair then (getCore s (partnerOf core)).me.find? (sameCmd m) else none

/-- The queue that an MMAQ streams from. -/
def MeCmd.queue? (m : MeCmd) : Option Nat :=
  match m.instr with
  | .mmaq _ _ _ _ q _ => some q.toNat
  | _ => none

/-- R204, R211: every MMAQ that entered before this one and streams from the same queue has had all its records, both halves
of a pair's, also where the half that entered on this core has ended. -/
def streamFree (s : State) (core : Nat) (m : MeCmd) : Bool :=
  let partnerDone := m.pair || m.half != 0 || ((getCore s (partnerOf core)).me.all fun x =>
    !x.pair || x.half == 0 || x.team != m.team || x.queue? != m.queue? || !decide (x.id < m.id) || rowsIn x)
  partnerDone && (if m.pair then [core, partnerOf core] else [core]).all fun k =>
    ((getCore s k).me.takeWhile fun x => !sameCmd m x).all fun x =>
      x.team != m.team || x.queue? != m.queue? ||
        (rowsIn x && ((otherHalf s k x).map rowsIn).getD true)

/-- R209, R211: the record that the next row of an MMAQ takes: position and record, or the end of the stream. -/
inductive RowSource where
  | wait | short | scratch
  | record (i : Nat) (r : Record)
  deriving DecidableEq, Repr

def rowSource (s : State) (core : Nat) (m : MeCmd) : RowSource :=
  match m.instr with
  | .mmaq _ _ _ _ q _ =>
    let first := m.half = 0 || (match otherHalf s core m with
      | some o => rowsIn o
      | none => true)
    match (getTeam s m.team).bind fun t => getQueue s t.inst q.toNat with
    | none => .short
    | some x =>
      if !first || !streamFree s core m then .wait
      else match popIndex x m.party with
        | some i => match x.recs[i]? with
          | some r => .record i r
          | none => .wait
        | none => if qEnded x m.party then .short else .wait
  | _ => .scratch

/-- A row's codes, scales and poison. -/
structure RowData where
  a : List Nat
  sc : List Nat
  bad : Bool
  deriving DecidableEq, Repr

/-- R208, R202: row i of the box in the scratchpad. Where `c0` is no multiple of 32, the scale of operation block b is that of
the tensor block that holds element c0 + 32b (DESIGN CHOICE, log 26: R202 does not say). -/
def rowScratch (t : Team) (core : Nat) (m : MeCmd) : RowData :=
  let k := tdBox m.desc 0
  let y : Int := m.c1 + (m.row : Int)
  let es := (upto 0 k).map fun (j : Nat) => spElem t core m.desc [m.c0 + (j : Int), y, 0, 0, 0]
  let ss := if tdMx m.desc then (upto 0 (k / 32)).map fun (b : Nat) => spScale t core m.desc [m.c0 + 32 * (b : Int), y, 0, 0, 0] else []
  ⟨es.map (·.1), ss.map (·.1), es.any (·.2) || ss.any (·.2)⟩

/-- R209: the row that a record holds. -/
def rowRecord (m : MeCmd) (r : Record) : RowData :=
  let k := tdBox m.desc 0
  let b := tdBits m.desc
  let l := r.words.flatMap fun w => bytesOf 4 w.toNat
  let o := ceilDiv (k * b) 8
  ⟨(upto 0 k).map fun j => unpackCode b j l,
    if tdMx m.desc then (upto 0 (k / 32)).map fun j => ((nth l (o + j) 0#8).toNat) else [], r.poison⟩

/-- R120 to R122: one tile element through every slice or block of a row; `%mstat` bits `NV` and `OF`. -/
def accElem (p : Plane) (fa : Nat) (row : RowData) (j acc : Nat) : Nat × Nat :=
  let step := if p.mx then 32 else 64
  let start : Nat × Nat := (acc, 0)
  (upto 0 (ceilDiv p.kk step)).foldl (fun (a : Nat × Nat) b =>
    let ks := upto (b * step) (min step (p.kk - b * step))
    let s := ks.foldl (fun s k =>
      accMul s (elemDecode fa false (nth row.a k 0)) (elemDecode p.fmt.toNat false (Tab.get p.w (k * 64 + j) 0))) (.dy 0 0)
    let sa := nth row.sc b 0
    let sw := Tab.get p.scale (b * 64 + j) 0
    let s := if !p.mx then s
      else if sa = 255 ∨ sw = 255 then .nan
      else match s with
        | .dy i e => .dy i (e + sa + sw - 254)
        | x => x
    let (v, ovf, nan) := accStep a.1 s
    (v, a.2 ||| (if nan then 8 else 0) ||| (if ovf then 4 else 0))) start

def tilesOf (t : Team) (half : Nat) : Tab Word := if half = 0 then t.tiles0 else t.tiles1
def tilePoison (t : Team) (half : Nat) : List Nat := if half = 0 then t.tpo0 else t.tpo1
def setTiles (t : Team) (half : Nat) (x : Tab Word) (po : List Nat) : Team :=
  if half = 0 then { t with tiles0 := x, tpo0 := po } else { t with tiles1 := x, tpo1 := po }

/-- R208, R215: add a row into the tile, with the marks it carries. -/
def addRow (t : Team) (m : MeCmd) (p : Plane) (row : RowData) : Team × Nat :=
  let base := (m.tile?.getD 0) * 4096 + 64 * m.row
  let start : Tab Word × List Nat × Nat := (tilesOf t m.half, tilePoison t m.half, 0)
  let (x, po, fl) := (upto 0 p.nn).foldl (fun (a : Tab Word × List Nat × Nat) j =>
    let (v, f) := accElem p (tdFmt m.desc) row j (Tab.get a.1 (base + j) 0).toNat
    (Tab.put a.1 (base + j) (BitVec.ofNat 32 v) 0,
      if row.bad || p.bad.contains j then insSorted a.2.1 (base + j) else a.2.1, a.2.2 ||| f)) start
  (setTiles t m.half x po, fl)

/-- The row command of a core that may stream its next row. -/
def rowReady (s : State) (core : Nat) : Option MeCmd :=
  coreFree s core fun m => isRowCmd m && !rowsIn m && rowSource s core m != .wait

/-- R206, R208, R209, R212: MATRIX_ROW_WRITE. -/
def execMatrixRowWrite (core : Nat) (s : State) : Host.Outcome State Fault Refusal :=
  match rowReady s core with
  | none => .next s
  | some m => match getTeam s m.team with
    | none => .next s
    | some t =>
      let k := getCore s core
      let begin' : MeCmd → MeCmd := fun c => if c.begun then c else { c with begun := true, narrow := k.narrow }
      let put := fun (s : State) (row : RowData) =>
        let r := addRow ((getTeam s m.team).getD t) m k.active row
        modCmd (setTeam s m.team r.1) core m fun c =>
          { begin' c with row := c.row + 1, sticky := c.sticky ||| BitVec.ofNat 32 r.2 }
      match rowSource s core m, m.instr with
      | .record i r, .mmaq _ _ _ _ q _ =>
        let s1 := popOrder (modQueue s t.inst q.toNat fun x => popAt x m.party i) core r
        .next (put s1 (rowRecord m r))
      | .scratch, _ => .next (put s (rowScratch t core m))
      | .short, _ => .next (modCmd s core m fun c => { begin' c with row := meRows c, sticky := c.sticky ||| 0x40 })
      | _, _ => .next s

/-- R202, R207, R215: the plane that an MLDW loads. -/
def loadPlane (t : Team) (core : Nat) (m : MeCmd) : Plane :=
  let d := m.desc
  let kk := tdBox d 0
  let nn := tdBox d 1
  let elem := fun (k j : Nat) => spElem t core d [m.c0 + k, m.c1 + j, 0, 0, 0]
  let scale := fun (b j : Nat) => spScale t core d [m.c0 + 32 * b, m.c1 + j, 0, 0, 0]
  let w := (upto 0 kk).flatMap fun k => (upto 0 nn).filterMap fun j =>
    let v := (elem k j).1
    if v = 0 then none else some (k * 64 + j, v)
  let sc := if !tdMx d then [] else (upto 0 (kk / 32)).flatMap fun b => (upto 0 nn).filterMap fun j =>
    let v := (scale b j).1
    if v = 0 then none else some (b * 64 + j, v)
  let bad := (upto 0 nn).filter fun j =>
    ((upto 0 kk).any fun k => (elem k j).2) || (tdMx d && (upto 0 (kk / 32)).any fun b => (scale b j).2)
  { owner := some m.team, fmt := BitVec.ofNat 4 (tdFmt d), mx := tdMx d, kk := kk, nn := nn, w := w, scale := sc,
    bad := bad }

/-- The elements (row, column) of a command's box. -/
def boxCells (d : BitVec 512) : List (Nat × Nat) :=
  (upto 0 (tdBox d 1)).flatMap fun i => (upto 0 (tdBox d 0)).map fun j => (i, j)

/-- R210: MLDA. -/
def loadTile (t : Team) (core : Nat) (m : MeCmd) : Team :=
  let base := (m.tile?.getD 0) * 4096
  let start : Tab Word × List Nat := (tilesOf t m.half, tilePoison t m.half)
  let (x, po) := (boxCells m.desc).foldl (fun (a : Tab Word × List Nat) ij =>
    let (v, bad) := spElem t core m.desc [m.c0 + ij.2, m.c1 + ij.1, 0, 0, 0]
    let key := base + 64 * ij.1 + ij.2
    let f := convert (tdFmt m.desc) 0 0 false false v
    (Tab.put a.1 key (BitVec.ofNat 32 f.bits) 0, if bad then insSorted a.2 key else a.2.filter (· != key))) start
  setTiles t m.half x po

/-- R210, R214: a tile element as MSTA stores it, with its `%mstat` bits. -/
def storeElem (fmt rnd : Nat) (sat : Bool) (v : Nat) : Nat × Nat :=
  let sat := sat && decide (3 ≤ fmt)
  let r := convert 0 fmt rnd false sat v
  match fpDecode fp32 v with
  | .nan _ => (r.bits, 8)
  | .inf _ => (r.bits, if r.flags &&& flNV = 0 then 0 else 8)
  | _ => (r.bits, (if r.flags &&& flOF = 0 then 0 else 4) ||| (if r.flags &&& flNX = 0 then 0 else 2))

/-- R133, R210: the translation that MSTA captured at issue. -/
def capturedPhys (m : MeCmd) (va : Nat) : Phys :=
  let (pa, key, ca, scp) := Tab.get m.pages (va / 4096) (0, 0, 0, 0)
  ⟨pa + va % 4096, key, ca, scp, false, false⟩

/-- R210, R211, R215: MSTA of one half; the answer holds the `%mstat` bits. -/
def storeTile (s : State) (t : Team) (core : Nat) (m : MeCmd) (rnd : BitVec 2) (sat : Bool) : State × Nat :=
  let d := m.desc
  let base := (m.tile?.getD 0) * 4096
  let c1 := halfC1 m
  let marked := fun (ij : Nat × Nat) => (tilePoison t m.half).contains (base + 64 * ij.1 + ij.2)
  let any := (boxCells d).any marked
  if any && tdPois d then (s, 0x30)
  else
    let n := tdBits d / 8
    let start : State × Nat := (s, if any then 0x10 else 0)
    (boxCells d).foldl (fun (a : State × Nat) ij =>
      let c : List Int := [m.c0 + ij.2, c1 + ij.1, 0, 0, 0]
      if !inBounds d c then a
      else
        let (v, f) := storeElem (tdFmt d) rnd.toNat sat (Tab.get (tilesOf t m.half) (base + 64 * ij.1 + ij.2) 0).toNat
        let va := elemBit d c / 8
        let s' := if tdSpace d then
            modTeam a.1 m.team fun x => spWrite x (spHalf x core va) (va % 2 ^ 24) (bytesOf n v) (marked ij)
          else
            let p := capturedPhys m va
            let u := storeBytes a.1 core p (polLevel 0 p.ca false) (polLevel 0 p.ca true) (bytesOf n v) (marked ij)
            if p.ca == 1 then drainSector u core (p.pa / 32) else u
        (s', a.2 ||| f)) start

/-- R161, R431: the end of a command, once both halves have ended; what it stored is drained for a completion that the
partner core may observe. -/
def meFinish (s : State) (core : Nat) (m : MeCmd) : State :=
  let s1 := modCore s core fun k => { k with me := k.me.filter fun x => !sameCmd m x }
  match otherHalf s core m with
  | some _ => modCmd s1 (partnerOf core) m fun o => { o with sticky := o.sticky ||| m.sticky }
  | none =>
    let stored := match m.instr with | .msta .. => !tdSpace m.desc | _ => false
    let pairBar := match m.bar with | some b => tb b.low.toNat 6 | none => false
    let s2 := if stored && m.pair then
        phaseBoundary (phaseBoundary (drainCore (drainCore s1 core) (partnerOf core)) core) (partnerOf core)
      else if stored && pairBar then drainCore s1 core
      else s1
    let s3 := modTeam s2 m.team fun t => { t with mstat := t.mstat ||| m.sticky }
    let s4 := match m.bar with
      | some b => barDrop (barArrive s3 b core 0) b
      | none => s3
    let s5 := match m.flag with
      | some id => modCom s4 m.party fun c => match c.ops.find? fun o => o.id == id with
        | some o => endOp c o
        | none => c
      | none => s4
    closeEnds s5 (((getTeam s m.team).map (·.inst)).getD 0)

/-- The effect of a command that is not a row command, and of a row command nothing more. -/
def mePerform (s : State) (core : Nat) (t : Team) (m : MeCmd) : State × Nat :=
  match m.instr with
  | .mldw .. => (modCore s core fun k => { k with shadow := loadPlane t core m }, 0)
  | .mswap .. => (modCore s core fun k => { k with active := k.shadow, shadow := k.active }, 0)
  | .mzero .. =>
    let n := m.tile?.getD 0
    (setTeam s m.team (setTiles t m.half ((tilesOf t m.half).filter fun x => x.1 / 4096 != n)
      ((tilePoison t m.half).filter fun x => x / 4096 != n)), 0)
  | .mlda .. => (setTeam s m.team (loadTile t core m), 0)
  | .msta _ _ _ _ _ _ rnd sat => storeTile s t core m rnd sat
  | _ => (s, 0)

/-- The first command of a core that may complete. -/
def cmdReady (s : State) (core : Nat) : Option MeCmd :=
  coreFree s core fun m => !isRowCmd m || rowsIn m

/-- R207, R210, R431: MATRIX_COMMAND_COMPLETE. -/
def execMatrixCommandComplete (core : Nat) (s : State) : Host.Outcome State Fault Refusal :=
  match cmdReady s core with
  | none => .next s
  | some m => match getTeam s m.team with
    | none => .next (meFinish s core m)
    | some t =>
      let r := mePerform s core t m
      .next (meFinish r.1 core { m with sticky := m.sticky ||| BitVec.ofNat 32 r.2 })

end Sys2Proof.Machine
end

