-- ==== Sys2Proof/Machine/PorterCtl.lean ====
section
/-! DEFINITION. PSTART, PSTOP and PSTAT (R167, R168, R172, R173, R191, R443 to R446). -/

namespace Sys2Proof.Machine

/-- R290: COPY_RIGHTS. -/
def rightsTrap (detail : Nat) : Stop := .trap tcRights detail 0

/-- R172: the lead, the producer group, and the handler. -/
def hasRights (e : Env) : Bool :=
  isHandler e.t || (match e.p with
    | .lead _ => true
    | .group _ g => e.tm.producer == some g
    | .porter _ _ => false)

/-- R172: the porter that a number names: its core and its number there; none outside a pair team. -/
def porterOf (e : Env) (unit : Nat) : Option (Nat × Nat) :=
  let home := if e.tm.pair then e.tm.core else e.core
  if unit < 2 then some (home, unit) else if e.tm.pair then some (partnerOf home, unit - 2) else none

/-- R173: the code of a state. -/
def PSt.code : PSt → Nat
  | .idle => 0
  | .running => 1
  | .draining => 2
  | .faulted => 3

/-- R420, R443: an argument run that leaves its kind. -/
def argRunBad (e : Env) (a : Code) (n : Nat) : Bool :=
  let c := a.toNat
  n != 0 && (if c ≤ 0x7F then decide (regCount e.kind e.tm.alloc < c + n) else decide (0xA0 < c + n))

/-- R444: the value of argument register j. -/
def argVal (e : Env) (a : Code) (j : Nat) : Nat := regVal e a j e.low

/-- R168: a porter as PSTART sets it. -/
def porterStart (args : List Nat) (entry : Nat) (bar : Option BarRef) (team : Nat) (region : Bool) : Porter :=
  { Porter.idle with
    st := .running
    g := (args.zipIdx).foldl (fun t x => Tab.put t x.2 (BitVec.ofNat 64 x.1) 0) []
    pc := BitVec.ofNat 64 entry, entered := true, arrived := true, bar := bar, team := some team, inRegion := region }

/-- R194: PSTART with `.resume`: the faulting instruction issues again, and XTRAP does nothing (R496). The fault record is
over: PSTAT reads 0 for its code, offset and address from then on (DESIGN CHOICE, log 27: R168 says that `.resume` changes
no field, and R173 describes the record of a FAULTED porter). -/
def porterResume (x : Porter) : Porter :=
  { x with st := .running, fault := none, resumed := (match x.fault with | some f => f.code == tcSoftware | none => false) }

/-- R172: the status that PSTART writes, and the state it leaves. The rule gives the statuses no order: where several apply
that of the porter number (2) comes first, then that of the state (1), then that of the handle (3) (DESIGN CHOICE, log 27). -/
def pstartDo (e : Env) (a b : Code) (unit entry n : Nat) (resume : Bool) : State × Nat :=
  match porterOf e unit with
  | none => (e.s, 2)
  | some (core, num) =>
    let x := getPorter e.s core num
    let own := tdOwner e.s e.core e.t
    if resume then
      if x.st = .faulted ∧ (x.team = some e.t ∨ isHandler e.t) then (setPorter e.s core num (porterResume x), 0)
      else (e.s, 1)
    else if x.st ≠ .idle then (e.s, 1)
    else match getTeam e.s own with
      | none => (e.s, 1)
      | some tm =>
        let h := val e b e.low % 2 ^ 32
        let bar := if h = 0 then none else barValid e.s tm core h
        if h ≠ 0 ∧ bar = none then (e.s, 3)
        else
          let args := (upto 0 n).map fun j => argVal e a j
          let s := match bar with
            | some r => barTake e.s r
            | none => e.s
          (setPorter s core num (porterStart args entry bar own tm.region.isSome), 0)

/-- R153, R159: a fork of a pair team drains the issuing core, and a porter on the other core starts behind a phase boundary
of its own. -/
def pstartFork (e : Env) (unit : Nat) (r : State × Nat) : State :=
  if r.2 = 0 ∧ e.tm.pair then
    let s := drainCore r.1 e.core
    match porterOf e unit with
    | some (core, _) => if core = e.core then s else phaseBoundary s core
    | none => s
  else r.1

def execPstart (c : Ctl) (d a b : Code) (unit : BitVec 3) (entry : BitVec 16) (n : BitVec 3) (resume : Bool) (s : State) :
    Host.Outcome State Fault Refusal :=
  perform (.pstart c d a b unit entry n resume) c
    { fields := fun _ => [⟨d, .out 1⟩] ++ (if n = 0 then [] else [⟨a, .reg 1⟩, ⟨a, .also n.toNat⟩]) ++ [⟨b, .reg 1⟩]
      fork := true
      once := true
      illegal := fun e => if argRunBad e a n.toNat then some a.toNat else none } s fun e =>
    if e.act.isEmpty then .ok (done e e.s)
    else if !hasRights e then .error (rightsTrap unit.toNat)
    else
      let r := pstartDo e a b unit.toNat entry.toNat n.toNat resume
      .ok (done e (writeRun e (pstartFork e unit.toNat r) d 1 fun _ => r.2))

/-- R445. A porter that drains after the PSTOP completes it at PORTER_DRAIN_END. -/
def execPstop (c : Ctl) (d : Code) (unit : BitVec 3) (s : State) : Host.Outcome State Fault Refusal :=
  perform (.pstop c d unit) c { fields := fun _ => [⟨d, .out 1⟩] } s fun e =>
    if e.act.isEmpty then .ok (done e e.s)
    else if !hasRights e then .error (rightsTrap unit.toNat)
    else match porterOf e unit.toNat with
      | none => .error (rightsTrap unit.toNat)
      | some (core, num) =>
        let x := getPorter e.s core num
        if x.st ≠ .idle ∧ x.team ≠ some e.t ∧ isHandler e.t = false then .error (rightsTrap unit.toNat)
        else
          let s1 := stopPorter e.s core num
          if (getPorter s1 core num).st = .idle then .ok (done e (writeRun e s1 d 1 fun _ => x.st.code))
          else .ok (later { e with s := s1 } s1 (.pstop core num) [] (outKeys e d 1) x.st.code)

/-- R173: the words that PSTAT reads. -/
def pstatWord (x : Porter) (sel : Nat) : Nat :=
  match sel with
  | 0 => (match x.fault with
      | some f => f.roff % 2 ^ 24 * 2 ^ 16 + f.code.toNat * 2 ^ 8
      | none => 0) + min x.xfers.length 32 * 4 + x.st.code
  | 1 => if x.st = .idle then 0 else x.pc.toNat
  | _ => match x.fault with
    | some f => f.va.toNat
    | none => 0

def execPstat (c : Ctl) (d : Code) (unit : BitVec 3) (sel : BitVec 16) (s : State) : Host.Outcome State Fault Refusal :=
  perform (.pstat c d unit sel) c
    { fields := fun k => [⟨d, .out (if k = .group then 2 else 1)⟩]
      illegal := fun _ => if 2 < sel.toNat then some sel.toNat else none } s fun e =>
    if e.act.isEmpty then .ok (done e e.s)
    else if !hasRights e then .error (rightsTrap unit.toNat)
    else match porterOf e unit.toNat with
      | none => .error (rightsTrap unit.toNat)
      | some (core, num) =>
        let v := pstatWord (getPorter e.s core num) sel.toNat
        .ok (done e (writeRun e e.s d (if e.kind = .group then 2 else 1) fun _ => v))

end Sys2Proof.Machine
end

