-- ==== Sys2Proof/Machine/Xfer.lean ====
section
/-! DEFINITION. Transfers of a porter: the packed image, its units, their addresses and checks, quantising stores, and
the performing of one unit (R174 to R188, R198, R486 to R490). -/

namespace Sys2Proof.Machine

/-! ### The shape of a transfer -/

/-- What stands at an end of a transfer: the tensor box, scratchpad rows, a linear scratchpad range, a queue, or data
that the instruction forms itself. -/
inductive XEnd where
  | tensor | rows | linear | queue | formed
  deriving DecidableEq, Repr

def xSource : Instr → XEnd
  | .xcopy _ _ _ _ _ _ _ dir => match dir.toNat with
    | 0 | 2 => .tensor
    | 1 => .rows
    | 4 => .linear
    | _ => .queue
  | .xgather .. => .tensor
  | .xscatter .. => .rows
  | _ => .formed

def xDest : Instr → XEnd
  | .xcopy _ _ _ _ _ _ _ dir => match dir.toNat with
    | 0 => .rows
    | 1 | 3 => .tensor
    | 5 => .linear
    | _ => .queue
  | .xgather .. => .rows
  | .xscatter .. | .xstmx .. => .tensor
  | .xfill _ _ _ _ _ s => if s then .linear else .tensor
  | _ => .formed

/-- R174: pad words after each scratchpad row. -/
def xPad : Instr → Nat
  | .xcopy _ _ _ _ _ _ pad _ => pad.toNat
  | .xgather _ _ _ _ _ pad _ | .xscatter _ _ _ _ _ pad _ | .xmcast _ _ _ _ _ pad | .xstmx _ _ _ _ pad _ _ => pad.toNat
  | _ => 0

/-- R178: the queue of a queue form. -/
def xQueue : Instr → Nat
  | .xcopy _ _ _ _ _ q _ _ => q.toNat
  | _ => 0

/-- R176: bytes of a packed row. -/
def xRow (d : BitVec 512) : Nat := roundUp (ceilDiv (tdBox d 0 * tdBits d) 8) 4

/-- R176: rows of a box. -/
def xRows (d : BitVec 512) : Nat := tdBox d 1 * tdBox d 2 * tdBox d 3 * tdBox d 4

def isIndexed : Instr → Bool
  | .xgather .. | .xscatter .. => true
  | _ => false

/-- The coordinate of the first element of image row r (R176, R179). -/
def rowCoord (x : Xfer) (r : Nat) : List Int :=
  if isIndexed x.instr then [nth x.coord 0 0, nth x.idx r 0, nth x.coord 2 0, nth x.coord 3 0, nth x.coord 4 0]
  else
    let b1 := tdBox x.desc 1
    let b2 := tdBox x.desc 2
    let b3 := tdBox x.desc 3
    let at' := fun (i j : Nat) => nth x.coord i 0 + (j : Int)
    [nth x.coord 0 0, at' 1 (r % b1), at' 2 (r / b1 % b2), at' 3 (r / (b1 * b2) % b3), at' 4 (r / (b1 * b2 * b3))]

/-- The coordinate of column j of image row r. -/
def elemCoord (x : Xfer) (r j : Nat) : List Int := (rowCoord x r).set 0 (nth x.coord 0 0 + (j : Int))

/-- R104: byte m of a row of `n` elements of `b` bits. -/
def packByte (b n m : Nat) (f : Nat → Nat) : Nat :=
  let j0 := 8 * m / b
  let js := (upto j0 ((8 * m + 7) / b + 1 - j0)).filter fun j => decide (j < n)
  let v := js.foldl (fun v j => v + f j % 2 ^ b * 2 ^ ((j - j0) * b)) 0
  v / 2 ^ (8 * m - j0 * b) % 256

/-- The columns that byte m of a row holds part of. -/
def byteCols (b n m : Nat) : List Nat :=
  (upto (8 * m / b) ((8 * m + 7) / b + 1 - 8 * m / b)).filter fun j => decide (j < n)

/-- R175, R198: where byte m of image row r lies in the tensor, and which of its bits belong to elements in bounds. -/
def tensorByte (x : Xfer) (r m : Nat) : Option (Nat × Nat) :=
  let d := x.desc
  let b := tdBits d
  let n := tdBox d 0
  match (byteCols b n m).find? fun j => inBounds d (elemCoord x r j) with
  | none => none
  | some j =>
    let a := (elemBit d (elemCoord x r j) : Int) + 8 * (m : Int) - ((j * b : Nat) : Int)
    some ((a / 8).toNat, packByte b n m fun i => if inBounds d (elemCoord x r i) then 2 ^ b - 1 else 0)

/-! ### Pieces of a unit -/

/-- Bytes of an image that lie together: image offset, address, count, and the bits that count. -/
structure Piece where
  k : Nat
  a : Nat
  n : Nat
  mask : Nat
  deriving DecidableEq, Repr

/-- Join bytes whose addresses follow one another within one unit of poison. -/
def joinPieces (gran : Nat) (l : List (Nat × Nat × Nat)) : List Piece :=
  (l.foldl (fun (acc : List Piece) x =>
    match acc with
    | p :: r =>
      if p.mask = 255 ∧ x.2.2 = 255 ∧ p.k + p.n = x.1 ∧ p.a + p.n = x.2.1 ∧ p.a / gran = x.2.1 / gran then
        { p with n := p.n + 1 } :: r
      else ⟨x.1, x.2.1, 1, x.2.2⟩ :: acc
    | [] => [⟨x.1, x.2.1, 1, x.2.2⟩]) []).reverse

/-- R176: image bytes of unit u. -/
def unitBytes (len u : Nat) : List Nat := upto (32 * u) (min len (32 * u + 32) - 32 * u)

/-- The pieces of unit u at an end. -/
def endPieces (x : Xfer) (en : XEnd) (u : Nat) : List Piece :=
  let row := xRow x.desc
  match en with
  | .tensor => joinPieces (if tdSpace x.desc then 8 else 32) ((unitBytes x.len u).filterMap fun k =>
      (tensorByte x (k / row) (k % row)).map fun t => (k, t.1, t.2))
  | .rows => joinPieces 8 ((unitBytes x.len u).map fun k =>
      (k, x.sp + k / row * (row + 4 * xPad x.instr) + k % row, 255))
  | .linear => joinPieces 8 ((unitBytes x.len u).map fun k => (k, x.sp + k, 255))
  | _ => []

/-- Does an end lie in scratchpad? -/
def endSp (x : Xfer) (en : XEnd) : Bool :=
  match en with
  | .tensor => tdSpace x.desc
  | _ => true

/-! ### Quantising stores -/

/-- R184: the source row and column of the element at block offset i of the block that holds (r, j). -/
def blockElems (x : Xfer) (r j : Nat) : List (Nat × Nat) :=
  let d := x.desc
  let a := tdBaxis d
  let b1 := tdBox d 1
  let b2 := tdBox d 2
  let b3 := tdBox d 3
  let js := [j, r % b1, r / b1 % b2, r / (b1 * b2) % b3, r / (b1 * b2 * b3)]
  let base := nth js a 0 / 32 * 32
  (upto 0 32).map fun i =>
    let y := js.set a (base + i)
    (nth y 1 0 + b1 * (nth y 2 0 + b2 * (nth y 3 0 + b3 * nth y 4 0)), nth y 0 0)

/-- R489: bytes of a source element and the scratchpad address of one. -/
def stmxSize : Instr → Nat
  | .xstmx _ _ _ _ _ bf16 _ => if bf16 then 2 else 4
  | _ => 4

def stmxAddr (x : Xfer) (r j : Nat) : Nat :=
  let z := stmxSize x.instr
  x.sp + r * (4 * ceilDiv (tdBox x.desc 0 * z) 4 + 4 * xPad x.instr) + j * z

/-- R184: emax of an element format. -/
def stmxEmax (f : Nat) : Int :=
  match f with
  | 3 => 8
  | 4 => 15
  | 5 => 4
  | 6 | 7 => 2
  | _ => 0

/-- R184: the block's scale and element codes, from FP32 values. -/
def quantBlock (f : Nat) (had : Bool) (seed bx : Nat) (v : List Nat) : Nat × List Nat :=
  let x := (if had then hadamard seed bx v else v).map (fpDecode fp32)
  if x.any fun y => match y with | .nan _ | .inf _ => true | _ => false then (0xFF, List.replicate 32 0)
  else
    let logs : List Int := x.filterMap fun y => match y with
      | .fin _ m e => some ((Nat.log2 m : Int) + e)
      | _ => none
    let s : Int := match logs with
      | [] => -127
      | l :: r => min 127 (max (-127) (r.foldl max l - stmxEmax f))
    ((s + 127).toNat, x.map fun y => match y with
      | .fin neg m e =>
        if f = 10 then (toIntFmt 8 6 0 0 (.fin neg m (e - s))).bits
        else (roundF (fmtOf f) 0 false true neg m 1 (e - s)).bits
      | .zero neg => if f = 10 then 0 else (fmtOf f).signBit neg
      | _ => 0)

/-- R93: the window half and offset of a scratchpad address from a core. -/
def spAt (t : Team) (core a : Nat) : Nat × Nat := (spHalf t core a, a % 2 ^ 24)

/-- The source element of an XSTMX as FP32, and its poison (R184, R186). -/
def stmxValue (t : Team) (core : Nat) (x : Xfer) (rj : Nat × Nat) : Nat × Bool :=
  if inBounds x.desc (elemCoord x rj.1 rj.2) then
    let z := stmxSize x.instr
    let (h, o) := spAt t core (stmxAddr x rj.1 rj.2)
    let v := ofBytes (spBytes t h o z)
    (if z = 2 then v * 2 ^ 16 else v, spBad t h o z)
  else (0, false)

/-- R184 to R186: a block as stored: its scale, its codes in block order, and its poison. -/
def stmxBlock (t : Team) (core : Nat) (x : Xfer) (r j : Nat) : Nat × List Nat × Bool :=
  let vs := (blockElems x r j).map (stmxValue t core x)
  let q := quantBlock (tdFmt x.desc) (tdHad x.desc) (tdSeed x.desc) (blockIndex x.desc (elemCoord x r j)) (vs.map (·.1))
  (q.1, q.2, vs.any (·.2))

/-- Position of column j of row r along the block axis, within its block. -/
def blockPos (x : Xfer) (r j : Nat) : Nat :=
  ((nth (elemCoord x r j) (tdBaxis x.desc) 0) % 32).toNat

/-- The (row, column) pairs of the elements of which unit u holds a part. -/
def unitElems (x : Xfer) (u : Nat) : List (Nat × Nat) :=
  let row := xRow x.desc
  ((unitBytes x.len u).flatMap fun k =>
    (byteCols (tdBits x.desc) (tdBox x.desc 0) (k % row)).map fun j => (k / row, j)).eraseDups

/-- R184: the last image byte of the block that holds (r, j). -/
def blockEnd (x : Xfer) (r j : Nat) : Nat :=
  let b := tdBits x.desc
  (blockElems x r j).foldl (fun m e => max m (e.1 * xRow x.desc + ((e.2 + 1) * b - 1) / 8)) 0

/-- R184: the blocks whose last element lies in unit u, each by its first element, and whether some element of it is
in bounds. -/
def unitBlocks (x : Xfer) (u : Nat) : List ((Nat × Nat) × Bool) :=
  let firsts := ((unitElems x u).map fun e => nth (blockElems x e.1 e.2) 0 e).eraseDups
  (firsts.filter fun e => blockEnd x e.1 e.2 / 32 == u).map fun e =>
    (e, (blockElems x e.1 e.2).any fun y => inBounds x.desc (elemCoord x y.1 y.2))

/-- R184: the pieces of the scale bytes that unit u writes. -/
def scalePieces (x : Xfer) (u : Nat) : List Piece :=
  (unitBlocks x u).filterMap fun b =>
    if b.2 then some ⟨32 * u, tdSbase x.desc + blockIndex x.desc (elemCoord x b.1.1 b.1.2), 1, 255⟩ else none

/-- R184, R176: the bytes that a unit credits. -/
def unitCredit (x : Xfer) (u : Nat) : Nat :=
  (unitBytes x.len u).length + (match x.instr with | .xstmx .. => (unitBlocks x u).length | _ => 0)

/-- R184: the source pieces of unit u of an XSTMX: every element in bounds of the blocks that it needs. -/
def stmxSource (x : Xfer) (u : Nat) : List Piece :=
  let blocks := ((unitElems x u).map fun e => nth (blockElems x e.1 e.2) 0 e).eraseDups
  blocks.flatMap fun b => (blockElems x b.1 b.2).filterMap fun e =>
    if inBounds x.desc (elemCoord x e.1 e.2) then some ⟨32 * u, stmxAddr x e.1 e.2, stmxSize x.instr, 255⟩ else none

/-! ### Checks -/

/-- R188, R180: the team that occupies the slice of a porter's starting team on a core. -/
def mcastTeam (s : State) (t : Team) (core : Nat) : Option (Nat × Team) :=
  s.teams.find? fun y => !isHandler y.1 && y.2.resident && y.2.launch == t.launch && y.2.slot == t.slot && teamOn y.2 core

/-- The cores that a mask names (R180). -/
def mcastCores (core : Nat) (mask : Nat) : List Nat :=
  (upto 0 20).filterMap fun i => if tb mask i then some (quadOf core * 20 + i) else none

/-- R93, R176: a scratchpad piece; the fault gives the first address that fails. -/
def spPiece (t : Team) (p : Piece) : Option (Byte × Nat) :=
  let bad := fun a => bits a 25 7 != 0 || decide (2 ^ 32 ≤ a) || decide (t.window < a % 2 ^ 24 + 1) || (tb a 24 && !t.pair)
  ((upto p.a p.n).find? bad).map fun a => (tcAccess, a)

/-- How the check of a unit ends: with the pages it needs, or with the fault: code, cause, INFO and address. -/
abbrev Checks := Except (Byte × Nat × Nat × Nat) (Tab (Nat × Nat × Nat × Nat))

/-- R176: check pieces at an end. -/
def checkPieces (s : State) (ctx core : Nat) (t : Team) (sp : Bool) (k : Acc133) (ps : List Piece)
    (pages : Tab (Nat × Nat × Nat × Nat)) : Checks :=
  foldE ps pages fun pages p =>
    if sp then match spPiece t p with
      | some (code, a) => .error (code, 0, a % 2 ^ 16, 0)
      | none => .ok pages
    else if p.a < 2 ^ 49 ∧ (Tab.find pages (p.a / 4096)).isSome then .ok pages
    else match checkNow s ctx core p.a 1 k with
      | .ok q => .ok (Tab.set pages (p.a / 4096) (q.pa / 4096 * 4096, q.key, q.ca, q.scp))
      | .error (code, cause) => .error (code, cause, cause * 4096 + (if k = .store then 1024 else 0), p.a)

/-- R176: every address that unit u reads, then every address that it writes. -/
def checkUnit (s : State) (ctx core : Nat) (t : Team) (x : Xfer) (pages : Tab (Nat × Nat × Nat × Nat)) (u : Nat) :
    Checks :=
  let src := match x.instr with
    | .xstmx .. => checkPieces s ctx core t true .load (stmxSource x u) pages
    | .xmcast .. => checkPieces s ctx core t (tdSpace x.desc) .load (endPieces x .tensor u) pages
    | i => checkPieces s ctx core t (endSp x (xSource i)) .load (endPieces x (xSource i) u) pages
  match src with
  | .error e => .error e
  | .ok pages =>
    match x.instr with
    | .xstmx .. =>
      checkPieces s ctx core t (tdSpace x.desc) .store (endPieces x .tensor u ++ scalePieces x u) pages
    | .xmcast .. => foldE (mcastCores core x.extra.toNat) pages fun pages c => match mcastTeam s t c with
        | some (_, y) => checkPieces s ctx core y true .store (endPieces x .rows u) pages
        | none => .ok pages
    | i => checkPieces s ctx core t (endSp x (xDest i)) .store (endPieces x (xDest i) u) pages

/-- Check units in ascending order: the pages, the first unit that fails, and its fault. -/
def checkUnits (s : State) (ctx core : Nat) (t : Team) (x : Xfer) (us : List Nat) (pages : Tab (Nat × Nat × Nat × Nat)) :
    Tab (Nat × Nat × Nat × Nat) × Option (Nat × Byte × Nat × Nat × Nat) :=
  match us with
  | [] => (pages, none)
  | u :: r => match checkUnit s ctx core t x pages u with
    | .ok pages => checkUnits s ctx core t x r pages
    | .error e => (pages, some (u, e))

/-- Units of a transfer. -/
def xUnits (x : Xfer) : Nat := ceilDiv x.len 32

/-! ### Order among the units of a porter (R149, R158, R183) -/

def piecePhys (x : Xfer) (p : Piece) : Phys :=
  match Tab.find x.pages (p.a / 4096) with
  | some (pa, key, ca, scp) => ⟨pa + p.a % 4096, key, ca, scp, false, false⟩
  | none => ⟨0, 0, 0, 0, false, false⟩

/-- R149: the address that a piece will be performed at: by the page that its check captured, or, of a unit of a queue form
that is not checked yet, as the tables stand; `none` without a translation. -/
def pieceAt (s : State) (t : Team) (core : Nat) (x : Xfer) (p : Piece) : Option Nat :=
  if (Tab.find x.pages (p.a / 4096)).isSome then some (piecePhys x p).pa else translate s t.ctx core p.a

/-- The sectors and scratchpad words of pieces, as numbers. -/
def pieceKeys (s : State) (tid : Nat) (t : Team) (core : Nat) (x : Xfer) (sp : Bool) (ps : List Piece) : List Nat :=
  ps.flatMap fun p =>
    if sp then
      let (h, o) := spAt t core p.a
      (spWords o p.n).map fun w => ((tid * 2 + h) * 2 ^ 24 + w) * 2 + 1
    else ((pieceAt s t core x p).map fun a => a / 32 * 2).toList

/-- What unit u reads and writes. -/
def unitReads (s : State) (tid : Nat) (t : Team) (core : Nat) (x : Xfer) (u : Nat) : List Nat :=
  match x.instr with
  | .xstmx .. => pieceKeys s tid t core x true (stmxSource x u)
  | i => pieceKeys s tid t core x (endSp x (xSource i)) (endPieces x (xSource i) u)

def unitWrites (s : State) (tid : Nat) (t : Team) (core : Nat) (x : Xfer) (u : Nat) : List Nat :=
  match x.instr with
  | .xstmx .. => pieceKeys s tid t core x (tdSpace x.desc) (endPieces x .tensor u ++ scalePieces x u)
  | .xmcast .. => x.dsts.flatMap fun c => match mcastTeam s t c.1 with
      | some (y, z) => if c.2 ≤ u then pieceKeys s y z c.1 x true (endPieces x .rows u) else []
      | none => []
  | i => pieceKeys s tid t core x (endSp x (xDest i)) (endPieces x (xDest i) u)

/-- The units of a transfer still to be performed. -/
def unitsLeft (x : Xfer) : List Nat :=
  let lo := match x.instr with
    | .xmcast .. => minOf (x.dsts.map (·.2)) x.stop
    | _ => x.next
  upto lo (x.stop - lo)

/-- Writes of earlier outstanding transfers to any of the keys. -/
def writesDue (s : State) (tid : Nat) (t : Team) (core : Nat) (xs : List Xfer) (keys : List Nat) : Bool :=
  xs.any fun y => (unitsLeft y).any fun u => (unitWrites s tid t core y u).any keys.contains

/-- R149, R183: a stamp issued before transfer `id` is still to be written to one of the sectors. -/
def stampsDue (ss : List Stamp) (id : Nat) (keys : List Nat) : Bool :=
  ss.any fun z => decide (z.after ≤ id) && keys.contains (z.pa / 32 * 2)

/-- May unit u of a transfer be performed before the rest of the transfers and stamps issued earlier? -/
def unitFree (s : State) (tid : Nat) (t : Team) (core : Nat) (xs : List Xfer) (ss : List Stamp) (x : Xfer) (u : Nat) :
    Bool :=
  let old := xs.filter fun y => decide (y.id < x.id)
  if stampsDue ss x.id (unitReads s tid t core x u ++ unitWrites s tid t core x u) then false
  else if old.isEmpty then true
  else
    let wr := unitWrites s tid t core x u
    let rd := unitReads s tid t core x u
    let memWrite := wr.any fun k => k % 2 == 0
    !writesDue s tid t core old (rd ++ wr) && !(old.any fun y => (unitsLeft y).any fun v =>
      (unitReads s tid t core y v).any fun k => wr.contains k || (memWrite && k % 2 == 0))

/-! ### Performing -/

/-- R160: a porter's read through the core's write buffer and L1. -/
def portRead (s : State) (core : Nat) (p : Phys) (n : Nat) : State × Nat × Bool :=
  let l1 := polLevel 0 p.ca false
  let sc := polLevel 0 p.ca true
  if p.ca = 1 then readSlice s core p.pa p.key n l1 sc p.scp else readMem s core p n l1 sc

/-- R160: a porter's write. -/
def portWrite (s : State) (core : Nat) (p : Phys) (l : List Byte) (bad : Bool) : State :=
  let s := storeBytes s core p (polLevel 0 p.ca false) (polLevel 0 p.ca true) l bad
  if p.ca = 1 then drainSector s core (p.pa / 32) else s

/-- Read one piece: its bytes, and its poison. -/
def pieceRead (s : State) (tid core : Nat) (x : Xfer) (sp : Bool) (p : Piece) : State × List (Byte × Bool) :=
  let cut := fun (l : List Byte) (bad : Bool) => l.map fun (b : Byte) => (b &&& BitVec.ofNat 8 p.mask, bad)
  if sp then match getTeam s tid with
    | some t => let (h, o) := spAt t core p.a; (s, cut (spBytes t h o p.n) (spBad t h o p.n))
    | none => (s, [])
  else
    let (s, v, bad) := portRead s core (piecePhys x p) p.n
    (s, cut (bytesOf p.n v) bad)

/-- The image bytes of a unit that pieces give; the others are 0 (R175, R176). -/
def fillUnit (len u : Nat) (got : List (Nat × List (Byte × Bool))) : List (Byte × Bool) :=
  (unitBytes len u).map fun k => match got.find? fun g => decide (g.1 ≤ k ∧ k < g.1 + g.2.length) with
    | some g => nth g.2 (k - g.1) (0, false)
    | none => (0, false)

/-- Read the bytes of unit u from an end. -/
def unitRead (s : State) (tid core : Nat) (x : Xfer) (en : XEnd) (u : Nat) : State × List (Byte × Bool) :=
  let r := (endPieces x en u).foldl (fun (acc : State × List (Nat × List (Byte × Bool))) p =>
    let (s, l) := pieceRead acc.1 tid core x (endSp x en) p
    (s, acc.2 ++ [(p.k, l)])) (s, [])
  (r.1, fillUnit x.len u r.2)

/-- R104, R181, R184: the bytes of unit u that the instruction forms itself. -/
def unitFormed (t : Team) (core : Nat) (x : Xfer) (u : Nat) : List (Byte × Bool) :=
  let row := xRow x.desc
  let b := tdBits x.desc
  let n := tdBox x.desc 0
  match x.instr with
  | .xfill _ _ _ _ _ true => (unitBytes x.len u).map fun k => (BitVec.ofNat 8 (x.extra.toNat / 2 ^ (8 * (k % 4))), false)
  | .xfill .. => (unitBytes x.len u).map fun k => (BitVec.ofNat 8 (packByte b n (k % row) fun _ => x.extra.toNat), false)
  | .xstmx .. =>
    let blocks := ((unitElems x u).map fun e => nth (blockElems x e.1 e.2) 0 e).eraseDups.map fun f =>
      (f, stmxBlock t core x f.1 f.2)
    let block := fun (r j : Nat) => match blocks.find? fun y => y.1 == nth (blockElems x r j) 0 (r, j) with
      | some y => y.2
      | none => (0, [], false)
    (unitBytes x.len u).map fun k =>
      let r := k / row
      let bad := (byteCols b n (k % row)).any fun j => (block r j).2.2
      (BitVec.ofNat 8 (packByte b n (k % row) fun j => nth (block r j).2.1 (blockPos x r j) 0), bad)
  | _ => (unitBytes x.len u).map fun k => nth x.image k (0, false)

/-- Write one piece: bits that belong to elements out of bounds are dropped (R175). -/
def pieceWrite (s : State) (tid core : Nat) (x : Xfer) (sp : Bool) (p : Piece) (l : List (Byte × Bool)) : State :=
  let bad := l.any (·.2)
  let merge := fun (old : List Byte) => if p.mask = 255 then l.map (·.1) else
    [(nth old 0 0 &&& ~~~(BitVec.ofNat 8 p.mask)) ||| ((nth l 0 (0, false)).1 &&& BitVec.ofNat 8 p.mask)]
  if sp then modTeam s tid fun t =>
    let (h, o) := spAt t core p.a
    spWrite t h o (merge (spBytes t h o 1)) bad
  else
    let q := piecePhys x p
    if p.mask = 255 then portWrite s core q (l.map (·.1)) bad
    else
      let (s, v, b) := portRead s core q 1
      portWrite s core q (merge (bytesOf 1 v)) (bad || b)

/-- Write the bytes of unit u at an end of a team. -/
def unitWrite (s : State) (tid core : Nat) (x : Xfer) (en : XEnd) (u : Nat) (l : List (Byte × Bool)) : State :=
  (endPieces x en u).foldl (fun s p => pieceWrite s tid core x (endSp x en) p ((l.drop (p.k - 32 * u)).take p.n)) s

/-- R184, R186: the scale bytes that go with unit u: address, value and poison. -/
def unitScales (t : Team) (core : Nat) (x : Xfer) (u : Nat) : List (Nat × Byte × Bool) :=
  match x.instr with
  | .xstmx .. => ((unitBlocks x u).filter (·.2)).map fun b =>
      let q := stmxBlock t core x b.1.1 b.1.2
      (tdSbase x.desc + blockIndex x.desc (elemCoord x b.1.1 b.1.2), BitVec.ofNat 8 q.1, q.2.2)
  | _ => []

def scalesWrite (s : State) (tid core : Nat) (x : Xfer) (l : List (Nat × Byte × Bool)) : State :=
  l.foldl (fun s y => pieceWrite s tid core x (tdSpace x.desc) ⟨0, y.1, 1, 255⟩ [(y.2.1, y.2.2)]) s

/-! ### Credits -/

/-- R188: the barrier that a delivery to core `c` credits. -/
def mcastBar (s : State) (t : Team) (core : Nat) (b : BarRef) (c : Nat) : Option BarRef :=
  if c = core ∨ (tb b.low.toNat 6 ∧ c / 2 = core / 2) then some b
  else (mcastTeam s t c).bind fun y => barNamed y.2 (b.low.toNat % 64)

/-- R188, R161: credit `n` bytes to the bound barrier, for a delivery to core `c`; the answer says whether the credit
was dropped. For a pair barrier the core's writes are drained first. -/
def porterCredit (s : State) (core num c n : Nat) : State × Bool :=
  let x := getPorter s core num
  match x.bar, getTeam s (x.team.getD 0) with
  | some b, some t => match mcastBar s t core b c with
    | some r => barCredit (if tb b.low.toNat 6 then drainCore s core else s) r core n
    | none => (s, true)
  | _, _ => (s, false)

end Sys2Proof.Machine
end

