-- ==== Sys2Proof/Machine/Island.lean ====
section
/-! DEFINITION. Islands: images and their verification, owners and loading, bindings, requests and responses, faults,
ILOAD, QBIND and the ICTL selectors 0 to 3 (R220 to R235, R418, R419, R447). -/

namespace Sys2Proof.Machine

/-! ### The islands of the device -/

/-- R15, R220: an island by kind and index: the quadrant of a raster island, the core of a sampler or ray island, the SC
slice of a blend island. -/
def getIsle (s : State) (kind idx : Nat) : Island :=
  match kind with
  | 0 => Tab.get s.raster idx .empty
  | 1 => Tab.get s.sampler idx .empty
  | 2 => Tab.get s.ray idx .empty
  | _ => Tab.get s.blend idx .empty

def setIsle (s : State) (kind idx : Nat) (x : Island) : State :=
  match kind with
  | 0 => { s with raster := Tab.set s.raster idx x }
  | 1 => { s with sampler := Tab.set s.sampler idx x }
  | 2 => { s with ray := Tab.set s.ray idx x }
  | _ => { s with blend := Tab.set s.blend idx x }

def modIsle (s : State) (kind idx : Nat) (f : Island → Island) : State := setIsle s kind idx (f (getIsle s kind idx))

/-- Every island that has ever been used. -/
def allIsles (s : State) : List (Nat × Nat) :=
  s.raster.map (fun x => (0, x.1)) ++ s.sampler.map (fun x => (1, x.1)) ++ s.ray.map (fun x => (2, x.1)) ++
    s.blend.map (fun x => (3, x.1))

/-- R139: the quadrant that a slice and its blend island serve. -/
def sliceQuad (slice : Nat) : Nat := slice / 8

/-- R15, R229: the blend islands have their ports, owner and image in common: the islands that share those of one. -/
def portSet (kind idx : Nat) : List Nat := if kind = 3 then upto 0 32 else [idx]

/-- A change of the ports of an island. -/
def modPorts (s : State) (kind idx : Nat) (f : Island → Island) : State :=
  (portSet kind idx).foldl (fun s i => modIsle s kind i f) s

/-- The island, of those with the same ports, that is faulted; else one that loads; else the first. -/
def viewIdx (s : State) (kind idx : Nat) : Nat :=
  let l := portSet kind idx
  ((l.find? fun i => (getIsle s kind i).fault.isSome).or (l.find? fun i => (getIsle s kind i).loading.isSome)).getD
    (l.headD idx)

/-- An island as its ports show it (R229, R233): one blend island that loads or has a fault holds up the port of all. -/
def isleView (s : State) (kind idx : Nat) : Island := getIsle s kind (viewIdx s kind idx)

/-- R229: some island with these ports still loads. -/
def isleLoads (s : State) (kind idx : Nat) : Bool := (portSet kind idx).any fun i => (getIsle s kind i).loading.isSome

/-- R230, R250: the island that an issuer names. -/
def isleIdx (e : Env) (kind : Nat) : Nat :=
  match kind with
  | 0 => quadOf e.tm.core
  | 3 => 0
  | _ => e.core

/-- R234: the state code. -/
def isleState (x : Island) : Nat :=
  if x.fault.isSome then 3 else if x.loading.isSome then 1 else if x.image.isSome then 2 else 0

/-- R252: `ready` for a context. -/
def isleReady (x : Island) (ctx : Nat) : Bool := x.owner == some ctx && isleState x == 2

/-- The completion of an outstanding operation with a value for its destination (R230, R418). -/
def completeOp (s : State) (p : Party) (o : Op) (v : Nat) : State :=
  let w := if kindOf p = .group then 32 else 64
  modCom (putRegs s p (o.dst.map fun d => (d.1, v / 2 ^ (w * d.2.2) % 2 ^ w))) p fun c => endOp c o

/-! ### Port words (R227) -/

def portOut (w : Word) : Bool := tb w.toNat 31
def portNum (w : Word) : Nat := bits w.toNat 24 4
def portUnit (w : Word) : Nat := bits w.toNat 16 8
def portWords (w : Word) : Nat := bits w.toNat 0 7

/-- The class in a slot of an image: identifier and port words. -/
def classAt (x : Option Image) (slot : Nat) : Option (Nat × List Word) := x.bind fun i => i.classes[slot]?

/-- A port of a class. -/
def portAt (c : Option (Nat × List Word)) (port : Nat) : Option Word := c.bind fun c => c.2.find? fun w => portNum w == port

/-- The class of a binding. -/
def classOf (x : Island) (b : Binding) : Option (Nat × List Word) := classAt x.image b.cls

/-- R230: an input binding. -/
def isInput (x : Island) (b : Binding) : Bool :=
  match portAt (classOf x b) b.port with
  | some w => !portOut w
  | none => false

/-- R231: the output binding of a team for a class; none for a class with no output port. -/
def outPort (c : Nat × List Word) : Option Word := c.2.find? portOut
def outBinding (x : Island) (team cls : Nat) : Option Binding :=
  match (classAt x.image cls).bind outPort with
  | some w => x.binds.find? fun b => b.team == team && b.cls == cls && b.port == portNum w
  | none => none

/-- R224, R250: the baseline classes' port words. -/
def baseline (id : Nat) : Option (List Word) :=
  match id with
  | 0x0001 => some [0x00010008, 0x81010010]
  | 0x0002 => some [0x0001000A, 0x81020020]
  | 0x1001 => some [0x00050000, 0x81040000]
  | 0x1002 => some [0x00040000, 0x81040000]
  | 0x2001 => some [0x00090000, 0x81010000]
  | 0x2002 => some [0x00090000, 0x81040000]
  | 0x2003 => some [0x00010010, 0x81010001]
  | 0x3001 => some [0x00050000]
  | _ => none

/-! ### Images (R225 to R230) -/

def leAt (l : List Byte) (off n : Nat) : Nat := ofBytes ((l.drop off).take n)
def zeroBytes (l : List Byte) (off n : Nat) : Bool := ((l.drop off).take n).all (· == 0)

/-- R227: a port word without reserved bits or values. -/
def portWordOk (w : Word) : Bool :=
  bits w.toNat 28 3 == 0 && bits w.toNat 7 9 == 0 && decide (portNum w ≤ 7) && decide (1 ≤ portUnit w ∧ portUnit w ≤ 16) &&
    decide (portWords w ≤ 64)

/-- R225, R227: entry i of the class table: identifier, table offset, table length, port words. -/
def classEntry (l : List Byte) (i : Nat) : Option (Nat × Nat × Nat × List Word) :=
  let id := leAt l (16 + 8 * i) 2
  let off := leAt l (18 + 8 * i) 4
  let n := leAt l off 1
  let ws := (upto 0 n).map fun j => BitVec.ofNat 32 (leAt l (off + 4 + 4 * j) 4)
  if zeroBytes l (22 + 8 * i) 2 && decide (512 ≤ off) && decide (off + 4 + 4 * n ≤ l.length) && decide (1 ≤ n ∧ n ≤ 8) &&
      zeroBytes l (off + 1) 3 && ws.all portWordOk && (ws.map portNum).eraseDups.length == n &&
      id / 2 ^ 12 == leAt l 7 1 then some (id, off, 4 + 4 * n, ws)
  else none

/-- The class table; none when it is malformed. -/
def classTable (l : List Byte) : Option (List (Nat × Nat × Nat × List Word)) :=
  let n := leAt l 12 1
  if !((upto n (4 - n)).all fun i => zeroBytes l (16 + 8 * i) 8) then none
  else
    let r := (upto 0 n).filterMap (classEntry l)
    if r.length = n then some r else none

/-- The sections, as (offset, length). -/
def sections (l : List Byte) : List (Nat × Nat) :=
  (upto 0 (leAt l 13 1)).map fun i => (leAt l (64 + 8 * i) 4, leAt l (68 + 8 * i) 4)

/-- R225: the spans lie at 512 or more, within the image, and do not overlap. -/
def spansOk (len : Nat) (l : List (Nat × Nat)) : Bool :=
  l.all (fun a => decide (512 ≤ a.1) && decide (a.1 + a.2 ≤ len)) &&
    l.zipIdx.all fun a => l.zipIdx.all fun b =>
      a.2 == b.2 || decide (a.1.1 + a.1.2 ≤ b.1.1) || decide (b.1.1 + b.1.2 ≤ a.1.1)

/-- R225, R226: reserved fields of the header and the signature block. -/
def imageReserved (l : List Byte) : Bool :=
  zeroBytes l 14 2 && zeroBytes l 56 8 && zeroBytes l 224 32 && zeroBytes l 257 7 && zeroBytes l 464 48 &&
    (leAt l 256 1 != 0 || zeroBytes l 264 136)

/-- R230 status 1. -/
def imageMalformed (base len : Nat) (l : List Byte) : Bool :=
  let n := leAt l 12 1
  let k := leAt l 13 1
  decide (len < 512) || len % 64 != 0 || base % 64 != 0 || leAt l 0 4 != 0x4C5A5247 || leAt l 4 2 != 1 ||
    leAt l 8 4 != len || n == 0 || decide (4 < n) || k == 0 || decide (16 < k) || !imageReserved l ||
    decide (1 < leAt l 256 1) || !((upto k (16 - k)).all fun i => zeroBytes l (64 + 8 * i) 8) ||
    (match classTable l with
      | none => true
      | some t => !spansOk len (sections l ++ t.map fun c => (c.2.1, c.2.2.1)))

/-- R225: the bytes that HASH covers. -/
def hashed (l : List Byte) : List Byte :=
  l.take 192 ++ ((sections l).map fun x => (l.drop x.1).take x.2).flatten

/-- A field of the signature block as the number of its bytes. -/
def sigField (l : List Byte) (off n : Nat) : BitVec 512 := BitVec.ofNat 512 (leAt l off n)

/-- R225: size of an island's store. -/
def storeSize (kind : Nat) : Nat := match kind with
  | 0 => 256 * 1024
  | 3 => 32 * 1024
  | _ => 64 * 1024

/-- Same port words, in any order. -/
def samePorts (a b : List Word) : Bool := a.length == b.length && a.all b.contains && b.all a.contains

/-- R230: the status of an image, against what the context's image set holds for the kind. -/
def imageStatus (kind base len : Nat) (l : List Byte) (bad : Bool) (old : Option Image) : Nat :=
  let size := leAt l 48 4 + leAt l 52 4
  let hash := (l.drop 192).take 32
  let dig := BitVec.ofNat 256 (ofBytes hash)
  let pub := leAt l 256 1 == 1
  if imageMalformed base len l then 1
  else if leAt l 6 1 ≠ bits Config.devident 12 4 then 2
  else if leAt l 7 1 ≠ kind then 3
  else if bad || sm3 (hashed l) != hash then 4
  else if pub && (Config.revoked (BitVec.ofNat 64 (leAt l 264 8)) ||
      !Config.sm2Verify Config.imageKey (BitVec.ofNat 256 (ofBytes (sm3 ((l.drop 264).take 72)))) (sigField l 336 64)) then 5
  else if !Config.sm2Verify (if pub then sigField l 272 64 else Config.imageKey) dig (sigField l 400 64) then 6
  else if ((classTable l).getD []).any fun c => match baseline c.1 with
      | some ws => !samePorts ws c.2.2.2
      | none => false then 7
  else if storeSize kind < size || storeSize kind / 2 < leAt l 52 4 then 8
  else match old with
    | some i => if i.bytes = l then 0 else 9
    | none => 0

/-- The image that verified bytes make. -/
def imageOf (l : List Byte) : Image :=
  ⟨BitVec.ofNat 32 (leAt l 192 4), ((classTable l).getD []).map fun c => (c.1, c.2.2.2), l⟩

/-! ### ILOAD (R230, R419) -/

/-- The bytes of a range read through the core (R160): bytes and poison. -/
def coreBytes (s : State) (ctx core va n : Nat) : State × List Byte × Bool :=
  (sectorPieces (n / 32 + 2) va n 0).foldl (fun (acc : State × List Byte × Bool) pc =>
    match checkNow acc.1 ctx core (va + pc.1) 1 .load with
    | .ok p => let r := portRead (touchTlb acc.1 ctx core (va + pc.1)) core p pc.2; (r.1, acc.2.1 ++ bytesOf pc.2 r.2.1, acc.2.2 || r.2.2)
    | .error _ => acc) (s, [], false)

def execIload (c : Ctl) (d a b g : Code) (kind : BitVec 3) (s : State) : Host.Outcome State Fault Refusal :=
  perform (.iload c d a b g kind) c
    { fields := fun k => [⟨d, .kout 1⟩, ⟨a, .uni (baseRun k)⟩, ⟨b, .reg 1⟩, ⟨g, .reg 1⟩], fork := true, once := true } s fun e =>
    if e.act.isEmpty then .ok (done e e.s)
    else if !hasRights e then .error (rightsTrap (0x100 + kind.toNat))
    else
      let va := val64 e a e.low
      let n := val e g e.low % 2 ^ 32
      match rangePages (n / 4096 + 2) e .load va n with
      | .error x => .error x
      | .ok _ => match meBar e b false with
        | .error x => .error x
        | .ok bar =>
          let s1 := if e.tm.pair then drainCore e.s e.core else e.s
          let (s2, l, bad) := coreBytes s1 e.ctx e.core va n
          let s3 := match bar with
            | some r => barTake s2 r
            | none => s2
          .ok (later e s3 (.iload e.s.tick kind.toNat (BitVec.ofNat 64 va) n l bad none bar) [] (outKeys e d 1) 0)

/-- The parties of a context. -/
def ctxParties (s : State) (ctx : Nat) : List Party :=
  (s.teams.filter fun t => t.2.ctx == ctx).flatMap fun t =>
    t.2.groups.map (fun g => Party.group t.1 g.1) ++ [.lead t.1]

def iloadSeq (o : Op) : Option Nat := match o.kind with
  | .iload seq .. => some seq
  | _ => none

/-- R419: the ILOAD of a context that the HKC serves: the one issued first. -/
def oldestIload (s : State) (ctx : Nat) : Option (Party × Op) :=
  let all := (ctxParties s ctx).flatMap fun p => match getCom s p with
    | some c => (c.ops.filter fun o => (iloadSeq o).isSome).map fun o => (p, o)
    | none => []
  all.foldl (fun best x => match best with
    | some y => if (iloadSeq x.2).getD 0 < (iloadSeq y.2).getD 0 then some x else best
    | none => some x) none

/-- R228, R229: an entry of the image set is filled, its configuration copied to the island store, and the context's empty islands of the kind start to load. -/
def fillImage (s : State) (ctx kind : Nat) (img : Image) : State :=
  let s := modCtx (storeWrite s ctx (forceReg s ctx 0x330) (forceReg s ctx 0x338) (forceReg s ctx 0x338) kind) ctx fun x =>
    { x with images := Tab.set x.images kind img }
  (allIsles s).foldl (fun s k =>
    if k.1 = kind then modIsle s k.1 k.2 fun x =>
      if x.owner = some ctx ∧ x.image = none ∧ x.loading = none then { x with loading := some img } else x
    else s) s

/-- Some island of the kind that the context owns is loading. -/
def kindLoading (s : State) (ctx kind : Nat) : Bool :=
  (allIsles s).any fun k => k.1 == kind && (getIsle s k.1 k.2).owner == some ctx && (getIsle s k.1 k.2).loading.isSome

/-- The end of an ILOAD: D, the barrier's arrival, the flag. -/
def endIload (s : State) (p : Party) (o : Op) (st : Nat) (bar : Option BarRef) : State :=
  let s := completeOp s p o st
  match bar with
  | some b => barDrop (barArrive s b (coreOf s p) 0) b
  | none => s

/-- ILOAD_COMPLETE (R230, R419): verification ends, and the operation once no island is loading for it. -/
def execIloadComplete (ctx : Nat) (s : State) : Host.Outcome State Fault Refusal :=
  match oldestIload s ctx with
  | none => .next s
  | some (p, o) => match o.kind with
    | .iload seq kind base len bytes bad st bar =>
      match st with
      | some v => .next (if kindLoading s ctx kind then s else endIload s p o v bar)
      | none =>
        let old := Tab.find (getCtx s ctx).images kind
        let v := imageStatus kind base.toNat len bytes bad old
        if v ≠ 0 then .next (endIload s p o v bar)
        else
          let s1 := if old.isNone then fillImage s ctx kind (imageOf bytes) else s
          .next (if kindLoading s1 ctx kind then
            modCom s1 p fun c => { c with ops := mapIf c.ops (fun x => x.id == o.id) fun x =>
              { x with kind := .iload seq kind base len bytes bad (some v) bar } }
          else endIload s1 p o v bar)
    | _ => .next s

/-- ISLAND_LOAD (R229). -/
def execIslandLoad (kind idx : Nat) (s : State) : Host.Outcome State Fault Refusal :=
  match (getIsle s kind idx).loading with
  | some i => .next (modIsle s kind idx fun x => { x with image := some i, loading := none })
  | none => .next s

/-- R229: a change of owner: the state is zeroed and the new owner's image is loaded. -/
def changeOwner (s : State) (kind idx ctx : Nat) : State :=
  modPorts s kind idx fun _ => { Island.empty with owner := some ctx, loading := Tab.find (getCtx s ctx).images kind }

/-! ### QBIND (R230, R447) -/

/-- R242: fields of a blend target entry. -/
def tgMask (t : BitVec 128) : Nat := bits t.toNat 112 4
def tgFactor (t : BitVec 128) (lo : Nat) : Nat := bits t.toNat lo 3
def tgFmt (t : BitVec 128) : Nat := bits t.toNat 96 4
def tgPitch (t : BitVec 128) : Nat := bits t.toNat 64 32
def tgBase (t : BitVec 128) : Nat := bits t.toNat 0 49
def tgPixel (t : BitVec 128) : Nat := if tgFmt t = 4 then 8 else 4
def tgBad (t : BitVec 128) : Bool :=
  bits t.toNat 116 12 != 0 || bits t.toNat 49 15 != 0 || !(tgFmt t == 2 || tgFmt t == 4) ||
    ([109, 106, 103, 100].any fun lo => decide (6 ≤ tgFactor t lo)) || tgPitch t % 128 != 0 || tgBase t % 128 != 0

/-- R230: the status of a bind. -/
def bindStatus (x : Island) (ctx kind team : Nat) (img : Option Image) (slot port : Nat) (d : Word) (cin cout : Bool)
    (entry : BitVec 128) : Nat :=
  if x.owner ≠ some ctx ∧ x.binds ≠ [] then 1
  else if img.isNone then 2
  else match portAt (classAt img slot) port with
    | none => 3
    | some w =>
      let bytes := 4 * qWords d
      let size := if portWords w = 0 then !([64, 128, 256].contains bytes) else bytes != 4 * portWords w
      let here := if x.owner = some ctx then x.binds.filter fun b => b.cls == slot && b.port == port else []
      if size || !(if portOut w then cout else cin) || (kind == 3 && tgBad entry) then 4
      else if here.any (fun b => b.team == team) || decide ((if kind = 3 then 64 else 16) ≤ here.length) then 5
      else 0

/-- R230: the bind, with its change of owner (R229): the state and the status. -/
def bindDo (e : Env) (kind q slot port : Nat) (param : Nat) (d : Word) (cin cout : Bool) (entry : BitVec 128) :
    State × Nat :=
  let idx := isleIdx e kind
  let x := getIsle e.s kind idx
  let img := Tab.find (getCtx e.s e.ctx).images kind
  let st := bindStatus x e.ctx kind e.t img slot port d cin cout entry
  let s := if x.owner ≠ some e.ctx ∧ x.binds = [] then changeOwner e.s kind idx e.ctx else e.s
  if st ≠ 0 then (s, st)
  else
    (modPorts { s with nextBind := s.nextBind + 1 } kind idx fun x =>
      { x with binds := x.binds ++ [⟨s.nextBind, e.t, e.tm.inst, q, slot, port, BitVec.ofNat 64 param, entry,
                 ((getInst e.s e.tm.inst).map (·.core)).getD e.core, false⟩] }, 0)

/-- R230 status 6, or the binding starts to close. -/
def unbindDo (e : Env) (kind q slot port : Nat) : Option State :=
  let idx := isleIdx e kind
  let hit := fun (b : Binding) =>
    b.team == e.t && b.inst == e.tm.inst && b.q == q && b.cls == slot && b.port == port && !b.closing
  if (getIsle e.s kind idx).binds.any hit then
    some (modPorts e.s kind idx fun x => { x with binds := mapIf x.binds hit fun b => { b with closing := true } })
  else none

/-- The 16 bytes of a blend target entry, checked at the bind (R230) and read at the slices (R160). -/
def targetEntry (e : Env) (kind param : Nat) (unbind : Bool) : Except Stop (BitVec 128) :=
  if kind ≠ 3 || unbind then .ok 0
  else match rangePages 3 e .loadNoKey param 16 with
    | .error x => .error x
    | .ok _ => match readVirt e.s e.ctx param 16 .loadNoKey with
      | .ok (l, bad) => if bad then .error (.trap tcPoison e.low param) else .ok (BitVec.ofNat 128 (ofBytes l))
      | .error (code, cause) => .error (.trap code (memDetail cause e.low false) param)

/-- R160, R282: the read of the entry reaches the slices. -/
def entryTaken (e : Env) (kind param : Nat) (unbind : Bool) : Env :=
  if kind ≠ 3 || unbind then e else { e with s := takenVirt e.s e.ctx Config.cores param 16 .loadNoKey }

def execQbind (c : Ctl) (d a : Code) (q : BitVec 4) (kind : BitVec 3) (slot : BitVec 4) (port : BitVec 3) (unbind : Bool)
    (s : State) : Host.Outcome State Fault Refusal :=
  perform (.qbind c d a q kind slot port unbind) c
    { fields := fun k => [⟨d, .kout 1⟩, ⟨a, .uni (baseRun k)⟩], once := true } s fun e =>
    if e.act.isEmpty then .ok (done e e.s)
    else match getQueue e.s e.tm.inst q.toNat with
      | none => .error (queueTrapAt q.toNat 1)
      | some y =>
        let w := y.decl
        let cin := qCKind w == 4 && qCStage w == e.tm.stage
        let cout := qPKind w == 4 && qPStage w == e.tm.stage
        if !qValid w then .error (queueTrapAt q.toNat 1)
        else if !(cin || cout) then .error (queueTrapAt q.toNat 2)
        else
          let param := val64 e a e.low
          match targetEntry e kind.toNat param unbind with
          | .error x => .error x
          | .ok entry =>
            let e := entryTaken e kind.toNat param unbind
            if unbind then match unbindDo e kind.toNat q.toNat slot.toNat port.toNat with
              | none => .ok (done e (writeRun e e.s d 1 fun _ => 6))
              | some s1 => .ok (later e s1 .qbind [] (outKeys e d 1) 0)
            else
              let (s1, st) := bindDo e kind.toNat q.toNat slot.toNat port.toNat param w cin cout entry
              if st ≠ 0 then .ok (done e (writeRun e s1 d 1 fun _ => st))
              else .ok (later e s1 .qbind [] (outKeys e d 1) 0)

/-! ### Requests (R231) -/

/-- The first unit of one producer that is visible in a queue: scan with the counts so far. -/
def unitScan (u : Nat) (l : List Record) (seen : List (Option Party × Nat)) : Option (Option Party × Nat) :=
  match l with
  | [] => none
  | r :: rest =>
    if !r.vis then unitScan u rest seen
    else
      let n := ((seen.find? fun x => x.1 == r.tag).map (·.2)).getD 0 + 1
      if n = u then some (r.tag, r.seen) else unitScan u rest ((r.tag, n) :: seen.filter fun x => x.1 != r.tag)

/-- Take the first n visible records of a producer: those taken, and the rest. -/
def takeRecs (p : Option Party) (n : Nat) (l : List Record) : List Record × List Record :=
  match n, l with
  | 0, l => ([], l)
  | _, [] => ([], [])
  | n + 1, r :: rest =>
    if r.vis && r.tag == p then let (a, b) := takeRecs p n rest; (r :: a, b)
    else let (a, b) := takeRecs p (n + 1) rest; (a, r :: b)

/-- R231: the unit that a binding could take now: its producer, and when its last record became visible. -/
def unitReady (s : State) (x : Island) (b : Binding) : Option (Option Party × Nat) :=
  match portAt (classOf x b) b.port, getQueue s b.inst b.q with
  | some w, some y =>
    let out := (classOf x b).bind outPort
    if portOut w || b.closing || isleState x == 0 || x.loading.isSome || (out.isSome && (outBinding x b.team b.cls).isNone) ||
        (match x.fault with | some f => f.cls == b.cls | none => false) then none
    else unitScan (portUnit w) y.recs []
  | _, _ => none

/-- R160, R232: taking a unit joins its push: a sampler or ray island whose unit was pushed elsewhere than on its own core
reads no line that its core held before. -/
def takeOrder (s : State) (kind idx : Nat) (l : List Record) : State :=
  if (kind = 1 ∨ kind = 2) ∧ l.any (fun r => r.origin != .core idx) then phaseBoundary s idx else s

/-- The records of the unit, popped (R231). -/
def unitTake (s : State) (kind idx : Nat) (x : Island) (b : Binding) (p : Option Party) : State × List Record :=
  let n := ((portAt (classOf x b) b.port).map portUnit).getD 1
  match getQueue s b.inst b.q with
  | some y =>
    let (a, r) := takeRecs p n y.recs
    (takeOrder (modQueue s b.inst b.q fun y => { y with recs := r }) kind idx a, a)
  | none => (s, [])

/-- R231: the binding of a class that is served next: the first ready one after the last served. -/
def nextBinding (s : State) (x : Island) (cls : Nat) (ok : Binding → Bool) : Option Binding :=
  let ready := x.binds.filter fun b => b.cls == cls && ok b && (unitReady s x b).isSome
  match Tab.find x.turn cls with
  | some t => (ready.find? fun b => decide (t < b.id)) <|> ready.head?
  | none => ready.head?

/-- R139, R242: the blend island of an address: that of its slice; of slice 0 where the address has no translation (DESIGN
CHOICE, log entry 31). -/
def blendSlice (s : State) (ctx va : Nat) : Nat :=
  match checkNow s ctx Config.cores va 1 .loadNoKey with
  | .ok p => sliceOf p.pa
  | .error _ => 0

/-- R233: the request stops, with its records kept; a blend request on the island of the failing pixel's slice. -/
def isleFault (s : State) (kind idx : Nat) (b : Binding) (st : Stopped) (err : Byte × Nat × Nat) : State :=
  let at' := if kind = 3 then blendSlice s (((getIsle s kind idx).owner).getD 0) err.2.2 else idx
  modIsle s kind at' fun x => { x with
    fault := some ⟨err.1, err.2.1, b.port, BitVec.ofNat 64 err.2.2, b.id, b.cls, b.team, b.core, false, st⟩ }

/-- R231: the response units of request `req` join those to be delivered. -/
def respond (s : State) (kind idx : Nat) (b : Binding) (p : Option Party) (req : Nat) (units : List (List (List Word))) :
    State :=
  modIsle s kind idx fun x => { x with resps := x.resps ++ units.map fun u => ⟨b.team, p, b.id, b.cls, req, u⟩ }

/-- R147: a poisoned record among the operands of a request stops it (log entry 31). -/
def recsPoison (l : List Record) : Bool := l.any (·.poison)

/-- One request, by its binding, producer, number and records: its answer, with the state it leaves. -/
abbrev Serve := State → Binding → Option Party → Nat → List Record → Except (Byte × Nat × Nat) (State × List (List (List Word)))

/-- Perform a request whose records have been taken. -/
def serveRequest (s : State) (kind idx : Nat) (b : Binding) (p : Option Party) (req : Nat) (recs : List Record) (f : Serve) :
    State :=
  let r := if recsPoison recs then .error (tcPoison, 0, 0) else f s b p req recs
  match r with
  | .ok (s, units) => respond s kind idx b p req units
  | .error err => isleFault s kind idx b (.request p req recs) err

/-- R231, R233: a binding's port takes its next unit and performs it. While a fault stands, a request that would fail
as well is not taken. -/
def takeUnit (s : State) (kind idx : Nat) (b : Binding) (f : Serve) : State :=
  let x := isleView s kind idx
  match unitReady s x b with
  | none => s
  | some (p, _) =>
    let (s1, recs) := unitTake s kind idx x b p
    let s2 := modPorts s1 kind idx fun x => { x with turn := Tab.set x.turn b.cls b.id, reqs := x.reqs + 1 }
    let s3 := serveRequest s2 kind idx b p (x.reqs + 1) recs f
    if x.fault.isSome && (isleView s3 kind idx).fault != x.fault then s else s3

/-- The event of a sampler or ray class: its turn takes a unit of binding `b`. -/
def classTurn (s : State) (kind idx cls b : Nat) (f : Serve) : Host.Outcome State Fault Refusal :=
  let x := getIsle s kind idx
  match x.binds.find? fun y => y.id == b with
  | none => .next s
  | some y =>
    if (classOf x y).map (·.1) = some cls ∧ nextBinding s x y.cls (fun _ => true) = some y then
      .next (takeUnit s kind idx y f)
    else .next s

/-! ### Responses (R231, R235) -/

/-- R231: the response goes to the producer itself. -/
def addressed (s : State) (b out : Binding) (p : Option Party) : Option Party :=
  match p, getQueue s b.inst b.q, getQueue s out.inst out.q with
  | some q, some y, some z =>
    let fits := match q with
      | .group _ _ => qCKind z.decl == 1 || qCKind z.decl == 3
      | .lead _ => qCKind z.decl == 2 || qCKind z.decl == 3
      | .porter _ _ => false
    if fits && qCStage z.decl == qPStage y.decl then some q else none
  | _, _, _ => none

/-- Every record of a unit finds a free slot (R231). -/
def unitRoom (y : Queue) (n : Nat) : Bool := y.cclosed || decide (y.recs.length + n ≤ qDepth y.decl)

/-- No earlier response of the same binding or the same producer waits. -/
def firstOf (l : List Response) (i : Nat) (r : Response) : Bool :=
  !((l.take i).any fun q => q.inB == r.inB || (q.producer.isSome && q.producer == r.producer))

/-- R250, R256: the islands whose bindings serve the responses of one: itself, and, for a pass that has been reopened in
another quadrant than a second team's bindings, the other raster islands. -/
def bindIsles (s : State) (kind idx : Nat) : List Island :=
  getIsle s kind idx :: if kind = 0 then ((upto 0 4).filter (· != idx)).map (getIsle s 0) else []

/-- R231: the output binding of a response. -/
def respOut (s : State) (kind idx : Nat) (r : Response) : Option Binding :=
  (bindIsles s kind idx).findSome? fun x => outBinding x r.team r.cls

/-- The input binding of a response's request. -/
def respIn (s : State) (kind idx : Nat) (r : Response) : Option Binding :=
  (bindIsles s kind idx).findSome? fun x => x.binds.find? fun b => b.id == r.inB

/-- The responses that could be delivered now, by position. -/
def deliverable (s : State) (kind idx : Nat) : List (Nat × Response) :=
  let x := getIsle s kind idx
  (x.resps.zipIdx.map fun y => (y.2, y.1)).filter fun y =>
    firstOf x.resps y.1 y.2 && (match respOut s kind idx y.2 with
      | some o => match getQueue s o.inst o.q with
        | some z => unitRoom z y.2.words.length
        | none => false
      | none => false)

/-- Deliver one response unit: its records are reserved together. -/
def deliver (s : State) (kind idx : Nat) (i : Nat) (r : Response) : State :=
  match respOut s kind idx r, respIn s kind idx r with
  | some o, some b =>
    let dest := addressed s b o r.producer
    let origin := if kind = 1 ∨ kind = 2 then Origin.core idx else Origin.device
    let s1 := modIsle s kind idx fun x => { x with resps := dropAt x.resps i }
    modQueue s1 o.inst o.q fun y =>
      r.words.foldl (fun y w => pushRec y w none dest (s.tick + 1) false 0 origin) y
  | _, _ => s

/-- ISLAND_RESPONSE_DELIVER (R231): one of the units that may be delivered. -/
def execIslandResponseDeliver (kind idx : Nat) (s : State) : Host.Outcome State Fault Refusal :=
  let l := deliverable s kind idx
  match l[Config.freeArrive s.tick % max 1 l.length]? with
  | some (i, r) => .next (deliver s kind idx i r)
  | none => .next s

/-! ### Faults (R233) -/

/-- R233: detail of ISLAND_FAULT. -/
def isleDetail (kind : Nat) (f : IFault) : Nat :=
  f.code.toNat * 2 ^ 24 + f.cause % 16 * 2 ^ 20 + f.port % 16 * 2 ^ 16 + kind * 2 ^ 12

/-- ISLAND_FAULT (R233): raised in the handler of the core that holds the binding's queues. -/
def execIslandFault (kind idx : Nat) (s : State) : Host.Outcome State Fault Refusal :=
  match (getIsle s kind idx).fault with
  | none => .next s
  | some f =>
    if f.raised then .next s
    else
      let s1 := modIsle s kind idx fun x => { x with fault := some { f with raised := true } }
      .next (queueTrap s1 f.core ⟨.island kind idx, f.team, ⟨tcIsland, BitVec.ofNat 32 (isleDetail kind f), 0, f.va⟩⟩)

/-- R233: the words that a discarded request answers: one unit of zeros on the class's output port. -/
def zeroUnit (s : State) (x : Island) (b : Binding) : List (List (List Word)) :=
  match (classOf x b).bind outPort, outBinding x b.team b.cls with
  | some w, some o =>
    let n := ((getQueue s o.inst o.q).map fun y => qWords y.decl).getD (portWords w)
    [List.replicate (portUnit w) (List.replicate n 0)]
  | _, _ => []

/-! ### ICTL (R234, R418) -/

/-- R234: the issuer team's requests in flight. -/
def pendingOf (x : Island) (team : Nat) : Nat :=
  let held := (x.resps.filter fun r => r.team == team) ++
    ((x.pass.map fun p => (p.bins.map (·.2)).filter fun r => r.team == team).getD [])
  let faulted := match x.fault with
    | some f => if f.team = team then 1 else 0
    | none => 0
  (held.map fun r => (r.inB, r.req)).eraseDups.length + faulted

/-- R234: ports that a context has bound. -/
def boundPorts (s : State) (x : Island) (ctx : Nat) : Nat :=
  ((x.binds.filter fun b => ((getTeam s b.team).map (·.ctx)) == some ctx).map fun b => (b.cls, b.port)).eraseDups.length

/-- R234: the state word. -/
def isleWord (s : State) (x : Island) (ctx team : Nat) : Nat :=
  let f := match x.fault with
    | some f => f.code.toNat * 2 ^ 24 + f.cause % 16 * 2 ^ 20 + f.port % 16 * 2 ^ 16
    | none => 0
  ((x.image.map (·.tag.toNat)).getD 0) * 2 ^ 32 + f + min 255 (pendingOf x team) * 2 ^ 8 + min 15 (boundPorts s x ctx) * 2 ^ 4 +
    (if x.owner = some ctx then 8 else 0) + isleState x

/-- R234: the checks of the selectors that only the handler may use. -/
def ictlRules (d a : Code) (sel : Nat) (handlerOnly fork : Bool) : Rules :=
  { fields := fun k => [⟨d, .kout (baseRun k)⟩, ⟨a, .uni (baseRun k)⟩]
    privilege := fun e => if handlerOnly && !isHandler e.t then some sel else none
    fork := fork
    once := true }

/-- The result of an ICTL that answers at once. -/
def ictlDone (e : Env) (s : State) (d : Code) (v : Nat) : State := done e (writeRun e s d (baseRun e.kind) fun _ => v)

def execIctlState (c : Ctl) (d a : Code) (kind : BitVec 3) (s : State) : Host.Outcome State Fault Refusal :=
  perform (.ictlState c d a kind) c (ictlRules d a 0 false false) s fun e =>
    if e.act.isEmpty then .ok (done e e.s)
    else
      let x := isleView e.s kind.toNat (isleIdx e kind.toNat)
      .ok (ictlDone e e.s d (isleWord e.s x e.ctx (tdOwner e.s e.core e.t)))

def execIctlFaultAddress (c : Ctl) (d a : Code) (kind : BitVec 3) (s : State) : Host.Outcome State Fault Refusal :=
  perform (.ictlFaultAddress c d a kind) c (ictlRules d a 3 true false) s fun e =>
    if e.act.isEmpty then .ok (done e e.s)
    else
      let x := isleView e.s kind.toNat (isleIdx e kind.toNat)
      .ok (ictlDone e e.s d ((x.fault.map (·.va.toNat)).getD 0))

end Sys2Proof.Machine
end

