-- ==== Sys2Proof/Machine/Exact.lean ====
section
/-! DEFINITION. Exact rational arithmetic of the island classes, and its single rounding (R99, R109, R238, R242 to
R247). -/

namespace Sys2Proof.Machine

/-- A rational n / d with d > 0; `z` is the sign of a zero (R113), of no meaning for other values. -/
structure Rat where
  n : Int
  d : Nat
  z : Bool
  deriving DecidableEq, Repr

/-- n / d, its zero +0. -/
def Rat.of (n : Int) (d : Nat) : Rat := ⟨n, d, false⟩
def Rat.ofInt (i : Int) : Rat := .of i 1
def Rat.zero : Rat := .of 0 1
def Rat.negZero : Rat := ⟨0, 1, true⟩
def Rat.one : Rat := .of 1 1
/-- The sign, that of a zero included. -/
def Rat.minus (a : Rat) : Bool := decide (a.n < 0) || (a.n == 0 && a.z)
/-- R113: a zero sum is -0 when both terms are, and +0 under RNE otherwise. -/
def Rat.add (a b : Rat) : Rat :=
  let z := a.n == 0 && b.n == 0 && a.z && b.z
  if a.d = b.d then ⟨a.n + b.n, a.d, z⟩ else ⟨a.n * b.d + b.n * a.d, a.d * b.d, z⟩
def Rat.neg (a : Rat) : Rat := ⟨-a.n, a.d, !a.z⟩
def Rat.sub (a b : Rat) : Rat := a.add b.neg
/-- R113: the sign of a product is the XOR of the operands' signs. -/
def Rat.mul (a b : Rat) : Rat := ⟨a.n * b.n, a.d * b.d, a.minus != b.minus⟩
/-- a / b for b ≠ 0; a zero takes the XOR of the signs. -/
def Rat.div (a b : Rat) : Rat :=
  let z := a.minus != b.minus
  if b.n < 0 then ⟨-(a.n * b.d), a.d * b.n.natAbs, z⟩ else ⟨a.n * b.d, a.d * b.n.natAbs, z⟩
def Rat.lt (a b : Rat) : Bool := decide (a.n * b.d < b.n * a.d)
def Rat.le (a b : Rat) : Bool := decide (a.n * b.d ≤ b.n * a.d)
def Rat.isZero (a : Rat) : Bool := a.n == 0
def Rat.abs (a : Rat) : Rat := .of a.n.natAbs a.d
/-- ⌊a⌋. -/
def Rat.floor (a : Rat) : Int := a.n / (a.d : Int)
def Rat.max (a b : Rat) : Rat := if a.lt b then b else a
def Rat.min (a b : Rat) : Rat := if b.lt a then b else a

/-- The value i x 2^e. -/
def Rat.dyadic (i e : Int) : Rat := if 0 ≤ e then .of (i * ((2 ^ e.toNat : Nat) : Int)) 1 else .of i (2 ^ (-e).toNat)

/-- The value of a finite number. -/
def Fp.rat : Fp → Option Rat
  | .zero s => some (if s then .negZero else .zero)
  | .fin s m e => some (.dyadic (sgn s m) e)
  | _ => none

/-- R109: one rounding of an exact value; an exact zero keeps its sign. -/
def Rat.round (f : Fmt) (mode : Nat) (a : Rat) : Nat :=
  if a.n = 0 then f.signBit a.z else (roundF f mode false false (decide (a.n < 0)) a.n.natAbs a.d 0).bits

/-- The integer nearest to num / den, ties to even. -/
def nearestEven (num : Int) (den : Nat) : Int :=
  let q := num / (den : Int)
  let r := num % (den : Int)
  if 2 * r < den then q else if 2 * r > den then q + 1 else if q % 2 = 0 then q else q + 1

/-! ### Values with infinities -/

/-- An exact value, an infinity or a NaN. -/
inductive Ext where
  | rat (r : Rat)
  | inf (neg : Bool)
  | nan
  deriving DecidableEq, Repr

def Fp.ext : Fp → Ext
  | .nan _ => .nan
  | .inf s => .inf s
  | x => .rat (x.rat.getD .zero)

/-- A sum; that of unlike infinities is a NaN (R114). -/
def Ext.add (a b : Ext) : Ext :=
  match a, b with
  | .nan, _ | _, .nan => .nan
  | .inf s, .inf t => if s = t then .inf s else .nan
  | .inf s, _ => .inf s
  | _, .inf t => .inf t
  | .rat x, .rat y => .rat (x.add y)

/-- A product; zero times an infinity is a NaN (R114). -/
def Ext.mul (a b : Ext) : Ext :=
  match a, b with
  | .nan, _ | _, .nan => .nan
  | .inf s, .inf t => .inf (s != t)
  | .inf s, .rat y | .rat y, .inf s => if y.n = 0 then .nan else .inf (s != decide (y.n < 0))
  | .rat x, .rat y => .rat (x.mul y)

/-- The sign, that of a zero included. -/
def Ext.minus : Ext → Bool
  | .rat r => r.minus
  | .inf s => s
  | .nan => false

/-- A quotient; 0 / 0 and ∞ / ∞ are NaNs (R114). -/
def Ext.div (a b : Ext) : Ext :=
  match a, b with
  | .nan, _ | _, .nan => .nan
  | .inf _, .inf _ => .nan
  | .inf s, b => .inf (s != b.minus)
  | a, .inf t => .rat (if a.minus != t then .negZero else .zero)
  | .rat x, .rat y =>
    if y.n ≠ 0 then .rat (x.div y) else if x.n = 0 then .nan else .inf (x.minus != y.minus)

def Ext.neg : Ext → Ext
  | .rat r => .rat r.neg
  | .inf s => .inf (!s)
  | .nan => .nan

def Ext.sub (a b : Ext) : Ext := a.add b.neg

def Ext.abs : Ext → Ext
  | .rat r => .rat r.abs
  | .inf _ => .inf false
  | .nan => .nan

def Ext.isZero : Ext → Bool
  | .rat r => r.isZero
  | _ => false

/-- a < b for values that are no NaN. -/
def Ext.lt (a b : Ext) : Bool :=
  match a, b with
  | .rat x, .rat y => x.lt y
  | .inf s, .inf t => s && !t
  | .inf s, _ => s
  | _, .inf t => !t
  | _, _ => false

def Ext.le (a b : Ext) : Bool := !b.lt a
def Ext.max (a b : Ext) : Ext := if a.lt b then b else a
def Ext.min (a b : Ext) : Ext := if b.lt a then b else a

/-- R102: rounded to a format; a NaN is canonical. -/
def Ext.round (f : Fmt) (mode : Nat) (a : Ext) : Nat :=
  match a with
  | .rat r => r.round f mode
  | .inf s => f.infinity s
  | .nan => f.cnan

/-- Rounded and read back. -/
def Ext.rounded (f : Fmt) (mode : Nat) (a : Ext) : Ext :=
  match a with
  | .rat r => (fpDecode f (r.round f mode)).ext
  | x => x

end Sys2Proof.Machine
end

