-- ==== Sys2Proof/Machine/Texture.lean ====
section
/-! DEFINITION. Texture entries, the layout of mip levels, block decoding and texel values (R236, R239, R240), and the
reads that sampler and ray islands make (R160, R232, R233). -/

namespace Sys2Proof.Machine

/-- R233: why a request stops: inner code, cause and address. -/
abbrev IStop := Byte × Nat × Nat

/-- R160, R233: a read of at most 32 bytes within a sector by a sampler or ray island of a core. -/
def isleRead (s : State) (ctx core va n size : Nat) : Except IStop (State × Nat) :=
  match checkNow s ctx core va size .load with
  | .error (code, cause) => .error (code, cause, va)
  | .ok p =>
    let r := portRead (touchTlb s ctx core va) core p n
    if r.2.2 then .error (tcPoison, 0, va) else .ok (r.1, r.2.1)

/-- A read of `n` bytes that need not be aligned. -/
def isleBytes (s : State) (ctx core va n : Nat) : Except IStop (State × List Byte) :=
  foldE (sectorPieces (n / 32 + 2) va n 0) (s, ([] : List Byte)) fun acc pc =>
    match isleRead acc.1 ctx core (va + pc.1) pc.2 1 with
    | .error e => .error e
    | .ok (s, v) => .ok (s, acc.2 ++ bytesOf pc.2 v)

/-! ### Texture entries (R236) -/

/-- A texture entry. -/
structure Tex where
  filt : Nat
  addrV : Nat
  addrU : Nat
  nmip : Nat
  logH : Nat
  logW : Nat
  fmt  : Nat
  base : Nat
  deriving DecidableEq, Repr

def texOf (v : Nat) : Tex :=
  ⟨bits v 90 2, bits v 88 2, bits v 86 2, bits v 82 4, bits v 78 4, bits v 74 4, bits v 64 6, bits v 0 49⟩

/-- R236: an entry without a reserved value. -/
def texOk (v : Nat) : Bool :=
  let t := texOf v
  bits v 92 36 == 0 && bits v 70 4 == 0 && bits v 49 15 == 0 && t.addrU != 3 && t.addrV != 3 && t.logH != 15 &&
    t.logW != 15 && [0, 1, 2, 3, 4, 5, 8, 9, 10, 11].contains t.fmt

def Tex.w (t : Tex) (l : Nat) : Nat := max 1 (2 ^ t.logW / 2 ^ l)
def Tex.h (t : Tex) (l : Nat) : Nat := max 1 (2 ^ t.logH / 2 ^ l)

/-- Bytes of a texel, or of a 4 x 4 block. -/
def Tex.unit (t : Tex) : Nat :=
  match t.fmt with
  | 0 => 1 | 1 => 2 | 4 => 8 | 8 | 9 => 8 | 10 | 11 => 16 | _ => 4

def Tex.blocks (t : Tex) : Bool := decide (8 ≤ t.fmt)

/-- Bytes of level l. -/
def Tex.size (t : Tex) (l : Nat) : Nat :=
  if t.blocks then ceilDiv (t.w l) 4 * ceilDiv (t.h l) 4 * t.unit else t.w l * t.h l * t.unit

/-- The address at which the level after the first n starts, from `a`. -/
def Tex.after (t : Tex) (l n a : Nat) : Nat :=
  match n with
  | 0 => a
  | n + 1 => t.after (l + 1) n (roundUp (a + t.size l) 128)

/-- Where the mip chain of face f starts (R241). -/
def Tex.face (t : Tex) (f a : Nat) : Nat :=
  match f with
  | 0 => a
  | f + 1 => t.face f (t.after 0 (t.nmip + 1) a)

/-- Address of level l of face f. -/
def Tex.level (t : Tex) (f l : Nat) : Nat := t.after 0 l (t.face f t.base)

/-- Address of the texel or block that holds texel (i, j). -/
def Tex.addr (t : Tex) (f l i j : Nat) : Nat :=
  t.level f l + (if t.blocks then j / 4 * ceilDiv (t.w l) 4 + i / 4 else j * t.w l + i) * t.unit

/-- R238: the address mode of an index. -/
def placeIndex (mode : Nat) (n : Nat) (i : Int) : Nat :=
  match mode with
  | 0 => (i % (n : Int)).toNat
  | 1 => (max 0 (min i ((n : Int) - 1))).toNat
  | _ =>
    let m := (i % ((2 * n : Nat) : Int)).toNat
    if m < n then m else 2 * n - 1 - m

/-! ### Channel values (R239) -/

/-- c / 255. -/
def unorm (c : Nat) : Ext := .rat (.of c 255)

/-- Bisection: the largest k below lo + 2^n with k^5 d ≤ m. -/
def root5 (n lo m d : Nat) : Nat :=
  match n with
  | 0 => lo
  | n + 1 => let k := lo + 2 ^ n; root5 n (if k ^ 5 * d ≤ m then k else lo) m d

/-- The frozen sRGB table: Round(EOTF(c / 255), FP32, RNE). The power 12/5 is a fifth root, taken to 41 bits and its
remainder. -/
def srgb (c : Nat) : Nat :=
  if c ≤ 10 then Rat.round fp32 0 (.of (100 * c : Nat) (255 * 1292))
  else
    let m := (1000 * c + 14025) ^ 12 * 2 ^ 200
    let d := 269025 ^ 12
    let k := root5 41 0 m d
    if k ^ 5 * d = m then Rat.round fp32 0 (.dyadic k (-40)) else Rat.round fp32 0 (.dyadic (2 * k + 1) (-41))

/-- n-bit value expanded to 8 bits by replication (R240). -/
def expand8 (n v : Nat) : Nat := if n = 0 then 0 else (v * 2 ^ (8 - n) + v * 2 ^ (8 - n) / 2 ^ n + v * 2 ^ (8 - n) / 2 ^ (2 * n)) % 256

/-- a / b to the nearest integer, ties upward. -/
def nearUp (a b : Nat) : Nat := (2 * a + b) / (2 * b)

/-- R240: BC1, texel p of the block. -/
def bc1 (v p : Nat) : List Nat :=
  let c0 := bits v 0 16
  let c1 := bits v 16 16
  let rgb := fun (c : Nat) => [expand8 5 (bits c 11 5), expand8 6 (bits c 5 6), expand8 5 (bits c 0 5)]
  let i := bits v (32 + 2 * p) 2
  let mix := fun (a b n : Nat) => List.zipWith (fun x y => nearUp (a * x + b * y) n) (rgb c0) (rgb c1) ++ [255]
  match i with
  | 0 => rgb c0 ++ [255]
  | 1 => rgb c1 ++ [255]
  | 2 => if c1 < c0 then mix 2 1 3 else mix 1 1 2
  | _ => if c1 < c0 then mix 1 2 3 else [0, 0, 0, 0]

/-- R240: one channel of BC4 or BC5. -/
def bc4 (v p : Nat) : Nat :=
  let e0 := bits v 0 8
  let e1 := bits v 8 8
  let i := bits v (16 + 3 * p) 3
  if i = 0 then e0
  else if i = 1 then e1
  else
    let k := i - 1
    if e1 < e0 then nearUp ((7 - k) * e0 + k * e1) 7
    else if i = 6 then 0
    else if i = 7 then 255
    else nearUp ((5 - k) * e0 + k * e1) 5

/-! ### BC7 (R240; the tables are those of the Khronos Data Format Specification, log entry 30) -/

/-- Modes 0 to 7: subsets, partition, rotation and index-selection bits, colour, alpha, endpoint p, shared p, index and
second index bits. -/
def bc7Modes : List (Nat × Nat × Nat × Nat × Nat × Nat × Nat × Nat × Nat × Nat) :=
  [(3, 4, 0, 0, 4, 0, 1, 0, 3, 0), (2, 6, 0, 0, 6, 0, 0, 1, 3, 0), (3, 6, 0, 0, 5, 0, 0, 0, 2, 0),
   (2, 6, 0, 0, 7, 0, 1, 0, 2, 0), (1, 0, 2, 1, 5, 6, 0, 0, 2, 3), (1, 0, 2, 0, 7, 8, 0, 0, 2, 2),
   (1, 0, 0, 0, 7, 7, 1, 0, 4, 0), (2, 6, 0, 0, 5, 5, 1, 0, 2, 0)]

/-- Partitions into two subsets: bit p is the subset of texel p. -/
def bc7Two : List Nat :=
  [0xCCCC, 0x8888, 0xEEEE, 0xECC8, 0xC880, 0xFEEC, 0xFEC8, 0xEC80, 0xC800, 0xFFEC, 0xFE80, 0xE800, 0xFFE8, 0xFF00,
   0xFFF0, 0xF000, 0xF710, 0x008E, 0x7100, 0x08CE, 0x008C, 0x7310, 0x3100, 0x8CCE, 0x088C, 0x3110, 0x6666, 0x366C,
   0x17E8, 0x0FF0, 0x718E, 0x399C] ++
  [0xAAAA, 0xF0F0, 0x5A5A, 0x33CC, 0x3C3C, 0x55AA, 0x9696, 0xA55A, 0x73CE, 0x13C8, 0x324C, 0x3BDC, 0x6996, 0xC33C,
   0x9966, 0x0660, 0x0272, 0x04E4, 0x4E40, 0x2720, 0xC936, 0x936C, 0x39C6, 0x639C, 0x9336, 0x9CC6, 0x817E, 0xE718,
   0xCCF0, 0x0FCC, 0x7744, 0xEE22]

/-- Partitions into three subsets: two bits a texel. -/
def bc7Three : List Nat :=
  [0xAA685050, 0x6A5A5040, 0x5A5A4200, 0x5450A0A8, 0xA5A50000, 0xA0A05050, 0x5555A0A0, 0x5A5A5050, 0xAA550000,
   0xAA555500, 0xAAAA5500, 0x90909090, 0x94949494, 0xA4A4A4A4, 0xA9A59450, 0x2A0A4250, 0xA5945040, 0x0A425054,
   0xA5A5A500, 0x55A0A0A0, 0xA8A85454, 0x6A6A4040, 0xA4A45000, 0x1A1A0500, 0x0050A4A4, 0xAAA59090, 0x14696914,
   0x69691400, 0xA08585A0, 0xAA821414, 0x50A4A450, 0x6A5A0200] ++
  [0xA9A58000, 0x5090A0A8, 0xA8A09050, 0x24242424, 0x00AA5500, 0x24924924, 0x24499224, 0x50A50A50, 0x500AA550,
   0xAAAA4444, 0x66660000, 0xA5A0A5A0, 0x50A050A0, 0x69286928, 0x44AAAA44, 0x66666600, 0xAA444444, 0x54A854A8,
   0x95809580, 0x96969600, 0xA85454A8, 0x80959580, 0xAA141414, 0x96960000, 0xAAAA1414, 0xA05050A0, 0xA0A5A5A0,
   0x96000000, 0x40804080, 0xA9A8A9A8, 0xAAAAAA44, 0x2A4A5254]

/-- Anchor texels: of the second subset of two, of the second and of the third of three. -/
def bc7AnchorTwo : List Nat :=
  [15, 15, 15, 15, 15, 15, 15, 15, 15, 15, 15, 15, 15, 15, 15, 15, 15, 2, 8, 2, 2, 8, 8, 15, 2, 8, 2, 2, 8, 8, 2, 2] ++
  [15, 15, 6, 8, 2, 8, 15, 15, 2, 8, 2, 2, 2, 15, 15, 6, 6, 2, 6, 8, 15, 15, 2, 2, 15, 15, 15, 15, 15, 2, 2, 15]

def bc7AnchorSecond : List Nat :=
  [3, 3, 15, 15, 8, 3, 15, 15, 8, 8, 6, 6, 6, 5, 3, 3, 3, 3, 8, 15, 3, 3, 6, 10, 5, 8, 8, 6, 8, 5, 15, 15] ++
  [8, 15, 3, 5, 6, 10, 8, 15, 15, 3, 15, 5, 15, 15, 15, 15, 3, 15, 5, 5, 5, 8, 5, 10, 5, 10, 8, 13, 15, 12, 3, 3]

def bc7AnchorThird : List Nat :=
  [15, 8, 8, 3, 15, 15, 3, 8, 15, 15, 15, 15, 15, 15, 15, 8, 15, 8, 15, 3, 15, 8, 15, 8, 3, 15, 6, 10, 15, 15, 10, 8] ++
  [15, 3, 15, 10, 10, 8, 9, 10, 6, 15, 8, 15, 3, 6, 6, 8, 15, 3, 15, 15, 15, 15, 15, 15, 15, 15, 15, 15, 3, 15, 15, 8]

/-- Interpolation weights of 2, 3 and 4 index bits. -/
def bc7Weight (n i : Nat) : Nat :=
  match n with
  | 2 => nth [0, 21, 43, 64] i 0
  | 3 => nth [0, 9, 18, 27, 37, 46, 55, 64] i 0
  | _ => nth [0, 4, 9, 13, 17, 21, 26, 30, 34, 38, 43, 47, 51, 55, 60, 64] i 0

/-- The subset of a texel, and the anchors of a partition. -/
def bc7Subset (ns part p : Nat) : Nat :=
  match ns with
  | 2 => bits (nth bc7Two part 0) p 1
  | 3 => bits (nth bc7Three part 0) (2 * p) 2
  | _ => 0

def bc7Anchors (ns part : Nat) : List Nat :=
  match ns with
  | 2 => [0, nth bc7AnchorTwo part 0]
  | 3 => [0, nth bc7AnchorSecond part 0, nth bc7AnchorThird part 0]
  | _ => [0]

/-- Index of texel p in a field that starts at bit `at'`: an anchor's index has one bit fewer. -/
def bc7Index (v at' n p : Nat) (anchors : List Nat) : Nat :=
  let before := (anchors.filter fun a => decide (a < p)).length
  bits v (at' + n * p - before) (if anchors.contains p then n - 1 else n)

/-- Texel p of a BC7 block. -/
def bc7 (v p : Nat) : List Nat :=
  match (upto 0 8).find? (tb v) with
  | none => [0, 0, 0, 0]
  | some m =>
    let (ns, pb, rb, isb, cb, ab, epb, spb, ib, ib2) := nth bc7Modes m (1, 0, 0, 0, 0, 0, 0, 0, 0, 0)
    let a0 := m + 1
    let part := bits v a0 pb
    let rot := bits v (a0 + pb) rb
    let sel := bits v (a0 + pb + rb) isb
    let c0 := a0 + pb + rb + isb
    let al0 := c0 + 6 * ns * cb
    let p0 := al0 + 2 * ns * ab
    let i0 := p0 + 2 * ns * epb + ns * spb
    let j0 := i0 + 16 * ib - ns
    let sub := bc7Subset ns part p
    -- endpoint e (0 or 1) of channel c of the texel's subset
    let endp := fun (c e : Nat) =>
      let n := if c = 3 then ab else cb
      let raw := if c = 3 then bits v (al0 + n * (2 * sub + e)) n else bits v (c0 + n * (2 * ns * c + 2 * sub + e)) n
      if c = 3 ∧ ab = 0 then 255
      else if epb = 1 then expand8 (n + 1) (2 * raw + bits v (p0 + 2 * sub + e) 1)
      else if spb = 1 then expand8 (n + 1) (2 * raw + bits v (p0 + sub) 1)
      else expand8 n raw
    let first := bc7Index v i0 ib p (bc7Anchors ns part)
    let second := if ib2 = 0 then first else bc7Index v j0 ib2 p [0]
    let wc := if ib2 = 0 ∨ sel = 0 then bc7Weight ib first else bc7Weight ib2 second
    let wa := if ib2 = 0 then bc7Weight ib first else if sel = 0 then bc7Weight ib2 second else bc7Weight ib first
    let mix := fun (c w : Nat) => ((64 - w) * endp c 0 + w * endp c 1 + 32) / 64
    let r := mix 0 wc
    let g := mix 1 wc
    let b := mix 2 wc
    let a := mix 3 wa
    match rot with
    | 1 => [a, g, b, r]
    | 2 => [r, a, b, g]
    | 3 => [r, g, a, b]
    | _ => [r, g, b, a]

/-- R239: the channels R, G, B, A of texel p (its place in a block) of a texel's or block's bytes. -/
def texelValue (fmt v p : Nat) : List Ext :=
  let zero : Ext := .rat .zero
  let one : Ext := .rat .one
  match fmt with
  | 0 => [unorm (v % 256), zero, zero, one]
  | 1 => [unorm (bits v 0 8), unorm (bits v 8 8), zero, one]
  | 2 => (upto 0 4).map fun c => unorm (bits v (8 * c) 8)
  | 3 => (upto 0 3).map (fun c => (fpDecode fp32 (srgb (bits v (8 * c) 8))).ext) ++ [unorm (bits v 24 8)]
  | 4 => (upto 0 4).map fun c => (fpDecode fp16 (bits v (16 * c) 16)).ext
  | 5 => [(fpDecode fp32 (v % 2 ^ 32)).ext, zero, zero, one]
  | 8 => (bc1 v p).map unorm
  | 9 => [unorm (bc4 v p), zero, zero, one]
  | 10 => [unorm (bc4 (bits v 0 64) p), unorm (bc4 (bits v 64 64) p), zero, one]
  | _ => (bc7 v p).map unorm

/-- One texel of an island's texture: its four channels. -/
def texelRead (s : State) (ctx core : Nat) (t : Tex) (f l i j : Nat) : Except IStop (State × List Ext) :=
  match isleRead s ctx core (t.addr f l i j) t.unit t.unit with
  | .error e => .error e
  | .ok (s, v) => .ok (s, texelValue t.fmt v (if t.blocks then j % 4 * 4 + i % 4 else 0))

end Sys2Proof.Machine
end

