-- ==== Sys2Proof/Machine/Sampler.lean ====
section
/-! DEFINITION. The arithmetic of SAMPLE.2D and SAMPLE.CUBE: levels, footprints, taps, filtering, cube faces (R236 to
R239, R241). Where a coordinate is infinite, the texel positions that R238 forms from it are free (log entry 7); all else
follows from them. -/

namespace Sys2Proof

namespace Machine

/-- The value of a coordinate word: NaN reads as 0 (R237). -/
def coordVal (w : Nat) : Ext :=
  match (fpDecode fp32 w).ext with
  | .nan => .rat .zero
  | x => x

/-- A texel position; one that is not finite has a free place, in 1/256. -/
def placeOf (free : BitVec 32) (x : Ext) : Rat :=
  match x with
  | .rat r => r
  | _ => .of (sext free.toNat 32) 256

/-- One texel of a footprint: level, unplaced indices and weight. -/
structure Foot where
  l : Nat
  i : Int
  j : Int
  w : Nat
  deriving DecidableEq, Repr

/-- R238: the level position l in 1/256, clamped. -/
def lodOf (t : Tex) (ctl : Nat) : Nat := (max 0 (min (sext (bits ctl 8 12) 12) ((256 * t.nmip : Nat) : Int))).toNat

/-- R238: the four texels of a bilinear footprint. -/
def bilinear (t : Tex) (l : Nat) (u v : Ext) (w : Nat) (free : Nat → BitVec 32) : List Foot :=
  let at' := fun (u : Ext) (n k : Nat) =>
    ((placeOf (free k) (((u.mul (.rat (.ofInt n))).sub (.rat (.of 1 2))).rounded fp32 0)).mul (.ofInt 256)).floor
  let xi := at' u (t.w l) 0
  let yi := at' v (t.h l) 1
  let i0 := xi / 256
  let j0 := yi / 256
  let fx := (xi % 256).toNat
  let fy := (yi % 256).toNat
  [⟨l, i0, j0, w * ((256 - fx) * (256 - fy))⟩, ⟨l, i0 + 1, j0, w * (fx * (256 - fy))⟩,
   ⟨l, i0, j0 + 1, w * ((256 - fx) * fy)⟩, ⟨l, i0 + 1, j0 + 1, w * (fx * fy)⟩]

/-- R238: the two bilinear footprints of a trilinear one. -/
def trilinear (t : Tex) (lod : Nat) (u v : Ext) (free : Nat → BitVec 32) : List Foot :=
  let l0 := lod / 256
  let fl := lod % 256
  bilinear t l0 u v (256 - fl) free ++ bilinear t (min (l0 + 1) t.nmip) u v fl fun k => free (2 + k)

/-- R238: tap k of n of an anisotropic footprint, on one axis. -/
def tapCoord (u du : Ext) (n k : Nat) : Ext :=
  (u.add ((Ext.rat (.of (2 * (k : Int) + 1 - (n : Int)) (2 * n))).mul du)).rounded fp32 0

/-- R238: the taps of an anisotropic footprint. -/
def anisotropic (t : Tex) (lod n : Nat) (u v du dv : Ext) (free : Nat → BitVec 32) : List Foot :=
  (upto 0 n).flatMap fun k => trilinear t lod (tapCoord u du n k) (tapCoord v dv n k) fun j => free (4 * k + j)

/-- R238: the texels of a lane and the total weight. -/
def footprint (t : Tex) (filt ctl : Nat) (u v du dv : Ext) (free : Nat → BitVec 32) : List Foot × Nat :=
  let lod := lodOf t ctl
  let near := (lod + 128) / 256
  let at' := fun (u : Ext) (n k : Nat) => (placeOf (free k) (u.mul (.rat (.ofInt n)))).floor
  match filt with
  | 0 => ([⟨near, at' u (t.w near) 0, at' v (t.h near) 1, 1⟩], 1)
  | 1 => (bilinear t near u v 1 free, 2 ^ 16)
  | 2 => (trilinear t lod u v free, 2 ^ 24)
  | _ =>
    let n := bits ctl 27 4 + 1
    (anisotropic t lod n u v du dv free, n * 2 ^ 24)

/-- R238, R239: the weighted sum of the texels that carry weight, one rounding a channel. The sum starts from -0, which
changes no term (R113). -/
def filterTexels (s : State) (ctx core : Nat) (t : Tex) (face : Nat) (fs : List Foot) (total : Nat) :
    Except IStop (State × List Nat) :=
  let zero : List Ext := List.replicate 4 (.rat .negZero)
  match foldE (fs.filter fun f => f.w != 0) (s, zero) fun acc f =>
      match texelRead acc.1 ctx core t face f.l (placeIndex t.addrU (t.w f.l) f.i) (placeIndex t.addrV (t.h f.l) f.j) with
      | .error e => .error e
      | .ok (s, ch) => .ok (s, List.zipWith (fun a x => a.add (x.mul (.rat (.ofInt f.w)))) acc.2 ch) with
  | .error e => .error e
  | .ok (s', sums) =>
    .ok (s', sums.map fun x => (x.mul (.rat (.of 1 total))).round fp32 0)

/-- The texture entry that a lane names (R236). -/
def entryRead (s : State) (ctx core table ctl : Nat) : Except IStop (State × Nat) :=
  match isleBytes s ctx core (table + 16 * (ctl % 256)) 16 with
  | .error e => .error e
  | .ok (s, l) => .ok (s, ofBytes l)

/-- The four channel words of a lane. -/
abbrev LaneOut := Except IStop (State × List Nat)

def zeroLane (s : State) : LaneOut := .ok (s, [0, 0, 0, 0])

/-- R237 to R239: one lane of SAMPLE.2D; `w` are its words U, V, DU, DV, CTL. -/
def sampleLane (s : State) (ctx core table lane : Nat) (w : List Nat) : LaneOut :=
  let ctl := nth w 4 0
  if !tb ctl 31 then zeroLane s
  else match entryRead s ctx core table ctl with
    | .error e => .error e
    | .ok (s, v) =>
      if !texOk v then zeroLane s
      else
        let t := texOf v
        let x := fun (i : Nat) => coordVal (nth w i 0)
        let (fs, total) := footprint t t.filt ctl (x 0) (x 1) (x 2) (x 3) (Config.freePlace s.tick lane)
        filterTexels s ctx core t 0 fs total

/-- R241: face, sc, tc and |ma|. -/
def cubeFace (x y z : Ext) : Nat × Ext × Ext × Ext :=
  let ax := x.abs
  let ay := y.abs
  let az := z.abs
  let below := fun (a : Ext) => a.lt (.rat .zero)
  if ay.le ax && az.le ax then
    if below x then (1, z, y.neg, ax) else (0, z.neg, y.neg, ax)
  else if az.le ay then
    if below y then (3, x, z.neg, ay) else (2, x, z, ay)
  else if below z then (5, x.neg, y.neg, az) else (4, x, y.neg, az)

def isNan32 (w : Nat) : Bool := match fpDecode fp32 w with | .nan _ => true | _ => false

/-- R241: u or v of a face. -/
def faceCoord (c ma : Ext) : Ext := (((c.div ma).add (.rat .one)).div (.rat (.ofInt 2))).rounded fp32 0

/-- R241: one lane of SAMPLE.CUBE; `w` are its words X, Y, Z, CTL. -/
def cubeLane (s : State) (ctx core table lane : Nat) (w : List Nat) : LaneOut :=
  let ctl := nth w 3 0
  let x := fun (i : Nat) => (fpDecode fp32 (nth w i 0)).ext
  if !tb ctl 31 || (w.take 3).any isNan32 || (x 0).isZero && (x 1).isZero && (x 2).isZero then zeroLane s
  else match entryRead s ctx core table ctl with
    | .error e => .error e
    | .ok (s, v) =>
      if !texOk v then zeroLane s
      else
        let t := { texOf v with addrU := 1, addrV := 1 }
        let (face, sc, tc, ma) := cubeFace (x 0) (x 1) (x 2)
        let (fs, total) := footprint t (if t.filt = 3 then 2 else t.filt) ctl (faceCoord sc ma) (faceCoord tc ma) .nan .nan
          (Config.freePlace s.tick lane)
        filterTexels s ctx core t face fs total

/-- The words of lane L of the records of a batch unit (R231). -/
def laneWords (recs : List Record) (lane : Nat) : List Nat := recs.map fun r => (nth r.words lane 0).toNat

/-- R231, R237: every lane of a batch unit; the response has `n` records of B words. -/
def batchUnit (s : State) (recs : List Record) (n : Nat) (f : State → Nat → List Nat → Except IStop (State × List Nat)) :
    Except IStop (State × List (List Word)) :=
  let b := ((recs.head?).map (·.words.length)).getD 0
  match foldE (upto 0 b) (s, ([] : List (List Nat))) fun acc lane =>
      match f acc.1 lane (laneWords recs lane) with
      | .error e => .error e
      | .ok (s, o) => .ok (s, acc.2 ++ [o]) with
  | .error e => .error e
  | .ok (s, outs) => .ok (s, (upto 0 n).map fun c => outs.map fun o => BitVec.ofNat 32 (nth o c 0))

/-- The response unit of a SAMPLE.2D request, read through the island's own core (R220). -/
def sample2dUnit (core : Nat) (s : State) (ctx : Nat) (b : Binding) (recs : List Record) : Except IStop (State × List (List Word)) :=
  batchUnit s recs 4 fun s lane w => sampleLane s ctx core b.param.toNat lane w

/-- The response unit of a SAMPLE.CUBE request. -/
def sampleCubeUnit (core : Nat) (s : State) (ctx : Nat) (b : Binding) (recs : List Record) : Except IStop (State × List (List Word)) :=
  batchUnit s recs 4 fun s lane w => cubeLane s ctx core b.param.toNat lane w

end Machine

end Sys2Proof
end

