-- ==== Sys2Proof/Machine/Ray.lean ====
section
/-! DEFINITION. The arithmetic of RAY.BOX4, RAY.TRI and RAY.FRUSTUM64 (R244 to R247). Where an
invalid operation on infinities or a zero direction makes a NaN, no rule states the outcome of the comparisons that meet it:
those outcomes are free (log entry 7). -/

namespace Sys2Proof.Machine

/-- FP32 words of an array element, read one by one at the byte offsets given. -/
def wordsRead (s : State) (ctx core a : Nat) (offs : List Nat) : Except IStop (State × List Nat) :=
  foldE offs (s, ([] : List Nat)) fun acc o =>
    match isleRead acc.1 ctx core (a + o) 4 4 with
    | .error e => .error e
    | .ok (s, v) => .ok (s, acc.2 ++ [v])

/-- A free word of a lane. -/
def freeLane (s : State) (lane c : Nat) : Nat := (Config.freeWord (s.tick * 4096 + lane * 16 + c)).toNat

def extOf (w : Nat) : Ext := (fpDecode fp32 w).ext

/-! ### Boxes (R245, R247) -/

/-- A product of a slab distance and an inverse direction; 0 x ±∞ counts as the infinity given. -/
def slabMul (d i : Ext) (neg : Bool) : Ext :=
  match d, i with
  | .rat x, .inf _ => if x.isZero then .inf neg else d.mul i
  | .inf _, .rat y => if y.isZero then .inf neg else d.mul i
  | _, _ => d.mul i

/-- n_a and f_a of an axis, from the two distances and the inverse directions. -/
def slab (lo hi o : Ext) (inv : List Ext) : Ext × Ext :=
  let ds := [lo.add o.neg, hi.add o.neg]
  let prods := fun (neg : Bool) (mode : Nat) => ds.flatMap fun d => inv.map fun i => (slabMul d i neg).rounded fp32 mode
  let pick := fun (f : Ext → Ext → Ext) (l : List Ext) => match l with
    | [] => Ext.nan
    | x :: r => r.foldl (fun a b => if a = .nan ∨ b = .nan then .nan else f a b) x
  (pick Ext.min (prods true 3), pick Ext.max (prods false 2))

/-- A box test: its tnear when hit; `none` where no rule states the outcome. -/
def boxTest (o : List Ext) (inv : List (List Ext)) (tmin tmax : Ext) (box : List Ext) : Option (Option Ext) :=
  let at' := fun (l : List Ext) (i : Nat) => nth l i .nan
  let ax := (upto 0 3).map fun a => slab (at' box a) (at' box (a + 3)) (at' o a) (nth inv a [])
  if !(upto 0 3).all fun a => (at' box a).le (at' box (a + 3)) then some none
  else if ax.any fun x => x.1 == .nan || x.2 == .nan then none
  else
    let tnear := ax.foldl (fun t x => t.max x.1) tmin
    let tfar := ax.foldl (fun t x => t.min x.2) tmax
    some (if tnear.le tfar then some tnear else none)

/-- The outcome of box k: where no rule states it, it is hit or not, at a tnear, as the part has it. -/
def boxOutcome (free : Nat → Nat) (k : Nat) (r : Option (Option Ext)) : Option Ext :=
  r.getD (if tb (free k) 0 then some (extOf (free (4 + k))) else none)

/-- Insert a box into the hit order: ascending tnear, ties to the lower index. -/
def insHit (x : Ext × Nat) (l : List (Ext × Nat)) : List (Ext × Nat) :=
  match l with
  | [] => [x]
  | y :: r => if x.1.lt y.1 then x :: y :: r else y :: insHit x r

/-- R245: the response word. -/
def boxWord (hits : List (Option Ext)) : Nat :=
  let ix := hits.zipIdx
  let hit := ix.foldl (fun l x => match x.1 with | some t => insHit (t, x.2) l | none => l) []
  let miss := ix.filter fun x => x.1.isNone
  let order := hit.map (·.2) ++ miss.map (·.2)
  let mask := ix.foldl (fun m x => if x.1.isSome then m + 2 ^ x.2 else m) 0
  mask + order.zipIdx.foldl (fun m x => m + x.1 * 2 ^ (4 + 2 * x.2)) 0

/-- The four boxes of a node tested. -/
def nodeTest (s : State) (ctx core base lane : Nat) (o : List Nat) (inv : List (List Nat)) (tmin tmax node : Nat)
    (miss : Bool) : Except IStop (State × List Nat) :=
  match wordsRead s ctx core (base + 128 * (node % 2 ^ 31)) ((upto 0 24).map (4 * ·)) with
  | .error e => .error e
  | .ok (s, ws) =>
    if ws.any isNan32 then .ok (s, [0])
    else if miss then .ok (s, [boxWord (List.replicate 4 none)])
    else
      let e := fun (l : List Nat) => l.map extOf
      .ok (s, [boxWord ((upto 0 4).map fun k => boxOutcome (freeLane s lane) k
        (boxTest (e o) (inv.map e) (extOf tmin) (extOf tmax) (e ((ws.drop (6 * k)).take 6))))])

/-- R244, R245: one lane of RAY.BOX4. -/
def boxLane (s : State) (ctx core base lane : Nat) (w : List Nat) : Except IStop (State × List Nat) :=
  if !tb (nth w 8 0) 31 || (w.take 8).any isNan32 then .ok (s, [0])
  else nodeTest s ctx core base lane (w.take 3) [[nth w 3 0], [nth w 4 0], [nth w 5 0]] (nth w 6 0) (nth w 7 0) (nth w 8 0)
    false

/-- R247: a RAY.FRUSTUM64 request. -/
def frustumWord (s : State) (ctx core base : Nat) (w : List Nat) : Except IStop (State × List Nat) :=
  if !tb (nth w 11 0) 31 || (w.take 11).any isNan32 then .ok (s, [0])
  else
    let iv := fun (i : Nat) => [nth w i 0, nth w (i + 1) 0]
    let bad := [3, 5, 7].any fun i => (extOf (nth w (i + 1) 0)).lt (extOf (nth w i 0))
    nodeTest s ctx core base 0 (w.take 3) [iv 3, iv 5, iv 7] (nth w 9 0) (nth w 10 0) (nth w 11 0) bad

/-! ### Triangles (R246) -/

/-- The axes kx, ky, kz of a direction. -/
def shearAxes (d : List Ext) : Nat × Nat × Nat :=
  let a := fun (i : Nat) => (nth d i .nan).abs
  let kz := if (a 1).le (a 0) && (a 2).le (a 0) then 0 else if (a 2).le (a 1) then 1 else 2
  let kx := (kz + 1) % 3
  let ky := (kx + 1) % 3
  if (nth d kz .nan).lt (.rat .zero) then (ky, kx, kz) else (kx, ky, kz)

/-- A vertex translated: V - o, each component rounded. -/
def translate3 (v o : List Ext) : List Ext := List.zipWith (fun a b => (a.sub b).rounded fp32 0) v o

/-- A vertex sheared: V'x and V'y. -/
def shear (kx ky kz : Nat) (sx sy : Ext) (v : List Ext) : Ext × Ext :=
  let c := fun (i : Nat) => nth v i .nan
  (((c kx).sub (sx.mul (c kz))).rounded fp32 0, ((c ky).sub (sy.mul (c kz))).rounded fp32 0)

/-- The sign that an edge function counts as; the edge runs from p to q. -/
def edgePositive (e : Ext) (p q : Ext × Ext) : Bool :=
  if e.isZero then p.2.lt q.2 || (!q.2.lt p.2 && q.1.lt p.1) else (Ext.rat .zero).lt e

/-- An edge function. -/
def edgeCross (p q : Ext × Ext) : Ext := (p.1.mul q.2).sub (p.2.mul q.1)

/-- R246: FLAGS, T, u and v; where a NaN decides whether the triangle is hit, or the sign of det, that bit is free. -/
def triTest (o d a b c : List Ext) (tmin tmax : Ext) (free : Nat) : List Nat :=
  let (kx, ky, kz) := shearAxes d
  let at' := fun (l : List Ext) (i : Nat) => nth l i .nan
  let byKz := fun (x : Ext) => (x.div (at' d kz)).rounded fp32 0
  let a := translate3 a o
  let b := translate3 b o
  let c := translate3 c o
  let flat := shear kx ky kz (byKz (at' d kx)) (byKz (at' d ky))
  let pa := flat a
  let pb := flat b
  let pc := flat c
  let u := edgeCross pc pb
  let v := edgeCross pa pc
  let w := edgeCross pb pa
  let signs := ([(u, edgePositive u pc pb), (v, edgePositive v pa pc), (w, edgePositive w pb pa)].filter fun x => x.1 != .nan).map (·.2)
  let det := (u.add v).add w
  if (signs.contains true && signs.contains false) || det.isZero then [0, 0, 0, 0]
  else
    let num := ((u.mul (at' a kz)).add (v.mul (at' b kz))).add (w.mul (at' c kz))
    let t := (((byKz (.rat .one)).mul num).div det).rounded fp32 0
    let hit := if t = .nan then tb free 0 else tmin.le t && t.le tmax
    let neg := if det = .nan then tb free 1 else det.lt (.rat .zero)
    if hit then [if neg then 3 else 1, t.round fp32 0, (u.div det).round fp32 0, (v.div det).round fp32 0] else [0, 0, 0, 0]

/-- R244, R246: one lane of RAY.TRI. -/
def triLane (s : State) (ctx core base lane : Nat) (w : List Nat) : Except IStop (State × List Nat) :=
  if !tb (nth w 8 0) 31 || (w.take 8).any isNan32 then zeroLane s
  else
    match wordsRead s ctx core (base + 48 * (nth w 8 0 % 2 ^ 31)) [0, 4, 8, 16, 20, 24, 32, 36, 40] with
    | .error e => .error e
    | .ok (s, ws) =>
      if ws.any isNan32 then zeroLane s
      else
        let r := (w.take 6).map extOf
        let v := ws.map extOf
        .ok (s, triTest (r.take 3) (r.drop 3) (v.take 3) ((v.drop 3).take 3) (v.drop 6) (extOf (nth w 6 0)) (extOf (nth w 7 0))
          (freeLane s lane 0))

/-! ### Units -/

def box4Unit (core : Nat) (s : State) (ctx : Nat) (b : Binding) (recs : List Record) : Except IStop (State × List (List Word)) :=
  batchUnit s recs 1 fun s lane w => boxLane s ctx core b.param.toNat lane w

def triUnit (core : Nat) (s : State) (ctx : Nat) (b : Binding) (recs : List Record) : Except IStop (State × List (List Word)) :=
  batchUnit s recs 4 fun s lane w => triLane s ctx core b.param.toNat lane w

def frustumUnit (core : Nat) (s : State) (ctx : Nat) (b : Binding) (recs : List Record) : Except IStop (State × List (List Word)) :=
  let w := ((recs.head?).map fun r => r.words.map (·.toNat)).getD []
  match frustumWord s ctx core b.param.toNat w with
  | .error e => .error e
  | .ok (s, o) => .ok (s, [o.map (BitVec.ofNat 32)])

end Sys2Proof.Machine
end

