-- ==== Sys2Proof/Machine/Blend.lean ====
section
/-! DEFINITION. The events of the sampler, ray and blend classes, and the arithmetic of BLEND.COLOUR (R237, R241 to
R247). -/

namespace Sys2Proof.Machine

/-- The context that owns an island. -/
def isleOwner (s : State) (kind idx : Nat) : Nat := ((getIsle s kind idx).owner).getD 0

/-- A class whose request has one response unit. -/
def oneUnit (kind idx : Nat) (f : Nat → State → Nat → Binding → List Record → Except IStop (State × List (List Word))) :
    Serve :=
  fun s b _ _ recs => match f idx s (isleOwner s kind idx) b recs with
    | .ok (s, u) => .ok (s, [u])
    | .error e => .error e

/-- SAMPLE_2D (R237 to R239). -/
def execSample2d (core b : Nat) (s : State) : Host.Outcome State Fault Refusal :=
  classTurn s 1 core 0x1001 b (oneUnit 1 core sample2dUnit)

/-- SAMPLE_CUBE (R241). -/
def execSampleCube (core b : Nat) (s : State) : Host.Outcome State Fault Refusal :=
  classTurn s 1 core 0x1002 b (oneUnit 1 core sampleCubeUnit)

/-- RAY_BOX4 (R245). -/
def execRayBox4 (core b : Nat) (s : State) : Host.Outcome State Fault Refusal :=
  classTurn s 2 core 0x2001 b (oneUnit 2 core box4Unit)

/-- RAY_TRI (R246). -/
def execRayTri (core b : Nat) (s : State) : Host.Outcome State Fault Refusal :=
  classTurn s 2 core 0x2002 b (oneUnit 2 core triUnit)

/-- RAY_FRUSTUM64 (R247). -/
def execRayFrustum64 (core b : Nat) (s : State) : Host.Outcome State Fault Refusal :=
  classTurn s 2 core 0x2003 b (oneUnit 2 core frustumUnit)

/-! ### BLEND.COLOUR (R242, R243) -/

/-- A value clamped to [0, 1], NaN as 0. -/
def satUnit (x : Ext) : Ext :=
  match x with
  | .rat r => .rat ((r.max .zero).min .one)
  | .inf s => .rat (if s then .zero else .one)
  | .nan => .rat .zero

/-- R242: a blend factor from the source's and the target's alpha. -/
def blendFactor (code : Nat) (sa da : Ext) : Ext :=
  match code with
  | 0 => .rat .zero
  | 1 => .rat .one
  | 2 => sa
  | 3 => (Ext.rat .one).add sa.neg
  | 4 => da
  | _ => (Ext.rat .one).add da.neg

/-- R243: c; as R114 has it, 0 x ∞ and ∞ - ∞ are NaNs. -/
def blendSum (s fs d fd : Ext) : Ext := (s.mul fs).add (d.mul fd)

/-- R243: the new pixel bits. -/
def blendPixel (t : BitVec 128) (old : Nat) (src : List Ext) : Nat :=
  let f16 := tgFmt t == 4
  let n := if f16 then 16 else 8
  let dst := fun (c : Nat) => if f16 then (fpDecode fp16 (bits old (16 * c) 16)).ext else unorm (bits old (8 * c) 8)
  let sv := fun (c : Nat) => if f16 then nth src c .nan else satUnit (nth src c .nan)
  let sa := satUnit (nth src 3 .nan)
  (upto 0 4).foldl (fun v c =>
    let old' := bits old (n * c) n
    let new :=
      if !tb (tgMask t) c then old'
      else
        let fs := blendFactor (tgFactor t (if c = 3 then 106 else 100)) sa (dst 3)
        let fd := blendFactor (tgFactor t (if c = 3 then 109 else 103)) sa (dst 3)
        let x := blendSum (sv c) fs (dst c) fd
        if f16 then x.round fp16 0
        else match satUnit x with
          | .rat r => (nearestEven (255 * r.n) r.d).toNat
          | _ => 0
    v + new * 2 ^ (n * c)) 0

/-- R242: the address of a lane's pixel. -/
def blendAddr (t : BitVec 128) (ctl : Nat) : Nat :=
  tgBase t + bits ctl 15 15 * tgPitch t + bits ctl 0 15 * tgPixel t

/-- R133, R220: a pixel is read and written, on a page without key. -/
def blendCheck (s : State) (ctx va n : Nat) : Except IStop Phys :=
  match checkNow s ctx Config.cores va n .loadNoKey, checkNow s ctx Config.cores va n .storeNoKey with
  | .ok p, .ok _ => .ok p
  | .error (code, cause), _ | _, .error (code, cause) => .error (code, cause, va)

/-- The lanes of a unit that name a pixel, checked in ascending order (R233). -/
def blendLanes (s : State) (ctx : Nat) (b : Binding) (recs : List Record) : Except IStop (List (Nat × Phys)) :=
  let n := ((recs.head?).map (·.words.length)).getD 0
  let ls := (upto 0 n).filter fun l => tb (nth (laneWords recs l) 0 0) 31
  mapE ls fun l =>
    match blendCheck s ctx (blendAddr b.entry (nth (laneWords recs l) 0 0)) (tgPixel b.entry) with
    | .error e => .error e
    | .ok p => if s.poison.contains (p.pa / 32) || linkRefuses s p.pa then
        .error (tcPoison, 0, blendAddr b.entry (nth (laneWords recs l) 0 0)) else .ok (l, p)

/-- One pixel, at its slice (R243). -/
def blendOne (s : State) (ctx : Nat) (b : Binding) (recs : List Record) (x : Nat × Phys) : State :=
  let w := laneWords recs x.1
  let n := tgPixel b.entry
  let old := ofBytes (readAt s x.2.pa 0 n).1
  let new := blendPixel b.entry old ((w.drop 1).map extOf)
  writeAt (takenVirt s ctx Config.cores (blendAddr b.entry (nth w 0 0)) n .loadNoKey) ctx x.2 (bytesOf n new)

/-- R242, R243: a blend request: each pixel is blended by the island of its slice. -/
def blendUnit (s : State) (b : Binding) (_ : Option Party) (_ : Nat) (recs : List Record) :
    Except IStop (State × List (List (List Word))) :=
  let ctx := isleOwner s 3 0
  match blendLanes s ctx b recs with
  | .error e => .error e
  | .ok ls => .ok (ls.foldl (fun s x => blendOne s ctx b recs x) s, [])

/-- R243: submission order: the binding whose next unit became visible first. -/
def blendNext (s : State) (x : Island) : Option (Nat × Binding) :=
  x.binds.foldl (fun best b =>
    if (classOf x b).map (·.1) != some 0x3001 then best
    else match unitReady s x b, best with
      | some (_, t), some (t', b') => if t < t' then some (t, b) else some (t', b')
      | some (_, t), none => some (t, b)
      | none, _ => best) none

/-- BLEND_COLOUR (R242, R243): the next unit at the blend port. -/
def execBlendColour (b : Nat) (s : State) : Host.Outcome State Fault Refusal :=
  match blendNext s (isleView s 3 0) with
  | some (_, y) => if y.id = b then .next (takeUnit s 3 0 y blendUnit) else .next s
  | none => .next s

end Sys2Proof.Machine
end

