-- ==== Sys2Proof/Machine/Path.lean ====
section
/-! DEFINITION. The arithmetic of RASTER.PATH: reduction, splitting, crossings, sub-pieces, area and cover, coverage
(R249, R263 to R271). -/

namespace Sys2Proof.Machine

/-- A point in 16.8. -/
abbrev Pt := Int × Int

/-- A line, quadratic or cubic by its 2, 3 or 4 control points. -/
abbrev Curve := List Pt

def ptAt (c : Curve) (i : Nat) : Pt := nth c i (0, 0)
def endPt (c : Curve) : Pt := ptAt c (c.length - 1)

/-- One coordinate of a curve's points. -/
def axisOf (c : Curve) (ax : Nat) : List Int := c.map fun p => if ax = 0 then p.1 else p.2

/-! ### Records (R249, R263) -/

/-- R249: a coordinate in range. -/
def coordOk (w : Word) : Bool := decide (-8388608 ≤ sext w.toNat 32) && decide (sext w.toNat 32 ≤ 8388608)

/-- R263: points of a kind. -/
def pathPoints (kind : Nat) : Nat := if kind = 3 then 0 else kind + 2

def pathBad (r : List Word) : Bool :=
  let w := fun (i : Nat) => nth r i 0
  let kind := bits (w 0).toNat 30 2
  bits (w 0).toNat 0 29 != 0 || (kind != 3 && tb (w 0).toNat 29) ||
    ((upto 0 8).any fun i => if i < 2 * pathPoints kind then !coordOk (w (2 + i)) else w (2 + i) != 0)

/-- The control points of a segment record. -/
def pathCurve (r : List Word) : Curve :=
  (upto 0 (pathPoints (bits (nth r 0 0).toNat 30 2))).map fun i =>
    (sext (nth r (2 + 2 * i) 0).toNat 32, sext (nth r (3 + 2 * i) 0).toNat 32)

/-- R264: none when the segment is dropped. -/
def reduceCurve (c : Curve) : Option Curve :=
  let p0 := ptAt c 0
  let pn := endPt c
  if c.all (· == p0) then none
  else if c.length = 3 ∧ (ptAt c 1 = p0 ∨ ptAt c 1 = pn) then some [p0, pn]
  else if c.length = 4 ∧ (ptAt c 1 = p0 ∨ ptAt c 1 = pn) ∧ (ptAt c 2 = p0 ∨ ptAt c 2 = pn) then some [p0, pn]
  else some c

/-! ### Exact points of a curve -/

/-- One step of the polar form: with parameter t / 65,536, values scaled by 65,536. -/
def blossomStep (l : List Int) (t : Int) : List Int :=
  match l with
  | a :: b :: r => (a * (65536 - t) + b * t) :: blossomStep (b :: r) t
  | _ => []

/-- The polar form of one coordinate at parameters ts; the value is scaled by 65,536 for each. -/
def blossom (l : List Int) (ts : List Int) : Int :=
  match ts with
  | [] => l.headD 0
  | t :: r => blossom (blossomStep l t) r

/-- R265: control points of a curve restricted to [ta, tb] / 65,536, each coordinate rounded by RNE. -/
def restrict (c : Curve) (ta tb : Int) : Curve :=
  let n := c.length - 1
  let co := fun (ax i : Nat) => nearestEven (blossom (axisOf c ax) (List.replicate (n - i) ta ++ List.replicate i tb)) (65536 ^ n)
  (upto 0 (n + 1)).map fun i => (co 0 i, co 1 i)

/-- The exact coordinate at t, scaled by 65,536^n. -/
def coordAt (c : Curve) (ax : Nat) (t : Int) : Int := blossom (axisOf c ax) (List.replicate (c.length - 1) t)

/-- R265: clamp to the closed range between two values. -/
def clampTo (v a b : Int) : Int := max (min a b) (min v (max a b))

/-- R265: a cubic's control coordinates made monotone on each axis. -/
def monotone (c : Curve) : Curve :=
  match c with
  | [p0, p1, p2, p3] =>
    let one := fun (c0 c1 c2 c3 : Int) => let x := clampTo c1 c0 c3; (x, clampTo c2 x c3)
    let x := one p0.1 p1.1 p2.1 p3.1
    let y := one p0.2 p1.2 p2.2 p3.2
    [p0, (x.1, y.1), (x.2, y.2), p3]
  | _ => c

/-- R265: a piece of a curve. -/
def pieceOf (c : Curve) (ta tb : Int) : Curve := monotone (restrict c ta tb)

/-! ### Extrema (R265) -/

/-- The integer nearest to x, ties to even, from q = ⌊2x⌋ and whether 2x is that integer. -/
def nearHalf (q : Int) (exact : Bool) : Int :=
  let k := q / 2
  if q % 2 = 0 then k else if exact && decide (k % 2 = 0) then k else k + 1

/-- The integers T nearest to 65,536 t for the simple roots t of a t² + 2 b t + c. -/
def rootParams (a b c : Int) : List Int :=
  if a = 0 then
    if b = 0 then []
    else
      let num := if b < 0 then c else -c
      [nearestEven (num * 65536) (2 * b.natAbs)]
  else
    let (a, b, c) := if a < 0 then (-a, -b, -c) else (a, b, c)
    let d := b * b - a * c
    if d ≤ 0 then []
    else
      let m := -131072 * b
      let dd := d.toNat * 2 ^ 34
      let r := isqrt dd
      let sq := decide (r * r = dd)
      let lowR : Int := if sq then r else (r : Int) + 1
      let one := fun (x : Int) => nearHalf (x / a) (sq && decide (x % a = 0))
      [one (m - lowR), one (m + (r : Int))]

/-- R265: split parameters of one axis. -/
def extrema (l : List Int) : List Int :=
  match l with
  | [p0, p1, p2] => rootParams 0 (p0 - 2 * p1 + p2) (2 * (p1 - p0))
  | [p0, p1, p2, p3] =>
    let d0 := p1 - p0
    let d1 := p2 - p1
    let d2 := p3 - p2
    rootParams (d0 - 2 * d1 + d2) (d1 - d0) d0
  | _ => []

/-- Sorted, without repeats, within 1 to 65,535. -/
def sortParams (l : List Int) : List Nat :=
  (l.filter fun t => decide (1 ≤ t ∧ t ≤ 65535)).foldl (fun acc t => insSorted acc t.toNat) []

/-- Pieces between consecutive parameters. -/
def cutAt (c : Curve) (ta : Nat) (ts : List Nat) : List Curve :=
  match ts with
  | [] => [pieceOf c ta 65536]
  | t :: r => pieceOf c ta t :: cutAt c t r

/-- R265: the pieces of a segment; a line is one piece. -/
def extremaPieces (c : Curve) : List Curve :=
  match sortParams (extrema (axisOf c 0) ++ extrema (axisOf c 1)) with
  | [] => [if c.length = 4 then monotone c else c]
  | ts => cutAt c 0 ts

/-- R266: the span of the control coordinates. -/
def spanOf (l : List Int) : Int := match l with
  | [] => 0
  | x :: r => r.foldl max x - r.foldl min x

/-- R266: halve until no piece spans more than 4,096. -/
def halve (fuel : Nat) (c : Curve) : List Curve :=
  match fuel with
  | 0 => [c]
  | k + 1 =>
    if 4096 < spanOf (axisOf c 0) ∨ 4096 < spanOf (axisOf c 1) then
      halve k (pieceOf c 0 32768) ++ halve k (pieceOf c 32768 65536)
    else [c]

/-! ### Crossings (R267) -/

/-- The boundaries strictly between two coordinates. -/
def boundsBetween (a b : Int) : List Int :=
  let lo := min a b
  let hi := max a b
  let first := lo / 256 + 1
  let n := ((hi + 255) / 256 - first).toNat
  (upto 0 n).map fun (i : Nat) => (first + (i : Int)) * 256

/-- The bisection, `n` levels left. -/
def bisect (c : Curve) (ax : Nat) (b : Int) (n : Nat) (lo hi : Int) : Int :=
  let v := fun (t : Int) => coordAt c ax t - b
  match n with
  | 0 => if (v lo).natAbs ≤ (v hi).natAbs then lo else hi
  | n + 1 =>
    let mid := (lo + hi) / 2
    if v mid = 0 then mid
    else if decide (v mid < 0) = decide (v 0 < 0) then bisect c ax b n mid hi
    else bisect c ax b n lo mid

/-- The parameter of a boundary. -/
def crossParam (c : Curve) (ax : Nat) (b : Int) : Nat :=
  (min (max (bisect c ax (b * 65536 ^ (c.length - 1)) 16 0 65536) 1) 65535).toNat

/-- The crossings of a piece: (parameter, axis, boundary). -/
def crossings (c : Curve) : List (Nat × Nat × Int) :=
  [0, 1].flatMap fun ax =>
    let l := axisOf c ax
    (boundsBetween (l.headD 0) (nth l (l.length - 1) 0)).map fun b => (crossParam c ax b, ax, b)

/-- A point with the boundaries located at its parameter put in. -/
def snapPt (p : Pt) (t : Nat) (xs : List (Nat × Nat × Int)) : Pt :=
  xs.foldl (fun p x => if x.1 = t then (if x.2.1 = 0 then (x.2.2, p.2) else (p.1, x.2.2)) else p) p

/-- A sub-piece, its ends snapped, a cubic's control coordinates made monotone after that. -/
def subPiece (c : Curve) (xs : List (Nat × Nat × Int)) (ta tb : Nat) : Curve :=
  let r := restrict c ta tb
  let n := r.length - 1
  monotone ((r.set 0 (snapPt (ptAt r 0) ta xs)).set n (snapPt (ptAt r n) tb xs))

def subPieces (c : Curve) : List Curve :=
  let xs := crossings c
  let ts := xs.foldl (fun l x => insSorted l x.1) []
  let ends := 0 :: ts
  List.zipWith (fun ta tb => subPiece c xs ta tb) ends (ts ++ [65536])

/-- R264 to R267: every sub-piece of a segment. -/
def curveSubPieces (c : Curve) : List Curve :=
  match reduceCurve c with
  | none => []
  | some c => (extremaPieces c).flatMap fun p => (halve 96 p).flatMap subPieces

/-! ### Area and cover (R267, R268) -/

/-- J of R268. -/
def areaJ (c : Curve) : Int :=
  let x := fun i => (ptAt c i).1
  let d := fun i => (ptAt c (i + 1)).2 - (ptAt c i).2
  match c.length with
  | 2 => 60 * (x 0 + x 1) * d 0
  | 3 => x 0 * (60 * d 0 + 20 * d 1) + x 1 * (40 * d 0 + 40 * d 1) + x 2 * (20 * d 0 + 60 * d 1)
  | _ => x 0 * (60 * d 0 + 24 * d 1 + 6 * d 2) + x 1 * (36 * d 0 + 36 * d 1 + 18 * d 2) +
      x 2 * (18 * d 0 + 36 * d 1 + 36 * d 2) + x 3 * (6 * d 0 + 24 * d 1 + 60 * d 2)

/-- A sub-piece's cell with its area and cover. -/
def cellOf (c : Curve) : Cell :=
  let p := ptAt c 0
  let q := endPt c
  let cx := (p.1 + q.1) / 512
  let h := q.2 - p.2
  ⟨cx, (p.2 + q.2) / 512, 30720 * (cx + 1) * h - areaJ c, 30720 * h⟩

/-- Sums per cell. -/
def addCell (l : List Cell) (c : Cell) : List Cell :=
  match l with
  | [] => [c]
  | x :: r => if x.cx = c.cx ∧ x.cy = c.cy then { x with c0 := x.c0 + c.c0, c1 := x.c1 + c.c1 } :: r else x :: addCell r c

/-! ### Coverage (R269, R271) -/

/-- R271: a sub-piece that the target keeps. -/
def cellKept (w h : Nat) (c : Cell) : Bool := decide (0 ≤ c.cy ∧ c.cy < (h : Int) ∧ c.cx < (w : Int))

/-- R271: the tile that a kept sub-piece counts against. -/
def cellTile (c : Cell) : Nat × Nat := ((max c.cx 0 / 8).toNat, (c.cy / 8).toNat)

/-- R269: the winding integral of a pixel. -/
def winding (cells : List Cell) (x y : Int) : Int :=
  sext (wrap (cells.foldl (fun w c =>
    if c.cy = y then (if c.cx = x then w + c.c0 else if c.cx < x then w + c.c1 else w) else w) 0) 40) 40

/-- R269: coverage, U1.15. -/
def coverageOf (w : Int) (evenOdd : Bool) : Nat :=
  let one := 7864320
  let m := min w.natAbs (127 * one)
  let k := m % (2 * one)
  let cv := if evenOdd then (if k ≤ one then k else 2 * one - k) else min m one
  (nearestEven cv 240).toNat

/-- R271: pool bytes that the kept cells of a path need. -/
def pathNeed (w h : Nat) (cells : List Cell) : Nat :=
  let ts := (cells.filter (cellKept w h)).map cellTile
  match ts with
  | [] => 0
  | _ =>
    let rows := ts.map (·.2)
    let left := minOf (ts.map (·.1)) 0
    384 * (maxOf rows 0 + 1 - minOf rows 0) * (ceilDiv w 8 - left)

/-- R270: the coverage of a tile's 64 pixels; pixels outside the target have none. -/
def tileCoverage (w h : Nat) (cells : List Cell) (evenOdd : Bool) (tx ty : Nat) : List Nat :=
  (upto 0 64).map fun p =>
    let x := 8 * tx + p % 8
    let y := 8 * ty + p / 8
    if x < w ∧ y < h then coverageOf (winding cells x y) evenOdd else 0

/-- R270: the tiles with coverage, in ascending TY and then TX. -/
def pathTiles (w h : Nat) (cells : List Cell) (evenOdd : Bool) : List (Nat × Nat × List Nat) :=
  let kept := cells.filter (cellKept w h)
  let rows := kept.foldl (fun l c => insSorted l (cellTile c).2) []
  rows.flatMap fun ty =>
    let here := kept.filter fun c => (cellTile c).2 == ty
    let left := minOf (here.map fun c => (cellTile c).1) 0
    (upto left (ceilDiv w 8 - left)).filterMap fun tx =>
      let l := tileCoverage w h here evenOdd tx ty
      if l.all (· == 0) then none else some (tx, ty, l)

/-- R270: the two records of a tile. -/
def pathUnit (pid : Word) (tx ty seq : Nat) (cov : List Nat) : List (List Word) :=
  let full := (cov.filter (· == 0x8000)).length
  [[BitVec.ofNat 32 (tx + ty * 2 ^ 16), pid, BitVec.ofNat 32 (full + seq % 2 ^ 16 * 2 ^ 16)] ++ List.replicate 29 0,
   (upto 0 32).map fun k => BitVec.ofNat 32 (nth cov (2 * k) 0 + nth cov (2 * k + 1) 0 * 2 ^ 16)]

end Sys2Proof.Machine
end

