-- ==== Sys2Proof/Machine/Raster.lean ====
section
/-! DEFINITION. Raster islands: pass descriptors, passes, RASTER.COARSE, RASTER.PATH, the tile-list pool, fast clear,
and the ICTL selectors of passes and of faults (R249 to R262, R270, R271, R273 to R275, R233, R234). -/

namespace Sys2Proof.Machine

/-! ### Pass descriptors and status (R251, R252, R254) -/

def pdW (d : BitVec 512) : Nat := bits d.toNat 96 15 + 1
def pdH (d : BitVec 512) : Nat := bits d.toNat 112 15 + 1
def pdBinned (d : BitVec 512) : Bool := tb d.toNat 0
def pdPool (d : BitVec 512) : Nat := bits d.toNat 192 49
def pdPoolSize (d : BitVec 512) : Nat := bits d.toNat 160 32
def pdTarget (d : BitVec 512) : Nat := bits d.toNat 256 49
def pdFlags (d : BitVec 512) : Nat := bits d.toNat 320 49
/-- R273: the clear value of a flag code. -/
def pdClear (d : BitVec 512) (code : Nat) : Nat :=
  match code with
  | 1 => bits d.toNat 384 64
  | 2 => bits d.toNat 448 64
  | _ => 0

def pdTilesX (d : BitVec 512) : Nat := ceilDiv (pdW d) 8
def pdTilesY (d : BitVec 512) : Nat := ceilDiv (pdH d) 8

/-- R252. -/
def pdMalformed (d : BitVec 512) : Bool :=
  bits d.toNat 369 15 != 0 || bits d.toNat 305 15 != 0 || bits d.toNat 241 15 != 0 || bits d.toNat 127 33 != 0 ||
    tb d.toNat 111 || bits d.toNat 1 95 != 0 || pdPool d % 4096 != 0 || pdPoolSize d % 4096 != 0 ||
    decide (pdPoolSize d < 16384)

/-- R251: the usable pool: all but the last 16 KiB, in whole pages as the pool is (R252). -/
def usablePool (d : BitVec 512) : Nat := (pdPoolSize d / 4096 - 4) * 4096

/-- R254: the status word. -/
def passWord (p : Pass) (opened : Bool) : Nat :=
  min p.flushes 0xFFFF * 2 ^ 32 + min p.tflush 0xFFFF * 2 ^ 16 + min p.pdrop 0xFF * 2 ^ 8 + p.badrec.toNat * 8 +
    p.susp.toNat * 4 + (pdBinned p.desc).toNat * 2 + opened.toNat

/-- R253: a pass begins. -/
def passStart (num : Nat) (d : BitVec 512) (ctx : Nat) : Pass :=
  { num := num, desc := d, ctx := ctx, flushes := 0, tflush := 0, pdrop := 0, badrec := false, susp := false, bins := [], seq := [],
    clean := [], ending := none }

def modPass (s : State) (q : Nat) (f : Pass → Pass) : State :=
  modIsle s 0 q fun x => { x with pass := x.pass.map f }

/-! ### Fast clear (R273 to R275) -/

/-- The pixels of a tile that lie within the target. -/
def tilePixels (d : BitVec 512) (tx ty : Nat) : List (Nat × Nat) :=
  ((upto 0 64).map fun p => (8 * tx + p % 8, 8 * ty + p / 8)).filter fun p => decide (p.1 < pdW d ∧ p.2 < pdH d)

/-- One pixel of the clear value. -/
def clearPixel (s : State) (ctx : Nat) (t : BitVec 128) (v : Nat) (p : Nat × Nat) : Except IStop State :=
  let n := tgPixel t
  let va := tgBase t + p.2 * tgPitch t + p.1 * n
  match checkNow s ctx Config.cores va n .storeNoKey with
  | .error (code, cause) => .error (code, cause, va)
  | .ok q => .ok (writeAt (touchTlb s ctx Config.cores va) ctx q (bytesOf n v))

/-- R274: the tile's flag is read and cleared, and the clear value written; the answer says whether it was set. No rule says
when the target entry is read for it, or what a malformed one does: it is read at each flag that is set, and used as it
stands (DESIGN CHOICE, log 29). -/
def materialise (s : State) (ctx : Nat) (d : BitVec 512) (tx ty : Nat) : Except IStop (State × Bool) :=
  let i := ty * pdTilesX d + tx
  let va := pdFlags d + i / 4
  match checkNow s ctx Config.cores va 1 .loadNoKey, checkNow s ctx Config.cores va 1 .storeNoKey with
  | .ok p, .ok _ =>
    let (l, bad) := readAt s p.pa 0 1
    if bad then .error (tcPoison, 0, va)
    else
      let old := ofBytes l
      let code := bits old (2 * (i % 4)) 2
      let s1 := writeAt (takenVirt s ctx Config.cores va 1 .loadNoKey) ctx p [BitVec.ofNat 8 (old - code * 2 ^ (2 * (i % 4)))]
      if code = 0 then .ok (s1, false)
      else match readVirt s1 ctx (pdTarget d) 16 .loadNoKey with
        | .error (c, cause) => .error (c, cause, pdTarget d)
        | .ok (l, bad) =>
          if bad then .error (tcPoison, 0, pdTarget d)
          else match foldE (tilePixels d tx ty) (takenVirt s1 ctx Config.cores (pdTarget d) 16 .loadNoKey) fun s p =>
              clearPixel s ctx (BitVec.ofNat 128 (ofBytes l)) (pdClear d code) p with
            | .error e => .error e
            | .ok s2 => .ok (s2, true)
  | .error (code, cause), _ | _, .error (code, cause) => .error (code, cause, va)

/-! ### Records of a pass -/

/-- Number of a tile, for tables. -/
def tileKey (tx ty : Nat) : Nat := ty * 4096 + tx

/-- R274: the tile is materialised before the first record of either class for it in the pass. -/
def tileClean (s : State) (q tx ty : Nat) : Except IStop State :=
  match (getIsle s 0 q).pass with
  | none => .ok s
  | some p =>
    if pdFlags p.desc = 0 ∨ p.clean.contains (tileKey tx ty) then .ok s
    else match materialise s p.ctx p.desc tx ty with
      | .error e => .error e
      | .ok (s1, _) => .ok (modPass s1 q fun p => { p with clean := tileKey tx ty :: p.clean })

/-- R260, R270: `SEQ` of the next record of a class for a tile. -/
def seqKey (cls tx ty : Nat) : Nat := cls * 2 ^ 24 + tileKey tx ty
def seqNext (s : State) (q cls tx ty : Nat) : Nat :=
  ((getIsle s 0 q).pass.map fun p => Tab.get p.seq (seqKey cls tx ty) 0).getD 0
/-- `n` more records of the class for the tile. -/
def seqCount (s : State) (q cls tx ty n : Nat) : State :=
  modPass s q fun p => { p with seq := Tab.set p.seq (seqKey cls tx ty) (Tab.get p.seq (seqKey cls tx ty) 0 + n) }

/-! ### The pool (R255, R271) -/

/-- Pool bytes that the open paths hold. -/
def pathsHold (x : Island) (d : BitVec 512) : Nat :=
  x.paths.foldl (fun n a => if a.drop then n else n + pathNeed (pdW d) (pdH d) a.cells) 0

/-- Bins in ascending TY and then TX, each in the order appended. -/
def insBin (l : List (Nat × Response)) (b : Nat × Response) : List (Nat × Response) :=
  match l with
  | [] => [b]
  | x :: r => if b.1 < x.1 then b :: x :: r else x :: insBin r b

def binOrder (l : List (Nat × Response)) : List Response := (l.foldl insBin []).map (·.2)

/-- A range of bytes of the pool checked page by page for writing, or for reading with its poison (R256). -/
def poolCheck (s : State) (ctx : Nat) (d : BitVec 512) (off n : Nat) (k : Acc133) : Except IStop Unit :=
  foldE ((upto (off / 4096) (n / 4096 + 2)).filter fun i => decide (n ≠ 0 ∧ 4096 * i < off + n)) () fun _ i =>
    match checkNow s ctx Config.cores (pdPool d + 4096 * i) 1 k with
    | .ok p =>
      if k = .loadNoKey ∧ s.poison.any (fun x => x / 128 == p.pa / 4096) then .error (tcPoison, 0, pdPool d + 4096 * i)
      else .ok ()
    | .error (code, cause) => .error (code, cause, pdPool d + 4096 * i)

/-- Bytes written to the pool at the slices (R160), its pages checked first. -/
def poolWrite (s : State) (ctx : Nat) (d : BitVec 512) (off : Nat) (l : List Byte) : Except IStop State :=
  match poolCheck s ctx d off l.length .storeNoKey with
  | .error e => .error e
  | .ok _ => match writeVirt (touchRange s ctx (pdPool d + off) l.length) ctx (pdPool d + off) l .storeNoKey with
    | .ok s1 => .ok s1
    | .error (code, cause) => .error (code, cause, pdPool d + off)

/-- Bytes of no stated layout put into a part of the pool, at no stated place of it. -/
def poolSpoil (s : State) (ctx : Nat) (d : BitVec 512) (off n : Nat) : Except IStop State :=
  match Config.freeStore s.tick ctx, poolCheck s ctx d off n .storeNoKey with
  | _, .error e => .error e
  | (at', l), .ok _ => poolWrite s ctx d (off + at' % max 1 n) (l.take (n - at' % max 1 n))

/-- R256: the state of a suspended pass in the last 16 KiB of its pool: written at the suspension, read at the reopening. -/
def poolState (s : State) (ctx : Nat) (d : BitVec 512) (store : Bool) : Except IStop State :=
  if store then poolSpoil s ctx d (usablePool d) 16384
  else match poolCheck s ctx d (usablePool d) 16384 .loadNoKey with
    | .ok _ => .ok (takenVirt s ctx Config.cores (pdPool d + usablePool d) 16384 .loadNoKey)
    | .error e => .error e

/-- R255: place of entry `n` in the usable pool, counted from where the part puts the first. Going on from there, around the
end of the pool, come the bins; the open paths hold the bytes before it, `n` of them (R271). -/
def poolFirst (d : BitVec 512) : Nat := 64 * (Config.freePool d.toNat % max 1 (usablePool d / 64))
def entryPlace (d : BitVec 512) (n : Nat) : Nat := (poolFirst d + 64 * n) % max 1 (usablePool d)
def pathPlace (d : BitVec 512) (n : Nat) : Nat := (poolFirst d + usablePool d - n) % max 1 (usablePool d)

/-- R255, R256: an entry is read from the pool for its delivery; an entry lies within a page. -/
def entryTake (s : State) (ctx : Nat) (d : BitVec 512) (n : Nat) : Except IStop State :=
  let va := pdPool d + entryPlace d n
  if usablePool d < 64 then .ok s
  else match readVirt s ctx va 64 .loadNoKey with
    | .error (code, cause) => .error (code, cause, va)
    | .ok (_, bad) => if bad then .error (tcPoison, 0, va) else .ok (takenVirt s ctx Config.cores va 64 .loadNoKey)

/-- R255: the bins are read, delivered and freed. -/
def emptyBins (s : State) (q : Nat) (count : Bool) : Except IStop State :=
  match (getIsle s 0 q).pass with
  | none => .ok s
  | some p => match foldE (upto 0 p.bins.length) s fun s n => entryTake s p.ctx p.desc n with
    | .error e => .error e
    | .ok s => .ok (modIsle s 0 q fun x => { x with
        resps := x.resps ++ binOrder p.bins
        pass := some { p with bins := [], flushes := p.flushes + count.toNat } })

/-- R255: a coarse record joins the responses of an immediate pass, or the bins of a binned one, with its 64 bytes in the
usable pool. -/
def emitCoarse (s : State) (q : Nat) (b : Binding) (p : Option Party) (req tile : Nat) (words : List Word) :
    Except IStop State :=
  let x := getIsle s 0 q
  match x.pass with
  | none => .ok s
  | some ps =>
    let r : Response := ⟨b.team, p, b.id, b.cls, req, [words]⟩
    if !pdBinned ps.desc then .ok (modIsle s 0 q fun x => { x with resps := x.resps ++ [r] })
    else
      let fits := decide (64 * (ps.bins.length + 1) + pathsHold x ps.desc ≤ usablePool ps.desc)
      match if fits then .ok s else emptyBins s q true with
      | .error e => .error e
      | .ok s1 =>
        let n := (((getIsle s1 0 q).pass).map (·.bins.length)).getD 0
        match poolWrite s1 ps.ctx ps.desc (entryPlace ps.desc n)
            (if usablePool ps.desc < 64 then [] else words.flatMap fun w => bytesOf 4 w.toNat) with
        | .error e => .error e
        | .ok s2 => .ok (modPass s2 q fun ps => { ps with bins := ps.bins ++ [(tile, r)] })

/-! ### RASTER.COARSE (R257 to R260) -/

/-- R257. -/
def coarseBad (r : List Word) : Bool :=
  ((upto 0 6).any fun i => !coordOk (nth r i 0)) || decide (3 ≤ (nth r 7 0).toNat)

/-- An edge: E at a point, its steps and top-left flag (R258). -/
structure Edge where
  a  : Pt
  b  : Pt
  deriving DecidableEq, Repr

def Edge.sa (e : Edge) : Int := e.b.2 - e.a.2
def Edge.sb (e : Edge) : Int := e.a.1 - e.b.1
def Edge.at' (e : Edge) (p : Pt) : Int := (p.1 - e.a.1) * e.sa - (p.2 - e.a.2) * (e.b.1 - e.a.1)
def Edge.tl (e : Edge) : Bool := decide (0 < e.sa) || (e.sa == 0 && decide (0 < e.sb))

/-- R258: the vertices, D, and the edges of a triangle. -/
def coarsePts (r : List Word) : List Pt :=
  (upto 0 3).map fun i => (sext (nth r (2 * i) 0).toNat 32, sext (nth r (2 * i + 1) 0).toNat 32)

def coarseD (v : List Pt) : Int :=
  let p := ptAt v
  ((p 1).1 - (p 0).1) * ((p 2).2 - (p 0).2) - ((p 1).2 - (p 0).2) * ((p 2).1 - (p 0).1)

def coarseEdges (v : List Pt) : List Edge :=
  let p := ptAt v
  if coarseD v < 0 then [⟨p 1, p 2⟩, ⟨p 2, p 0⟩, ⟨p 0, p 1⟩] else [⟨p 2, p 1⟩, ⟨p 0, p 2⟩, ⟨p 1, p 0⟩]

/-- E at the centre of the first pixel of a tile. -/
def edgeE00 (e : Edge) (tx ty : Nat) : Int := e.at' ((2048 * tx + 128 : Nat), (2048 * ty + 128 : Nat))

/-- R259: some pixel centre of the tile is inside the edge: the one at which E is largest. -/
def edgeReaches (e : Edge) (tx ty : Nat) : Bool :=
  let m := edgeE00 e tx ty + 1792 * (max e.sa 0 + max e.sb 0)
  decide (0 < m) || (m == 0 && e.tl)

/-- R259: the tiles of the target that a triangle may cover, in ascending TY and then TX. -/
def coarseTiles (d : BitVec 512) (es : List Edge) : List (Nat × Nat) :=
  (upto 0 (pdTilesY d)).flatMap fun ty => ((upto 0 (pdTilesX d)).filter fun tx => es.all fun e => edgeReaches e tx ty).map
    fun tx => (tx, ty)

/-- R260: the words of a tile record. -/
def coarseWords (prim : Word) (dpos : Bool) (seq tx ty : Nat) (es : List Edge) : List Word :=
  [BitVec.ofNat 32 (tx + ty * 2 ^ 16), prim, BitVec.ofNat 32 dpos.toNat, BitVec.ofNat 32 (seq % 2 ^ 16)] ++
    es.flatMap fun e =>
      let v := wrap (edgeE00 e tx ty) 64
      [BitVec.ofNat 32 v, BitVec.ofNat 32 (v / 2 ^ 32), BitVec.ofNat 32 (wrap e.sa 32), BitVec.ofNat 32 (wrap e.sb 32)]

/-- R258: dropped by its area or its `CULL`. -/
def culled (r : List Word) (d : Int) : Bool :=
  let c := (nth r 7 0).toNat
  d == 0 || (c == 1 && decide (0 < d)) || (c == 2 && decide (d < 0))

/-- A RASTER.COARSE request (R257 to R260). -/
def coarseUnit (q : Nat) : Serve := fun s b p req recs =>
  let r := ((recs.head?).map (·.words)).getD []
  match (getIsle s 0 q).pass with
  | none => .ok (s, [])
  | some ps =>
    if coarseBad r then .ok (modPass s q fun p => { p with badrec := true }, [])
    else
      let v := coarsePts r
      let d := coarseD v
      if culled r d then .ok (s, [])
      else
        let es := coarseEdges v
        match foldE (coarseTiles ps.desc es) s fun s t =>
            match tileClean s q t.1 t.2 with
            | .error e => .error e
            | .ok s =>
              let w := coarseWords (nth r 6 0) (decide (0 < d)) (seqNext s q b.cls t.1 t.2) t.1 t.2 es
              emitCoarse (seqCount s q b.cls t.1 t.2 1) q b p req (tileKey t.1 t.2) w with
        | .error e => .error e
        | .ok s => .ok (s, [])

/-! ### RASTER.PATH (R263, R270, R271) -/

def pathAt (x : Island) (b : Nat) : PathAcc := (x.paths.find? fun a => a.bind == b).getD ⟨b, [], [], false⟩
def setPath (s : State) (q : Nat) (a : PathAcc) : State :=
  modIsle s 0 q fun x => { x with paths := (x.paths.filter fun y => y.bind != a.bind) ++ [a] }
def endPath (s : State) (q b : Nat) : State :=
  modIsle s 0 q fun x => { x with paths := x.paths.filter fun y => y.bind != b }

/-- R271: count a kept sub-piece against its tile; the answer says whether the tile was folded. -/
def countPiece (h : Tab Nat) (c : Cell) : Tab Nat × Nat :=
  let t := cellTile c
  let k := tileKey t.1 t.2
  let n := Tab.get h k 0
  if 1024 ≤ n then (Tab.set h k 1, 1) else (Tab.set h k (n + 1), 0)

/-- R271: a segment joins the open path of its binding. -/
def pathAdd (s : State) (q : Nat) (ps : Pass) (a : PathAcc) (r : List Word) : State :=
  if a.drop then s
  else
    let cells := (curveSubPieces (pathCurve r)).map cellOf
    let kept := cells.filter (cellKept (pdW ps.desc) (pdH ps.desc))
    let h := kept.foldl (fun (acc : Tab Nat × Nat) c => let x := countPiece acc.1 c; (x.1, acc.2 + x.2)) (a.held, 0)
    modPass (setPath s q { a with cells := cells.foldl addCell a.cells, held := h.1 }) q fun p =>
      { p with tflush := p.tflush + h.2 }

/-- R271: the open path finds room in the pool, whose bytes there its accumulators take: bins are flushed for it, and a
path too large for the whole pool is dropped. -/
def pathRoom (s : State) (q bind : Nat) : Except IStop State :=
  let x := getIsle s 0 q
  match x.pass with
  | none => .ok s
  | some ps =>
    let a := pathAt x bind
    let need := pathNeed (pdW ps.desc) (pdH ps.desc) a.cells
    if a.drop then .ok s
    else match if usablePool ps.desc < 64 * ps.bins.length + pathsHold x ps.desc ∧ ps.bins ≠ [] then emptyBins s q true else .ok s with
      | .error e => .error e
      | .ok s1 =>
        if usablePool ps.desc < need then
          .ok (modPass (setPath s1 q { a with cells := [], held := [], drop := true }) q fun p => { p with pdrop := p.pdrop + 1 })
        else
          -- R271: the accumulators of the open paths, in what the bins leave
          let n := min (pathsHold x ps.desc) (usablePool ps.desc)
          let k := min n (usablePool ps.desc - pathPlace ps.desc n)
          match poolSpoil s1 ps.ctx ps.desc (pathPlace ps.desc n) k with
          | .error e => .error e
          | .ok s2 => poolSpoil s2 ps.ctx ps.desc 0 (n - k)

/-- R270: the units of a path that has ended; each counts as two records in `SEQ`. -/
def pathEmit (s : State) (q : Nat) (ps : Pass) (b : Binding) (a : PathAcc) (pid : Word) (evenOdd : Bool) :
    Except IStop (State × List (List (List Word))) :=
  foldE (if a.drop then [] else pathTiles (pdW ps.desc) (pdH ps.desc) a.cells evenOdd)
    (s, ([] : List (List (List Word)))) fun acc t =>
      match tileClean acc.1 q t.1 t.2.1 with
      | .error e => .error e
      | .ok s =>
        let u := pathUnit pid t.1 t.2.1 (seqNext s q b.cls t.1 t.2.1) t.2.2
        .ok (seqCount s q b.cls t.1 t.2.1 2, acc.2 ++ [u])

/-- A RASTER.PATH record (R263). -/
def pathRecord (q : Nat) : Serve := fun s b _ _ recs =>
  let r := ((recs.head?).map (·.words)).getD []
  match (getIsle s 0 q).pass with
  | none => .ok (s, [])
  | some ps =>
    if pathBad r then .ok (modPass s q fun p => { p with badrec := true }, [])
    else
      let w0 := (nth r 0 0).toNat
      let a := pathAt (getIsle s 0 q) b.id
      if bits w0 30 2 = 3 then
        match pathRoom s q b.id with
        | .error e => .error e
        | .ok s =>
          match pathEmit s q ps b (pathAt (getIsle s 0 q) b.id) (nth r 1 0) (tb w0 29) with
          | .error e => .error e
          | .ok (s, us) => .ok (endPath s q b.id, us)
      else match pathRoom (pathAdd s q ps a r) q b.id with
        | .error e => .error e
        | .ok s => .ok (s, [])

/-! ### The events of the raster classes -/

/-- R256: the pass waits for its pool to be written or read. -/
def poolFaulted (x : Island) : Bool :=
  match x.fault with
  | some f => (match f.stopped with | .pool .. => true | _ => false)
  | none => false

/-- R253: may the pass take a record of this binding? -/
def passTakes (x : Island) (b : Binding) : Bool :=
  !poolFaulted x && (match x.pass with
    | none => false
    | some p => match p.ending with
      | none => true
      | some t => decide (0 < Tab.get t b.id 0))

/-- A record has been taken: PASSEND waits for one fewer. -/
def passCount (s : State) (q : Nat) (b : Nat) : State :=
  modPass s q fun p => { p with ending := p.ending.map fun t => Tab.put t b (Tab.get t b 0 - 1) 0 }

/-- The event of a raster class: its turn takes a record of binding `b` into the pass. -/
def rasterTurn (s : State) (q cls b : Nat) (f : Serve) : Host.Outcome State Fault Refusal :=
  let x := getIsle s 0 q
  match x.binds.find? fun y => y.id == b with
  | none => .next s
  | some y =>
    if (classOf x y).map (·.1) = some cls ∧ nextBinding s x y.cls (passTakes x) = some y then
      let s1 := takeUnit s 0 q y f
      .next (if (getIsle s1 0 q).reqs = x.reqs then s1 else passCount s1 q y.id)
    else .next s

/-- RASTER_COARSE (R257 to R260). -/
def execRasterCoarse (quad b : Nat) (s : State) : Host.Outcome State Fault Refusal :=
  rasterTurn s quad 0x0001 b (coarseUnit quad)

/-- RASTER_PATH (R263 to R271). -/
def execRasterPath (quad b : Nat) (s : State) : Host.Outcome State Fault Refusal :=
  rasterTurn s quad 0x0002 b (pathRecord quad)

/-! ### Pass control (R252, R253, R275) -/

/-- R252: the descriptor, checked at issue; the issuer's earlier writes are released at `.dev`, and it is read at the
slices. -/
def passDesc (e : Env) (a : Code) : Except Stop (State × BitVec 512) :=
  let va := val64 e a e.low
  match checkParty e.s e.ctx e.core (partOf e.s e.p) va 64 .loadNoKey with
  | .bad code cause => .error (.trap code (memDetail cause e.low false) va)
  | .walk vpn => .error (.walk vpn)
  | .ok p =>
    let s := takenVirt (drainCore e.s e.core) e.ctx e.core va 64 .loadNoKey
    let (l0, b0) := readAt s p.pa p.key 32
    let (l1, b1) := readAt s (p.pa + 32) p.key 32
    if b0 || b1 then .error (.trap tcPoison e.low va) else .ok (s, BitVec.ofNat 512 (ofBytes (l0 ++ l1)))

def execPassbegin (c : Ctl) (d a : Code) (s : State) : Host.Outcome State Fault Refusal :=
  perform (.passbegin c d a) c (ictlRules d a 0x10 false true) s fun e =>
    if e.act.isEmpty then .ok (done e e.s)
    else match passDesc e a with
      | .error x => .error x
      | .ok (s1, desc) =>
        let q := isleIdx e 0
        let x := getIsle s1 0 q
        let st := if x.pass.isSome then 1 else if pdMalformed desc then 2 else if !isleReady x e.ctx then 3 else 0
        let s2 := if st = 0 then
            modIsle { s1 with nextBind := s1.nextBind + 1 } 0 q fun x => { x with pass := some (passStart s1.nextBind desc e.ctx) }
          else s1
        .ok (ictlDone e s2 d st)

/-- R253: the records that a PASSEND takes in: those reserved at the island's input ports at its issue. -/
def reservedNow (s : State) (x : Island) : Tab Nat :=
  (x.binds.filter (isInput x)).foldl (fun t b =>
    Tab.put t b.id (((getQueue s b.inst b.q).map (·.recs.length)).getD 0) 0) []

/-- PASSEND (R252, R253). One issued while an earlier one is outstanding takes in nothing more and ends with it. R252 lets only
the context that owns the island hold a pass, and does not say what another's PASSEND or PASSSTAT answers: a PASSEND by a
context that does not hold the open pass answers 0 at once, as where none is open, and PASSSTAT shows the pass of any context
(DESIGN CHOICE, log 29). -/
def execPassend (c : Ctl) (d a : Code) (s : State) : Host.Outcome State Fault Refusal :=
  perform (.passend c d a) c (ictlRules d a 0x11 false false) s fun e =>
    if e.act.isEmpty then .ok (done e e.s)
    else
      let q := isleIdx e 0
      let x := getIsle e.s 0 q
      match x.pass with
      | none => .ok (ictlDone e e.s d 0)
      | some p =>
        if p.ctx ≠ e.ctx then .ok (ictlDone e e.s d 0)
        else
          let t := p.ending.getD (reservedNow e.s x)
          .ok (later e (modPass e.s q fun p => { p with ending := some t }) (.passend p.num) [] (outKeys e d (baseRun e.kind)) 0)

def execPassstat (c : Ctl) (d a : Code) (s : State) : Host.Outcome State Fault Refusal :=
  perform (.passstat c d a) c (ictlRules d a 0x12 false false) s fun e =>
    if e.act.isEmpty then .ok (done e e.s)
    else
      let x := getIsle e.s 0 (isleIdx e 0)
      .ok (ictlDone e e.s d (match x.pass with
        | some p => passWord p true
        | none => x.pstat.toNat))

/-- RESOLVE (R252, R275). Where both apply, 'not ready' is answered before 'malformed': R252 gives no order (DESIGN CHOICE, log
29). -/
def execResolve (c : Ctl) (d a : Code) (s : State) : Host.Outcome State Fault Refusal :=
  perform (.resolve c d a) c (ictlRules d a 0x13 false true) s fun e =>
    if e.act.isEmpty then .ok (done e e.s)
    else match passDesc e a with
      | .error x => .error x
      | .ok (s1, desc) =>
        let x := getIsle s1 0 (isleIdx e 0)
        if !isleReady x e.ctx then .ok (ictlDone e s1 d (2 ^ 64 - 1))
        else if pdMalformed desc then .ok (ictlDone e s1 d (2 ^ 64 - 2))
        else .ok (later { e with s := s1 } s1 (.resolve desc 0 0) [] (outKeys e d (baseRun e.kind)) 0)

/-! ### The end of a fault (R233, R234) -/

/-- The function of a class. -/
def serveOf (kind idx cls : Nat) : Option Serve :=
  match cls with
  | 0x0001 => some (coarseUnit idx)
  | 0x0002 => some (pathRecord idx)
  | 0x1001 => some (oneUnit kind idx sample2dUnit)
  | 0x1002 => some (oneUnit kind idx sampleCubeUnit)
  | 0x2001 => some (oneUnit kind idx box4Unit)
  | 0x2002 => some (oneUnit kind idx triUnit)
  | 0x2003 => some (oneUnit kind idx frustumUnit)
  | 0x3001 => some blendUnit
  | _ => none

/-- Run the faulted request again; a RESOLVE goes on at its completion, as the delivery of a pass's bins does, and a pass's
pool is accessed again. -/
def rerun (s : State) (kind idx : Nat) (f : IFault) : State :=
  let x := getIsle s kind idx
  let s1 := modIsle s kind idx fun x => { x with fault := none }
  match f.stopped, x.binds.find? fun b => b.id == f.bind with
  | .request p req recs, some b => match (classOf x b).bind fun c => serveOf kind idx c.1 with
    | some g => serveRequest s1 kind idx b p req recs g
    | none => s1
  | .pool d store, _ => match poolState s1 (x.owner.getD 0) d store with
    | .ok s2 => s2
    | .error e => modIsle s1 kind idx fun x => { x with
        fault := some { f with code := e.1, cause := e.2.1, va := BitVec.ofNat 64 e.2.2, raised := false } }
  | _, _ => s1

/-- Discard the faulted request: one unit of zeros, nothing for blend, 0 for a RESOLVE; bins that cannot be read are lost
(DESIGN CHOICE, log 29). -/
def discard (s : State) (kind idx : Nat) (f : IFault) : State :=
  let x := getIsle s kind idx
  let s1 := modIsle s kind idx fun x => { x with fault := none }
  match f.stopped with
  | .request p req _ => match x.binds.find? fun b => b.id == f.bind with
    | some b => respond s1 kind idx b p req (zeroUnit s x b)
    | none => s1
  | .pool .. => s1
  | .bins => modPass s1 idx fun p => { p with bins := [] }
  | .resolve p id => match (getCom s1 p).bind fun c => c.ops.find? fun o => o.id == id with
    | some o => completeOp s1 p o 0
    | none => s1

def execIctlResume (c : Ctl) (d a : Code) (kind : BitVec 3) (s : State) : Host.Outcome State Fault Refusal :=
  perform (.ictlResume c d a kind) c (ictlRules d a 1 true false) s fun e =>
    if e.act.isEmpty then .ok (done e e.s)
    else
      let idx := viewIdx e.s kind.toNat (isleIdx e kind.toNat)
      match (getIsle e.s kind.toNat idx).fault with
      | none => .ok (ictlDone e e.s d 1)
      | some f => .ok (ictlDone e (rerun e.s kind.toNat idx f) d 0)

def execIctlDiscard (c : Ctl) (d a : Code) (kind : BitVec 3) (s : State) : Host.Outcome State Fault Refusal :=
  perform (.ictlDiscard c d a kind) c (ictlRules d a 2 true false) s fun e =>
    if e.act.isEmpty then .ok (done e e.s)
    else
      let idx := viewIdx e.s kind.toNat (isleIdx e kind.toNat)
      match (getIsle e.s kind.toNat idx).fault with
      | none => .ok (ictlDone e e.s d 1)
      | some f => .ok (ictlDone e (discard e.s kind.toNat idx f) d 0)

end Sys2Proof.Machine
end

