-- ==== Sys2Proof/Machine/Complete.lean ====
section
/-! DEFINITION. INSTRUCTION_COMPLETE: the completion of an outstanding operation (R91, R149, R153, R156, R230, R253,
R275, R293, R348, R411, R433, R445, R447). -/

namespace Sys2Proof.Machine

/-- The acquire scope of an access: the phase boundary that its completion makes (R150, R153). RED is no acquire (R456). -/
def acquireOf (t : Team) : Instr → Bool
  | .ld _ _ _ m _ | .atom _ _ _ _ _ m _ | .monw _ _ _ _ _ m _ => moAcq m && scopeLeaves t m.scope
  | _ => false

/-- The register value of a lane: a load's extended (R422), any other as it stands. -/
def laneValue (k : Kind) (i : Instr) (v : Nat) : Nat :=
  match i with
  | .ld _ _ _ m sx => extendTo (if k = .group then 32 else 64) m.size.toNat sx v
  | _ => v

/-- The registers that an access writes. -/
def accessRegs (k : Kind) (o : Op) : List (Nat × Nat) :=
  let w := if k = .group then 32 else 64
  o.dst.filterMap fun d => (o.lanes.find? fun l => l.lane == d.2.1).map fun l =>
    (d.1, laneValue k o.instr (l.done.getD 0) / 2 ^ (w * d.2.2) % 2 ^ w)

/-- R293: poison has come back: the trap waits for a point at which it is raised, which a party that has stopped for a save
has reached (R92, R302). -/
def poisonAccess (s : State) (p : Party) (c : Common) (o : Op) : State :=
  let s1 := modCom s p fun c => { c with ops := mapIf c.ops (fun x => x.id == o.id) fun x => { x with poisoned := true } }
  if c.st = .stopped then raiseDeferred s1 p o (deferLane o).1 (deferLane o).2 else s1

/-- An access whose lanes have all been performed (R149, R293). -/
def finishAccess (s : State) (p : Party) (c : Common) (o : Op) : State :=
  if o.lanes.any fun l => l.done.isNone then s
  else if o.poisoned then s
  else if (o.lanes.any fun l => l.bad) && c.st != .exited then poisonAccess s p c o
  else
    let acq := match getTeam s (teamOf s p) with
      | some t => acquireOf t o.instr && !o.active.isEmpty
      | none => false
    let s1 := if acq then phaseBoundary s (coreOf s p) else s
    modCom (putRegs s1 p (accessRegs (kindOf p) o)) p fun c => endOp c o

/-- R156: an access that a FENCE waits for: earlier, and of one of its lanes. -/
def fenceWaits (c : Common) (o : Op) : Bool :=
  c.ops.any fun x => decide (x.id < o.id) && x.kind == .access && !x.poisoned &&
    ((acquires x && x.active.any o.active.contains) || x.lanes.any fun l => l.done.isNone && o.active.contains l.lane)

/-- R153, R156, R157, R411: a FENCE does what its order requires. -/
def finishFence (s : State) (p : Party) (c : Common) (o : Op) : State :=
  match o.instr, getTeam s (teamOf s p) with
  | .fence _ scope order, some t =>
    if fenceWaits c o then s
    else
      let core := coreOf s p
      let leaves := scopeLeaves t scope
      let s1 := if leaves && order != 1 then drainCore s core else s
      let s2 := if leaves && order != 2 then phaseBoundary s1 core else s1
      let s3 := if order = 4 then { s2 with scFences := s2.scFences + 1 } else s2
      modCom s3 p fun c => endOp c o
  | _, _ => modCom s p fun c => endOp c o

/-- R164, R395: the instruction caches that a scope covers drop fetch lines of a context. -/
def dropFetched (s : State) (core ctx scope : Nat) (ls : List Nat) : State :=
  { s with icache := s.icache.filter fun x => !(x.ctx == ctx && scopeCovers scope core x.core && ls.contains (x.va / 64)) }

/-- The island, by kind and index, that a QBIND or a raster ICTL of a party names. -/
def isleOfOp (s : State) (p : Party) (i : Instr) : Nat × Nat :=
  let home := ((getTeam s (teamOf s p)).map (·.core)).getD 0
  match i with
  | .qbind _ _ _ _ kind _ _ _ => match kind.toNat with
    | 0 => (0, quadOf home)
    | 3 => (3, 0)
    | k => (k, coreOf s p)
  | _ => (0, quadOf home)

/-- R230, R447: of the requests of a binding in flight, an island holds none; `inp`: it is an input binding. -/
def bindIdle (inp : Bool) (x : Island) (b : Binding) : Bool :=
  let mine := fun (r : Response) => if inp then r.inB == b.id else r.team == b.team && r.cls == b.cls
  !(x.resps.any mine) && !((x.pass.map fun p => (p.bins.map (·.2)).any mine).getD false) &&
    !(match x.fault with | some f => if inp then f.bind == b.id else f.team == b.team && f.cls == b.cls | none => false)

/-- A binding goes, with the open path it holds. -/
def dropBinding (s : State) (kind idx : Nat) (b : Binding) : State :=
  modPorts s kind idx fun x =>
    { x with binds := x.binds.filter (fun y => y.id != b.id), paths := x.paths.filter fun a => a.bind != b.id }

/-- R60, R250: QBIND `.unbind` removes a binding, and its end of the queue closes. -/
def removeBinding (s : State) (kind idx : Nat) (b : Binding) : State :=
  let inp := isInput (getIsle s kind idx) b
  let s1 := dropBinding s kind idx b
  modQueue s1 b.inst b.q fun y => if inp then { y with cclosed := true } else { y with pclosed := true }

/-- R447: a bind completes when the island is not loading, an unbind when its binding is idle. -/
def finishQbind (s : State) (p : Party) (o : Op) : State :=
  let (kind, idx) := isleOfOp s p o.instr
  let x := isleView s kind idx
  match o.instr with
  | .qbind _ _ _ q _ slot port true =>
    match x.binds.find? fun b => b.closing && b.team == teamOf s p && b.q == q.toNat && b.cls == slot.toNat && b.port == port.toNat with
    | none => completeOp s p o 0
    | some b => if (x :: bindIsles s kind idx).all fun y => bindIdle (isInput x b) y b then completeOp (removeBinding s kind idx b) p o 0 else s
  | _ => if isleLoads s kind idx then s else completeOp s p o 0

/-- The raster island on which a pass is open. -/
def passIsle (s : State) (num : Nat) : Option (Nat × Pass) :=
  (upto 0 4).findSome? fun q => ((getIsle s 0 q).pass.filter fun p => p.num == num).map fun p => (q, p)

/-- R253, R256: records that a pass has taken in and not yet taken: of a binding on its island, or of a saved team. -/
def passDue (s : State) (x : Island) (ps : Pass) : Bool :=
  (ps.ending.getD []).any fun t => (x.binds ++ s.saves.flatMap fun v => v.binds.map (·.2.2)).any fun b => b.id == t.1 && !b.closing

/-- R253: a pass that ends: its records are taken, then its bins released, then everything delivered. While the pass is
suspended (R256) its PASSEND waits for it to be reopened. -/
def finishPassend (s : State) (p : Party) (o : Op) (num : Nat) : State :=
  match passIsle s num with
  | none =>
    if s.saves.any fun v => (v.pass.map (·.num)) == some num then s
    else completeOp s p o (getIsle s 0 (isleOfOp s p o.instr).2).pstat.toNat
  | some (q, ps) =>
    let x := getIsle s 0 q
    let faulted := match x.fault with
      | some f => decide (f.cls < 16)
      | none => false
    if passDue s x ps || faulted then s
    else if !ps.bins.isEmpty then match emptyBins s q false with
      | .ok s1 => s1
      | .error e => modIsle s 0 q fun x => { x with
          fault := some ⟨e.1, e.2.1, 0, BitVec.ofNat 64 e.2.2, 0, 0, teamOf s p, coreOf s p, false, .bins⟩ }
    else if !x.resps.isEmpty then s
    else
      let w := passWord ps false
      let s1 := modIsle s 0 q fun x => { x with pass := none, pstat := BitVec.ofNat 64 w }
      completeOp (phaseBoundary s1 (coreOf s p)) p o w

/-- R275: RESOLVE goes through the tiles from `next`; a failing access stops it with the tiles so far kept (R233). -/
def resolveGo (fuel : Nat) (s : State) (ctx : Nat) (d : BitVec 512) (next count : Nat) :
    State × Nat × Nat × Option (Byte × Nat × Nat) :=
  match fuel with
  | 0 => (s, next, count, none)
  | n + 1 => match materialise s ctx d (next % pdTilesX d) (next / pdTilesX d) with
    | .error e => (s, next, count, some e)
    | .ok (s1, hit) => resolveGo n s1 ctx d (next + 1) (count + hit.toNat)

def finishResolve (s : State) (p : Party) (o : Op) (d : BitVec 512) (next count : Nat) : State :=
  let q := (isleOfOp s p o.instr).2
  let x := getIsle s 0 q
  if x.fault.isSome then s
  else
    let n := if pdFlags d = 0 then 0 else pdTilesX d * pdTilesY d - next
    match resolveGo n s (ctxOf s p) d next count with
    | (s1, _, c, none) => completeOp (phaseBoundary s1 (coreOf s p)) p o c
    | (s1, k, c, some e) =>
      let s2 := modCom s1 p fun cm => { cm with ops := mapIf cm.ops (fun y => y.id == o.id) fun y =>
        { y with kind := .resolve d k c } }
      modIsle s2 0 q fun x => { x with
        fault := some ⟨e.1, e.2.1, 0, BitVec.ofNat 64 e.2.2, 0, 16, teamOf s p, coreOf s p, false, .resolve p o.id⟩ }

/-- INSTRUCTION_COMPLETE. -/
def execInstructionComplete (p : Party) (op : Nat) (s : State) : Host.Outcome State Fault Refusal :=
  match getCom s p, findOp s p op with
  | some c, some o => match o.kind with
    | .fixed => .next (modCom s p fun c => endOp c o)
    | .value => .next (completeOp s p o o.value)
    | .access => .next (finishAccess s p c o)
    | .iinv x scope ls => .next (completeOp (dropFetched s (coreOf s p) x scope ls) p o 0)
    | .fence => .next (finishFence s p c o)
    | .pstop core n => .next (if (getPorter s core n).st = .idle then completeOp s p o o.value else s)
    | .qbind => .next (finishQbind s p o)
    | .passend num => .next (finishPassend s p o num)
    | .resolve d k n => .next (finishResolve s p o d k n)
    | .engine | .iload .. => .next s
  | _, _ => .next s

end Sys2Proof.Machine
end

