-- ==== Sys2Proof/Machine/Launch.lean ====
section
/-! DEFINITION. Launch queues, the launch packet and its checks, token waits, and the end of a launch (R28, R32, R48 to
R53, R83 to R86, R169, R276 to R281, R285). -/

namespace Sys2Proof.Machine

/-! ### Fields of a packet and of its header (R50, R52, R278, R280) -/

/-- A field of a packet by its lowest bit over the 128 bytes. -/
def pkt (l : Launch) (lo n : Nat) : Nat := bits l.packet.toNat lo n
def pkImage (l : Launch) : Nat := pkt l 0 49
def pkHdr (l : Launch) : Nat := pkImage l + pkt l 64 32
def pkPort (l : Launch) : Nat := pkImage l + pkt l 96 32
def pkPortLen (l : Launch) : Nat := pkt l 128 32
def pkWidthCode (l : Launch) : Nat := pkt l 163 2
def pkWidth (l : Launch) : Nat := 16 * 2 ^ pkWidthCode l
def pkClass (l : Launch) : Nat := pkt l 167 2
def pkDepmap (l : Launch) : Nat := pkt l 169 2
def pkIrq (l : Launch) : Bool := pkt l 171 1 == 1
def pkDcores (l : Launch) : Nat := pkt l 176 8
def pkTeamX (l : Launch) : Nat := pkt l 192 16
def pkTeamY (l : Launch) : Nat := pkt l 208 16
def pkTeamZ (l : Launch) : Nat := pkt l 224 16
def pkGroups (l : Launch) : Nat := pkt l 256 6
def pkAm8 (l : Launch) : Nat := pkt l 264 8
/-- R79: the rucksack's bytes. -/
def pkRuck (l : Launch) : Nat := 128 * pkt l 272 16
def pkPool (l : Launch) : Nat := pkt l 288 32
def pkProducer (l : Launch) : Nat := pkt l 320 8
def pkArgblk (l : Launch) : Nat := pkt l 384 49
def pkEvtarr (l : Launch) : Nat := pkt l 448 49
def pkSig (l : Launch) : Nat := pkt l 896 49

/-- R280: wait j as (scope, address, target). -/
def pkWait (l : Launch) (j : Nat) : Nat × Nat × Nat :=
  (pkt l (512 + 96 * j + 49) 3, pkt l (512 + 96 * j) 49, pkt l (512 + 96 * j + 64) 32)

/-- R280: the waits in use. -/
def pkWaits (l : Launch) : List (Nat × Nat × Nat) := ((upto 0 4).map (pkWait l)).filter fun w => w.1 != 0

/-- R278, R280: the reserved fields, as (lowest bit, width). -/
def pkReserved : List (Nat × Nat) :=
  [(49, 15), (172, 4), (184, 8), (240, 16), (262, 2), (328, 56), (433, 15), (497, 15), (564, 12), (660, 12), (756, 12),
    (852, 12), (945, 15), (313, 7)]

/-- Bytes of a header (R50, R278), without its width word. -/
def headerSize (l : Launch) : Nat := if launchPipe l then 200 else 72

def hdr (l : Launch) (off n : Nat) : Nat := ofBytes ((l.header.drop off).take n)

/-- R278: the width word. -/
def widthWord (l : Launch) : Nat := hdr l (headerSize l) 4

/-- R29: the kernel declares its width. -/
def widthDeclared (l : Launch) : Bool := widthWord l % 4 != 3

/-- R50: the stage count; 1 for a kernel. -/
def stageCount (l : Launch) : Nat := if launchPipe l then hdr l 0 8 % 8 + 1 else 1

/-- R52: the declaration of queue q. -/
def queueDecl (l : Launch) (q : Nat) : Word := BitVec.ofNat 32 (hdr l (8 + 4 * q) 4)
def queueDecls (l : Launch) : List Word := (upto 0 16).map (queueDecl l)

/-- R50: fields of stage entry j. A kernel has one stage, with `GROUPS` groups. -/
def stField (l : Launch) (j off lo n : Nat) : Nat := bits (hdr l (72 + 16 * j + off) 4) lo n
def stLead (l : Launch) (j : Nat) : Nat := pkImage l + (if launchPipe l then stField l j 0 0 32 else hdr l 0 4)
def stGroup (l : Launch) (j : Nat) : Nat := pkImage l + (if launchPipe l then stField l j 4 0 32 else hdr l 4 4)
def stInit (l : Launch) (j : Nat) : Nat := if launchPipe l then stField l j 8 0 6 else pkGroups l
def stMin (l : Launch) (j : Nat) : Nat := if launchPipe l then stField l j 8 8 6 else pkGroups l
def stMax (l : Launch) (j : Nat) : Nat := if launchPipe l then stField l j 8 16 6 else pkGroups l
def stInq (l : Launch) (j : Nat) : Option Nat :=
  if launchPipe l && stField l j 8 28 1 == 1 then some (stField l j 8 24 4) else none

/-- R279: linear team count; each stage of a pipeline instance is one team. -/
def launchTotal (l : Launch) : Nat := if launchPipe l then stageCount l else pkTeamX l * pkTeamY l * pkTeamZ l

/-! ### Pool shape (R53, R83 to R87, R196) -/

def poolRf (l : Launch) : Nat := bits (pkPool l) 0 7
def poolSp (l : Launch) : Nat := bits (pkPool l) 7 7
def poolAcc (l : Launch) : Nat := bits (pkPool l) 14 7
/-- R83: T. -/
def poolT (l : Launch) : Nat := if launchPipe l then stageCount l else bits (pkPool l) 21 4 + 1

/-- R53: bytes of all declared queues. -/
def queueStorage (l : Launch) : Nat :=
  (queueDecls l).foldl (fun a d => if qValid d then a + roundUp (4 * qWords d * qDepth d) 128 else a) 0

/-- R85: group slots of each partition. -/
def groupSlots (l : Launch) : Nat := min 8 (poolRf l * 4096 / max 1 (8 * pkAm8 l * pkWidth l * 4))

/-- R86: the size of a team slice, and the window that its queues and rucksacks leave, if any. -/
def sliceSize (l : Launch) : Nat :=
  (poolSp l * 32768 - (if launchPipe l then queueStorage l else 0)) / poolT l / 128 * 128

def windowSize (l : Launch) (stage : Nat) : Nat :=
  sliceSize l - (if launchPipe l then 0 else queueStorage l) - stMax l stage * pkRuck l

/-- R87, R196: tiles and descriptors of a team. -/
def tileCount (l : Launch) : Nat := min 16 (2 * poolAcc l / poolT l)
def descCount (l : Launch) : Nat := min 64 (256 / poolT l)

/-! ### Rejection (R281) -/

def stages (l : Launch) : List Nat := upto 0 (stageCount l)

/-- REASON 0x02 (R28). -/
def badWidth (l : Launch) : Bool :=
  pkWidthCode l == 3 || (!l.header.isEmpty && widthDeclared l && widthWord l % 4 != pkWidthCode l)

/-- REASON 0x03 (R32). -/
def badShape (l : Launch) : Bool :=
  let teams := [pkTeamX l, pkTeamY l, pkTeamZ l]
  let size := fun n => n == 0 || decide (32 < n) || decide (1024 < n * pkWidth l)
  pkAm8 l == 0 || decide (64 < pkAm8 l) ||
    (if launchPipe l then teams != [1, 1, 1] || (!l.header.isEmpty && (stages l).any fun j => size (stMax l j))
     else teams.contains 0 || size (pkGroups l))

/-- R50, R51: a stage entry of a pipeline. -/
def badStage (l : Launch) (j : Nat) : Bool :=
  let w := hdr l (72 + 16 * j + 8) 4
  hdr l (72 + 16 * j + 12) 4 != 0 || bits w 29 3 != 0 || bits w 22 2 != 0 || bits w 14 2 != 0 || bits w 6 2 != 0 ||
    stMin l j == 0 || decide (stInit l j < stMin l j) || decide (stMax l j < stInit l j) ||
    (match stInq l j with
      | some q =>
        let d := queueDecl l q
        !(qValid d && (qCKind d == 1 || qCKind d == 3) && qCStage d == j)
      | none => false)

/-- REASON 0x04 (R50, R51, R278). -/
def badHeader (l : Launch) : Bool :=
  widthWord l / 4 != 0 || decide (poolSp l * 32768 < queueStorage l) ||
    (launchPipe l && (pkHdr l % 8 != 0 || hdr l 0 8 / 8 != 0 || (stages l).any (badStage l) ||
      decide ((if launchPair l then 128 else 64) < ((stages l).map (stInit l)).sum)))

/-- REASON 0x05: a declaration that breaks R52. -/
def badDecl (l : Launch) (d : Word) : Bool :=
  if !qValid d then d != 0
  else tb d.toNat 23 || qDepth d == 1 || !([1, 2, 3, 4, 6].contains (qPKind d)) || !([1, 2, 3, 4, 5, 6].contains (qCKind d)) ||
    decide (stageCount l ≤ qPStage d) || decide (stageCount l ≤ qCStage d) ||
    ([4, 6].contains (qPKind d) && [4, 6].contains (qCKind d))

/-- REASON 0x06 (R84, R86). -/
def badPool (l : Launch) : Bool :=
  poolRf l == 0 || decide (80 < poolRf l + poolSp l + poolAcc l) || groupSlots l == 0 ||
    (!l.header.isEmpty && (stages l).any fun j => decide (windowSize l j < 128))

/-- REASON 0x08 (R279). -/
def badMap (s : State) (l : Launch) : Bool :=
  pkDepmap l != 0 && (match l.producer.bind (getLaunch s) with
    | none => true
    | some p => pkDepmap l == 1 && (pkTeamX l, pkTeamY l, pkTeamZ l) != (pkTeamX p, pkTeamY p, pkTeamZ p))

/-- Some page of a range fails a check of R133, or its start is not aligned. -/
def rangeBad (s : State) (c va n align : Nat) (k : Acc133) : Bool :=
  va % align != 0 || (pageStarts (n / 4096 + 2) va n).any fun a => match checkNow s c Config.cores a 1 k with
    | .ok _ => false
    | .error _ => true

/-- REASON 0x09, as far as the packet's own bytes were read. -/
def badAddress (s : State) (l : Launch) : Bool :=
  l.header.isEmpty || rangeBad s l.ctx (l.va + 120) 8 8 .storeNoKey ||
    (pkWaits l).any (fun w => rangeBad s l.ctx w.2.1 8 8 .loadNoKey) ||
    (pkSig l != 0 && rangeBad s l.ctx (pkSig l) 8 8 .red) ||
    (pkEvtarr l != 0 && rangeBad s l.ctx (pkEvtarr l) (8 * max 1 (launchTotal l)) 8 .storeNoKey) ||
    (pkPortLen l != 0 && rangeBad s l.ctx (pkPort l) (pkPortLen l) 1 .load)

/-- R282: the `CORES` limit of the launch's budget set. -/
def budgetCores (s : State) (l : Launch) : Nat := min 80 (bits (pageReg s l.ctx (0x100 + 8 * pkClass l)).toNat 0 8)

/-- REASON 0x0A. -/
def badDeadline (s : State) (l : Launch) : Bool :=
  if launchPrio l = 0 then pkDcores l == 0 || decide (budgetCores s l < pkDcores l) else pkDcores l != 0

/-- REASON 0x0B (R172). -/
def badProducer (l : Launch) : Bool :=
  pkProducer l != 0xFF && (stages l).all fun j => decide (stMax l j ≤ pkProducer l)

/-- R35: groups of a team on the home core. -/
def homeHalf (l : Launch) (n : Nat) : Nat := if launchPair l then ceilDiv n 2 else n

/-- R48: teams that one empty core, or pair, takes: team slots, and the group slots of eight partitions on each core, for a
pipeline those of its whole instance. -/
def coreCapacity (l : Launch) : Nat :=
  let n := 8 * groupSlots l
  if launchPipe l then
    let home := ((stages l).map fun j => homeHalf l (stInit l j)).sum
    let partner := ((stages l).map fun j => stInit l j - homeHalf l (stInit l j)).sum
    if home ≤ n ∧ partner ≤ n then stageCount l else 0
  else min (min 16 (poolT l)) (n / max 1 (homeHalf l (pkGroups l)))

/-- R48: a co-resident launch that its budget could never hold. -/
def notCofit (s : State) (l : Launch) : Bool :=
  launchCores l && decide ((budgetCores s l / if launchPair l then 2 else 1) * coreCapacity l < launchTotal l)

/-- R281: CODE and REASON of a packet as it becomes the head; CODE 0 when it is accepted. `read` says that the packet
itself could be read. -/
def verdict (s : State) (l : Launch) (read : Bool) : Nat × Nat :=
  let h := !l.header.isEmpty
  let wild := pkReserved.any (fun r => pkt l r.1 r.2 != 0) || pkDepmap l == 3 ||
    (pkWaits l).any fun w => w.1 == 1 || w.1 == 2 || w.1 == 7
  let all : List (Nat × Bool) :=
    [(0x01, read && wild), (0x02, read && badWidth l), (0x03, read && badShape l), (0x04, h && badHeader l),
     (0x05, h && (queueDecls l).any (badDecl l)), (0x06, read && badPool l), (0x07, decide (32768 < pkPortLen l)),
     (0x08, badMap s l), (0x09, !read || badAddress s l), (0x0A, badDeadline s l), (0x0B, h && badProducer l)]
  match all.find? (·.2) with
  | some r => (2, r.1)
  | none => if notCofit s l then (3, 0) else (0, 0)

/-! ### Launch queues (R276, R277) -/

def lqCfg (s : State) (c q : Nat) : Nat := (pageReg s c (0x10 * q)).toNat
def lqWr (s : State) (c q : Nat) : Nat := (pageReg s c (0x10 * q + 8)).toNat
def lqRd (s : State) (c q : Nat) : Nat := (pageReg s c (0x10 * q + 12)).toNat

def cfgEn (v : Nat) : Bool := tb v 4
/-- R276: a value without a reserved bit, and with a `LOGN`. -/
def cfgValid (v : Nat) : Bool := v % 16 != 0 && bits v 5 2 == 0 && v / 2 ^ 49 == 0
/-- R2, R276: the fields of `LQCFG`; a reader sees its reserved bits as zero. -/
def cfgFields (v : DWord) : DWord := v &&& 0x0001FFFFFFFFFF9F#64
def cfgBase (v : Nat) : Nat := bits v 7 42 * 128

/-- Packets published and not taken. -/
def lqDue (s : State) (c q : Nat) : Nat := (lqWr s c q + 2 ^ 32 - lqRd s c q) % 2 ^ 32

/-- R276: more packets than the ring holds. -/
def lqOver (s : State) (c q : Nat) : Bool := decide (2 ^ (lqCfg s c q % 16) < lqDue s c q)

/-- R276: the queue runs under a valid value. -/
def lqGood (s : State) (c q : Nat) : Bool :=
  cfgEn (lqCfg s c q) && cfgValid (lqCfg s c q) && !(getCtx s c).lqErr.contains q

/-- R276: the errors that a queue's registers raise once the value `v` has been written. -/
def lqCheck (s : State) (c q v : Nat) : State :=
  let quiet := modCtx s c fun x => { x with lqErr := x.lqErr.filter (· != q) }
  if !cfgEn v then quiet
  else if !cfgValid v then
    if (getCtx s c).lqErr.contains q then s
    else raiseCtx (modCtx s c fun x => { x with lqErr := insSorted x.lqErr q }) c 1
  else if lqOver s c q then raiseCtx quiet c 1
  else quiet

/-- A register write is taken: the device is READY (R326). -/
def pageOpen (s : State) (c : Nat) : Bool := s.ready && decide (c < 96)

/-- R276: `LQCFG` takes a value. -/
def lqPut (s : State) (c q : Nat) (v : DWord) : State :=
  lqCheck (modCtx (setPage s c (0x10 * q) (cfgFields v)) c fun x => { x with lqNext := Tab.del x.lqNext q }) c q v.toNat

/-- R276: a waiting LQCFG takes effect once the queue is empty. -/
def lqSettle (s : State) (c q : Nat) : State :=
  match Tab.find (getCtx s c).lqNext q with
  | some v => if lqDue s c q = 0 then lqPut s c q v else s
  | none => s

/-- LQWR_WRITE (R276). -/
def execLqwrWrite (c q : Nat) (v : Word) (s : State) : Host.Outcome State Fault Refusal :=
  if pageOpen s c && decide (q < 8) then
    let s1 := setPage s c (0x10 * q + 8) (v.setWidth 64)
    .next (lqSettle (if lqGood s c q && lqOver s1 c q then raiseCtx s1 c 1 else s1) c q)
  else .next s

/-- LQCFG_WRITE (R276): while the queue runs, the new value waits until it is empty. -/
def execLqcfgWrite (c q : Nat) (v : DWord) (s : State) : Host.Outcome State Fault Refusal :=
  if pageOpen s c && decide (q < 8) then
    if lqGood s c q && lqDue s c q != 0 then .next (modCtx s c fun x => { x with lqNext := Tab.set x.lqNext q v })
    else .next (lqPut s c q v)
  else .next s

/-- R277, R276: the head of a queue has no team left to place: `LQRD` advances past it, and may pass a lowered `LQWR`. -/
def headDone (s : State) (l : Nat) : State :=
  match getLaunch s l with
  | none => s
  | some x =>
    if Tab.find (getCtx s x.ctx).heads x.queue = some l then
      let s1 := setPage s x.ctx (0x10 * x.queue + 12) (BitVec.ofNat 64 ((lqRd s x.ctx x.queue + 1) % 2 ^ 32))
      let s2 := if lqGood s x.ctx x.queue && lqOver s1 x.ctx x.queue && !lqOver s x.ctx x.queue then raiseCtx s1 x.ctx 1 else s1
      lqSettle (modCtx s2 x.ctx fun y => { y with heads := Tab.del y.heads x.queue }) x.ctx x.queue
    else s

/-- R276, R277: a packet may become the head. -/
def packetDue (s : State) (c q : Nat) : Bool :=
  (getCtx s c).st == 1 && lqGood s c q && lqDue s c q != 0 && !lqOver s c q &&
    (Tab.find (getCtx s c).heads q).isNone

/-- Bytes read for the launch unit; none when a check fails, a page is keyed or a sector holds poison. -/
def unitBytesAt (s : State) (c va n : Nat) : Option (List Byte) :=
  match readVirt s c va n .loadNoKey with
  | .ok (l, false) => some l
  | _ => none

/-- The launch that a packet makes. R50 has the launch unit read the header once, 'at placement', and R281 checks it as the
packet becomes the head: the model reads it there, once, before any token wait (DESIGN CHOICE, log 33). -/
def newLaunch (s : State) (c q : Nat) : Launch × Bool :=
  let rd := lqRd s c q
  let va := cfgBase (lqCfg s c q) + 128 * (rd % 2 ^ (lqCfg s c q % 16))
  let raw := unitBytesAt s c va 128
  let l0 : Launch :=
    { ctx := c, queue := q, index := rd, packet := BitVec.ofNat 1024 (ofBytes (raw.getD [])), header := [], va := va,
      placed := 0, retired := 0, killed := 0, published := [], released := false, producer := none, code := 0,
      reason := 0, ended := false, tokenErr := false, cores := [] }
  let l1 := { l0 with
    header := if raw.isSome then (unitBytesAt s c (pkHdr l0) (headerSize l0 + 4)).getD [] else []
    producer := if pkDepmap l0 ≠ 0 then Tab.find (getCtx s c).last q else none
    released := (pkWaits l0).isEmpty }
  (l1, raw.isSome)

/-! ### The display deadline (R284, R285) -/

/-- R36: a core's tenancy as (context, launch record). -/
def tenancyOf (s : State) (core : Nat) : Option (Nat × Launch) :=
  match (getCore s core).tenant with
  | some (c, l) => (getLaunch s l).map fun x => (c, x)
  | none => none

/-- R285: the class of a core for a reservation of context `c`; `none`: not taken. -/
def reserveClass (s : State) (c core : Nat) : Option Nat :=
  if (s.ctxs.any fun x => x.1 != c && x.2.reserved.contains core) then none
  else match tenancyOf s core with
    | none => some 1
    | some (o, x) => if launchPrio x = 0 then (if o = c then some 0 else none) else some (5 - launchPrio x)

/-- R285: the unit of cores from a home core: its cores and its class. -/
def reserveUnit (s : State) (c : Nat) (pair : Bool) (core : Nat) : Option (Nat × List Nat) :=
  if pair then
    match reserveClass s c core, reserveClass s c (core + 1) with
    | some a, some b => some (max a b, [core, core + 1])
    | _, _ => none
  else (reserveClass s c core).map fun a => (a, [core])

/-- R285: the cores chosen, N of them, whole pairs for a pair launch. -/
def reserveCores (s : State) (c n : Nat) (pair : Bool) : List Nat :=
  let units := ((upto 0 (Config.cores / if pair then 2 else 1)).map fun i => if pair then 2 * i else i).filterMap
    (reserveUnit s c pair)
  let ordered := (upto 0 6).flatMap fun k => units.filter fun u => u.1 == k
  ((ordered.take (if pair then ceilDiv n 2 else n)).map (·.2)).flatten

/-- R285, R286: the reservation is made and the tenancies of `PRIO` 1 and above on its cores are pre-empted. -/
def reserveNow (s : State) (c n : Nat) (pair : Bool) : State :=
  let cs := reserveCores s c n pair
  cs.foldl (fun s core => match tenancyOf s core with
    | some (_, x) => if launchPrio x = 0 then s else preemptCore s core
    | none => s) (modCtx s c fun x => { x with reserved := cs })

/-- R285: the oldest display-critical head of a context. -/
def displayHead (s : State) (c : Nat) : Option (Nat × Launch) :=
  let l := ((getCtx s c).heads.map (·.2)).filterMap fun l => (getLaunch s l).map fun x => (l, x)
  (l.filter fun x => launchPrio x.2 == 0 && x.2.code == 0).foldl (fun best x => match best with
    | some y => if x.1 < y.1 then some x else best
    | none => some x) none

/-- R284: `APPR` reads 1. -/
def approaching (s : State) (c : Nat) : Bool := tb (pageReg s c 0x200).toNat 8

/-- R285: make the reservation that an approach asks for, as soon as it is known how many cores it takes. -/
def reserveStep (s : State) (c : Nat) : State :=
  let x := getCtx s c
  if !approaching s c then s
  else match x.reserve, displayHead s c with
    | some _, _ => s
    | none, some (id, l) =>
      let s1 := modCtx s c fun x => { x with reserve := some id }
      if x.reserved.isEmpty then reserveNow s1 c (pkDcores l) (launchPair l) else s1
    | none, none =>
      let n := bits (pageReg s c 0x200).toNat 0 7
      if x.reserved.isEmpty && n != 0 then reserveNow s c n false else s

/-- DEADLINE_APPROACH (R284, R285). -/
def execDeadlineApproach (c : Nat) (v : Word) (s : State) : Host.Outcome State Fault Refusal :=
  if pageOpen s c then
    let old := (pageReg s c 0x200).toNat
    let s1 := setPage s c 0x200 (BitVec.ofNat 64 (bits v.toNat 0 7 + (if tb old 8 || tb v.toNat 8 then 0x100 else 0)))
    .next (reserveStep s1 c)
  else .next s

/-- R285: the reservation that a launch holds ends with it. -/
def reserveEnd (s : State) (l : Nat) : State :=
  s.ctxs.foldl (fun s x =>
    if x.2.reserve = some l then
      setPage (modCtx s x.1 fun y => { y with reserve := none, reserved := [] }) x.1 0x200
        (pageReg s x.1 0x200 &&& 0xFF#64)
    else s) s

/-! ### Heads, tokens and ends -/

/-- The ranges whose addresses the checks of a packet look up (R281). -/
def headRanges (l : Launch) : List (Nat × Nat) :=
  (l.va + 120, 8) :: (pkWaits l).map (fun w => (w.2.1, 8)) ++ (if pkSig l = 0 then [] else [(pkSig l, 8)]) ++
    (if pkEvtarr l = 0 then [] else [(pkEvtarr l, 8 * max 1 (launchTotal l))]) ++ [(pkPort l, pkPortLen l)]

/-- R131, R282: what reading and checking a packet leaves in the shared TLB and on the controllers' counters. -/
def headTaken (s : State) (l : Launch) (read : Bool) : State :=
  let s1 := takenVirt s l.ctx Config.cores l.va 128 .loadNoKey
  if read then
    (headRanges l).foldl (fun s r => touchRange s l.ctx r.1 r.2)
      (takenVirt s1 l.ctx Config.cores (pkHdr l) (headerSize l + 4) .loadNoKey)
  else s1

/-- PACKET_BECOMES_HEAD (R277, R278, R281). -/
def execPacketBecomesHead (c q : Nat) (s : State) : Host.Outcome State Fault Refusal :=
  if !packetDue s c q then .next s
  else
    let (l, read) := newLaunch s c q
    let (code, reason) := verdict s l read
    let id := s.nextLaunch
    let s0 := headTaken s l read
    let s1 := { s0 with launches := Tab.set s.launches id { l with code := code, reason := reason }, nextLaunch := id + 1 }
    let s2 := modCtx s1 c fun x => { x with heads := Tab.set x.heads q id, last := Tab.set x.last q id }
    .next (if code ≠ 0 then headDone s2 id else reserveStep s2 c)

/-- R280: a token as read at its slice; none when the read fails a check. -/
def tokenAt (s : State) (c va : Nat) : Option Nat :=
  match checkNow s c Config.cores va 8 .loadNoKey with
  | .ok p => match readAt s p.pa 0 8 with
    | (l, false) => some (ofBytes l)
    | _ => none
  | .error _ => none

/-- R131, R282: what the reads of a launch's tokens leave. -/
def tokensTaken (s : State) (x : Launch) : State :=
  (pkWaits x).foldl (fun s w => takenVirt s x.ctx Config.cores w.2.1 8 .loadNoKey) s

/-- TOKEN_REREAD (R280). -/
def execTokenReread (l : Nat) (s : State) : Host.Outcome State Fault Refusal :=
  match getLaunch s l with
  | none => .next s
  | some x =>
    if x.code ≠ 0 ∨ x.released then .next s
    else
      let r := (pkWaits x).map fun w => (w, tokenAt s x.ctx w.2.1)
      let s1 := tokensTaken s x
      if r.any fun t => t.2.isNone then
        .next (if x.tokenErr then s1 else raiseCtx (modLaunch s1 l fun y => { y with tokenErr := true }) x.ctx 1)
      else .next (modLaunch s1 l fun y =>
        { y with tokenErr := false, released := r.all fun t => decide (t.1.2.2 ≤ t.2.getD 0) })

/-- R281: a write by the launch unit; one that fails a check is dropped, with an error. -/
def unitWriteAt (s : State) (c va : Nat) (l : List Byte) : State :=
  let s1 := touchRange s c va l.length
  match writeVirt s1 c va l .storeNoKey with
  | .ok s' => s'
  | .error _ => raiseCtx s1 c 1

/-- R280: the token signal, one atomic at the slice. -/
def signalToken (s : State) (x : Launch) : State :=
  if pkSig x = 0 then s
  else
    let s1 := takenVirt s x.ctx Config.cores (pkSig x) 8 .red
    match checkNow s x.ctx Config.cores (pkSig x) 8 .red with
    | .ok p => writeAt s1 x.ctx p (bytesOf 8 (ofBytes (readAt s p.pa 0 8).1 + 1))
    | .error _ => raiseCtx s1 x.ctx 1

/-- R281: `STATUS`. -/
def statusWord (x : Launch) : Nat :=
  min x.killed 0xFFFF * 2 ^ 48 + (if x.code = 2 then x.reason else 0) * 2 ^ 8 + x.code

/-- R281: the end of a launch with its CODE: signal, STATUS, vector. -/
def endLaunch (s : State) (l code : Nat) : State :=
  let s1 := headDone (modLaunch s l fun x => { x with code := code, ended := true }) l
  match getLaunch s1 l with
  | none => s1
  | some x =>
    let s2 := if code = 1 then signalToken s1 x else s1
    let s3 := unitWriteAt s2 x.ctx (x.va + 120) (bytesOf 8 (statusWord x))
    reserveEnd (if pkIrq x then raiseCtx s3 x.ctx 0 else s3) l

/-- R279: the producer launch has ended with a CODE other than 0x01. -/
def producerFailed (s : State) (x : Launch) : Bool :=
  match x.producer.bind (getLaunch s) with
  | some p => p.ended && p.code != 1
  | none => false

/-- R279, R281: the CODE with which a launch may end now; 0 while it may not. -/
def endCode (s : State) (x : Launch) : Nat :=
  if x.ended then 0
  else if x.code ≠ 0 then x.code
  else if x.placed = 0 ∧ producerFailed s x then 4
  else if x.retired = launchTotal x then 1
  else 0

/-- LAUNCH_END (R281). -/
def execLaunchEnd (l : Nat) (s : State) : Host.Outcome State Fault Refusal :=
  match getLaunch s l with
  | none => .next s
  | some x => .next (if endCode s x = 0 then s else endLaunch s l (endCode s x))

end Sys2Proof.Machine
end

