-- ==== Sys2Proof/Machine/Admission.lean ====
section
/-! DEFINITION. Admission, placement and resumption of teams, tenancies, the start of a team, and the porter section
(R33, R35 to R37, R45, R48, R49, R85, R97, R98, R163, R169, R229, R235, R256, R279, R282, R283, R285, R305). -/

namespace Sys2Proof.Machine

/-! ### Places on a core (R33, R37, R85) -/

/-- The cores of a unit placed at `home`. -/
def unitCores (pair : Bool) (home : Nat) : List Nat := if pair then [home, home + 1] else [home]

/-- The cores of a team (R35). -/
def teamCores (t : Team) : List Nat := unitCores t.pair t.core

/-- Group slots in use on a core, as (partition, slot). A team keeps its slots until it retires (R45). -/
def slotsUsed (s : State) (core : Nat) : List (Nat × Nat) :=
  s.teams.flatMap fun t =>
    if isHandler t.1 || !t.2.resident then []
    else (t.2.groups.filter fun g => g.2.core == core && decide (g.2.part < 8)).map fun g => (g.2.part, g.2.slot)

/-- R33: the partition with the most free group slots, the lowest on ties, and its lowest free slot. -/
def bestSlot (slots : Nat) (used : List (Nat × Nat)) : Option (Nat × Nat) :=
  let free := fun (p : Nat) => slots - (used.filter fun u => u.1 == p).length
  let best := (upto 1 7).foldl (fun b p => if free b < free p then p else b) 0
  if free best = 0 then none else some (best, ((upto 0 slots).find? fun k => !used.contains (best, k)).getD 0)

/-- R33: groups placed in order: (group, core, partition, slot), or none when one does not fit. -/
def placeGroups (slots core : Nat) (used : List (Nat × Nat)) (ids : List Nat) : Option (List (Nat × Nat × Nat × Nat)) :=
  match ids with
  | [] => some []
  | g :: r => match bestSlot slots used with
    | none => none
    | some (p, k) => (placeGroups slots core (used ++ [(p, k)]) r).map fun l => (g, core, p, k) :: l

/-- Resident teams on a core. -/
def teamsOn (s : State) (core : Nat) : List (Nat × Team) := s.teams.filter fun t => !isHandler t.1 && teamOn t.2 core

/-- R37, R86: the lowest team slot free on every core of the unit. -/
def freeTeamSlot (s : State) (x : Launch) (cores : List Nat) : Option Nat :=
  (upto 0 (if launchPipe x then 16 else min 16 (poolT x))).find? fun k =>
    cores.all fun c => !((teamsOn s c).any fun t => t.2.slot == k)

/-- R33, R35: the team slot and the places of the groups of the home core and of the partner core. -/
def placesFor (s : State) (x : Launch) (home : Nat) (hs ps : List Nat) : Option (Nat × List (Nat × Nat × Nat × Nat)) :=
  match freeTeamSlot s x (unitCores (launchPair x) home), placeGroups (groupSlots x) home (slotsUsed s home) hs,
      placeGroups (groupSlots x) (home + 1) (slotsUsed s (home + 1)) ps with
  | some k, some a, some b => some (k, a ++ b)
  | _, _, _ => none

/-! ### Tenancies (R36, R98, R169, R229, R314) -/

/-- R314: the page fields that a new tenancy of the context brings into force. -/
def forceOffsets : List Nat := [0x300, 0x310, 0x318, 0x320, 0x328, 0x330, 0x338]

def forcePage (s : State) (c : Nat) : State :=
  forceOffsets.foldl (fun s off => modCtx s c fun x => { x with force := Tab.put x.force off (pageReg s c off) 0 }) s

/-- R98: what a core loses when its tenancy passes to another context, or at its reset: its stores, its engines' state, and
the counts of the queues that it holds (the granules and tables go with the teams that held them). -/
def zeroCore (s : State) (core : Nat) : State :=
  let s1 := modCore s core fun k =>
    { k with pstore := [], pool := [], active := .empty, shadow := .empty, me := [], p0 := .idle, p1 := .idle }
  let here := fun (i : Nat) => s.teams.any fun t => !isHandler t.1 && t.2.inst == i && t.2.resident
  { s1 with
    badStore := s1.badStore.filter fun b => b.1 != core
    insts := s1.insts.map fun i =>
      if i.2.core == core && here i.1 then
        (i.1, { i.2 with queues := i.2.queues.map fun q => (q.1, { q.2 with recs := [], claims := [] }) })
      else i }

/-- R229: the core's sampler and ray islands pass to the context. -/
def takeIslands (s : State) (core c : Nat) : State :=
  [1, 2].foldl (fun s k => if (getIsle s k core).owner = some c then s else changeOwner s k core c) s

/-- R36, R283: a tenancy begins. -/
def beginTenancy (s : State) (l : Nat) (x : Launch) (core : Nat) : State :=
  let k := getCore s core
  if k.tenant.isSome then s
  else
    let other := k.lastCtx.isSome && k.lastCtx != some x.ctx
    let s1 := takeIslands (if other then zeroCore s core else s) core x.ctx
    forcePage (modCore s1 core fun k =>
      { k with tenant := some (x.ctx, l), lastCtx := some x.ctx, zeroing := other, copying := true,
               poolword := BitVec.ofNat 32 (pkPool x) }) x.ctx

/-- R36: a tenancy ends with the last team on the core. -/
def endTenancy (s : State) (core : Nat) : State :=
  if (teamsOn s core).isEmpty then modCore s core fun k => { k with tenant := none, zeroing := false, copying := false } else s

/-- R285: a reservation of another context, or of another launch, keeps the launch off the core. -/
def coreAllowed (s : State) (l : Nat) (x : Launch) (core : Nat) : Bool :=
  s.ctxs.all fun c => !c.2.reserved.contains core ||
    (c.1 == x.ctx && launchPrio x == 0 && (c.2.reserve == none || c.2.reserve == some l))

/-! ### A new team (R33, R34, R45, R49, R97) -/

/-- The team of stage `j` with linear index `i`, in a slot, with its groups placed. -/
def newTeam (x : Launch) (l inst j i home slot : Nat) (ps : List (Nat × Nat × Nat × Nat)) : Team :=
  let pipe := launchPipe x
  let entry := BitVec.ofNat 64 (stGroup x j)
  { launch := l, inst := inst, idx := i, stage := j,
    tx := if pipe then j else i % pkTeamX x, ty := if pipe then 0 else i / pkTeamX x % pkTeamY x,
    tz := if pipe then 0 else i / (pkTeamX x * pkTeamY x),
    nx := if pipe then stageCount x else pkTeamX x, ny := if pipe then 1 else pkTeamY x, nz := if pipe then 1 else pkTeamZ x,
    ctx := x.ctx, width := pkWidth x, declared := widthDeclared x, alloc := 8 * pkAm8 x, ruck := pkRuck x,
    window := windowSize x j, nt := tileCount x, nd := descCount x, pair := launchPair x, core := home, slot := slot,
    producer := if pkProducer x < stMax x j then some (pkProducer x) else none, argblk := BitVec.ofNat 64 (pkArgblk x),
    lead := startLead (BitVec.ofNat 64 (stLead x j)),
    groups := ps.foldl (fun t p => Tab.set t p.1 (startGroup (pkWidth x) p.2.1 p.2.2.1 p.2.2.2 0 0 entry)) [],
    dq := [], wr := 0, syncP := 0, mstat := 0, region := none, tds := [], win0 := [], win1 := [], wpo0 := [], wpo1 := [],
    tiles0 := [], tiles1 := [], tpo0 := [], tpo1 := [], names := [], preempt := false, killed := false, resident := true,
    started := false }

/-- R49, R51: the queues and stages of an instance whose first team has the number `tid`. -/
def newInstance (x : Launch) (home tid : Nat) : Instance :=
  let qs := ((upto 0 16).map fun q => (q, queueDecl x q)).filter fun d => qValid d.2
  { core := home, pair := launchPair x, queues := qs.map fun d => (d.1, ⟨d.2, [], false, false, []⟩),
    stages := (stages x).map fun j =>
      (j, ⟨stInit x j, stMin x j, stMax x j, stInq x j, tid + j, BitVec.ofNat 64 (stGroup x j), false⟩),
    qseen := [], resident := false }

/-- R33, R49: place stage `j` as team number `tid`. -/
def placeStage (l : Nat) (x : Launch) (inst home tid i : Nat) (s : State) (j : Nat) : Option State :=
  let n := stInit x j
  let h := homeHalf x n
  (placesFor s x home (upto 0 h) (upto h (n - h))).map fun p =>
    setTeam s (tid + j) (newTeam x l inst j (if launchPipe x then j else i) home p.1 p.2)

/-- A function that may fail, over a list. -/
def foldO {σ α : Type} (l : List α) (s : σ) (f : σ → α → Option σ) : Option σ :=
  match l with
  | [] => some s
  | a :: r => match f s a with
    | some s' => foldO r s' f
    | none => none

/-- R33, R49: the next team of a kernel launch, or the instance of a pipeline launch, on a core or pair. -/
def placeNew (s : State) (l : Nat) (x : Launch) (home : Nat) : Option State :=
  let i := s.nextInst
  let tid := s.nextTeam
  let s1 := (unitCores (launchPair x) home).foldl (fun s c => beginTenancy s l x c) s
  let s2 := { s1 with insts := Tab.set s1.insts i (newInstance x home tid), nextInst := i + 1,
                      nextTeam := tid + stageCount x }
  (foldO (stages x) s2 (placeStage l x i home tid x.placed)).map fun s =>
    modLaunch s l fun y => { y with placed := y.placed + stageCount x }

/-! ### Resumption (R235, R256, R305) -/

/-- The half of its team that a group was on when it was saved. -/
def halfIds (t : Team) (half : Nat) : List Nat := ((liveGroups t).filter fun g => halfOf t g.2.core == half).map (·.1)

/-- R305: both planes of a core are owned by no resident team. -/
def planesFree (s : State) (core : Nat) : Bool :=
  let k := getCore s core
  let free := fun (p : Plane) => match p.owner with
    | some t => !(((getTeam s t).map (·.resident)).getD false)
    | none => true
  free k.active && free k.shadow && free (planesAfter k).1 && free (planesAfter k).2

/-- The island of a kind that serves a half of a team on `home`; a blend island is that of the slice saved. -/
def isleFor (kind home half : Nat) : Nat := match kind with
  | 0 => quadOf home
  | 3 => half
  | _ => home + half

/-- R230: bindings that one port of a kind holds. -/
def portCap (kind : Nat) : Nat := if kind = 3 then 64 else 16

/-- R235: a saved binding can be made again on the islands of the resuming core, and a saved fault or pass finds none
there. -/
def bindsFit (s : State) (home : Nat) (v : Saved) : Bool :=
  v.binds.all (fun b =>
    let x := getIsle s b.1 (isleFor b.1 home b.2.1)
    x.binds.isEmpty || (x.owner == some v.ctx &&
      decide ((x.binds.filter fun y => y.cls == b.2.2.cls && y.port == b.2.2.port).length < portCap b.1))) &&
  (v.faults.all fun f => (isleView s f.1 (isleFor f.1 home f.2.1)).fault.isNone) &&
  (v.pass.isNone || ((getIsle s 0 (quadOf home)).pass.isNone && (getIsle s 0 (quadOf home)).fault.isNone))

/-- R305: what a core or pair must offer beside team and group slots. -/
def resumeFits (s : State) (home : Nat) (v : Saved) (pair : Bool) : Bool :=
  ((unitCores pair home).zipIdx.all fun c =>
    decide ((v.bars.filter fun b => b.1 == c.2).length + (getCore s c.1).pool.length ≤ 64) &&
    v.porters.all fun p => p.1 != c.2 || (getPorter s c.1 p.2.1).st == .idle) && bindsFit s home v

/-- R306: the saved barriers in free entries: from (half, entry held) to the new place. -/
def restoreBars (home : Nat) (l : List (Nat × Nat × Barrier)) (s : State) : State × List ((Nat × Nat) × (Nat × Nat)) :=
  l.foldl (fun (a : State × List ((Nat × Nat) × (Nat × Nat))) b =>
    let core := home + b.1
    match freeEntry a.1 core with
    | some e => (modCore a.1 core fun k => { k with pool := Tab.set k.pool e b.2.2 }, a.2 ++ [((b.1, b.2.1), (core, e))])
    | none => a) (s, [])

def movedTo (l : List ((Nat × Nat) × (Nat × Nat))) (half entry : Nat) : Option (Nat × Nat) :=
  (l.find? fun x => x.1 == (half, entry)).map (·.2)

/-- Bindings stand in the order of their numbers. -/
def insBinding (b : Binding) (l : List Binding) : List Binding :=
  match l with
  | [] => [b]
  | x :: r => if b.id < x.id then b :: x :: r else x :: insBinding b r

/-- R230, R235: a saved binding is made again, under its number. Its queues lie on the home core (R53). -/
def rebind (home : Nat) (v : Saved) (s : State) (kind half : Nat) (b : Binding) : State :=
  let idx := isleFor kind home half
  let s1 := if (getIsle s kind idx).owner = some v.ctx then s else changeOwner s kind idx v.ctx
  modPorts s1 kind idx fun y => { y with binds := insBinding { b with core := home } y.binds }

def restoreBinds (home : Nat) (v : Saved) (s : State) : State :=
  v.binds.foldl (fun s b => rebind home v s b.1 b.2.1 b.2.2) s

/-- The number of a stopped request. -/
def stoppedReq : Stopped → Nat
  | .request _ n _ => n
  | _ => 0

/-- R256: the suspended pass reopens from the pool on the raster island of the resuming core's quadrant. -/
def reopenPass (home : Nat) (v : Saved) (s : State) : State :=
  match v.pass with
  | none => s
  | some p =>
    let q := quadOf home
    let s1 := modIsle s 0 q fun x => { x with pass := some p }
    match poolState s1 p.ctx p.desc false with
    | .ok s2 => s2
    | .error e => modIsle s1 0 q fun x => { x with
        fault := x.fault.or (some ⟨e.1, e.2.1, 0, BitVec.ofNat 64 e.2.2, 0, 0, v.team, home, false, .pool p.desc false⟩) }

/-- R235, R256: responses, faulted requests, open paths and the suspended pass come back. Later requests take numbers above
those restored. -/
def restoreIsles (home : Nat) (v : Saved) (s : State) : State :=
  let s1 := v.resps.foldl (fun s r => modIsle s r.1 (isleFor r.1 home r.2.1) fun x =>
    { x with reqs := max x.reqs r.2.2.req, resps := x.resps ++ [r.2.2] }) s
  let s2 := v.faults.foldl (fun s f => modIsle s f.1 (isleFor f.1 home f.2.1) fun x =>
    { x with reqs := max x.reqs (stoppedReq f.2.2.stopped),
             fault := some { f.2.2 with core := home, raised := false } }) s1
  let s3 := if v.paths.isEmpty then s2 else modIsle s2 0 (quadOf home) fun x =>
    { x with paths := x.paths ++ v.paths }
  reopenPass home v s3

/-- R302: a stopped party goes on where it stopped; one that trapped or escalated stays so. A load whose deferred trap the save
kept counts on its flag again, since R298's resume performs it again (DEDUCED, log entry 35). -/
def resumeCommon (c : Common) : Common :=
  let x := { c with st := if c.st = .stopped then .running else c.st, stall := none }
  if c.late then (c.ops.filterMap fun o => if o.poisoned then o.flag else none).foldl flagUp x else x

/-- R305: the team on its new core. Exited groups hold no place. -/
def resumedTeam (t : Team) (home slot : Nat) (ps : List (Nat × Nat × Nat × Nat))
    (m : List ((Nat × Nat) × (Nat × Nat))) : Team :=
  { t with
    core := home, slot := slot, resident := true, started := false, preempt := false,
    lead := { t.lead with com := resumeCommon t.lead.com },
    groups := t.groups.map fun g => match ps.find? fun p => p.1 == g.1 with
      | some (_, c, p, k) => (g.1, { g.2 with core := c, part := p, slot := k, com := resumeCommon g.2.com })
      | none => (g.1, { g.2 with core := home + halfOf t g.2.core, part := 8, slot := 0 }),
    names := t.names.map fun n => (n.1, { n.2 with bar := n.2.bar.bind fun b => movedTo m (halfOf t b.1) b.2 }) }

/-- R194, R195: a queue form goes on from its `ROFF`: its next unit is checked again, unless it has been read and only its
records are still to be pushed. -/
def resumeXfer (x : Xfer) : Xfer :=
  if queueSide x.instr && !(xDest x.instr == .queue && decide (min x.len (32 * x.next + 32) ≤ x.got)) then
    { x with okTo := x.next, pages := [] }
  else x

/-- R195: a saved porter on its new core; a FAULTED one raises PORTER_FAULT again. -/
def resumePorter (t : Team) (home tid : Nat) (m : List ((Nat × Nat) × (Nat × Nat))) (s : State) (p : Nat × Nat × Porter) :
    State :=
  let core := home + p.1
  let x := { p.2.2 with
    xfers := p.2.2.xfers.map resumeXfer
    bar := p.2.2.bar.bind fun b => (movedTo m (halfOf t b.core) b.entry).map fun e => ⟨e.1, e.2, b.low⟩ }
  let s1 := setPorter s core p.2.1 x
  match x.st, x.fault with
  | .faulted, some f =>
    queueTrap s1 core ⟨.porter core p.2.1, tid, ⟨tcPorter, BitVec.ofNat 32 (porterDetail p.2.1 f), f.pc, f.va⟩⟩
  | _, _ => s1

/-- R302: a queued trap is raised again, on the core of its party. -/
def requeue (s : State) (e : TrapEntry) : State :=
  match e.src with
  | .party p => queueTrap s (coreOf s p) e
  | _ => s

/-- R305: resume one saved team at `home`. -/
def resumeTeam (x : Launch) (home : Nat) (s : State) (v : Saved) : Option State :=
  match getTeam s v.team with
  | none => none
  | some t =>
    if !resumeFits s home v t.pair then none
    else match placesFor s x home (halfIds t 0) (halfIds t 1) with
      | none => none
      | some (slot, ps) =>
        let (s1, m) := restoreBars home v.bars s
        let s2 := setTeam s1 v.team (resumedTeam t home slot ps m)
        let s3 := v.planes.foldl (fun s p => modCore s (home + p.1) fun k =>
          if p.2.1 then { k with shadow := p.2.2 } else { k with active := p.2.2 }) s2
        let s4 := v.porters.foldl (resumePorter t home v.team m) s3
        let s6 := v.traps.foldl requeue (restoreIsles home v (restoreBinds home v s4))
        some (teamCores { t with core := home } |>.foldl phaseBoundary
          { s6 with saves := s6.saves.filter fun y => y.team != v.team })

/-- The saves of one instance, in the order of its stages. -/
def savesOf (s : State) (inst : Nat) : List Saved :=
  s.saves.filter fun v => ((getTeam s v.team).map (·.inst)) == some inst

/-- R305: resume a kernel team or an instance whole. -/
def placeSaved (s : State) (l : Nat) (x : Launch) (inst home : Nat) : Option State :=
  let vs := savesOf s inst
  -- R305: the planes are looked at before any team of the instance is back
  if vs.any fun v => !v.planes.isEmpty && (unitCores (launchPair x) home).any fun c => !planesFree s c then none else
  let s1 := (unitCores (launchPair x) home).foldl (fun s c => beginTenancy s l x c) s
  (foldO vs s1 (resumeTeam x home)).map fun s => modInst s inst fun i => { i with core := home, resident := false }

/-! ### Candidates and the step (R279, R282, R283) -/

/-- What an admission step may place: the next unplaced unit, or a saved instance. -/
inductive Item where
  | fresh
  | saved (inst : Nat)
  deriving DecidableEq, Repr

def placeItem (s : State) (l : Nat) (x : Launch) (home : Nat) : Item → Option State
  | .fresh => placeNew s l x home
  | .saved i => placeSaved s l x i home

/-- R282: cores whose tenancy belongs to a context. -/
def coresUsed (s : State) (c : Nat) : Nat := (s.cores.filter fun k => (k.2.tenant.map (·.1)) == some c).length

/-- R212, R287: the PA has granted the matrix engine of a core a full-width credit: it runs a row command that began
unnarrowed, and keeps that mode to its end. R287 has no rule by which the PA turns a request down, so what is granted is what
the units that run ask for. -/
def creditHeld (k : Core) : Bool := k.me.any fun m => m.begun && !m.narrow

/-- R21, R287: the package budget, in watts, that the PA keeps as credits. -/
def powerBudget (s : State) : Nat := (devReg s 0x20).toNat

/-- R282, R287: the power credits that a context's agents hold: the full-width credit of each matrix engine that runs
unnarrowed, and those of the other agents. -/
def powerHeld (s : State) (c : Nat) : Nat :=
  Config.freePower s.tick c + Config.meCredit *
    (s.cores.filter fun k => (k.2.tenant.map (·.1)) == some c && creditHeld k.2).length

/-- R282: the bandwidth and power limits of the budget set hold a new team. -/
def budgetHolds (s : State) (x : Launch) : Bool :=
  let b := (pageReg s x.ctx (0x100 + 8 * pkClass x)).toNat
  (upto 0 32).any (fun m => decide (bits b 8 8 * 655360 < 256 * Tab.get s.bwLast (m * 128 + x.ctx) 0)) ||
    decide (bits b 16 8 * powerBudget s < 256 * powerHeld s x.ctx)

/-- R283: place an item, the budget's bandwidth and power aside: on a core of the launch's tenancy, else on the lowest
free core or pair that its `CORES` limit allows. -/
def placeHomes (s : State) (l : Nat) (x : Launch) (it : Item) : Option State :=
  let pair := launchPair x
  let homes := ((upto 0 (Config.cores / if pair then 2 else 1)).map fun i => if pair then 2 * i else i).filter fun h =>
    (unitCores pair h).all (coreAllowed s l x)
  let tenant := fun (v : Option (Nat × Nat)) => homes.filter fun h => (unitCores pair h).all fun c => (getCore s c).tenant == v
  let need := if pair then 2 else 1
  match (tenant (some (x.ctx, l))).findSome? fun h => placeItem s l x h it with
  | some s' => some s'
  | none =>
    if coresUsed s x.ctx + need ≤ budgetCores s x then (tenant none).findSome? fun h => placeItem s l x h it else none

/-- R282, R283: place an item as the whole budget allows. -/
def tryItem (s : State) (l : Nat) (x : Launch) (it : Item) : Option State :=
  if budgetCores s x = 0 || budgetHolds s x then none else placeHomes s l x it

/-- R279: team `i` of the launch may be placed. -/
def mapAllows (s : State) (x : Launch) (i : Nat) : Bool :=
  match x.producer.bind (getLaunch s) with
  | none => true
  | some p => decide (p.code ≤ 1) && match pkDepmap x with
    | 1 => p.published.contains i || decide (launchTotal p ≤ i)
    | 2 => p.retired == launchTotal p
    | _ => true

/-- R277, R279, R280: the unplaced teams that tokens and dependency allow now. -/
def freshItems (s : State) (l : Nat) (x : Launch) : List Nat :=
  if Tab.find (getCtx s x.ctx).heads x.queue = some l ∧ x.released ∧ (pkDepmap x = 0 ∨ !producerFailed s x) then
    (upto x.placed (launchTotal x - x.placed)).takeWhile (mapAllows s x)
  else []

/-- The saved instances of a launch. -/
def savedItems (s : State) (l : Nat) : List Nat :=
  ((s.saves.filter fun v => v.launch == l).filterMap fun v => (getTeam s v.team).map (·.inst)).eraseDups

/-- R48, R305: all teams of a co-resident launch in one step. -/
def tryAll (s : State) (l : Nat) (x : Launch) : Option State :=
  let saved := savedItems s l
  let left := launchTotal x - x.placed
  if s.teams.any (fun t => t.2.launch == l && !isHandler t.1 && t.2.resident && t.2.preempt) ||
      (freshItems s l x).length != left || (saved.isEmpty && left == 0) then none
  else
    let items := saved.map Item.saved ++ List.replicate (if launchPipe x then min left 1 else left) Item.fresh
    foldO items s fun s it => match getLaunch s l with
      | some y => tryItem s l y it
      | none => none

/-- R323: an EXPORT of the context is under way. -/
def exporting (s : State) (c : Nat) : Bool :=
  match s.command with
  | some x => x.code == 4 && x.ctx == c && x.begun && x.result.isNone
  | none => false

/-- R283, R305: a launch's next placement. -/
def tryLaunch (s : State) (l : Nat) (x : Launch) : Option State :=
  if x.ended || x.code != 0 || (getCtx s x.ctx).st != 1 || exporting s x.ctx then none
  else if launchCores x then tryAll s l x
  else match (savedItems s l).findSome? fun i => tryItem s l x (.saved i) with
    | some s' => some s'
    | none =>
      let f := freshItems s l x
      let all := launchTotal x - x.placed
      if !(savedItems s l).isEmpty || f.isEmpty || (launchPipe x && f.length != all) then none else tryItem s l x .fresh

/-- R283: the turn of a launch among those of its class. -/
def turnKey (s : State) (x : Launch) : Nat × Nat :=
  ((x.ctx + 96 - Tab.get s.servedCtx (launchPrio x) 95 - 1) % 96, (x.queue + 8 - Tab.get s.servedQ x.ctx 7 - 1) % 8)

def turnLe (s : State) (a b : Nat × Launch) : Bool :=
  let x := turnKey s a.2
  let y := turnKey s b.2
  decide (x.1 < y.1) || (x.1 == y.1 && (decide (x.2 < y.2) || (x.2 == y.2 && decide (a.1 ≤ b.1))))

def insTurn (s : State) (l : List (Nat × Launch)) (a : Nat × Launch) : List (Nat × Launch) :=
  match l with
  | [] => [a]
  | b :: r => if turnLe s a b then a :: b :: r else b :: insTurn s r a

/-- R283: the launches of a class in the order of their turns. -/
def classOrder (s : State) (prio : Nat) : List (Nat × Launch) :=
  (s.launches.filter fun x => !x.2.ended && launchPrio x.2 == prio).foldl (insTurn s) []

/-- R283: one admission step; none when nothing is a candidate. -/
def admitOne (s : State) : Option State :=
  ((upto 0 (if s.alarm then 2 else 4)).flatMap (classOrder s)).findSome? fun x =>
    (tryLaunch s x.1 x.2).map fun s1 =>
      let s2 := { s1 with servedCtx := Tab.set s1.servedCtx (launchPrio x.2) x.2.ctx
                          servedQ := Tab.set s1.servedQ x.2.ctx x.2.queue }
      match getLaunch s2 x.1 with
      | some y => if y.placed = launchTotal y then headDone s2 x.1 else s2
      | none => s2

/-- R296: the place of a trap among those raised in one cycle: by partition, then the lead, then the porters, then the
islands. -/
def raiseKey (s : State) : Source → Nat
  | .party p => match partOf s p with
    | some n => n
    | none => 8
  | .porter _ n => 9 + n
  | .island k _ => 16 + k

def insTrap (s : State) (e : TrapEntry) (l : List TrapEntry) : List TrapEntry :=
  match l with
  | [] => [e]
  | x :: r => if raiseKey s e.src < raiseKey s x.src then e :: x :: r else x :: insTrap s e r

/-- R296, R302: the traps that an admission step has raised again on a core, behind the `n` that wait there already, stand in
the order of one cycle's. -/
def orderTraps (s : State) (n : Nat) (l : List TrapEntry) : List TrapEntry :=
  l.take n ++ (l.drop n).foldl (fun a e => insTrap s e a) []

/-- ADMISSION_STEP (R283, R296). -/
def execAdmissionStep (s : State) : Host.Outcome State Fault Refusal :=
  match admitOne s with
  | none => .next s
  | some u => .next { u with cores := u.cores.map fun k =>
      (k.1, { k.2 with traps := orderTraps u (getCore s k.1).traps.length k.2.traps }) }

/-! ### Zeroing, the porter section, and the start (R45, R98, R163, R169) -/

/-- CONTEXT_ZEROING_DONE (R98): what is zeroed was zeroed as the tenancy began. -/
def execContextZeroingDone (core : Nat) (s : State) : Host.Outcome State Fault Refusal :=
  .next (if (getCore s core).zeroing then modCore s core fun k => { k with zeroing := false } else s)

/-- R169: one line of the porter section: its value, whether all of it could be read, and whether it holds poison. -/
def sectionLine (s : State) (x : Launch) (i : Nat) : Nat × Bool × Bool :=
  let n := min 64 (pkPortLen x - 64 * i)
  let va := pkPort x + 64 * i
  let r := (sectorPieces 4 va n 0).map fun pc => match checkNow s x.ctx Config.cores (va + pc.1) 1 .load with
    | .ok p => let (l, b) := readAt s p.pa p.key pc.2; (l, true, b)
    | .error _ => (List.replicate pc.2 (0 : Byte), false, false)
  (ofBytes (r.map (·.1)).flatten, r.all (·.2.1), r.any (·.2.2))

/-- PORTER_SECTION_COPY_DONE (R169). The manual does not say what a poisoned byte of the section does: the model marks the
store line bad, so that its fetch faults FETCH_PARITY (DESIGN CHOICE, log entry 27). -/
def execPorterSectionCopyDone (core : Nat) (s : State) : Host.Outcome State Fault Refusal :=
  match tenancyOf s core with
  | none => .next s
  | some (c, x) =>
    if !(getCore s core).copying then .next s
    else
      let ls := (upto 0 (ceilDiv (pkPortLen x) 64)).map fun i => (i, sectionLine s x i)
      let s0 := (upto 0 (ceilDiv (pkPortLen x) 64)).foldl (fun s i =>
        takenVirt s x.ctx Config.cores (pkPort x + 64 * i) (min 64 (pkPortLen x - 64 * i)) .load) s
      let s1 := modCore s0 core fun k =>
        { k with copying := false, pstore := ls.foldl (fun t l => Tab.put t l.1 l.2.1 0) [] }
      let bad := (ls.filter fun l => l.2.2.2).map fun l => (core, l.1)
      let s2 := { s1 with badStore := s1.badStore.filter (fun b => b.1 != core) ++ bad }
      .next (if ls.all fun l => l.2.2.1 then s2 else raiseCtx s2 c 1)

/-- R163: the cores on which the producers of a team were placed. -/
def producerCores (s : State) (x : Launch) (i : Nat) : List Nat :=
  match x.producer.bind (getLaunch s) with
  | none => []
  | some p => ((p.cores.filter fun c => pkDepmap x == 2 || c.1 == i).flatMap fun c => unitCores (launchPair p) c.2).eraseDups

/-- R163: the cores of the launches that have ended and signalled a token that the launch waits for (DEDUCED, log 11: the
release of such a signal synchronises with the wait whatever the packet's scope says). -/
def tokenProducers (s : State) (x : Launch) : List Nat :=
  ((s.launches.filter fun l => l.2.ctx == x.ctx && l.2.ended && l.2.code == 1 && pkSig l.2 != 0 &&
    (pkWaits x).any fun w => w.2.1 == pkSig l.2).flatMap fun l =>
      l.2.cores.flatMap fun c => unitCores (launchPair l.2) c.2).eraseDups

/-- R163, R280: what precedes a team's first issue. -/
def startAcquire (s : State) (x : Launch) (t : Team) : State :=
  let mine := teamCores t
  let prod := (producerCores s x t.idx ++ tokenProducers s x).eraseDups
  let far := !prod.isEmpty && (mine ++ prod).eraseDups.length != 1
  let s1 := if far then prod.foldl drainCore s else s
  if far || (pkWaits x).any fun w => decide (4 ≤ w.1) then mine.foldl phaseBoundary s1 else s1

/-- R433: the pending monitors of a team that comes back are armed again, before any of its parties issues. -/
def rearmTeam (s : State) (t : Nat) (x : Team) : State :=
  (x.groups.map (fun (g : Nat × Group) => Party.group t g.1) ++ [Party.lead t]).foldl rearm s

/-- TEAM_START (R45). -/
def execTeamStart (t : Nat) (s : State) : Host.Outcome State Fault Refusal :=
  match getTeam s t with
  | none => .next s
  | some x =>
    if x.started || !x.resident || (teamCores x).any (fun c => (getCore s c).zeroing || (getCore s c).copying) then .next s
    else
      let s1 := match getLaunch s x.launch with
        | some l => startAcquire s l x
        | none => s
      .next (modTeam (rearmTeam s1 t x) t fun x => { x with started := true })

end Sys2Proof.Machine
end

