-- ==== Sys2Proof/Machine/Control.lean ====
section
/-! DEFINITION. Class 4 and WAYPT: branches, calls, LOOP, EXIT, the decision queue, SETMEET, waypoints, YIELD, FBAR
(R39 to R45, R66 to R82, R164, R216, R300 to R303, R378 to R392, R399 to R401, R412, R428, R437, R458, R460, R461,
R465, R479, R497). -/

namespace Sys2Proof.Machine

/-! ### Moving PCs -/

/-- R71: each frontier lane goes to its target, or to next; under `keep` a lane outside `Active` keeps its PC. -/
def moveTo (e : Env) (s : State) (keep : Bool) (f : Nat → Option DWord) : State :=
  let go := fun (l : Nat) (h : Thread) =>
    if keep && !e.act.contains l then stayThread h
    else match f l with
      | some pc => enterAt pc h
      | none => fallThrough h
  match e.p with
  | .group t g => modGroup s t g fun x => { x with thr := mapLanes x.thr 0 e.lanes go }
  | .lead t => modLead s t fun x => match f 0 with
      | some pc => leadEnter pc x
      | none => leadFall x
  | .porter c n => modPorter s c n fun x => match f 0 with
      | some pc => porterEnter pc x
      | none => porterFall x

/-- A branch that has issued, whose frontier lanes outside `Active` go to next (R379, R384, R392, R428) or, under `keep`,
keep their PC (R71). -/
def branch (e : Env) (s : State) (keep : Bool) (f : Nat → Option DWord) : State :=
  moveTo e (attach e (counted e s)) keep f

/-- R68, R378: the lanes that `take` go to one target. -/
def branchTo (e : Env) (s : State) (keep : Bool) (tgt : DWord) (take : Nat → Bool) : Except Stop State :=
  let f := fun l => if e.act.contains l && take l then some tgt else none
  if e.act.any take then
    match targetCheck e tgt with
    | .error x => .error x
    | .ok _ => .ok (branch e s keep f)
  else .ok (branch e s keep f)

/-- R68: each taken target of BRX, CALLX or RET, in ascending lane order. -/
def checkTargets (e : Env) (tgt : Nat → DWord) : Except Stop Unit :=
  match mapE e.act fun l =>
      if pcOk (tgt l) then targetCheck e (tgt l) else .error (.trap tcTarget ((tgt l).toNat % 2 ^ 32) 0) with
  | .error x => .error x
  | .ok _ => .ok ()

/-- R437. -/
def execNop (c : Ctl) (s : State) : Host.Outcome State Fault Refusal :=
  perform (.nop c) c { fields := fun _ => [] } s fun e => .ok (done e e.s)

/-- R384. -/
def execBr (c : Ctl) (t : Target) (s : State) : Host.Outcome State Fault Refusal :=
  perform (.br c t) c { fields := fun _ => [] } s fun e => branchTo e e.s false (targetPc e.pc t) fun _ => true

/-- R385. -/
def brcTaken (cond : BitVec 3) (a b : Nat) : Bool :=
  let sa := sext a 64
  let sb := sext b 64
  match cond.toNat with
  | 0 => a == b
  | 1 => a != b
  | 2 => decide (sa < sb)
  | 3 => decide (sb ≤ sa)
  | 4 => decide (a < b)
  | 5 => decide (b ≤ a)
  | 6 => decide (sa ≤ sb)
  | _ => decide (sb < sa)

def execBrc (c : Ctl) (a b : Code) (cond : BitVec 3) (t : Target) (s : State) : Host.Outcome State Fault Refusal :=
  perform (.brc c a b cond t) c { fields := fun _ => [⟨a, .reg 1⟩, ⟨b, .reg 1⟩] } s fun e =>
    branchTo e e.s false (targetPc e.pc t) fun _ => brcTaken cond (val e a 0) (val e b 0)

/-- R72, R387: the vote. The frontier lanes outside `Active` keep their PC (R71). -/
def execBrv (c : Ctl) (a : Code) (t m : Target) (s : State) : Host.Outcome State Fault Refusal :=
  perform (.brv c a t m) c { fields := fun _ => [⟨a, .pin false⟩] } s fun e =>
    let take := fun l => val e a l == 1
    let divergent := e.act.any take && !e.act.all take
    let s1 := if divergent then
        modGroup e.s e.t e.gid fun x =>
          { x with thr := mapLanes x.thr 0 e.act fun _ h => { h with meet := targetPc e.pc m } }
      else e.s
    branchTo e s1 true (targetPc e.pc t) take

/-- R379. -/
def execBdq (c : Ctl) (n : BitVec 6) (z : Bool) (t : Target) (s : State) : Host.Outcome State Fault Refusal :=
  perform (.bdq c n z t) c { fields := fun _ => [], dq := true } s fun e =>
    branchTo e e.s false (targetPc e.pc t) fun _ => tb (e.dq.getD 0).toNat n.toNat != z

/-- R388, R71: each `Active` lane goes to its own target, and the others keep their PC. -/
def execBrx (c : Ctl) (a : Code) (s : State) : Host.Outcome State Fault Refusal :=
  perform (.brx c a) c { fields := fun _ => [⟨a, .reg 2⟩] } s fun e =>
    let tgt := fun l => BitVec.ofNat 64 (val64 e a l)
    match checkTargets e tgt with
    | .error x => .error x
    | .ok _ => .ok (branch e e.s true fun l => some (tgt l))

/-! ### Calls and register windows -/

/-- R79: return-stack depth and spill slots of a rucksack of `ruck` bytes. -/
def stackDepth (ruck width : Nat) : Nat := min 8 (ruck / (16 * width))
def spillSlots (ruck width : Nat) : Nat := (ruck - 16 * width * stackDepth ruck width) / (32 * width)

/-- What R80 asks of a change of windows. -/
structure Slide where
  low : Nat
  spill : List Nat
  refill : List Nat
  deriving DecidableEq, Repr

/-- R80: the checks on the `%wb` values that a call or return would give to its `Active` threads, in order. -/
def slideWindow (e : Env) (call : Bool) (wb : Nat → Nat) : Except Nat Slide :=
  let a := e.tm.alloc
  let wbs := (lanesWhere e.g.thr 0 (·.live)).map fun l => if e.act.contains l then wb l else (thread e.g l).wb
  let lo := minOf wbs 0
  let hi := maxOf wbs 0 + wsz a
  let low := e.g.low
  let depth := (thread e.g e.low).stack.length % 256 * 256
  if call && e.act.any (fun l => decide (stackDepth e.tm.ruck e.tm.width ≤ (thread e.g l).stack.length)) then
    .error (depth + 1)
  else if a < hi - lo then .error (depth + 3)
  else if low + a < hi then
    if spillSlots e.tm.ruck e.tm.width < (hi - a) / 8 then .error (depth + 2)
    else .ok ⟨hi - a, upto (low / 8) ((hi - a) / 8 - low / 8), []⟩
  else if lo < low then .ok ⟨lo, [], upto (lo / 8) (low / 8 - lo / 8)⟩
  else .ok ⟨low, [], []⟩

/-- The keys of the physical rows of logical block b. -/
def inBlock (alloc b key : Nat) : Bool :=
  let base := 8 * b % alloc * 64
  decide (base ≤ key) && decide (key < base + 512)

/-- R80, R89: a block leaves for the rucksack, and markers stand in its rows. -/
def spillBlock (alloc : Nat) (g : Group) (b : Nat) : Group :=
  let base := 8 * b % alloc * 64
  let out := (g.v.filter fun x => inBlock alloc b x.1).map fun x => (x.1 - base, x.2)
  let bad := (g.vpoison.filter (inBlock alloc b)).map fun k => 512 * b + (k - base)
  { g with v := g.v.filter (fun x => !inBlock alloc b x.1), vpoison := g.vpoison.filter (fun k => !inBlock alloc b k),
           spill := Tab.set g.spill b out, spillPoison := g.spillPoison.filter (fun k => k / 512 != b) ++ bad }

/-- R80: a block comes back with exactly the bits that were spilled. -/
def refillBlock (alloc : Nat) (g : Group) (b : Nat) : Group :=
  let base := 8 * b % alloc * 64
  let v := g.v.filter fun x => !inBlock alloc b x.1
  { g with v := (Tab.get g.spill b []).foldl (fun v x => Tab.set v (base + x.1) x.2) v,
           vpoison := g.vpoison.filter (fun k => !inBlock alloc b k), spill := Tab.del g.spill b }

/-- R80, R348: the blocks move. A refill writes the registers of its block, which no earlier operation does any more. -/
def slideGroup (alloc : Nat) (w : Slide) (g : Group) : Group :=
  let g := w.spill.foldl (spillBlock alloc) g
  let stays := fun (d : Nat × Nat × Nat) => !w.refill.any fun b => inBlock alloc b d.1
  { w.refill.foldl (refillBlock alloc) g with
    low := w.low, com := { g.com with ops := g.com.ops.map fun o => { o with dst := o.dst.filter stays } } }

/-- R80, R348: a spill reads the registers of its blocks. No rule says that a call or return waits for an outstanding
operation that still writes one of them; the model takes it to wait as any reader does (DEDUCED, log 18). -/
def spillWait (e : Env) (w : Slide) : Except Stop Unit :=
  match e.com.ops.find? fun o => o.dst.any fun d => w.spill.any fun b => inBlock e.tm.alloc b d.1 with
  | some o => .error (if o.poisoned then deferOf o else .stall .scoreboard)
  | none => .ok ()

/-- R78: what a call pushes. -/
def pushFrame (n : Nat) (rp tgt : DWord) (h : Thread) : Thread :=
  { enterAt tgt h with stack := ⟨BitVec.ofNat 64 (rp.toNat + (n / 8 - 1) * 8), h.meet⟩ :: h.stack, above := h.above.drop 1,
                       wb := h.wb + n, meet := noPc }

/-- R80, R392: a group's call; what becomes of operations still to write a moved block: `spillWait`, `slideGroup`. -/
def groupCall (e : Env) (n : Nat) (tgt : Nat → DWord) : Except Stop State :=
  if e.act.isEmpty then .ok (branch e e.s false fun _ => none)
  else match slideWindow e true fun l => (thread e.g l).wb + n with
    | .error d => .error (.trap tcSpill d 0)
    | .ok w => match spillWait e w with
      | .error x => .error x
      | .ok _ =>
        let go := fun l h => if e.act.contains l then pushFrame n (nextPc e.pc) (tgt l) h else fallThrough h
        .ok (modGroup (attach e (counted e e.s)) e.t e.gid fun x =>
          slideGroup e.tm.alloc w { x with thr := mapLanes x.thr 0 e.lanes go })

def execCall (c : Ctl) (slide : BitVec 3) (t : Target) (s : State) : Host.Outcome State Fault Refusal :=
  perform (.call c slide t) c { fields := fun _ => [] } s fun e =>
    let tgt := targetPc e.pc t
    match (if e.act.isEmpty then .ok () else targetCheck e tgt : Except Stop Unit) with
    | .error x => .error x
    | .ok _ =>
      if e.kind = .group then groupCall e ((slide.toNat + 1) * 8) fun _ => tgt
      else if e.act.isEmpty then .ok (branch e e.s false fun _ => none)
      else if 8 ≤ e.tm.lead.stack.length then .error (.trap tcSpill 0x0801 0)
      else .ok (modLead (branch e e.s false fun _ => some tgt) e.t fun x =>
        { x with stack := nextPc e.pc :: x.stack, above := x.above.drop 1 })

def execCallx (c : Ctl) (a : Code) (slide : BitVec 3) (s : State) : Host.Outcome State Fault Refusal :=
  perform (.callx c a slide) c { fields := fun _ => [⟨a, .reg 2⟩] } s fun e =>
    let tgt := fun l => BitVec.ofNat 64 (val64 e a l)
    match checkTargets e tgt with
    | .error x => .error x
    | .ok _ => groupCall e ((slide.toNat + 1) * 8) tgt

/-- R78: the slide that a frame undoes. -/
def frameSlide (f : Frame) : Nat := (bits f.ret.toNat 3 3 + 1) * 8

/-- R78: a thread returns. -/
def popFrame (h : Thread) : Thread :=
  match h.stack with
  | [] => h
  | f :: r => { enterAt (retPc f) h with stack := r, above := f :: h.above, wb := h.wb - frameSlide f, meet := f.meet,
                                         hold := some (retPc f, r.length) }

/-- R147: the lowest lane whose refilled registers are poisoned. -/
def refillPoison (g : Group) (w : Slide) : Option Nat :=
  match (g.spillPoison.filter fun k => w.refill.contains (k / 512)).map (· % 64) with
  | [] => none
  | l => some (minOf l 0)

/-- R458: a group's return. Frontier threads outside `Active` keep their PC. The manual gives the checks no order among
themselves: BAD_TARGET of an empty stack comes first, then that of a return PC, before SPILL_OVERFLOW of the windows
(R80), and the poison of a refill before a return PC's (DESIGN CHOICE, log 15). -/
def groupRet (e : Env) : Except Stop State :=
  let top := fun l => (thread e.g l).stack.head?
  if e.act.isEmpty then .ok (branch e e.s true fun _ => none)
  else if e.act.any (fun l => (top l).isNone) then .error (.trap tcTarget 0xFFFFFFFF 0)
  else
    let slide := slideWindow e false fun l => (thread e.g l).wb - ((top l).map frameSlide).getD 0
    match slide with
    | .ok w =>
      match refillPoison e.g w with
      | some l => .error (.trap tcPoison (l + 0x400) 0)
      | none =>
        match checkTargets e fun l => ((top l).map retPc).getD 0 with
        | .error x => .error x
        | .ok _ =>
          let go := fun l h => if e.act.contains l then popFrame h else stayThread h
          .ok (modGroup (attach e (counted e e.s)) e.t e.gid fun x =>
            slideGroup e.tm.alloc w { x with thr := mapLanes x.thr 0 e.lanes go })
    | .error d =>
      match checkTargets e fun l => ((top l).map retPc).getD 0 with
      | .error x => .error x
      | .ok _ => .error (.trap tcSpill d 0)

def execRet (c : Ctl) (s : State) : Host.Outcome State Fault Refusal :=
  perform (.ret c) c { fields := fun _ => [] } s fun e =>
    if e.kind = .group then groupRet e
    else if e.act.isEmpty then .ok (branch e e.s false fun _ => none)
    else match e.tm.lead.stack with
      | [] => .error (.trap tcTarget 0xFFFFFFFF 0)
      | rp :: rest => match checkTargets e fun _ => rp with
        | .error x => .error x
        | .ok _ => .ok (modLead (branch e e.s false fun _ => some rp) e.t fun x =>
          { x with stack := rest, above := rp :: x.above })

/-! ### LOOP and EXIT -/

/-- R428. -/
def execLoop (c : Ctl) (a : Code) (t : Target) (s : State) : Host.Outcome State Fault Refusal :=
  perform (.loop c a t) c { fields := fun _ => [⟨a, .ctr⟩] } s fun e =>
    if e.act.isEmpty then .ok (branch e e.s false fun _ => none)
    else
      let n := wrap ((val e a e.low : Int) - 1) e.w
      branchTo e (writeRun e e.s a 1 fun _ => n) false (targetPc e.pc t) fun _ => n != 0

/-- R401, R45. A group's frontier lanes outside `Active` keep their PC (R71); a lead whose guard fails goes to next (DEDUCED,
log 15). -/
def execExit (c : Ctl) (s : State) : Host.Outcome State Fault Refusal :=
  perform (.exit c) c
    { fields := fun _ => [], settles := true, context := fun e => if isHandler e.t then some 0x20A else none } s fun e =>
    if e.act.isEmpty then .ok (branch e e.s true fun _ => none)
    else match e.p with
      | .lead t => .ok (leadExit (attach e (counted e e.s)) t)
      | _ =>
        let s1 := modGroup (attach e (counted e e.s)) e.t e.gid fun x =>
          { x with thr := mapLanes x.thr 0 e.lanes fun l h =>
              if e.act.contains l then { h with live := false } else stayThread h }
        .ok (match getGroup s1 e.t e.gid with
          | some g => if g.thr.any (·.live) then s1 else groupExit s1 e.t e.gid
          | none => s1)

/-! ### The decision queue -/

/-- R39: entries pushed and not yet popped by every live group. -/
def dqOccupancy (t : Team) : Nat := t.wr - minOf ((liveGroups t).map fun g => g.2.rd) t.wr

/-- R40: push one entry. -/
def dqPushOne (v : DWord) (t : Team) : Team :=
  { t with dq := (t.dq ++ [v]).drop (t.dq.length + 1 - 64), wr := t.wr + 1 }

/-- R400, R43. -/
def execDqpush (c : Ctl) (a : Code) (s : State) : Host.Outcome State Fault Refusal :=
  perform (.dqpush c a) c { fields := fun _ => [⟨a, .reg 1⟩], fork := true } s fun e =>
    if e.act.isEmpty then .ok (done e e.s)
    else if 64 ≤ dqOccupancy e.tm then .error (.stall .dqFull)
    else
      let s1 := if e.tm.pair then drainCore e.s e.core else e.s
      .ok (done e (modTeam s1 e.t (dqPushOne (BitVec.ofNat 64 (val e a 0)))))

/-- R399. -/
def execDqpop (c : Ctl) (d : Code) (b32 : Bool) (s : State) : Host.Outcome State Fault Refusal :=
  perform (.dqpop c d b32) c { fields := fun _ => [⟨d, .out (if b32 then 1 else 2)⟩], dq := true } s fun e =>
    let v := (e.dq.getD 0).toNat
    .ok (done e (writeRun e e.s d (if b32 then 1 else 2) fun _ => v))

/-! ### SETMEET, waypoints, YIELD and FBAR -/

/-- R465. -/
def execSetmeet (c : Ctl) (no : Bool) (m : Target) (s : State) : Host.Outcome State Fault Refusal :=
  perform (.setmeet c no m) c { fields := fun _ => [] } s fun e =>
    let v := if no then noPc else targetPc e.pc m
    .ok (done e (modGroup e.s e.t e.gid fun x =>
      { x with thr := mapLanes x.thr 0 e.act fun _ h => { h with meet := v } }))

/-- R479: the live mask counts when the frontier held every live thread. -/
def execWaypt (c : Ctl) (mask : BitVec 16) (s : State) : Host.Outcome State Fault Refusal :=
  perform (.waypt c mask) c { fields := fun _ => [], waypoint := true, settles := true } s fun e =>
    let whole := e.lanes.length == (lanesWhere e.g.thr 0 (·.live)).length
    .ok (waypointDone (done e e.s) e.p (if whole then some mask else none))

/-- R218: the porters started inside a region that closes are no longer inside one. -/
def leaveRegion (s : State) (t : Nat) : State :=
  let one := fun (p : Porter) => if p.team = some t then { p with inRegion := false } else p
  { s with cores := s.cores.map fun k => (k.1, { k.2 with p0 := one k.2.p0, p1 := one k.2.p1 }) }

/-- R216, R461: the lead's and a group's restart labels. -/
def restartLabel (e : Env) (close : Bool) (tgt : DWord) : State :=
  if e.act.isEmpty then e.s
  else match e.p with
    | .lead t => modTeam (if close then leaveRegion e.s t else e.s) t fun x =>
      if close then { x with region := none }
      else
        let r : Region := ⟨tgt, x.wr, x.lead.stack.length⟩
        match x.region with
        | some _ => { x with region := some r }
        | none => { x with region := some r, groups := x.groups.map fun g => (g.1, { g.2 with label := none }) }
    | _ => modGroup e.s e.t e.gid fun x =>
      let all := (lanesWhere x.thr 0 (·.live)).all e.act.contains
      { x with label := if close || !all then none
          else some ⟨tgt, x.rd, x.thr.map fun h => (h.wb, h.meet, h.stack.length)⟩ }

def execRstlbl (c : Ctl) (close : Bool) (t : Target) (s : State) : Host.Outcome State Fault Refusal :=
  perform (.rstlbl c close t) c { fields := fun _ => [], waypoint := true, settles := true } s fun e =>
    let tgt := targetPc e.pc t
    match (if close || e.act.isEmpty then .ok () else targetCheck e tgt : Except Stop Unit) with
    | .error x => .error x
    | .ok _ => .ok (waypointDone (done e (restartLabel e close tgt)) e.p none)

/-- R497, R76. -/
def execYield (c : Ctl) (s : State) : Host.Outcome State Fault Refusal :=
  perform (.yield c) c { fields := fun _ => [] } s fun e =>
    .ok (done e (match e.p with
      | .group t g => modGroup e.s t g fun x => { x with thr := mapLanes x.thr 0 e.act fun _ h => { h with yld := true } }
      | _ => e.s))

/-- R412, R164. -/
def execFbar (c : Ctl) (s : State) : Host.Outcome State Fault Refusal :=
  perform (.fbar c) c { fields := fun _ => [] } s fun e =>
    let s1 := done e e.s
    .ok { s1 with fbuf := s1.fbuf.filter fun l => l.core != e.core }

end Sys2Proof.Machine
end

