-- ==== Sys2Proof/Machine/Int.lean ====
section
/-! DEFINITION. Class 0: integer, logic, shift, move and predicate instructions (R364, R365, R380, R386, R396, R408,
R410, R413 to R417, R425, R435, R436, R438 to R440, R442, R462, R464, R482). -/

namespace Sys2Proof.Machine

/-- R365: the fields of the mould D, A, B and further sources. -/
def aluFields (d a : Code) (b : Src) (more : List Code) : List Field :=
  ⟨d, .dst⟩ :: ⟨a, .src false⟩ :: (srcField b false ++ more.map fun x => ⟨x, .src false⟩)

/-- R365: D := f of W, A, B and one more source, in each `Active` lane. -/
def alu (i : Instr) (c : Ctl) (d a : Code) (b : Src) (more : List Code) (s : State)
    (f : Nat → Nat → Nat → Nat → Nat) : Host.Outcome State Fault Refusal :=
  perform i c { fields := fun _ => aluFields d a b more } s fun e =>
    .ok (done e (writeOut e e.s d fun l => f e.w (val e a l) (srcVal e b l) (val e (more.headD 0xD0) l)))

/-- The mould with one source. -/
def alu1 (i : Instr) (c : Ctl) (d a : Code) (s : State) (f : Nat → Nat → Nat) : Host.Outcome State Fault Refusal :=
  perform i c { fields := fun _ => [⟨d, .dst⟩, ⟨a, .src false⟩] } s fun e =>
    .ok (done e (writeOut e e.s d fun l => f e.w (val e a l)))

/-- R415: a sum or difference, wrapped or clamped. -/
def satAdd (sub : Bool) (sat : BitVec 2) (w a b : Nat) : Nat :=
  let f := fun (x y : Int) => if sub then x - y else x + y
  if sat = 1 then
    let hi : Int := 2 ^ (w - 1)
    wrap (max (-hi) (min (hi - 1) (f (sext a w) (sext b w)))) w
  else
    let r := f (a : Int) (b : Int)
    if sat = 2 then (max 0 (min ((2 : Int) ^ w - 1) r)).toNat else wrap r w

def execIadd (c : Ctl) (d a : Code) (b : Src) (sat : BitVec 2) (s : State) : Host.Outcome State Fault Refusal :=
  alu (.iadd c d a b sat) c d a b [] s fun w x y _ => satAdd false sat w x y

def execIsub (c : Ctl) (d a : Code) (b : Src) (sat : BitVec 2) (s : State) : Host.Outcome State Fault Refusal :=
  alu (.isub c d a b sat) c d a b [] s fun w x y _ => satAdd true sat w x y

/-- R417. -/
def execImul (c : Ctl) (d a : Code) (b : Src) (s : State) : Host.Outcome State Fault Refusal :=
  alu (.imul c d a b) c d a b [] s fun w x y _ => x * y % 2 ^ w

/-- R417: the upper half of a product. -/
def mulHigh (u : Bool) (w x y : Nat) : Nat :=
  if u then x * y / 2 ^ w else wrap (sext x w * sext y w / ((2 ^ w : Nat) : Int)) w

def execImulh (c : Ctl) (d a : Code) (b : Src) (u : Bool) (s : State) : Host.Outcome State Fault Refusal :=
  alu (.imulh c d a b u) c d a b [] s fun w x y _ => mulHigh u w x y

def execImad (c : Ctl) (d a : Code) (b : Src) (e : Code) (s : State) : Host.Outcome State Fault Refusal :=
  alu (.imad c d a b e) c d a b [e] s fun w x y z => (x * y + z) % 2 ^ w

/-- R417: the wide multiply-add. -/
def madWide (u : Bool) (x y z : Nat) : Nat :=
  let x := x % 2 ^ 32
  let y := y % 2 ^ 32
  if u then (x * y + z) % 2 ^ 64 else wrap (sext x 32 * sext y 32 + z) 64

def execImadw (c : Ctl) (d a : Code) (b : Src) (e : Code) (u : Bool) (s : State) : Host.Outcome State Fault Refusal :=
  perform (.imadw c d a b e u) c
    { fields := fun k =>
        if k = .group then ⟨d, .out 2⟩ :: ⟨a, .src false⟩ :: (srcField b false ++ [⟨e, .reg 2⟩])
        else aluFields d a b [e] } s fun v =>
    let f := fun l => madWide u (val v a l) (srcVal v b l) (if v.kind = .group then val64 v e l else val v e l)
    .ok (done v (if v.kind = .group then writeRun v v.s d 2 f else writeOut v v.s d f))

/-- R417: four byte products. -/
def dot4 (ua ub : Bool) (n x y : Nat) : Int :=
  match n with
  | 0 => 0
  | n + 1 =>
    let p := bits x (8 * n) 8
    let q := bits y (8 * n) 8
    dot4 ua ub n x y + (if ua then (p : Int) else sext p 8) * (if ub then (q : Int) else sext q 8)

def execIdot4 (c : Ctl) (d a : Code) (b : Src) (e : Code) (ua ub : Bool) (s : State) :
    Host.Outcome State Fault Refusal :=
  alu (.idot4 c d a b e ua ub) c d a b [e] s fun w x y z => wrap (dot4 ua ub 4 x y + z) w

/-- a < b, signed or unsigned. -/
def ltW (u : Bool) (w x y : Nat) : Bool := if u then decide (x < y) else decide (sext x w < sext y w)

/-- R416. -/
def execImin (c : Ctl) (d a : Code) (b : Src) (u : Bool) (s : State) : Host.Outcome State Fault Refusal :=
  alu (.imin c d a b u) c d a b [] s fun w x y _ => if ltW u w y x then y else x

def execImax (c : Ctl) (d a : Code) (b : Src) (u : Bool) (s : State) : Host.Outcome State Fault Refusal :=
  alu (.imax c d a b u) c d a b [] s fun w x y _ => if ltW u w x y then y else x

/-- R414. -/
def execIabs (c : Ctl) (d a : Code) (s : State) : Host.Outcome State Fault Refusal :=
  alu1 (.iabs c d a) c d a s fun w x => (sext x w).natAbs % 2 ^ w

/-- R410. -/
def intCond (cond w x y : Nat) : Bool :=
  match cond with
  | 0 => x == y
  | 1 => x != y
  | 2 => ltW false w x y
  | 3 => !ltW false w y x
  | 4 => ltW false w y x
  | 5 => !ltW false w x y
  | 6 => ltW true w x y
  | 7 => !ltW true w y x
  | 8 => ltW true w y x
  | _ => !ltW true w x y

/-- R408: combine a compare with a predicate. -/
def combine (comb : BitVec 2) (r p : Bool) : Bool :=
  if comb = 0 then r else if comb = 1 then r && p else if comb = 2 then r || p else r != p

def execIcmp (c : Ctl) (d a : Code) (b : Src) (cond : BitVec 4) (comb : BitVec 2) (pc : Code) (s : State) :
    Host.Outcome State Fault Refusal :=
  perform (.icmp c d a b cond comb pc) c
    { fields := fun _ => ⟨d, .pout false⟩ :: ⟨a, .src false⟩ ::
        (srcField b false ++ if comb = 0 then [] else [⟨pc, .pin false⟩]) } s fun e =>
    .ok (done e (writePred e e.s d fun l =>
      combine comb (intCond cond.toNat e.w (val e a l) (srcVal e b l)) (val e pc l == 1)))

/-- R464. -/
def execTern (c : Ctl) (d a : Code) (b : Src) (pc : Code) (s : State) : Host.Outcome State Fault Refusal :=
  perform (.tern c d a b pc) c
    { fields := fun _ => aluFields d a b [] ++ [⟨pc, .pin false⟩] } s fun e =>
    .ok (done e (writeOut e e.s d fun l => if val e pc l = 1 then val e a l else srcVal e b l))

/-- R425. -/
def execLoca (c : Ctl) (d a : Code) (b : Src) (sh : BitVec 3) (w : Bool) (s : State) :
    Host.Outcome State Fault Refusal :=
  perform (.loca c d a b sh w) c
    { fields := fun k =>
        if w && k == .group then ⟨d, .out 2⟩ :: ⟨a, .reg 2⟩ :: srcField b false else aluFields d a b []
      modBad := fun e => w && e.kind != .group } s fun e =>
    .ok (done e (
      if w then writeRun e e.s d 2 fun l =>
        wrap ((val64 e a l : Int) + sext (srcVal e b l) 32 * ((2 ^ sh.toNat : Nat) : Int)) 64
      else writeOut e e.s d fun l => (val e a l + srcVal e b l * 2 ^ sh.toNat) % 2 ^ e.w))

/-- R365, R438, R482. -/
def execBAnd (c : Ctl) (d a : Code) (b : Src) (s : State) : Host.Outcome State Fault Refusal :=
  alu (.bAnd c d a b) c d a b [] s fun _ x y _ => x &&& y

def execBAndn (c : Ctl) (d a : Code) (b : Src) (s : State) : Host.Outcome State Fault Refusal :=
  alu (.bAndn c d a b) c d a b [] s fun w x y _ => x &&& (2 ^ w - 1 - y)

def execBOr (c : Ctl) (d a : Code) (b : Src) (s : State) : Host.Outcome State Fault Refusal :=
  alu (.bOr c d a b) c d a b [] s fun _ x y _ => x ||| y

def execBXor (c : Ctl) (d a : Code) (b : Src) (s : State) : Host.Outcome State Fault Refusal :=
  alu (.bXor c d a b) c d a b [] s fun _ x y _ => x ^^^ y

/-- R462. -/
def shiftLeft (w x n : Nat) : Nat := if n < w then x * 2 ^ n % 2 ^ w else 0
def shiftRight (w x n : Nat) : Nat := if n < w then x / 2 ^ n else 0
def shiftArith (w x n : Nat) : Nat :=
  let neg := tb x (w - 1)
  if n < w then wrap (sext x w / ((2 ^ n : Nat) : Int)) w else if neg then 2 ^ w - 1 else 0

def execShl (c : Ctl) (d a : Code) (b : Src) (s : State) : Host.Outcome State Fault Refusal :=
  alu (.shl c d a b) c d a b [] s fun w x y _ => shiftLeft w x y

def execShr (c : Ctl) (d a : Code) (b : Src) (s : State) : Host.Outcome State Fault Refusal :=
  alu (.shr c d a b) c d a b [] s fun w x y _ => shiftRight w x y

def execSar (c : Ctl) (d a : Code) (b : Src) (s : State) : Host.Outcome State Fault Refusal :=
  alu (.sar c d a b) c d a b [] s fun w x y _ => shiftArith w x y

/-- R413. -/
def execFunl (c : Ctl) (d a : Code) (b : Src) (e : Code) (s : State) : Host.Outcome State Fault Refusal :=
  alu (.funl c d a b e) c d a b [e] s fun w x y z => (z * 2 ^ w + x) / 2 ^ (y % (2 * w)) % 2 ^ w

/-- R380: position and length of a field operand. -/
def fieldPos (w b : Nat) : Nat := min (bits b 0 7) w
def fieldLen (w b : Nat) : Nat := min (bits b 8 7) (w - fieldPos w b)

/-- R380: extract. -/
def bitExtract (sx : Bool) (w x b : Nat) : Nat :=
  let l := fieldLen w b
  let f := bits x (fieldPos w b) l
  if l = 0 then 0 else if sx then wrap (sext f l) w else f

/-- R380: insert. -/
def bitInsert (w x b z : Nat) : Nat :=
  let p := fieldPos w b
  let m := (2 ^ fieldLen w b - 1) * 2 ^ p
  (z &&& (2 ^ w - 1 - m)) ||| (x * 2 ^ p &&& m)

def execBfx (c : Ctl) (d a : Code) (b : Src) (sx : Bool) (s : State) : Host.Outcome State Fault Refusal :=
  alu (.bfx c d a b sx) c d a b [] s fun w x y _ => bitExtract sx w x y

def execBfi (c : Ctl) (d a : Code) (b : Src) (e : Code) (s : State) : Host.Outcome State Fault Refusal :=
  alu (.bfi c d a b e) c d a b [e] s fun w x y z => bitInsert w x y z

/-- R439. -/
def execPopc (c : Ctl) (d a : Code) (s : State) : Host.Outcome State Fault Refusal :=
  alu1 (.popc c d a) c d a s fun w x => popCount w x

/-- R396. -/
def leadingZeros (w x : Nat) : Nat := if x = 0 then w else w - 1 - Nat.log2 x

def execClz (c : Ctl) (d a : Code) (s : State) : Host.Outcome State Fault Refusal :=
  alu1 (.clz c d a) c d a s fun w x => leadingZeros w x

/-- R386: the low n bits in reverse order. -/
def reverseBits (n x : Nat) : Nat :=
  match n with
  | 0 => 0
  | n + 1 => x % 2 * 2 ^ n + reverseBits n (x / 2)

def execBrev (c : Ctl) (d a : Code) (s : State) : Host.Outcome State Fault Refusal :=
  alu1 (.brev c d a) c d a s fun w x => reverseBits w x

/-- R442: byte i of the result from its nibble. -/
def mixByte (fill : BitVec 2) (w pool n : Nat) : Nat :=
  if n < 8 ∨ fill = 0 then bits pool (8 * (n % (w / 4))) 8
  else if fill = 1 then 0
  else if fill = 2 then (if tb pool (8 * (n % 8) + 7) then 0xFF else 0)
  else 0xFF

/-- R442. -/
def mixBytes (fill : BitVec 2) (w pool sel k : Nat) : Nat :=
  match k with
  | 0 => 0
  | k + 1 => mixBytes fill w pool sel k + mixByte fill w pool (bits sel (4 * k) 4) * 2 ^ (8 * k)

def execMixb (c : Ctl) (d a : Code) (b : Src) (e : Code) (fill : BitVec 2) (s : State) :
    Host.Outcome State Fault Refusal :=
  alu (.mixb c d a b e fill) c d a b [e] s fun w x y z => mixBytes fill w (z * 2 ^ w + x) y (w / 8)

/-- R440: one product term. -/
def termTrue (terms x j : Nat) : Bool :=
  let care := bits terms (6 * j) 3
  care != 0 && (x &&& care) == bits terms (6 * j + 3) 3

def execPsop (c : Ctl) (d a b e : Code) (n : Bool) (terms : BitVec 24) (s : State) :
    Host.Outcome State Fault Refusal :=
  perform (.psop c d a b e n terms) c
    { fields := fun _ => [⟨d, .pout false⟩, ⟨a, .pin false⟩, ⟨b, .pin false⟩, ⟨e, .pin false⟩] } s fun v =>
    .ok (done v (writePred v v.s d fun l =>
      let x := val v a l * 4 + val v b l * 2 + val v e l
      ((upto 0 4).any fun j => termTrue terms.toNat x j) != n))

/-- R435. -/
def execMov (c : Ctl) (d a : Code) (b64 : Bool) (s : State) : Host.Outcome State Fault Refusal :=
  perform (.mov c d a b64) c
    { fields := fun k => if b64 && k == .group then [⟨d, .out 2⟩, ⟨a, .reg 2⟩] else [⟨d, .dst⟩, ⟨a, .src false⟩]
      modBad := fun e => b64 && e.kind != .group } s fun e =>
    .ok (done e (if b64 then writeRun e e.s d 2 fun l => val64 e a l else writeOut e e.s d fun l => val e a l))

/-- R436. -/
def execMovi (c : Ctl) (d : Code) (v : Word) (hi : Bool) (s : State) : Host.Outcome State Fault Refusal :=
  perform (.movi c d v hi) c
    { fields := fun _ => if hi then [⟨d, .dst⟩, ⟨d, .also 1⟩] else [⟨d, .dst⟩]
      modBad := fun e => hi && e.kind == .group } s fun e =>
    .ok (done e (writeOut e e.s d fun l =>
      if hi then v.toNat * 2 ^ 32 + regVal e d 0 l % 2 ^ 32 else srcVal e (.imm v) l))

end Sys2Proof.Machine
end

