-- ==== Sys2Proof/Machine/Float.lean ====
section
/-! DEFINITION. Class 1 and the floating-point instructions of class 2 (R105 to R119, R402 to R409, R426, R427, R397,
R398, R467, R468). -/

namespace Sys2Proof.Machine

/-- R105, R340: element j of a register image. -/
def elemOf (ty : BitVec 2) (x j : Nat) : Nat := if ty = 0 then x % 2 ^ 32 else bits x (16 * j) 16

/-- R105: one result for `.f32`, two for the packed types. -/
def packRes (ty : BitVec 2) (f : Nat → FRes) : FRes :=
  if ty = 0 then f 0
  else
    let lo := f 0
    let hi := f 1
    ⟨lo.bits + hi.bits * 2 ^ 16, lo.flags ||| hi.flags⟩

/-- A decoded element of an operand of a class-1 or class-2 instruction (R112). -/
def fpElem (ty : BitVec 2) (ftz : Bool) (x j : Nat) : Fp := fpIn (tyFmt ty) ftz (elemOf ty x j)

/-- The result that a lane computed. -/
def resOf (rs : List (Nat × FRes)) (l : Nat) : Nat :=
  match rs.find? fun r => r.1 == l with
  | some r => r.2.bits
  | none => 0

/-- R115: test the flags of all lanes, then write. -/
def fpFinish (e : Env) (rs : List (Nat × FRes)) (more : Nat) (write : State → (Nat → Nat) → State) :
    Except Stop State :=
  let f := rs.foldl (fun a r => a ||| r.2.flags) more
  match fpTest e.com f with
  | .error d => .error (.trap tcFp d 0)
  | .ok c => .ok (done e (write (modCom e.s e.p fun k => { k with fsr := c.fsr }) (resOf rs)))

/-- R403: D := the rounded result of A, B and C, element by element. -/
def fpAlu (i : Instr) (c : Ctl) (d a : Code) (b : Src) (more : List Code) (ty : BitVec 2) (s : State)
    (f : Env → Fp → Fp → Fp → FRes) : Host.Outcome State Fault Refusal :=
  perform i c
    { fields := fun _ => ⟨d, .dst⟩ :: ⟨a, .src true⟩ :: (srcField b true ++ more.map fun x => ⟨x, .src true⟩) } s
    fun e =>
      let ftz := fcrFtz e.com
      let one := fun l => packRes ty fun j =>
        f e (fpElem ty ftz (val e a l) j) (fpElem ty ftz (srcVal e b l) j) (fpElem ty ftz (val e (more.headD 0xD0) l) j)
      fpFinish e (e.act.map fun l => (l, one l)) 0 fun s v => writeOut e s d v

/-- R402: the mould with one source. -/
def fpUnary (i : Instr) (c : Ctl) (d a : Code) (ty : BitVec 2) (s : State) (f : Env → Fp → FRes) :
    Host.Outcome State Fault Refusal :=
  perform i c { fields := fun _ => [⟨d, .dst⟩, ⟨a, .src true⟩] } s fun e =>
    let ftz := fcrFtz e.com
    fpFinish e (e.act.map fun l => (l, packRes ty fun j => f e (fpElem ty ftz (val e a l) j))) 0
      fun s v => writeOut e s d v

def execFadd (c : Ctl) (d a : Code) (b : Src) (ty : BitVec 2) (rnd : BitVec 3) (s : State) :
    Host.Outcome State Fault Refusal :=
  fpAlu (.fadd c d a b ty rnd) c d a b [] ty s fun e x y _ => fpAdd (tyFmt ty) (rndMode e.com rnd) (fcrFtz e.com) x y

def execFsub (c : Ctl) (d a : Code) (b : Src) (ty : BitVec 2) (rnd : BitVec 3) (s : State) :
    Host.Outcome State Fault Refusal :=
  fpAlu (.fsub c d a b ty rnd) c d a b [] ty s fun e x y _ =>
    fpAdd (tyFmt ty) (rndMode e.com rnd) (fcrFtz e.com) x y.negate

def execFmul (c : Ctl) (d a : Code) (b : Src) (ty : BitVec 2) (rnd : BitVec 3) (s : State) :
    Host.Outcome State Fault Refusal :=
  fpAlu (.fmul c d a b ty rnd) c d a b [] ty s fun e x y _ => fpMul (tyFmt ty) (rndMode e.com rnd) (fcrFtz e.com) x y

def execFfma (c : Ctl) (d a : Code) (b : Src) (e : Code) (ty : BitVec 2) (rnd : BitVec 3) (s : State) :
    Host.Outcome State Fault Refusal :=
  fpAlu (.ffma c d a b e ty rnd) c d a b [e] ty s fun v x y z =>
    fpFma (tyFmt ty) (rndMode v.com rnd) (fcrFtz v.com) x y z

def execFmin (c : Ctl) (d a : Code) (b : Src) (ty : BitVec 2) (s : State) : Host.Outcome State Fault Refusal :=
  fpAlu (.fmin c d a b ty) c d a b [] ty s fun _ x y _ => fpMin (tyFmt ty) false x y

def execFmax (c : Ctl) (d a : Code) (b : Src) (ty : BitVec 2) (s : State) : Host.Outcome State Fault Refusal :=
  fpAlu (.fmax c d a b ty) c d a b [] ty s fun _ x y _ => fpMin (tyFmt ty) true x y

def execFdivf (c : Ctl) (d a : Code) (b : Src) (ty : BitVec 2) (rnd : BitVec 3) (s : State) :
    Host.Outcome State Fault Refusal :=
  fpAlu (.fdivf c d a b ty rnd) c d a b [] ty s fun e x y _ => fpDivf (tyFmt ty) (rndMode e.com rnd) (fcrFtz e.com) x y

/-- R408, R409. -/
def execFcmp (c : Ctl) (d a : Code) (b : Src) (ty : BitVec 2) (cond : BitVec 4) (comb : BitVec 2) (pc : Code)
    (s : State) : Host.Outcome State Fault Refusal :=
  let packed := ty != 0
  perform (.fcmp c d a b ty cond comb pc) c
    { fields := fun _ => ⟨d, .pout packed⟩ :: ⟨a, .src true⟩ ::
        (srcField b true ++ if comb = 0 then [] else [⟨pc, .pin packed⟩]) } s fun e =>
    let ftz := fcrFtz e.com
    let one := fun l j =>
      let x := fpElem ty ftz (val e a l) j
      let y := fpElem ty ftz (srcVal e b l) j
      let r := combine comb (fpCond cond.toNat x y) (comb != 0 && predVal e (predNum pc + j) l)
      (⟨r.toNat, if x.isSnan || y.isSnan then flNV else 0⟩ : FRes)
    let rs0 := e.act.map fun l => (l, one l 0)
    let rs1 := if packed then e.act.map fun l => (l, one l 1) else []
    fpFinish e rs0 (rs1.foldl (fun a r => a ||| r.2.flags) 0) fun s v =>
      let s := writePred e s d fun l => v l == 1
      if packed then writePred e s (d + 1) fun l => resOf rs1 l == 1 else s

/-- R406. -/
def execFrnd (c : Ctl) (d a : Code) (ty : BitVec 2) (rnd : BitVec 3) (s : State) : Host.Outcome State Fault Refusal :=
  fpUnary (.frnd c d a ty rnd) c d a ty s fun e x => fpRnd (tyFmt ty) (rndMode e.com rnd) x

/-- R407: the class mask of an element; the marker bit for `.f32` only. -/
def classMask (ty : BitVec 2) (x j : Nat) : Nat :=
  fpClass (tyFmt ty) (elemOf ty x j) + (if ty = 0 ∧ isMarker x then 1024 else 0)

def execFclass (c : Ctl) (d a : Code) (ty : BitVec 2) (s : State) : Host.Outcome State Fault Refusal :=
  perform (.fclass c d a ty) c { fields := fun _ => [⟨d, .dst⟩, ⟨a, .src false⟩] } s fun e =>
    .ok (done e (writeOut e e.s d fun l => (packRes ty fun j => ⟨classMask ty (val e a l) j, 0⟩).bits))

def execRcp (c : Ctl) (d a : Code) (ty : BitVec 2) (rnd : BitVec 3) (s : State) : Host.Outcome State Fault Refusal :=
  fpUnary (.rcp c d a ty rnd) c d a ty s fun e x => fpRcp (tyFmt ty) (rndMode e.com rnd) (fcrFtz e.com) x

def execRsq (c : Ctl) (d a : Code) (ty : BitVec 2) (rnd : BitVec 3) (s : State) : Host.Outcome State Fault Refusal :=
  fpUnary (.rsq c d a ty rnd) c d a ty s fun e x => fpRsq (tyFmt ty) (rndMode e.com rnd) (fcrFtz e.com) x

def execSqrt (c : Ctl) (d a : Code) (ty : BitVec 2) (rnd : BitVec 3) (s : State) : Host.Outcome State Fault Refusal :=
  fpUnary (.sqrt c d a ty rnd) c d a ty s fun e x => fpSqrt (tyFmt ty) (rndMode e.com rnd) (fcrFtz e.com) x

def execExp2 (c : Ctl) (d a : Code) (ty : BitVec 2) (rnd : BitVec 3) (s : State) : Host.Outcome State Fault Refusal :=
  fpUnary (.exp2 c d a ty rnd) c d a ty s fun e x => fpExp2 (tyFmt ty) (rndMode e.com rnd) (fcrFtz e.com) x

def execLog2 (c : Ctl) (d a : Code) (ty : BitVec 2) (rnd : BitVec 3) (s : State) : Host.Outcome State Fault Refusal :=
  fpUnary (.log2 c d a ty rnd) c d a ty s fun e x => fpLog2 (tyFmt ty) (rndMode e.com rnd) (fcrFtz e.com) x

def execTanh (c : Ctl) (d a : Code) (ty : BitVec 2) (rnd : BitVec 3) (s : State) : Host.Outcome State Fault Refusal :=
  fpUnary (.tanh c d a ty rnd) c d a ty s fun e x => fpTanh (tyFmt ty) (rndMode e.com rnd) (fcrFtz e.com) x

/-- R467: sine into D, cosine into D + 1. -/
def execSincos (c : Ctl) (d a : Code) (ty : BitVec 2) (rnd : BitVec 3) (s : State) : Host.Outcome State Fault Refusal :=
  perform (.sincos c d a ty rnd) c { fields := fun _ => [⟨d, .out 2⟩, ⟨a, .src true⟩] } s fun e =>
    let ftz := fcrFtz e.com
    let part := fun cosine l => packRes ty fun j =>
      fpTrig (tyFmt ty) (rndMode e.com rnd) ftz cosine (fpElem ty ftz (val e a l) j)
    let one := fun l =>
      let x := part false l
      let y := part true l
      (⟨x.bits + y.bits * 2 ^ 32, x.flags ||| y.flags⟩ : FRes)
    fpFinish e (e.act.map fun l => (l, one l)) 0 fun s v => writeRun e s d 2 v

/-- R398: distance of two elements of a format in a register, in bits. -/
def elemPitch (c : Nat) : Nat := if c = 5 ∨ c = 6 then 8 else fmtBits c

/-- R398: replace one element. -/
def putElem (fmt base sel x : Nat) : Nat :=
  let p := elemPitch fmt
  let old := bits base (p * sel) p
  base - old * 2 ^ (p * sel) + x % 2 ^ p * 2 ^ (p * sel)

/-- R397, R398. -/
def execCvt (c : Ctl) (d a e : Code) (mrg : Bool) (dsel ssel : BitVec 3) (sat : Bool) (rnd : BitVec 3) (df sf : BitVec 4)
    (s : State) : Host.Outcome State Fault Refusal :=
  perform (.cvt c d a e mrg dsel ssel sat rnd df sf) c
    { fields := fun _ => [⟨d, .dst⟩, ⟨a, .src (!isIntFmt sf)⟩] ++ if mrg then [⟨e, .src false⟩] else [] } s fun v =>
    let mode := rndMode v.com rnd
    let one := fun l =>
      let x := bits (val v a l) (elemPitch sf.toNat * ssel.toNat) (fmtBits sf.toNat)
      let r := convert sf.toNat df.toNat mode (fcrFtz v.com) sat x
      (⟨putElem df.toNat (if mrg then val v e l % 2 ^ 32 else 0) dsel.toNat r.bits, r.flags⟩ : FRes)
    fpFinish v (v.act.map fun l => (l, one l)) 0 fun s g => writeOut v s d g

end Sys2Proof.Machine
end

