-- ==== Sys2Proof/Machine/Cross.lean ====
section
/-! DEFINITION. The lane instructions of class 2: EDGE, RNGC, SWIZ, BALLOT, REDUX, SCAN (R123 to R125, R261, R376,
R457, R459, R463, R466). -/

namespace Sys2Proof.Machine

/-- R459. -/
def execRngc (c : Ctl) (d a b : Code) (s : State) : Host.Outcome State Fault Refusal :=
  perform (.rngc c d a b) c { fields := fun _ => [⟨d, .dst⟩, ⟨a, .src false⟩, ⟨b, .src false⟩] } s fun e =>
    .ok (done e (writeOut e e.s d fun l => rngc (val e a l) (val e b l)))

/-- R261: coverage of one pixel. -/
def edgeCovers (e00 steps pixel : Nat) : Bool :=
  let sa := sext steps 32
  let sb := sext (steps / 2 ^ 32) 32
  let v := sext e00 64 + 256 * ((bits pixel 0 3 : Nat) * sa + (bits pixel 3 3 : Nat) * sb)
  decide (v > 0) || (decide (v = 0) && (decide (sa > 0) || (decide (sa = 0) && decide (sb > 0))))

def execEdge (c : Ctl) (d a b e : Code) (conj : Bool) (s : State) : Host.Outcome State Fault Refusal :=
  perform (.edge c d a b e conj) c
    { fields := fun _ => [⟨d, .pout false⟩, ⟨a, .reg 2⟩, ⟨b, .reg 2⟩, ⟨e, .src false⟩] ++
        if conj then [⟨d, .pin false⟩] else [] } s fun v =>
    .ok (done v (writePred v v.s d fun l =>
      let cov := edgeCovers (val64 v a l) (val64 v b l) (val v e l)
      if conj then val v d l == 1 && cov else cov))

/-- R466: the lane that a lane reads. -/
def swizSource (mode : BitVec 2) (width lane : Nat) (b : Int) : Int :=
  if mode = 0 then b
  else if mode = 1 then lane + b
  else if mode = 2 then (lane + b) % width
  else ((lane ^^^ b.toNat : Nat) : Int)

def execSwiz (c : Ctl) (d a b : Code) (useImm : Bool) (imm7 : BitVec 7) (mode : BitVec 2) (s : State) :
    Host.Outcome State Fault Refusal :=
  perform (.swiz c d a b useImm imm7 mode) c
    { fields := fun _ => [⟨d, .dst⟩, ⟨a, .src false⟩] ++ if useImm then [] else [⟨b, .src false⟩] } s fun e =>
    let off : Nat → Int := fun l =>
      if useImm then (if mode = 1 then sext imm7.toNat 7 else (imm7.toNat : Int))
      else if mode = 1 then sext (val e b l) 32 else (val e b l : Int)
    .ok (done e (writeOut e e.s d fun l =>
      let t := swizSource mode e.tm.width l (off l)
      if decide (0 ≤ t) && decide (t < e.tm.width) && e.act.contains t.toNat then val e a t.toNat else val e a l))

/-- R376: the mask of `Active` lanes whose predicate is true. -/
def ballotMask (e : Env) (a : Code) : Nat := e.act.foldl (fun m l => m + val e a l * 2 ^ l) 0

def execBallot (c : Ctl) (d a : Code) (s : State) : Host.Outcome State Fault Refusal :=
  perform (.ballot c d a) c { fields := fun _ => [⟨d, .out 2⟩, ⟨a, .pin false⟩] } s fun e =>
    .ok (done e (writeRun e e.s d 2 fun _ => ballotMask e a))

/-- R123: the leaves: `Active` lanes' operands, the identity elsewhere. -/
def treeLeaves (e : Env) (a : Code) (op : Nat) : List Nat :=
  (upto 0 e.tm.width).map fun l => if e.act.contains l then treeIn op (fcrFtz e.com) (val e a l) else treeId op

/-- R457. -/
def execRedux (c : Ctl) (d a : Code) (op : BitVec 4) (rnd : BitVec 3) (s : State) : Host.Outcome State Fault Refusal :=
  perform (.redux c d a op rnd) c { fields := fun _ => [⟨d, .dst⟩, ⟨a, .src (op.toNat < 3)⟩] } s fun e =>
    let o := op.toNat
    let (levels, fl) := treeLevels (Nat.log2 e.tm.width) o (rndMode e.com rnd) (fcrFtz e.com) (treeLeaves e a o)
    let r := (nth levels (Nat.log2 e.tm.width) []).headD 0
    fpFinish e (e.act.map fun l => (l, ⟨r, fl⟩)) 0 fun s v => writeOut e s d v

/-- R124: the inclusive scan result of a lane, with the flags of its combining steps. -/
def scanLane (op mode : Nat) (ftz : Bool) (levels : List (List Nat)) (lane : Nat) : FRes :=
  let r := scanGo 7 op mode ftz levels (lane + 1) 0 none 0
  ⟨treeOut op r.1, r.2⟩

/-- R463. -/
def execScan (c : Ctl) (d a : Code) (op : BitVec 4) (rnd : BitVec 3) (x : Bool) (s : State) :
    Host.Outcome State Fault Refusal :=
  perform (.scan c d a op rnd x) c { fields := fun _ => [⟨d, .dst⟩, ⟨a, .src (op.toNat < 3)⟩] } s fun e =>
    let o := op.toNat
    let mode := rndMode e.com rnd
    let ftz := fcrFtz e.com
    let (levels, fl) := treeLevels (Nat.log2 e.tm.width) o mode ftz (treeLeaves e a o)
    let one : Nat → FRes := fun l =>
      if x then (if l = 0 then ⟨treeId o, 0⟩ else scanLane o mode ftz levels (l - 1)) else scanLane o mode ftz levels l
    fpFinish e (e.act.map fun l => (l, one l)) (if e.act.isEmpty then 0 else fl) fun s v => writeOut e s d v

end Sys2Proof.Machine
end

