-- ==== Sys2Proof/Machine/Save.lean ====
section
/-! DEFINITION. Team retirement, the save of pre-empted teams, rebalancing, the power alarm and the bandwidth windows
(R44, R45, R63, R65, R92, R163, R195, R218, R235, R256, R281, R282, R286, R287, R301 to R304, R307, R314). -/

namespace Sys2Proof.Machine

/-! ### Retirement (R45, R163, R235, R281, R307) -/

/-- Is a party one of a team's lead and groups? -/
def partyIs (t : Nat) : Party → Bool
  | .group a _ => a == t
  | .lead a => a == t
  | .porter _ _ => false

/-- R50, R231: the input binding of a request takes from a queue that the stage of a team pushes to, by its groups, its lead
or its porters. -/
def pushedBy (s : State) (t : Team) (inB : Nat) : Bool :=
  (allIsles s).any fun k => (getIsle s k.1 k.2).binds.any fun b => b.id == inB && b.inst == t.inst &&
    ((getQueue s b.inst b.q).map fun y => qPStage y.decl == t.stage).getD false

/-- R235: an island holds something of a team: a response or bin, or a stopped request. -/
def isleHolds (s : State) (id : Nat) (t : Team) (x : Island) : Bool :=
  let mine := fun (r : Response) => r.team == id || pushedBy s t r.inB
  x.resps.any mine || ((x.pass.map fun p => (p.bins.map (·.2)).any mine).getD false) ||
    (match x.fault with
      | some f => f.team == id || (match f.stopped with
        | .request .. => pushedBy s t f.bind
        | .resolve p _ => partyIs id p
        | .pool .. | .bins => false)
      | none => false)

/-- R45, R235: records that a stage pushed wait in a queue that an island takes from. -/
def recordsWait (s : State) (t : Team) : Bool :=
  match getInst s t.inst with
  | none => false
  | some i => (allIsles s).any fun k =>
    let x := getIsle s k.1 k.2
    x.binds.any fun b => b.inst == t.inst && isInput x b && (match Tab.find i.queues b.q with
      | some q => qPStage q.decl == t.stage && !q.recs.isEmpty
      | none => false)

/-- Outstanding operations of a team's parties. -/
def teamOps (t : Team) : List Op := t.lead.com.ops ++ t.groups.flatMap fun g => g.2.com.ops

/-- R401: every flag of a party counts 0. -/
def flagsClear (c : Common) : Bool := c.flags.all fun f => f.2 == 0

/-- A core is running its handler for a trap of the team. -/
def teamServed (s : State) (t : Nat) : Bool :=
  s.cores.any fun k => match k.2.serving with
    | some e => e.team == t
    | none => false

/-- R45: a team may retire. -/
def mayRetire (s : State) (id : Nat) (t : Team) : Bool :=
  !isHandler id && t.lead.com.st == .exited && (t.groups.all fun g => g.2.com.st == .exited) && (teamOps t).isEmpty &&
    flagsClear t.lead.com && (t.groups.all fun g => flagsClear g.2.com) && !portersBusy s id && !(s.cores.any fun k => k.2.me.any fun m => m.team == id) &&
    !((allIsles s).any fun k => isleHolds s id t (getIsle s k.1 k.2)) && !recordsWait s t && !teamServed s id

/-- R281: the completion stamp of a team. -/
def teamStamp (x : Launch) (t : Team) : Nat :=
  (0x80000000 + (if t.killed then 0x40000000 else 0) + x.queue * 2 ^ 8) * 2 ^ 32 + x.index % 2 ^ 32

/-- R281: the completion event. -/
def publish (s : State) (t : Team) : State :=
  match getLaunch s t.launch with
  | none => s
  | some x =>
    let s1 := if pkEvtarr x = 0 || x.ended then s
      else unitWriteAt s x.ctx (pkEvtarr x + 8 * t.idx) (bytesOf 8 (teamStamp x t))
    modLaunch s1 t.launch fun y =>
      { y with retired := y.retired + 1, killed := y.killed + t.killed.toNat, published := insSorted y.published t.idx,
               cores := y.cores ++ [(t.idx, t.core)] }

/-- Every binding of a team goes (R235); no end of a queue closes for it (R60, R250). -/
def dropBinds (s : State) (t : Nat) : State :=
  (allIsles s).foldl (fun s k =>
    ((getIsle s k.1 k.2).binds.filter fun b => b.team == t).foldl (fun s b => dropBinding s k.1 k.2 b) s) s

/-- R45, R36: a team's slots and storage are freed, with its instance when no stage is left, its queued traps and its
save; the tenancy ends with the last team. -/
def removeTeam (s : State) (id : Nat) (t : Team) : State :=
  let s1 := { s with teams := Tab.del s.teams id, saves := s.saves.filter fun v => v.team != id }
  let s2 := if (s1.teams.any fun y => y.2.inst == t.inst) then s1 else { s1 with insts := Tab.del s1.insts t.inst }
  let s3 := { s2 with cores := s2.cores.map fun k => (k.1, { k.2 with traps := k.2.traps.filter fun e => e.team != id }) }
  if t.resident then (teamCores t).foldl endTenancy s3 else s3

/-- TEAM_RETIREMENT (R45). -/
def execTeamRetirement (id : Nat) (s : State) : Host.Outcome State Fault Refusal :=
  match getTeam s id with
  | none => .next s
  | some t =>
    if !mayRetire s id t then .next s
    else
      let s1 := publish ((teamCores t).foldl drainCore s) t
      .next (closeEnds (removeTeam (dropBinds (barDropTeam s1 id) id) id t) t.inst)

/-! ### The save (R218, R286, R301 to R304) -/

/-- R286, R302: a party that pre-emption need not wait for. -/
def partyHalted (c : Common) : Bool := c.st != .running

/-- R92, R218, R293, R433: what a save finds outstanding: monitors that wait, with a region open the matrix commands that the
save abandons, and a load that has ended in poison under a party that stands at a trap, whose deferred trap the save keeps
(`saveCommon`). -/
def opSaved (region : Bool) (c : Common) (o : Op) : Bool :=
  (o.poisoned && awaits c) || (region && o.kind == .engine) || (match o.instr with
    | .monw .. => true
    | _ => false)

def comSaved (region : Bool) (c : Common) : Bool := c.ops.all (opSaved region c)

/-- R195: a transfer waits on its queue. -/
def xferWaits (s : State) (t : Team) (core num : Nat) (x : Xfer) : Bool :=
  let hi := min x.len (32 * x.next + 32)
  match getQueue s t.inst (xQueue x.instr) with
  | some y =>
    if !queueSide x.instr then false
    else if xSource x.instr = .queue then
      decide (32 * x.next + x.buf.length < hi) && (popIndex y (.porter core num)).isNone && !qEnded y (.porter core num)
    else decide (hi ≤ x.got) && decide (4 * qWords y.decl ≤ x.buf.length) && qFull y
  | none => false

/-- R195: a porter of the team stands at an instruction boundary. -/
def porterHalted (s : State) (id : Nat) (t : Team) (core num : Nat) : Bool :=
  let p := getPorter s core num
  p.team != some id || p.st == .idle || (p.inRegion && t.region.isSome) ||
    (p.pending.isNone && !(p.dropped && p.st == .running) && p.stamps.isEmpty && p.xfers.all (xferWaits s t core num))

/-- R44, R92, R195, R286, R302: a team can be saved. -/
def teamHalted (s : State) (id : Nat) (t : Team) : Bool :=
  t.resident && t.started && partyHalted t.lead.com && (t.groups.all fun g => partyHalted g.2.com) &&
    comSaved t.region.isSome t.lead.com && (t.groups.all fun g => comSaved t.region.isSome g.2.com) &&
    (teamCores t).all fun c =>
      let k := getCore s c
      k.serving.isNone && porterHalted s id t c 0 && porterHalted s id t c 1 &&
        (t.region.isSome || !(k.me.any fun m => m.team == id)) &&
        k.pool.all fun b => b.2.team != id || b.2.pend.isEmpty

/-- The teams of an instance. -/
def instTeams (s : State) (i : Nat) : List (Nat × Team) := s.teams.filter fun t => !isHandler t.1 && t.2.inst == i

/-- R314: the save area serves: always at the size that never fails, else as the part's own layout lets it. -/
def saveFits (s : State) (c : Nat) : Bool :=
  let cores := maxOf ((upto 0 4).map fun b => bits (pageReg s c (0x100 + 8 * b)).toNat 0 8) 0
  let size := forceReg s c 0x328
  decide (2654208 * max 1 cores ≤ size) || (decide (4096 ≤ size) && Config.freeSave s.tick)

/-- R314, R433: a pre-emption that fails: the teams keep running, and their monitors are armed again. -/
def saveFails (s : State) (i c : Nat) : State :=
  let run := fun (x : Common) => { x with st := if x.st = .stopped then .running else x.st }
  let f := fun (t : Nat × Team) =>
    if !isHandler t.1 && t.2.inst == i then
      (t.1, { t.2 with preempt := false, lead := { t.2.lead with com := run t.2.lead.com },
                       groups := t.2.groups.map fun g => (g.1, { g.2 with com := run g.2.com, live := none }) })
    else t
  let stopped := (allParties s).filter fun p =>
    ((getTeam s (teamOf s p)).map (·.inst)) == some i && ((getCom s p).map (·.st)) == some .stopped
  raiseCtx (stopped.foldl rearm { s with teams := s.teams.map f }) c 1

/-- R461, R334: a thread that goes back to its group's label, whose slot it enters. -/
def threadBack (pc : DWord) (r : Nat × DWord × Nat) (h : Thread) : Thread :=
  if h.live then
    let st := stackTo h.stack h.above r.2.2
    { h with pc := pc, wb := r.1, meet := r.2.1, stack := st.1, above := st.2, yld := false, hold := none, entered := true,
             arrived := true }
  else h

def groupBack (g : Group) : Group :=
  match g.label with
  | some l => if g.com.st = .exited then g else
    { g with rd := l.rd, thr := (g.thr.zip l.thr).map fun x => threadBack l.pc x.2 x.1 }
  | none => g

/-- R218: the team's own record when its region is open: the lead and the labelled groups go back, tiles are lost. -/
def regionBack (t : Team) : Team :=
  match t.region with
  | none => t
  | some r =>
    { t with
      lead := { t.lead with pc := r.pc, stack := (stackTo t.lead.stack t.lead.above r.depth).1,
                            above := (stackTo t.lead.stack t.lead.above r.depth).2, entered := true, arrived := true },
      dq := t.dq.take (t.dq.length - (t.wr - r.wr)), wr := r.wr,
      groups := t.groups.map fun g => (g.1, groupBack g.2),
      tiles0 := [], tiles1 := [], tpo0 := [], tpo1 := [] }

/-- R218: a party's matrix commands are abandoned: their attached flags count them no more. -/
def dropEngineOps (c : Common) : Common := (c.ops.filter fun o => o.kind == .engine).foldl endOp c

/-- R218: matrix commands are abandoned and the region's porters stopped. -/
def regionDrop (s : State) (id : Nat) (t : Team) : State :=
  if t.region.isNone then s
  else (teamCores t).foldl (fun s c => [0, 1].foldl (fun s n =>
    let p := getPorter s c n
    if p.team == some id && p.inRegion then porterIdle s c n else s) s) (modTeam (abandonCmds s id fun _ => true) id fun t =>
      { t with lead := { t.lead with com := dropEngineOps t.lead.com }
               groups := t.groups.map fun g => (g.1, { g.2 with com := dropEngineOps g.2.com }) })

/-- R304: what the cores hold for the team: porters, barriers, planes and queued traps leave them. -/
def takeCore (s : State) (id : Nat) (t : Team) (v : Saved) (half core : Nat) : State × Saved :=
  let k := getCore s core
  let ps := ([(0, k.p0), (1, k.p1)].filter fun p => p.2.team == some id && p.2.st != .idle).map fun p =>
    (half, p.1, { p.2 with wait := none })
  let mine := fun (p : Plane) => p.owner == some id
  let planes := if t.region.isSome then []
    else (([(false, k.active), (true, k.shadow)].filter fun p => mine p.2).map fun p => (half, p.1, p.2))
  let v1 := { v with
    porters := v.porters ++ ps, planes := v.planes ++ planes,
    bars := v.bars ++ (k.pool.filter fun b => b.2.team == id).map (fun b => (half, b.1, { b.2 with waiters := 0 })),
    traps := v.traps ++ k.traps.filter fun e => e.team == id && (match e.src with | .party _ => true | _ => false) }
  (modCore s core fun k =>
    { k with p0 := if k.p0.team == some id then .idle else k.p0, p1 := if k.p1.team == some id then .idle else k.p1,
             pool := k.pool.filter (fun b => b.2.team != id),
             active := if mine k.active then .empty else k.active, shadow := if mine k.shadow then .empty else k.shadow,
             traps := k.traps.filter fun e => e.team != id }, v1)

/-- R256: a suspended pass is written to the last 16 KiB of its pool; an access that fails is a fault of the save, raised
on resumption. -/
def suspendPass (s : State) (id : Nat) (t : Team) (v : Saved) (p : Pass) : State × Saved :=
  match poolState s p.ctx p.desc true with
  | .ok s1 => (s1, v)
  | .error e =>
    if v.faults.any fun f => f.1 == 0 then (s, v)
    else (s, { v with faults := v.faults ++
      [(0, 0, ⟨e.1, e.2.1, 0, BitVec.ofNat 64 e.2.2, 0, 0, id, t.core, false, .pool p.desc true⟩)] })

/-- R235, R256: what an island holds for the team leaves it; an open pass in which the team holds a binding is
suspended. A blend binding, which all the slices' islands hold, is saved once. -/
def takeIsle (s : State) (id : Nat) (t : Team) (v : Saved) (kind idx : Nat) : State × Saved :=
  let x := getIsle s kind idx
  let half := if kind = 1 ∨ kind = 2 then halfOf t idx else if kind = 3 then idx else 0
  let bs := x.binds.filter fun b => b.team == id
  let ids := bs.map (·.id)
  let rs := x.resps.filter fun r => ids.contains r.inB
  let f := x.fault.filter fun f => f.team == id
  let susp := kind == 0 && !bs.isEmpty && x.pass.isSome
  let ps := x.pass.map fun p => { p with susp := true }
  let v1 := { v with
    binds := v.binds ++ (if kind = 3 ∧ idx ≠ 0 then [] else bs.map fun b => (kind, half, b)), resps := v.resps ++ rs.map (fun r => (kind, half, r)),
    faults := v.faults ++ (f.toList.map fun f => (kind, half, f)), pass := if susp then ps else v.pass,
    paths := v.paths ++ x.paths.filter fun a => ids.contains a.bind }
  if bs.isEmpty && f.isNone then (s, v)
  else
    let s1 := setIsle s kind idx { x with
    binds := x.binds.filter (fun b => b.team != id), resps := x.resps.filter (fun r => !ids.contains r.inB),
    fault := if f.isSome then none else x.fault, paths := x.paths.filter (fun a => !ids.contains a.bind),
    pass := if susp then none else x.pass,
    pstat := if susp then BitVec.ofNat 64 ((ps.map fun p => passWord p false).getD 0) else x.pstat }
    match if susp then ps else none with
    | some p => suspendPass s1 id t v1 p
    | none => (s1, v1)

/-- R92, R293, R304: the flag counts that a save records: 0 but for pending monitors. A load that has ended in poison counts on
its flag no more; its trap waits behind the one at which the party stands (DEDUCED, log entry 35). -/
def saveCommon (c : Common) : Common :=
  match c.ops.filter (·.poisoned) with
  | [] => c
  | l => { c with late := true, flags := (l.filterMap (·.flag)).foldl (fun t f => Tab.put t f (Tab.get t f 0 - 1) 0) c.flags }

/-- R301: a group whose live threads all stopped at a WAYPT is saved without the blocks that its live mask leaves out. -/
def saveGroup (alloc : Nat) (g : Group) : Group :=
  let g := { g with com := saveCommon g.com }
  match g.live with
  | some m => { maskWindow g alloc m with live := none }
  | none => g

/-- R314: the bytes left for the save of a team: the saves of the teams of one core take at most 2,654,208. -/
def saveRoom (s : State) (t : Team) : Nat :=
  2654208 * (teamCores t).length -
    ((s.saves.filter fun v => v.core == t.core && v.launch == t.launch).map (·.bytes)).foldl (· + ·) 0

/-- R304: one team of an instance is saved. -/
def saveOne (s : State) (id : Nat) (t : Team) : State :=
  let s1 := regionDrop ((teamCores t).foldl drainCore s) id t
  let room := saveRoom s t
  let size := forceReg s t.ctx 0x328
  let v0 : Saved :=
    { team := id, ctx := t.ctx, launch := t.launch, core := t.core, bytes := (storePlan s size room id).2.length,
      porters := [], bars := [], planes := [], binds := [], resps := [], faults := [], pass := none, paths := [], traps := [] }
  let (s2, v1) := (teamCores t).zipIdx.foldl (fun a c => takeCore a.1 id t a.2 c.2 c.1) (s1, v0)
  let (s3, v2) := (allIsles s2).foldl (fun a k => takeIsle a.1 id t a.2 k.1 k.2) (s2, v1)
  let s4 := modTeam { s3 with saves := s3.saves ++ [v2] } id fun t =>
    { regionBack { t with groups := t.groups.map (fun g => (g.1, saveGroup t.alloc g.2)),
                          lead := { t.lead with com := saveCommon t.lead.com } } with
        resident := false, preempt := false, started := false }
  (teamCores t).foldl endTenancy (storeWrite s4 t.ctx (forceReg s t.ctx 0x320) size room id)

/-- TEAM_SAVE (R286, R304): a kernel team, or a pipeline instance whole (R305). -/
def execTeamSave (id : Nat) (s : State) : Host.Outcome State Fault Refusal :=
  match getTeam s id with
  | none => .next s
  | some t =>
    let all := instTeams s t.inst
    if isHandler id || !t.preempt || !(all.all fun x => teamHalted s x.1 x.2) then .next s
    else if !saveFits s t.ctx then .next (saveFails s t.inst t.ctx)
    else .next (all.foldl (fun s x => match getTeam s x.1 with
      | some y => saveOne s x.1 y
      | none => s) s)

/-! ### Rebalancing (R63, R65) -/

/-- Visible records of a queue. -/
def visibleIn (x : Instance) (q : Nat) : Nat := ((Tab.find x.queues q).map fun y => (y.recs.filter (·.vis)).length).getD 0

/-- The groups a stage holds. -/
def stageGroups (s : State) (st : Stage) : List (Nat × Group) := ((getTeam s st.team).map fun t => t.groups).getD []

/-- R63: some thread of the stage's groups has executed EXIT. -/
def stageExited (s : State) (st : Stage) : Bool :=
  st.exited || (stageGroups s st).any fun g => g.2.thr.any fun h => !h.live

/-- R63: the stage is a donor candidate. -/
def donor (s : State) (x : Instance) (st : Stage) : Bool :=
  match st.inq with
  | some q => !x.qseen.contains q && visibleIn x q == 0 && decide (st.gmin < (stageGroups s st).length) && !stageExited s st
  | none => false

/-- R63: the stage is a recipient candidate. -/
def recipient (s : State) (x : Instance) (st : Stage) : Bool :=
  match st.inq with
  | some q => decide (((Tab.find x.queues q).map fun y => qDepth y.decl).getD 0 * 3 < visibleIn x q * 4) &&
    decide ((stageGroups s st).length < st.gmax) && !stageExited s st
  | none => false

/-- The opcodes whose third source stands in MOD in the RRI format (R337). -/
def hasC (op : Nat) : Bool := [0x004, 0x005, 0x006, 0x00B, 0x017, 0x019, 0x01D, 0x083].contains op

/-- R54, R55, R450: the instruction word pops queue `q`. -/
def popsQueue (w q : Nat) : Bool :=
  let op := bits w 86 10
  let here := fun (lo : Nat) => bits w lo 8 == 0xA0 + q
  match decode w with
  | .error _ => false
  | .ok (.qpop _ _ n _) => n.toNat == q
  | .ok _ => decide (op < 0x180) && (here 61 ||
      if bits w 83 3 == 0 then here 53 || here 45 else hasC op && here (if op == 0x083 then 5 else 0))

/-- R231: a group holds a request that an island has not completed, or a response not yet delivered. -/
def groupOwed (s : State) (p : Party) : Bool :=
  (allIsles s).any fun k =>
    let x := getIsle s k.1 k.2
    let mine := fun (r : Response) => r.producer == some p
    x.resps.any mine || ((x.pass.map fun p => (p.bins.map (·.2)).any mine).getD false) ||
      (match x.fault.map (fun (f : IFault) => f.stopped) with | some (.request q _ _) => q == some p | _ => false) ||
      x.binds.any fun b => isInput x b && ((getQueue s b.inst b.q).map fun y => y.recs.any fun r => r.tag == some p).getD false

/-- R63, R231: the group stands idle at an instruction that pops queue `q`. -/
def idleAt (s : State) (t n ctx q : Nat) (g : Group) : Bool :=
  let pcs := g.thr.map (·.pc)
  let pc := pcs.headD 0
  g.com.st == .running && g.com.stall == some .queueEmpty && pcs.all (· == pc) &&
    flagsClear g.com && !groupOwed s (.group t n) &&
    (match (findLine s.fbuf g.core ctx (lineOf pc)).or (findLine s.icache g.core ctx (lineOf pc)) with
      | some l => popsQueue (slotWord l.data (slotOf pc)) q
      | none => false)

/-- R63: one partition: an idle group of the donor goes and a group of the recipient starts in its place. -/
def rebalancePart (d r : Stage) (q : Nat) (s : State) (core part : Nat) : State :=
  match getTeam s d.team, getTeam s r.team with
  | some dt, some rt =>
    if dt.groups.length ≤ d.gmin ∨ r.gmax ≤ rt.groups.length then s
    else match (dt.groups.filter fun g => g.2.core == core && g.2.part == part && idleAt s d.team g.1 dt.ctx q g.2).getLast? with
      | none => s
      | some (n, g) =>
        let s1 := syncAdvance (setTeam s d.team { dt with groups := Tab.del dt.groups n }) d.team
        let id := ((upto 0 32).find? fun k => (Tab.find rt.groups k).isNone).getD 0
        modTeam s1 r.team fun t =>
          { t with groups := Tab.set t.groups id (startGroup t.width core part g.slot t.wr t.syncP r.grpEntry) }
  | _, _ => s

/-- R63: the move at the last cycle of an interval. -/
def rebalance (s : State) (x : Instance) : State :=
  let sts := x.stages.map (·.2)
  match sts.find? (donor s x), sts.find? (recipient s x) with
  | some d, some r =>
    (unitCores x.pair x.core).foldl (fun s c => (upto 0 8).foldl (fun s p => rebalancePart d r (d.inq.getD 0) s c p) s) s
  | _, _ => s

/-- REBALANCE_INTERVAL (R63, R65): the interval of an instance ends, and the next begins. -/
def execRebalanceInterval (inst : Nat) (s : State) : Host.Outcome State Fault Refusal :=
  match getInst s inst with
  | none => .next s
  | some x =>
    let ts := instTeams s inst
    let here := !ts.isEmpty && ts.all fun t => t.2.resident
    let still := ts.any fun t => t.2.preempt
    let s1 := if here && x.resident && !still then rebalance s x else s
    .next (modInst s1 inst fun y =>
      { y with resident := here, qseen := (y.queues.map (·.1)).filter fun q => visibleIn y q != 0,
               stages := y.stages.map fun st => (st.1, { st.2 with exited := stageExited s1 st.2 }) })

/-! ### Power and bandwidth (R282, R287) -/

/-- R287: the cores whose credits are revoked come first in the order of their tenancies' `PRIO`, highest first. -/
def revokeOrder (s : State) (cores : List Nat) : Bool :=
  let prio := fun c => ((tenancyOf s c).map fun t => launchPrio t.2).getD 0
  (upto 0 Config.cores).all fun c => cores.contains c || (getCore s c).narrow ||
    cores.all fun d => decide (prio c ≤ prio d)

/-- POWER_ALARM_RAISE (R287): the alarm, and the cores whose credits are revoked so far. -/
def execPowerAlarmRaise (cores : List Nat) (s : State) : Host.Outcome State Fault Refusal :=
  if cores.all (fun c => decide (c < Config.cores)) && revokeOrder s cores then
    .next (cores.foldl (fun s c => modCore s c fun k => { k with narrow := true }) { s with alarm := true })
  else .next s

/-- POWER_ALARM_LOWER (R287). -/
def execPowerAlarmLower (s : State) : Host.Outcome State Fault Refusal :=
  .next { s with alarm := false, cores := s.cores.map fun k => (k.1, { k.2 with narrow := false }) }

/-- R282: bytes that a controller moved for a context in the window that closes: none for a context that is FREE, and at
most the window's capacity. -/
def windowBytes (s : State) (mc c : Nat) : Nat :=
  if (getCtx s c).st = 0 then 0 else min 655360 (Tab.get s.bwNow (mc * 128 + c) 0)

/-- BANDWIDTH_WINDOW_END (R282): a controller's window closes with the bytes it moved for each context. -/
def execBandwidthWindowEnd (mc : Nat) (s : State) : Host.Outcome State Fault Refusal :=
  if mc < 32 then
    .next { s with bwLast := (upto 0 96).foldl (fun t c => Tab.put t (mc * 128 + c) (windowBytes s mc c) 0) s.bwLast
                   bwNow := s.bwNow.filter fun x => x.1 / 128 != mc }
  else .next s

end Sys2Proof.Machine
end

