-- ==== Sys2Proof/Machine/Host.lean ====
section
/-! DEFINITION. The host's side: the device and context pages, TLB invalidation, escalations, resets, bring-up, BAR2,
CXL.mem, system space and virtual functions (R21, R26, R98, R131, R140, R165, R276, R298, R299, R309 to R317, R325,
R326). -/

namespace Sys2Proof.Machine

/-! ### Partitions of the stacked cache (R140) -/

/-- R140: a partition passes to another owner: its lines leave, written back, with their pins. -/
def handOver (s : State) (p : Nat) : State := { s with sc := s.sc.filter fun l => l.part != p }

/-- R312: a write of `SCOWN`. -/
def writeScown (s : State) (p : Nat) (v : Byte) : State :=
  let s1 := setDev s (0x1410 + p) (v.setWidth 64)
  if scOwner s1 p = scOwner s p then s1 else handOver s1 p

/-- SCOWN_WRITE (R140, R312). -/
def execScownWrite (p : Nat) (v : Byte) (s : State) : Host.Outcome State Fault Refusal :=
  .next (if s.ready && decide (p < 16) then writeScown s p v else s)

/-- ECCCNT_CLEAR (R312). -/
def execEcccntClear (s : State) : Host.Outcome State Fault Refusal := .next (if s.ready then setDev s 0x28 0 else s)

/-! ### TLB invalidation (R315) -/

/-- R315: bytes (log2) of the page that `TLBINV` names. -/
def invSize (v : Nat) : Nat := match v % 4 with
  | 0 => 12
  | 1 => 16
  | 2 => 21
  | _ => 30

/-- R315: a translation of 2^lg bytes from page `vpn` lies in what `TLBINV` names. -/
def invHits (v vpn lg : Nat) : Bool :=
  let n := max lg (invSize v)
  tb v 62 || vpn * 2 ^ lg / 2 ^ n == bits v 12 37 * 4096 / 2 ^ n

/-- TLBINV_WRITE (R314, R315). -/
def execTlbinvWrite (c : Nat) (v : DWord) (s : State) : Host.Outcome State Fault Refusal :=
  if !pageOpen s c || (getCtx s c).st == 0 || (getCtx s c).tlbinv.isSome then .next s
  else
    let w := BitVec.ofNat 64 (bits v.toNat 62 2 * 2 ^ 62 + bits v.toNat 12 37 * 4096 + v.toNat % 4)
    let s1 := setPage s c 0x308 w
    .next (if tb v.toNat 63 then modCtx s1 c fun x => { x with tlbinv := some w } else s1)

/-- TLB_INVALIDATION_DONE (R315): the translations are gone, and so are the walks outstanding for them. -/
def execTlbInvalidationDone (c : Nat) (s : State) : Host.Outcome State Fault Refusal :=
  match (getCtx s c).tlbinv with
  | none => .next s
  | some v =>
    let s1 := { s with tlb := s.tlb.filter (fun e => !(e.ctx == c && invHits v.toNat e.vpn e.lg))
                       walks := s.walks.filter fun w => !(w.ctx == c && invHits v.toNat w.vpn 12) }
    .next (modCtx (setPage s1 c 0x308 (v &&& 0x7FFFFFFFFFFFFFFF#64)) c fun x => { x with tlbinv := none })

/-! ### Escalations (R298, R299, R314) -/

/-- R299: the host's action on the trap of a handler of context `c`. While the escalation stands no other handler of the
context enters on the core (`handlerHeld`), so one that is there is the one that escalated. A core's reset has killed it,
with the team that it served (R325): then the action finds nothing to act on. -/
def handlerAction (s : State) (c : Nat) (e : Escalation) (act : Nat) : State :=
  let s1 := modCore s e.core fun k => { k with blocked := false }
  if ((getTeam s (Config.handlerBase + e.core)).map (·.ctx)) ≠ some c then s
  else if act = 2 then
    let s2 := endHandler s1 e.core
    match (getCore s e.core).serving with
    | some t => killTeam s2 t.team
    | none => s2
  else applyAction s1 e.core e.trap act

/-- TRAPACT_WRITE (R298, R299, R314). -/
def execTrapactWrite (c : Nat) (v : DWord) (s : State) : Host.Outcome State Fault Refusal :=
  if !pageOpen s c || (getCtx s c).st == 0 || !tb v.toNat 8 || bits v.toNat 0 2 == 3 then .next s
  else match (getCtx s c).escalations with
    | [] => .next s
    | e :: r =>
      let s1 := modCtx s c fun x => { x with escalations := r }
      .next (if e.handler then handlerAction s1 c e (bits v.toNat 0 2) else endTrap s1 e.core e.trap (bits v.toNat 0 2))

/-! ### Resets (R325) -/

/-- A matrix command stands in a core's queue. -/
def cmdOn (k : Core) (m : MeCmd) : Bool :=
  k.me.any fun x => x.team == m.team && x.id == m.id && x.pair == m.pair && (x.pair || x.half == m.half)

/-- R325: a core is reset: its teams are killed, it is zeroed and `%cycle` restarts. Commands begun on the other core of a
pair go on, as at TRET kill (R298). -/
def resetCore (s : State) (core : Nat) : State :=
  let ts := teamsOn s core
  let s1 := ts.foldl (fun s t => let s := killTeam s t.1; abandonCmds s t.1 (cmdOn (getCore s core))) s
  let s2 := zeroCore (endHandler s1 core) core
  modCore s2 core fun k => { k with traps := [], cycle := 0, ptest := 0 }

/-- CORE_RESET (R312, R325). -/
def execCoreReset (core : Nat) (s : State) : Host.Outcome State Fault Refusal :=
  .next (if s.ready && decide (core < Config.cores) then resetCore s core else s)

/-- R325: a team of a reset context stops, unsaved and unpublished. -/
def dropTeam (s : State) (id : Nat) : State :=
  let s1 := abandonCmds (stopPorters (stopTeam s id) id) id fun _ => true
  match getTeam s1 id with
  | some t => removeTeam (dropBinds (barDropTeam s1 id) id) id t
  | none => s1

/-- R325: the handlers that run for a context end, and its queued traps go. -/
def dropHandlers (s : State) (c : Nat) : State :=
  s.cores.foldl (fun s k =>
    let run := ((getTeam s (Config.handlerBase + k.1)).map (·.ctx)) == some c
    let s1 := if run then endHandler s k.1 else s
    modCore s1 k.1 fun y => { y with traps := y.traps.filter fun e => ((getTeam s e.team).map (·.ctx)) != some c }) s

/-- R98, R140, R229, R325: cores, partitions and islands that the context held change owner with zeroing. -/
def dropHoldings (s : State) (c : Nat) : State :=
  let s1 := s.cores.foldl (fun s k =>
    if k.2.lastCtx = some c then
      modCore (zeroCore s k.1) k.1 fun y => { y with tenant := none, lastCtx := none, zeroing := false, copying := false }
    else s) s
  let s2 := (upto 0 16).foldl (fun s p => if scOwner s p = some c then writeScown s p 0 else s) s1
  (allIsles s2).foldl (fun s k => if (getIsle s k.1 k.2).owner = some c then setIsle s k.1 k.2 .empty else s) s2

/-- R319, R325: a context becomes FREE: slots, translations, code and registers go. -/
def freeContext (s : State) (c : Nat) : State :=
  { setCtx s c .free with
    slots := s.slots.filter (fun k => k.2 != c), tlb := s.tlb.filter (fun e => e.ctx != c),
    walks := s.walks.filter (fun w => w.ctx != c), icache := s.icache.filter (fun l => l.ctx != c),
    fbuf := s.fbuf.filter (fun l => l.ctx != c), want := s.want.filter (fun w => w.2.1 != c),
    saves := s.saves.filter (fun v => v.ctx != c), launches := s.launches.filter (fun l => l.2.ctx != c),
    page := s.page.filter (fun r => r.1 / 0x10000 != c) }

/-- The teams of a context. -/
def ctxTeams (s : State) (c : Nat) : List Nat := (s.teams.filter fun t => !isHandler t.1 && t.2.ctx == c).map (·.1)

/-- R281, R325: the teams of a context that the handler has killed and that have not retired count for their launches. -/
def countKilled (s : State) (c : Nat) : State :=
  (s.teams.filter fun t => !isHandler t.1 && t.2.ctx == c && t.2.killed).foldl (fun s t =>
    modLaunch s t.2.launch fun x => { x with killed := x.killed + 1 }) s

/-- R325: a context gives up all it runs and holds; `ends` says that its open launches end with CODE 0x05. -/
def resetContext (s : State) (c : Nat) (ends : Bool) : State :=
  let s1 := (s.cores.filter fun k => k.2.lastCtx == some c).foldl (fun s k => drainCore s k.1) s
  let s2 := (ctxTeams s1 c).foldl dropTeam (dropHandlers (countKilled s1 c) c)
  let open' := s2.launches.filter fun l => l.2.ctx == c && !l.2.ended
  let s3 := if ends then open'.foldl (fun s l => endLaunch s l.1 5) s2 else s2
  freeContext (dropHoldings s3 c) c

/-- R325: a reset discards the pending command that names the context. -/
def dropCommand (s : State) (c : Nat) : State :=
  match s.command with
  | some x => if x.ctx = c then setDev { s with command := none } 0x8 (devReg s 0x8 &&& 0xFFFFFFFFFFFFFFF7#64) else s
  | none => s

/-- VF_FUNCTION_LEVEL_RESET (R310, R325). -/
def execVfFunctionLevelReset (vf : Nat) (s : State) : Host.Outcome State Fault Refusal :=
  if vf = 0 ∨ s.vfs < vf then .next s
  else
    let s1 := dropCommand s (64 + vf)
    .next (if (getCtx s1 (64 + vf)).st = 0 then s1 else resetContext s1 (64 + vf) true)

/-- DEVICE_RESET (R325, R326 step 4). Host memory in system space stays, and the vectors already raised. -/
def execDeviceReset (s : State) : Host.Outcome State Fault Refusal :=
  let s1 := s.ctxs.foldl (fun s x => if x.2.st = 0 then s else resetContext s x.1 true) s
  .next { State.reset with
    agenda := s1.agenda, tick := s1.tick, boots := s1.boots + 1, exports := s1.exports, msix := s1.msix,
    refused := s1.refused, mem := s1.mem.filter (fun x => isSys x.1), poison := s1.poison.filter (fun x => isSys (32 * x)) }

/-- HKC_BRINGUP_COMPLETE (R312, R326). -/
def execHkcBringupComplete (s : State) : Host.Outcome State Fault Refusal :=
  if s.ready || !Config.firmwareOk s.boots then .next s
  else
    let stat := 1 + 2 * (Config.kduOk s.boots).toNat + 4 * (Config.trng s.tick).isSome.toNat
    let s1 := setDev (setDev s 0x8 (BitVec.ofNat 64 stat)) 0x10 (BitVec.ofNat 64 Config.memCap)
    .next { setDev s1 0x18 (Config.errata s.boots) with ready := true }

/-! ### Register writes (R276, R284, R312 to R314) -/

/-- R20, R312, R320: a write of `CTXCMD` starts a command unless one runs. -/
def writeCmd (s : State) (v : Nat) : State :=
  if s.command.isSome then s
  else
    let s1 := setDev (setDev s 0x100 (BitVec.ofNat 64 (v % 2 ^ 15))) 0x8 (devReg s 0x8 ||| 8#64)
    { s1 with command := some ⟨v % 256, bits v 8 7, (devReg s 0x108).toNat, false, none⟩ }

/-- R312, R313: a write of the device page. Everything else there ignores it. -/
def writeDevice (s : State) (off v : Nat) : State :=
  let put := fun m => setDev s off (BitVec.ofNat 64 m)
  if off = 0x20 then put (max 250 (min 420 (v % 512)))
  else if off = 0x28 then put 0
  else if off = 0x100 then writeCmd s v
  else if off = 0x108 then put (bits v 6 40 * 64)
  else if off = 0x200 then (if tb v 7 && decide (v % 128 < Config.cores) then resetCore s (v % 128) else s)
  else if 0x1000 ≤ off ∧ off < 0x1400 ∧ off % 2 = 0 then put (v % 2 ^ 16)
  else if 0x1400 ≤ off ∧ off < 0x1410 then put (v % 16)
  else if 0x1410 ≤ off ∧ off < 0x1420 then writeScown s (off - 0x1410) (BitVec.ofNat 8 v)
  else if 0x2000 ≤ off ∧ off < 0x2600 ∧ off % 16 = 0 then put (bits v 32 10 * 2 ^ 32 + v % 2 ^ 10)
  else if 0x2000 ≤ off ∧ off < 0x2600 ∧ off % 16 = 8 then put (bits v 48 16 * 2 ^ 48 + bits v 1 3 * 2)
  else s

/-- R314: fields of the registers that a tenancy brings into force. -/
def forceMask (off v : Nat) : Nat := match off with
  | 0x300 => bits v 13 33 * 2 ^ 13
  | 0x320 | 0x330 => bits v 12 34 * 4096
  | _ => v

/-- R314: a context-page register; in force at once while no team of the context is resident. -/
def writeForce (s : State) (c off v : Nat) : State :=
  if (getCtx s c).st = 0 then s
  else
    let w := BitVec.ofNat 64 (forceMask off v)
    let s1 := setPage s c off w
    if s.teams.any (fun t => t.2.ctx == c && t.2.resident) then s1
    else modCtx s1 c fun x => { x with force := Tab.put x.force off w 0 }

/-- R310: what an offset of a BAR0 leads to: the device page or a context's page, and the offset in it; `none`: a place that
reads zero and ignores writes. A VF that is not enabled has no BAR0, and no VF has the device page. -/
def barPage (s : State) (b : Bar0) (off : Nat) : Option (Option Nat × Nat) :=
  match b with
  | .pf =>
    if off < 0x100000 then some (none, off)
    else if off < 0x100000 + 96 * 0x10000 then some (some ((off - 0x100000) / 0x10000), off % 0x10000)
    else none
  | .vf v => if 1 ≤ v ∧ v ≤ s.vfs ∧ off < 0x10000 then some (some (64 + v), off) else none

/-- REGISTER_WRITE (R26, R310, R312 to R314): `off` is an offset in the BAR0. -/
def execRegisterWrite (bar : Bar0) (off : Nat) (v : DWord) (s : State) : Host.Outcome State Fault Refusal :=
  match barPage s bar off with
  | none => .next s
  | some (none, off) => .next (if s.ready then writeDevice s off v.toNat else s)
  | some (some c, off) =>
    if !pageOpen s c then .next s
    else if off < 0x80 ∧ off % 16 = 0 then execLqcfgWrite c (off / 16) v s
    else if off < 0x80 ∧ off % 16 = 8 then execLqwrWrite c (off / 16) (v.setWidth 32) s
    else if 0x100 ≤ off ∧ off < 0x120 ∧ off % 8 = 0 then .next (setPage s c off (BitVec.ofNat 64 (v.toNat % 2 ^ 24)))
    else if off = 0x200 then execDeadlineApproach c (v.setWidth 32) s
    else if forceOffsets.contains off then .next (writeForce s c off v.toNat)
    else if off = 0x308 then execTlbinvWrite c v s
    else if off = 0x380 then execTrapactWrite c v s
    else .next s

/-! ### Register reads (R276, R284, R312 to R314, R319) -/

/-- R314: field j of `TRAPREC`: code, detail, `%trappc`, `%faultva`, `%trapsrc` and core of the oldest escalation. -/
def trapRecord (s : State) (c j : Nat) : Nat :=
  match (getCtx s c).escalations with
  | [] => 0
  | e :: _ =>
    nth [e.trap.info.code.toNat, e.trap.info.detail.toNat, e.trap.info.pc.toNat, e.trap.info.va.toNat, e.srcWord.toNat,
      e.core] j 0

/-- What a host read of the register at an offset of a BAR0 returns; a read changes nothing. -/
def hostRegister (s : State) (bar : Bar0) (off : Nat) : DWord :=
  match barPage s bar off with
  | none => 0
  | some (none, off) => if off = 0x200 then 0 else devReg s off
  | some (some c, off) =>
    if !pageOpen s c then 0
    else if 0x340 ≤ off ∧ off < 0x380 ∧ off % 8 = 0 then BitVec.ofNat 64 (trapRecord s c ((off - 0x340) / 8))
    else if off = 0x388 then BitVec.ofNat 64 ((getCtx s c).slots.length * 2 ^ 8 + (getCtx s c).st)
    else if 0x390 ≤ off ∧ off < 0x394 then
      BitVec.ofNat 64 (ofBytes (((getCtx s c).slots.map fun (k : Nat) => BitVec.ofNat 8 k).drop (off - 0x390)))
    else pageReg s c off

/-! ### BAR2, CXL.mem, system space and VFs (R165, R309, R310, R316, R317) -/

/-- R147, R317: bytes as the slices hold them, with poison; the manual states none beyond `MEMCAP`. -/
def hostBytes (s : State) (pa n : Nat) : List Byte × Bool :=
  ((upto pa n).map fun a => if a < memCap s then cellGet s.mem a else (Config.freeWord (s.tick + a)).setWidth 8,
    (upto pa n).any fun a => decide (a < memCap s) && s.poison.contains (a / 32))

/-- BAR2_WRITE (R317). -/
def execBar2Write (off : Nat) (data : List Byte) (s : State) : Host.Outcome State Fault Refusal :=
  .next (if s.ready then hostWrite s off data else s)

/-- BAR2_READ (R317). -/
def execBar2Read (off n : Nat) (s : State) : Host.Outcome State Fault Refusal :=
  .next (if s.ready then { s with hostRead := some (hostBytes s off n) } else s)

/-- R144, R367: a host atomic of 4 or 8 aligned bytes below `MEMCAP`. -/
def hostAtomicOk (s : State) (pa n op : Nat) : Bool :=
  (n == 4 || n == 8) && decide (op ≤ 10) && (op != 10 || n == 4) && pa % n == 0 && decide (pa + n ≤ memCap s)

/-- R144, R367: a host atomic at its slice, after the device requesters of the same cycle; the old value returns to the
host. On poison nothing is written. -/
def hostAtomic (s : State) (pa n op data cmp : Nat) : State :=
  let s := applyLanes s (reached (Config.freeArrive s.tick) (atomicQueue s pa))
  let (img, bad) := sliceRead s (pa / 32)
  let old := ofBytes ((img.drop (pa % 32)).take n)
  let (mask, new) := placeBytes (pa % 32) (bytesOf n (atomicNew op (8 * n) old (data % 2 ^ (8 * n)) (cmp % 2 ^ (8 * n))))
  let s1 := if bad then s else sliceWrite s 0 (pa / 32) mask new false
  { s1 with hostRead := some (bytesOf n old, bad), bwNow := s.bwNow }

/-- HOST_CXL_MEM_ACCESS (R139, R144, R147, R165). -/
def execHostCxlMemAccess (pa n : Nat) (acc : CxlAccess) (s : State) : Host.Outcome State Fault Refusal :=
  if !s.ready then .next s
  else match acc with
    | .write l => .next (hostWrite s pa (l.take n))
    | .read => .next { s with hostRead := some (hostBytes s pa n) }
    | .atomic op data cmp =>
      .next (if hostAtomicOk s pa n op.toNat then hostAtomic s pa n op.toNat data.toNat cmp.toNat else s)

/-- SYSTEM_SPACE_REFUSAL (R316): the link will refuse the next request to the sector of `pa`. -/
def execSystemSpaceRefusal (pa : Nat) (s : State) : Host.Outcome State Fault Refusal :=
  .next (if isSys pa then { s with refused := insSorted s.refused (pa / 32) } else s)

/-- VF_ENABLE (R309, R310): `n` virtual functions are enabled from now on. -/
def execVfEnable (n : Nat) (s : State) : Host.Outcome State Fault Refusal :=
  .next (if s.ready && decide (n ≤ 31) then { s with vfs := n } else s)

end Sys2Proof.Machine
end

