-- ==== Sys2Proof/Machine/Hkc.lean ====
section
/-! DEFINITION. The HKC's context commands (R318 to R324). -/

namespace Sys2Proof

/-- R323: what an image that another device made holds, from memory and the image's address; `none` when it is
malformed or sealed to another device (log entry 21). -/
opaque Config.foreignImage : List Host.Cell → Nat → Option Machine.Exported

namespace Machine

/-! ### Physical bytes and statuses (R320) -/

/-- R320: a physical range that exists. -/
def physOk (s : State) (pa n : Nat) : Bool := decide (pa + n ≤ memCap s) || (isSys pa && decide (pa + n ≤ 2 ^ 46))

/-- Bytes that the HKC reads at the slices; none when the range does not exist or holds poison. -/
def physRead (s : State) (pa n : Nat) : Option (List Byte) :=
  if physOk s pa n && !((upto (pa / 32) ((pa + n + 31) / 32 - pa / 32)).any fun k => (sliceRead s k).2) then
    some (cellsGet s.mem pa n)
  else none

/-- Bytes that the HKC writes at a physical address that the host named; none when the range does not exist. Such bytes, and
those that it reads so, count for no context (R282, log 34). -/
def physWrite (s : State) (c pa : Nat) (l : List Byte) : Option State :=
  if physOk s pa l.length then
    let t := (sectorPieces (l.length / 32 + 2) pa l.length 0).foldl (fun s p =>
      let (mask, img) := placeBytes ((pa + p.1) % 32) ((l.drop p.1).take p.2)
      sliceWrite s c ((pa + p.1) / 32) mask img false) s
    some { t with bwNow := s.bwNow }
  else none

/-- A number in an argument block. -/
def argNum (l : List Byte) (off n : Nat) : Nat := ofBytes ((l.drop off).take n)

/-- R320: the answer of a command: its status, with the state that it leaves. -/
abbrev Answer := State × Nat

/-- The running command, when it has this code, names the context and has not been performed. -/
def running (s : State) (code c : Nat) : Option Command :=
  s.command.filter fun x => x.code == code && x.ctx == c && decide (c < 96) && x.result.isNone

/-- Perform the running command. -/
def runCommand (s : State) (code c : Nat) (f : Command → Answer) : Host.Outcome State Fault Refusal :=
  match running s code c with
  | none => .next s
  | some x =>
    let (s1, st) := f x
    .next { s1 with command := some { x with result := some st } }

/-- R312, R326: the root has been read and the self-test passed. -/
def kduGood (s : State) : Bool := tb (devReg s 0x8).toNat 1

/-- R312, R321: the salt drawn from the TRNG, with the result of the health test in `DEVSTAT`. -/
def drawSalt (s : State) : State × Option (BitVec 256) :=
  let r := Config.trng s.tick
  let old := devReg s 0x8
  (setDev s 0x8 (if r.isSome then old ||| 4#64 else old &&& 0xFFFFFFFFFFFFFFFB#64), r)

/-- R319: the lowest free key slots. -/
def freeSlots (s : State) (k : Nat) : Option (List Nat) :=
  let l := ((upto 1 63).filter fun n => (Tab.find s.slots n).isNone).take k
  if l.length = k then some l else none

/-- R319: a context takes slots. -/
def takeSlots (s : State) (c : Nat) (l : List Nat) : State :=
  modCtx { s with slots := l.foldl (fun t n => Tab.set t n c) s.slots } c fun x => { x with slots := l, nkeys := l.length }

/-- R319: a context's slots are erased. -/
def eraseSlots (s : State) (c : Nat) : State :=
  modCtx { s with slots := s.slots.filter fun k => k.2 != c } c fun x => { x with slots := [] }

/-! ### CREATE, RESET, ATTEST (R320 to R322, R325) -/

/-- CTX_CREATE (R319, R321). -/
def execCtxCreate (c : Nat) (s : State) : Host.Outcome State Fault Refusal :=
  runCommand s 1 c fun x =>
    if !kduGood s then (s, 2)
    else if (getCtx s c).st ≠ 0 then (s, 1)
    else match physRead s x.arg 9 with
      | none => (s, 4)
      | some l =>
        let k := argNum l 8 1
        if 4 < k then (s, 4)
        else match freeSlots s k with
          | none => (s, 3)
          | some sl => match drawSalt s with
            | (s1, none) => (s1, 2)
            | (s1, some salt) =>
              (takeSlots (setCtx s1 c { Context.free with st := 1, tenant := BitVec.ofNat 64 (argNum l 0 8), salt := salt }) c sl, 0)

/-- CTX_RESET (R320, R325). -/
def execCtxReset (c : Nat) (s : State) : Host.Outcome State Fault Refusal :=
  runCommand s 2 c fun _ => if (getCtx s c).st = 0 then (s, 1) else (resetContext s c true, 0)

/-- R322: bytes 0 to 127 of the report. -/
def reportHead (s : State) (c : Nat) (nonce : List Byte) : List Byte :=
  nonce ++ bytesOf 4 Config.devident ++ bytesOf 4 (Config.fwVersion s.boots).toNat ++ bytesOf 8 (devReg s 0x18).toNat ++
    bytesOf 32 (Config.fwDigest s.boots).toNat ++ bytesOf 8 (getCtx s c).tenant.toNat ++ List.replicate 40 0

/-- R322: bytes 192 to 319. -/
def reportKey : List Byte :=
  bytesOf 64 (Config.sm2Public atstKey).toNat ++ bytesOf 8 Config.serial.toNat ++ bytesOf 4 1 ++ List.replicate 52 0

def digestOf (l : List Byte) : BitVec 256 := BitVec.ofNat 256 (ofBytes (sm3 l))

/-- CTX_ATTEST (R322). -/
def execCtxAttest (c : Nat) (s : State) : Host.Outcome State Fault Refusal :=
  runCommand s 3 c fun x =>
    match physRead s x.arg 44 with
    | none => (s, 4)
    | some l =>
      let size := argNum l 40 4
      let head := reportHead s c (l.take 32)
      let sig := bytesOf 64 (Config.sm2Sign atstKey (digestOf head) s.tick).toNat
      let all := head ++ sig ++ (if 384 ≤ size then reportKey ++ bytesOf 64 Config.certSig.toNat else [])
      if size < 192 then (s, 4)
      else match physWrite s c (argNum l 32 8) all with
        | some s1 => (s1, 0)
        | none => (s, 4)

/-! ### Hand-over (R323, R324) -/

/-- R323: the key of an export image. -/
def exportKey (x : Context) : List Byte := (deriveKey purposeExpt x.tenant x.period x.salt 0).take 16

/-- R323: one page of a range: its plaintext, its offset in the window and its key's index; none when it fails a check. -/
def exportPage (s : State) (c va : Nat) : Option (List Byte × Nat × Nat) :=
  match checkNow s c Config.cores va 1 .load with
  | .error _ => none
  | .ok p =>
    if isSys p.pa then none
    else
      let l := (upto 0 128).map fun k => readAt s (p.pa + 32 * k) p.key 32
      if l.any (·.2) then none
      else some ((l.map (·.1)).flatten, p.pa - bits (grantLo s c) 0 10 * 2 ^ 30,
        if p.key = 0 then 0 else (getCtx s c).slots.idxOf p.key + 1)

/-- R323: the pages of the ranges; none when a range is not made of whole pages or a page fails a check. -/
def exportPages (s : State) (c : Nat) (rs : List (Nat × Nat)) : Option (List (List Byte × Nat × Nat)) :=
  if rs.any fun r => r.1 % 4096 != 0 || r.2 % 4096 != 0 then none
  else
    let l := (rs.flatMap fun r => (upto 0 (r.2 / 4096)).map fun k => r.1 + 4096 * k).map (exportPage s c)
    if l.any Option.isNone then none else some (l.filterMap id)

/-- R131, R282: what the reads of the pages leave. -/
def exportTaken (s : State) (c : Nat) (rs : List (Nat × Nat)) : State :=
  (rs.flatMap fun r => (upto 0 (r.2 / 4096)).map fun k => r.1 + 4096 * k).foldl
    (fun s va => takenVirt s c Config.cores va 4096 .load) s

/-- R323: pages under the EXPT key, with the tweak at the image's byte offset. -/
def sealPages (key : List Byte) (off : Nat) (l : List Byte) (enc : Bool) : List Byte :=
  ((upto 0 (l.length / 32)).map fun k => xtsSector enc key key (off / 32 + k) ((l.drop (32 * k)).take 32)).flatten

/-- R323: what the image of a context holds. -/
def exportOf (s : State) (c : Nat) (dest : BitVec 512) (header key : List Byte) (pages : List (Nat × Nat)) : Exported :=
  let x := getCtx s c
  let ts := s.teams.filter fun t => !isHandler t.1 && t.2.ctx == c
  { header := header, dest := dest, source := Config.sm2Public atstKey, tenant := x.tenant, period := x.period,
    nkeys := x.slots.length, key := key, pages := pages, teams := ts,
    insts := s.insts.filter fun i => ts.any fun t => t.2.inst == i.1,
    launches := s.launches.filter fun l => l.2.ctx == c, saves := s.saves.filter (fun v => v.ctx == c),
    heads := x.heads, last := x.last }

/-- R323: the image is written once no team is resident. -/
def writeExport (s : State) (c : Nat) (l : List Byte) : Answer :=
  match (physRead s (argNum l 64 8) 4096).bind Config.rangeList with
  | none => (s, 4)
  | some rs => match exportPages s c rs with
    | none => (s, 4)
    | some ps =>
      let x := getCtx s c
      let dest := BitVec.ofNat 512 (argNum l 0 64)
      let key := exportKey x
      let wrapped := Config.sm2Encrypt dest (BitVec.ofNat 128 (ofBytes key)) s.tick
      let header := Config.imageHeader x.tenant x.period (Config.sm2Public atstKey) wrapped rs s.tick
      let body := sealPages key header.length (ps.map (·.1)).flatten true
      if argNum l 80 8 < header.length + body.length ∨ header.length % 32 ≠ 0 then (s, 4)
      else match physWrite (exportTaken s c rs) c (argNum l 72 8) (header ++ body) with
        | none => (s, 4)
        | some s1 =>
          let rec' := exportOf s c dest header key (ps.map fun p => (p.2.1, p.2.2))
          (modCtx (eraseSlots { s1 with exports := rec' :: s1.exports } c) c fun y =>
            { y with st := 2, peer := dest, hash := digestOf header }, 0)

/-- R323: the resident teams of a context. -/
def residentTeams (s : State) (c : Nat) : List (Nat × Team) :=
  s.teams.filter fun t => !isHandler t.1 && t.2.ctx == c && t.2.resident

/-- CTX_EXPORT (R323): the pre-emptions are raised; once every team is saved the image is written. -/
def execCtxExport (c : Nat) (s : State) : Host.Outcome State Fault Refusal :=
  match running s 4 c with
  | none => .next s
  | some x =>
    let answer := fun (r : Answer) => Host.Outcome.next { r.1 with command := some { x with result := some r.2 } }
    if !x.begun then
      if (getCtx s c).st ≠ 1 then answer (s, 1)
      else if (physRead s x.arg 88).isNone then answer (s, 4)
      else .next { preemptWhere s (fun t => t.2.ctx == c) with command := some { x with begun := true } }
    else
      let ts := residentTeams s c
      if ts.any fun t => !t.2.preempt then answer (s, 4)
      else if !ts.isEmpty then .next s
      else match physRead s x.arg 88 with
        | some l => answer (writeExport s c l)
        | none => answer (s, 4)

/-- How far the numbers of an imported image move, and its new context. -/
structure Shift where
  team : Nat
  inst : Nat
  launch : Nat
  ctx : Nat
  bind : Nat
  deriving DecidableEq, Repr

def Shift.party (h : Shift) : Party → Party
  | .group t g => .group (t + h.team) g
  | .lead t => .lead (t + h.team)
  | .porter c p => .porter c p

def Shift.trap (h : Shift) (e : TrapEntry) : TrapEntry :=
  { e with team := e.team + h.team, src := match e.src with | .party p => .party (h.party p) | x => x }

def Shift.bar (h : Shift) (b : Barrier) : Barrier := { b with team := b.team + h.team }

def Shift.record (h : Shift) (r : Record) : Record := { r with tag := r.tag.map h.party, dest := r.dest.map h.party }

def Shift.queue (h : Shift) (q : Queue) : Queue :=
  { q with recs := q.recs.map h.record, claims := q.claims.map fun c => (c.1, h.party c.2) }

def Shift.instance' (h : Shift) (i : Instance) : Instance :=
  { i with queues := i.queues.map (fun q => (q.1, h.queue q.2)),
           stages := i.stages.map fun t => (t.1, { t.2 with team := t.2.team + h.team }) }

def Shift.teamOf (h : Shift) (t : Team) : Team :=
  { t with inst := t.inst + h.inst, launch := t.launch + h.launch, ctx := h.ctx }

def Shift.launchOf (h : Shift) (l : Launch) : Launch :=
  { l with ctx := h.ctx, producer := l.producer.map (· + h.launch) }

def Shift.response (h : Shift) (r : Response) : Response :=
  { r with team := r.team + h.team, inB := r.inB + h.bind, producer := r.producer.map h.party }

def Shift.stopped (h : Shift) : Stopped → Stopped
  | .request p n l => .request (p.map h.party) n (l.map h.record)
  | .resolve p o => .resolve (h.party p) o
  | .pool d w => .pool d w
  | .bins => .bins

def Shift.pass (h : Shift) (p : Pass) : Pass :=
  { p with num := p.num + h.bind, ctx := h.ctx, bins := p.bins.map (fun b => (b.1, h.response b.2)),
           ending := p.ending.map fun t => t.map fun k => (k.1 + h.bind, k.2) }

def Shift.saved (h : Shift) (v : Saved) : Saved :=
  { v with
    team := v.team + h.team, ctx := h.ctx, launch := v.launch + h.launch,
    porters := v.porters.map fun p => (p.1, p.2.1, { p.2.2 with team := p.2.2.team.map (· + h.team) }),
    bars := v.bars.map fun b => (b.1, b.2.1, h.bar b.2.2),
    planes := v.planes.map fun p => (p.1, p.2.1, { p.2.2 with owner := p.2.2.owner.map (· + h.team) }),
    binds := v.binds.map fun b => (b.1, b.2.1, { b.2.2 with
      id := b.2.2.id + h.bind, team := b.2.2.team + h.team, inst := b.2.2.inst + h.inst }),
    resps := v.resps.map fun r => (r.1, r.2.1, h.response r.2.2),
    faults := v.faults.map fun f => (f.1, f.2.1, { f.2.2 with
      bind := f.2.2.bind + h.bind, team := f.2.2.team + h.team, stopped := h.stopped f.2.2.stopped }),
    pass := v.pass.map h.pass, paths := v.paths.map fun a => { a with bind := a.bind + h.bind },
    traps := v.traps.map h.trap }

/-- Largest number of a table. -/
def topKey {α : Type} (t : Tab α) : Nat := maxOf (t.map (·.1)) 0

/-- Largest number that a save holds of a binding or a pass. -/
def topBind (v : Saved) : Nat := maxOf (v.binds.map (fun b => b.2.2.id) ++ (v.pass.map fun p => p.num).toList) 0

/-- R323: the saved teams, instances and launches of an image join the state. -/
def restoreSaves (s : State) (c : Nat) (e : Exported) : State :=
  let h : Shift := ⟨s.nextTeam, s.nextInst, s.nextLaunch, c, s.nextBind⟩
  let s1 := { s with
    teams := e.teams.foldl (fun t x => Tab.set t (x.1 + h.team) (h.teamOf x.2)) s.teams
    insts := e.insts.foldl (fun t x => Tab.set t (x.1 + h.inst) (h.instance' x.2)) s.insts
    launches := e.launches.foldl (fun t x => Tab.set t (x.1 + h.launch) (h.launchOf x.2)) s.launches
    saves := s.saves ++ e.saves.map h.saved
    nextTeam := s.nextTeam + topKey e.teams + 1
    nextInst := s.nextInst + topKey e.insts + 1
    nextBind := s.nextBind + maxOf (e.saves.map topBind) 0 + 1
    nextLaunch := s.nextLaunch + topKey e.launches + 1 }
  modCtx s1 c fun x => { x with heads := e.heads.map fun k => (k.1, k.2 + h.launch),
                                last := e.last.map fun k => (k.1, k.2 + h.launch) }

/-- R323: the image found at an address: one that this device made, or another's. -/
def imageAt (s : State) (pa : Nat) : Option Exported :=
  match s.exports.find? fun e => cellsGet s.mem pa e.header.length == e.header with
  | some e => if e.dest = Config.sm2Public atstKey then some e else none
  | none => Config.foreignImage s.mem pa

/-- R323: the pages of an image, re-encrypted under the context's keys into its window; none when one does not fit. -/
def importPages (s : State) (c pa : Nat) (e : Exported) : Option State :=
  let base := bits (grantLo s c) 0 10 * 2 ^ 30
  (foldE e.pages.zipIdx s fun s p =>
    let off := e.header.length + 4096 * p.2
    let dest := base + p.1.1
    let key := if p.1.2 = 0 then 0 else nth (getCtx s c).slots (p.1.2 - 1) 0
    match physRead s (pa + off) 4096 with
    | none => Except.error ()
    | some l =>
      if !inGddr s c dest || !inGddr s c (dest + 4095) then .error ()
      else
        let plain := sealPages e.key off l false
        .ok ((upto 0 128).foldl (fun s k =>
          writeAt s c ⟨dest + 32 * k, key, 0, 0, false, false⟩ ((plain.drop (32 * k)).take 32)) s)).toOption

/-- CTX_IMPORT (R321, R323). -/
def execCtxImport (c : Nat) (s : State) : Host.Outcome State Fault Refusal :=
  runCommand s 5 c fun x =>
    if !kduGood s then (s, 2)
    else if (getCtx s c).st ≠ 0 then (s, 1)
    else match physRead s x.arg 16 with
      | none => (s, 4)
      | some l => match imageAt s (argNum l 0 8) with
          | none => (s, 6)
          | some e => match freeSlots s e.nkeys with
            | none => (s, 3)
            | some sl => match drawSalt s with
              | (s1, none) => (s1, 2)
              | (s1, some salt) =>
                let own := e.source == Config.sm2Public atstKey
                let s2 := takeSlots (setCtx s1 c { Context.free with
                  st := if own then 1 else 3, tenant := e.tenant, period := e.period, salt := salt, peer := e.source,
                  hash := digestOf e.header }) c sl
                let sig := bytesOf 64 (Config.sm2Sign atstKey (digestOf e.header) s.tick).toNat
                match (importPages s2 c (argNum l 0 8) e).bind fun s3 => physWrite s3 c (argNum l 8 8) sig with
                | some s4 => (restoreSaves s4 c e, 0)
                | none => (s, 4)

/-- R323: the word `RLSE`, joined to a header's hash. -/
def releaseDigest (h : BitVec 256) : BitVec 256 := digestOf (bytesOf 32 h.toNat ++ [0x52, 0x4C, 0x53, 0x45])

/-- CTX_CONFIRM (R323, R324). -/
def execCtxConfirm (c : Nat) (s : State) : Host.Outcome State Fault Refusal :=
  runCommand s 6 c fun x =>
    let k := getCtx s c
    if k.st ≠ 2 then (s, 1)
    else match (physRead s x.arg 16).bind fun l => (physRead s (argNum l 0 8) 64).map fun a => (l, a) with
      | none => (s, 4)
      | some (l, sig) =>
        if !Config.sm2Verify k.peer k.hash (BitVec.ofNat 512 (ofBytes sig)) then (s, 5)
        else
          let receipt := bytesOf 64 (Config.sm2Sign atstKey (releaseDigest k.hash) s.tick).toNat
          match physWrite s c (argNum l 8 8) receipt with
          | some s1 => (resetContext s1 c false, 0)
          | none => (s, 4)

/-- CTX_RELEASE (R323). -/
def execCtxRelease (c : Nat) (s : State) : Host.Outcome State Fault Refusal :=
  runCommand s 7 c fun x =>
    let k := getCtx s c
    if k.st ≠ 3 then (s, 1)
    else match (physRead s x.arg 8).bind fun l => physRead s (argNum l 0 8) 64 with
      | none => (s, 4)
      | some sig =>
        if Config.sm2Verify k.peer (releaseDigest k.hash) (BitVec.ofNat 512 (ofBytes sig)) then
          (modCtx s c fun y => { y with st := 1 }, 0)
        else (s, 5)

/-- CTX_ABORT (R324). -/
def execCtxAbort (c : Nat) (s : State) : Host.Outcome State Fault Refusal :=
  runCommand s 8 c fun _ =>
    let k := getCtx s c
    if k.st ≠ 2 then (s, 1)
    else match freeSlots s k.nkeys with
      | none => (s, 3)
      | some sl => (modCtx (takeSlots s c sl) c fun y => { y with st := 1 }, 0)

/-! ### The end of a command (R311, R320) -/

/-- R320: the status of a command that no event performs: an unknown code, or no such context. -/
def strayStatus (x : Command) : Option Nat :=
  if 96 ≤ x.ctx then some 4 else if x.code = 0 ∨ 9 < x.code then some 1 else none

/-- CTX_COMMAND_COMPLETE (R311, R320). -/
def execCtxCommandComplete (s : State) : Host.Outcome State Fault Refusal :=
  match s.command with
  | none => .next s
  | some x => match x.result.or (strayStatus x) with
    | none => .next s
    | some st =>
      let s1 := setDev (setDev { s with command := none } 0x110 (BitVec.ofNat 64 (0x100 + st))) 0x8
        (devReg s 0x8 &&& 0xFFFFFFFFFFFFFFF7#64)
      let s2 := raisePF s1 1
      .next (if x.ctx < 96 then raiseCtx s2 x.ctx 3 else s2)

end Machine

end Sys2Proof
end

