-- ==== Sys2Proof/Machine/Kesor.lean ====
section
/-! DEFINITION. Kesor images and KESLOAD (R327 to R331, R357). The manual gives the translator no steps: what it makes of
a kernel's code is a constant of Config without a body (log entry 21). -/

namespace Sys2Proof

namespace Machine

/-- R330: bytes read through the context's tables and keys. -/
def kesRead (s : State) (c va n : Nat) : Option (List Byte) :=
  match readVirt s c va n .load with
  | .ok (l, false) => some l
  | _ => none

def kesWrite (s : State) (c va : Nat) (l : List Byte) : Option State :=
  (writeVirt (touchRange s c va l.length) c va l .store).toOption

/-! ### The image (R327) -/

/-- R327: the header of a Kesor image: the number of kernels, with reserved bytes zero; none when it is malformed. -/
def kesKernels (h : List Byte) : Option Nat :=
  let n := argNum h 6 2
  if argNum h 0 4 = 0x5253454B ∧ argNum h 4 2 = 1 ∧ 1 ≤ n ∧ n ≤ 256 ∧ argNum h 8 8 = 0 then some n else none

/-- R2, R327: a reserved byte of a kernel entry is not zero. -/
def kesEntriesBad (h : List Byte) (n : Nat) : Bool :=
  (upto 0 n).any fun j => ((h.drop (34 + 32 * j)).take 14).any (· != 0)

/-- R327: the fields of kernel entry j. -/
structure KesKernel where
  header : Nat
  port : Nat
  portLen : Nat
  table : Nat
  regions : Nat
  deriving DecidableEq, Repr

def kesKernel (img : List Byte) (j : Nat) : KesKernel :=
  let b := 16 + 32 * j
  ⟨argNum img b 4, argNum img (b + 4) 4, argNum img (b + 8) 4, argNum img (b + 12) 4, argNum img (b + 16) 2⟩

/-- R327: a region entry: the bounds of its code, where its item count lies in the argument block, the modes allowed
(0 lanes, 1 coarsened, 2 serial). -/
structure KesRegion where
  first : Nat
  last : Nat
  items : Nat
  modes : Nat
  deriving DecidableEq, Repr

def kesRegion (img : List Byte) (k : KesKernel) (i : Nat) : KesRegion :=
  let b := k.table + 16 * i
  ⟨argNum img b 4, argNum img (b + 4) 4, argNum img (b + 8) 4, argNum img (b + 12) 1⟩

def kesRegions (img : List Byte) (k : KesKernel) : List KesRegion := (upto 0 k.regions).map (kesRegion img k)

/-- R327, R329: the modes that a region allows. -/
def KesRegion.allowed (r : KesRegion) : List Nat := (upto 0 3).filter (tb r.modes)

/-- R50, R278, R357: kernel j has a pipeline header: bytes 4 to 7 of it, `GRPOFF` in a kernel's header and filled there from a
section start, are reserved (DEDUCED; log entry 21). -/
def kesPipeline (img : List Byte) (j : Nat) : Bool := argNum img ((kesKernel img j).header + 4) 4 == 0

/-- R50, R278: the bytes of a kernel's header: 72, or 200 of a pipeline's. -/
def kesHeaderLen (img : List Byte) (j : Nat) : Nat := if kesPipeline img j then 200 else 72

/-- R357: `KIND` of a kernel's launch template. -/
def kesKind (img : List Byte) (j : Nat) : Bool := tb (argNum img ((kesKernel img j).header + kesHeaderLen img j + 13) 1) 2

/-- R278, R328, R357: the width code that the width word behind a kernel's header declares; 3: none. -/
def kesDeclared (img : List Byte) (j : Nat) : Nat := argNum img ((kesKernel img j).header + kesHeaderLen img j) 4 % 4

/-- R327: a part of kernel j does not lie in the image, its template is of the other kind than its header, or a region has its
ends crossed or allows no mode (that such an image is malformed is DEDUCED; log entry 21). -/
def kesKernelBad (img : List Byte) (j : Nat) : Bool :=
  let k := kesKernel img j
  decide (img.length < k.header + kesHeaderLen img j + 20) || decide (img.length < k.port + k.portLen) ||
    decide (img.length < k.table + 16 * k.regions) || kesKind img j != kesPipeline img j ||
    (kesRegions img k).any fun r => decide (r.last < r.first) || decide (img.length < r.last) || r.allowed.isEmpty

/-! ### The translation (R328, R329, R331, R357) -/

/-- What a translation is a function of: image, kernel, width code, `ERRATA` (R329). -/
structure KesJob where
  img : List Byte
  kernel : Nat
  width : Nat
  errata : BitVec 64
  deriving DecidableEq, Repr

def KesJob.entry (j : KesJob) : KesKernel := kesKernel j.img j.kernel

/-- R328: the width code used: the one asked for, or the declared one, or the loader's choice. -/
def kesWidth (img : List Byte) (kernel want : Nat) (errata : BitVec 64) : Nat :=
  if want < 3 then want
  else if kesDeclared img kernel < 3 then kesDeclared img kernel else Config.kesWidth img kernel errata % 3

/-- R329: the mode chosen for region i: one that the region allows. -/
def kesMode (j : KesJob) (i : Nat) : Nat :=
  let l := (kesRegion j.img j.entry i).allowed
  l.getD (Config.kesMode j.img j.kernel j.width j.errata i % l.length) 0

/-- R329: items per thread of region i: c, a power of two from 2 to 16, where it is coarsened. -/
def kesItems (j : KesJob) (i : Nat) : Nat :=
  if kesMode j i = 1 then 2 ^ (1 + Config.kesFactor j.img j.kernel j.width j.errata i % 4) else 1

def kesModes (j : KesJob) : List (Nat × Nat) := (upto 0 j.entry.regions).map fun i => (kesMode j i, kesItems j i)

/-- R331: the translated code. -/
def kesCode (j : KesJob) : List Byte := Config.kesCode j.img j.kernel j.width j.errata (kesModes j)

/-- R331: where an address of the image's code lies in the translated code. -/
def kesMoved (j : KesJob) (at_ : Nat) : Nat := Config.kesMoved j.img j.kernel j.width j.errata (kesModes j) at_

/-- R331: the region table of an entry: the bounds in the entry, the item count's place, the mode chosen as the one allowed, and
behind it the items per thread (that the table keeps the form of R327, with these in its byte 13, is a DESIGN CHOICE; log entry
21). -/
def kesTable (j : KesJob) (code : Nat) : List Byte :=
  (upto 0 j.entry.regions).flatMap fun i =>
    let r := kesRegion j.img j.entry i
    bytesOf 4 (code + kesMoved j r.first) ++ bytesOf 4 (code + kesMoved j r.last) ++ bytesOf 4 r.items ++
      bytesOf 4 (2 ^ kesMode j i + 2 ^ 8 * kesItems j i)

/-- R50, R278: where the PCs of a header lie, relative to it. -/
def kesPcs (img : List Byte) (kernel : Nat) : List Nat :=
  if kesPipeline img kernel then (upto 0 8).flatMap fun i => [72 + 16 * i, 76 + 16 * i] else [0, 4]

/-- R331: the header of an entry: the image's own, its PCs moved with the code. -/
def kesHead (j : KesJob) (code : Nat) : List Byte :=
  let h := (j.img.drop j.entry.header).take (kesHeaderLen j.img j.kernel)
  (kesPcs j.img j.kernel).foldl (fun l p =>
    l.take p ++ bytesOf 4 (code + kesMoved j (argNum h p 4)) ++ l.drop (p + 4)) h

/-- R357: the launch template that stands behind a kernel's width word, its unused bits zero. -/
def kesTemplate (img : List Byte) (kernel : Nat) : List Byte :=
  let b := (kesKernel img kernel).header + kesHeaderLen img kernel + 4
  (img.drop b).take 9 ++ bytesOf 1 (argNum img (b + 9) 1 % 8) ++ List.replicate 6 0

/-- R331: bytes put at the next multiple of 64, behind a gap that the manual leaves to the translator. -/
def kesPad (j : KesJob) (part len : Nat) : Nat := roundUp len 64 + 64 * Config.kesGap j.img j.kernel j.width j.errata part

def kesTo (l : List Byte) (n : Nat) : List Byte := l ++ List.replicate (n - l.length) 0

/-- R331: where the parts of an entry lie: the header, the region table, the code, the porter section, and the entry's
length (the gaps between them are free; log entry 21). -/
structure KesPlan where
  head : Nat
  table : Nat
  code : Nat
  port : Nat
  len : Nat
  deriving DecidableEq, Repr

def kesPlan (j : KesJob) : KesPlan :=
  let head := kesPad j 0 64
  let table := kesPad j 1 (head + kesHeaderLen j.img j.kernel + 20)
  let code := kesPad j 2 (table + 16 * j.entry.regions)
  let port := kesPad j 3 (code + (kesCode j).length)
  ⟨head, table, code, port, roundUp (port + j.entry.portLen) 64⟩

/-- R331: `EPORT`: 0 where the kernel has no porter section. -/
def kesPort (j : KesJob) : Nat := if j.entry.portLen = 0 then 0 else (kesPlan j).port

/-- R331: the bytes of an entry behind its 64-byte header, up to its length. -/
def kesBody (j : KesJob) : List Byte :=
  let p := kesPlan j
  let word := (j.img.drop (j.entry.header + kesHeaderLen j.img j.kernel)).take 4
  let h := kesTo (List.replicate 64 0) p.head ++ kesHead j p.code ++ word ++ kesTemplate j.img j.kernel
  let c := kesTo (kesTo h p.table ++ kesTable j p.code) p.code ++ kesCode j
  (kesTo (kesTo c p.port ++ (j.img.drop j.entry.port).take j.entry.portLen) p.len).drop 64

/-! ### The cache area (R331) -/

/-- R331: one entry of the chain: its offset and its 64-byte header. -/
structure KesEntry where
  off : Nat
  head : List Byte
  deriving DecidableEq, Repr

def KesEntry.len (e : KesEntry) : Nat := argNum e.head 0 4

/-- R330: what an entry must match: tenant, image, kernel and width; and the errata mask. -/
def kesSame (tenant : BitVec 64) (hash : List Byte) (kidx width : Nat) (e : KesEntry) : Bool :=
  argNum e.head 8 8 == tenant.toNat && (e.head.drop 16).take 32 == hash && argNum e.head 6 2 == kidx && argNum e.head 4 1 == width

def kesValid (errata : Nat) (e : KesEntry) : Bool := tb (argNum e.head 5 1) 0 && argNum e.head 48 8 == errata

/-- R331: the chain walked from `off` to the first entry that `hit` takes, or to its end: the entries passed, where the
walk ended and the entry taken; none when a check fails. An `ELEN` that is no multiple of 64 or leaves the area ends the
chain as 0 does (DESIGN CHOICE; log entry 21). -/
def kesChain (fuel : Nat) (s : State) (c va size off : Nat) (acc : List KesEntry) (hit : KesEntry → Bool) :
    Option (List KesEntry × Nat × Option KesEntry) :=
  match fuel with
  | 0 => some (acc, off, none)
  | f + 1 =>
    if size < off + 64 then some (acc, off, none)
    else match kesRead s c (va + off) 64 with
      | none => none
      | some h =>
        let n := argNum h 0 4
        if n = 0 ∨ n % 64 ≠ 0 ∨ size < off + n then some (acc, off, none)
        else if hit ⟨off, h⟩ then some (acc, off, some ⟨off, h⟩)
        else kesChain f s c va size (off + n) (acc ++ [⟨off, h⟩]) hit

/-- R331: where a new entry of `n` bytes goes, its `ELEN`, and whether the chain ends behind it. -/
def kesPlace (chain : List KesEntry) (stop size n : Nat) (same : KesEntry → Bool) : Nat × Nat × Bool :=
  match chain.find? fun e => same e with
  | some e => if n ≤ e.len then (e.off, e.len, false) else if stop + n ≤ size then (stop, n, true) else (0, n, true)
  | none => if stop + n ≤ size then (stop, n, true) else (0, n, true)

/-- R331: the header of an entry. -/
def kesHeader (len width kidx : Nat) (tenant : BitVec 64) (hash : List Byte) (errata ehdr eport : Nat) : List Byte :=
  bytesOf 4 len ++ bytesOf 1 width ++ bytesOf 1 1 ++ bytesOf 2 kidx ++ bytesOf 8 tenant.toNat ++ hash ++ bytesOf 8 errata ++
    bytesOf 4 ehdr ++ bytesOf 4 eport

/-- R331: the 64-byte result. -/
def kesResult (va ehdr eport plen width : Nat) (reused : Bool) (template : List Byte) : List Byte :=
  bytesOf 8 va ++ bytesOf 4 ehdr ++ bytesOf 4 eport ++ bytesOf 4 plen ++ bytesOf 1 width ++ bytesOf 1 reused.toNat ++
    List.replicate 10 0 ++ (template ++ List.replicate 16 0).take 16 ++ List.replicate 16 0

/-! ### The command (R330) -/

/-- R331: the result of a valid entry, used as it stands: its launch template is its own. -/
def kesReuse (s : State) (c cva : Nat) (j : KesJob) (e : KesEntry) : Option (List Byte) :=
  let ehdr := argNum e.head 56 4
  let eport := argNum e.head 60 4
  (kesRead s c (cva + e.off + ehdr + kesHeaderLen j.img j.kernel + 4) 16).map
    (kesResult (cva + e.off) ehdr eport (if eport = 0 then 0 else j.entry.portLen) j.width true)

/-- R331: the bytes written for a new entry, and those of the result. -/
def kesEntry (x : Context) (j : KesJob) (size off len : Nat) (ends : Bool) : List Byte :=
  kesHeader len j.width j.kernel x.tenant (sm3 j.img) j.errata.toNat (kesPlan j).head (kesPort j) ++ kesBody j ++
    (if ends && decide (off + (kesPlan j).len + 4 ≤ size) then bytesOf 4 0 else [])

def kesFresh (va : Nat) (j : KesJob) : List Byte :=
  kesResult va (kesPlan j).head (kesPort j) j.entry.portLen j.width false (kesTemplate j.img j.kernel)

/-- R330, R331: the command once its image and arguments have been read: a valid entry is looked for first. -/
def kesRun (s : State) (c : Nat) (a : List Byte) (j : KesJob) : Answer :=
  let x := getCtx s c
  let cva := argNum a 16 8
  let size := argNum a 24 4
  let same := kesSame x.tenant (sm3 j.img) j.kernel j.width
  match kesChain (size / 64 + 1) s c cva size 0 [] fun e => same e && kesValid j.errata.toNat e with
  | none => (s, 4)
  | some (_, _, some e) =>
    match (kesReuse s c cva j e).bind (kesWrite s c (argNum a 32 8)) with
    | some s1 => (s1, 0)
    | none => (s, 4)
  | some (chain, stop, none) =>
    let n := (kesPlan j).len
    if size < n then (s, 4)
    else
      let (off, len, ends) := kesPlace chain stop size n same
      match (kesWrite s c (cva + off) (kesEntry x j size off len ends)).bind fun s1 =>
          kesWrite s1 c (argNum a 32 8) (kesFresh (cva + off) j) with
      | some s2 => (s2, 0)
      | none => (s, 4)

/-- R330: reserved bytes, alignments and sizes of the argument block. -/
def kesArgsBad (a : List Byte) : Bool :=
  argNum a 0 8 % 64 != 0 || decide (3 < argNum a 10 1) || argNum a 11 5 != 0 || argNum a 16 8 % 4096 != 0 ||
    argNum a 24 4 % 4096 != 0 || decide (argNum a 24 4 < 16384) || argNum a 28 4 != 0 || argNum a 32 8 % 64 != 0

/-- R330: the image of the arguments, read whole once its header's entries are sound; or the status of the failure. -/
def kesImage (s : State) (c : Nat) (a : List Byte) : Except Nat (List Byte) :=
  match kesRead s c (argNum a 0 8) 16 with
  | none => .error 4
  | some h => match kesKernels h with
    | none => .error 6
    | some n =>
      if n ≤ argNum a 8 2 then .error 6
      else match kesRead s c (argNum a 0 8) (16 + 32 * n) with
        | none => .error 4
        | some h =>
          if kesEntriesBad h n then .error 6
          else match kesRead s c (argNum a 0 8) (max h.length (Config.kesBytes h)) with
            | none => .error 4
            | some img => if (upto 0 n).any (kesKernelBad img) then .error 6 else .ok img

/-- R328, R330: the arguments ask for a width other than the declared one. -/
def kesContradicts (a img : List Byte) : Bool :=
  decide (argNum a 10 1 < 3 ∧ kesDeclared img (argNum a 8 2) < 3 ∧ argNum a 10 1 ≠ kesDeclared img (argNum a 8 2))

def kesJob (s : State) (a img : List Byte) : KesJob :=
  ⟨img, argNum a 8 2, kesWidth img (argNum a 8 2) (argNum a 10 1) (devReg s 0x18), devReg s 0x18⟩

/-- R330, R331: the ranges that KESLOAD reads through the context's tables: those of the image, then the chain's headers up to
the entry that it takes, and that entry's template. -/
def kesReads (s : State) (c : Nat) (a : List Byte) : List (Nat × Nat) :=
  let va := argNum a 0 8
  match kesImage s c a with
  | .error _ => [(va, 16)]
  | .ok img =>
    let chain : List (Nat × Nat) :=
      if kesContradicts a img then []
      else
        let j := kesJob s a img
        let same := kesSame (getCtx s c).tenant (sm3 j.img) j.kernel j.width
        let at' := fun (o : Nat) => (argNum a 16 8 + o, 64)
        match kesChain (argNum a 24 4 / 64 + 1) s c (argNum a 16 8) (argNum a 24 4) 0 [] fun e =>
            same e && kesValid j.errata.toNat e with
        | none => [at' 0]
        | some (l, _, some e) =>
          l.map (fun e => at' e.off) ++
            [at' e.off, (argNum a 16 8 + e.off + argNum e.head 56 4 + kesHeaderLen j.img j.kernel + 4, 16)]
        | some (l, stop, none) => l.map (fun e => at' e.off) ++ if argNum a 24 4 < stop + 64 then [] else [at' stop]
    [(va, 16), (va, img.length)] ++ chain

/-- R131, R282: what those reads leave in the shared TLB and on the controllers' counters. -/
def kesTaken (s : State) (c : Nat) (a : List Byte) : State :=
  (kesReads s c a).foldl (fun s r => takenVirt s c Config.cores r.1 r.2 .load) s

/-- KESLOAD (R330, R331). -/
def execKesload (c : Nat) (s : State) : Host.Outcome State Fault Refusal :=
  runCommand s 9 c fun x =>
    if (getCtx s c).st ≠ 1 then (s, 1)
    else match physRead s x.arg 40 with
      | none => (s, 4)
      | some a =>
        if kesArgsBad a then (s, 4)
        else
          let s1 := kesTaken s c a
          match kesImage s c a with
          | .error n => (s1, n)
          | .ok img => if kesContradicts a img then (s1, 4) else kesRun s1 c a (kesJob s a img)

end Machine

end Sys2Proof
end

