-- ==== Sys2Proof/Machine/Porter.lean ====
section
/-! DEFINITION. Class 6, the porter-only instructions, and the events of porters (R167 to R195, R483 to R496). -/

namespace Sys2Proof.Machine

/-! ### XLDI and XCOORD -/

/-- R185 of the encodings (R485): registers that an XLDI of 2^size bytes writes. -/
def xldiRun (size : Nat) : Nat := if size ≤ 3 then 1 else 2 ^ (size - 3)

/-- R171, R149: an issue that reads keys waits for earlier transfers and stamps that still write them. -/
def readWait (e : Env) (keys : List Nat) : Except Stop Unit :=
  if writesDue e.s e.t e.tm e.core e.x.xfers keys || stampsDue e.x.stamps e.x.nextXfer keys then .error (.stall .portBusy) else .ok ()

/-- R182, R492. -/
def execXldi (c : Ctl) (d a : Code) (off : BitVec 24) (pol : BitVec 4) (size : BitVec 3) (sp : Bool) (s : State) :
    Host.Outcome State Fault Refusal :=
  perform (.xldi c d a off pol size sp) c
    { fields := fun _ => [⟨d, .out (xldiRun size.toNat)⟩, ⟨a, .reg 1⟩] } s fun e =>
    let n := 2 ^ size.toNat
    let run := xldiRun size.toNat
    let ea := wrap ((val64 e a 0 : Int) + sext off.toNat 24) 64
    if sp then
      let a := ea % 2 ^ 32
      match spCheck e.tm a n with
      | some code => .error (.trap code a 0)
      | none =>
        let h := spHalf e.tm e.core a
        let o := a % 2 ^ 24
        match readWait e ((spWords o n).map fun w => ((e.t * 2 + h) * 2 ^ 24 + w) * 2 + 1) with
        | .error x => .error x
        | .ok _ =>
          if spBad e.tm h o n then .error (.trap tcPoison 0x100 0)
          else .ok (done e (writeRun e e.s d run fun _ => ofBytes (spBytes e.tm h o n)))
    else match checkNow e.s e.ctx e.core ea n .load with
      | .error (code, cause) => .error (.trap code (memDetail cause 0 false) ea)
      | .ok p => match readWait e [p.pa / 32 * 2] with
        | .error x => .error x
        | .ok _ =>
          let l1 := polLevel (pol.toNat % 4) p.ca false
          let sc := polLevel (pol.toNat / 4) p.ca true
          let (s1, v, bad) := if p.ca = 1 then readSlice e.s e.core p.pa p.key n l1 sc p.scp else readMem e.s e.core p n l1 sc
          if bad then .error (.trap tcPoison 0 ea)
          else .ok (done e (writeRun e (touchTlb s1 e.ctx e.core ea) d run fun _ => v))

/-- R175: the coordinate in a register pair; index 4 comes from the third register for rank 5. -/
def coordOf (e : Env) (a : Code) (rank : Nat) : List Int :=
  if isZero a then [0, 0, 0, 0, 0]
  else
    let r := fun j => regVal e a j 0
    [sext (r 0) 32, sext (r 0 / 2 ^ 32) 32, sext (r 1) 32, sext (r 1 / 2 ^ 32) 32, if rank = 5 then sext (r 2) 32 else 0]

/-- R177: one carry of XCOORD, from dimension i. -/
def coordCarry (d : BitVec 512) (o c : List Int) (i : Nat) : List Int :=
  if (tdDim d i : Int) ≤ nth c i 0 then
    (c.set i (nth o i 0)).set (i + 1) (sext (wrap (nth c (i + 1) 0 + (tdBox d (i + 1) : Int)) 32) 32)
  else c

def coordStep (d : BitVec 512) (o c : List Int) : List Int :=
  let c0 := c.set 0 (sext (wrap (nth c 0 0 + (tdBox d 0 : Int)) 32) 32)
  coordCarry d o (coordCarry d o (coordCarry d o c0 0) 1) 2

/-- Four indices as the 128 bits of a coordinate pair. -/
def coordBits (c : List Int) : Nat :=
  (upto 0 4).foldl (fun v i => v + wrap (nth c i 0) 32 * 2 ^ (32 * i)) 0

/-- R491, R193: a descriptor number at or above D faults DESCRIPTOR_INVALID with INFO 0x900 OR N, as R290 gives the code's
detail; R174's list has no such breach (DESIGN CHOICE, log 27). -/
def execXcoord (c : Ctl) (d a : Code) (td : BitVec 6) (s : State) : Host.Outcome State Fault Refusal :=
  perform (.xcoord c d a td) c { fields := fun _ => [⟨d, .out 2⟩, ⟨d, .also 2⟩, ⟨a, .reg 2⟩] } s fun e =>
    match tdGet e.s e.core e.t td.toNat with
    | .error x => .error x
    | .ok v =>
      let n := coordStep v (coordOf e a 4) (coordOf e d 4)
      .ok (done e (writeRun e e.s d 2 fun _ => coordBits n))

/-! ### Issuing a transfer -/

/-- R174: a breach: DESCRIPTOR_INVALID with INFO. -/
def breach (info : Nat) : Stop := .trap tcDesc info 0

/-- R486 steps 1 and 2: the captured descriptor, its coordinate, and the constraints of R175. -/
def xDesc (e : Env) (a : Code) (td : Nat) : Except Stop (BitVec 512 × List Int) :=
  match tdGet e.s e.core e.t td with
  | .error _ => .error (breach 1)
  | .ok d =>
    if descReason d ≠ 0 then .error (breach 1)
    else if tdRank d = 5 ∧ !isZero a ∧ 13 < a.toNat then .error (.trap tcIllegal a.toNat 0)
    else
      let co := coordOf e a (tdRank d)
      let m : Nat := if tdBits d = 6 then 4 else if tdBits d = 4 then 2 else 1
      if nth co 0 0 % (m : Int) ≠ 0 ∨ tdBox d 0 % m ≠ 0 then .error (breach 1) else .ok (d, co)

/-- R174: 16 MiB. -/
def xMax : Nat := 2 ^ 24

/-- R174, R178: size limits of an image. -/
def xSize (e : Env) (i : Instr) (len : Nat) : Except Stop Unit :=
  if xMax < len then .error (breach 2)
  else if queueSide i then
    match getQueue e.s e.tm.inst (xQueue i) with
    | some q => if qValid q.decl ∧ len % (4 * qWords q.decl) ≠ 0 then .error (breach 3) else .ok ()
    | none => .ok ()
  else .ok ()

/-- R178: the porter is the end of the queue. -/
def xBind (e : Env) (i : Instr) : Except Stop Unit :=
  if !queueSide i then .ok ()
  else
    let n := queueReason e (xQueue i) (xSource i == .queue)
    if n = 1 ∨ n = 2 then .error (queueTrapAt (xQueue i) n) else .ok ()

/-- R176: the scratchpad address of the rows is a multiple of 4. -/
def xAlign (sp : Nat) (used : Bool) : Except Stop Unit :=
  if used ∧ sp % 4 ≠ 0 then .error (.trap tcMisaligned (sp % 2 ^ 32) 0) else .ok ()

/-- R171: room for one more transfer. -/
def xRoom (e : Env) : Except Stop Unit := if 32 ≤ e.x.xfers.length then .error (.stall .portBusy) else .ok ()

/-- A transfer as issued, at its resume offset (R194). -/
def newXfer (e : Env) (d : BitVec 512) (co : List Int) (sp len : Nat) (extra : DWord) : Xfer :=
  { id := e.x.nextXfer, instr := e.i, pc := e.pc, desc := d, coord := co, sp := sp, extra := extra, len := len,
    stop := ceilDiv len 32, next := e.x.roff / 32, okTo := e.x.roff / 32, pages := [], idx := [], buf := e.x.buf, got := e.x.roff, image := [],
    dsts := [], dropped := e.x.carry }

/-- The record of a fault at unit u of a transfer (R192). -/
def unitFault (pc : DWord) (u : Nat) (code : Byte) (cause info va : Nat) : PFault :=
  ⟨pc, code, cause, info, 32 * u, BitVec.ofNat 64 va⟩

/-- R171, R176, R192: the checks of every unit, then the transfer is outstanding up to the first unit that fails. A
queue form is checked unit by unit as it runs. -/
def launchXfer (e : Env) (s : State) (x : Xfer) (fail : Option PFault) : State :=
  let u0 := x.next
  let us := upto u0 (x.stop - u0)
  let r := if queueSide x.instr then ([], none) else checkUnits s e.ctx e.core e.tm x us x.pages
  let fault := match r.2 with
    | some (u, code, cause, info, va) => some (unitFault x.pc u code cause info va)
    | none => fail
  let stop := match r.2 with
    | some (u, _) => u
    | none => x.stop
  let y := { x with pages := r.1, stop := stop }
  let s1 := done e (r.1.foldl (fun s p => touchTlb s e.ctx e.core (p.1 * 4096)) s)
  modPorter s1 e.core (match e.p with | .porter _ n => n | _ => 0) fun p =>
    let p' := { p with nextXfer := p.nextXfer + 1, pending := fault }
    if u0 < stop then { p' with xfers := p.xfers ++ [y] }
    -- R191: no unit is performed; a credit dropped before it waits for the next re-issue, or for its own fault
    else if fault.isSome then { p' with carry := x.dropped }
    else { p' with dropped := p.dropped || x.dropped }

/-- R486. -/
def execXcopy (c : Ctl) (a b g : Code) (td : BitVec 6) (q : BitVec 4) (pad : BitVec 8) (dir : BitVec 3) (s : State) :
    Host.Outcome State Fault Refusal :=
  let i : Instr := .xcopy c a b g td q pad dir
  let tensor := decide (dir.toNat < 4)
  let scratch := dir.toNat != 2 && dir.toNat != 3
  perform i c
    { fields := fun _ => (if tensor then [⟨a, .reg 2⟩] else []) ++ (if scratch then [⟨b, .sp⟩] else []) ++
        if tensor then [] else [⟨g, .reg 1⟩] } s fun e =>
    let dc : Except Stop (BitVec 512 × List Int) := if tensor then xDesc e a td.toNat else .ok (0, [])
    match xRoom e with
    | .error x => .error x
    | .ok _ => match dc with
      | .error x => .error x
      | .ok (d, co) =>
        let len := if tensor then xRow d * xRows d else val e g 0
        let sp := if scratch then val e b 0 % 2 ^ 32 else 0
        match xSize e i len with
        | .error x => .error x
        | .ok _ => match xBind e i with
          | .error x => .error x
          | .ok _ => match xAlign sp scratch with
            | .error x => .error x
            | .ok _ => .ok (launchXfer e e.s (newXfer e d co sp len 0) none)

/-! ### XGATHER, XSCATTER -/

/-- R179, R487: read the indices of rows r, r + 1, ...; the answer is the state, the indices, and the fault of the first
row that cannot be had. -/
def gatherIndices (e : Env) (base : Nat) (s : State) (rows : List Nat) :
    State × List Int × Option (Nat × Byte × Nat × Nat × Nat) :=
  match rows with
  | [] => (s, [], none)
  | r :: rest =>
    let va := (base + 4 * r) % 2 ^ 64
    match checkNow s e.ctx e.core va 4 .load with
    | .error (code, cause) => (s, [], some (r, code, cause, cause * 4096, va))
    | .ok p =>
      let (s, v, bad) := portRead (touchTlb s e.ctx e.core va) e.core p 4
      if bad then (s, [], some (r, tcPoison, 0, 0, va))
      else
        let (s, l, f) := gatherIndices e base s rest
        (s, sext v 32 :: l, f)

/-- The sectors of the indices. -/
def indexKeys (e : Env) (base : Nat) (rows : List Nat) : List Nat :=
  (rows.filterMap fun r => match checkNow e.s e.ctx e.core ((base + 4 * r) % 2 ^ 64) 4 .load with
    | .ok p => some (p.pa / 32 * 2)
    | .error _ => none).eraseDups

/-- R179: the mould of XGATHER and XSCATTER. -/
def rowTransfer (i : Instr) (c : Ctl) (a b g : Code) (td : BitVec 6) (n : BitVec 10) (s : State) :
    Host.Outcome State Fault Refusal :=
  perform i c { fields := fun _ => [⟨a, .reg 2⟩, ⟨b, .sp⟩, ⟨g, .reg 1⟩] } s fun e =>
    match xRoom e with
    | .error x => .error x
    | .ok _ => match xDesc e a td.toNat with
      | .error x => .error x
      | .ok (d, co) =>
        let rows := n.toNat + 1
        let row := xRow d
        let len := row * rows
        let sp := val e b 0 % 2 ^ 32
        match xSize e i len with
        | .error x => .error x
        | .ok _ => match xAlign sp true with
          | .error x => .error x
          | .ok _ =>
            let base := val e g 0
            let r0 := e.x.roff / row
            match readWait e (indexKeys e base (upto r0 (rows - r0))) with
            | .error x => .error x
            | .ok _ =>
              let (s1, l, f) := gatherIndices e base e.s (upto r0 (rows - r0))
              let x := { newXfer e d co sp len 0 with idx := List.replicate r0 0 ++ l }
              match f with
              | some (r, code, cause, info, va) =>
                let u := r * row / 32
                .ok (launchXfer e s1 { x with stop := u } (some (unitFault e.pc (max u x.next) code cause info va)))
              | none => .ok (launchXfer e s1 x none)

def execXgather (c : Ctl) (a b g : Code) (td : BitVec 6) (pad : BitVec 8) (n : BitVec 10) (s : State) :
    Host.Outcome State Fault Refusal := rowTransfer (.xgather c a b g td pad n) c a b g td n s

def execXscatter (c : Ctl) (a b g : Code) (td : BitVec 6) (pad : BitVec 8) (n : BitVec 10) (s : State) :
    Host.Outcome State Fault Refusal := rowTransfer (.xscatter c a b g td pad n) c a b g td n s

/-! ### XMCAST, XSTMX, XFILL -/

/-- R180, R149: one unit of the box as the slices hold it; what the core's L1 holds of it is renewed. -/
def mcastRead (s : State) (e : Env) (x : Xfer) (u : Nat) : State × List (Byte × Bool) :=
  if tdSpace x.desc then unitRead s e.t e.core x .tensor u
  else
    let r := (endPieces x .tensor u).foldl (fun (acc : State × List (Nat × List (Byte × Bool))) p =>
      let q := piecePhys x p
      let (s, v, bad) := readSlice acc.1 e.core q.pa q.key p.n 0 (polLevel 0 q.ca true) q.scp
      (s, acc.2 ++ [(p.k, (bytesOf p.n v).map fun (b : Byte) => (b &&& BitVec.ofNat 8 p.mask, bad))])) (s, [])
    (r.1, fillUnit x.len u r.2)

/-- R180: the units of the box, read in ascending order. -/
def mcastImage (s : State) (e : Env) (x : Xfer) (us : List Nat) : State × List (Byte × Bool) :=
  us.foldl (fun acc u => let r := mcastRead acc.1 e x u; (r.1, acc.2 ++ r.2)) (s, [])

/-- R180, R488. -/
def execXmcast (c : Ctl) (a b g : Code) (td : BitVec 6) (pad : BitVec 8) (s : State) : Host.Outcome State Fault Refusal :=
  let i : Instr := .xmcast c a b g td pad
  perform i c { fields := fun _ => [⟨a, .reg 2⟩, ⟨b, .sp⟩, ⟨g, .reg 1⟩] } s fun e =>
    match xRoom e with
    | .error x => .error x
    | .ok _ => match xDesc e a td.toNat with
      | .error x => .error x
      | .ok (d, co) =>
        let mask := val e g 0
        let sp := val e b 0 % 2 ^ 32
        let len := xRow d * xRows d
        if 2 ^ 20 ≤ mask ∨ tb sp 24 then .error (breach 1)
        else match xSize e i len with
          | .error x => .error x
          | .ok _ => match xAlign sp true with
            | .error x => .error x
            | .ok _ =>
              let cores := mcastCores e.core mask
              if cores.any fun k => (mcastTeam e.s e.tm k).isNone then .error (.trap tcAccess 0xA000 0)
              else if cores.isEmpty then .ok (done e e.s)
              else
                let x := newXfer e d co sp len (BitVec.ofNat 64 mask)
                let us := upto x.next (x.stop - x.next)
                let r := checkUnits e.s e.ctx e.core e.tm x us []
                let y := { x with pages := r.1, stop := (match r.2 with | some f => f.1 | none => x.stop) }
                let keys := (upto y.next (y.stop - y.next)).flatMap fun u =>
                  pieceKeys e.s e.t e.tm e.core y (tdSpace d) (endPieces y .tensor u)
                match readWait e keys with
                | .error x => .error x
                | .ok _ =>
                  let (s1, l) := mcastImage (drainCore e.s e.core) e y (upto y.next (y.stop - y.next))
                  let image := List.replicate (32 * y.next) (0, false) ++ l
                  .ok (launchXfer e s1 { x with image := image, dsts := cores.map fun k => (k, x.next) } none)

/-- R184: the constraints of XSTMX. -/
def stmxBad (d : BitVec 512) (co : List Int) (had : Bool) : Bool :=
  let a := tdBaxis d
  !([3, 4, 5, 6, 7, 10].contains (tdFmt d)) || !tdMx d || nth co a 0 % 32 != 0 || tdBox d a % 32 != 0 || had != tdHad d

/-- R489. -/
def execXstmx (c : Ctl) (a b : Code) (td : BitVec 6) (pad : BitVec 8) (bf16 had : Bool) (s : State) :
    Host.Outcome State Fault Refusal :=
  let i : Instr := .xstmx c a b td pad bf16 had
  perform i c { fields := fun _ => [⟨a, .reg 2⟩, ⟨b, .sp⟩] } s fun e =>
    match xRoom e with
    | .error x => .error x
    | .ok _ => match xDesc e a td.toNat with
      | .error x => .error x
      | .ok (d, co) =>
        let sp := val e b 0 % 2 ^ 32
        let len := xRow d * xRows d
        match xSize e i len with
        | .error x => .error x
        | .ok _ =>
          if stmxBad d co had then .error (breach 4)
          else match xAlign sp true with
            | .error x => .error x
            | .ok _ => .ok (launchXfer e e.s (newXfer e d co sp len 0) none)

/-- R181, R490. -/
def execXfill (c : Ctl) (a b g : Code) (td : BitVec 6) (lin : Bool) (s : State) : Host.Outcome State Fault Refusal :=
  let i : Instr := .xfill c a b g td lin
  perform i c
    { fields := fun _ => (if lin then [⟨a, .reg 1⟩, ⟨b, .sp⟩] else [⟨a, .reg 2⟩]) ++ [⟨g, .reg 1⟩] } s fun e =>
    let pat := BitVec.ofNat 64 (val e g 0)
    match xRoom e with
    | .error x => .error x
    | .ok _ =>
      if lin then
        let len := val e a 0 % 2 ^ 32
        let sp := val e b 0 % 2 ^ 32
        if len % 4 ≠ 0 then .error (breach 1)
        else match xSize e i len with
          | .error x => .error x
          | .ok _ => match xAlign sp true with
            | .error x => .error x
            | .ok _ => .ok (launchXfer e e.s (newXfer e 0 [] sp len pat) none)
      else match xDesc e a td.toNat with
        | .error x => .error x
        | .ok (d, co) =>
          let len := xRow d * xRows d
          match xSize e i len with
          | .error x => .error x
          | .ok _ => .ok (launchXfer e e.s (newXfer e d co 0 len pat) none)

/-! ### XARRIVE to XEND -/

/-- R189, R493: INFO of BARRIER_INVALID. -/
def boundLow (x : Porter) : Nat := match x.bar with
  | some b => b.low.toNat
  | none => 0xFFFF

def boundBad (e : Env) : Bool := match e.x.bar with
  | some b => ((getBar e.s b).map (·.inval)).getD true
  | none => true

/-- R188, R493. -/
def execXarrive (c : Ctl) (imm : Bool) (a : Code) (v : BitVec 16) (s : State) : Host.Outcome State Fault Refusal :=
  perform (.xarrive c imm a v) c { fields := fun _ => if imm then [] else [⟨a, .reg 1⟩] } s fun e =>
    match e.x.bar with
    | none => .error (.trap tcBarInvalid 0xFFFF 0)
    | some b =>
      if boundBad e then .error (.trap tcBarInvalid (boundLow e.x) 0)
      else
        let n := if imm then v.toNat else val e a 0 % 2 ^ 32
        .ok (done e (barArrive (if tb b.low.toNat 6 then drainCore e.s e.core else e.s) b e.core n))

/-- R190, R494. -/
def execXstamp (c : Ctl) (a b : Code) (off : BitVec 24) (pol : BitVec 4) (scope : BitVec 3) (s : State) :
    Host.Outcome State Fault Refusal :=
  perform (.xstamp c a b off pol scope) c { fields := fun _ => [⟨a, .reg 1⟩, ⟨b, .reg 1⟩] } s fun e =>
    let ea := wrap ((val64 e a 0 : Int) + sext off.toNat 24) 64
    match checkNow e.s e.ctx e.core ea 8 .store with
    | .error (code, cause) => .error (.trap code (memDetail cause 0 true) ea)
    | .ok p =>
      let st : Stamp := ⟨e.x.nextXfer, p.pa, p.key, p.ca, p.scp, BitVec.ofNat 64 (val e b 0), pol, scope⟩
      .ok (modPorter (done e (touchTlb e.s e.ctx e.core ea)) e.core (match e.p with | .porter _ n => n | _ => 0) fun x =>
        { x with stamps := x.stamps ++ [st] })

/-- R189, R495. -/
def execXwait (c : Ctl) (bar : Bool) (a : Code) (n : BitVec 5) (s : State) : Host.Outcome State Fault Refusal :=
  perform (.xwait c bar a n) c { fields := fun _ => if bar then [⟨a, .reg 1⟩] else [] } s fun e =>
    let num := match e.p with | .porter _ n => n | _ => 0
    if !bar then
      if e.x.xfers.length ≤ n.toNat then .ok (done e e.s) else .error (.stall .barrierWait)
    else match e.x.bar with
      | none => .error (.trap tcBarInvalid 0xFFFF 0)
      | some b =>
        let go := fun (cores : List Nat) =>
          let s1 := leaveXwait e.s e.core num
          let cross := ((getBar e.s b).map fun y => flipCrosses y cores e.core).getD false
          done e (if cross then phaseBoundary s1 e.core else s1)
        match e.x.wait with
        | some (some w) => if w.fail then .error (.trap tcBarInvalid (boundLow e.x) 0) else .ok (go w.cores)
        | some none => .error (.stall .barrierWait)
        | none =>
          if boundBad e then .error (.trap tcBarInvalid (boundLow e.x) 0)
          else if ((getBar e.s b).map (·.ph)).getD false != tb (val e a 0) 0 then
            .ok (go (((getBar e.s b).map (·.last)).getD []))
          else .ok (modPorter (modBar e.s b fun y => { y with waiters := y.waiters + 1 }) e.core num fun x =>
            { x with wait := some none })

/-- R183, R495. -/
def execXfence (c : Ctl) (scope order : BitVec 3) (s : State) : Host.Outcome State Fault Refusal :=
  perform (.xfence c scope order) c { fields := fun _ => [] } s fun e =>
    if !e.x.xfers.isEmpty || !e.x.stamps.isEmpty then .error (.stall .portBusy)
    else if scopeLeaves e.tm scope then
      let s1 := drainCore e.s e.core
      .ok (done e (if order = 2 then s1 else phaseBoundary s1 e.core))
    else .ok (done e e.s)

/-- R496. -/
def execXtrap (c : Ctl) (v : BitVec 16) (s : State) : Host.Outcome State Fault Refusal :=
  perform (.xtrap c v) c { fields := fun _ => [] } s fun e =>
    if e.x.resumed then .ok (done e e.s) else .error (.trap tcSoftware v.toNat 0)

/-- R173, R496. -/
def execXend (c : Ctl) (s : State) : Host.Outcome State Fault Refusal :=
  perform (.xend c) c { fields := fun _ => [] } s fun e =>
    .ok (modPorter (done e e.s) e.core (match e.p with | .porter _ n => n | _ => 0) fun x => { x with st := .draining })

/-! ### Events -/

/-- R176, R191: a transfer whose last unit has been credited ends; of one that faulted at a later unit the part performed
ends, and the transfer goes on when it is resumed (R194). -/
def endXfer (s : State) (core num id : Nat) : State :=
  modPorter s core num fun p => match p.xfers.find? (·.id == id) with
    | none => p
    | some x =>
      let late := x.dropped && p.st == .running
      let part := decide (x.stop < ceilDiv x.len 32)
      { p with xfers := p.xfers.filter (·.id != id), dropped := p.dropped || (late && !part),
               carry := p.carry || (late && part) }

/-- Change one transfer. -/
def modXfer (s : State) (core num id : Nat) (f : Xfer → Xfer) : State :=
  modPorter s core num fun p => { p with xfers := mapIf p.xfers (·.id == id) f }

/-- R192: a queue form fails at unit u. -/
def xferFault (s : State) (core num : Nat) (x : Xfer) (code : Byte) (cause info va : Nat) : State :=
  modPorter s core num fun p =>
    { p with xfers := p.xfers.filter (·.id != x.id), buf := x.buf, carry := x.dropped, pending := some (unitFault x.pc x.next code cause info va) }

/-- R176, R188: unit `x.next` has been performed: it is credited, and the transfer goes on or ends. -/
def unitDone (s : State) (core num : Nat) (x : Xfer) : State :=
  let (s, drop) := porterCredit s core num core (unitCredit x x.next)
  let s := modXfer s core num x.id fun y => { y with next := x.next + 1, pages := if queueSide y.instr then [] else y.pages, dropped := y.dropped || drop }
  if x.stop ≤ x.next + 1 then endXfer s core num x.id else s

/-- R178: one record is popped for a unit that needs its bytes, or the pop fails or waits. -/
def xferPop (s : State) (core num : Nat) (t : Team) (x : Xfer) : State :=
  let q := xQueue x.instr
  let p := Party.porter core num
  match getQueue s t.inst q with
  | none => xferFault s core num x tcQueue 0 (0xA0 + q + 0x100) 0
  | some y => match popIndex y p with
    | none => if qEnded y p then xferFault s core num x tcQueue 0 (0xA0 + q + 0x300) 0 else s
    | some n => match y.recs[n]? with
      | none => s
      | some r =>
        if r.poison then xferFault s core num x tcPoison 0 0x300 0
        else
          let s := popOrder (modQueue s t.inst q fun y => popAt y p n) core r
          modXfer s core num x.id fun z =>
            { z with buf := z.buf ++ r.words.flatMap fun w => (bytesOf 4 w.toNat).map fun (b : Byte) => (b, false) }

/-- R178: push the records that the bytes read so far complete, as long as the queue has room. -/
def xferPush (fuel : Nat) (s : State) (core num : Nat) (t : Team) (q : Nat) (buf : List (Byte × Bool)) :
    State × List (Byte × Bool) :=
  match fuel with
  | 0 => (s, buf)
  | f + 1 => match getQueue s t.inst q with
    | none => (s, buf)
    | some y =>
      let n := 4 * qWords y.decl
      if buf.length < n ∨ qFull y then (s, buf)
      else
        let l := buf.take n
        let words := (upto 0 (qWords y.decl)).map fun j =>
          BitVec.ofNat 32 (ofBytes ((l.drop (4 * j)).take 4 |>.map (·.1)))
        let s := modQueue s t.inst q fun y => pushRec y words (some (.porter core num)) none 0 (l.any (·.2)) 0
          (.core core)
        xferPush f s core num t q (buf.drop n)

/-- R176, R178, R186: perform the next unit of a transfer, or as much of it as its queue allows. -/
def unitPerform (s : State) (core num tid : Nat) (t : Team) (x : Xfer) : State :=
  let u := x.next
  let hi := min x.len (32 * u + 32)
  let fresh := queueSide x.instr && decide (x.okTo ≤ u)
  let checked : Checks := if fresh then checkUnit s t.ctx core t x [] u else .ok x.pages
  match checked with
  | .error (code, cause, info, va) => xferFault s core num x code cause info va
  | .ok pages =>
    let x := { x with pages := pages }
    -- R176: a unit of a queue form is checked once, before its first effect
    let s := if fresh then modXfer (pages.foldl (fun s p => touchTlb s t.ctx core (p.1 * 4096)) s) core num x.id fun y =>
        { y with pages := pages, okTo := u + 1 }
      else s
    if xSource x.instr = .queue then
      if 32 * u + x.buf.length < hi then xferPop s core num t x
      else
        let s := modXfer s core num x.id fun y => { y with buf := y.buf.drop (hi - 32 * u) }
        unitDone (unitWrite s tid core x (xDest x.instr) u (x.buf.take (hi - 32 * u))) core num x
    else
      let formed := xSource x.instr == .formed
      if xDest x.instr = .queue then
        let (s, buf) := if x.got < hi then
            let (s, l) := unitRead s tid core x (xSource x.instr) u
            (s, x.buf ++ l)
          else (s, x.buf)
        let (s, buf) := xferPush (buf.length + 1) s core num t (xQueue x.instr) buf
        let s := modXfer s core num x.id fun y => { y with buf := buf, got := max x.got hi }
        let size := ((getQueue s t.inst (xQueue x.instr)).map fun y => 4 * qWords y.decl).getD 1
        if buf.length < size then unitDone s core num x else s
      else
        let (s, l) := if formed then (s, unitFormed t core x u) else unitRead s tid core x (xSource x.instr) u
        let sc := unitScales t core x u
        unitDone (scalesWrite (unitWrite s tid core x (xDest x.instr) u l) tid core x sc) core num x

/-- PORTER_UNIT_PERFORM (R176). -/
def execPorterUnitPerform (core num id : Nat) (s : State) : Host.Outcome State Fault Refusal :=
  let p := getPorter s core num
  match p.xfers.find? (·.id == id), p.team with
  | some x, some tid => match getTeam s tid with
    | some t =>
      if decide (x.next < x.stop) && (match x.instr with | .xmcast .. => false | _ => true) &&
          unitFree s tid t core p.xfers p.stamps x x.next then
        .next (unitPerform s core num tid t x)
      else .next s
    | none => .next s
  | _, _ => .next s

/-- R180: the next unit due for core `dst` is `u`; the transfer ends once every core has had its units. -/
def mcastNext (s : State) (core num dst u : Nat) (x : Xfer) (drop : Bool) : State :=
  let s := modXfer s core num x.id fun y => { y with dsts := Tab.set y.dsts dst u, dropped := y.dropped || drop }
  if (Tab.set x.dsts dst u).all fun d => decide (x.stop ≤ d.2) then endXfer s core num x.id else s

/-- XMCAST_DELIVERY (R180, R188): the next unit for core `dst`. The manual does not say what becomes of the units due to a
core whose receiving team has retired or been saved since the issue: they are neither delivered nor credited (DESIGN
CHOICE, log 27). -/
def execXmcastDelivery (core num id dst : Nat) (s : State) : Host.Outcome State Fault Refusal :=
  let p := getPorter s core num
  match p.xfers.find? (·.id == id), p.team with
  | some x, some tid => match getTeam s tid with
    | none => .next s
    | some t => match Tab.find x.dsts dst, mcastTeam s t dst with
      | some u, some (rid, _) =>
        if x.stop ≤ u || !unitFree s tid t core p.xfers p.stamps x u then .next s
        else
          let s := unitWrite s rid dst x .rows u (unitFormed t core x u)
          let (s, drop) := porterCredit s core num dst (unitCredit x u)
          .next (mcastNext s core num dst (u + 1) x drop)
      | some u, none => .next (mcastNext s core num dst (max u x.stop) x false)
      | _, _ => .next s
  | _, _ => .next s

/-- XSTAMP_WRITE (R162, R190): the oldest stamp, once every earlier transfer has ended. -/
def execXstampWrite (core num : Nat) (s : State) : Host.Outcome State Fault Refusal :=
  let p := getPorter s core num
  match p.stamps, (getTeam s (p.team.getD 0)) with
  | st :: rest, some t =>
    if p.xfers.any fun x => decide (x.id < st.after) then .next s
    else
      let leaves := scopeLeaves t st.scope
      let s := if leaves then drainCore s core else s
      let q : Phys := ⟨st.pa, st.key, st.ca, st.scp, false, false⟩
      let s := storeBytes s core q (polLevel (st.pol.toNat % 4) st.ca false) (polLevel (st.pol.toNat / 4) st.ca true)
        (bytesOf 8 st.data.toNat) false
      let s := if leaves || st.ca == 1 then drainSector s core (st.pa / 32) else s
      .next (modPorter s core num fun p => { p with stamps := rest })
  | _, _ => .next s

/-- PORTER_FAULT (R192, R193): every earlier transfer has ended. -/
def execPorterFault (core num : Nat) (s : State) : Host.Outcome State Fault Refusal :=
  let p := getPorter s core num
  match p.pending with
  | some f => .next (if p.xfers.isEmpty && p.stamps.isEmpty then porterFaulted s core num f else s)
  | none => .next s

/-- DROPPED_CREDIT_FAULT (R191). -/
def execDroppedCreditFault (core num : Nat) (s : State) : Host.Outcome State Fault Refusal :=
  let p := getPorter s core num
  if p.dropped && p.roff == 0 && p.xfers.isEmpty && p.stamps.isEmpty && p.pending.isNone && p.st == .running then
    let s := modPorter s core num fun x => { x with dropped := false }
    .next (porterFaulted s core num ⟨p.pc, tcBarInvalid, 0, boundLow p, 0, 0⟩)
  else .next s

/-- PORTER_DRAIN_END (R167, R60). -/
def execPorterDrainEnd (core num : Nat) (s : State) : Host.Outcome State Fault Refusal :=
  let p := getPorter s core num
  if p.st == .draining && p.xfers.isEmpty && p.stamps.isEmpty then .next (porterIdle s core num)
  else .next s

end Sys2Proof.Machine
end

