-- ==== Sys2Proof/Machine/System.lean ====
section
/-! DEFINITION. Class 7: barriers, SYNC, the special registers, TRAP and TRET (R29, R34, R73, R106 to R108, R135, R187,
R191, R214, R289, R295 to R299, R303, R306 to R308, R372 to R377, R381 to R383, R389, R390, R452 to R454, R472, R473,
R477, R478, R480, R481). -/

namespace Sys2Proof.Machine

/-! ### Barriers -/

/-- R290: detail of BARRIER_BUSY. -/
def busyDetail (h cause : Nat) : Nat := h % 128 + cause * 256

/-- R373: the handle of an instruction. -/
def handleOf (e : Env) (a : Code) : Nat := val e a e.low % 2 ^ 32

/-- R373, R306: the barrier named, invalidated or not. -/
def heldBar (e : Env) (h : Nat) : Except Stop (BarRef × Barrier) :=
  match barHeld e.s e.tm e.core h with
  | none => .error (.trap tcBarInvalid (h % 2 ^ 16) 0)
  | some b => match getBar e.s b with
    | none => .error (.trap tcBarInvalid (h % 2 ^ 16) 0)
    | some x => .ok (b, x)

/-- R191: a transfer of a porter that credits a barrier is outstanding. -/
def porterCrediting (s : State) (core : Nat) (x : Porter) (b : BarRef) : Bool :=
  match x.bar, getTeam s (x.team.getD 0) with
  | some r, some t => x.xfers.any fun y =>
      let hits := fun (c : Nat) => match mcastBar s t core r c with
        | some z => z.core == b.core && z.entry == b.entry
        | none => false
      match y.instr with
      | .xmcast .. => y.dsts.any fun d => hits d.1
      | _ => hits core
  | _, _ => false

def crediting (s : State) (b : BarRef) : Bool :=
  s.cores.any fun k => porterCrediting s k.1 k.2.p0 b || porterCrediting s k.1 k.2.p1 b

/-- R307, R375: take a free entry and the team's lowest free name: the new state and the handle. -/
def barAlloc (s : State) (t core : Nat) (pair : Bool) : State × Nat :=
  match getTeam s t with
  | none => (s, 0)
  | some x =>
    if pair && !x.pair then (s, 0)
    else
      let at' := if pair then x.core else core
      match freeEntry s at', freeName x with
      | some e, some n =>
        let old := Tab.get x.names n ⟨0, none, false⟩
        let gen := if old.gen = 2 ^ 18 - 1 then 1 else old.gen + 1
        let new : Barrier := ⟨1, 1, 0, false, [], [], [], 0, 1, false, pair, t, n⟩
        let s1 := modCore s at' fun k => { k with pool := Tab.set k.pool e new }
        (modTeam s1 t fun y => { y with names := Tab.set y.names n ⟨gen, some (at', e), pair⟩ },
          gen * 2 ^ 14 + pair.toNat * 64 + n)
      | _, _ => (s, 0)

def execBalloc (c : Ctl) (d : Code) (pair : Bool) (f : Code) (s : State) : Host.Outcome State Fault Refusal :=
  perform (.balloc c d pair f) c { fields := fun _ => [⟨d, .out 1⟩, ⟨f, .pout false⟩] } s fun e =>
    if e.act.isEmpty then .ok (done e e.s)
    else
      let r := barAlloc e.s e.t e.core pair
      .ok (done e (writePred e (writeRun e r.1 d 1 fun _ => r.2) f fun _ => r.2 == 0))

/-- R381. -/
def execBfree (c : Ctl) (a : Code) (s : State) : Host.Outcome State Fault Refusal :=
  perform (.bfree c a) c { fields := fun _ => [⟨a, .reg 1⟩], once := true } s fun e =>
    let h := handleOf e a
    if e.act.isEmpty then .ok (done e e.s)
    else match heldBar e h with
      | .error x => .error x
      | .ok (b, x) =>
        if x.waiters ≠ 0 then .error (.trap tcBarBusy (busyDetail h 1) 0)
        else .ok (done e (modTeam (barDrop e.s b) e.t fun y =>
          { y with names := y.names.map fun n => if n.1 == h % 64 then (n.1, { n.2 with bar := none }) else n }))

/-- R382. -/
def execBinit (c : Ctl) (a : Code) (n : BitVec 24) (s : State) : Host.Outcome State Fault Refusal :=
  perform (.binit c a n) c { fields := fun _ => [⟨a, .reg 1⟩], once := true } s fun e =>
    let h := handleOf e a
    if e.act.isEmpty then .ok (done e e.s)
    else match heldBar e h with
      | .error x => .error x
      | .ok (b, x) =>
        if x.inval then .error (.trap tcBarInvalid (h % 2 ^ 16) 0)
        else if x.waiters ≠ 0 then .error (.trap tcBarBusy (busyDetail h 1) 0)
        else if x.tx ≠ 0 ∨ x.arr ≠ x.exp ∨ x.pend ≠ [] then .error (.trap tcBarBusy (busyDetail h 2) 0)
        else if crediting e.s b then .error (.trap tcBarBusy (busyDetail h 3) 0)
        else .ok (done e (modBar e.s b fun y => { y with exp := n.toNat, arr := n.toNat, tx := 0 }))

/-- R377 step 1; BARRIVE_ARRIVAL_APPLIED makes steps 2 and 3. -/
def execBarrive (c : Ctl) (a : Code) (n : BitVec 24) (f : Code) (s : State) : Host.Outcome State Fault Refusal :=
  perform (.barrive c a n f) c { fields := fun _ => [⟨a, .reg 1⟩, ⟨f, .pout false⟩], once := true } s fun e =>
    let h := handleOf e a
    if e.act.isEmpty then .ok (done e e.s)
    else match heldBar e h with
      | .error x => .error x
      | .ok (b, x) =>
        if x.inval then .ok (done e (writePred e e.s f fun _ => true))
        else if x.arr ≤ x.pend.length then .error (.trap tcBarBusy (busyDetail h 2) 0)
        else
          let s1 := modBar e.s b fun y => { y with pend := y.pend ++ [(n.toNat, e.p, e.com.nextOp)], refs := y.refs + 1 }
          .ok (done e (writePred e s1 f fun _ => false))

/-- R390, R153: a BWAIT on `x` that completes on state `s` as `w` says. -/
def bwaitDone (e : Env) (s : State) (f : Code) (x : Barrier) (w : WaitEnd) : State :=
  let s1 := if flipCrosses x w.cores e.core && !w.fail then phaseBoundary s e.core else s
  done e (writePred e s1 f fun _ => w.fail)

def execBwait (c : Ctl) (d a : Code) (f : Code) (s : State) : Host.Outcome State Fault Refusal :=
  perform (.bwait c d a f) c { fields := fun _ => [⟨d, .reg 1⟩, ⟨a, .reg 1⟩, ⟨f, .pout false⟩], once := true } s fun e =>
    if e.act.isEmpty then .ok (done e e.s)
    else match e.com.wait with
      | some (.bwait b (some w)) => match getBar e.s b with
        | some x => .ok (bwaitDone e (barLeave e.s b) f x w)
        | none => .ok (done e (writePred e e.s f fun _ => true))
      | some (.bwait _ none) => .error (.stall .barrierWait)
      | _ => match heldBar e (handleOf e a) with
        | .error x => .error x
        | .ok (b, x) =>
          if x.inval then .ok (bwaitDone e e.s f x ⟨true, []⟩)
          else if x.ph != tb (val e d e.low) 0 then .ok (bwaitDone e e.s f x (lastFlip x))
          else
            let s1 := modBar e.s b fun y => { y with waiters := y.waiters + 1 }
            .ok (stallParty (modCom s1 e.p fun m => { m with wait := some (.bwait b none) }) e.p .barrierWait)

/-- R389. -/
def execBtest (c : Ctl) (d a : Code) (r f : Code) (s : State) : Host.Outcome State Fault Refusal :=
  perform (.btest c d a r f) c
    { fields := fun _ => [⟨d, .reg 1⟩, ⟨a, .reg 1⟩, ⟨r, .pout false⟩, ⟨f, .pout false⟩], once := true } s fun e =>
    if e.act.isEmpty then .ok (done e e.s)
    else match heldBar e (handleOf e a) with
      | .error x => .error x
      | .ok (_, x) =>
        let res := x.inval || x.ph != tb (val e d e.low) 0
        let s1 := if res && !x.inval && flipCrosses x x.last e.core then phaseBoundary e.s e.core else e.s
        .ok (done e (writePred e (writePred e s1 r fun _ => res) f fun _ => x.inval))

/-- R383. -/
def execBinval (c : Ctl) (a : Code) (s : State) : Host.Outcome State Fault Refusal :=
  perform (.binval c a) c { fields := fun _ => [⟨a, .reg 1⟩], once := true } s fun e =>
    if e.act.isEmpty then .ok (done e e.s)
    else match heldBar e (handleOf e a) with
      | .error x => .error x
      | .ok (b, _) => .ok (done e (barInvalidate e.s b))

/-- R472, R473. A SYNC that was already counted waits without counting again. -/
def execSync (c : Ctl) (s : State) : Host.Outcome State Fault Refusal :=
  perform (.sync c) c { fields := fun _ => [], fork := true, whole := true } s fun e =>
    match e.com.wait with
    | some .sync =>
      if e.g.sync ≤ e.tm.syncP then .ok (done e (if e.tm.pair then phaseBoundary e.s e.core else e.s))
      else .error (.stall .barrierWait)
    | _ =>
      let s1 := if e.tm.pair then drainCore e.s e.core else e.s
      let s2 := modGroup s1 e.t e.gid fun g => { g with sync := g.sync + 1, com := { g.com with wait := some .sync } }
      .ok (stallParty (syncAdvance s2 e.t) e.p .barrierWait)

/-! ### Special registers -/

/-- R453: the 64-bit codes, the readable ones, and the handler's. -/
def srWide (sr : Nat) : Bool := [0x0C, 0x0E, 0x15, 0x16, 0x22].contains sr
def srKnown (sr : Nat) : Bool := decide (sr ≤ 0x0E) || decide (0x10 ≤ sr ∧ sr ≤ 0x16) || decide (0x20 ≤ sr ∧ sr ≤ 0x23)
def srHandler (sr : Nat) : Bool := decide (0x20 ≤ sr ∧ sr ≤ 0x23)

/-- R214: `%mstat` of a team. -/
def mstatOf (s : State) (t : Nat) (tm : Team) : Nat :=
  let busy := s.cores.any fun k => k.2.me.any fun m => m.team == t
  (tm.mstat.toNat &&& 0x7E) + (getCore s tm.core).narrow.toNat * 128 + busy.toNat

/-- R454: `%keyslot` of a context. -/
def keySlotOf (x : Context) : Nat :=
  let s := fun i => nth x.slots i 0 % 64
  x.slots.length % 8 * 2 ^ 24 + s 3 * 2 ^ 18 + s 2 * 2 ^ 12 + s 1 * 2 ^ 6 + s 0

/-- R295: the trap that a reader of `%trapcode`, `%trapdetail` and `%trappc` sees. -/
def trapSeen (e : Env) : TrapInfo :=
  if isHandler e.t then ((served e.s e.core).map (·.info)).getD ⟨0, 0, 0, 0⟩
  else ⟨e.com.tcode, e.com.tdetail, e.com.tpc, 0⟩

/-- R453: the value of a special register in a lane. R82 lets the handler see each thread's PC, and no rule names a register
or an access that shows it: the handler reads `%trappc` alone (DESIGN CHOICE, log 44). -/
def srValue (e : Env) (sr lane : Nat) : Nat :=
  let g := e.kind == .group
  match sr with
  | 0x00 => if g then lane else 0xFFFFFFFF
  | 0x01 => if g then e.gid else 0xFFFFFFFF
  | 0x02 => e.tm.tx
  | 0x03 => e.tm.ty
  | 0x04 => e.tm.tz
  | 0x05 => e.tm.nx
  | 0x06 => e.tm.ny
  | 0x07 => e.tm.nz
  | 0x08 => e.tm.width
  | 0x09 => e.core
  | 0x0A => if !g && e.tm.pair then 0 else e.core % 2
  | 0x0B => e.ctx
  | 0x0C => (getCore e.s e.core).cycle.toNat
  | 0x0D => if g then (thread e.g lane).wb else 0
  | 0x0E => if g then (thread e.g lane).meet.toNat else noPc.toNat
  | 0x10 => e.com.fcr.toNat
  | 0x11 => e.com.fsr.toNat
  | 0x12 => mstatOf e.s e.t e.tm
  | 0x13 => (trapSeen e).code.toNat
  | 0x14 => (trapSeen e).detail.toNat
  | 0x15 => (trapSeen e).pc.toNat
  | 0x16 => e.tm.argblk.toNat
  | 0x20 => (getCore e.s e.core).ptest.toNat
  | 0x21 => keySlotOf (getCtx e.s e.ctx)
  | 0x22 => (trapSeen e).va.toNat
  | 0x23 => ((served e.s e.core).map (trapSrc e.s)).getD 0
  | _ => 0

/-- R289: the cycles counted since `%cycle` was last read. -/
def tickCycle (s : State) (core : Nat) : State :=
  modCore s core fun k => { k with cycle := k.cycle + BitVec.ofNat 64 (Config.freeCycles s.tick) }

/-- R452, R345. -/
def execRdsr (c : Ctl) (d : Code) (sr : BitVec 8) (s : State) : Host.Outcome State Fault Refusal :=
  let run := fun (k : Kind) => if k == .group && srWide sr.toNat then 2 else 1
  perform (.rdsr c d sr) c
    { fields := fun k => [⟨d, .out (run k)⟩]
      illegal := fun _ => if srKnown sr.toNat then none else some sr.toNat
      privilege := fun e => if srHandler sr.toNat && !isHandler e.t then some sr.toNat else none } s fun e =>
    if sr = 0x08 ∧ e.act ≠ [] ∧ e.tm.declared = false then .error (.trap tcWidth 0x08 0)
    else
      let s1 := if sr = 0x0C then tickCycle e.s e.core else e.s
      .ok (done e (writeRun e s1 d (run e.kind) (srValue { e with s := s1 } sr.toNat)))

/-- R481: the reserved bits of a writable 32-bit register. -/
def srReserved (sr : Nat) : Nat :=
  match sr with
  | 0x10 => 0xFFFFFE00
  | 0x11 => 0xFFFFFFE0
  | 0x12 => 0xFFFFFF00
  | _ => 0x7FFF0000

/-- R481: may the kind write the code? -/
def srWritable (k : Kind) (sr : Nat) : Bool := (sr == 0x0E && k == .group) || [0x10, 0x11, 0x12, 0x20].contains sr

/-- R481, R303: a 32-bit write. -/
def srWrite (e : Env) (sr v : Nat) : State :=
  match sr with
  | 0x10 => modCom e.s e.p fun c => { c with fcr := BitVec.ofNat 32 v }
  | 0x11 => modCom e.s e.p fun c => { c with fsr := BitVec.ofNat 32 v }
  | 0x12 => modTeam e.s e.t fun t => { t with mstat := t.mstat &&& ~~~(BitVec.ofNat 32 (v &&& 0x7E)) }
  | _ =>
    if tb v 31 ∧ v % 2 ^ 16 = 0 then preemptCore (modCore e.s e.core fun k => { k with ptest := 0 }) e.core
    else modCore e.s e.core fun k => { k with ptest := BitVec.ofNat 32 v }

/-- R73: `%meet` is none or a well-formed PC in every lane. Where several lanes hold malformed values the detail is that of
the lowest (DESIGN CHOICE, log 15: R73 names no lane). -/
def meetWrite (e : Env) (v : Nat → Nat) : Except Stop State :=
  match e.act.find? fun l => !(BitVec.ofNat 64 (v l) == noPc || pcOk (BitVec.ofNat 64 (v l))) with
  | some l => .error (.trap tcTarget (v l % 2 ^ 32) 0)
  | none => .ok (modGroup e.s e.t e.gid fun x =>
      { x with thr := mapLanes x.thr 0 e.act fun l h => { h with meet := BitVec.ofNat 64 (v l) } })

/-- R480. -/
def execWrsr (c : Ctl) (a : Code) (sr : BitVec 8) (imm : Bool) (v : BitVec 24) (s : State) :
    Host.Outcome State Fault Refusal :=
  perform (.wrsr c a sr imm v) c
    { fields := fun k => if imm then [] else [⟨a, .reg (if sr = 0x0E && k == .group then 2 else 1)⟩]
      once := sr != 0x0E
      illegal := fun e => if srWritable e.kind sr.toNat then none else some sr.toNat
      privilege := fun e => if sr = 0x20 ∧ isHandler e.t = false then some 0x20 else none } s fun e =>
    if e.act.isEmpty then .ok (done e e.s)
    else if sr = 0x0E then
      match meetWrite e fun l => if imm then v.toNat else val64 e a l with
      | .error x => .error x
      | .ok s1 => .ok (done e s1)
    else
      let x := if imm then v.toNat else val e a e.low % 2 ^ 32
      if x &&& srReserved sr.toNat ≠ 0 then .error (.trap tcIllegal sr.toNat 0)
      else .ok (done e (srWrite e sr.toNat x))

/-! ### TRAP and TRET -/

/-- R477. -/
def execTrap (c : Ctl) (v : BitVec 24) (s : State) : Host.Outcome State Fault Refusal :=
  perform (.trap c v) c { fields := fun _ => [] } s fun e =>
    if e.act.isEmpty then .ok (done e e.s) else .error (.trap tcSoftware v.toNat 0)

/-- R478: an access of the handler, by its lead or its group, has still to be performed. -/
def handlerDue (s : State) (t : Nat) : Bool :=
  match getTeam s t with
  | some x => accessDue x.lead.com x.lead.com.nextOp || x.groups.any fun g => accessDue g.2.com g.2.com.nextOp
  | none => false

/-- R478, R298: once every earlier access of the handler is performed, the action, the drain of the handler's core, and the
end of the handler. -/
def execTret (c : Ctl) (act : BitVec 2) (s : State) : Host.Outcome State Fault Refusal :=
  perform (.tret c act) c
    { fields := fun _ => [], privilege := fun e => if isHandler e.t then none else some 0x399 } s fun e =>
    if e.act.isEmpty then .ok (done e e.s)
    else if handlerDue e.s e.t then .error (.stall .scoreboard)
    else
      let s1 := match served e.s e.core with
        | some x => endTrap e.s e.core x act.toNat
        | none => e.s
      .ok (endHandler (drainCore s1 e.core) e.core)

end Sys2Proof.Machine
end

