-- ==== Sys2Proof/Machine/Dispatch.lean ====
section
/-! DEFINITION. One arm per row of the table of operations and events. -/

namespace Sys2Proof.Machine

def exec (i : Instr) (s : State) : Host.Outcome State Fault Refusal :=
  match i with
  | .iadd c d a b sat => Sys2Proof.Machine.execIadd c d a b sat s
  | .isub c d a b sat => Sys2Proof.Machine.execIsub c d a b sat s
  | .imul c d a b => Sys2Proof.Machine.execImul c d a b s
  | .imulh c d a b u => Sys2Proof.Machine.execImulh c d a b u s
  | .imad c d a b e => Sys2Proof.Machine.execImad c d a b e s
  | .imadw c d a b e u => Sys2Proof.Machine.execImadw c d a b e u s
  | .idot4 c d a b e ua ub => Sys2Proof.Machine.execIdot4 c d a b e ua ub s
  | .imin c d a b u => Sys2Proof.Machine.execImin c d a b u s
  | .imax c d a b u => Sys2Proof.Machine.execImax c d a b u s
  | .iabs c d a => Sys2Proof.Machine.execIabs c d a s
  | .icmp c d a b cond comb pc => Sys2Proof.Machine.execIcmp c d a b cond comb pc s
  | .tern c d a b pc => Sys2Proof.Machine.execTern c d a b pc s
  | .loca c d a b sh w => Sys2Proof.Machine.execLoca c d a b sh w s
  | .bAnd c d a b => Sys2Proof.Machine.execBAnd c d a b s
  | .bAndn c d a b => Sys2Proof.Machine.execBAndn c d a b s
  | .bOr c d a b => Sys2Proof.Machine.execBOr c d a b s
  | .bXor c d a b => Sys2Proof.Machine.execBXor c d a b s
  | .shl c d a b => Sys2Proof.Machine.execShl c d a b s
  | .shr c d a b => Sys2Proof.Machine.execShr c d a b s
  | .sar c d a b => Sys2Proof.Machine.execSar c d a b s
  | .funl c d a b e => Sys2Proof.Machine.execFunl c d a b e s
  | .bfx c d a b sx => Sys2Proof.Machine.execBfx c d a b sx s
  | .bfi c d a b e => Sys2Proof.Machine.execBfi c d a b e s
  | .popc c d a => Sys2Proof.Machine.execPopc c d a s
  | .clz c d a => Sys2Proof.Machine.execClz c d a s
  | .brev c d a => Sys2Proof.Machine.execBrev c d a s
  | .mixb c d a b e fill => Sys2Proof.Machine.execMixb c d a b e fill s
  | .psop c d a b e n terms => Sys2Proof.Machine.execPsop c d a b e n terms s
  | .mov c d a b64 => Sys2Proof.Machine.execMov c d a b64 s
  | .movi c d v hi => Sys2Proof.Machine.execMovi c d v hi s
  | .fadd c d a b ty rnd => Sys2Proof.Machine.execFadd c d a b ty rnd s
  | .fsub c d a b ty rnd => Sys2Proof.Machine.execFsub c d a b ty rnd s
  | .fmul c d a b ty rnd => Sys2Proof.Machine.execFmul c d a b ty rnd s
  | .ffma c d a b e ty rnd => Sys2Proof.Machine.execFfma c d a b e ty rnd s
  | .fmin c d a b ty => Sys2Proof.Machine.execFmin c d a b ty s
  | .fmax c d a b ty => Sys2Proof.Machine.execFmax c d a b ty s
  | .fcmp c d a b ty cond comb pc => Sys2Proof.Machine.execFcmp c d a b ty cond comb pc s
  | .frnd c d a ty rnd => Sys2Proof.Machine.execFrnd c d a ty rnd s
  | .fclass c d a ty => Sys2Proof.Machine.execFclass c d a ty s
  | .fdivf c d a b ty rnd => Sys2Proof.Machine.execFdivf c d a b ty rnd s
  | .cvt c d a e mrg dsel ssel sat rnd df sf => Sys2Proof.Machine.execCvt c d a e mrg dsel ssel sat rnd df sf s
  | .rcp c d a ty rnd => Sys2Proof.Machine.execRcp c d a ty rnd s
  | .rsq c d a ty rnd => Sys2Proof.Machine.execRsq c d a ty rnd s
  | .sqrt c d a ty rnd => Sys2Proof.Machine.execSqrt c d a ty rnd s
  | .exp2 c d a ty rnd => Sys2Proof.Machine.execExp2 c d a ty rnd s
  | .log2 c d a ty rnd => Sys2Proof.Machine.execLog2 c d a ty rnd s
  | .sincos c d a ty rnd => Sys2Proof.Machine.execSincos c d a ty rnd s
  | .tanh c d a ty rnd => Sys2Proof.Machine.execTanh c d a ty rnd s
  | .rngc c d a b => Sys2Proof.Machine.execRngc c d a b s
  | .edge c d a b e conj => Sys2Proof.Machine.execEdge c d a b e conj s
  | .swiz c d a b useImm imm7 mode => Sys2Proof.Machine.execSwiz c d a b useImm imm7 mode s
  | .ballot c d a => Sys2Proof.Machine.execBallot c d a s
  | .redux c d a op rnd => Sys2Proof.Machine.execRedux c d a op rnd s
  | .scan c d a op rnd x => Sys2Proof.Machine.execScan c d a op rnd x s
  | .ld c d m o sx => Sys2Proof.Machine.execLd c d m o sx s
  | .st c a b off o => Sys2Proof.Machine.execSt c a b off o s
  | .lds c d m size sx => Sys2Proof.Machine.execLds c d m size sx s
  | .sts c a b off size => Sys2Proof.Machine.execSts c a b off size s
  | .atom c d a b off o op => Sys2Proof.Machine.execAtom c d a b off o op s
  | .atomb c d a b off size op => Sys2Proof.Machine.execAtomb c d a b off size op s
  | .red c a b off o op => Sys2Proof.Machine.execRed c a b off o op s
  | .monw c d a b off o cond => Sys2Proof.Machine.execMonw c d a b off o cond s
  | .pref c m pol => Sys2Proof.Machine.execPref c m pol s
  | .fence c scope order => Sys2Proof.Machine.execFence c scope order s
  | .cwb c a b off => Sys2Proof.Machine.execCwb c a b off s
  | .cinv c a b off => Sys2Proof.Machine.execCinv c a b off s
  | .iinv c a b off scope => Sys2Proof.Machine.execIinv c a b off scope s
  | .cpin c d a b off => Sys2Proof.Machine.execCpin c d a b off s
  | .cunpin c d a b off => Sys2Proof.Machine.execCunpin c d a b off s
  | .nop c => Sys2Proof.Machine.execNop c s
  | .br c t => Sys2Proof.Machine.execBr c t s
  | .brc c a b cond t => Sys2Proof.Machine.execBrc c a b cond t s
  | .brv c a t m => Sys2Proof.Machine.execBrv c a t m s
  | .bdq c n z t => Sys2Proof.Machine.execBdq c n z t s
  | .brx c a => Sys2Proof.Machine.execBrx c a s
  | .call c slide t => Sys2Proof.Machine.execCall c slide t s
  | .callx c a slide => Sys2Proof.Machine.execCallx c a slide s
  | .ret c => Sys2Proof.Machine.execRet c s
  | .loop c a t => Sys2Proof.Machine.execLoop c a t s
  | .exit c => Sys2Proof.Machine.execExit c s
  | .dqpush c a => Sys2Proof.Machine.execDqpush c a s
  | .dqpop c d b32 => Sys2Proof.Machine.execDqpop c d b32 s
  | .setmeet c no m => Sys2Proof.Machine.execSetmeet c no m s
  | .waypt c mask => Sys2Proof.Machine.execWaypt c mask s
  | .rstlbl c close t => Sys2Proof.Machine.execRstlbl c close t s
  | .yield c => Sys2Proof.Machine.execYield c s
  | .fbar c => Sys2Proof.Machine.execFbar c s
  | .qpush c a q => Sys2Proof.Machine.execQpush c a q s
  | .qpop c d q e => Sys2Proof.Machine.execQpop c d q e s
  | .qstat c d q => Sys2Proof.Machine.execQstat c d q s
  | .qbind c d a q kind slot port unbind => Sys2Proof.Machine.execQbind c d a q kind slot port unbind s
  | .tdset c a td w ix => Sys2Proof.Machine.execTdset c a td w ix s
  | .tdget c d td w ix => Sys2Proof.Machine.execTdget c d td w ix s
  | .mldw c a b td pair => Sys2Proof.Machine.execMldw c a b td pair s
  | .mswap c b pair => Sys2Proof.Machine.execMswap c b pair s
  | .mma c d a b td pair => Sys2Proof.Machine.execMma c d a b td pair s
  | .mmaq c d b td q pair => Sys2Proof.Machine.execMmaq c d b td q pair s
  | .mzero c d b pair => Sys2Proof.Machine.execMzero c d b pair s
  | .mlda c d a b td pair => Sys2Proof.Machine.execMlda c d a b td pair s
  | .msta c d a b td pair rnd sat => Sys2Proof.Machine.execMsta c d a b td pair rnd sat s
  | .pstart c d a b unit entry n resume => Sys2Proof.Machine.execPstart c d a b unit entry n resume s
  | .pstop c d unit => Sys2Proof.Machine.execPstop c d unit s
  | .pstat c d unit sel => Sys2Proof.Machine.execPstat c d unit sel s
  | .iload c d a b e kind => Sys2Proof.Machine.execIload c d a b e kind s
  | .ictlState c d a kind => Sys2Proof.Machine.execIctlState c d a kind s
  | .ictlResume c d a kind => Sys2Proof.Machine.execIctlResume c d a kind s
  | .ictlDiscard c d a kind => Sys2Proof.Machine.execIctlDiscard c d a kind s
  | .ictlFaultAddress c d a kind => Sys2Proof.Machine.execIctlFaultAddress c d a kind s
  | .passbegin c d a => Sys2Proof.Machine.execPassbegin c d a s
  | .passend c d a => Sys2Proof.Machine.execPassend c d a s
  | .passstat c d a => Sys2Proof.Machine.execPassstat c d a s
  | .resolve c d a => Sys2Proof.Machine.execResolve c d a s
  | .xldi c d a off pol size sp => Sys2Proof.Machine.execXldi c d a off pol size sp s
  | .xcoord c d a td => Sys2Proof.Machine.execXcoord c d a td s
  | .xcopy c a b e td q pad dir => Sys2Proof.Machine.execXcopy c a b e td q pad dir s
  | .xgather c a b e td pad n => Sys2Proof.Machine.execXgather c a b e td pad n s
  | .xscatter c a b e td pad n => Sys2Proof.Machine.execXscatter c a b e td pad n s
  | .xmcast c a b e td pad => Sys2Proof.Machine.execXmcast c a b e td pad s
  | .xstmx c a b td pad bf16 had => Sys2Proof.Machine.execXstmx c a b td pad bf16 had s
  | .xfill c a b e td sx => Sys2Proof.Machine.execXfill c a b e td sx s
  | .xarrive c imm a v => Sys2Proof.Machine.execXarrive c imm a v s
  | .xstamp c a b off pol scope => Sys2Proof.Machine.execXstamp c a b off pol scope s
  | .xwait c bar a n => Sys2Proof.Machine.execXwait c bar a n s
  | .xfence c scope order => Sys2Proof.Machine.execXfence c scope order s
  | .xtrap c v => Sys2Proof.Machine.execXtrap c v s
  | .xend c => Sys2Proof.Machine.execXend c s
  | .balloc c d pair f => Sys2Proof.Machine.execBalloc c d pair f s
  | .bfree c a => Sys2Proof.Machine.execBfree c a s
  | .binit c a n => Sys2Proof.Machine.execBinit c a n s
  | .barrive c a n f => Sys2Proof.Machine.execBarrive c a n f s
  | .bwait c d a f => Sys2Proof.Machine.execBwait c d a f s
  | .btest c d a r f => Sys2Proof.Machine.execBtest c d a r f s
  | .binval c a => Sys2Proof.Machine.execBinval c a s
  | .sync c => Sys2Proof.Machine.execSync c s
  | .rdsr c d sr => Sys2Proof.Machine.execRdsr c d sr s
  | .wrsr c a sr imm v => Sys2Proof.Machine.execWrsr c a sr imm v s
  | .trap c v => Sys2Proof.Machine.execTrap c v s
  | .tret c act => Sys2Proof.Machine.execTret c act s
  | .handlerEntry core => Sys2Proof.Machine.execHandlerEntry core s
  | .instructionComplete p op => Sys2Proof.Machine.execInstructionComplete p op s
  | .queueRecordVisible inst q => Sys2Proof.Machine.execQueueRecordVisible inst q s
  | .barriveArrivalApplied core entry => Sys2Proof.Machine.execBarriveArrivalApplied core entry s
  | .sliceAccess p op lane => Sys2Proof.Machine.execSliceAccess p op lane s
  | .scFillComplete line => Sys2Proof.Machine.execScFillComplete line s
  | .sliceAtomic pa => Sys2Proof.Machine.execSliceAtomic pa s
  | .writeBufferDrain core ix => Sys2Proof.Machine.execWriteBufferDrain core ix s
  | .monitorReread p op lane => Sys2Proof.Machine.execMonitorReread p op lane s
  | .pageWalkComplete ix => Sys2Proof.Machine.execPageWalkComplete ix s
  | .instructionLineFill core va => Sys2Proof.Machine.execInstructionLineFill core va s
  | .lqwrWrite ctx q v => Sys2Proof.Machine.execLqwrWrite ctx q v s
  | .lqcfgWrite ctx q v => Sys2Proof.Machine.execLqcfgWrite ctx q v s
  | .packetBecomesHead ctx q => Sys2Proof.Machine.execPacketBecomesHead ctx q s
  | .tokenReread l => Sys2Proof.Machine.execTokenReread l s
  | .admissionStep => Sys2Proof.Machine.execAdmissionStep s
  | .contextZeroingDone core => Sys2Proof.Machine.execContextZeroingDone core s
  | .porterSectionCopyDone core => Sys2Proof.Machine.execPorterSectionCopyDone core s
  | .teamStart team => Sys2Proof.Machine.execTeamStart team s
  | .teamRetirement team => Sys2Proof.Machine.execTeamRetirement team s
  | .launchEnd l => Sys2Proof.Machine.execLaunchEnd l s
  | .rebalanceInterval inst => Sys2Proof.Machine.execRebalanceInterval inst s
  | .deadlineApproach ctx v => Sys2Proof.Machine.execDeadlineApproach ctx v s
  | .teamSave team => Sys2Proof.Machine.execTeamSave team s
  | .powerAlarmRaise cores => Sys2Proof.Machine.execPowerAlarmRaise cores s
  | .powerAlarmLower => Sys2Proof.Machine.execPowerAlarmLower s
  | .matrixRowWrite core => Sys2Proof.Machine.execMatrixRowWrite core s
  | .matrixCommandComplete core => Sys2Proof.Machine.execMatrixCommandComplete core s
  | .porterUnitPerform core p x => Sys2Proof.Machine.execPorterUnitPerform core p x s
  | .xmcastDelivery core p x dst => Sys2Proof.Machine.execXmcastDelivery core p x dst s
  | .xstampWrite core p => Sys2Proof.Machine.execXstampWrite core p s
  | .porterFault core p => Sys2Proof.Machine.execPorterFault core p s
  | .droppedCreditFault core p => Sys2Proof.Machine.execDroppedCreditFault core p s
  | .porterDrainEnd core p => Sys2Proof.Machine.execPorterDrainEnd core p s
  | .iloadComplete ctx => Sys2Proof.Machine.execIloadComplete ctx s
  | .islandLoad kind idx => Sys2Proof.Machine.execIslandLoad kind idx s
  | .sample2d core b => Sys2Proof.Machine.execSample2d core b s
  | .sampleCube core b => Sys2Proof.Machine.execSampleCube core b s
  | .rayBox4 core b => Sys2Proof.Machine.execRayBox4 core b s
  | .rayTri core b => Sys2Proof.Machine.execRayTri core b s
  | .rayFrustum64 core b => Sys2Proof.Machine.execRayFrustum64 core b s
  | .blendColour b => Sys2Proof.Machine.execBlendColour b s
  | .rasterCoarse quad b => Sys2Proof.Machine.execRasterCoarse quad b s
  | .rasterPath quad b => Sys2Proof.Machine.execRasterPath quad b s
  | .islandResponseDeliver kind idx => Sys2Proof.Machine.execIslandResponseDeliver kind idx s
  | .islandFault kind idx => Sys2Proof.Machine.execIslandFault kind idx s
  | .ctxCreate ctx => Sys2Proof.Machine.execCtxCreate ctx s
  | .ctxReset ctx => Sys2Proof.Machine.execCtxReset ctx s
  | .ctxAttest ctx => Sys2Proof.Machine.execCtxAttest ctx s
  | .ctxExport ctx => Sys2Proof.Machine.execCtxExport ctx s
  | .ctxImport ctx => Sys2Proof.Machine.execCtxImport ctx s
  | .ctxConfirm ctx => Sys2Proof.Machine.execCtxConfirm ctx s
  | .ctxRelease ctx => Sys2Proof.Machine.execCtxRelease ctx s
  | .ctxAbort ctx => Sys2Proof.Machine.execCtxAbort ctx s
  | .kesload ctx => Sys2Proof.Machine.execKesload ctx s
  | .ctxCommandComplete => Sys2Proof.Machine.execCtxCommandComplete s
  | .tlbinvWrite ctx v => Sys2Proof.Machine.execTlbinvWrite ctx v s
  | .tlbInvalidationDone ctx => Sys2Proof.Machine.execTlbInvalidationDone ctx s
  | .trapactWrite ctx v => Sys2Proof.Machine.execTrapactWrite ctx v s
  | .coreReset core => Sys2Proof.Machine.execCoreReset core s
  | .scownWrite p v => Sys2Proof.Machine.execScownWrite p v s
  | .ecccntClear => Sys2Proof.Machine.execEcccntClear s
  | .registerWrite bar off v => Sys2Proof.Machine.execRegisterWrite bar off v s
  | .deviceReset => Sys2Proof.Machine.execDeviceReset s
  | .vfFunctionLevelReset vf => Sys2Proof.Machine.execVfFunctionLevelReset vf s
  | .hkcBringupComplete => Sys2Proof.Machine.execHkcBringupComplete s
  | .bar2Write off data => Sys2Proof.Machine.execBar2Write off data s
  | .bar2Read off n => Sys2Proof.Machine.execBar2Read off n s
  | .hostCxlMemAccess pa n acc => Sys2Proof.Machine.execHostCxlMemAccess pa n acc s
  | .bandwidthWindowEnd mc => Sys2Proof.Machine.execBandwidthWindowEnd mc s
  | .systemSpaceRefusal pa => Sys2Proof.Machine.execSystemSpaceRefusal pa s
  | .vfEnable n => Sys2Proof.Machine.execVfEnable n s

end Sys2Proof.Machine
end

