-- ==== Sys2Proof/Machine/Moves.lean ====
section
/-! DEFINITION. The errors that the environment causes in the device's stores (R145 to R147), the moves that the state
enables, and the choice among them (log entries 1, 4, 5). -/

namespace Sys2Proof.Machine

/-! ### Errors (R145 to R147) -/

/-- R133 check 13: a context holds partition `p` when it is granted it and owns it. -/
def holdsPart (s : State) (c p : Nat) : Bool := grantPart s c p && scOwner s p == some c

/-- R146: a dirty line's tag is lost: GDDR7's older bytes stand, every context holding the partition loses its teams,
and the record and the device-error vector go out. R146 has those contexts killed and says no more of it: their launches,
queued or still to come, and a handler that runs for one of them go on (DESIGN CHOICE, log 43). -/
def loseLine (s : State) (l : ScLine) : State :=
  let s1 := { s with sc := s.sc.filter (· != l)
                     mem := match l.back with
                       | some b => cellsPut s.mem (l.line * 128) (bytesOf 128 b.toNat)
                       | none => s.mem }
  let hit := s1.teams.filter fun t => !isHandler t.1 && holdsPart s1 t.2.ctx l.part
  let s2 := hit.foldl (fun s t => killTeam s t.1) s1
  let pa := l.line * 128
  raisePF (setDev s2 0x30 (BitVec.ofNat 64 (2 ^ 31 + setOf pa * 2 ^ 5 + sliceOf pa))) 0

/-- One error strikes: a data error leaves poison in the unit that its store protects (R147), a parity error drops what can
be had again, and a descriptor, which carries no poison, reads as something free (log entry 43). -/
def strikeOne (s : State) (u : Upset) : State :=
  match u with
  | .corrected => setDev s 0x28 (BitVec.ofNat 64 (min 0xFFFFFFFF ((devReg s 0x28).toNat + 1)))
  | .sector n => { s with poison := insSorted s.poison n }
  | .l1Data c n => { s with l1 := mapIf s.l1 (fun e => e.core == c && e.sector == n) fun e => { e with bad := true } }
  | .descriptor t td => modTeam s t fun x => if td < x.nd then { x with tds := Tab.put x.tds td (Config.freeDescriptor s.tick) 0 } else x
  | .window t half w => modTeam s t fun x =>
      if half = 0 then { x with wpo0 := insSorted x.wpo0 w } else { x with wpo1 := insSorted x.wpo1 w }
  | .register t g k => modGroup s t g fun x => { x with vpoison := insSorted (insSorted x.vpoison k) (Config.poolMate k) }
  | .record i q n => modQueue s i q fun x => { x with recs := x.recs.zipIdx.map fun r =>
      if r.2 = n then { r.1 with poison := true } else r.1 }
  | .rucksack t g ks => modGroup s t g fun x =>
      { x with spillPoison := (ks.filter fun k => (Tab.find x.spill (k / 512)).isSome).foldl insSorted x.spillPoison }
  | .tile t half es => modTeam s t fun x =>
      if half = 0 then { x with tpo0 := es.foldl insSorted x.tpo0 } else { x with tpo1 := es.foldl insSorted x.tpo1 }
  | .column c shadow j => modCore s c fun k =>
      if shadow then { k with shadow := { k.shadow with bad := insSorted k.shadow.bad j } }
      else { k with active := { k.active with bad := insSorted k.active.bad j } }
  | .tlb i => { s with tlb := dropAt s.tlb i }
  | .l1Tag c line => { s with l1 := s.l1.filter fun e => !(e.core == c && e.sector / 4 == line) }
  | .scTag line => match scFind s line with
    | none => s
    | some l => if l.dirty then loseLine s l else { s with sc := s.sc.filter (· != l) }
  | .codeLine c va twice =>
    let here := fun (l : CodeLine) => l.core == c && l.va == va
    { s with fbuf := s.fbuf.filter fun l => !here l
             icache := if twice then mapIf s.icache here fun l => { l with bad := true }
               else s.icache.filter fun l => !here l }
  | .storeLine c i => { s with badStore := s.badStore ++ [(c, i)] }

/-- The error, if any, that strikes before the next move. -/
def strike (s : State) : State :=
  match Config.freeUpset s.tick with
  | some u => strikeOne s u
  | none => s

/-! ### The moves of the cores -/

/-- The parties that may issue. -/
def issueMoves (s : State) : List Move :=
  let qs : List Party := s.cores.flatMap fun c => [.porter c.1 0, .porter c.1 1]
  ((allParties s ++ qs).filter (mayIssue s)).map .issue

/-- What the outstanding operations of a party may do: complete, be performed at the slices, re-read. -/
def opEvents (s : State) (p : Party) : List Instr :=
  ((getCom s p).map (·.ops)).getD [] |>.flatMap fun o =>
    .instructionComplete p o.id :: ((o.lanes.filter fun l => l.done.isNone).filterMap fun l =>
      if isLoad o.instr || isStore o.instr then some (Instr.sliceAccess p o.id l.lane)
      else if isAtomic o.instr then some (.sliceAtomic l.pa)
      else if monitorsArmed s p then some (.monitorReread p o.id l.lane) else none)

/-- Events of a core: handler, arrivals, drains, matrix engine, zeroing and copy. -/
def coreEvents (s : State) (c : Nat) (k : Core) : List Instr :=
  (if k.serving.isNone && !k.traps.isEmpty then [.handlerEntry c] else []) ++
  ((k.pool.filter fun b => !b.2.pend.isEmpty).map fun b => .barriveArrivalApplied c b.1) ++
  ((s.wb.filter fun e => e.core == c).zipIdx.map fun e => .writeBufferDrain c e.2) ++
  (if k.me.isEmpty then [] else [.matrixRowWrite c, .matrixCommandComplete c]) ++
  (if k.zeroing then [.contextZeroingDone c] else []) ++ (if k.copying then [.porterSectionCopyDone c] else [])

/-- Events of a porter. -/
def porterEvents (c n : Nat) (x : Porter) : List Instr :=
  (x.xfers.flatMap fun y => .porterUnitPerform c n y.id :: y.dsts.map fun d => .xmcastDelivery c n y.id d.1) ++
  (if x.stamps.isEmpty then [] else [.xstampWrite c n]) ++ (if x.pending.isSome then [.porterFault c n] else []) ++
  (if x.dropped then [.droppedCreditFault c n] else []) ++
  (if x.st = .draining then [.porterDrainEnd c n] else [])

/-- Events of the memory system that no party names; a core may fetch a line ahead of need (R164). -/
def memoryEvents (s : State) : List Instr :=
  s.fills.map Instr.scFillComplete ++ (s.walks.zipIdx.map fun w => Instr.pageWalkComplete w.2) ++
  (s.want.map fun w => Instr.instructionLineFill w.1 w.2.2) ++
  s.cores.map fun c => Instr.instructionLineFill c.1 (Config.freeAhead s.tick / 64 * 64)

/-- Records that may become visible, and the intervals of instances. -/
def instEvents (s : State) : List Instr :=
  s.insts.flatMap fun i => .rebalanceInterval i.1 ::
    ((i.2.queues.filter fun q => recordReady s i.1 q.1).map fun q => .queueRecordVisible i.1 q.1)

/-! ### The moves of the islands -/

/-- The event in which a class takes a unit. -/
def classEvent (cls idx b : Nat) : Option Instr :=
  match cls with
  | 0x0001 => some (.rasterCoarse idx b)
  | 0x0002 => some (.rasterPath idx b)
  | 0x1001 => some (.sample2d idx b)
  | 0x1002 => some (.sampleCube idx b)
  | 0x2001 => some (.rayBox4 idx b)
  | 0x2002 => some (.rayTri idx b)
  | 0x2003 => some (.rayFrustum64 idx b)
  | 0x3001 => if idx = 0 then some (.blendColour b) else none
  | _ => none

/-- Events of the islands. -/
def islandEvents (s : State) : List Instr :=
  (allIsles s).flatMap fun k =>
    let x := getIsle s k.1 k.2
    (if x.loading.isSome then [Instr.islandLoad k.1 k.2] else []) ++
    (if x.resps.isEmpty then [] else [Instr.islandResponseDeliver k.1 k.2]) ++
    (if x.fault.isSome then [Instr.islandFault k.1 k.2] else []) ++
    x.binds.filterMap fun b => (classOf x b).bind fun c => classEvent c.1 k.2 b.id

/-! ### The moves of the launch unit, the controllers and the HKC -/

/-- Events of launches and teams. -/
def workEvents (s : State) : List Instr :=
  (s.ctxs.flatMap fun c => (upto 0 8).filterMap fun q => if packetDue s c.1 q then some (Instr.packetBecomesHead c.1 q) else none) ++
  (s.launches.flatMap fun l => (if l.2.ended || l.2.released then [] else [Instr.tokenReread l.1]) ++
    (if endCode s l.2 = 0 then [] else [Instr.launchEnd l.1])) ++
  (if (admitOne s).isSome then [.admissionStep] else []) ++
  s.teams.flatMap fun t => (if t.2.started then [] else [Instr.teamStart t.1]) ++
    (if t.2.preempt then [Instr.teamSave t.1] else []) ++ (if mayRetire s t.1 t.2 then [Instr.teamRetirement t.1] else [])

/-- The event that performs the HKC's command (R320). -/
def commandEvent (x : Command) : Instr :=
  match x.code with
  | 1 => .ctxCreate x.ctx
  | 2 => .ctxReset x.ctx
  | 3 => .ctxAttest x.ctx
  | 4 => .ctxExport x.ctx
  | 5 => .ctxImport x.ctx
  | 6 => .ctxConfirm x.ctx
  | 7 => .ctxRelease x.ctx
  | 8 => .ctxAbort x.ctx
  | _ => .kesload x.ctx

/-- Events of the HKC and of the memory controllers. -/
def hkcEvents (s : State) : List Instr :=
  (match s.command with
    | some x => [commandEvent x, .ctxCommandComplete]
    | none => []) ++
  (if s.ready then [] else [.hkcBringupComplete]) ++
  (s.ctxs.flatMap fun c => (if (oldestIload s c.1).isSome then [Instr.iloadComplete c.1] else []) ++
    if c.2.tlbinv.isSome then [.tlbInvalidationDone c.1] else []) ++
  (upto 0 32).map Instr.bandwidthWindowEnd

/-- The events that an agent outside the cores causes: the host, the link, the power monitor. -/
def outside (i : Instr) : Bool :=
  match i with
  | .lqwrWrite .. | .lqcfgWrite .. | .deadlineApproach .. | .tlbinvWrite .. | .trapactWrite .. | .coreReset _
  | .scownWrite .. | .ecccntClear | .registerWrite .. | .deviceReset | .vfFunctionLevelReset _ | .bar2Write ..
  | .bar2Read .. | .hostCxlMemAccess .. | .systemSpaceRefusal _ | .vfEnable _ | .powerAlarmRaise _
  | .powerAlarmLower => true
  | _ => false

/-- What the outside offers next. -/
def hostEvents (s : State) : List Instr := (Config.freeHost s.tick).toList.filter outside

/-! ### The choice -/

/-- The enabled moves. -/
def enabled (s : State) : List Move :=
  issueMoves s ++
    ((allParties s).flatMap (opEvents s) ++ (s.cores.flatMap fun c =>
      coreEvents s c.1 c.2 ++ porterEvents c.1 0 c.2.p0 ++ porterEvents c.1 1 c.2.p1) ++ memoryEvents s ++ instEvents s ++
      islandEvents s ++ workEvents s ++ hkcEvents s ++ hostEvents s).map .event

/-- The move made when nothing is scheduled. -/
def choose (s : State) : Option Move :=
  let l := enabled s
  l[Config.freeMove s.tick % max 1 l.length]?

end Sys2Proof.Machine
end

