-- ==== Sys2Proof/Machine/Step.lean ====
section
/-! DEFINITION. One step of the device, and the placing of an instruction where the next step fetches it. -/

namespace Sys2Proof.Machine

/-- Make one move: an issue fetches, checks and performs one instruction (R27, R67, R334); an event is performed
whole. -/
def runMove (m : Move) (s : State) : Host.Outcome State Fault Refusal :=
  match m with
  | .event i => exec i s
  | .issue p => match issueOf s p with
    | .stopped s' => .next s'
    | .run i s' => exec i s'

/-- One step: the first move of the agenda, or, after whatever error strikes, a free choice among the enabled moves. -/
def step (s : State) : Host.Outcome State Fault Refusal :=
  match s.agenda with
  | m :: r => runMove m { s with agenda := r, tick := s.tick + 1 }
  | [] =>
    let s1 := strike s
    match choose s1 with
    | some m => runMove m { s1 with tick := s1.tick + 1 }
    | none => .next { s1 with tick := s1.tick + 1 }

/-- A line that holds one instruction word in slot 0, entered by a branch, with `SETA` 0 and `SETB` 1, or 0xF for a
porter (R332, R170). -/
def oneLine (w : Nat) (porter : Bool) : Nat :=
  w % 2 ^ 96 + (if porter then 0x001FF000 else 0x00110000) * 2 ^ 480

/-- A group whose line has been fetched and checked: its threads have arrived. -/
def inLine (x : Group) : Group := { x with thr := x.thr.map fun y => { y with arrived := false } }

/-- The team of `withFetchWord`: one group of width 32 with 128 registers a lane, on core 0. -/
def loadedTeam (lead group : Bool) : Team :=
  { launch := 0, inst := 0, idx := 0, stage := 0, tx := 0, ty := 0, tz := 0, nx := 1, ny := 1, nz := 1, ctx := 0,
    width := 32, declared := true, alloc := 128, ruck := 0, window := 0, nt := 0, nd := 0, pair := false, core := 0,
    slot := 0, producer := none, argblk := 0,
    lead := if lead then { startLead 0 with
        arrived := false } else { startLead 0 with com := exitCommon Common.start },
    groups := if group then [(0, inLine (startGroup 32 0 0 0 0 0 0))] else [],
    dq := [], wr := 0, syncP := 0, mstat := 0, region := none, tds := [], win0 := [], win1 := [], wpo0 := [],
    wpo1 := [], tiles0 := [], tiles1 := [], tpo0 := [], tpo1 := [], names := [], preempt := false, killed := false,
    resident := true, started := true }

/-- The kind of program that a word is placed in: a group's where a group may issue it, else a lead's, else a
porter's (R343). -/
def wordKind (w : Nat) : Kind :=
  let op := w / 2 ^ 86 % 1024
  if kindOk op .group then .group else if kindOk op .lead then .lead else .porter

/-- A program of one instruction, loaded on core 0 and due to issue in the next step (log entry 8). -/
def State.withFetchWord (s : State) (nbits w : Nat) : State :=
  let w := w % 2 ^ min nbits 96
  match wordKind w with
  | .group =>
    { s with teams := Tab.set s.teams 0 (loadedTeam true true), fbuf := [⟨0, 0, 0, oneLine w false, false⟩],
             agenda := [.issue (.group 0 0)] }
  | .lead =>
    { s with teams := Tab.set s.teams 0 (loadedTeam true false), fbuf := [⟨0, 0, 0, oneLine w false, false⟩],
             agenda := [.issue (.lead 0)] }
  | .porter =>
    { s with teams := Tab.set s.teams 0 (loadedTeam true false),
             cores := Tab.set s.cores 0
               { getCore s 0 with
                 pstore := [(0, oneLine w true)],
                 p0 := { Porter.idle with st := .running, entered := true, arrived := true, team := some 0 } },
             agenda := [.issue (.porter 0 0)] }

end Sys2Proof.Machine
end

