-- ==== Sys2Proof/Safety.lean ====
section
/-! DEFINITION. The terms that claims use: the invariant of memory, a safe step, and the conditions under which an
encoded instruction issues, said of the state and the operands alone. -/

namespace Sys2Proof.Machine

/-- The invariant of memory: addresses strictly rising, no byte equal to the default listed. -/
abbrev State.Inv (s : State) : Prop := Memory.wf s.mem = true

/-- The step ends in a next state that meets the invariant. -/
def SafeStep (s : State) : Prop := ∃ t, step s = .next t ∧ t.Inv

/-! ### When an encoded instruction issues (R291, R341, R342, R346, R348) -/

/-- A code that names a run of n registers below 0x80, of the `a` registers there. -/
def ownRun (a : Nat) (c : Code) (n : Nat) : Bool := decide (c.toNat + n ≤ a) && c.toNat % n == 0

/-- A code that names a run of n `k` registers. -/
def kRun (c : Code) (n : Nat) : Bool := decide (0x80 ≤ c.toNat) && decide (c.toNat + n ≤ 0xA0) && c.toNat % n == 0

/-- A code that names registers in range and aligned for the kind and role, or ZERO where the role takes it. -/
def plainCode (k : Kind) (alloc : Nat) (f : Field) : Bool :=
  let c := f.code
  let own := fun n => ownRun (regCount k alloc) c n
  match f.role with
  | .pin ev | .pout ev => k != .porter && isPred c && !(ev && c.toNat % 2 == 1)
  | .tile => k != .porter && isTile c
  | .ctr => if k = .group then kRun c 1 else own 1
  | .also _ => !isQ c && !isDq c
  | .uni n | .coord n => isZero c || (if k = .group then kRun c n else own n)
  | .sp => own 1
  | .kout n => if k = .group then kRun c n else own n
  | r => isZero c || own r.run || (k == .group && kRun c r.run)

/-- A code that an operand field may hold: registers or ZERO, a queue in classes 0 to 2 of a group or lead (R54), the
DQ as a source of a group (R41). -/
def goodCode (k : Kind) (cls alloc : Nat) (f : Field) : Bool :=
  plainCode k alloc f || (k != .porter && decide (cls ≤ 2) && f.role.queued && isQ f.code) ||
    (k == .group && (match f.role with | .src _ => true | _ => false) && isDq f.code)

/-- Roles that read registers. -/
def Role.reads : Role → Bool
  | .dst | .out _ | .kout _ | .pout _ | .tile => false
  | _ => true

/-- No outstanding operation is still to write a register that the issue reads (R348). -/
def readable (e : Env) (r : Rules) : Bool :=
  e.com.ops.all fun o => !(o.dst.any fun d => (readUnits e r).contains (d.1 / 64))

/-- No vector register that the issue consumes, in a lane it takes it from, and no record is poisoned (R147, R364, R441). -/
def unpoisoned (e : Env) (r : Rules) : Bool :=
  (e.kind != .group || (srcLanes e r).all fun l => (if r.noPoison then [] else r.fields e.kind).all fun f =>
    !f.role.reads || (upto 0 f.role.run).all fun j => !e.g.vpoison.contains (regKey e f.code j l)) &&
  e.recs.all fun r => !r.2.2.poison

/-- No floating-point source holds a register marker, or `MARK` is 0 (R116). -/
def unmarked (e : Env) (fs : List Field) : Bool :=
  e.kind == .porter || !fcrMark e.com || fs.all fun f => match f.role with
    | .src true => e.act.all fun l => !isMarker (val e f.code l)
    | _ => true

/-- The flag attachment is legal, and the flag can count one more (R91, R346 step 5). -/
def attachable (e : Env) : Bool :=
  if e.kind = .porter then e.c == ⟨false, 0, 0⟩
  else !cfBad e.s.lw.toNat e.c && (match cfFlag e.s.lw.toNat e.c with
    | some f => decide (flagCount e.com f < 63)
    | none => true)

/-- Nothing is outstanding that the instruction waits for: a waypoint or EXIT waits for loads and atomics and reports
poison (R293), a release at issue for earlier accesses (R43). -/
def unawaited (e : Env) (r : Rules) : Bool :=
  !(r.settles && e.com.ops.any fun o => o.poisoned || (o.kind == .access && (match o.instr with
    | .ld .. | .atom .. => true
    | _ => false))) &&
  !(r.fork && (r.whole || !e.act.isEmpty) && accessDue e.com e.com.nextOp)

/-- The entry itself asks nothing that the operands do not meet (R346 steps 6 and 8, R401). -/
def Rules.allows (r : Rules) (e : Env) : Bool :=
  !r.modBad e && (r.illegal e).isNone && (r.context e).isNone && (r.privilege e).isNone

/-- The queues and the DQ that the issue uses have what it takes and room for what it gives (R41, R45, R56, R61). -/
def supplied (e : Env) (r : Rules) : Bool :=
  let fs := r.fields e.kind
  (queueTraps e fs).isNone && ((popFields fs).all fun q => (headRec e q).isSome) &&
  ((pushFields fs).all fun q => match getQueue e.s e.tm.inst q with
    | some x => !qFull x
    | none => true) &&
  (!usesDq e r || (dqHead e).isSome)

/-- The environment with the DQ entry and the records that the issue takes. -/
def Env.taking (e : Env) (r : Rules) : Env :=
  { e with dq := if usesDq e r then dqHead e else none, recs := (popFields (r.fields e.kind)).filterMap (headRec e) }

/-- The conditions of R291, R346 and R348 under which an instruction with rules `r` reaches the checks of its source
values: well formed, of the kind's classes, operand codes good, sources ready, queues supplied, the flag countable, the
waypoint bound not reached (R300). -/
def sourced (e : Env) (r : Rules) : Bool :=
  let fs := r.fields e.kind
  e.i.wf && kindOk (opOf e.i) e.kind && fs.all (goodCode e.kind (clsOf e.i) e.tm.alloc) && r.allows e &&
    readable e r && unawaited e r && supplied e r && attachable e &&
    (e.kind == .porter || r.waypoint || decide (e.com.wcount < 4096))

/-- Moreover the sources are sound: the instruction neither traps nor waits before its own effect. -/
def plain (e : Env) (r : Rules) : Bool :=
  sourced e r && unpoisoned (e.taking r) r && unmarked (e.taking r) (r.fields e.kind)

/-- Instruction `i`, with control fields `c` and rules `r`, is issued by the party of `s.turn` and passes the checks
above; `e` is the environment of its effect, with the queue records and the DQ entry that it consumes taken out. -/
def Issues (s : State) (i : Instr) (c : Ctl) (r : Rules) (e : Env) : Prop :=
  ∃ b, s.turn = some b.p ∧ envOf s b.p i c = some b ∧ plain b r = true ∧ e = popAll (b.taking r)

/-! ### Registers and frames -/

/-- The register of a party that a key names (R88, R90): vector registers by physical row and lane, `k` registers and
the registers of a lead or porter at lane 0, predicates by lane. -/
def regAt (s : State) (p : Party) (k : Nat) : Nat :=
  match p with
  | .group t g => match getGroup s t g with
    | some x =>
      if k / 64 < 0x4000 then (Tab.get x.v k (marker (k / 64))).toNat
      else if k / 64 < 0x5000 then (Tab.get x.k (k / 64 - 0x4000) 0).toNat
      else (tb (Tab.get x.p (k % 64) 0).toNat (k / 64 - 0x5000)).toNat
    | none => 0
  | .lead t => match getTeam s t with
    | some x => if k / 64 < 0x5000 then (Tab.get x.lead.s (k / 64) 0).toNat else (tb x.lead.p.toNat (k / 64 - 0x5000)).toNat
    | none => 0
  | .porter c n => (Tab.get (getPorter s c n).g (k / 64) 0).toNat

/-- The place in the state where a party's registers stand: a porter number above 0 is 1. -/
def seat : Party → Party
  | .porter c n => .porter c (min n 1)
  | p => p

/-- A key whose register a write of the keys `ks` leaves alone: vector registers and predicates of a group stand one to
a lane, every other register is one for all lanes. -/
def untouched (k : Kind) (ks : List Nat) (x : Nat) : Bool :=
  !ks.contains x && ((k == .group && (decide (x / 64 < 0x4000) || decide (0x5000 ≤ x / 64))) ||
    (x % 64 == 0 && !(ks.any fun y => y / 64 == x / 64)))

/-- Two control states agree but for what an issue counts: outstanding operations, the attached flag, the waypoint
count, the stall reason and a wait; `%fsr` may differ. A deferred trap stands. -/
def sameControl (flag : Option Nat) (a b : Common) : Prop :=
  a.fcr = b.fcr ∧ a.tcode = b.tcode ∧ a.tdetail = b.tdetail ∧ a.tpc = b.tpc ∧ a.st = b.st ∧ a.defer = b.defer ∧
    a.late = b.late ∧
    ∀ n, flag ≠ some n → Tab.get a.flags n 0 = Tab.get b.flags n 0

/-- Of a team only the record of its party `p` differs: the other groups, the lead, the windows, the tiles, the
descriptors, the decision queue with its count, the names, the region and `%mstat` stand. -/
def teamStands (p : Party) (a b : Team) : Prop :=
  match p with
  | .group _ g => { b with groups := a.groups } = a ∧ ∀ n, n ≠ g → Tab.find b.groups n = Tab.find a.groups n
  | .lead _ => { b with lead := a.lead } = a
  | .porter _ _ => b = a

/-- Of the cores only the record of porter `n` of core `c` differs. -/
def coresStand (s t : State) (c n : Nat) : Prop :=
  (∀ k, k ≠ c → getCore t k = getCore s k) ∧
  (if n = 0 then { getCore t c with p0 := (getCore s c).p0 } else { getCore t c with p1 := (getCore s c).p1 }) = getCore s c

/-- `t` differs from `s` only in the record of the issuing party `e.p`: no memory, no cache, no queue, no register of the
device, no other party, and nothing of its team or core that is not the party's own. -/
def OnlyParty (s t : State) (e : Env) : Prop :=
  (if e.kind = .porter then { t with cores := s.cores } = s else { t with teams := s.teams } = s) ∧
  (∀ n, n ≠ e.t → getTeam t n = getTeam s n) ∧
  (∀ a, getTeam s e.t = some a → ∃ b, getTeam t e.t = some b ∧ teamStands e.p a b) ∧
  (∀ c n, e.p = .porter c n → coresStand s t c n) ∧
  (∀ q, seat q ≠ seat e.p → getCom t q = getCom s q ∧ ∀ k, regAt t q k = regAt s q k)

/-- Of a party's own record only its registers with their poison, which can only go, its PCs with the marks of their
arrival, its yield bits, which can only clear, its control state, and what a porter's resume left for the instruction
itself, differ: `%meet`, the window base and the return stack of each thread, the spilled blocks, the reads of the decision
queue, the labels, a porter's transfers, stamps, barrier and faults stand. -/
def ownStands (s t : State) (p : Party) : Prop :=
  match p with
  | .group i g => ∀ x, getGroup s i g = some x → ∃ y, getGroup t i g = some y ∧
      { y with v := x.v, vpoison := x.vpoison, k := x.k, p := x.p, thr := x.thr, com := x.com } = x ∧
      (∀ k ∈ y.vpoison, k ∈ x.vpoison) ∧ y.thr.length = x.thr.length ∧
      ∀ l, { thread y l with
          pc := (thread x l).pc, yld := (thread x l).yld, hold := (thread x l).hold, entered := (thread x l).entered,
          arrived := (thread x l).arrived } = thread x l ∧
        ((thread y l).yld = true → (thread x l).yld = true)
  | .lead i => ∀ x, getTeam s i = some x → ∃ y, getTeam t i = some y ∧
      { y.lead with
        s := x.lead.s, p := x.lead.p, pc := x.lead.pc, entered := x.lead.entered, arrived := x.lead.arrived,
        com := x.lead.com } = x.lead
  | .porter c n => ∀ x, getPorter s c n = x →
      { getPorter t c n with
        g := x.g, pc := x.pc, entered := x.entered, arrived := x.arrived, roff := x.roff, carry := x.carry,
        resumed := x.resumed, wait := x.wait, buf := x.buf } = x

/-- Moreover, of the party, only registers with keys in `ks`, its threads' PCs and its control state differ. -/
def OnlyWrites (s t : State) (e : Env) (ks : List Nat) : Prop :=
  OnlyParty s t e ∧
  (∀ k, untouched e.kind ks k = true → regAt t e.p k = regAt s e.p k) ∧
  (∀ a b, getCom s e.p = some a → getCom t e.p = some b → sameControl (cfFlag e.s.lw.toNat e.c) a b)

/-- The PC of a thread of a party; a lead and a porter have the one thread 0. -/
def pcAt (s : State) (p : Party) (l : Nat) : DWord :=
  match p with
  | .group t g => ((getGroup s t g).map fun x => (thread x l).pc).getD 0
  | .lead t => ((getTeam s t).map (·.lead.pc)).getD 0
  | .porter c n => (getPorter s c n).pc

/-- The threads of the frontier go where `f` sends them, or to the next PC (R67, R71). -/
def Moves (t : State) (e : Env) (f : Nat → Option DWord) : Prop := ∀ l ∈ e.lanes, pcAt t e.p l = (f l).getD (nextPc e.pc)

/-- Party `p` stands at `pc` (R67, R70): `s1` is the state once its line is held, `line` the line's 64 bytes; `entered`
and `arrived` say that the slot was entered by a branch, and that the WAIT mask is to be tested (R92, R334). -/
def StandsAt (s : State) (p : Party) (s1 : State) (pc : DWord) (line : Nat) (entered arrived : Bool) : Prop :=
  match p with
  | .lead t => ∃ x, getTeam s t = some x ∧ pc = x.lead.pc ∧ entered = x.lead.entered ∧ arrived = x.lead.arrived ∧
      fetchLine s p (lineOf pc) arrived = .ok (s1, line)
  | .group t g => ∃ x y ls, getGroup s t g = some x ∧ frontier x = some (y, ls, pc) ∧
      entered = ls.any (fun l => (thread y l).entered) ∧ arrived = ls.any (fun l => (thread y l).arrived) ∧
      fetchLine s p (lineOf pc) arrived = .ok (s1, line)
  | .porter c n => pc = (getPorter s c n).pc ∧ entered = (getPorter s c n).entered ∧ arrived = (getPorter s c n).arrived ∧
      (c, lineOf pc / 64) ∉ s.badStore ∧ s1 = s ∧ line = storeLine s c (lineOf pc)

/-- The line and the slot let the party issue: a branch target where one was entered, the awaited flags clear, the line
word well formed (R68, R92, R170, R333). -/
def SlotOpen (s : State) (p : Party) (pc : DWord) (line : Nat) (entered arrived : Bool) : Prop :=
  (entered = true → tgtBit line (slotOf pc) = true) ∧
  (arrived = true → ∀ c, getCom s p = some c → waitTest c (lwWait (lineWord line)) = .ok ()) ∧
  (if kindOf p = .porter then (arrived && lwPorterBad (lineWord line)) = false else lwMalformed (lineWord line) = false)

end Sys2Proof.Machine
end

