-- ==== Sys2Proof/Safety/Integer.lean ====
section
/-! DEFINITION. The results that chapters 20 and 23 of the spec give for the instructions of class 0, written from its
formulas over whole numbers: what claims about those instructions say. -/

namespace Sys2Proof.Machine

/-- The low w bits of an integer, as a number. -/
def lowBits (w : Nat) (i : Int) : Nat := (i % (2 ^ w : Int)).toNat

/-- A w-bit number read as a signed one (R2). -/
def signed (w x : Nat) : Int := if x % 2 ^ w < 2 ^ (w - 1) then ((x % 2 ^ w : Nat) : Int) else ((x % 2 ^ w : Nat) : Int) - 2 ^ w

/-- The number whose bit j is `f j`, for j below n. -/
def fromBits (f : Nat → Bool) (n : Nat) : Nat :=
  match n with
  | 0 => 0
  | n + 1 => fromBits f n + (f n).toNat * 2 ^ n

/-- How many j below n satisfy f. -/
def countBits (f : Nat → Bool) (n : Nat) : Nat :=
  match n with
  | 0 => 0
  | n + 1 => countBits f n + (f n).toNat

/-- Byte j of a number. -/
def byteOf (x j : Nat) : Nat := x / 2 ^ (8 * j) % 256

/-- A result written to D in each `Active` lane: control fields, rules, D and the value in a lane. -/
structure OutRow where
  c     : Ctl
  rules : Rules
  d     : Code
  value : Env → Nat → Nat

/-- R365: a row of the mould D, A, B and further sources; the value takes W, a, b and c. -/
def OutRow.abc (c : Ctl) (d a : Code) (b : Src) (more : List Code) (f : Nat → Nat → Nat → Nat → Nat) : OutRow :=
  ⟨c, { fields := fun _ => aluFields d a b more }, d,
    fun e l => f e.w (val e a l) (srcVal e b l) (val e (more.headD 0xD0) l)⟩

/-- A row with one source. -/
def OutRow.one (c : Ctl) (d a : Code) (f : Nat → Nat → Nat) : OutRow :=
  ⟨c, { fields := fun _ => [⟨d, .dst⟩, ⟨a, .src false⟩] }, d, fun e l => f e.w (val e a l)⟩

/-- R415: a sum or difference under MOD[9:8]. -/
def clampedSum (sat : BitVec 2) (w : Nat) (s u : Int) : Nat :=
  if sat = 1 then lowBits w (max (-(2 ^ (w - 1))) (min (2 ^ (w - 1) - 1) s))
  else if sat = 2 then (max 0 (min (2 ^ w - 1) u)).toNat
  else lowBits w u

/-- R417: the sum of the four byte products of IDOT4. -/
def byteProducts (ua ub : Bool) (x y : Nat) : Int :=
  let p := fun j => if ua then (byteOf x j : Int) else signed 8 (byteOf x j)
  let q := fun j => if ub then (byteOf y j : Int) else signed 8 (byteOf y j)
  p 0 * q 0 + p 1 * q 1 + p 2 * q 2 + p 3 * q 3

/-- R416: is the first operand less? -/
def lessThan (u : Bool) (w x y : Nat) : Prop := if u then x < y else signed w x < signed w y

/-- R380: position and length of the field operand. -/
def fieldP (w b : Nat) : Nat := min (b % 128) w
def fieldL (w b : Nat) : Nat := min (b / 256 % 128) (w - fieldP w b)

/-- R442: the byte that nibble s of MIXB gives. -/
def nibbleByte (fill : BitVec 2) (w pool s : Nat) : Nat :=
  if s < 8 ∨ fill = 0 then byteOf pool (s % (w / 4))
  else if fill = 1 then 0
  else if fill = 2 then (if 128 ≤ byteOf pool (s % 8) then 255 else 0)
  else 255

/-- R442: the bytes of MIXB, from the lowest. -/
def mixed (fill : BitVec 2) (w pool b n : Nat) : Nat :=
  match n with
  | 0 => 0
  | n + 1 => mixed fill w pool b n + nibbleByte fill w pool (b / 16 ^ n % 16) * 256 ^ n

/-- The instructions of class 0 that write D by `val` and W (R364, R365), with the results of R365, R380, R386, R396,
R413 to R417, R425, R435, R436, R438, R439, R442, R462, R464 and R482. -/
def intRow : Instr → Option OutRow
  | .iadd c d a b sat => some (.abc c d a b [] fun w x y _ => clampedSum sat w (signed w x + signed w y) (x + y))
  | .isub c d a b sat => some (.abc c d a b [] fun w x y _ => clampedSum sat w (signed w x - signed w y) (x - y))
  | .imul c d a b => some (.abc c d a b [] fun w x y _ => x * y % 2 ^ w)
  | .imulh c d a b u => some (.abc c d a b [] fun w x y _ =>
      if u then x * y / 2 ^ w else lowBits w (signed w x * signed w y / 2 ^ w))
  | .imad c d a b e => some (.abc c d a b [e] fun w x y z => (x * y + z) % 2 ^ w)
  | .idot4 c d a b e ua ub => some (.abc c d a b [e] fun w x y z => lowBits w (byteProducts ua ub x y + z))
  | .imin c d a b u => some (.abc c d a b [] fun w x y _ =>
      if u then min x y else if signed w y < signed w x then y else x)
  | .imax c d a b u => some (.abc c d a b [] fun w x y _ =>
      if u then max x y else if signed w x < signed w y then y else x)
  | .iabs c d a => some (.one c d a fun w x => (signed w x).natAbs % 2 ^ w)
  | .tern c d a b pc =>
    some ⟨c, { fields := fun _ => aluFields d a b [] ++ [⟨pc, .pin false⟩] }, d,
      fun e l => if predVal e (predNum pc) l then val e a l else srcVal e b l⟩
  | .loca c d a b sh false => some (.abc c d a b [] fun w x y _ => (x + y * 2 ^ sh.toNat) % 2 ^ w)
  | .bAnd c d a b => some (.abc c d a b [] fun _ x y _ => x &&& y)
  | .bAndn c d a b => some (.abc c d a b [] fun w x y _ => fromBits (fun j => x.testBit j && !y.testBit j) w)
  | .bOr c d a b => some (.abc c d a b [] fun _ x y _ => x ||| y)
  | .bXor c d a b => some (.abc c d a b [] fun _ x y _ => x ^^^ y)
  | .shl c d a b => some (.abc c d a b [] fun w x n _ => if n < w then x * 2 ^ n % 2 ^ w else 0)
  | .shr c d a b => some (.abc c d a b [] fun w x n _ => if n < w then x / 2 ^ n else 0)
  | .sar c d a b => some (.abc c d a b [] fun w x n _ => fromBits (fun j => x.testBit (min (j + n) (w - 1))) w)
  | .funl c d a b e => some (.abc c d a b [e] fun w x y z => (z * 2 ^ w + x) / 2 ^ (y % (2 * w)) % 2 ^ w)
  | .bfx c d a b sx => some (.abc c d a b [] fun w x y _ =>
      let p := fieldP w y
      let l := fieldL w y
      if l = 0 then 0 else if sx then lowBits w (signed l (x / 2 ^ p)) else x / 2 ^ p % 2 ^ l)
  | .bfi c d a b e => some (.abc c d a b [e] fun w x y z =>
      let p := fieldP w y
      let l := fieldL w y
      fromBits (fun j => if p ≤ j ∧ j < p + l then x.testBit (j - p) else z.testBit j) w)
  | .popc c d a => some (.one c d a fun w x => countBits x.testBit w)
  | .clz c d a => some (.one c d a fun w x => if x = 0 then w else w - 1 - Nat.log2 x)
  | .brev c d a => some (.one c d a fun w x => fromBits (fun j => x.testBit (w - 1 - j)) w)
  | .mixb c d a b e fill => some (.abc c d a b [e] fun w x y z => mixed fill w (z * 2 ^ w + x) y (w / 8))
  | .mov c d a false => some (.one c d a fun _ x => x)
  | .movi c d v false =>
    some ⟨c, { fields := fun _ => [⟨d, .dst⟩] }, d,
      fun e _ => if e.kind = .group then v.toNat else lowBits 64 (signed 32 v.toNat)⟩
  | _ => none

/-- `MOVI.hi` of a lead or porter (R436). -/
def moviHi (c : Ctl) (d : Code) (v : Word) : OutRow :=
  ⟨c, { fields := fun _ => [⟨d, .dst⟩, ⟨d, .also 1⟩], modBad := fun e => e.kind == .group }, d,
    fun e l => v.toNat * 2 ^ 32 + regVal e d 0 l % 2 ^ 32⟩

/-- A result written to the pair D, D + 1 of a group. -/
structure PairRow where
  c     : Ctl
  rules : Rules
  d     : Code
  value : Env → Nat → Nat

/-- The 64-bit results of a group: IMADW (R417), `LOCA.w` (R425) and `MOV.b64` (R435). The rules of the last two refuse
a lead and a porter. -/
def pairRow : Instr → Option PairRow
  | .imadw c d a b e u =>
    some ⟨c, { fields := fun k =>
        if k = .group then ⟨d, .out 2⟩ :: ⟨a, .src false⟩ :: (srcField b false ++ [⟨e, .reg 2⟩])
        else aluFields d a b [e] }, d, fun v l =>
      let x := val v a l % 2 ^ 32
      let y := srcVal v b l % 2 ^ 32
      lowBits 64 ((if u then ((x * y : Nat) : Int) else signed 32 x * signed 32 y) + val64 v e l)⟩
  | .loca c d a b sh true =>
    some ⟨c, { fields := fun k =>
        if k == .group then ⟨d, .out 2⟩ :: ⟨a, .reg 2⟩ :: srcField b false else aluFields d a b []
               modBad := fun e => e.kind != .group }, d, fun e l =>
      lowBits 64 (val64 e a l + signed 32 (srcVal e b l) * 2 ^ sh.toNat)⟩
  | .mov c d a true =>
    some ⟨c, { fields := fun k => if k == .group then [⟨d, .out 2⟩, ⟨a, .reg 2⟩] else [⟨d, .dst⟩, ⟨a, .src false⟩]
               modBad := fun e => e.kind != .group }, d, fun e l => val64 e a l⟩
  | _ => none

/-- A predicate written to D in each `Active` lane. -/
structure PredRow where
  c     : Ctl
  rules : Rules
  d     : Code
  value : Env → Nat → Bool

/-- R410: the conditions of ICMP; codes above 9 are refused by the well-formedness of the instruction. -/
def intHolds (cond w x y : Nat) : Bool :=
  match cond with
  | 0 => decide (x = y)
  | 1 => decide (x ≠ y)
  | 2 => decide (signed w x < signed w y)
  | 3 => decide (signed w x ≤ signed w y)
  | 4 => decide (signed w y < signed w x)
  | 5 => decide (signed w y ≤ signed w x)
  | 6 => decide (x < y)
  | 7 => decide (x ≤ y)
  | 8 => decide (y < x)
  | _ => decide (y ≤ x)

/-- R408: the combination of a result with a predicate. -/
def combined (comb : BitVec 2) (r p : Bool) : Bool :=
  match comb.toNat with
  | 0 => r
  | 1 => r && p
  | 2 => r || p
  | _ => r ^^ p

/-- R440: product term j of x, whose bits 2, 1, 0 are the three predicates. -/
def productTerm (terms : BitVec 24) (x : Nat → Bool) (j : Nat) : Bool :=
  let care := fun k => terms.getLsbD (6 * j + k)
  let pol := fun k => terms.getLsbD (6 * j + 3 + k)
  (care 0 || care 1 || care 2) && (x 0 && care 0) == pol 0 && (x 1 && care 1) == pol 1 && (x 2 && care 2) == pol 2

/-- R261: `val64` read as signed, and a pixel's coverage of one edge. -/
def edgeHolds (e00 steps pixel : Nat) : Bool :=
  let sa := signed 32 steps
  let sb := signed 32 (steps / 2 ^ 32)
  let v := signed 64 e00 + 256 * ((pixel % 8 : Nat) * sa + (pixel / 8 % 8 : Nat) * sb)
  decide (0 < v ∨ v = 0 ∧ (0 < sa ∨ sa = 0 ∧ 0 < sb))

/-- ICMP (R408, R410), PSOP (R440) and EDGE (R261). -/
def predRow : Instr → Option PredRow
  | .icmp c d a b cond comb pc =>
    some ⟨c, { fields := fun _ => ⟨d, .pout false⟩ :: ⟨a, .src false⟩ ::
        (srcField b false ++ if comb = 0 then [] else [⟨pc, .pin false⟩]) }, d, fun e l =>
      combined comb (intHolds cond.toNat e.w (val e a l) (srcVal e b l)) (predVal e (predNum pc) l)⟩
  | .psop c d a b e n terms =>
    some ⟨c, { fields := fun _ => [⟨d, .pout false⟩, ⟨a, .pin false⟩, ⟨b, .pin false⟩, ⟨e, .pin false⟩] }, d, fun v l =>
      let x : Nat → Bool := fun k => match k with
        | 0 => predVal v (predNum e) l
        | 1 => predVal v (predNum b) l
        | _ => predVal v (predNum a) l
      (productTerm terms x 0 || productTerm terms x 1 || productTerm terms x 2 || productTerm terms x 3) ^^ n⟩
  | .edge c d a b e conj =>
    some ⟨c, { fields := fun _ => [⟨d, .pout false⟩, ⟨a, .reg 2⟩, ⟨b, .reg 2⟩, ⟨e, .src false⟩] ++
        if conj then [⟨d, .pin false⟩] else [] }, d, fun v l =>
      edgeHolds (val64 v a l) (val64 v b l) (val v e l) && (!conj || predVal v (predNum d) l)⟩
  | _ => none

/-! ### The form of an instruction of one source -/

/-- The opcode is decoded in format RRR only, with B, C and MOD zero, to the instruction that `f` makes of its control
fields, D and A (R336, R337). -/
def OneSourceForm (op : Nat) (f : Ctl → Code → Code → Instr) : Prop :=
  ∀ (w : Nat) (i : Instr), w / 2 ^ 86 % 1024 = op →
    (decode w = .ok i ↔ w / 2 ^ 83 % 8 = 0 ∧ w % 2 ^ 61 = 0 ∧
      i = f ⟨w.testBit 82, BitVec.ofNat 3 (w / 2 ^ 79), BitVec.ofNat 2 (w / 2 ^ 77)⟩ (BitVec.ofNat 8 (w / 2 ^ 69))
        (BitVec.ofNat 8 (w / 2 ^ 61)))

/-- The operands of an instruction with one destination and one source. -/
def oneSource (d a : Code) : Rules := { fields := fun _ => [⟨d, .dst⟩, ⟨a, .src false⟩] }

end Sys2Proof.Machine
end

