-- ==== Sys2Proof/Safety/Float.lean ====
section
/-! DEFINITION. The results that chapters 8 and 23 of the spec give for the floating-point and lane instructions of
classes 1 and 2, and the exceptions they raise: what claims about those instructions say. -/

namespace Sys2Proof.Machine

/-- A floating-point result in each `Active` lane with the flags it raises, further flags, and how the results are
written. -/
structure FloatRow where
  c     : Ctl
  rules : Rules
  res   : Env → Nat → FRes
  more  : Env → Nat
  write : Env → State → (Nat → Nat) → State
  /-- The registers written, by key. -/
  keys  : Env → List Nat

/-- R115: F, over all `Active` lanes. -/
def FloatRow.flags (r : FloatRow) (e : Env) : Nat := e.act.foldl (fun f l => f ||| (r.res e l).flags) (r.more e)

/-- R105: one result for `.f32`, two for the packed types, with the flags of both. -/
def elements (ty : BitVec 2) (f : Nat → FRes) : FRes :=
  if ty = 0 then f 0 else ⟨(f 0).bits + (f 1).bits * 2 ^ 16, (f 0).flags ||| (f 1).flags⟩

/-- Element j of a source (R105), decoded, with `FTZ` applied (R112). -/
def element (e : Env) (ty : BitVec 2) (x j : Nat) : Fp :=
  fpIn (tyFmt ty) (fcrFtz e.com) (if ty = 0 then x % 2 ^ 32 else x / 2 ^ (16 * j) % 2 ^ 16)

/-- A row of the mould D, A, B and C. -/
def FloatRow.abc (c : Ctl) (d a : Code) (b : Src) (more : List Code) (ty : BitVec 2) (f : Env → Fp → Fp → Fp → FRes) :
    FloatRow :=
  { c := c
    rules := { fields := fun _ => ⟨d, .dst⟩ :: ⟨a, .src true⟩ :: (srcField b true ++ more.map fun x => ⟨x, .src true⟩) }
    res := fun e l => elements ty fun j =>
      f e (element e ty (val e a l) j) (element e ty (srcVal e b l) j) (element e ty (val e (more.headD 0xD0) l) j)
    more := fun _ => 0
    write := fun e s v => writeOut e s d v
    keys := fun e => (outKeys e d 1).map (·.1) }

/-- A row with one source. -/
def FloatRow.one (c : Ctl) (d a : Code) (ty : BitVec 2) (f : Env → Fp → FRes) : FloatRow :=
  { c := c
    rules := { fields := fun _ => [⟨d, .dst⟩, ⟨a, .src true⟩] }
    res := fun e l => elements ty fun j => f e (element e ty (val e a l) j)
    more := fun _ => 0
    write := fun e s v => writeOut e s d v
    keys := fun e => (outKeys e d 1).map (·.1) }

/-- R123: the leaf of a lane, and node m of level j. -/
def leaf (e : Env) (a : Code) (op l : Nat) : Nat := if e.act.contains l then val e a l else treeId op

def node (op mode : Nat) (ftz : Bool) (x : Nat → Nat) (j m : Nat) : Nat :=
  match j with
  | 0 => x m
  | j + 1 => (treeOp op mode ftz (node op mode ftz x j (2 * m)) (node op mode ftz x j (2 * m + 1))).bits

/-- The flags that the nodes of level j + 1 raise, from node m on, n of them. -/
def levelFlags (op mode : Nat) (ftz : Bool) (x : Nat → Nat) (j m n : Nat) : Nat :=
  match n with
  | 0 => 0
  | n + 1 => (treeOp op mode ftz (node op mode ftz x j (2 * m)) (node op mode ftz x j (2 * m + 1))).flags |||
      levelFlags op mode ftz x j (m + 1) n

/-- The flags of every node of a tree of 2^k lanes. -/
def nodeFlags (op mode : Nat) (ftz : Bool) (x : Nat → Nat) (k : Nat) : Nat :=
  (List.range k).foldl (fun f j => f ||| levelFlags op mode ftz x j 0 (2 ^ (k - 1 - j))) 0

/-- R124: lanes 0 to n - 1 combined from the left, one aligned block for each 1 bit of n, with the flags raised. -/
def prefixOf (op mode : Nat) (ftz : Bool) (x : Nat → Nat) (n : Nat) : FRes :=
  let r := [6, 5, 4, 3, 2, 1, 0].foldl (fun (acc : Option Nat × Nat) j =>
    if n.testBit j then
      let b := node op mode ftz x j (n / 2 ^ (j + 1) * 2)
      match acc.1 with
      | none => (some b, acc.2)
      | some y =>
        let r := treeOp op mode ftz y b
        (some r.bits, acc.2 ||| r.flags)
    else acc) (none, 0)
  ⟨r.1.getD 0, r.2⟩

/-- R408: an element of FCMP: the predicate, and the invalid flag of a signalling NaN. -/
def compared (e : Env) (ty : BitVec 2) (cond : BitVec 4) (comb : BitVec 2) (a : Code) (b : Src) (pc : Code) (j l : Nat) :
    FRes :=
  let x := element e ty (val e a l) j
  let y := element e ty (srcVal e b l) j
  ⟨(combined comb (fpCond cond.toNat x y) (predVal e (predNum pc + j) l)).toNat, if x.isSnan || y.isSnan then flNV else 0⟩

/-- The instructions that R115 names, with the results of R397, R398, R402 to R406, R408, R409, R426, R427, R457, R463,
R467 and R468. -/
def floatRow : Instr → Option FloatRow
  | .fadd c d a b ty rnd => some (.abc c d a b [] ty fun e x y _ =>
      fpAdd (tyFmt ty) (rndMode e.com rnd) (fcrFtz e.com) x y)
  | .fsub c d a b ty rnd => some (.abc c d a b [] ty fun e x y _ =>
      fpAdd (tyFmt ty) (rndMode e.com rnd) (fcrFtz e.com) x y.negate)
  | .fmul c d a b ty rnd => some (.abc c d a b [] ty fun e x y _ =>
      fpMul (tyFmt ty) (rndMode e.com rnd) (fcrFtz e.com) x y)
  | .ffma c d a b e ty rnd => some (.abc c d a b [e] ty fun v x y z =>
      fpFma (tyFmt ty) (rndMode v.com rnd) (fcrFtz v.com) x y z)
  | .fmin c d a b ty => some (.abc c d a b [] ty fun _ x y _ => fpMin (tyFmt ty) false x y)
  | .fmax c d a b ty => some (.abc c d a b [] ty fun _ x y _ => fpMin (tyFmt ty) true x y)
  | .fdivf c d a b ty rnd => some (.abc c d a b [] ty fun e x y _ =>
      fpDivf (tyFmt ty) (rndMode e.com rnd) (fcrFtz e.com) x y)
  | .fcmp c d a b ty cond comb pc => some
      { c := c
        rules := { fields := fun _ => ⟨d, .pout (ty != 0)⟩ :: ⟨a, .src true⟩ ::
          (srcField b true ++ if comb = 0 then [] else [⟨pc, .pin (ty != 0)⟩]) }
        res := fun e l => compared e ty cond comb a b pc 0 l
        more := fun e => if ty = 0 then 0 else e.act.foldl (fun f l => f ||| (compared e ty cond comb a b pc 1 l).flags) 0
        write := fun e s v =>
          let s := writePred e s d fun l => v l == 1
          if ty = 0 then s
          else writePred e s (d + 1) fun l => e.act.contains l && (compared e ty cond comb a b pc 1 l).bits == 1
        keys := fun e => e.act.map (regKey e d 0) ++ if ty = 0 then [] else e.act.map (regKey e (d + 1) 0) }
  | .frnd c d a ty rnd => some (.one c d a ty fun e x => fpRnd (tyFmt ty) (rndMode e.com rnd) x)
  | .rcp c d a ty rnd => some (.one c d a ty fun e x => fpRcp (tyFmt ty) (rndMode e.com rnd) (fcrFtz e.com) x)
  | .rsq c d a ty rnd => some (.one c d a ty fun e x => fpRsq (tyFmt ty) (rndMode e.com rnd) (fcrFtz e.com) x)
  | .sqrt c d a ty rnd => some (.one c d a ty fun e x => fpSqrt (tyFmt ty) (rndMode e.com rnd) (fcrFtz e.com) x)
  | .exp2 c d a ty rnd => some (.one c d a ty fun e x => fpExp2 (tyFmt ty) (rndMode e.com rnd) (fcrFtz e.com) x)
  | .log2 c d a ty rnd => some (.one c d a ty fun e x => fpLog2 (tyFmt ty) (rndMode e.com rnd) (fcrFtz e.com) x)
  | .tanh c d a ty rnd => some (.one c d a ty fun e x => fpTanh (tyFmt ty) (rndMode e.com rnd) (fcrFtz e.com) x)
  | .sincos c d a ty rnd => some
      { c := c
        rules := { fields := fun _ => [⟨d, .out 2⟩, ⟨a, .src true⟩] }
        res := fun e l =>
          let part := fun cosine => elements ty fun j =>
            fpTrig (tyFmt ty) (rndMode e.com rnd) (fcrFtz e.com) cosine (element e ty (val e a l) j)
          ⟨(part false).bits + (part true).bits * 2 ^ 32, (part false).flags ||| (part true).flags⟩
        more := fun _ => 0
        write := fun e s v => writeRun e s d 2 v
        keys := fun e => (outKeys e d 2).map (·.1) }
  | .cvt c d a e mrg dsel ssel sat rnd df sf => some
      { c := c
        rules := { fields := fun _ => [⟨d, .dst⟩, ⟨a, .src (!isIntFmt sf)⟩] ++ if mrg then [⟨e, .src false⟩] else [] }
        res := fun v l =>
          let x := val v a l / 2 ^ (elemPitch sf.toNat * ssel.toNat) % 2 ^ fmtBits sf.toNat
          let r := convert sf.toNat df.toNat (rndMode v.com rnd) (fcrFtz v.com) sat x
          let base := if mrg then val v e l % 2 ^ 32 else 0
          let p := elemPitch df.toNat
          let q := p * dsel.toNat
          ⟨fromBits (fun k => if q ≤ k ∧ k < q + p then (r.bits % 2 ^ p).testBit (k - q) else base.testBit k) 32, r.flags⟩
        more := fun _ => 0
        write := fun e s v => writeOut e s d v
        keys := fun e => (outKeys e d 1).map (·.1) }
  | .redux c d a op rnd => some
      { c := c
        rules := { fields := fun _ => [⟨d, .dst⟩, ⟨a, .src (op.toNat < 3)⟩] }
        res := fun e _ =>
          let x := leaf e a op.toNat
          let m := rndMode e.com rnd
          let k := Nat.log2 e.tm.width
          ⟨node op.toNat m (fcrFtz e.com) x k 0, nodeFlags op.toNat m (fcrFtz e.com) x k⟩
        more := fun _ => 0
        write := fun e s v => writeOut e s d v
        keys := fun e => (outKeys e d 1).map (·.1) }
  | .scan c d a op rnd excl => some
      { c := c
        rules := { fields := fun _ => [⟨d, .dst⟩, ⟨a, .src (op.toNat < 3)⟩] }
        res := fun e l =>
          let x := leaf e a op.toNat
          let m := rndMode e.com rnd
          let f := nodeFlags op.toNat m (fcrFtz e.com) x (Nat.log2 e.tm.width)
          let y : FRes := if excl ∧ l = 0 then ⟨treeId op.toNat, 0⟩
            else prefixOf op.toNat m (fcrFtz e.com) x (if excl then l else l + 1)
          ⟨y.bits, y.flags ||| f⟩
        more := fun _ => 0
        write := fun e s v => writeOut e s d v
        keys := fun e => (outKeys e d 1).map (·.1) }
  | _ => none

/-- R466: the lane that a lane of SWIZ reads, when it is one. -/
def swizzled (mode : BitVec 2) (width l : Nat) (b : Nat) (sb : Int) : Option Nat :=
  let t : Int := match mode.toNat with
    | 0 => b
    | 1 => l + sb
    | 2 => (((l + b) % width : Nat) : Int)
    | _ => ((l ^^^ b : Nat) : Int)
  if 0 ≤ t ∧ t < width then some t.toNat else none

/-- FCLASS (R407), RNGC (R125, R459) and SWIZ (R466), which raise no flag. -/
def laneRow : Instr → Option OutRow
  | .fclass c d a ty => some ⟨c, { fields := fun _ => [⟨d, .dst⟩, ⟨a, .src false⟩] }, d, fun e l =>
      let x := val e a l
      if ty = 0 then fpClass fp32 (x % 2 ^ 32) + (if isMarker x then 1024 else 0)
      else fpClass (tyFmt ty) (x % 2 ^ 16) + fpClass (tyFmt ty) (x / 2 ^ 16 % 2 ^ 16) * 2 ^ 16⟩
  | .rngc c d a b => some ⟨c, { fields := fun _ => [⟨d, .dst⟩, ⟨a, .src false⟩, ⟨b, .src false⟩] }, d, fun e l =>
      let mix := fun x : Nat => (x ^^^ (x / 2 ^ 15)) * 0x9E854A3B % 2 ^ 32
      let x := mix (mix ((val e b l ^^^ val e a l) % 2 ^ 32))
      x ^^^ (x / 2 ^ 12)⟩
  | .swiz c d a b useImm imm7 mode =>
    some ⟨c, { fields := fun _ => [⟨d, .dst⟩, ⟨a, .src false⟩] ++ if useImm then [] else [⟨b, .src false⟩] }, d,
      fun e l =>
        let n := if useImm then imm7.toNat else val e b l
        match swizzled mode e.tm.width l n (if useImm then signed 7 n else signed 32 n) with
        | some t => if e.act.contains t then val e a t else val e a l
        | none => val e a l⟩
  | _ => none

/-- R376: the mask of the `Active` lanes whose predicate is true. -/
def ballot (e : Env) (a : Code) : Nat := fromBits (fun l => e.act.contains l && predVal e (predNum a) l) 64

/-- An instruction of classes 0 to 2: its control fields, its rules, and the registers that it writes. -/
structure Writes where
  c     : Ctl
  rules : Rules
  d     : Code
  keys  : Env → List Nat

/-- The register that an instruction of classes 0 to 2 writes by D, and its key in each lane. -/
def writesOf (i : Instr) : Option Writes :=
  let run := fun d n (e : Env) => (outKeys e d n).map (·.1)
  match intRow i, pairRow i, predRow i, laneRow i, floatRow i, i with
  | some r, _, _, _, _, _ => some ⟨r.c, r.rules, r.d, run r.d 1⟩
  | _, some r, _, _, _, _ => some ⟨r.c, r.rules, r.d, fun e => run r.d (if e.kind = .group then 2 else 1) e⟩
  | _, _, some r, _, _, _ => some ⟨r.c, r.rules, r.d, fun e => e.act.map (regKey e r.d 0)⟩
  | _, _, _, some r, _, _ => some ⟨r.c, r.rules, r.d, run r.d 1⟩
  | _, _, _, _, some r, _ => some ⟨r.c, r.rules, ((r.rules.fields .group).map (·.code)).headD 0, r.keys⟩
  | _, _, _, _, _, .ballot c d a => some ⟨c, { fields := fun _ => [⟨d, .out 2⟩, ⟨a, .pin false⟩] }, d, run d 2⟩
  | _, _, _, _, _, .movi c d v true => some ⟨c, (moviHi c d v).rules, d, run d 1⟩
  | _, _, _, _, _, _ => none

end Sys2Proof.Machine
end

