-- ==== Sys2Proof/Safety/Rules.lean ====
section
/-! DEFINITION. The control fields, the operand fields and the entry's own conditions of every encoded instruction of
classes 3 to 7, as R339 to R345 and the entries give them; and when such an instruction issues. -/

namespace Sys2Proof.Machine

/-- The control fields of an instruction of classes 3 to 7. -/
def ctlOf : Instr → Ctl
  | .ld c .. | .st c .. | .lds c .. | .sts c .. | .atom c .. | .atomb c .. | .red c .. | .monw c .. | .pref c ..
  | .fence c .. | .cwb c .. | .cinv c .. | .iinv c .. | .cpin c .. | .cunpin c .. | .nop c | .br c .. | .brc c ..
  | .brv c .. | .bdq c .. | .brx c .. | .call c .. | .callx c .. | .ret c | .loop c .. | .exit c | .dqpush c ..
  | .dqpop c .. | .setmeet c .. | .waypt c .. | .rstlbl c .. | .yield c | .fbar c | .qpush c .. | .qpop c ..
  | .qstat c .. | .qbind c .. | .tdset c .. | .tdget c .. | .mldw c .. | .mswap c .. | .mma c .. | .mmaq c ..
  | .mzero c .. | .mlda c .. | .msta c .. | .pstart c .. | .pstop c .. | .pstat c .. | .iload c .. | .ictlState c ..
  | .ictlResume c .. | .ictlDiscard c .. | .ictlFaultAddress c .. | .passbegin c .. | .passend c .. | .passstat c ..
  | .resolve c .. | .xldi c .. | .xcoord c .. | .xcopy c .. | .xgather c .. | .xscatter c .. | .xmcast c ..
  | .xstmx c .. | .xfill c .. | .xarrive c .. | .xstamp c .. | .xwait c .. | .xfence c .. | .xtrap c .. | .xend c
  | .balloc c .. | .bfree c .. | .binit c .. | .barrive c .. | .bwait c .. | .btest c .. | .binval c .. | .sync c
  | .rdsr c .. | .wrsr c .. | .trap c .. | .tret c .. => c
  | _ => ⟨false, 0, 0⟩

/-- The rules of the range instructions (R393). -/
def rangeRules (d : Option Code) (a b : Code) : Rules :=
  { fields := fun k =>
      (match d with | some x => [⟨x, .out 1⟩] | none => []) ++ [⟨a, .reg (baseRun k)⟩, ⟨b, .reg 1⟩]
    once := true }

/-- The operand fields of an instruction of classes 3 to 7, and what its entry adds to the common checks. -/
def rulesOf : Instr → Rules
  | .ld _ d m o sx =>
    { fields := fun k => ⟨d, .out (dataRun k o.size.toNat)⟩ :: addrFields k m
      modBad := fun e => sx && e.kind == .group && decide (2 ≤ o.size.toNat) }
  | .st _ a b _ o => { fields := fun k => [⟨a, .reg (baseRun k)⟩, ⟨b, .data (dataRun k o.size.toNat)⟩] }
  | .lds _ d m size _ =>
    { fields := fun k => [⟨d, .out (dataRun k size.toNat)⟩, ⟨m.a, .reg 1⟩] ++ if m.idx then [⟨m.b, .src false⟩] else [] }
  | .sts _ a b _ size => { fields := fun k => [⟨a, .reg 1⟩, ⟨b, .data (dataRun k size.toNat)⟩] }
  | .atom _ d a b _ o op =>
    { fields := fun k =>
        let n := dataRun k o.size.toNat
        [⟨d, .out n⟩, ⟨a, .reg (baseRun k)⟩, ⟨b, .reg n⟩] ++ if op = 9 then [⟨d, .also n⟩] else [] }
  | .atomb _ d a b _ size op =>
    { fields := fun k =>
        let n := dataRun k size.toNat
        [⟨d, .out n⟩, ⟨a, .reg 1⟩, ⟨b, .reg n⟩] ++ if op = 9 then [⟨d, .also n⟩] else [] }
  | .red _ a b _ o _ => { fields := fun k => [⟨a, .reg (baseRun k)⟩, ⟨b, .reg (dataRun k o.size.toNat)⟩] }
  | .monw _ d a b _ o _ =>
    { fields := fun k =>
        let n := dataRun k o.size.toNat
        [⟨d, .out n⟩, ⟨a, .reg (baseRun k)⟩, ⟨b, .reg n⟩] }
  | .pref _ m _ => { fields := fun k => addrFields k m, noPoison := true }
  | .cwb _ a b _ | .cinv _ a b _ | .iinv _ a b _ _ => rangeRules none a b
  | .cpin _ d a b _ | .cunpin _ d a b _ => rangeRules (some d) a b
  | .brc _ a b _ _ => { fields := fun _ => [⟨a, .reg 1⟩, ⟨b, .reg 1⟩] }
  | .brv _ a _ _ => { fields := fun _ => [⟨a, .pin false⟩] }
  | .bdq .. => { fields := fun _ => [], dq := true }
  | .brx _ a | .callx _ a _ => { fields := fun _ => [⟨a, .reg 2⟩] }
  | .loop _ a _ => { fields := fun _ => [⟨a, .ctr⟩] }
  | .exit _ =>
    { fields := fun _ => [], settles := true, context := fun e => if isHandler e.t then some 0x20A else none }
  | .dqpush _ a => { fields := fun _ => [⟨a, .reg 1⟩], fork := true }
  | .dqpop _ d b32 => { fields := fun _ => [⟨d, .out (if b32 then 1 else 2)⟩], dq := true }
  | .waypt .. | .rstlbl .. => { fields := fun _ => [], waypoint := true, settles := true }
  | .qpush _ a _ => { fields := fun _ => [⟨a, .reg 1⟩], illegal := fun _ => dqIllegal a }
  | .qpop _ d _ p => { fields := fun _ => [⟨d, .out 1⟩, ⟨p, .pout false⟩] }
  | .qstat _ d _ => { fields := fun _ => [⟨d, .out 1⟩] }
  | .qbind _ d a .. => { fields := fun k => [⟨d, .kout 1⟩, ⟨a, .uni (baseRun k)⟩], once := true }
  | .tdset _ a _ w _ => { fields := fun k => [⟨a, .reg (tdRun w k)⟩], once := true, illegal := fun _ => tdZeroBad a true w }
  | .tdget _ d _ w _ => { fields := fun k => [⟨d, .out (tdRun w k)⟩], illegal := fun _ => tdZeroBad d false w }
  | .mldw _ a b _ _ => { fields := fun k => [⟨a, .coord (coordRun k)⟩, ⟨b, .uni 1⟩], fork := true, whole := true }
  | .mswap _ b _ => { fields := fun _ => [⟨b, .uni 1⟩], fork := true, whole := true }
  | .mma _ d a b _ _ | .mlda _ d a b _ _ | .msta _ d a b _ _ _ _ =>
    { fields := fun k => [⟨d, .tile⟩, ⟨a, .coord (coordRun k)⟩, ⟨b, .uni 1⟩], fork := true, whole := true }
  | .mmaq _ d b _ _ _ | .mzero _ d b _ => { fields := fun _ => [⟨d, .tile⟩, ⟨b, .uni 1⟩], fork := true, whole := true }
  | .pstart _ d a b _ _ n _ =>
    { fields := fun _ => [⟨d, .out 1⟩] ++ (if n = 0 then [] else [⟨a, .reg 1⟩, ⟨a, .also n.toNat⟩]) ++ [⟨b, .reg 1⟩]
      fork := true
      once := true
      illegal := fun e => if argRunBad e a n.toNat then some a.toNat else none }
  | .pstop _ d _ => { fields := fun _ => [⟨d, .out 1⟩] }
  | .pstat _ d _ sel =>
    { fields := fun k => [⟨d, .out (if k = .group then 2 else 1)⟩]
      illegal := fun _ => if 2 < sel.toNat then some sel.toNat else none }
  | .iload _ d a b g _ =>
    { fields := fun k => [⟨d, .kout 1⟩, ⟨a, .uni (baseRun k)⟩, ⟨b, .reg 1⟩, ⟨g, .reg 1⟩], fork := true, once := true }
  | .ictlState _ d a _ => ictlRules d a 0 false false
  | .ictlResume _ d a _ => ictlRules d a 1 true false
  | .ictlDiscard _ d a _ => ictlRules d a 2 true false
  | .ictlFaultAddress _ d a _ => ictlRules d a 3 true false
  | .passbegin _ d a => ictlRules d a 0x10 false true
  | .passend _ d a => ictlRules d a 0x11 false false
  | .passstat _ d a => ictlRules d a 0x12 false false
  | .resolve _ d a => ictlRules d a 0x13 false true
  | .xldi _ d a _ _ size _ => { fields := fun _ => [⟨d, .out (xldiRun size.toNat)⟩, ⟨a, .reg 1⟩] }
  | .xcoord _ d a _ => { fields := fun _ => [⟨d, .out 2⟩, ⟨d, .also 2⟩, ⟨a, .reg 2⟩] }
  | .xcopy _ a b g _ _ _ dir =>
    let tensor := decide (dir.toNat < 4)
    let scratch := dir.toNat != 2 && dir.toNat != 3
    { fields := fun _ => (if tensor then [⟨a, .reg 2⟩] else []) ++ (if scratch then [⟨b, .sp⟩] else []) ++
        if tensor then [] else [⟨g, .reg 1⟩] }
  | .xgather _ a b g .. | .xscatter _ a b g .. | .xmcast _ a b g .. =>
    { fields := fun _ => [⟨a, .reg 2⟩, ⟨b, .sp⟩, ⟨g, .reg 1⟩] }
  | .xstmx _ a b .. => { fields := fun _ => [⟨a, .reg 2⟩, ⟨b, .sp⟩] }
  | .xfill _ a b g _ lin =>
    { fields := fun _ => (if lin then [⟨a, .reg 1⟩, ⟨b, .sp⟩] else [⟨a, .reg 2⟩]) ++ [⟨g, .reg 1⟩] }
  | .xarrive _ imm a _ => { fields := fun _ => if imm then [] else [⟨a, .reg 1⟩] }
  | .xstamp _ a b .. => { fields := fun _ => [⟨a, .reg 1⟩, ⟨b, .reg 1⟩] }
  | .xwait _ bar a _ => { fields := fun _ => if bar then [⟨a, .reg 1⟩] else [] }
  | .balloc _ d _ f => { fields := fun _ => [⟨d, .out 1⟩, ⟨f, .pout false⟩] }
  | .bfree _ a | .binit _ a _ | .binval _ a => { fields := fun _ => [⟨a, .reg 1⟩], once := true }
  | .barrive _ a _ f => { fields := fun _ => [⟨a, .reg 1⟩, ⟨f, .pout false⟩], once := true }
  | .bwait _ d a f => { fields := fun _ => [⟨d, .reg 1⟩, ⟨a, .reg 1⟩, ⟨f, .pout false⟩], once := true }
  | .btest _ d a r f =>
    { fields := fun _ => [⟨d, .reg 1⟩, ⟨a, .reg 1⟩, ⟨r, .pout false⟩, ⟨f, .pout false⟩], once := true }
  | .sync _ => { fields := fun _ => [], fork := true, whole := true }
  | .rdsr _ d sr =>
    { fields := fun k => [⟨d, .out (if k == .group && srWide sr.toNat then 2 else 1)⟩]
      illegal := fun _ => if srKnown sr.toNat then none else some sr.toNat
      privilege := fun e => if srHandler sr.toNat && !isHandler e.t then some sr.toNat else none }
  | .wrsr _ a sr imm _ =>
    { fields := fun k => if imm then [] else [⟨a, .reg (if sr = 0x0E && k == .group then 2 else 1)⟩]
      illegal := fun e => if srWritable e.kind sr.toNat then none else some sr.toNat
      privilege := fun e => if sr = 0x20 ∧ isHandler e.t = false then some 0x20 else none
      once := sr != 0x0E }
  | .tret _ _ => { fields := fun _ => [], privilege := fun e => if isHandler e.t then none else some 0x399 }
  | _ => { fields := fun _ => [] }

/-- An instruction of classes 3 to 7 is issued by the party of `s.turn` and passes every check and wait that precedes
its own effect; `e` is the environment of that effect. -/
abbrev Runs (s : State) (i : Instr) (e : Env) : Prop := Issues s i (ctlOf i) (rulesOf i) e

/-- It passes every check that precedes those of its source values; `b` is the environment before any record is taken. -/
def Reaches (s : State) (i : Instr) (b : Env) : Prop :=
  s.turn = some b.p ∧ envOf s b.p i (ctlOf i) = some b ∧ sourced b (rulesOf i) = true

end Sys2Proof.Machine
end

