-- ==== Sys2Proof/Safety/Control.lean ====
section
/-! DEFINITION. What the statements about class 4 say: a thread's control state, the condition of BRC, the lanes that a
branch takes. -/

namespace Sys2Proof.Machine

/-- The threads of a group. -/
def threadsOf (s : State) (t g : Nat) : List Thread := ((getGroup s t g).map (·.thr)).getD []

/-- R385: the condition of BRC on two 64-bit values. -/
def compareHolds (cond : BitVec 3) (a b : Nat) : Bool :=
  let x := signed 64 a
  let y := signed 64 b
  if cond = 0 then a == b
  else if cond = 1 then a != b
  else if cond = 2 then decide (x < y)
  else if cond = 3 then decide (y ≤ x)
  else if cond = 4 then decide (a < b)
  else if cond = 5 then decide (b ≤ a)
  else if cond = 6 then decide (x ≤ y)
  else decide (y < x)

/-- The target of a BRA-format instruction, for the lanes of `Active` that take it (R68, R71). -/
def taken (e : Env) (t : Target) (f : Nat → Bool) (l : Nat) : Option DWord :=
  if l ∈ e.act ∧ f l = true then some (targetPc e.pc t) else none

/-- R71: of the frontier, the lanes outside `Active` keep their PC. -/
def keepsOut (e : Env) (f : Nat → Option DWord) (l : Nat) : Option DWord := if l ∈ e.act then f l else some e.pc

/-- The branch, if any lane takes it, finds its target's line fetched and its slot a target (R68). -/
def targetOk (e : Env) (t : Target) (f : Nat → Bool) : Prop :=
  (∃ l ∈ e.act, f l = true) → targetCheck e (targetPc e.pc t) = .ok ()

/-- The register target of a lane (R388): a run of two in a group, one register in a lead or porter. -/
def pcOf (e : Env) (a : Code) (l : Nat) : DWord := BitVec.ofNat 64 (val64 e a l)

/-- Every register target of `Active` is a well-formed PC and passes the target check, in lane order (R68). -/
def targetsOk (e : Env) (f : Nat → DWord) : Prop :=
  ∀ l ∈ e.act, pcOk (f l) = true ∧ targetCheck e (f l) = .ok ()

/-- R78: the frame that a call with a slide of `n` pushes. -/
def callFrame (e : Env) (n : Nat) (h : Thread) : Frame :=
  ⟨BitVec.ofNat 64 ((nextPc e.pc).toNat + (n / 8 - 1) * 8), h.meet⟩

/-- R80, R348: no outstanding operation is still to write a register of a block that is spilled. -/
def spills (e : Env) (w : Slide) : Prop := ∀ o ∈ e.com.ops, ∀ d ∈ o.dst, ∀ b ∈ w.spill, inBlock e.tm.alloc b d.1 = false

/-- A thread as a call leaves it (R78, R392). -/
def afterCall (e : Env) (n : Nat) (tgt : DWord) (h : Thread) : Thread :=
  { h with pc := tgt, entered := true, arrived := true, hold := none, stack := callFrame e n h :: h.stack,
           above := h.above.drop 1, wb := h.wb + n, meet := noPc }

/-- A thread as a return leaves it (R70, R78, R458). -/
def afterRet (h : Thread) : Thread :=
  match h.stack with
  | [] => h
  | f :: r => { h with pc := retPc f, entered := true, arrived := true, stack := r, above := f :: h.above,
                       wb := h.wb - frameSlide f, meet := f.meet, hold := some (retPc f, r.length) }

end Sys2Proof.Machine
end

