-- ==== Sys2Proof/Safety/Queue.lean ====
section
/-! DEFINITION. What the statements about queues and descriptors say: the words of a pushed record, a queue's state word,
a descriptor's fields. -/

namespace Sys2Proof.Machine

/-- R55: word j of the record that a queue destination pushes, from the lanes' results. -/
def pushedWord (e : Env) (f : Nat → Nat) (j : Nat) : Word :=
  if e.kind = .group then (if j ∈ e.act then BitVec.ofNat 32 (f j) else 0)
  else if e.act = [] then 0
  else if j = 0 then BitVec.ofNat 32 (f 0)
  else if j = 1 then BitVec.ofNat 32 (f 0 / 2 ^ 32) else 0

/-- R55: what a record gives a lane. -/
def poppedValue (k : Kind) (r : Record) (l : Nat) : Nat :=
  let w := fun j => (r.words.getD j 0).toNat
  if k = .group then w (l % r.words.length) else w 0 + (if 2 ≤ r.words.length then w 1 * 2 ^ 32 else 0)

/-- R451: depth of free slots in [20:11], visible records in [10:0], the closed ends in [31:30]. -/
def queueWord (x : Queue) : Nat :=
  (x.recs.countP (·.vis)) + 2 ^ 11 * (qDepth x.decl - x.recs.length) + (if x.cclosed then 2 ^ 30 else 0) +
    if x.pclosed then 2 ^ 31 else 0

/-- Two states agree but for the queues, and the number that orders visibility. -/
def sameButQueues (s t : State) : Prop := { t with insts := s.insts, seen := s.seen } = s

/-- 64-bit word i of a descriptor. -/
def descWord (d : BitVec 512) (i : Nat) : DWord := d.extractLsb' (64 * i) 64

end Sys2Proof.Machine
end

