-- ==== Sys2Proof/Safety/Memory.lean ====
section
/-! DEFINITION. What the statements about memory say: the bytes that a core sees, the lanes of an access, the results
of atomics and monitors, and scratchpad bytes. -/

namespace Sys2Proof.Machine

/-! ### Bytes -/

/-- A byte that a core's write buffer holds for an address. -/
def bufByte (s : State) (core a : Nat) : Option Byte :=
  match wbFind s core (a / 32) with
  | some x => if x.mask.getLsbD (a % 32) then some (x.data.extractLsb' (8 * (a % 32)) 8) else none
  | none => none

/-- A byte of unkeyed memory as a core's own reads at the slice see it: its write buffer over the slice (R137, R152). -/
def seenByte (s : State) (core a : Nat) : Byte := (bufByte s core a).getD (cellGet s.mem a)

/-- The little-endian number of n bytes (R3). -/
def numberOf (f : Nat → Byte) (n : Nat) : Nat :=
  match n with
  | 0 => 0
  | n + 1 => numberOf f n + (f n).toNat * 2 ^ (8 * n)

/-- The number that a core sees in n bytes from an address. -/
def seenValue (s : State) (core a n : Nat) : Nat := numberOf (fun i => seenByte s core (a + i)) n

/-- The byte of a value that a store of n bytes at `a` leaves at address `x`, when it covers it. -/
def storedByte (a n v x : Nat) : Option Byte :=
  if a ≤ x ∧ x < a + n then some (BitVec.ofNat 8 (v / 2 ^ (8 * (x - a)))) else none

/-- The sector of an address holds no poison, the link refuses nothing there, and the core's write buffer holds no
poison for it. -/
def cleanAt (s : State) (core a : Nat) : Prop :=
  a / 32 ∉ s.poison ∧ a / 32 ∉ s.refused ∧ ∀ x, wbFind s core (a / 32) = some x → x.bad = false

/-- An unkeyed access of n bytes within one sector. -/
def simple (pa key n : Nat) : Prop := key = 0 ∧ pa % 32 + n ≤ 32

/-! ### Lanes of an access -/

/-- A lane of an outstanding operation. -/
def laneOf (s : State) (p : Party) (op lane : Nat) : Option Lane :=
  (findOp s p op).bind fun o => o.lanes.find? fun l => l.lane == lane

/-- R149, R293: the values that a finished access writes: of each destination word the lane's value, a load's extended
first (R422). -/
def loadedWords (k : Kind) (o : Op) (ext : Nat → Nat) : List (Nat × Nat) :=
  let w := if k = .group then 32 else 64
  o.dst.filterMap fun d => (o.lanes.find? fun l => l.lane == d.2.1).map fun l =>
    (d.1, ext (l.done.getD 0) / 2 ^ (w * d.2.2) % 2 ^ w)

/-- R422: the extension of a loaded value of 2^size bytes to w bits. -/
def extended (w size : Nat) (sx : Bool) (v : Nat) : Nat :=
  let n := 8 * 2 ^ size
  if sx && decide (n < w) then lowBits w (signed n v) else v

/-- R367: the new value of an n-bit location. -/
def atomicValue (op n old b cmp : Nat) : Nat :=
  if op = 0 then (old + b) % 2 ^ n
  else if op = 1 then (if signed n old ≤ signed n b then old else b)
  else if op = 2 then (if signed n b ≤ signed n old then old else b)
  else if op = 3 then (if old ≤ b then old else b)
  else if op = 4 then (if b ≤ old then old else b)
  else if op = 5 then fromBits (fun i => old.testBit i && b.testBit i) n
  else if op = 6 then fromBits (fun i => old.testBit i || b.testBit i) n
  else if op = 7 then fromBits (fun i => old.testBit i != b.testBit i) n
  else if op = 8 then b
  else if op = 9 then (if old = cmp then b else old)
  else (fpAdd fp32 0 false (fpDecode fp32 old) (fpDecode fp32 b)).bits

/-- R432: the condition of a monitor on n bits. -/
def monitorHolds (cond n x b : Nat) : Bool :=
  if cond = 0 then x == b
  else if cond = 1 then x != b
  else if cond = 2 then decide (x ≥ b)
  else if cond = 3 then decide (x > b)
  else if cond = 4 then decide (signed n x ≥ signed n b)
  else if cond = 5 then decide (signed n x > signed n b)
  else (List.range n).any fun i => x.testBit i && b.testBit i

/-- R366, R433: the data operand and the comparand of a lane. -/
def dataOf (e : Env) (b : Code) (size l : Nat) : Nat := runVal e b (dataRun e.kind size) l % 2 ^ (8 * 2 ^ size)

/-- A release that leaves the core drains its write buffer at issue (R153). -/
def released (e : Env) (o : Mo) : State :=
  if moRel o && scopeLeaves e.tm o.scope && !e.act.isEmpty then drainCore e.s e.core else e.s

/-! ### Scratchpad -/

/-- R93: the address lies in the window, in the pair window only of a pair team, and is a multiple of the size. -/
def spOpen (e : Env) (a n : Nat) : Prop :=
  a < 2 ^ 25 ∧ a % 2 ^ 24 + n ≤ e.tm.window ∧ (2 ^ 24 ≤ a → e.tm.pair = true) ∧ a % n = 0

/-- R93, R339: the scratchpad address of a lane. -/
def spAddrOf (e : Env) (a b : Code) (off : BitVec 24) (idx : Bool) (sh : BitVec 3) (l : Nat) : Nat :=
  lowBits 32 (regVal e a 0 l + (if idx then signed 32 (val e b l) * 2 ^ sh.toNat else 0) + off.toInt)

/-- The half and the offset of a window that an address names from a core (R93): bit 24 names the other core of the
pair. -/
def spPlace (t : Team) (core a : Nat) : Nat × Nat :=
  (if (decide (2 ^ 24 ≤ a % 2 ^ 25)) = (core == t.core) then 1 else 0, a % 2 ^ 24)

/-- A byte of a window. -/
def winByte (t : Team) (half a : Nat) : Byte := Tab.get (if half = 0 then t.win0 else t.win1) a 0

/-- The number in n bytes at a scratchpad address. -/
def spNumber (t : Team) (core a n : Nat) : Nat :=
  let p := spPlace t core a
  numberOf (fun i => winByte t p.1 (p.2 + i)) n

/-- No poisoned word among n bytes at a scratchpad address (R147). -/
def spClean (t : Team) (core a n : Nat) : Prop :=
  let p := spPlace t core a
  ∀ i, i < n → (p.2 + i) / 8 ∉ (if p.1 = 0 then t.wpo0 else t.wpo1)

end Sys2Proof.Machine
end

