-- ==== Sys2Proof/Safety/System.lean ====
section
/-! DEFINITION. What the statements about class 7 say: the barrier that a handle names, the value of a special
register, and the word that WRSR writes. -/

namespace Sys2Proof.Machine

/-- R306, R373: a handle used on `core` names barrier `b` of team `t`, whose state is `x`: name, generation and pair bit
are those that the team holds, and the other bits are 0. -/
def Holds (s : State) (t : Team) (core h : Nat) (b : BarRef) (x : Barrier) : Prop :=
  ∃ n, Tab.find t.names (h % 64) = some n ∧ n.bar = some (b.core, b.entry) ∧ b.low = BitVec.ofNat 16 h ∧ h < 2 ^ 32 ∧
    n.gen = h / 2 ^ 14 ∧ n.gen ≠ 0 ∧ h / 128 % 128 = 0 ∧ (h.testBit 6 = true ↔ n.pair = true) ∧
    (n.pair = true ∨ b.core = core) ∧ getBar s b = some x

/-- R375: a name that the team does not hold. -/
def nameFree (t : Team) (k : Nat) : Prop := ∀ n, Tab.find t.names k = some n → n.bar = none

/-- The handle operand. -/
def handle (e : Env) (a : Code) : Nat := val e a e.low % 2 ^ 32

/-- Two states agree on every barrier but one. -/
def otherBars (s t : State) (core entry : Nat) : Prop :=
  ∀ b : BarRef, (b.core, b.entry) ≠ (core, entry) → getBar t b = getBar s b

/-- R187: a transaction count after n more bytes, signed in 40 bits. -/
def txAfter (tx : Int) (n : Nat) : Int := signed 40 (lowBits 40 (tx + n))

/-- R295: the trap that a reader sees. -/
def seenTrap (e : Env) : TrapInfo :=
  if isHandler e.t then match (getCore e.s e.core).serving with
    | some x => x.info
    | none => ⟨0, 0, 0, 0⟩
  else ⟨e.com.tcode, e.com.tdetail, e.com.tpc, 0⟩

/-- R453: the value of a special register. -/
def specialOf (e : Env) (sr l : Nat) : Nat :=
  let own := fun (a b : Nat) => if e.kind = .group then a else b
  if sr = 0x00 then own l (2 ^ 32 - 1)
  else if sr = 0x01 then own e.gid (2 ^ 32 - 1)
  else if sr = 0x02 then e.tm.tx
  else if sr = 0x03 then e.tm.ty
  else if sr = 0x04 then e.tm.tz
  else if sr = 0x05 then e.tm.nx
  else if sr = 0x06 then e.tm.ny
  else if sr = 0x07 then e.tm.nz
  else if sr = 0x08 then e.tm.width
  else if sr = 0x09 then e.core
  else if sr = 0x0A then (if e.tm.pair = true ∧ e.kind ≠ .group then 0 else e.core % 2)
  else if sr = 0x0B then e.ctx
  else if sr = 0x0C then (getCore e.s e.core).cycle.toNat
  else if sr = 0x0D then own (thread e.g l).wb 0
  else if sr = 0x0E then own (thread e.g l).meet.toNat noPc.toNat
  else if sr = 0x10 then e.com.fcr.toNat
  else if sr = 0x11 then e.com.fsr.toNat
  else if sr = 0x12 then fromBits (fun i =>
    if i = 0 then e.s.cores.any fun k => k.2.me.any fun m => m.team == e.t
    else if i = 7 then (getCore e.s e.tm.core).narrow
    else e.tm.mstat.getLsbD i) 8
  else if sr = 0x13 then (seenTrap e).code.toNat
  else if sr = 0x14 then (seenTrap e).detail.toNat
  else if sr = 0x15 then (seenTrap e).pc.toNat
  else if sr = 0x16 then e.tm.argblk.toNat
  else if sr = 0x20 then (getCore e.s e.core).ptest.toNat
  else if sr = 0x21 then
    let x := (getCtx e.s e.ctx).slots
    (((x.length % 8 * 64 + (x[3]?).getD 0 % 64) * 64 + (x[2]?).getD 0 % 64) * 64 + (x[1]?).getD 0 % 64) * 64 + (x[0]?).getD 0 % 64
  else if sr = 0x22 then (seenTrap e).va.toNat
  else if sr = 0x23 then (((getCore e.s e.core).serving).map (trapSrc e.s)).getD 0
  else 0

/-- R480: the word that WRSR writes. -/
def wordWritten (e : Env) (a : Code) (imm : Bool) (v : BitVec 24) : Nat :=
  if imm then v.toNat else val e a e.low % 2 ^ 32

/-- A party meets the checks that come before the privilege of its instruction (R291, R346 steps 1 to 5). -/
def permitted (b : Env) (r : Rules) : Bool :=
  let fs := r.fields b.kind
  b.i.wf && !r.modBad b && (r.illegal b).isNone && (r.context b).isNone && kindOk (opOf b.i) b.kind &&
    fs.all (goodCode b.kind (clsOf b.i) b.tm.alloc) && !cfBad b.s.lw.toNat b.c && decide (b.com.wcount < 4096) &&
    b.kind != .porter

end Sys2Proof.Machine
end

