-- ==== Sys2Proof/Safety/Matrix.lean ====
section
/-! DEFINITION. What the statements about the matrix engine say: the checks of a command at issue (R430). -/

namespace Sys2Proof.Machine

/-- R203: the parts of a matrix instruction. -/
def matrixParts : Instr → Option MeReq
  | .mldw _ a b td pair => some ⟨.loadWeights, none, a, some td, b, 0, pair⟩
  | .mswap _ b pair => some ⟨.swap, none, 0xD0, none, b, 0, pair⟩
  | .mma _ d a b td pair => some ⟨.rows, some d, a, some td, b, 0, pair⟩
  | .mmaq _ d b td q pair => some ⟨.rowsQueue, some d, 0xD0, some td, b, q.toNat, pair⟩
  | .mzero _ d b pair => some ⟨.zero, some d, 0xD0, none, b, 0, pair⟩
  | .mlda _ d a b td pair => some ⟨.loadTile, some d, a, some td, b, 0, pair⟩
  | .msta _ d a b td pair _ _ => some ⟨.storeTile, some d, a, some td, b, 0, pair⟩
  | _ => none

/-- The cores whose queues a command enters (R211). -/
def enginesOf (e : Env) (r : MeReq) : List Nat := if r.pair then [e.tm.core, partnerOf e.tm.core] else [e.core]

/-- R202: the coordinate's two signed halves. -/
def boxAt (e : Env) (c : Code) : Int × Int :=
  (signed 32 (val64 e c e.low), signed 32 (val64 e c e.low / 2 ^ 32))

/-- R430 steps 1 to 4: pair, tile, descriptor and barrier. -/
def headPasses (e : Env) (r : MeReq) (d : BitVec 512) (bar : Option BarRef) : Prop :=
  (r.pair = true → e.tm.pair = true) ∧ (∀ c, r.tile = some c → c.toNat - 0xC0 < e.tm.nt) ∧ (r.td = none → d = 0) ∧
  (∀ n, r.td = some n → ∃ x, getTeam e.s (tdOwner e.s e.core e.t) = some x ∧ n.toNat < x.nd ∧
    d = Tab.get x.tds n.toNat 0 ∧ descReason d = 0) ∧
  (handle e r.bar = 0 ∧ bar = none ∨ ∃ b x, bar = some b ∧ Holds e.s e.tm e.core (handle e r.bar) b x ∧
    x.inval = false ∧ (r.pair = true → (handle e r.bar).testBit 6 = true))

/-- R430 steps 5 to 8: queue, shapes and owners of every core, region, and the addresses of the box. -/
def bodyPasses (e : Env) (r : MeReq) (d : BitVec 512) (pages : Tab (Nat × Nat × Nat × Nat)) : Prop :=
  (∃ words, (if r.kind = .rowsQueue then ∃ x, getQueue e.s e.tm.inst r.q = some x ∧ qValid x.decl = true ∧
      qCKind x.decl = 5 ∧ qCStage x.decl = e.tm.stage ∧ words = qWords x.decl else words = 0) ∧
    ∀ k ∈ enginesOf e r, meReason d r e.t words (planesAfter (getCore e.s k)) = 0) ∧
  ¬(r.kind = .storeTile ∧ e.tm.region.isSome = true ∧ tdSpace d = false ∧ tdOut d = false) ∧
  (if r.td = none ∨ r.kind = .rowsQueue then pages = []
    else if tdSpace d = true then
      spBox e d (boxCoords (boxAt e r.coord).1 (boxAt e r.coord).2 (tdBox d 0) (tdBox d 1)) = .ok () ∧ pages = []
    else if r.kind = .storeTile then
      memBox e d (boxCoords (boxAt e r.coord).1 (boxAt e r.coord).2 (tdBox d 0) (tdBox d 1) ++
        if r.pair then boxCoords (boxAt e r.coord).1 ((boxAt e r.coord).2 + tdBox d 1) (tdBox d 0) (tdBox d 1) else []) =
          .ok pages
    else pages = [])

/-- Which half of a team's tiles the engine of core k works on (R211). -/
def halfAt (e : Env) (r : MeReq) (k : Nat) : Nat :=
  if r.pair then (if k = e.tm.core then 0 else 1) else if e.core = e.tm.core then 0 else 1

/-! ### MSTA (R210, R214, R215) -/

/-- An element that MSTA stores: the address, and the element's code with its `%mstat` bits; nothing out of bounds. -/
def storedCell (t : Team) (m : MeCmd) (d : Code) (rnd : BitVec 2) (sat : Bool) (c : Nat × Nat) :
    Option (Nat × Nat × Nat) :=
  let place : List Int := [m.c0 + (c.2 : Int), halfC1 m + (c.1 : Int), 0, 0, 0]
  if inBounds m.desc place then
    some (elemBit m.desc place / 8, storeElem (tdFmt m.desc) rnd.toNat sat
      (Tab.get (tilesOf t m.half) ((d.toNat - 0xC0) * 4096 + 64 * c.1 + c.2) 0).toNat)
  else none

/-- Some element of the box carries a poison mark. -/
def boxMarked (t : Team) (m : MeCmd) (d : Code) : Bool :=
  (boxCells m.desc).any fun c => (tilePoison t m.half).contains ((d.toNat - 0xC0) * 4096 + 64 * c.1 + c.2)

/-- What a byte becomes when the elements are stored one after another; `place` says where an address stands. -/
def storedBytes (t : Team) (m : MeCmd) (d : Code) (rnd : BitVec 2) (sat : Bool) (place : Nat → Option Nat) (a : Nat)
    (old : Byte) : Byte :=
  (boxCells m.desc).foldl (fun b c =>
    match storedCell t m d rnd sat c with
    | some x => match place x.1 with
      | some p => (storedByte p (tdBits m.desc / 8) x.2.1 a).getD b
      | none => b
    | none => b) old

/-- The `%mstat` bits of an MSTA. -/
def storedBits (t : Team) (m : MeCmd) (d : Code) (rnd : BitVec 2) (sat : Bool) : Nat :=
  if boxMarked t m d && tdPois m.desc then 0x30
  else (boxCells m.desc).foldl (fun n c => n ||| ((storedCell t m d rnd sat c).map (·.2.2)).getD 0)
    (if boxMarked t m d then 0x10 else 0)

/-- The `%mstat` bits that the effect of a command adds at its end. -/
def endBits (t : Team) (m : MeCmd) : Nat :=
  match m.instr with
  | .msta _ d _ _ _ _ rnd sat => storedBits t m d rnd sat
  | _ => 0

end Sys2Proof.Machine
end

