-- ==== Sys2Proof/Safety/Porter.lean ====
section
/-! DEFINITION. What the statements about porters say: rights, the words that PSTAT reads, the step of a coordinate, an
arrival, and a transfer as it enters. -/

namespace Sys2Proof.Machine

/-- R172: the lead, the producer group, and the handler may command porters. -/
def mayCommand (e : Env) : Prop :=
  isHandler e.t = true ∨ (∃ t, e.p = .lead t) ∨ ∃ t g, e.p = .group t g ∧ e.tm.producer = some g

/-- R173: the code of a porter's state. -/
def stateCode (x : Porter) : Nat :=
  if x.st = .idle then 0 else if x.st = .running then 1 else if x.st = .draining then 2 else 3

/-- R173: the words that PSTAT reads: state, count of outstanding transfers, and the fault's code and offset; the PC; the
fault's address. -/
def porterWord (x : Porter) (sel : Nat) : Nat :=
  if sel = 0 then
    stateCode x + 4 * min x.xfers.length 32 + (match x.fault with
      | some f => 2 ^ 8 * f.code.toNat + 2 ^ 16 * (f.roff % 2 ^ 24)
      | none => 0)
  else if sel = 1 then (if x.st = .idle then 0 else x.pc.toNat)
  else match x.fault with
    | some f => f.va.toNat
    | none => 0

/-- R177: the four indices after one box, each taken modulo 2^32, given the origin. -/
def nextCoord (d : BitVec 512) (o c : Nat → Int) : List Int :=
  let add := fun i => signed 32 (lowBits 32 (c i + tdBox d i))
  let a0 := add 0
  let a1 := if (tdDim d 0 : Int) ≤ a0 then add 1 else c 1
  let a2 := if (tdDim d 1 : Int) ≤ a1 then add 2 else c 2
  let a3 := if (tdDim d 2 : Int) ≤ a2 then add 3 else c 3
  [if (tdDim d 0 : Int) ≤ a0 then o 0 else a0, if (tdDim d 1 : Int) ≤ a1 then o 1 else a1,
    if (tdDim d 2 : Int) ≤ a2 then o 2 else a2, a3]

/-- R175: index i of the coordinate in a register pair: the halves of the two registers, lower first. -/
def indexAt (e : Env) (a : Code) (i : Nat) : Int := signed 32 (regVal e a (i / 2) 0 / 2 ^ (32 * (i % 2)))

/-- R188, R187: a barrier after one arrival with n bytes, made on core `at'`: the last one ends the phase. -/
def arrivedAt (x : Barrier) (at' n : Nat) : Barrier :=
  if x.arr - 1 = 0 ∧ txAfter x.tx n = 0 then
    { x with ph := !x.ph, arr := x.exp, tx := 0, last := insSorted x.arrived at', arrived := [] }
  else { x with arr := x.arr - 1, tx := txAfter x.tx n, arrived := insSorted x.arrived at' }

/-- R339: the effective address of a porter's access. -/
def porterAddr (e : Env) (a : Code) (off : BitVec 24) : Nat := lowBits 64 ((regVal e a 0 0 : Int) + off.toInt)

/-- The number of a porter on its core. -/
def porterNo (e : Env) : Nat :=
  match e.p with
  | .porter _ n => n
  | _ => 0

/-- R171, R174: transfer `y` of the porter enters after those outstanding, the porter goes on to its next instruction, and
nothing else of it but a wait and a resume offset changes. -/
def Enters (u : State) (e : Env) (y : Xfer) : Prop :=
  ∃ z, getPorter u e.core (porterNo e) = z ∧ z.xfers = e.x.xfers ++ [y] ∧ z.nextXfer = e.x.nextXfer + 1 ∧
    z.pc = nextPc e.pc ∧ z.g = e.x.g ∧ z.st = e.x.st ∧ z.bar = e.x.bar ∧ z.stamps = e.x.stamps ∧ z.pending = none ∧
    u.teams = e.s.teams ∧ y.id = e.x.nextXfer ∧ y.instr = e.i ∧ y.pc = e.pc

/-- R176: every unit of a transfer from its resume offset on passes its checks. -/
def unitsPass (e : Env) (s : State) (x : Xfer) : Prop :=
  x.next < x.stop ∧ (queueSide e.i = true ∨ (checkUnits s e.ctx e.core e.tm x (upto x.next (x.stop - x.next)) []).2 = none)

/-! ### The units of a transfer (R175, R176, R178, R188) -/

/-- Transfer `x` of a porter is outstanding, its team is `t`, and its next unit may be performed (R149, R183). -/
def Due (s : State) (core num tid : Nat) (t : Team) (x : Xfer) : Prop :=
  (getPorter s core num).xfers.find? (·.id == x.id) = some x ∧ (getPorter s core num).team = some tid ∧
    getTeam s tid = some t ∧ x.next < x.stop ∧
    unitFree s tid t core (getPorter s core num).xfers (getPorter s core num).stamps x x.next = true

/-- R176, R192: the pages of the next unit of a queue form: of a unit that has had no effect yet what its checks give, of one
begun those that they gave. -/
def unitPages (s : State) (core : Nat) (t : Team) (x : Xfer) (pages : Tab (Nat × Nat × Nat × Nat)) : Prop :=
  if x.okTo ≤ x.next then checkUnit s t.ctx core t x [] x.next = .ok pages else pages = x.pages

/-- Transfer `x` has become `y`, or is gone if `last`; the others stand. Whether a credit was dropped is left open. -/
def Advances (s u : State) (core num : Nat) (x y : Xfer) (last : Prop) : Prop :=
  (¬last → ∃ b, (getPorter u core num).xfers.find? (·.id == x.id) = some { y with dropped := b }) ∧
  (last → ∀ z ∈ (getPorter u core num).xfers, z.id ≠ x.id) ∧
  ∀ z ∈ (getPorter s core num).xfers, z.id ≠ x.id → z ∈ (getPorter u core num).xfers

/-- R175, R176: image byte k as the source end gives it: 0 where no element lies. -/
def sourceByte (s : State) (t : Team) (core : Nat) (x : Xfer) (u k : Nat) : Byte :=
  match (endPieces x (xSource x.instr) u).find? fun p => decide (p.k ≤ k ∧ k < p.k + p.n) with
  | none => 0
  | some p => (if endSp x (xSource x.instr) then winByte t (spHalf t core p.a) (p.a % 2 ^ 24 + (k - p.k))
      else seenByte s core ((piecePhys x p).pa + (k - p.k))) &&& BitVec.ofNat 8 p.mask

/-- The pieces in memory that a unit reads are unkeyed and not in the core's L1. -/
def sourceOpen (s : State) (core : Nat) (x : Xfer) (u : Nat) : Prop :=
  endSp x (xSource x.instr) = false → ∀ p ∈ endPieces x (xSource x.instr) u,
    simple (piecePhys x p).pa (piecePhys x p).key p.n ∧ l1Find s core ((piecePhys x p).pa / 32) = none

/-- The pieces that a unit writes at one end, with their bytes, the scale bytes of XSTMX last (R184). -/
def unitPieces (t : Team) (core : Nat) (x : Xfer) (en : XEnd) (u : Nat) (l : List Byte) : List (Piece × List Byte) :=
  (endPieces x en u).map (fun p => (p, (l.drop (p.k - 32 * u)).take p.n)) ++
    (unitScales t core x u).map fun y => (⟨0, y.1, 1, 255⟩, [y.2.1])

/-- R175: a byte after the pieces are written one after another: of a piece with a mask, only the bits of the mask change.
`place` says where a piece stands. -/
def writtenByte (ps : List (Piece × List Byte)) (place : Piece → Option Nat) (a : Nat) (old : Byte) : Byte :=
  ps.foldl (fun b p => match place p.1 with
    | none => b
    | some o =>
      if o ≤ a ∧ a < o + p.1.n then
        (b &&& ~~~(BitVec.ofNat 8 p.1.mask)) ||| ((p.2.getD (a - o) 0) &&& BitVec.ofNat 8 p.1.mask)
      else b) old

/-- Where a piece stands in one half of a team's window, from a core (R93). -/
def windowPlace (t : Team) (core half : Nat) (p : Piece) : Option Nat :=
  if spHalf t core p.a = half then some (p.a % 2 ^ 24) else none

/-- The windows of team `tid` after the pieces are written from a core. -/
def WindowTakes (u : State) (tid core : Nat) (t : Team) (ps : List (Piece × List Byte)) : Prop :=
  ∃ y, getTeam u tid = some y ∧ ∀ h k, h ≤ 1 → winByte y h k = writtenByte ps (windowPlace t core h) k (winByte t h k)

/-- Whole bytes to unkeyed sectors, in a core whose write buffer holds no key: then memory, as the core sees it, takes the
pieces. -/
def MemoryTakes (s u : State) (core : Nat) (x : Xfer) (ps : List (Piece × List Byte)) : Prop :=
  (∀ p ∈ ps, p.1.mask = 255 ∧ simple (piecePhys x p.1).pa (piecePhys x p.1).key p.1.n) → s.refused = [] →
  (∀ y ∈ s.wb, y.core = core → y.key = 0 ∧ wbFind s core y.sector = some y) →
  ∀ a, seenByte u core a = writtenByte ps (fun p => some (piecePhys x p).pa) a (seenByte s core a)

/-- R187, R188: a barrier after a credit of n bytes by a porter of core `at'`. -/
def creditedBy (x : Barrier) (at' n : Nat) : Barrier :=
  if x.arr = 0 ∧ signed 40 (lowBits 40 (x.tx - n)) = 0 then
    { x with ph := !x.ph, arr := x.exp, tx := 0, last := insSorted x.arrived at', arrived := [] }
  else { x with tx := signed 40 (lowBits 40 (x.tx - n)), arrived := insSorted x.arrived at' }

/-- The words of record j out of buffered bytes, for records of n words (R178). -/
def recordWords (l : List (Byte × Bool)) (n j : Nat) : List Word :=
  (List.range n).map fun i => BitVec.ofNat 32 (numberOf (fun b => (l.getD (4 * (n * j + i) + b) (0, false)).1) 4)

end Sys2Proof.Machine
end

