-- ==== Sys2Proof/Safety/Island.lean ====
section
/-! DEFINITION. What the statements about islands say: the state and pass words, the event of each class, and a request
that is served. -/

namespace Sys2Proof.Machine

/-- The island that the issuer names (R230). -/
def myIsle (e : Env) (kind : Nat) : Island := isleView e.s kind (isleIdx e kind)

/-- R234: the state word for a context and a team. -/
def stateWord (s : State) (x : Island) (ctx team : Nat) : Nat :=
  let state := if x.fault.isSome then 3 else if x.loading.isSome then 1 else if x.image.isSome then 2 else 0
  let own := if x.owner = some ctx then 1 else 0
  let fault := match x.fault with
    | some f => f.code.toNat * 2 ^ 8 + f.cause % 2 ^ 4 * 2 ^ 4 + f.port % 2 ^ 4
    | none => 0
  let tag := match x.image with
    | some i => i.tag.toNat
    | none => 0
  (((tag * 2 ^ 16 + fault) * 2 ^ 8 + min (pendingOf x team) 255) * 2 ^ 4 + min (boundPorts s x ctx) 15) * 2 ^ 4 + own * 2 ^ 3 + state

/-- R254: the pass status word. -/
def passBits (p : Pass) (opened : Bool) : Nat :=
  (min p.flushes (2 ^ 16 - 1) * 2 ^ 16 + min p.tflush (2 ^ 16 - 1)) * 2 ^ 16 + min p.pdrop 255 * 2 ^ 8 +
    fromBits (fun i => if i = 0 then opened else if i = 1 then pdBinned p.desc else if i = 2 then p.susp else p.badrec) 4

/-- The event of a class: island kind and index, class, binding, and the class's function. -/
def eventOf : Instr → Option (Nat × Nat × Nat × Nat × Serve)
  | .sample2d core b => some (1, core, 0x1001, b, oneUnit 1 core sample2dUnit)
  | .sampleCube core b => some (1, core, 0x1002, b, oneUnit 1 core sampleCubeUnit)
  | .rayBox4 core b => some (2, core, 0x2001, b, oneUnit 2 core box4Unit)
  | .rayTri core b => some (2, core, 0x2002, b, oneUnit 2 core triUnit)
  | .rayFrustum64 core b => some (2, core, 0x2003, b, oneUnit 2 core frustumUnit)
  | .blendColour b => some (3, 0, 0x3001, b, blendUnit)
  | .rasterCoarse quad b => some (0, quad, 0x0001, b, coarseUnit quad)
  | .rasterPath quad b => some (0, quad, 0x0002, b, pathRecord quad)
  | _ => none

/-- R231, R243, R253: it is binding y's turn: in order of arrival for blend, by rotation for the others, and for a raster
class while the pass takes its records. -/
def turnOf (s : State) (kind idx : Nat) (y : Binding) : Prop :=
  if kind = 3 then ∃ n, blendNext s (isleView s 3 0) = some (n, y)
  else nextBinding s (getIsle s kind idx) y.cls (if kind = 0 then passTakes (getIsle s kind idx) else fun _ => true) = some y

/-- The state in which a request of binding y is performed: its unit taken, the turn and the count of requests noted. -/
def requested (s : State) (kind idx : Nat) (y : Binding) (p : Option Party) : State :=
  modPorts (unitTake s kind idx (isleView s kind idx) y p).1 kind idx fun x =>
    { x with turn := Tab.set x.turn y.cls y.id, reqs := x.reqs + 1 }

/-- The number of the request that a unit taken now is. -/
def requestNo (s : State) (kind idx : Nat) : Nat := (isleView s kind idx).reqs + 1

/-- Binding y of the event's class has its turn, a unit of producer p is there with sound records, and no fault stands. -/
def Serves (s : State) (i : Instr) (kind idx : Nat) (f : Serve) (y : Binding) (p : Option Party) (recs : List Record) : Prop :=
  ∃ cls b n, eventOf i = some (kind, idx, cls, b, f) ∧
    (isleView s kind idx).binds.find? (fun z => z.id == b) = some y ∧ (classOf (isleView s kind idx) y).map (·.1) = some cls ∧
    turnOf s kind idx y ∧ unitReady s (isleView s kind idx) y = some (p, n) ∧ (isleView s kind idx).fault = none ∧
    recs = (unitTake s kind idx (isleView s kind idx) y p).2 ∧ ∀ r ∈ recs, r.poison = false

/-- Two states agree but for the islands. -/
def sameButIslands (s t : State) : Prop :=
  { t with raster := s.raster, sampler := s.sampler, ray := s.ray, blend := s.blend } = s

end Sys2Proof.Machine
end

