-- ==== Sys2Proof/Safety/Classes.lean ====
section
/-! DEFINITION. The results of the island classes from the words of a request's records, as R237 to R247 and R257 to R271
give them, for the statement that requests are served. -/

namespace Sys2Proof.Machine

/-! ### Batch records (R231) -/

/-- What one lane of a class of batch records answers, from its context, the binding's parameter, the lane's number and its
words; with the number of response records of a unit. -/
def laneClass : Instr → Option (Nat × (State → Nat → Nat → Nat → List Nat → Except IStop (State × List Nat)))
  | .sample2d core _ => some (4, fun s ctx par lane w => sampleLane s ctx core par lane w)
  | .sampleCube core _ => some (4, fun s ctx par lane w => cubeLane s ctx core par lane w)
  | .rayBox4 core _ => some (1, fun s ctx par lane w => boxLane s ctx core par lane w)
  | .rayTri core _ => some (4, fun s ctx par lane w => triLane s ctx core par lane w)
  | _ => none

/-- R231, R237: the lanes of a unit are answered in ascending order, lane l from word l of each record; word l of response
record c is the lane's word c. -/
def LanesAnswer : Prop :=
  ∀ (i : Instr) (kind idx cls b n width no : Nat) (f : Serve)
    (g : State → Nat → Nat → Nat → List Nat → Except IStop (State × List Nat)) (s : State) (y : Binding)
    (p : Option Party) (recs : List Record) (st : Nat → State) (outs : Nat → List Nat),
    eventOf i = some (kind, idx, cls, b, f) → laneClass i = some (n, g) → recs ≠ [] →
    (∀ r ∈ recs, r.words.length = width) → st 0 = s →
    (∀ l, l < width → g (st l) (isleOwner s kind idx) y.param.toNat l (recs.map fun r => (r.words.getD l 0).toNat) =
      .ok (st (l + 1), outs l)) →
    f s y p no recs = .ok (st width, [(List.range n).map fun c => (List.range width).map fun l =>
      BitVec.ofNat 32 ((outs l).getD c 0)])

/-- Words 0 to n - 1 of a lane hold no NaN. -/
def numbers (w : List Nat) (n : Nat) : Prop := ∀ i, i < n → (fpDecode fp32 (w.getD i 0)).ext ≠ .nan

/-! ### Textures (R236 to R239, R241) -/

/-- R238: the place of index k among n by its address mode: wrap, clamp, mirror. -/
def placed (mode n : Nat) (k : Int) : Int :=
  if mode = 0 then k % n
  else if mode = 1 then min (max k 0) (n - 1)
  else if k % (2 * n) < n then k % (2 * n) else 2 * n - 1 - k % (2 * n)

/-- ⌊r x n⌋. -/
def scaledFloor (r : Rat) (n : Nat) : Int := r.n * n / r.d

/-- R239: the words of a UN8x4 texel: each channel byte over 255, rounded once. -/
def un8Words (x : Nat) : List Nat := (List.range 4).map fun c => Rat.round fp32 0 (.of ((x / 256 ^ c % 256 : Nat) : Int) 255)

/-- A sound UN8x4 entry, sampled by the nearest texel, and a lane whose LOD names level 0. -/
def pointEntry (v ctl : Nat) : Prop :=
  texOk v = true ∧ (texOf v).filt = 0 ∧ (texOf v).fmt = 2 ∧ ctl.testBit 31 = true ∧ ctl / 256 % 4096 < 128

/-- R237, R238, R239: an invalid lane and a lane that names a reserved entry answer zeros; the point filter reads the texel
that holds (u, v), NaN as 0, and answers its channels. -/
def SampleAnswers : Prop :=
  (∀ (s : State) (ctx core par lane : Nat) (w : List Nat), (w.getD 4 0).testBit 31 = false →
    sampleLane s ctx core par lane w = .ok (s, [0, 0, 0, 0])) ∧
  (∀ (s s1 : State) (ctx core par lane v : Nat) (w : List Nat), (w.getD 4 0).testBit 31 = true →
    par % 16 = 0 → v < 2 ^ 128 → isleRead s ctx core (par + 16 * (w.getD 4 0 % 256)) 16 1 = .ok (s1, v) → texOk v = false →
    sampleLane s ctx core par lane w = .ok (s1, [0, 0, 0, 0])) ∧
  (∀ (s s1 s2 : State) (ctx core par lane v x i j : Nat) (ru rv : Rat) (t : Tex) (w : List Nat), t = texOf v →
    par % 16 = 0 → v < 2 ^ 128 → isleRead s ctx core (par + 16 * (w.getD 4 0 % 256)) 16 1 = .ok (s1, v) →
    pointEntry v (w.getD 4 0) → coordVal (w.getD 0 0) = .rat ru → coordVal (w.getD 1 0) = .rat rv →
    (i : Int) = placed t.addrU (2 ^ t.logW) (scaledFloor ru (2 ^ t.logW)) →
    (j : Int) = placed t.addrV (2 ^ t.logH) (scaledFloor rv (2 ^ t.logH)) →
    isleRead s1 ctx core (t.base + (j * 2 ^ t.logW + i) * 4) 4 4 = .ok (s2, x) →
    sampleLane s ctx core par lane w = .ok (s2, un8Words x))

/-- R241: the row of the face table that applies: face, sc, tc and ma. -/
def cubeRow (x y z : Ext) (face : Nat) (sc tc ma : Ext) : Prop :=
  let low := fun (a : Ext) => a.lt (.rat .zero)
  let majorX := y.abs.le x.abs = true ∧ z.abs.le x.abs = true
  let majorY := ¬majorX ∧ z.abs.le y.abs = true
  let majorZ := ¬majorX ∧ ¬z.abs.le y.abs = true
  (majorX ∧ low x = false ∧ face = 0 ∧ sc = z.neg ∧ tc = y.neg ∧ ma = x.abs) ∨
  (majorX ∧ low x = true ∧ face = 1 ∧ sc = z ∧ tc = y.neg ∧ ma = x.abs) ∨
  (majorY ∧ low y = false ∧ face = 2 ∧ sc = x ∧ tc = z ∧ ma = y.abs) ∨
  (majorY ∧ low y = true ∧ face = 3 ∧ sc = x ∧ tc = z.neg ∧ ma = y.abs) ∨
  (majorZ ∧ low z = false ∧ face = 4 ∧ sc = x ∧ tc = y.neg ∧ ma = z.abs) ∨
  (majorZ ∧ low z = true ∧ face = 5 ∧ sc = x.neg ∧ tc = y.neg ∧ ma = z.abs)

/-- R241: an invalid lane, a NaN component and a zero vector answer zeros, with nothing read; a reserved entry answers zeros;
the point filter reads the texel of the face that the table gives, clamped, and answers its channels. -/
def CubeAnswers : Prop :=
  (∀ (s : State) (ctx core par lane : Nat) (w : List Nat), w.length = 4 →
    ((w.getD 3 0).testBit 31 = false ∨ ¬numbers w 3 ∨ ∀ i, i < 3 → w.getD i 0 % 2 ^ 31 = 0) →
    cubeLane s ctx core par lane w = .ok (s, [0, 0, 0, 0])) ∧
  (∀ (s s1 : State) (ctx core par lane v : Nat) (w : List Nat), w.length = 4 → numbers w 3 →
    (∃ i, i < 3 ∧ (fpDecode fp32 (w.getD i 0)).ext.isZero = false) → (w.getD 3 0).testBit 31 = true →
    par % 16 = 0 → v < 2 ^ 128 → isleRead s ctx core (par + 16 * (w.getD 3 0 % 256)) 16 1 = .ok (s1, v) → texOk v = false →
    cubeLane s ctx core par lane w = .ok (s1, [0, 0, 0, 0])) ∧
  (∀ (s s1 s2 : State) (ctx core par lane v x i j face : Nat) (sc tc ma : Ext) (ru rv : Rat) (t : Tex) (w : List Nat),
    t = texOf v → w.length = 4 → numbers w 3 → (∃ i, i < 3 ∧ (fpDecode fp32 (w.getD i 0)).ext.isZero = false) →
    par % 16 = 0 → v < 2 ^ 128 → isleRead s ctx core (par + 16 * (w.getD 3 0 % 256)) 16 1 = .ok (s1, v) →
    pointEntry v (w.getD 3 0) →
    cubeRow (fpDecode fp32 (w.getD 0 0)).ext (fpDecode fp32 (w.getD 1 0)).ext (fpDecode fp32 (w.getD 2 0)).ext face sc tc ma →
    (((sc.div ma).add (.rat .one)).div (.rat (.ofInt 2))).rounded fp32 0 = .rat ru →
    (((tc.div ma).add (.rat .one)).div (.rat (.ofInt 2))).rounded fp32 0 = .rat rv →
    (i : Int) = placed 1 (2 ^ t.logW) (scaledFloor ru (2 ^ t.logW)) →
    (j : Int) = placed 1 (2 ^ t.logH) (scaledFloor rv (2 ^ t.logH)) →
    isleRead s1 ctx core (t.addr face 0 i j) 4 4 = .ok (s2, x) →
    cubeLane s ctx core par lane w = .ok (s2, un8Words x))

/-! ### Rays (R244 to R247) -/

/-- R245: n and f of an axis: the least of its exact products rounded down, and the greatest rounded up. -/
def slabEnds (ps : List Ext) : Ext × Ext :=
  ((ps.map fun p => p.rounded fp32 3).foldl Ext.min (.inf false), (ps.map fun p => p.rounded fp32 2).foldl Ext.max (.inf true))

/-- R245, R247: the products of an axis: both slab distances times the inverse direction, or each end of its interval. -/
def slabProducts (lo hi o : Ext) (inv : List Ext) : List Ext := [lo, hi].flatMap fun x => inv.map fun i => (x.sub o).mul i

/-- R245: tnear of a box that is hit. -/
def rayHit (o : Nat → Ext) (inv : Nat → List Ext) (tmin tmax : Ext) (box : Nat → Ext) : Option Ext :=
  let ends := fun a => slabEnds (slabProducts (box a) (box (a + 3)) (o a) (inv a))
  let tnear := ((tmin.max (ends 0).1).max (ends 1).1).max (ends 2).1
  let tfar := ((tmax.min (ends 0).2).min (ends 1).2).min (ends 2).2
  if (box 0).le (box 3) && (box 1).le (box 4) && (box 2).le (box 5) && tnear.le tfar then some tnear else none

/-- R245: the response word: a hit bit for each box; the hit boxes by ascending tnear, ties to the lower index, and then the
missed ones in ascending index; zeros above. -/
def wordOfHits (v : Nat) (h : Nat → Option Ext) : Prop :=
  let e := fun (j : Nat) => v / 2 ^ (4 + 2 * j) % 4
  v < 2 ^ 12 ∧ (∀ k, k < 4 → v.testBit k = (h k).isSome) ∧ (∀ k, k < 4 → ∃ j, j < 4 ∧ e j = k) ∧
  ∀ j, j < 3 →
    match h (e j), h (e (j + 1)) with
    | some t, some u => u.lt t = false ∧ (t.lt u = false → e j < e (j + 1))
    | none, none => e j < e (j + 1)
    | some _, none => True
    | none, some _ => False

/-- The words of the node that an index word names. -/
def nodeRead (s : State) (ctx core par node : Nat) : Except IStop (State × List Nat) :=
  wordsRead s ctx core (par + 128 * (node % 2 ^ 31)) ((List.range 24).map (4 * ·))

/-- Box k of a node's words. -/
def boxOf (ws : List Nat) (k a : Nat) : Ext := (fpDecode fp32 (ws.getD (6 * k + a) 0)).ext

/-- R244, R245: an invalid lane or a NaN answers 0; else, where no product is a NaN, the word of the boxes hit. -/
def BoxAnswers : Prop :=
  (∀ (s : State) (ctx core par lane : Nat) (w : List Nat), w.length = 9 →
    ((w.getD 8 0).testBit 31 = false ∨ ¬numbers w 8) → boxLane s ctx core par lane w = .ok (s, [0])) ∧
  (∀ (s s1 : State) (ctx core par lane : Nat) (w ws : List Nat), w.length = 9 → (w.getD 8 0).testBit 31 = true →
    numbers w 8 → nodeRead s ctx core par (w.getD 8 0) = .ok (s1, ws) → ws.length = 24 → ¬numbers ws 24 →
    boxLane s ctx core par lane w = .ok (s1, [0])) ∧
  (∀ (s s1 : State) (ctx core par lane : Nat) (w ws : List Nat) (r : Nat → Ext), w.length = 9 →
    (w.getD 8 0).testBit 31 = true → numbers w 8 → nodeRead s ctx core par (w.getD 8 0) = .ok (s1, ws) → ws.length = 24 →
    numbers ws 24 → (∀ i, r i = (fpDecode fp32 (w.getD i 0)).ext) →
    (∀ k a, k < 4 → a < 3 → ∀ p ∈ slabProducts (boxOf ws k a) (boxOf ws k (a + 3)) (r a) [r (3 + a)], p ≠ .nan) →
    ∃ v, boxLane s ctx core par lane w = .ok (s1, [v]) ∧
      wordOfHits v fun k => rayHit r (fun a => [r (3 + a)]) (r 6) (r 7) (boxOf ws k))

/-- R247: an invalid request or a NaN answers 0; an interval that is empty misses every box; else the word of the boxes hit,
the products taken with both ends of each interval. -/
def FrustumAnswers : Prop :=
  (∀ (s : State) (ctx core par : Nat) (w : List Nat), w.length = 16 →
    ((w.getD 11 0).testBit 31 = false ∨ ¬numbers w 11) → frustumWord s ctx core par w = .ok (s, [0])) ∧
  (∀ (s s1 : State) (ctx core par : Nat) (w ws : List Nat) (r : Nat → Ext), w.length = 16 →
    (w.getD 11 0).testBit 31 = true → numbers w 11 → nodeRead s ctx core par (w.getD 11 0) = .ok (s1, ws) → ws.length = 24 →
    numbers ws 24 → (∀ i, r i = (fpDecode fp32 (w.getD i 0)).ext) →
    (∃ a, a < 3 ∧ (r (4 + 2 * a)).lt (r (3 + 2 * a)) = true) → frustumWord s ctx core par w = .ok (s1, [0xE40])) ∧
  (∀ (s s1 : State) (ctx core par : Nat) (w ws : List Nat) (r : Nat → Ext), w.length = 16 →
    (w.getD 11 0).testBit 31 = true → numbers w 11 → nodeRead s ctx core par (w.getD 11 0) = .ok (s1, ws) → ws.length = 24 →
    numbers ws 24 → (∀ i, r i = (fpDecode fp32 (w.getD i 0)).ext) →
    (∀ a, a < 3 → (r (4 + 2 * a)).lt (r (3 + 2 * a)) = false) →
    (∀ k a, k < 4 → a < 3 → ∀ p ∈ slabProducts (boxOf ws k a) (boxOf ws k (a + 3)) (r a) [r (3 + 2 * a), r (4 + 2 * a)],
      p ≠ .nan) →
    ∃ v, frustumWord s ctx core par w = .ok (s1, [v]) ∧
      wordOfHits v fun k => rayHit r (fun a => [r (3 + 2 * a), r (4 + 2 * a)]) (r 9) (r 10) (boxOf ws k)) ∧
  (∀ (s : State) (ctx core par : Nat) (y : Binding) (x : Record) (s1 : State) (o : List Nat),
    frustumWord s ctx core par (x.words.map (·.toNat)) = .ok (s1, o) → y.param.toNat = par →
    frustumUnit core s ctx y [x] = .ok (s1, [o.map (BitVec.ofNat 32)]))

/-- R246: kz is the axis of largest |d|, ties to the lower; kx and ky follow it, swapped when d_kz < 0. -/
def rayAxes (d : Nat → Ext) (kx ky kz : Nat) : Prop :=
  kz < 3 ∧ (∀ i, i < 3 → (d kz).abs.lt (d i).abs = false) ∧ (∀ i, i < kz → (d i).abs.lt (d kz).abs = true) ∧
  if (d kz).lt (.rat .zero) = true then ky = (kz + 1) % 3 ∧ kx = (kz + 2) % 3 else kx = (kz + 1) % 3 ∧ ky = (kz + 2) % 3

/-- R246: an edge function counts as positive; its edge runs from p to q. -/
def countsPositive (e : Ext) (p q : Ext × Ext) : Prop :=
  if e.isZero = true then p.2.lt q.2 = true ∨ (p.2.lt q.2 = false ∧ q.2.lt p.2 = false ∧ q.1.lt p.1 = true)
  else (Ext.rat .zero).lt e = true

/-- R246: a vertex moved to the origin, a component rounded. -/
def moved (o v : Nat → Ext) (k : Nat) : Ext := ((v k).sub (o k)).rounded fp32 0

/-- R246: a moved vertex sheared, each component a single rounding. -/
def sheared (o d v : Nat → Ext) (kx ky kz : Nat) : Ext × Ext :=
  let s := fun k => ((d k).div (d kz)).rounded fp32 0
  (((moved o v kx).sub ((s kx).mul (moved o v kz))).rounded fp32 0,
    ((moved o v ky).sub ((s ky).mul (moved o v kz))).rounded fp32 0)

/-- R246: the edge functions U, V and W, and T. -/
structure RayTri where
  u : Ext
  v : Ext
  w : Ext
  t : Ext
  pu : Prop
  pv : Prop
  pw : Prop

def RayTri.det (x : RayTri) : Ext := (x.u.add x.v).add x.w

/-- R246: the edge functions, their signs and T, of a ray and a triangle. -/
def rayTriOf (o d a b c : Nat → Ext) (kx ky kz : Nat) : RayTri :=
  let pa := sheared o d a kx ky kz
  let pb := sheared o d b kx ky kz
  let pc := sheared o d c kx ky kz
  let u := (pc.1.mul pb.2).sub (pc.2.mul pb.1)
  let v := (pa.1.mul pc.2).sub (pa.2.mul pc.1)
  let w := (pb.1.mul pa.2).sub (pb.2.mul pa.1)
  let sz := ((Ext.rat .one).div (d kz)).rounded fp32 0
  let num := ((u.mul (moved o a kz)).add (v.mul (moved o b kz))).add (w.mul (moved o c kz))
  ⟨u, v, w, ((sz.mul num).div ((u.add v).add w)).rounded fp32 0, countsPositive u pc pb, countsPositive v pa pc,
    countsPositive w pb pa⟩

/-- The words of the triangle that an index word names: A, B and C. -/
def triRead (s : State) (ctx core par tri : Nat) : Except IStop (State × List Nat) :=
  wordsRead s ctx core (par + 48 * (tri % 2 ^ 31)) [0, 4, 8, 16, 20, 24, 32, 36, 40]

/-- R244, R246: an invalid lane or a NaN answers zeros; else, where no edge function is a NaN, a triangle whose edge functions
do not count the same sign, or sum to 0, or whose T is out of range, answers zeros, and one that is hit FLAGS, T, u and v. -/
def TriAnswers : Prop :=
  (∀ (s : State) (ctx core par lane : Nat) (w : List Nat), w.length = 9 →
    ((w.getD 8 0).testBit 31 = false ∨ ¬numbers w 8) → triLane s ctx core par lane w = .ok (s, [0, 0, 0, 0])) ∧
  (∀ (s s1 : State) (ctx core par lane : Nat) (w ws : List Nat), w.length = 9 → (w.getD 8 0).testBit 31 = true →
    numbers w 8 → triRead s ctx core par (w.getD 8 0) = .ok (s1, ws) → ws.length = 9 → ¬numbers ws 9 →
    triLane s ctx core par lane w = .ok (s1, [0, 0, 0, 0])) ∧
  (∀ (s s1 : State) (ctx core par lane kx ky kz : Nat) (w ws : List Nat) (r v : Nat → Ext) (x : RayTri),
    w.length = 9 → (w.getD 8 0).testBit 31 = true → numbers w 8 → triRead s ctx core par (w.getD 8 0) = .ok (s1, ws) →
    ws.length = 9 → numbers ws 9 → (∀ i, r i = (fpDecode fp32 (w.getD i 0)).ext) →
    (∀ i, v i = (fpDecode fp32 (ws.getD i 0)).ext) → rayAxes (fun i => r (3 + i)) kx ky kz →
    x = rayTriOf r (fun i => r (3 + i)) v (fun i => v (3 + i)) (fun i => v (6 + i)) kx ky kz →
    x.u ≠ .nan → x.v ≠ .nan → x.w ≠ .nan → x.det ≠ .nan →
    (¬((x.pu ↔ x.pv) ∧ (x.pv ↔ x.pw)) ∨ x.det.isZero = true ∨
        x.t ≠ .nan ∧ ¬((r 6).le x.t = true ∧ x.t.le (r 7) = true) →
      triLane s ctx core par lane w = .ok (s1, [0, 0, 0, 0])) ∧
    ((x.pu ↔ x.pv) → (x.pv ↔ x.pw) → x.det.isZero = false → x.t ≠ .nan → (r 6).le x.t = true → x.t.le (r 7) = true →
      triLane s ctx core par lane w = .ok (s1, [if x.det.lt (.rat .zero) = true then 3 else 1, x.t.round fp32 0,
        (x.u.div x.det).round fp32 0, (x.v.div x.det).round fp32 0])))

/-! ### Blending (R242, R243) -/

/-- R242: the factor that a 3-bit code of the target entry names, from the clamped source alpha and the decoded target
alpha. -/
def factorOf (code : BitVec 3) (sa da : Ext) : Ext :=
  if code = 0 then .rat .zero else if code = 1 then .rat .one else if code = 2 then sa
  else if code = 3 then (Ext.rat .one).sub sa else if code = 4 then da else (Ext.rat .one).sub da

/-- R243: the new bits of channel c of a pixel that reads `old`, from the source channels. -/
def channelOf (t : BitVec 128) (old : Nat) (src : Nat → Ext) (c : Nat) : Nat :=
  let f16 := t.extractLsb' 96 4 = 4
  let m := if f16 then 16 else 8
  let bitsOf := fun c => old / 2 ^ (m * c) % 2 ^ m
  let dst := fun c => if f16 then (fpDecode fp16 (bitsOf c)).ext else .rat (.of (bitsOf c : Nat) 255)
  let fs := factorOf (if c = 3 then t.extractLsb' 106 3 else t.extractLsb' 100 3) (satUnit (src 3)) (dst 3)
  let fd := factorOf (if c = 3 then t.extractLsb' 109 3 else t.extractLsb' 103 3) (satUnit (src 3)) (dst 3)
  if t.getLsbD (112 + c) = false then bitsOf c
  else if f16 then (((src c).mul fs).add ((dst c).mul fd)).round fp16 0
  else match satUnit (((satUnit (src c)).mul fs).add ((dst c).mul fd)) with
    | .rat r => (nearestEven (255 * r.n) r.d).toNat
    | _ => 0

/-- R242, R243: a unit with no valid lane changes no memory; of a unit with one valid lane, whose pixel lies within a sector
without poison, the pixel's bytes become the blended channels, and no other byte of memory changes. -/
def BlendAnswers : Prop :=
  (∀ (s : State) (y : Binding) (p : Option Party) (no : Nat) (recs : List Record),
    (∀ r ∈ recs.head?, ∀ l, l < r.words.length → (r.words.getD l 0).getLsbD 31 = false) →
    blendUnit s y p no recs = .ok (s, [])) ∧
  (∀ (s : State) (y : Binding) (p : Option Party) (no lane ctl va n pa old : Nat) (recs : List Record) (w : Nat → Nat)
    (q q' : Phys), s.Inv → recs.length = 5 → (∀ c, w c = ((recs.map fun (r : Record) => r.words.getD lane 0).getD c 0).toNat) →
    (∀ r ∈ recs.head?, lane < r.words.length ∧ ∀ l, l < r.words.length →
      ((r.words.getD l 0).getLsbD 31 = true ↔ l = lane)) → ctl = w 0 →
    n = (if y.entry.extractLsb' 96 4 = 4 then 8 else 4) →
    va = (y.entry.extractLsb' 0 49).toNat + ctl / 2 ^ 15 % 2 ^ 15 * (y.entry.extractLsb' 64 32).toNat + ctl % 2 ^ 15 * n →
    checkNow s (isleOwner s 3 0) Config.cores va n .loadNoKey = .ok q →
    checkNow s (isleOwner s 3 0) Config.cores va n .storeNoKey = .ok q' → pa = q.pa → simple pa q.key n →
    pa / 32 ∉ s.poison → pa / 32 ∉ s.refused → old = numberOf (fun i => cellGet s.mem (pa + i)) n →
    ∃ u v, blendUnit s y p no recs = .ok (u, []) ∧ v < 2 ^ (8 * n) ∧
      (∀ c, c < 4 → v / 2 ^ (2 * n * c) % 2 ^ (2 * n) =
        channelOf y.entry old (fun i => (fpDecode fp32 (w (1 + i))).ext) c) ∧
      ∀ a, cellGet u.mem a = (storedByte pa n v a).getD (cellGet s.mem a))

/-! ### Rasterisation (R257 to R260) -/

/-- R249: a coordinate word in range. -/
def coordIn (w : Word) : Prop := -8388608 ≤ signed 32 w.toNat ∧ signed 32 w.toNat ≤ 8388608

/-- R257: a record whose fields are legal. -/
def coarseGood (w : Nat → Word) : Prop := (∀ i, i < 6 → coordIn (w i)) ∧ w 7 < 3

/-- R258: D of a triangle. -/
def triArea (x y : Nat → Int) : Int := (x 1 - x 0) * (y 2 - y 0) - (y 1 - y 0) * (x 2 - x 0)

/-- R258: the first and the second vertex of edge e. -/
def edgeFrom (d : Int) (e : Nat) : Nat := if d < 0 then (e + 1) % 3 else (e + 2) % 3
def edgeTo (d : Int) (e : Nat) : Nat := if d < 0 then (e + 2) % 3 else (e + 1) % 3

/-- R258: E of edge e at a point; its steps; its top-left flag. -/
def edgeAt (x y : Nat → Int) (e : Nat) (px py : Int) : Int :=
  let d := triArea x y
  (px - x (edgeFrom d e)) * (y (edgeTo d e) - y (edgeFrom d e)) - (py - y (edgeFrom d e)) * (x (edgeTo d e) - x (edgeFrom d e))
def edgeSa (x y : Nat → Int) (e : Nat) : Int := y (edgeTo (triArea x y) e) - y (edgeFrom (triArea x y) e)
def edgeSb (x y : Nat → Int) (e : Nat) : Int := x (edgeFrom (triArea x y) e) - x (edgeTo (triArea x y) e)
def edgeTl (x y : Nat → Int) (e : Nat) : Prop := 0 < edgeSa x y e ∨ edgeSa x y e = 0 ∧ 0 < edgeSb x y e

/-- R258, R259: some of the 64 pixel centres of a tile is inside edge e. -/
def reaches (x y : Nat → Int) (e : Nat) (t : Nat × Nat) : Prop :=
  ∃ i j : Nat, i < 8 ∧ j < 8 ∧
    let v := edgeAt x y e (2048 * t.1 + 256 * i + 128 : Nat) (2048 * t.2 + 256 * j + 128 : Nat)
    0 < v ∨ v = 0 ∧ edgeTl x y e

/-- R259: the tiles of a triangle: those of the target that reach every edge, each once, in ascending TY and then TX. -/
def triTiles (l : List (Nat × Nat)) (x y : Nat → Int) (w h : Nat) : Prop :=
  l.Pairwise (fun a b => a.2 < b.2 ∨ a.2 = b.2 ∧ a.1 < b.1) ∧
  ∀ t, t ∈ l ↔ 8 * t.1 < w ∧ 8 * t.2 < h ∧ ∀ e, e < 3 → reaches x y e t

/-- R260: the words of a tile record. -/
def tileWords (x y : Nat → Int) (prim : Word) (seq : Nat) (t : Nat × Nat) : List Word :=
  [BitVec.ofNat 32 (t.1 + t.2 * 2 ^ 16), prim, if 0 < triArea x y then 1 else 0, BitVec.ofNat 32 (seq % 2 ^ 16)] ++
    (List.range 3).flatMap fun e =>
      let v := edgeAt x y e (2048 * t.1 + 128 : Nat) (2048 * t.2 + 128 : Nat)
      [BitVec.ofInt 32 v, BitVec.ofInt 32 (v / 2 ^ 32), BitVec.ofInt 32 (edgeSa x y e), BitVec.ofInt 32 (edgeSb x y e)]

/-- R255, R257 to R260: a malformed record is dropped with BADREC; a triangle without area, or culled, is dropped; in an
immediate pass without flag array any other adds one record for each tile that reaches its edges. -/
def CoarseAnswers : Prop :=
  (∀ (s : State) (q no : Nat) (y : Binding) (p : Option Party) (x : Record) (ps : Pass), (getIsle s 0 q).pass = some ps →
    ¬coarseGood (fun i => x.words.getD i 0) →
    coarseUnit q s y p no [x] = .ok (modIsle s 0 q fun z => { z with pass := some { ps with badrec := true } }, [])) ∧
  (∀ (s : State) (q no : Nat) (y : Binding) (p : Option Party) (x : Record) (ps : Pass) (d : Int) (w : Nat → Word),
    (getIsle s 0 q).pass = some ps → (∀ i, w i = x.words.getD i 0) → coarseGood w →
    d = triArea (fun i => signed 32 (w (2 * i)).toNat) (fun i => signed 32 (w (2 * i + 1)).toNat) →
    (d = 0 ∨ w 7 = 1 ∧ 0 < d ∨ w 7 = 2 ∧ d < 0) → coarseUnit q s y p no [x] = .ok (s, [])) ∧
  (∀ (s : State) (q no : Nat) (y : Binding) (p : Option Party) (x : Record) (ps : Pass) (d : Int) (w : Nat → Word)
    (vx vy : Nat → Int) (l : List (Nat × Nat)), q < 4 → (getIsle s 0 q).pass = some ps →
    ps.desc.getLsbD 0 = false → ps.desc.extractLsb' 320 49 = 0 → (∀ i, w i = x.words.getD i 0) → coarseGood w →
    (∀ i, vx i = signed 32 (w (2 * i)).toNat) → (∀ i, vy i = signed 32 (w (2 * i + 1)).toNat) → d = triArea vx vy →
    d ≠ 0 → (w 7 = 1 → d < 0) → (w 7 = 2 → 0 < d) →
    triTiles l vx vy ((ps.desc.extractLsb' 96 15).toNat + 1) ((ps.desc.extractLsb' 112 15).toNat + 1) →
    ∃ u, coarseUnit q s y p no [x] = .ok (u, []) ∧ sameButIslands s u ∧
      (getIsle u 0 q).resps = (getIsle s 0 q).resps ++ l.map fun t =>
        ⟨y.team, p, y.id, y.cls, no, [tileWords vx vy (w 6) (seqNext s q y.cls t.1 t.2) t]⟩)

/-! ### Paths (R263 to R271) -/

/-- R269: the winding integral of a pixel. -/
def windingOf (cells : List Cell) (x y : Nat) : Int :=
  let v := (cells.filter fun c => decide (c.cy = (y : Int) ∧ c.cx ≤ (x : Int))).map fun c => if c.cx = (x : Int) then c.c0 else c.c1
  signed 40 (v.sum % 2 ^ 40).toNat

/-- R269: coverage. -/
def coverOf (w : Int) (evenOdd : Bool) : Nat :=
  let m := min w.natAbs (127 * 7864320)
  let k := m % 15728640
  let cv := if evenOdd then (if k ≤ 7864320 then k else 15728640 - k) else min m 7864320
  (nearestEven cv 240).toNat

/-- R249, R269: the coverage of pixel i of a tile; one outside the target has none. -/
def pixelCover (cells : List Cell) (w h : Nat) (evenOdd : Bool) (t : Nat × Nat) (i : Nat) : Nat :=
  let x := 8 * t.1 + i % 8
  let y := 8 * t.2 + i / 8
  if x < w ∧ y < h then coverOf (windingOf cells x y) evenOdd else 0

/-- R270: the two records of a tile. -/
def tileUnit (pid : Word) (seq : Nat) (t : Nat × Nat) (cover : Nat → Nat) : List (List Word) :=
  [[BitVec.ofNat 32 (t.1 + t.2 * 2 ^ 16), pid,
      BitVec.ofNat 32 (((List.range 64).filter fun i => cover i == 0x8000).length + seq % 2 ^ 16 * 2 ^ 16)] ++
      List.replicate 29 0,
    (List.range 32).map fun k => BitVec.ofNat 32 (cover (2 * k) + cover (2 * k + 1) * 2 ^ 16)]

/-- R263: the fields of a path record are legal, with n points. -/
def pathGood (w : Nat → Word) (n : Nat) : Prop :=
  (w 0).extractLsb' 0 29 = 0 ∧ n = ([2, 3, 4, 0].getD ((w 0).extractLsb' 30 2).toNat 0) ∧
  (n ≠ 0 → (w 0).getLsbD 29 = false) ∧ (∀ i, i < 2 * n → coordIn (w (2 + i))) ∧ ∀ i, 2 * n ≤ i → i < 8 → w (2 + i) = 0

/-- R263, R268, R269, R270, R271: a malformed record is dropped with BADREC; a line within a pixel of an open path adds its
area and cover there; the end of a path that has room, in a pass without flag array, answers the two records of each tile
with coverage, in ascending TY and then TX. -/
def PathAnswers : Prop :=
  (∀ (s : State) (q no : Nat) (y : Binding) (p : Option Party) (x : Record) (ps : Pass), (getIsle s 0 q).pass = some ps →
    (∀ n, ¬pathGood (fun i => x.words.getD i 0) n) →
    pathRecord q s y p no [x] = .ok (modIsle s 0 q fun z => { z with pass := some { ps with badrec := true } }, [])) ∧
  (∀ (s : State) (q no : Nat) (y : Binding) (p : Option Party) (x : Record) (ps : Pass) (w : Nat → Word)
    (x0 y0 x1 y1 cx cy : Int) (a : PathAcc), q < 4 → (getIsle s 0 q).pass = some ps → (∀ i, w i = x.words.getD i 0) →
    pathGood w 2 → x0 = signed 32 (w 2).toNat → y0 = signed 32 (w 3).toNat → x1 = signed 32 (w 4).toNat →
    y1 = signed 32 (w 5).toNat → (x0, y0) ≠ (x1, y1) → cx = (x0 + x1) / 512 → cy = (y0 + y1) / 512 →
    (∀ z, z = x0 ∨ z = x1 → 256 * cx ≤ z ∧ z ≤ 256 * (cx + 1)) → (∀ z, z = y0 ∨ z = y1 → 256 * cy ≤ z ∧ z ≤ 256 * (cy + 1)) →
    pathAt (getIsle s 0 q) y.id = a → a.drop = false →
    ∃ u, pathRecord q s y p no [x] = (match pathRoom u q y.id with
        | .error e => .error e
        | .ok t => .ok (t, [])) ∧ sameButIslands s u ∧
      (pathAt (getIsle u 0 q) y.id).cells =
        addCell a.cells ⟨cx, cy, 30720 * (cx + 1) * (y1 - y0) - 60 * (x0 + x1) * (y1 - y0), 30720 * (y1 - y0)⟩) ∧
  (∀ (s s1 : State) (q no W H : Nat) (y : Binding) (p : Option Party) (x : Record) (ps : Pass) (w : Nat → Word) (a : PathAcc)
    (eo : Bool) (l : List (Nat × Nat)), q < 4 → (getIsle s 0 q).pass = some ps → (∀ i, w i = x.words.getD i 0) →
    pathGood w 0 → pathRoom s q y.id = .ok s1 → (getIsle s1 0 q).pass = some ps → ps.desc.extractLsb' 320 49 = 0 →
    a = pathAt (getIsle s1 0 q) y.id → a.drop = false → eo = (w 0).getLsbD 29 →
    W = (ps.desc.extractLsb' 96 15).toNat + 1 → H = (ps.desc.extractLsb' 112 15).toNat + 1 →
    l.Pairwise (fun a b => a.2 < b.2 ∨ a.2 = b.2 ∧ a.1 < b.1) →
    (∀ t, t ∈ l ↔ ∃ i, i < 64 ∧ pixelCover a.cells W H eo t i ≠ 0) →
    ∃ u, pathRecord q s y p no [x] = .ok (u, l.map fun t =>
        tileUnit (w 1) (seqNext s1 q y.cls t.1 t.2) t (pixelCover a.cells W H eo t)) ∧ sameButIslands s1 u ∧
      ∀ z ∈ (getIsle u 0 q).paths, z.bind ≠ y.id)

/-- R237 to R247, R257 to R271: what the classes answer. -/
def ClassesAnswer : Prop :=
  LanesAnswer ∧ SampleAnswers ∧ CubeAnswers ∧ BoxAnswers ∧ TriAnswers ∧ FrustumAnswers ∧ BlendAnswers ∧ CoarseAnswers ∧
    PathAnswers

end Sys2Proof.Machine
end

