-- ==== Sys2Proof/Safety/Host.lean ====
section
/-! DEFINITION. What the statements about the host, the launch unit and the HKC say: a context's vector, the page that
TLBINV names, bytes stored from outside, and a command that runs. -/

namespace Sys2Proof.Machine

/-- R311: the vector of event k of a context: its own for an enabled VF, else one of the PF's. -/
def ctxVector (s : State) (c k : Nat) : Nat × Nat := if 64 < c ∧ c - 64 ≤ s.vfs then (c - 64, k) else (0, 64 + 16 * c + k)

/-- R315: the word names every translation, or a page that shares an address with the page `vpn` of 2^lg bytes. -/
def NamedBy (w vpn lg : Nat) : Prop :=
  w.testBit 62 = true ∨ ∃ a, a / 2 ^ lg = vpn ∧ a / 2 ^ invSize w = w / 2 ^ 12 % 2 ^ 37 * 4096 / 2 ^ invSize w

/-- R310: an offset in a BAR0 that is offset `off` of the page of context c: the PF's holds the device page's 1 MiB and then
the pages of all contexts, a VF's the page of its own. -/
def atPage (s : State) (b : Bar0) (place c off : Nat) : Prop :=
  c < 96 ∧ off < 0x10000 ∧
    (b = .pf ∧ place = 0x100000 + c * 0x10000 + off ∨ ∃ v, b = .vf v ∧ 1 ≤ v ∧ v ≤ s.vfs ∧ c = 64 + v ∧ place = off)

/-- R131, R282: the state but for what an access leaves in the TLBs, in the walks and on the controllers' counters. -/
def touchedOnly (s t : State) : Prop := { t with tlb := s.tlb, walks := s.walks, bwNow := s.bwNow } = s

/-- Every register of the device page but one reads the same. -/
def otherDev (s t : State) (off : Nat) : Prop := ∀ o, o ≠ off → devReg t o = devReg s o

/-- Every register of every context page but one reads the same. -/
def otherPages (s t : State) (c off : Nat) : Prop :=
  ∀ d o, d * 0x10000 + o ≠ c * 0x10000 + off → pageReg t d o = pageReg s d o

/-- R317: the bytes `l` stand from `pa` on, all other bytes are as before, and whole sectors written hold no poison. -/
def BytesStored (s t : State) (pa : Nat) (l : List Byte) : Prop :=
  (∀ a, cellGet t.mem a = if pa ≤ a ∧ a < pa + l.length then l.getD (a - pa) 0 else cellGet s.mem a) ∧
  ∀ k, pa ≤ 32 * k → 32 * k + 32 ≤ pa + l.length → k ∉ t.poison

/-- R276: packets published in a queue when `LQWR` holds w. -/
def inRing (s : State) (c q w : Nat) : Nat := (w + 2 ^ 32 - (pageReg s c (16 * q + 12)).toNat) % 2 ^ 32

/-- R320: the HKC runs command x, with this code, for context c, and has not performed it. -/
def Asked (s : State) (code c : Nat) (x : Command) : Prop :=
  s.command = some x ∧ x.code = code ∧ x.ctx = c ∧ c < 96 ∧ x.result = none

/-- The state with the running command answered. -/
def answer (s : State) (x : Command) (n : Nat) : State :=
  { s with
    command := some { x with
      result := some n } }

/-- R320: the code of a command's event and its context. -/
def commandOf : Instr → Option (Nat × Nat)
  | .ctxCreate c => some (1, c)
  | .ctxReset c => some (2, c)
  | .ctxAttest c => some (3, c)
  | .ctxExport c => some (4, c)
  | .ctxImport c => some (5, c)
  | .ctxConfirm c => some (6, c)
  | .ctxRelease c => some (7, c)
  | .ctxAbort c => some (8, c)
  | .kesload c => some (9, c)
  | _ => none

/-- R320, R323, R324: the state that a command asks of its context: 0 FREE, 1 ACTIVE, 2 EXPORTED, 3 IMPORTED. -/
def asksState (code st : Nat) : Bool :=
  if code = 1 ∨ code = 5 then st == 0
  else if code = 2 then st != 0
  else if code = 4 ∨ code = 9 then st == 1
  else if code = 6 ∨ code = 8 then st == 2
  else if code = 7 then st == 3
  else true

/-- R323: the header that EXPORT writes for a context: what it names, and the EXPT key for the destination (log entry 21). -/
def imageHead (s : State) (c : Nat) (dest : BitVec 512) (rs : List (Nat × Nat)) : List Byte :=
  let x := getCtx s c
  Config.imageHeader x.tenant x.period (Config.sm2Public atstKey)
    (Config.sm2Encrypt dest (BitVec.ofNat 128 (ofBytes (exportKey x))) s.tick) rs s.tick

/-- R323: the image: its header, and behind it the pages sealed under the EXPT key. -/
def imageBytes (s : State) (c : Nat) (dest : BitVec 512) (rs : List (Nat × Nat)) (ps : List (List Byte × Nat × Nat)) : List Byte :=
  let h := imageHead s c dest rs
  h ++ sealPages (exportKey (getCtx s c)) h.length (ps.map (·.1)).flatten true

/-- R331: the fields of KESLOAD's result. -/
def ResultSays (r : List Byte) (va ehdr eport plen width reused : Nat) : Prop :=
  r.length = 64 ∧ argNum r 0 8 = va % 2 ^ 64 ∧ argNum r 8 4 = ehdr % 2 ^ 32 ∧ argNum r 12 4 = eport % 2 ^ 32 ∧
    argNum r 16 4 = plen % 2 ^ 32 ∧ argNum r 20 1 = width ∧ argNum r 21 1 = reused ∧ argNum r 22 10 = 0 ∧ argNum r 48 16 = 0

/-- R331: the fields of the header of a new entry, and that it is long enough. -/
def EntrySays (b : List Byte) (s : State) (c : Nat) (j : KesJob) (len : Nat) : Prop :=
  argNum b 0 4 = len % 2 ^ 32 ∧ argNum b 4 1 = j.width ∧ argNum b 5 1 = 1 ∧ argNum b 6 2 = j.kernel % 2 ^ 16 ∧
    argNum b 8 8 = (getCtx s c).tenant.toNat ∧ argNum b 48 8 = j.errata.toNat ∧ argNum b 56 4 = (kesPlan j).head % 2 ^ 32 ∧
    argNum b 60 4 = kesPort j % 2 ^ 32 ∧ (kesPlan j).len ≤ len

/-- R330: a valid entry of the cache area for a request. -/
def validEntry (s : State) (c : Nat) (j : KesJob) (e : KesEntry) : Bool :=
  kesSame (getCtx s c).tenant (sm3 j.img) j.kernel j.width e && kesValid j.errata.toNat e

/-- R330: KESLOAD runs for an ACTIVE context with sound arguments `a` and a sound image, and makes the job `j`. -/
def Loads (s : State) (c : Nat) (x : Command) (a img : List Byte) (j : KesJob) : Prop :=
  Asked s 9 c x ∧ (getCtx s c).st = 1 ∧ physRead s x.arg 40 = some a ∧ kesArgsBad a = false ∧ kesImage s c a = .ok img ∧
    kesContradicts a img = false ∧ j = kesJob s a img

/-- R331: the walk of the cache area for a job: the entries passed, where it ended, and the valid entry found. -/
def walkArea (s : State) (c : Nat) (a : List Byte) (j : KesJob) : Option (List KesEntry × Nat × Option KesEntry) :=
  kesChain (argNum a 24 4 / 64 + 1) s c (argNum a 16 8) (argNum a 24 4) 0 [] (validEntry s c j)

/-- R283: the launches in the order in which an admission step asks them. -/
def turns (s : State) : List (Nat × Launch) := (upto 0 (if s.alarm then 2 else 4)).flatMap (classOrder s)

end Sys2Proof.Machine
end

