-- ==== Sys2Proof/Certificates/Slice0/Obligations.lean ====
section
/-! DEFINITION. The statements for the provers. -/

section

open Sys2Proof Sys2Proof.Machine
/-! ### Encoding and the step -/

/-- Words that the spec writes out decode to the instructions they stand for: XOR, OR, AND and ANDN (R482, R438, R365),
CVT (R397, R398), SWIZ (R466), NOP (R340, R437), BRV (R378), RSTLBL (R460, R461), WAYPT (R479), ATOM (R368, R371), ST (R469, R470),
FENCE (R411), PSTART (R444), XCOPY (R484), SYNC (R472), RDSR (R452) and TRET (R478). -/
def Obligations.SpecWordsDecode : Prop :=
  let c : Ctl := ⟨false, 0, 0⟩
  decode 0x0480_0060_2040_0000_0000_0000 = .ok (.bXor c 3 1 (.reg 2)) ∧
  decode 0x0440_0060_2040_0000_0000_0000 = .ok (.bOr c 3 1 (.reg 2)) ∧
  decode 0x0400_0060_2040_0000_0000_0000 = .ok (.bAnd c 3 1 (.reg 2)) ∧
  decode 0x04C0_0060_2040_0000_0000_0000 = .ok (.bAndn c 3 1 (.reg 2)) ∧
  decode 0x4000_0040_2000_0000_0000_0470 = .ok (.cvt c 2 1 0 false 0 0 false 4 7 0) ∧
  decode 0x4400_0040_2000_0000_0000_000F = .ok (.swiz c 2 1 0 true 1 3) ∧
  decode 0x8000_0000_0000_0000_0000_0000 = .ok (.nop c) ∧
  decode 0x80D8_0000_0001_0000_0002_1620 = .ok (.brv c 0xB1 ⟨1, 0⟩ ⟨2, 0⟩) ∧
  decode 0x83D8_0000_0000_0000_0000_0001 = .ok (.rstlbl c true ⟨0, 0⟩) ∧
  decode 0x83A8_0000_0000_0001_E000_0000 = .ok (.waypt c 0x000F) ∧
  decode 0x6110_0081_00C0_0002_015A_9000 = .ok (.atom c 4 8 6 0x10 ⟨0, 5, 3, 2⟩ 9) ∧
  decode 0x6050_0000_0040_0008_0152_0000 = .ok (.st c 0 2 0x40 ⟨0, 5, 2, 2⟩) ∧
  decode 0x6250_0000_0000_0000_0160_0000 = .ok (.fence c 5 4) ∧
  decode 0x6250_0000_0000_0000_0150_0000 = .ok (.fence c 5 2) ∧
  decode 0xA820_0021_00A0_0001_0040_0003 = .ok (.pstart c 1 8 5 1 0x40 3 false) ∧
  decode 0xC0A0_0000_0040_0200_0000_0000 = .ok (.xcopy c 0 2 0 4 0 0 0) ∧
  decode 0xE1E8_0000_0000_0000_0000_0000 = .ok (.sync c) ∧
  decode 0xE428_1000_0180_0000_0000_0000 = .ok (.rdsr c 0x80 0x0C) ∧
  decode 0xE668_0000_0000_0000_2000_0000 = .ok (.tret c 1)

/-- The decoder reads back every word that the encoder writes: for every well-formed encoded instruction, no operand,
no modifier and no control field is lost (R336 to R346). -/
def Obligations.DecodeInvertsEncode : Prop :=
  ∀ (i : Instr) (w : Nat), i.wf = true → encode i = some w → w < 2 ^ 96 ∧ decode w = .ok i

/-- A step that finds a move in its agenda makes it. An event runs as its instruction. An issue by a party that may
issue and stands at a slot whose word decodes to `i` is exec of `i`, with the tick advanced, the move taken off, the
party as `turn` and the word of its line noted; the line then is held ahead of issue (R164). The model's choices in
it: log entries 1, 3. -/
def Obligations.StepRunsDecodedInstruction : Prop :=
  (∀ (s : State) (i : Instr) (r : List Move), s.agenda = .event i :: r →
    step s = exec i { s with agenda := r, tick := s.tick + 1 }) ∧
  (∀ (s s1 : State) (p : Party) (r : List Move) (pc : DWord) (line : Nat) (entered arrived : Bool) (i : Instr),
    s.agenda = .issue p :: r → mayIssue { s with agenda := r, tick := s.tick + 1 } p = true →
    StandsAt { s with agenda := r, tick := s.tick + 1 } p s1 pc line entered arrived →
    SlotOpen s1 p pc line entered arrived → decode (slotWord line (slotOf pc)) = .ok i →
    step s = exec i { s1 with turn := some p, lw := BitVec.ofNat 32 (lineWord line) }) ∧
  (∀ (s : State) (m : Move), s.agenda = [] → choose (strike s) = some m →
    step s = runMove m { strike s with tick := (strike s).tick + 1 })

/-! ### The invariant of memory and the reset -/

/-- Every step keeps the canonical form of memory, from every state that has it. The model's choices in it: log entries
1, 10. -/
def Obligations.StepKeepsMemoryForm : Prop := ∀ s t : State, s.Inv → step s = .next t → t.Inv

/-- The state after reset has the invariant. The model's choices in it: log entry 10. -/
def Obligations.ResetMeetsInvariant : Prop := State.reset.Inv

/-- What a device reset leaves (R325, R326): no team, no launch, no context in use, every key slot and every byte of
memory zero, `READY` 0; `DEVIDENT` as R26 and R312 give it; and the start values that R106 and R107 give. The
model's choices in it: log entries 9, 10. -/
def Obligations.ResetValues : Prop :=
  let s := State.reset
  s.teams = [] ∧ s.launches = [] ∧ s.slots = [] ∧ s.ready = false ∧
  (∀ c, getCtx s c = Context.free) ∧ (∀ a, cellGet s.mem a = 0) ∧
  devReg s 0x0000 = 0x9080_1110 ∧
  (∀ pc, (startLead pc).com.fcr = 0x100 ∧ (startLead pc).com.fsr = 0 ∧ (startLead pc).s = [] ∧ (startLead pc).pc = pc)

/-! ### Results of classes 0 to 2 -/

/-- An integer instruction that passes its checks writes to D, in each `Active` lane, the value that its rule gives, and
goes on: the rows of `intRow`, and `MOVI.hi` outside groups. Queue and DQ operands are taken first (R41, R55). The
model's choices in it: log entry 5. -/
def Obligations.IntegerResults : Prop :=
  (∀ (i : Instr) (r : OutRow) (s : State) (e : Env), intRow i = some r → Issues s i r.c r.rules e →
    Machine.exec i s = .next (done e (writeOut e e.s r.d (r.value e)))) ∧
  (∀ (c : Ctl) (d : Code) (v : Word) (s : State) (e : Env),
    Issues s (.movi c d v true) c (moviHi c d v).rules e →
    Machine.exec (.movi c d v true) s = .next (done e (writeOut e e.s d ((moviHi c d v).value e))))

/-- IMADW, `LOCA.w` and `MOV.b64` in a group write 64 bits to the pair D, D + 1 (R417, R425, R435); IMADW in a lead or
porter writes its register. The model's choices in it: log entries 5, 16. -/
def Obligations.WideResults : Prop :=
  (∀ (i : Instr) (r : PairRow) (s : State) (e : Env), pairRow i = some r → Issues s i r.c r.rules e →
    e.kind = .group → Machine.exec i s = .next (done e (writeRun e e.s r.d 2 (r.value e)))) ∧
  (∀ (c : Ctl) (d a : Code) (b : Src) (x : Code) (u : Bool) (r : PairRow) (s : State) (e : Env),
    pairRow (.imadw c d a b x u) = some r → Issues s (.imadw c d a b x u) c r.rules e → e.kind ≠ .group →
    Machine.exec (.imadw c d a b x u) s = .next (done e (writeOut e e.s d fun l =>
      lowBits 64 ((if u then ((val e a l % 2 ^ 32 * (srcVal e b l % 2 ^ 32) : Nat) : Int)
        else signed 32 (val e a l) * signed 32 (srcVal e b l)) + val e x l))))

/-- ICMP, PSOP and EDGE write the predicate that their rules give in each `Active` lane (R408, R410, R440, R261). The
model's choices in it: log entries 5, 16. -/
def Obligations.PredicateResults : Prop :=
  ∀ (i : Instr) (r : PredRow) (s : State) (e : Env), predRow i = some r → Issues s i r.c r.rules e →
    Machine.exec i s = .next (done e (writePred e e.s r.d (r.value e)))

/-- FCLASS, RNGC and SWIZ write D in each `Active` lane and raise no flag; BALLOT writes the mask of the lanes whose
predicate holds to a pair (R125, R376, R407, R459, R466). The model's choices in it: log entry 16. -/
def Obligations.LaneResults : Prop :=
  (∀ (i : Instr) (r : OutRow) (s : State) (e : Env), laneRow i = some r → Issues s i r.c r.rules e →
    Machine.exec i s = .next (done e (writeOut e e.s r.d (r.value e)))) ∧
  (∀ (c : Ctl) (d a : Code) (s : State) (e : Env),
    Issues s (.ballot c d a) c { fields := fun _ => [⟨d, .out 2⟩, ⟨a, .pin false⟩] } e →
    Machine.exec (.ballot c d a) s = .next (done e (writeRun e e.s d 2 fun _ => ballot e a)))

/-- R115: where no enabled flag is raised, the flags of all `Active` lanes join `%fsr` and the results are written;
where one is, FP_EXCEPTION with the enabled flags as detail, no result and no flag. The model's choices in it: log
entries 12, 17. -/
def Obligations.FloatResultsAndExceptions : Prop :=
  (∀ (i : Instr) (r : FloatRow) (s : State) (e : Env), floatRow i = some r → Issues s i r.c r.rules e →
    r.flags e &&& fcrTraps e.com = 0 →
    Machine.exec i s = .next (done e (r.write e
      (modCom e.s e.p fun k => { k with fsr := e.com.fsr ||| BitVec.ofNat 32 (r.flags e) })
      fun l => if e.act.contains l then (r.res e l).bits else 0))) ∧
  (∀ (i : Instr) (r : FloatRow) (s : State) (e : Env), floatRow i = some r → Issues s i r.c r.rules e →
    r.flags e &&& fcrTraps e.com ≠ 0 →
    Machine.exec i s = .next (raiseTrap s e.p 0x06 (r.flags e &&& fcrTraps e.com) e.pc 0))

/-- R116: with `MARK` set, the floating-point source fields are looked at in order, and within a field the `Active`
lanes in ascending order; the first source value that is a register marker traps UNINIT_READ with its index as
detail, and nothing else happens. The model's choices in it: log entry 5. -/
def Obligations.MarkerTraps : Prop :=
  ∀ (i : Instr) (r : FloatRow) (s : State) (b e : Env) (before after : List Field) (x : Code) (ls rest : List Nat)
    (l : Nat), floatRow i = some r → s.turn = some b.p → envOf s b.p i r.c = some b → sourced b r.rules = true →
    e = b.taking r.rules → fcrMark b.com = true →
    r.rules.fields b.kind = before ++ ⟨x, .src true⟩ :: after → b.act = ls ++ l :: rest →
    (∀ f ∈ before, f.role = .src true → ∀ m ∈ b.act, isMarker (val e f.code m) = false) →
    (∀ m ∈ ls, isMarker (val e x m) = false) → isMarker (val e x l) = true →
    Machine.exec i s = .next (raiseTrap s b.p 0x05 (val e x l % 4096) b.pc 0)

/-- FRAME of classes 0 to 2. An instruction with register operands (no queue, no DQ entry taken) that raises no enabled
exception goes on, and changes nothing but the registers that it writes, with the poison of theirs that goes,
`%fsr`, the PC of its party, the yield bits that the choice of the frontier clears (R70), and what an issue counts,
the attached flag among it; only a floating-point instruction changes `%fsr`. Every byte of memory, every cache
line, every other party and every special register stand; so do, of the team, its windows, tiles, descriptors,
decision queue, names, region and `%mstat`, and, of the party, each thread's `%meet`, window base and return stack.
The model's choices in it: log entries 4, 18. -/
def Obligations.ResultsChangeOnlyTheirRegisters : Prop :=
  ∀ (i : Instr) (w : Writes) (s : State) (e : Env), writesOf i = some w → Issues s i w.c w.rules e →
    e.recs = [] → e.dq = none → isQ w.d = false →
    (∀ r, floatRow i = some r → r.flags e &&& fcrTraps e.com = 0) →
    ∃ t, Machine.exec i s = .next t ∧ OnlyWrites s t e (w.keys e) ∧ ownStands s t e.p ∧ Moves t e (fun _ => none) ∧
      (floatRow i = none → ∀ a b, getCom s e.p = some a → getCom t e.p = some b → a.fsr = b.fsr)

/-! ### Control -/

/-- NOP, YIELD, FBAR and SETMEET go on (R437, R497, R412, R465): NOP does nothing else, YIELD marks the `Active`
threads, FBAR gives up the lines that the core holds ahead of issue (R164), SETMEET sets the `Active` threads'
`%meet`. The model's choices in it: log entry 4. -/
def Obligations.StraightLineControl : Prop :=
  (∀ (c : Ctl) (s : State) (e : Env), Runs s (.nop c) e → Machine.exec (.nop c) s = .next (done e e.s)) ∧
  (∀ (c : Ctl) (s : State) (e : Env) (t g : Nat), Runs s (.yield c) e → e.p = .group t g →
    Machine.exec (.yield c) s = .next (done e (modGroup e.s t g fun x =>
      { x with thr := mapLanes x.thr 0 e.act fun _ h => { h with yld := true } }))) ∧
  (∀ (c : Ctl) (s : State) (e : Env), Runs s (.yield c) e → e.kind ≠ .group →
    Machine.exec (.yield c) s = .next (done e e.s)) ∧
  (∀ (c : Ctl) (s : State) (e : Env), Runs s (.fbar c) e →
    Machine.exec (.fbar c) s =
      .next { done e e.s with fbuf := (done e e.s).fbuf.filter fun l => l.core != e.core }) ∧
  (∀ (c : Ctl) (no : Bool) (m : Target) (s : State) (e : Env), Runs s (.setmeet c no m) e →
    Machine.exec (.setmeet c no m) s = .next (done e (modGroup e.s e.t e.gid fun x =>
      { x with thr := mapLanes x.thr 0 e.act fun _ h => { h with meet := if no then noPc else targetPc e.pc m } })))

/-- R68, R71, R72, R379, R384, R385, R387, R388, R428: BR, BRC, BDQ and BRV move the taken lanes of the frontier to the
target and the other `Active` lanes to the next PC; BDQ takes on a bit of the DQ entry that it consumes; where BRV
divides the `Active` lanes, every `Active` thread's `%meet` becomes the meeting point. BRX sends every `Active` lane
to its own register target. The frontier lanes outside `Active` go on with BR, BRC and BDQ, and keep their PC under
BRV and BRX. LOOP lowers its counter by 1 modulo the register's width, and branches while the new value is not 0.
The model's choices in it: log entry 15. -/
def Obligations.BranchesMoveTheirLanes : Prop :=
  ((∀ (c : Ctl) (t : Target) (s : State) (e : Env), Runs s (.br c t) e → targetOk e t (fun _ => true) →
    ∃ u, Machine.exec (.br c t) s = .next u ∧ OnlyWrites e.s u e [] ∧ Moves u e (taken e t fun _ => true)) ∧
  (∀ (c : Ctl) (a b : Code) (cond : BitVec 3) (t : Target) (s : State) (e : Env), Runs s (.brc c a b cond t) e →
    targetOk e t (fun _ => compareHolds cond (val e a 0) (val e b 0)) →
    ∃ u, Machine.exec (.brc c a b cond t) s = .next u ∧ OnlyWrites e.s u e [] ∧
      Moves u e (taken e t fun _ => compareHolds cond (val e a 0) (val e b 0))) ∧
  (∀ (c : Ctl) (n : BitVec 6) (z : Bool) (t : Target) (s : State) (e : Env) (v : DWord), Runs s (.bdq c n z t) e →
    e.dq = some v → targetOk e t (fun _ => v.getLsbD n.toNat != z) →
    ∃ u, Machine.exec (.bdq c n z t) s = .next u ∧ OnlyWrites e.s u e [] ∧
      Moves u e (taken e t fun _ => v.getLsbD n.toNat != z))) ∧
  (∀ (c : Ctl) (a : Code) (t m : Target) (s : State) (e : Env) (x : Group), Runs s (.brv c a t m) e →
    targetOk e t (fun l => predVal e (predNum a) l) → getGroup e.s e.t e.gid = some x →
    ∃ u y, Machine.exec (.brv c a t m) s = .next u ∧ OnlyWrites e.s u e [] ∧
      Moves u e (keepsOut e (taken e t fun l => predVal e (predNum a) l)) ∧ getGroup u e.t e.gid = some y ∧
      ∀ l ∈ e.lanes, (thread y l).meet =
        if l ∈ e.act ∧ (∃ i ∈ e.act, predVal e (predNum a) i = true) ∧ (∃ i ∈ e.act, predVal e (predNum a) i = false) then
          targetPc e.pc m
        else (thread x l).meet) ∧
  (∀ (c : Ctl) (a : Code) (s : State) (e : Env), Runs s (.brx c a) e → targetsOk e (pcOf e a) →
    ∃ u, Machine.exec (.brx c a) s = .next u ∧ OnlyWrites e.s u e [] ∧
      Moves u e (keepsOut e fun l => some (pcOf e a l))) ∧
  (∀ (c : Ctl) (a : Code) (t : Target) (s : State) (e : Env) (n : Nat), Runs s (.loop c a t) e → e.act ≠ [] →
    n < 2 ^ e.w → (n + 1) % 2 ^ e.w = val e a e.low →
    targetOk e t (fun _ => n != 0) →
    Machine.exec (.loop c a t) s = .next (moveTo e (attach e (counted e (writeRun e e.s a 1 fun _ => n)))
      false (taken e t fun _ => n != 0)))

/-- R70, R78, R392, R458: CALL and CALLX push the next PC with the slide, and `%meet`, and move the window by the slide,
in each `Active` thread of a group; blocks that leave the physical rows are spilled, where no outstanding operation
is still to write one of them. RET takes the innermost frame of each `Active` thread: PC, `%meet` and window return,
and blocks that enter the physical rows are refilled; frontier threads outside `Active` stay. CALL of a lead pushes
the next PC, and RET of a lead takes its innermost return PC. The model's choices in it: log entry 15. -/
def Obligations.CallsAndReturns : Prop :=
  ((∀ (c : Ctl) (k : BitVec 3) (t : Target) (s : State) (e : Env) (w : Slide), Runs s (.call c k t) e → e.kind = .group →
    e.act ≠ [] → targetOk e t (fun _ => true) →
    slideWindow e true (fun l => (thread e.g l).wb + (k.toNat + 1) * 8) = .ok w → spills e w →
    Machine.exec (.call c k t) s = .next (modGroup (attach e (counted e e.s)) e.t e.gid fun x =>
      slideGroup e.tm.alloc w { x with
        thr := mapLanes x.thr 0 e.lanes fun l h =>
          if e.act.contains l then afterCall e ((k.toNat + 1) * 8) (targetPc e.pc t) h else fallThrough h })) ∧
  (∀ (c : Ctl) (a : Code) (k : BitVec 3) (s : State) (e : Env) (w : Slide), Runs s (.callx c a k) e →
    e.act ≠ [] → targetsOk e (pcOf e a) →
    slideWindow e true (fun l => (thread e.g l).wb + (k.toNat + 1) * 8) = .ok w → spills e w →
    Machine.exec (.callx c a k) s = .next (modGroup (attach e (counted e e.s)) e.t e.gid fun x =>
      slideGroup e.tm.alloc w { x with
        thr := mapLanes x.thr 0 e.lanes fun l h =>
          if e.act.contains l then afterCall e ((k.toNat + 1) * 8) (pcOf e a l) h else fallThrough h })) ∧
  (∀ (c : Ctl) (k : BitVec 3) (t : Target) (s : State) (e : Env) (n : Nat), Runs s (.call c k t) e → e.p = .lead n →
    e.act ≠ [] → targetOk e t (fun _ => true) → e.tm.lead.stack.length < 8 →
    ∃ u x, Machine.exec (.call c k t) s = .next u ∧ OnlyWrites e.s u e [] ∧ Moves u e (taken e t fun _ => true) ∧
      getTeam u e.t = some x ∧ x.lead.stack = nextPc e.pc :: e.tm.lead.stack ∧
      x.lead.above = e.tm.lead.above.drop 1)) ∧
  ((∀ (c : Ctl) (s : State) (e : Env) (w : Slide) (f : Nat → Frame), Runs s (.ret c) e → e.kind = .group → e.act ≠ [] →
    (∀ l ∈ e.act, (thread e.g l).stack.head? = some (f l)) →
    slideWindow e false (fun l => (thread e.g l).wb -
      (((thread e.g l).stack.head?).map fun y => (bits y.ret.toNat 3 3 + 1) * 8).getD 0) = .ok w →
    (∀ k ∈ e.g.spillPoison, k / 512 ∉ w.refill) → targetsOk e (fun l => retPc (f l)) →
    Machine.exec (.ret c) s = .next (modGroup (attach e (counted e e.s)) e.t e.gid fun x =>
      slideGroup e.tm.alloc w { x with
        thr := mapLanes x.thr 0 e.lanes fun l h =>
          if e.act.contains l then afterRet h else stayThread h })) ∧
  (∀ (c : Ctl) (s : State) (e : Env) (n : Nat) (pc : DWord) (r : List DWord), Runs s (.ret c) e → e.p = .lead n →
    e.act ≠ [] → e.tm.lead.stack = pc :: r → targetsOk e (fun _ => pc) →
    ∃ u x, Machine.exec (.ret c) s = .next u ∧ OnlyWrites e.s u e [] ∧ Moves u e (fun _ => some pc) ∧
      getTeam u e.t = some x ∧ x.lead.stack = r ∧ x.lead.above = pc :: e.tm.lead.above))

/-- R401, R45: EXIT ends the `Active` threads of a group; the group exits with its last thread, and a lead at once.
Where other threads live, the rest of the frontier keeps its PC (R71). The model's choices in it: log entries 14,
15. -/
def Obligations.ExitEndsThreads : Prop :=
  (∀ (c : Ctl) (s : State) (e : Env) (t g : Nat), Runs s (.exit c) e → e.p = .group t g → e.act ≠ [] →
    ∃ u x, Machine.exec (.exit c) s = .next u ∧ getGroup u t g = some x ∧
      (∀ l ∈ e.act, (thread x l).live = false) ∧
      (∀ l ∈ e.lanes, l ∉ e.act → (thread x l).pc = e.pc) ∧
      (x.thr.any (·.live) = false → x.com.st = .exited) ∧
      (x.thr.any (·.live) = true → OnlyWrites e.s u e [])) ∧
  (∀ (c : Ctl) (s : State) (e : Env) (t : Nat), Runs s (.exit c) e → e.p = .lead t → e.act ≠ [] →
    ∃ u x, Machine.exec (.exit c) s = .next u ∧ getTeam u t = some x ∧ x.lead.com.st = .exited ∧ u.mem = e.s.mem ∧
      x.lead.s = e.tm.lead.s ∧ x.groups = e.tm.groups)

/-- R39, R40, R400: DQPUSH appends its value to the decision queue while it has room for every live group; R41, R399:
DQPOP writes the entry at the group's `rd`, or its low half, and moves `rd` on. -/
def Obligations.DecisionQueuePushAndPop : Prop :=
  (∀ (c : Ctl) (a : Code) (s : State) (e : Env), Runs s (.dqpush c a) e → e.act ≠ [] → dqOccupancy e.tm < 64 →
    ∃ u x, Machine.exec (.dqpush c a) s = .next u ∧ getTeam u e.t = some x ∧ x.wr = e.tm.wr + 1 ∧
      x.dq = (e.tm.dq ++ [BitVec.ofNat 64 (val e a 0)]).drop (e.tm.dq.length + 1 - 64) ∧ x.groups = e.tm.groups ∧
      (e.tm.pair = false → { u with teams := s.teams } = s) ∧ Moves u e (fun _ => none)) ∧
  (∀ (c : Ctl) (d : Code) (half : Bool) (s : State) (e : Env) (v : DWord), Runs s (.dqpop c d half) e → e.dq = some v →
    Machine.exec (.dqpop c d half) s = .next (done e (writeRun e e.s d (if half then 1 else 2) fun _ => v.toNat)) ∧
      (getGroup e.s e.t e.gid).map (·.rd) = some (e.g.rd + 1) ∧ dqHead e = some v)

/-- R68, R388: a branch to a slot of a fetched line that no TGT bit marks, or to a register target that is no PC, traps with code 0x04 and
the low 32 bits of the target, before any thread moves. -/
def Obligations.BadTargetsTrap : Prop :=
  (∀ (c : Ctl) (t : Target) (s : State) (e : Env) (line : CodeLine), Runs s (.br c t) e → e.act ≠ [] →
    e.kind ≠ .porter → fetchCheck e.s e.p (lineOf (targetPc e.pc t)) = .ok () →
    findLine e.s.fbuf e.core e.ctx (lineOf (targetPc e.pc t)) = some line →
    tgtBit line.data (slotOf (targetPc e.pc t)) = false →
    Machine.exec (.br c t) s = .next (raiseTrap s e.p 0x04 ((targetPc e.pc t).toNat % 2 ^ 32) e.pc 0)) ∧
  (∀ (c : Ctl) (a : Code) (s : State) (e : Env) (l : Nat) (r : List Nat), Runs s (.brx c a) e → e.kind ≠ .porter →
    e.act = l :: r → pcOk (pcOf e a l) = false →
    Machine.exec (.brx c a) s = .next (raiseTrap s e.p 0x04 ((pcOf e a l).toNat % 2 ^ 32) e.pc 0))

/-- R479, R461, R300: WAYPT and RSTLBL go on and restart the waypoint count, where no pre-emption is pending, no
`%preempttest` armed and no handler running; RSTLBL records or closes the restart label (R216). The model's choices
in it: log entries 14, 15, 35. -/
def Obligations.WaypointsRestartTheCount : Prop :=
  (∀ (c : Ctl) (mask : BitVec 16) (s : State) (e : Env), Runs s (.waypt c mask) e → e.tm.preempt = false →
    (getCore e.s e.core).ptest.toNat < 2 ^ 31 → isHandler e.t = false →
    ∃ u m, Machine.exec (.waypt c mask) s = .next u ∧ OnlyWrites e.s u e [] ∧ Moves u e (fun _ => none) ∧
      getCom u e.p = some m ∧ m.wcount = 0) ∧
  (∀ (c : Ctl) (t : Target) (s : State) (e : Env) (id : Nat), Runs s (.rstlbl c false t) e → e.p = .lead id →
    e.act ≠ [] → e.tm.preempt = false → isHandler e.t = false → targetCheck e (targetPc e.pc t) = .ok () →
    ∃ u x, Machine.exec (.rstlbl c false t) s = .next u ∧ getTeam u id = some x ∧
      x.region = some ⟨targetPc e.pc t, e.tm.wr, e.tm.lead.stack.length⟩ ∧ x.lead.com.wcount = 0 ∧
      { u with teams := s.teams } = s) ∧
  (∀ (c : Ctl) (t : Target) (s : State) (e : Env) (id g : Nat), Runs s (.rstlbl c false t) e → e.p = .group id g →
    e.act ≠ [] → e.tm.preempt = false → (getCore e.s e.core).ptest.toNat < 2 ^ 31 → isHandler e.t = false →
    targetCheck e (targetPc e.pc t) = .ok () → (∀ l, l < e.g.thr.length → (thread e.g l).live = true → l ∈ e.act) →
    ∃ u x, Machine.exec (.rstlbl c false t) s = .next u ∧ getGroup u id g = some x ∧
      x.label = some ⟨targetPc e.pc t, e.g.rd, e.g.thr.map fun h => (h.wb, h.meet, h.stack.length)⟩ ∧ x.com.wcount = 0 ∧
      { u with teams := s.teams } = s) ∧
  (∀ (c : Ctl) (t : Target) (s : State) (e : Env) (id : Nat), Runs s (.rstlbl c true t) e → e.p = .lead id →
    e.act ≠ [] → e.tm.preempt = false → isHandler e.t = false →
    ∃ u x, Machine.exec (.rstlbl c true t) s = .next u ∧ getTeam u id = some x ∧ x.region = none)

/-! ### Queues and descriptors -/

/-- R55, R56, R57, R449: QPUSH, at a queue with a free slot whose producer end it may use, reserves one record at the
tail with the words of R55, not yet visible, and tagged with the pusher; a closed consumer end discards it (R60). No
other queue changes. The model's choices in it: log entry 19. -/
def Obligations.PushesReserveAtTheTail : Prop :=
  ∀ (c : Ctl) (a : Code) (q : BitVec 4) (s : State) (e : Env) (x : Queue), Runs s (.qpush c a q) e →
    queueReason e q.toNat false = 0 → getQueue e.s e.tm.inst q.toNat = some x → qFull x = false →
    ∃ u y, Machine.exec (.qpush c a q) s = .next u ∧ Moves u e (fun _ => none) ∧
      getQueue u e.tm.inst q.toNat = some y ∧
      (∀ i n, (i, n) ≠ (e.tm.inst, q.toNat) → getQueue u i n = getQueue e.s i n) ∧
      (x.cclosed = true → y = x) ∧
      (x.cclosed = false → y.decl = x.decl ∧ ∃ r, y.recs = x.recs ++ [r] ∧ r.vis = false ∧ r.tag = some e.p ∧
        r.poison = false ∧ r.words = (List.range (qWords x.decl)).map (pushedWord e (val e a)))

/-- R55, R56, R450: QPOP takes the oldest visible record, writes D from it and clears the end predicate; at an empty
queue whose producer end has closed it sets the end predicate and takes nothing. QSTAT writes the state word (R451).
The model's choices in it: log entry 19. -/
def Obligations.PopsAndState : Prop :=
  (∀ (c : Ctl) (d : Code) (q : BitVec 4) (p : Code) (s : State) (e : Env) (x : Queue) (n : Nat) (r : Record),
    Runs s (.qpop c d q p) e → queueReason e q.toNat true = 0 → getQueue e.s e.tm.inst q.toNat = some x →
    popIndex x e.p = some n → x.recs[n]? = some r → r.poison = false →
    ∃ f, f = popAll { e with recs := [(q.toNat, n, r)], dq := none } ∧
      Machine.exec (.qpop c d q p) s =
        .next (done f (writePred f (writeRun f f.s d 1 (fun l => recVal e.kind r l)) p fun _ => false)) ∧
      (getQueue f.s e.tm.inst q.toNat).map (·.recs) = some (x.recs.eraseIdx n) ∧
      (r.words ≠ [] → ∀ l, recVal e.kind r l = poppedValue e.kind r l)) ∧
  (∀ (c : Ctl) (d : Code) (q : BitVec 4) (p : Code) (s : State) (e : Env), Runs s (.qpop c d q p) e →
    queueReason e q.toNat true = 3 →
    Machine.exec (.qpop c d q p) s = .next (done e (writePred e e.s p fun _ => true))) ∧
  (∀ (c : Ctl) (d : Code) (q : BitVec 4) (s : State) (e : Env) (x : Queue), Runs s (.qstat c d q) e → e.act ≠ [] →
    getQueue e.s e.tm.inst q.toNat = some x → qValid x.decl = true →
    Machine.exec (.qstat c d q) s = .next (done e (writeRun e e.s d 1 fun _ => queueWord x)))

/-- R57, R59, R150: the oldest reserved record of a queue becomes visible once every access issued before its push is
over, an acquire among them made; no other record changes. Its release is then performed: on a pair, or towards a
raster or blend island or an end not joined yet, the write buffer of the pusher's core drains. Nothing else changes
but the count of records seen. The model's choices in it: log entry 19. -/
def Obligations.RecordsBecomeVisibleInOrder : Prop :=
  ∀ (inst q : Nat) (s : State) (x : Queue) (n : Nat) (r : Record), getQueue s inst q = some x →
    x.recs[n]? = some r → r.vis = false → r.unit = 0 → (∀ i y, i < n → x.recs[i]? = some y → y.vis = true) →
    (∀ p c, r.tag = some p → getCom s p = some c → accessDue c r.after = false) →
    ∃ u y, Machine.exec (.queueRecordVisible inst q) s = .next u ∧ sameButQueues (recordRelease s inst q) u ∧ getQueue u inst q = some y ∧
      y = { x with recs := x.recs.set n { r with vis := true, seen := s.seen + 1 } } ∧
      (∀ i m, (i, m) ≠ (inst, q) → getQueue u i m = getQueue s i m) ∧
      (∀ i p core, r.tag = some p → r.origin = .core core → getInst s inst = some i →
        i.pair = true ∨ (qCKind x.decl = 4 ∧ samplerOrRay s inst q 0 = false) → u.wb = s.wb.filter fun y => y.core != core) ∧
      ((∀ i, getInst s inst = some i → i.pair = false) → qCKind x.decl ≠ 4 → sameButQueues s u)

/-- R196, R475, R476: TDSET writes a descriptor from the lowest `Active` lane, whole or one 64-bit word of it, and TDGET
reads it back so; at either, a number that the team does not have traps DESCRIPTOR_INVALID with 0x900 added (R474). -/
def Obligations.DescriptorsAreSetAndRead : Prop :=
  (∀ (c : Ctl) (a : Code) (td : BitVec 6) (w : Bool) (i : BitVec 3) (s : State) (e : Env) (x : Team),
    Runs s (.tdset c a td w i) e → e.act ≠ [] → getTeam e.s (tdOwner e.s e.core e.t) = some x → td.toNat < x.nd →
    ∃ new, Machine.exec (.tdset c a td w i) s =
        .next (done e (modTeam e.s (tdOwner e.s e.core e.t) fun y => { y with tds := Tab.put y.tds td.toNat new 0 })) ∧
      ∀ j, j < 8 → descWord new j =
        if w then (if j = i.toNat then BitVec.ofNat 64 (val64 e a e.low) else descWord (Tab.get x.tds td.toNat 0) j)
        else BitVec.ofNat 64 (runVal e a (tdRun false e.kind) e.low / 2 ^ (64 * j))) ∧
  (∀ (c : Ctl) (d : Code) (td : BitVec 6) (w : Bool) (i : BitVec 3) (s : State) (e : Env) (x : Team),
    Runs s (.tdget c d td w i) e → e.act ≠ [] → getTeam e.s (tdOwner e.s e.core e.t) = some x → td.toNat < x.nd →
    Machine.exec (.tdget c d td w i) s = .next (done e (writeRun e e.s d (tdRun w e.kind) fun _ =>
      if w then (descWord (Tab.get x.tds td.toNat 0) i.toNat).toNat else (Tab.get x.tds td.toNat 0).toNat))) ∧
  (∀ (c : Ctl) (d : Code) (td : BitVec 6) (w : Bool) (i : BitVec 3) (s : State) (e : Env) (x : Team),
    Runs s (.tdget c d td w i) e → e.act ≠ [] → getTeam e.s (tdOwner e.s e.core e.t) = some x → x.nd ≤ td.toNat →
    Machine.exec (.tdget c d td w i) s = .next (raiseTrap s e.p 0x14 (0x900 + td.toNat) e.pc 0)) ∧
  (∀ (c : Ctl) (a : Code) (td : BitVec 6) (w : Bool) (i : BitVec 3) (s : State) (e : Env) (x : Team),
    Runs s (.tdset c a td w i) e → e.act ≠ [] → getTeam e.s (tdOwner e.s e.core e.t) = some x → x.nd ≤ td.toNat →
    Machine.exec (.tdset c a td w i) s = .next (raiseTrap s e.p 0x14 (0x900 + td.toNat) e.pc 0))

/-- R61, R451: QPUSH, QPOP and QSTAT trap QUEUE_BINDING with the operand code and reason 1 where the queue is not valid,
and QPUSH and QPOP with reason 2 where the issuer is not the kind and stage bound at that end; no queue is touched.
The model's choices in it: log entry 5. -/
def Obligations.QueueBindingTraps : Prop :=
  (∀ (c : Ctl) (a : Code) (q : BitVec 4) (s : State) (e : Env), Runs s (.qpush c a q) e →
    (∀ x, getQueue e.s e.tm.inst q.toNat = some x → qValid x.decl = false) →
    Machine.exec (.qpush c a q) s = .next (raiseTrap s e.p 0x13 (0x1A0 + q.toNat) e.pc 0)) ∧
  (∀ (c : Ctl) (a : Code) (q : BitVec 4) (s : State) (e : Env) (x : Queue), Runs s (.qpush c a q) e →
    getQueue e.s e.tm.inst q.toNat = some x → qValid x.decl = true →
    endOk (qPKind x.decl) (qPStage x.decl) e.kind e.tm.stage = false →
    Machine.exec (.qpush c a q) s = .next (raiseTrap s e.p 0x13 (0x2A0 + q.toNat) e.pc 0)) ∧
  (∀ (c : Ctl) (d : Code) (q : BitVec 4) (p : Code) (s : State) (e : Env) (x : Queue), Runs s (.qpop c d q p) e →
    getQueue e.s e.tm.inst q.toNat = some x → qValid x.decl = true →
    endOk (qCKind x.decl) (qCStage x.decl) e.kind e.tm.stage = false →
    Machine.exec (.qpop c d q p) s = .next (raiseTrap s e.p 0x13 (0x2A0 + q.toNat) e.pc 0)) ∧
  (∀ (c : Ctl) (d : Code) (q : BitVec 4) (p : Code) (s : State) (e : Env), Runs s (.qpop c d q p) e →
    (∀ x, getQueue e.s e.tm.inst q.toNat = some x → qValid x.decl = false) →
    Machine.exec (.qpop c d q p) s = .next (raiseTrap s e.p 0x13 (0x1A0 + q.toNat) e.pc 0)) ∧
  (∀ (c : Ctl) (d : Code) (q : BitVec 4) (s : State) (e : Env), Runs s (.qstat c d q) e → e.act ≠ [] →
    (∀ x, getQueue e.s e.tm.inst q.toNat = some x → qValid x.decl = false) →
    Machine.exec (.qstat c d q) s = .next (raiseTrap s e.p 0x13 (0x1A0 + q.toNat) e.pc 0))

/-! ### Memory -/

/-- R368, R423, R433, R455: LD, ATOM, RED and MONW, where every `Active` lane passes the checks of R133 and no earlier
access must come first, become outstanding with one lane to each address and the registers still to be written, and
go on; nothing else changes but what a release drains. A load may take bytes at issue only as its core sees them.
The model's choices in it: log entries 11, 22. -/
def Obligations.AccessesBecomeOutstanding : Prop :=
  (∀ (c : Ctl) (d : Code) (m : Addr) (o : Mo) (sx : Bool) (s : State) (e : Env) (ls : List (Nat × Nat × Phys)),
    Runs s (.ld c d m o sx) e → physLanes e (2 ^ o.size.toNat) .load false (eaOf e m) = .ok ls →
    accessWait e false (placesOf ls) = .ok () →
    ∃ lanes u, Machine.exec (.ld c d m o sx) s = .next u ∧
      u = later e e.s .access lanes (outKeys e d (dataRun e.kind o.size.toNat)) 0 ∧ OnlyWrites e.s u e [] ∧
      Moves u e (fun _ => none) ∧ lanes.map (fun x => (x.lane, x.pa, x.key)) = ls.map (fun x => (x.1, x.2.2.pa, x.2.2.key)) ∧
      ∀ x ∈ lanes, ∀ v, x.done = some v → simple x.pa x.key (2 ^ o.size.toNat) → l1Find e.s e.core (x.pa / 32) = none →
        v = seenValue e.s e.core x.pa (2 ^ o.size.toNat)) ∧
  (∀ (c : Ctl) (d a b : Code) (off : BitVec 24) (o : Mo) (op : BitVec 4) (s : State) (e : Env)
    (ls : List (Nat × Nat × Phys)), Runs s (.atom c d a b off o op) e → (e.act = [] ∨ e.tm.region = none) →
    physLanes e (2 ^ o.size.toNat) .atom true (eaOf e ⟨a, 0, off, false, 0⟩) = .ok ls →
    accessWait e true (placesOf ls) = .ok () →
    ∃ lanes, Machine.exec (.atom c d a b off o op) s =
        .next (later e (released e o) .access lanes (outKeys e d (dataRun e.kind o.size.toNat)) 0) ∧
      lanes.map (fun x => (x.lane, x.pa, x.key, x.data, x.done)) =
        ls.map (fun x => (x.1, x.2.2.pa, x.2.2.key, dataOf e b o.size.toNat x.1, none)) ∧
      (op = 9 → lanes.map (·.cmp) = ls.map fun x => dataOf e d o.size.toNat x.1)) ∧
  (∀ (c : Ctl) (a b : Code) (off : BitVec 24) (o : Mo) (op : BitVec 4) (s : State) (e : Env)
    (ls : List (Nat × Nat × Phys)), Runs s (.red c a b off o op) e → (e.act = [] ∨ e.tm.region = none) →
    physLanes e (2 ^ o.size.toNat) .red true (eaOf e ⟨a, 0, off, false, 0⟩) = .ok ls →
    accessWait e true (placesOf ls) = .ok () →
    ∃ lanes, Machine.exec (.red c a b off o op) s = .next (later e (released e o) .access lanes [] 0) ∧
      lanes.map (fun x => (x.lane, x.pa, x.key, x.data, x.done)) =
        ls.map (fun x => (x.1, x.2.2.pa, x.2.2.key, dataOf e b o.size.toNat x.1, none))) ∧
  (∀ (c : Ctl) (d a b : Code) (off : BitVec 24) (o : Mo) (cond : BitVec 4) (s : State) (e : Env)
    (ls : List (Nat × Nat × Phys)), Runs s (.monw c d a b off o cond) e →
    physLanes e (2 ^ o.size.toNat) .monw false (eaOf e ⟨a, 0, off, false, 0⟩) = .ok ls →
    accessWait e false (placesOf ls) = .ok () →
    ∃ lanes, Machine.exec (.monw c d a b off o cond) s =
        .next (later e e.s .access lanes (outKeys e d (dataRun e.kind o.size.toNat)) 0) ∧
      lanes.map (fun x => (x.lane, x.pa, x.key, x.data, x.done)) =
        ls.map (fun x => (x.1, x.2.2.pa, x.2.2.key, dataOf e b o.size.toNat x.1, none)))

/-- R127, R131, R142, R152, R164, R332, R433: an outstanding load's lane performed at its slice returns the bytes that
its core sees there, and a monitor's lane that finds its condition met keeps the value and is done; memory stays. A
lane of a releasing store, once no lower lane stores to its bytes, is performed at its slice after its core's write
buffer has drained (R153, R470). A fill serves every load that waits for its line. A page walk that finds a leaf
fills the TLBs of its requester with it; an instruction line that passes the checks of R134 enters the core's
instruction cache with the 64 bytes of memory. The model's choices in it: log entries 11, 13, 23, 24. -/
def Obligations.ReadsAndWalksReturn : Prop :=
  ((∀ (p : Party) (op lane : Nat) (s : State) (o : Op) (l : Lane), findOp s p op = some o → o.kind = .access →
    isLoad o.instr = true → dueLane o lane = some l →
    (l.sc = 0 ∨ (scFind s (l.pa / 128)).isSome = true ∨ isSys l.pa = true) →
    ∃ u y, Machine.exec (.sliceAccess p op lane) s = .next u ∧ u.mem = s.mem ∧ u.wb = s.wb ∧
      laneOf u p op lane = some y ∧ y.done.isSome = true ∧
      (simple l.pa l.key (accessBytes o.instr) →
        y.done = some (seenValue s (coreOf s p) l.pa (accessBytes o.instr))) ∧
      (cleanAt s (coreOf s p) l.pa → y.bad = false)) ∧
  (∀ (p : Party) (op lane : Nat) (s : State) (o : Op) (l : Lane), findOp s p op = some o → o.kind = .access →
    isLoad o.instr = true → dueLane o lane = some l → l.sc ≠ 0 → scFind s (l.pa / 128) = none → isSys l.pa = false →
    ∃ u, Machine.exec (.sliceAccess p op lane) s = .next u ∧ u.fills.contains (l.pa / 128) = true ∧
      { u with fills := s.fills } = s) ∧
  (∀ (line : Nat) (s : State), s.fills.contains line = true →
    ∃ u, Machine.exec (.scFillComplete line) s = .next u ∧ u.mem = s.mem ∧ u.wb = s.wb ∧
      u.fills = s.fills.filter (· != line) ∧
      ∀ x ∈ fillWaiters s line, findOp s x.1 x.2.1.id = some x.2.1 →
        ∃ y, laneOf u x.1 x.2.1.id x.2.2.lane = some y ∧ y.done.isSome = true) ∧
  (∀ (p : Party) (op lane : Nat) (s : State) (o : Op) (l : Lane) (t : Team) (c : Ctl) (d a b : Code) (off : BitVec 24)
    (m : Mo) (cond : BitVec 4), findOp s p op = some o → o.instr = .monw c d a b off m cond → dueLane o lane = some l →
    getTeam s (teamOf s p) = some t → monitorsArmed s p = true → simple l.pa l.key (2 ^ m.size.toNat) →
    l1Find s (coreOf s p) (l.pa / 32) = none → cleanAt s (coreOf s p) l.pa →
    monitorHolds cond.toNat (8 * 2 ^ m.size.toNat) (seenValue s (coreOf s p) l.pa (2 ^ m.size.toNat)) l.data = true →
    ∃ u y, Machine.exec (.monitorReread p op lane) s = .next u ∧ u.mem = s.mem ∧ laneOf u p op lane = some y ∧
      y.done = some (seenValue s (coreOf s p) l.pa (2 ^ m.size.toNat))) ∧
  (∀ (p : Party) (op lane : Nat) (s : State) (o : Op) (l : Lane), findOp s p op = some o → o.kind = .access →
    isStore o.instr = true → dueLane o lane = some l → laneFirst o l = true → simple l.pa l.key (accessBytes o.instr) →
    (∀ x ∈ s.wb, x.core = coreOf s p → x.key = 0 ∧ wbFind s (coreOf s p) x.sector = some x) → s.refused = [] →
    ∃ u y, Machine.exec (.sliceAccess p op lane) s = .next u ∧ laneOf u p op lane = some y ∧ y.done = some 0 ∧
      (∀ x ∈ u.wb, x.core ≠ coreOf s p) ∧
      ∀ a, cellGet u.mem a = (storedByte l.pa (accessBytes o.instr) l.data a).getD (seenByte s (coreOf s p) a))) ∧
  ((∀ (i : Nat) (s : State) (w : Walk) (pte : DWord) (lg : Nat), s.walks[i]? = some w → w.ended = none →
    walkTables s w.ctx (w.vpn * 4096) = .leaf pte lg →
    ∃ u, Machine.exec (.pageWalkComplete i) s = .next u ∧ u.walks = s.walks.eraseIdx i ∧
      { u with walks := s.walks, tlb := s.tlb } = s ∧
      ∀ x ∈ tlbPlaces w.core w.part, ⟨x, w.ctx, w.vpn * 4096 / 2 ^ lg, lg, pte⟩ ∈ u.tlb) ∧
  (∀ (core ctx va : Nat) (s : State) (p : Phys), s.want.find? (fun w => w.1 == core && w.2.2 == va) = some (core, ctx, va) →
    checkNow s ctx core va 64 .fetch = .ok p → p.key = 0 → p.pa % 32 = 0 →
    ∃ u x, Machine.exec (.instructionLineFill core va) s = .next u ∧
      { u with want := s.want, icache := s.icache, tlb := s.tlb, walks := s.walks, bwNow := s.bwNow } = s ∧ x ∈ u.icache ∧ x.core = core ∧ x.ctx = ctx ∧ x.va = va ∧
      x.data = numberOf (fun i => cellGet s.mem (p.pa + i)) 64 ∧
      (p.pa / 32 ∉ s.poison → p.pa / 32 + 1 ∉ s.poison → s.refused = [] → x.bad = !parityOk x.data)))

/-- R143, R144, R367, R368: an atomic whose one lane waits alone at a clean, unkeyed location reads the old value,
replaces it by the operation's new value and no other byte, and keeps the old value for its destination. The model's
choices in it: log entries 7, 11. -/
def Obligations.AtomicsReplaceOneLocation : Prop :=
  ∀ (s : State) (p : Party) (o : Op) (l : Lane) (core unit : Nat),
    atomicWaiters s l.pa = [⟨core, unit, p, o, l⟩] → findOp s p o.id = some o →
    (simple l.pa l.key (atomicOf o.instr).2) → cleanAt s (coreOf s p) l.pa → wbFind s (coreOf s p) (l.pa / 32) = none →
    ∃ u y, Machine.exec (.sliceAtomic l.pa) s = .next u ∧ laneOf u p o.id l.lane = some y ∧
      y.done = some (numberOf (fun i => cellGet s.mem (l.pa + i)) (atomicOf o.instr).2) ∧
      ∀ a, cellGet u.mem a = (storedByte l.pa (atomicOf o.instr).2
        (atomicValue (atomicOf o.instr).1 (8 * (atomicOf o.instr).2)
          (numberOf (fun i => cellGet s.mem (l.pa + i)) (atomicOf o.instr).2) l.data l.cmp) a).getD (cellGet s.mem a)

/-- R91, R149, R153, R156, R422: INSTRUCTION_COMPLETE of an access whose lanes are all performed, none poisoned, writes
its destination registers from the lanes' values, after the phase boundary of an acquire that leaves the core
(R153), ends the operation and lowers its flag; a fixed-latency operation only ends; a FENCE ends once no earlier
access of its lanes is due. An access with a lane still due stays. The model's choices in it: log entries 4, 11, 22. -/
def Obligations.CompletionsWriteRegisters : Prop :=
  (∀ (p : Party) (op : Nat) (s : State) (c : Common) (o : Op) (t : Team), getCom s p = some c → findOp s p op = some o →
    o.kind = .access → o.poisoned = false → (∀ l ∈ o.lanes, l.done.isSome = true ∧ l.bad = false) →
    getTeam s (teamOf s p) = some t →
    Machine.exec (.instructionComplete p op) s = .next (modCom (putRegs
      (if acquireOf t o.instr = true ∧ o.active ≠ [] then phaseBoundary s (coreOf s p) else s) p (loadedWords (kindOf p) o fun v =>
      match o.instr with
      | .ld _ _ _ m sx => extended (if kindOf p = .group then 32 else 64) m.size.toNat sx v
      | _ => v)) p fun c => endOp c o)) ∧
  (∀ (p : Party) (op : Nat) (s : State) (c : Common) (o : Op), getCom s p = some c → findOp s p op = some o →
    o.kind = .fixed → Machine.exec (.instructionComplete p op) s = .next (modCom s p fun c => endOp c o)) ∧
  (∀ (p : Party) (op : Nat) (s : State) (c : Common) (o : Op), getCom s p = some c → findOp s p op = some o →
    o.kind = .access → (∃ l ∈ o.lanes, l.done = none) → Machine.exec (.instructionComplete p op) s = .next s) ∧
  (∀ (p : Party) (op : Nat) (s : State) (c : Common) (o : Op) (t : Team) (k : Ctl) (scope order : BitVec 3),
    getCom s p = some c → findOp s p op = some o → o.kind = .fence → o.instr = .fence k scope order →
    getTeam s (teamOf s p) = some t → fenceWaits c o = false → scopeLeaves t scope = false → order ≠ 4 →
    Machine.exec (.instructionComplete p op) s = .next (modCom s p fun c => endOp c o))

/-- R137, R149, R154, R470 and their FRAME: ST of lanes that pass the checks of R133, outside an open region, puts each
lane's bytes into the write buffer and goes on; a release that leaves the core becomes outstanding instead, to be
performed at the slices. Where the buffer has room and the lanes are unkeyed, every byte that the core sees is then
that of the last lane that covers it, and every other byte is as before. A drain of a sector writes its bytes, and
no others, to memory; the core sees every byte as before. The model's choices in it: log entries 22, 23. -/
def Obligations.StoresAndDrains : Prop :=
  (∀ (c : Ctl) (a b : Code) (off : BitVec 24) (o : Mo) (s : State) (e : Env) (ls : List (Nat × Nat × Phys)),
    Runs s (.st c a b off o) e → (e.act = [] ∨ e.tm.region = none) →
    physLanes e (2 ^ o.size.toNat) .store true (eaOf e ⟨a, 0, off, false, 0⟩) = .ok ls →
    dataPoison e b (dataRun e.kind o.size.toNat) = .ok () → accessWait e true (placesOf ls) = .ok () →
    ((moRel o && scopeLeaves e.tm o.scope) = false ∨ e.act = []) →
    Machine.exec (.st c a b off o) s = .next (done e (storeLanes e e.s o.pol (2 ^ o.size.toNat)
      (fun l => runVal e b (dataRun e.kind o.size.toNat) l) ls))) ∧
  (∀ (c : Ctl) (a b : Code) (off : BitVec 24) (o : Mo) (s : State) (e : Env) (ls : List (Nat × Nat × Phys)),
    Runs s (.st c a b off o) e → e.act ≠ [] → e.tm.region = none →
    physLanes e (2 ^ o.size.toNat) .store true (eaOf e ⟨a, 0, off, false, 0⟩) = .ok ls →
    dataPoison e b (dataRun e.kind o.size.toNat) = .ok () → accessWait e true (placesOf ls) = .ok () →
    moRel o = true → scopeLeaves e.tm o.scope = true →
    ∃ lanes, Machine.exec (.st c a b off o) s = .next (later e e.s .access lanes [] 0) ∧
      lanes.map (fun x => (x.lane, x.pa, x.key, x.data, x.done)) =
        ls.map (fun x => (x.1, x.2.2.pa, x.2.2.key, runVal e b (dataRun e.kind o.size.toNat) x.1, none))) ∧
  (∀ (e : Env) (s : State) (pol : BitVec 4) (n : Nat) (v : Nat → Nat) (ls : List (Nat × Nat × Phys)),
    (∀ x ∈ ls, simple x.2.2.pa x.2.2.key n ∧ x.2.2.pa / 32 ∉ s.refused) → 0 < n →
    (∀ x ∈ s.wb, x.key = 0 ∨ ∀ y ∈ ls, y.2.2.pa / 32 ≠ x.sector) →
    (s.wb.filter fun x => x.core == e.core).length + ls.length ≤ 64 →
    ∀ a, seenByte (storeLanes e s pol n v ls) e.core a =
      (ls.foldl (fun old x => (storedByte x.2.2.pa n (v x.1) a).getD old) (seenByte s e.core a))) ∧
  (∀ (core i : Nat) (s : State) (x : WbEntry), (s.wb.filter fun y => y.core == core)[i]? = some x → x.key = 0 →
    wbFind s core x.sector = some x → x.sector ∉ s.refused →
    ∃ u, Machine.exec (.writeBufferDrain core i) s = .next u ∧ wbFind u core x.sector = none ∧
      (∀ a, cellGet u.mem a = if a / 32 = x.sector ∧ x.mask.getLsbD (a % 32) = true then
        x.data.extractLsb' (8 * (a % 32)) 8 else cellGet s.mem a) ∧
      (∀ a, seenByte u core a = seenByte s core a) ∧ u.teams = s.teams)

/-- R93, R424, R471: LDS writes each lane's bytes of the window, extended, to D; STS writes each lane's bytes into the
window, in ascending lane order. STS changes no byte that no lane covers, no register, and nothing of the team but
its windows and their poison. The model's choices in it: log entry 25. -/
def Obligations.ScratchpadLoadsAndStores : Prop :=
  (∀ (c : Ctl) (d : Code) (m : Addr) (size : BitVec 3) (sx : Bool) (s : State) (e : Env), Runs s (.lds c d m size sx) e →
    accessWait e false [] = .ok () →
    (∀ l ∈ e.act, spOpen e (spAddrOf e m.a m.b m.off m.idx m.sh l) (2 ^ size.toNat) ∧
      spClean e.tm e.core (spAddrOf e m.a m.b m.off m.idx m.sh l) (2 ^ size.toNat)) →
    Machine.exec (.lds c d m size sx) s = .next (done e (writeRun e e.s d (dataRun e.kind size.toNat) fun l =>
      if l ∈ e.act then extended e.w size.toNat sx
        (spNumber e.tm e.core (spAddrOf e m.a m.b m.off m.idx m.sh l) (2 ^ size.toNat))
      else 0))) ∧
  (∀ (c : Ctl) (a b : Code) (off : BitVec 24) (size : BitVec 3) (s : State) (e : Env), Runs s (.sts c a b off size) e →
    dataPoison e b (dataRun e.kind size.toNat) = .ok () → accessWait e true [] = .ok () →
    (∀ l ∈ e.act, spOpen e (spAddrOf e a 0 off false 0 l) (2 ^ size.toNat)) →
    ∃ u x, Machine.exec (.sts c a b off size) s = .next u ∧ Moves u e (fun _ => none) ∧ getTeam u e.t = some x ∧
      OnlyWrites e.s (setTeam u e.t { x with
        win0 := e.tm.win0, win1 := e.tm.win1, wpo0 := e.tm.wpo0, wpo1 := e.tm.wpo1 }) e [] ∧
      (∀ half k, (∀ l ∈ e.act, ∀ i, i < 2 ^ size.toNat →
        (half, k) ≠ ((spPlace e.tm e.core (spAddrOf e a 0 off false 0 l)).1,
          (spPlace e.tm e.core (spAddrOf e a 0 off false 0 l)).2 + i)) → half ≤ 1 →
        winByte x half k = winByte e.tm half k) ∧
      (∀ l ∈ e.act,
        (∀ j ∈ e.act, j ≠ l → spAddrOf e a 0 off false 0 j ≠ spAddrOf e a 0 off false 0 l) → e.act.Nodup →
        spNumber x e.core (spAddrOf e a 0 off false 0 l) (2 ^ size.toNat) = dataOf e b size.toNat l))

/-- R368, R371: ATOMB of one `Active` lane replaces the location in the window by the operation's new value and writes
the old one to D. The model's choices in it: log entry 25. -/
def Obligations.ScratchpadAtomics : Prop :=
  ∀ (c : Ctl) (d a b : Code) (off : BitVec 24) (size : BitVec 3) (op : BitVec 4) (s : State) (e : Env) (x : Team) (l : Nat),
    Runs s (.atomb c d a b off size op) e → e.act = [l] → getTeam e.s e.t = some x → accessWait e true [] = .ok () →
    spOpen e (spAddrOf e a 0 off false 0 l) (2 ^ size.toNat) →
    spClean e.tm e.core (spAddrOf e a 0 off false 0 l) (2 ^ size.toNat) →
    ∃ old new t, old = spNumber e.tm e.core (spAddrOf e a 0 off false 0 l) (2 ^ size.toNat) ∧
      new = atomicValue op.toNat (8 * 2 ^ size.toNat) old (dataOf e b size.toNat l)
        (if op = 9 then dataOf e d size.toNat l else 0) ∧
      getTeam t e.t = some (spWrite x (spPlace e.tm e.core (spAddrOf e a 0 off false 0 l)).1
        (spPlace e.tm e.core (spAddrOf e a 0 off false 0 l)).2 (bytesOf (2 ^ size.toNat) new) false) ∧
      { t with teams := e.s.teams } = e.s ∧
      Machine.exec (.atomb c d a b off size op) s = .next (done e (writeRun e t d (dataRun e.kind size.toNat) fun j =>
        if j = l then old else 0))

/-- R411, R441, R394, R395, R138, R141: PREF moves lines only between memory and caches, and translations into the TLBs;
FENCE with `Active` lanes becomes outstanding; CINV drops the L1 lines of a range, and IINV, when it completes, the
instruction lines in the caches that its scope covers; CWB drains the sectors of a range, whose bytes then stand in
memory as the core saw them, and writes its lines back; CPIN pins the lines of a range one after another and counts
those pinned and those refused, CUNPIN unpins those that are pinned in their page's partition, counts them, and
leaves them resident. A range instruction needs the checks of its pages, and acts on lines of device memory only.
With `Active` empty, all but PREF only go on. The model's choices in it: log entries 22, 23. -/
def Obligations.FencesAndCacheMaintenance : Prop :=
  (∀ (c : Ctl) (m : Addr) (pol : BitVec 4) (s : State) (e : Env), Runs s (.pref c m pol) e →
    ∃ u, Machine.exec (.pref c m pol) s = .next u ∧ Moves u e (fun _ => none) ∧
      { u with teams := e.s.teams, l1 := e.s.l1, sc := e.s.sc, tlb := e.s.tlb, walks := e.s.walks, bwNow := e.s.bwNow } = e.s) ∧
  (∀ (i : Instr) (s : State) (e : Env), (∃ c m n, i = .fence c m n) ∨ (∃ c a b off, i = .cinv c a b off) ∨
      (∃ c a b off m, i = .iinv c a b off m) ∨ (∃ c a b off, i = .cwb c a b off) ∨
      (∃ c d a b off, i = .cpin c d a b off) ∨ (∃ c d a b off, i = .cunpin c d a b off) →
    Runs s i e → e.act = [] → Machine.exec i s = .next (done e e.s)) ∧
  (∀ (c : Ctl) (scope order : BitVec 3) (s : State) (e : Env), Runs s (.fence c scope order) e → e.act ≠ [] →
    Machine.exec (.fence c scope order) s = .next (later e e.s .fence [] [] 0)) ∧
  (∀ (c : Ctl) (a b : Code) (off : BitVec 24) (s : State) (e : Env) (ps : List (Nat × Nat × Phys)),
    Runs s (.cinv c a b off) e → e.act ≠ [] →
    rangePages ((rangeOf e a b off).2 / 4096 + 2) e .range (rangeOf e a b off).1 (rangeOf e a b off).2 = .ok ps →
    ∃ u, Machine.exec (.cinv c a b off) s = .next u ∧ Moves u e (fun _ => none) ∧
      { u with teams := e.s.teams, l1 := e.s.l1 } = e.s ∧
      ∀ x, x ∈ u.l1 ↔ x ∈ e.s.l1 ∧ ¬(x.core = e.core ∧ x.sector / 4 ∈ (rangeLines ps).map (·.1))) ∧
  (∀ (c : Ctl) (a b : Code) (off : BitVec 24) (scope : BitVec 3) (s : State) (e : Env) (ps : List (Nat × Nat × Phys)),
    Runs s (.iinv c a b off scope) e → e.act ≠ [] →
    rangePages ((rangeOf e a b off).2 / 4096 + 2) e .rangeExec (rangeOf e a b off).1 (rangeOf e a b off).2 = .ok ps →
    Machine.exec (.iinv c a b off scope) s = .next (later e e.s (.iinv e.ctx scope.toNat
      ((rangeUnits 64 (deviceParts ps) fun p => p.1).map (·.1))) [] [] 0)) ∧
  (∀ (p : Party) (op : Nat) (s : State) (c : Common) (o : Op) (ctx scope : Nat) (ls : List Nat), getCom s p = some c →
    findOp s p op = some o → o.kind = .iinv ctx scope ls →
    ∃ u, Machine.exec (.instructionComplete p op) s = .next (modCom u p fun c => endOp c o) ∧
      { u with icache := s.icache } = s ∧
      ∀ x, x ∈ u.icache ↔ x ∈ s.icache ∧ ¬(x.ctx = ctx ∧ scopeCovers scope (coreOf s p) x.core = true ∧ x.va / 64 ∈ ls)) ∧
  (∀ (c : Ctl) (a b : Code) (off : BitVec 24) (s : State) (e : Env) (ps : List (Nat × Nat × Phys)),
    Runs s (.cwb c a b off) e → e.act ≠ [] →
    rangePages ((rangeOf e a b off).2 / 4096 + 2) e .range (rangeOf e a b off).1 (rangeOf e a b off).2 = .ok ps →
    ∃ t, Machine.exec (.cwb c a b off) s = .next (later e t .value [] [] 0) ∧
      t = (rangeLines ps).foldl (fun s x => cleanLine s x.1)
        ((rangeUnits 32 (deviceParts ps) fun p => p.2.2.pa).foldl (fun s x => drainSector s e.core x.1) e.s) ∧
      t.teams = e.s.teams ∧
      (∀ x ∈ rangeUnits 32 (deviceParts ps) (fun p => p.2.2.pa), wbFind t e.core x.1 = none) ∧
      (∀ x ∈ t.sc, x.line ∈ (rangeLines ps).map (·.1) → x.dirty = false ∧ x.back = none) ∧
      ((∀ x ∈ e.s.wb, x.core = e.core → x.key = 0) → e.s.refused = [] →
        ∀ n, cellGet t.mem n =
          if n / 32 ∈ (rangeUnits 32 (deviceParts ps) fun p => p.2.2.pa).map (·.1) then seenByte e.s e.core n
          else cellGet e.s.mem n)) ∧
  (∀ (c : Ctl) (d a b : Code) (off : BitVec 24) (s : State) (e : Env) (ps : List (Nat × Nat × Phys)),
    Runs s (.cpin c d a b off) e → e.act ≠ [] →
    rangePages ((rangeOf e a b off).2 / 4096 + 2) e .range (rangeOf e a b off).1 (rangeOf e a b off).2 = .ok ps →
    ∃ t ok no, Machine.exec (.cpin c d a b off) s =
        .next (later e t .value [] (outKeys e d 1) (min no 0xFFFF * 2 ^ 16 + min ok 0xFFFF)) ∧
      (t, ok, no) = (rangeUnits 128 ps fun p => p.2.2.pa).foldl (fun r x =>
        ((pinLine r.1 x.1 x.2).1, r.2.1 + (pinLine r.1 x.1 x.2).2.toNat, r.2.2 + (!(pinLine r.1 x.1 x.2).2).toNat))
        (e.s, 0, 0) ∧
      ok + no = (rangeUnits 128 ps fun p => p.2.2.pa).length ∧ { t with sc := e.s.sc, bwNow := e.s.bwNow } = e.s) ∧
  (∀ (s : State) (line : Nat) (p : Phys), (pinLine s line p).2 = true →
    ∃ x, scFind (pinLine s line p).1 line = some x ∧ x.pinned = true ∧ x.part = p.scp) ∧
  (∀ (c : Ctl) (d a b : Code) (off : BitVec 24) (s : State) (e : Env) (ps : List (Nat × Nat × Phys)),
    Runs s (.cunpin c d a b off) e → e.act ≠ [] →
    rangePages ((rangeOf e a b off).2 / 4096 + 2) e .range (rangeOf e a b off).1 (rangeOf e a b off).2 = .ok ps →
    ∃ t n, Machine.exec (.cunpin c d a b off) s = .next (later e t .value [] (outKeys e d 1) (min n 0xFFFFFFFF)) ∧
      t = unpinLines e.s (((rangeLines ps).filter fun x => match scFind e.s x.1 with
        | some l => l.pinned && l.part == x.2.scp
        | none => false).map (·.1)) ∧
      (∀ x ∈ rangeLines ps, ∀ l, scFind e.s x.1 = some l → l.part = x.2.scp →
        ∃ y, scFind t x.1 = some y ∧ y.pinned = false) ∧
      n = ((rangeLines ps).filter fun x => match scFind e.s x.1 with
        | some l => l.pinned && l.part == x.2.scp
        | none => false).length)

/-- R133, R135, R217, R470: a lane's address of 2^49 or more traps ACCESS_VIOLATION with cause 1, one that is no
multiple of the size MISALIGNED; ST, ATOM and RED inside an open region trap RESTART_REGION with the OP field; all
with no effect of their own. The model's choices in it: log entry 5. -/
def Obligations.MemoryChecksTrap : Prop :=
  (∀ (c : Ctl) (d : Code) (m : Addr) (o : Mo) (sx : Bool) (s : State) (e : Env) (l : Nat) (r : List Nat),
    Runs s (.ld c d m o sx) e → e.act = l :: r → 2 ^ 49 ≤ eaOf e m l →
    Machine.exec (.ld c d m o sx) s = .next (raiseTrap s e.p 0x09 (0x1000 + l) e.pc (eaOf e m l))) ∧
  (∀ (c : Ctl) (d : Code) (m : Addr) (o : Mo) (sx : Bool) (s : State) (e : Env) (l : Nat) (r : List Nat),
    Runs s (.ld c d m o sx) e → e.act = l :: r → eaOf e m l < 2 ^ 49 → eaOf e m l % 2 ^ o.size.toNat ≠ 0 →
    Machine.exec (.ld c d m o sx) s = .next (raiseTrap s e.p 0x0A l e.pc (eaOf e m l))) ∧
  (∀ (i : Instr) (s : State) (e : Env), (∃ c a b off o, i = .st c a b off o) ∨
      (∃ c d a b off o op, i = .atom c d a b off o op) ∨ (∃ c a b off o op, i = .red c a b off o op) →
    Runs s i e → e.act ≠ [] → e.tm.region.isSome = true →
    Machine.exec i s = .next (raiseTrap s e.p 0x17 (opOf i) e.pc 0))

/-! ### Barriers and the system -/

/-- R307, R375: BALLOC takes the lowest free entry of the pool (of the home core for a pair barrier) and the team's
lowest free name, writes the handle with the name's next generation, and clears F; the new barrier expects one
arrival. Without a free entry or name, or for a pair barrier of a team that is no pair, it writes 0 and sets F. The
model's choices in it: log entry 45. -/
def Obligations.BarriersAreAllocated : Prop :=
  (∀ (c : Ctl) (d : Code) (pair : Bool) (f : Code) (s : State) (e : Env) (x : Team) (core m k : Nat),
    Runs s (.balloc c d pair f) e → e.act ≠ [] → getTeam e.s e.t = some x → (pair = true → e.tm.pair = true) → core = (if pair then e.tm.core else e.core) →
    m < 64 → getBar e.s ⟨core, m, 0⟩ = none → (∀ j, j < m → getBar e.s ⟨core, j, 0⟩ ≠ none) →
    k < 64 → nameFree e.tm k → (∀ j, j < k → ¬ nameFree e.tm j) →
    ∃ t h gen, gen = (if (Tab.get e.tm.names k ⟨0, none, false⟩).gen = 2 ^ 18 - 1 then 1
        else (Tab.get e.tm.names k ⟨0, none, false⟩).gen + 1) ∧
      h = gen * 2 ^ 14 + (if pair then 64 else 0) + k ∧
      getBar t ⟨core, m, 0⟩ = some ⟨1, 1, 0, false, [], [], [], 0, 1, false, pair, e.t, k⟩ ∧ otherBars e.s t core m ∧
      getTeam t e.t = some { x with
        names := Tab.set e.tm.names k ⟨gen, some (core, m), pair⟩ } ∧
      { t with
        cores := e.s.cores, teams := e.s.teams } = e.s ∧
      Machine.exec (.balloc c d pair f) s =
        .next (done e (writePred e (writeRun e t d 1 fun _ => h) f fun _ => false))) ∧
  (∀ (c : Ctl) (d : Code) (pair : Bool) (f : Code) (s : State) (e : Env), Runs s (.balloc c d pair f) e → e.act ≠ [] →
    ((pair = true ∧ e.tm.pair = false) ∨
      (∀ m, m < 64 → getBar e.s ⟨if pair then e.tm.core else e.core, m, 0⟩ ≠ none) ∨
      (∀ k, k < 64 → ¬ nameFree e.tm k)) →
    Machine.exec (.balloc c d pair f) s = .next (done e (writePred e (writeRun e e.s d 1 fun _ => 0) f fun _ => true)))

/-- R381, R382, R383: at a handle that is held, BFREE without waiters gives up the name and a reference, the last of
which frees the entry; BINIT at the start of a phase sets the expected arrivals; BINVAL invalidates the barrier and
releases its waiters with their failure predicate, each of which stays a waiter until its BWAIT completes (R390).
Each changes no other barrier and goes on. The model's choices in it: log entry 45. -/
def Obligations.BarriersAreFreedSetAndInvalidated : Prop :=
  (∀ (c : Ctl) (a : Code) (s : State) (e : Env) (b : BarRef) (x : Barrier) (z : Team), Runs s (.bfree c a) e →
    e.act ≠ [] → getTeam e.s e.t = some z → Holds e.s e.tm e.core (handle e a) b x → x.waiters = 0 →
    ∃ t y, Machine.exec (.bfree c a) s = .next (done e t) ∧ otherBars e.s t b.core b.entry ∧
      getBar t b = (if x.refs ≤ 1 then none else some { x with
        refs := x.refs - 1 }) ∧
      getTeam t e.t = some { z with
        names := y } ∧ nameFree { z with
        names := y } (handle e a % 64) ∧ (∀ k, k ≠ handle e a % 64 → Tab.find y k = Tab.find e.tm.names k)) ∧
  (∀ (c : Ctl) (a : Code) (n : BitVec 24) (s : State) (e : Env) (b : BarRef) (x : Barrier), Runs s (.binit c a n) e →
    e.act ≠ [] → Holds e.s e.tm e.core (handle e a) b x → x.inval = false → x.waiters = 0 → x.tx = 0 → x.arr = x.exp →
    x.pend = [] → crediting e.s b = false →
    ∃ t, Machine.exec (.binit c a n) s = .next (done e t) ∧ otherBars e.s t b.core b.entry ∧
      getBar t b = some { x with
        exp := n.toNat, arr := n.toNat, tx := 0 } ∧
      { t with
        cores := e.s.cores } = e.s) ∧
  (∀ (c : Ctl) (a : Code) (s : State) (e : Env) (b : BarRef) (x : Barrier), Runs s (.binval c a) e → e.act ≠ [] →
    Holds e.s e.tm e.core (handle e a) b x → x.inval = false →
    ∃ t, Machine.exec (.binval c a) s = .next (done e t) ∧ otherBars e.s t b.core b.entry ∧
      getBar t b = some { x with
        inval := true } ∧
      ∀ p m r, getCom e.s p = some m → m.wait = some (.bwait r none) → (r.core, r.entry) = (b.core, b.entry) →
        getCom t p = some { m with
          wait := some (.bwait r (some ⟨true, []⟩)) }) ∧
  (∀ (c : Ctl) (a : Code) (s : State) (e : Env) (b : BarRef) (x : Barrier), Runs s (.binval c a) e → e.act ≠ [] →
    Holds e.s e.tm e.core (handle e a) b x → x.inval = true → Machine.exec (.binval c a) s = .next (done e e.s))

/-- R377, R188, R187: BARRIVE puts its bytes and a reference on the barrier and clears F; the arrival, once every
earlier access of its issuer is over, lowers ARR and adds the bytes, on a pair barrier after the write buffer of the
issuer's core has drained (R150, R153), and a phase with no arrival and no byte left flips PH, restarts ARR and
releases the waiters; the barrier, and what each of them is released with, keep the cores of the ended phase's
arrivals and credits (R153, R161). The model's choices in it: log entry 45. -/
def Obligations.ArrivalsCountAndFlipPhases : Prop :=
  (∀ (c : Ctl) (a : Code) (n : BitVec 24) (f : Code) (s : State) (e : Env) (b : BarRef) (x : Barrier),
    Runs s (.barrive c a n f) e → e.act ≠ [] → Holds e.s e.tm e.core (handle e a) b x → x.inval = false →
    x.pend.length < x.arr →
    ∃ t, Machine.exec (.barrive c a n f) s = .next (done e (writePred e t f fun _ => false)) ∧
      otherBars e.s t b.core b.entry ∧
      getBar t b = some { x with
        pend := x.pend ++ [(n.toNat, e.p, e.com.nextOp)], refs := x.refs + 1 } ∧
      { t with cores := e.s.cores } = e.s) ∧
  (∀ (c : Ctl) (a : Code) (n : BitVec 24) (f : Code) (s : State) (e : Env) (b : BarRef) (x : Barrier),
    Runs s (.barrive c a n f) e → e.act ≠ [] → Holds e.s e.tm e.core (handle e a) b x → x.inval = true →
    Machine.exec (.barrive c a n f) s = .next (done e (writePred e e.s f fun _ => true))) ∧
  (∀ (core entry : Nat) (s : State) (x : Barrier) (n before : Nat) (p : Party) (r : List (Nat × Party × Nat)),
    getBar s ⟨core, entry, 0⟩ = some x → x.pend = (n, p, before) :: r → x.inval = false →
    (∀ c, getCom s p = some c → accessDue c before = false) →
    ∃ u y, Machine.exec (.barriveArrivalApplied core entry) s = .next u ∧ otherBars s u core entry ∧
      u.mem = (if x.pair then drainCore s (coreOf s p) else s).mem ∧
      u.wb = (if x.pair then s.wb.filter fun z => z.core != coreOf s p else s.wb) ∧
      y = { arrivedAt { x with
          pend := r } (coreOf s p) n with
        refs := x.refs - 1 } ∧
      getBar u ⟨core, entry, 0⟩ = (if x.refs ≤ 1 then none else some y) ∧
      (x.arr - 1 = 0 ∧ txAfter x.tx n = 0 → ∀ q m w, getCom s q = some m → m.wait = some (.bwait w none) →
        (w.core, w.entry) = (core, entry) → getCom u q = some { m with
          wait := some (.bwait w (some ⟨false, y.last⟩)) }))

/-- R389, R390, R472, R473: BTEST answers whether the phase bit differs from bit 0 of D, or the barrier is invalid, and
F whether it is invalid; BWAIT goes on with the same F, waits while the phase bit is that of D, and goes on once
released. Passing a pair barrier's phase that ended with an arrival or a credit on another core is a phase boundary,
for a BWAIT that was released by the phase that released it (R153, R161). A SYNC raises its group's count once and
waits, and the team's P advances when every live group has counted past it; a counted SYNC whose count P has reached
goes on. The model's choices in it: log entry 45. -/
def Obligations.TestsWaitsAndSync : Prop :=
  ((∀ (c : Ctl) (d a r f : Code) (s : State) (e : Env) (b : BarRef) (x : Barrier), Runs s (.btest c d a r f) e →
    e.act ≠ [] → Holds e.s e.tm e.core (handle e a) b x →
    Machine.exec (.btest c d a r f) s = .next (done e (writePred e (writePred e
      (if x.inval = false ∧ flipCrosses x x.last e.core = true ∧ x.ph ≠ (val e d e.low).testBit 0 then phaseBoundary e.s e.core else e.s)
      r fun _ => x.inval || x.ph != (val e d e.low).testBit 0) f fun _ => x.inval))) ∧
  (∀ (c : Ctl) (d a f : Code) (s : State) (e : Env) (b : BarRef) (x : Barrier), Runs s (.bwait c d a f) e →
    e.act ≠ [] → e.com.wait = none → Holds e.s e.tm e.core (handle e a) b x →
    (x.inval = true ∨ x.ph ≠ (val e d e.low).testBit 0) →
    Machine.exec (.bwait c d a f) s = .next (done e (writePred e
      (if x.inval = false ∧ flipCrosses x x.last e.core = true then phaseBoundary e.s e.core else e.s) f fun _ => x.inval))) ∧
  (∀ (c : Ctl) (d a f : Code) (s : State) (e : Env) (b : BarRef) (x : Barrier), Runs s (.bwait c d a f) e →
    e.act ≠ [] → e.com.wait = none → Holds e.s e.tm e.core (handle e a) b x → x.inval = false →
    x.ph = (val e d e.low).testBit 0 → e.tm.preempt = false →
    ∃ u m, Machine.exec (.bwait c d a f) s = .next u ∧ otherBars e.s u b.core b.entry ∧
      getBar u b = some { x with
        waiters := x.waiters + 1 } ∧
      getCom u e.p = some m ∧ m.wait = some (.bwait b none) ∧ ∀ l ∈ e.lanes, pcAt u e.p l = e.pc) ∧
  (∀ (c : Ctl) (d a f : Code) (s : State) (e : Env) (b : BarRef) (x : Barrier) (w : WaitEnd), Runs s (.bwait c d a f) e →
    e.act ≠ [] → e.com.wait = some (.bwait b (some w)) → getBar e.s b = some x →
    ∃ t, Machine.exec (.bwait c d a f) s = .next (done e (writePred e
        (if flipCrosses x w.cores e.core = true ∧ w.fail = false then phaseBoundary t e.core else t) f fun _ => w.fail)) ∧
      otherBars e.s t b.core b.entry ∧ { t with cores := e.s.cores } = e.s ∧ getBar t b = some { x with
        waiters := x.waiters - 1 })) ∧
  ((∀ (c : Ctl) (s : State) (e : Env), Runs s (.sync c) e → e.com.wait = some .sync → e.g.sync ≤ e.tm.syncP →
    Machine.exec (.sync c) s = .next (done e (if e.tm.pair then phaseBoundary e.s e.core else e.s))) ∧
  (∀ (c : Ctl) (s : State) (e : Env), Runs s (.sync c) e → e.com.wait = none → e.tm.preempt = false →
    e.g.com.st = .running →
    ∃ u x y, Machine.exec (.sync c) s = .next u ∧ getTeam u e.t = some x ∧ getGroup u e.t e.gid = some y ∧
      y.sync = e.g.sync + 1 ∧ y.com.wait = some .sync ∧ (∀ l ∈ e.lanes, (thread y l).pc = e.pc) ∧
      x.syncP = (if (∀ g ∈ x.groups, g.2.com.st ≠ .exited → e.tm.syncP < g.2.sync) then e.tm.syncP + 1 else e.tm.syncP)))

/-- R29, R73, R106, R107, R214, R289, R303, R452, R453, R480, R481: RDSR writes the special register's value to D;
`%cycle` has counted on by a number that no rule fixes; `%teamwidth` of a kernel that declares no width traps WIDTH.
WRSR writes `%fcr` and `%fsr`, clears the sticky bits of `%mstat` that its word has set, sets `%preempttest`, and
sets `%meet` of each `Active` lane; bit 31 over a zero count pre-empts the core's teams at once (R303); a reserved
bit set traps ILLEGAL. The model's choices in it: log entry 4. -/
def Obligations.SpecialRegistersAreReadAndWritten : Prop :=
  ((∀ (c : Ctl) (d : Code) (sr : BitVec 8) (s : State) (e : Env), Runs s (.rdsr c d sr) e → sr ≠ 0x0C →
    (sr = 0x08 → e.tm.declared = true) →
    Machine.exec (.rdsr c d sr) s = .next (done e (writeRun e e.s d
      (if e.kind = .group ∧ (sr = 0x0E ∨ sr = 0x15 ∨ sr = 0x16 ∨ sr = 0x22) then 2 else 1) (specialOf e sr.toNat)))) ∧
  (∀ (c : Ctl) (d : Code) (s : State) (e : Env), Runs s (.rdsr c d 0x0C) e →
    ∃ n : DWord, Machine.exec (.rdsr c d 0x0C) s = .next (done e (writeRun e
      (modCore e.s e.core fun k => { k with
        cycle := n }) d (if e.kind = .group then 2 else 1) fun _ => n.toNat))) ∧
  (∀ (c : Ctl) (d : Code) (s : State) (e : Env), Runs s (.rdsr c d 0x08) e → e.act ≠ [] → e.tm.declared = false →
    Machine.exec (.rdsr c d 0x08) s = .next (raiseTrap s e.p 0x15 0x08 e.pc 0))) ∧
  ((∀ (c : Ctl) (a : Code) (imm : Bool) (v : BitVec 24) (s : State) (e : Env), Runs s (.wrsr c a 0x10 imm v) e →
    e.act ≠ [] → wordWritten e a imm v < 2 ^ 9 →
    Machine.exec (.wrsr c a 0x10 imm v) s = .next (done e (modCom e.s e.p fun m => { m with
      fcr := BitVec.ofNat 32 (wordWritten e a imm v) }))) ∧
  (∀ (c : Ctl) (a : Code) (imm : Bool) (v : BitVec 24) (s : State) (e : Env), Runs s (.wrsr c a 0x11 imm v) e →
    e.act ≠ [] → wordWritten e a imm v < 2 ^ 5 →
    Machine.exec (.wrsr c a 0x11 imm v) s = .next (done e (modCom e.s e.p fun m => { m with
      fsr := BitVec.ofNat 32 (wordWritten e a imm v) }))) ∧
  (∀ (c : Ctl) (a : Code) (imm : Bool) (v : BitVec 24) (s : State) (e : Env), Runs s (.wrsr c a 0x12 imm v) e →
    e.act ≠ [] → wordWritten e a imm v < 2 ^ 8 →
    ∃ w : Word, Machine.exec (.wrsr c a 0x12 imm v) s = .next (done e (modTeam e.s e.t fun t => { t with
      mstat := w })) ∧ ∀ i, w.getLsbD i = (e.tm.mstat.getLsbD i &&
        !(decide (1 ≤ i ∧ i ≤ 6) && (wordWritten e a imm v).testBit i))) ∧
  (∀ (c : Ctl) (a : Code) (imm : Bool) (v : BitVec 24) (s : State) (e : Env), Runs s (.wrsr c a 0x20 imm v) e →
    e.act ≠ [] → wordWritten e a imm v / 2 ^ 16 % 2 ^ 15 = 0 → wordWritten e a imm v ≠ 2 ^ 31 →
    Machine.exec (.wrsr c a 0x20 imm v) s = .next (done e (modCore e.s e.core fun k => { k with
      ptest := BitVec.ofNat 32 (wordWritten e a imm v) }))) ∧
  (∀ (c : Ctl) (a : Code) (imm : Bool) (v : BitVec 24) (s : State) (e : Env), Runs s (.wrsr c a 0x20 imm v) e →
    e.act ≠ [] → wordWritten e a imm v = 2 ^ 31 →
    Machine.exec (.wrsr c a 0x20 imm v) s = .next (done e (preemptCore (modCore e.s e.core fun k => { k with
      ptest := 0 }) e.core))) ∧
  (∀ (c : Ctl) (a : Code) (imm : Bool) (v : BitVec 24) (s : State) (e : Env) (n : Nat → DWord),
    Runs s (.wrsr c a 0x0E imm v) e → e.act ≠ [] →
    (∀ l ∈ e.act, n l = BitVec.ofNat 64 (if imm then v.toNat else val64 e a l) ∧ (n l = noPc ∨ pcOk (n l) = true)) →
    Machine.exec (.wrsr c a 0x0E imm v) s = .next (done e (modGroup e.s e.t e.gid fun x => { x with
      thr := mapLanes x.thr 0 e.act fun l h => { h with
        meet := n l } }))) ∧
  (∀ (c : Ctl) (a : Code) (sr : BitVec 8) (imm : Bool) (v : BitVec 24) (s : State) (e : Env),
    Runs s (.wrsr c a sr imm v) e → e.act ≠ [] →
    (sr = 0x10 ∧ 2 ^ 9 ≤ wordWritten e a imm v ∨ sr = 0x11 ∧ 2 ^ 5 ≤ wordWritten e a imm v ∨
      sr = 0x12 ∧ 2 ^ 8 ≤ wordWritten e a imm v ∨ sr = 0x20 ∧ wordWritten e a imm v / 2 ^ 16 % 2 ^ 15 ≠ 0) →
    Machine.exec (.wrsr c a sr imm v) s = .next (raiseTrap s e.p 0x01 sr.toNat e.pc 0)))

/-- R292, R295, R296, R298, R299, R477, R478: TRAP stops its party with code 0x30 and the immediate as detail, at its
own PC, and the trap waits last for its core's handler; in a handler it escalates. HANDLER_ENTRY starts the core's
handler on the oldest trap, unless a handler that trapped there still holds the context (R299), its lead and its one
group at the addresses of the context's registers. TRET, once every earlier access of the handler is over, ends the
handler, and its action resumes the trapped party at its instruction, or past it, or kills its team, or escalates
the trap. The model's choices in it: log entry 44. -/
def Obligations.TrapsAndTheirReturns : Prop :=
  ((∀ (c : Ctl) (v : BitVec 24) (s : State) (e : Env), Runs s (.trap c v) e → e.act ≠ [] →
    ∃ u m, Machine.exec (.trap c v) s = .next u ∧ u.mem = s.mem ∧ getCom u e.p = some m ∧
      m.st = (if isHandler e.t then .escalated else .trapped) ∧ m.tcode = 0x30 ∧ m.tdetail = v.setWidth 32 ∧
      m.tpc = e.pc ∧ (∀ k, regAt u e.p k = regAt s e.p k) ∧
      (getCore u e.core).traps = (getCore s e.core).traps ++
        (if isHandler e.t then [] else [⟨.party e.p, e.t, ⟨0x30, v.setWidth 32, e.pc, 0⟩⟩]) ∧
      (isHandler e.t = true → (getCtx u e.ctx).escalations = (getCtx s e.ctx).escalations ++
        [⟨e.core, ⟨.party e.p, e.t, ⟨0x30, v.setWidth 32, e.pc, 0⟩⟩,
          BitVec.ofNat 32 (trapSrc s ⟨.party e.p, e.t, ⟨0x30, v.setWidth 32, e.pc, 0⟩⟩), true⟩])) ∧
  (∀ (core : Nat) (s : State) (x : TrapEntry) (r : List TrapEntry) (p : Party) (m : Common) (t : Team),
    (getCore s core).serving = none → (getCore s core).traps = x :: r → x.src = .party p → getCom s p = some m →
    m.st = .trapped → getTeam s x.team = some t →
    (∀ y ∈ (getCtx s t.ctx).escalations, y.handler = true → y.core ≠ core) →
    ∃ u h g, Machine.exec (.handlerEntry core) s = .next u ∧ { u with
        cores := s.cores, teams := s.teams } = s ∧
      getCore u core = { getCore s core with
        serving := some x, traps := r } ∧
      getTeam u (Config.handlerBase + core) = some h ∧ h.ctx = t.ctx ∧ h.core = core ∧ h.argblk = t.argblk ∧
      h.lead.pc = BitVec.ofNat 64 (forceReg s t.ctx 0x0310) ∧ h.lead.s = [] ∧ h.groups = [(0, g)] ∧
      g.thr.length = 32 ∧ ∀ y ∈ g.thr, y = Thread.start (BitVec.ofNat 64 (forceReg s t.ctx 0x0318)))) ∧
  (∀ (c : Ctl) (act : BitVec 2) (s : State) (e : Env) (x : TrapEntry) (p : Party) (m : Common),
    Runs s (.tret c act) e → e.act ≠ [] → (getCore e.s e.core).serving = some x → x.src = .party p →
    getCom e.s p = some m → m.defer = none → m.late = false → (m.st = .trapped ∨ m.st = .escalated) → handlerDue e.s e.t = false →
    (x.info.code = tcBound → (∀ o ∈ m.ops, o.poisoned = false) ∧ ∀ t, getTeam e.s x.team = some t → t.preempt = false) → teamOf e.s p ≠ Config.handlerBase + e.core →
    x.team ≠ Config.handlerBase + e.core →
    ∃ u, Machine.exec (.tret c act) s = .next u ∧ (getCore u e.core).serving = none ∧ (getCore u e.core).blocked = false ∧
      getTeam u (Config.handlerBase + e.core) = none ∧
      (act = 0 → ∃ n, getCom u p = some n ∧ n.st = .running ∧ ∀ l, pcAt u p l = pcAt e.s p l) ∧
      (act = 1 → ∃ n, getCom u p = some n ∧ n.st = .running ∧
        (∀ t, p = .lead t → pcAt u p 0 = nextPc (pcAt e.s p 0)) ∧
        ∀ t g y z ls pc, p = .group t g → getGroup e.s t g = some y → frontier y = some (z, ls, pc) →
          ∀ l ∈ ls, pcAt u p l = nextPc pc) ∧
      (act = 2 → ∀ t, getTeam e.s x.team = some t → ∃ y, getTeam u x.team = some y ∧ y.killed = true ∧
        y.lead.com.st = .exited ∧ ∀ g ∈ y.groups, g.2.com.st = .exited) ∧
      (act = 3 → (∃ n, getCom u p = some n ∧ n.st = .escalated) ∧
        ∀ t, getTeam e.s x.team = some t →
          (getCtx u t.ctx).escalations = (getCtx e.s t.ctx).escalations ++
            [⟨e.core, x, BitVec.ofNat 32 (trapSrc e.s x), false⟩]))

/-- R291, R345, R453, R478, R481: outside a handler, TRET, and RDSR and WRSR of a handler's registers, trap PRIVILEGE
with their detail. A handle that the team does not hold traps BARRIER_INVALID. The model's choices in it: log
entries 5, 44. -/
def Obligations.PrivilegeAndHandlesTrap : Prop :=
  (∀ (i : Instr) (d : Nat) (s : State) (b : Env),
    ((∃ c act, i = .tret c act ∧ d = 0x399) ∨
      (∃ c a sr, i = .rdsr c a sr ∧ 0x20 ≤ sr.toNat ∧ sr.toNat ≤ 0x23 ∧ d = sr.toNat) ∨
      (∃ c a imm v, i = .wrsr c a 0x20 imm v ∧ d = 0x20)) →
    s.turn = some b.p → envOf s b.p i (ctlOf i) = some b → permitted b (rulesOf i) = true → isHandler b.t = false →
    Machine.exec i s = .next (raiseTrap s b.p 0x03 d b.pc 0)) ∧
  (∀ (i : Instr) (a : Code) (s : State) (e : Env),
    ((∃ c, i = .bfree c a) ∨ (∃ c n, i = .binit c a n) ∨ (∃ c n f, i = .barrive c a n f) ∨ (∃ c, i = .binval c a) ∨
      (∃ c d r f, i = .btest c d a r f) ∨ (∃ c d f, i = .bwait c d a f ∧ e.com.wait = none)) →
    Runs s i e → e.act ≠ [] → (∀ b x, ¬ Holds e.s e.tm e.core (handle e a) b x) →
    Machine.exec i s = .next (raiseTrap s e.p 0x11 (handle e a % 2 ^ 16) e.pc 0))

/-! ### The matrix engine -/

/-- R203, R204, R211, R430: a matrix command that passes the checks of R430 enters the queue of its engine, or of both
engines of a pair, behind the commands that stand there, with its descriptor, coordinate and barrier captured and a
reference on the barrier; nothing else of an engine and no register or tile changes. The model's choices in it: log
entries 25, 26. -/
def Obligations.MatrixCommandsEnterTheQueue : Prop :=
  ∀ (i : Instr) (r : MeReq) (s : State) (e : Env) (d : BitVec 512) (bar : Option BarRef)
    (pages : Tab (Nat × Nat × Nat × Nat)), matrixParts i = some r → Runs s i e → headPasses e r d bar →
    bodyPasses e r d pages →
    ∃ (t : State) (m : MeCmd), Machine.exec i s = .next (if e.c.cf = 0 then done e t else later e t .engine [] [] 0) ∧
      m.instr = i ∧ m.team = e.t ∧ m.party = e.p ∧ m.desc = d ∧ m.bar = bar ∧ m.pages = pages ∧ m.pair = r.pair ∧
      (m.c0, m.c1) = boxAt e r.coord ∧ m.row = 0 ∧ m.begun = false ∧ m.sticky = 0 ∧
      m.region = e.tm.region.isSome ∧ m.flag = (if e.c.cf = 0 then none else some e.com.nextOp) ∧
      t.teams = e.s.teams ∧
      (∀ k, (getCore t k).me = (getCore e.s k).me ++
          (if k ∈ enginesOf e r then [{ m with
            half := halfAt e r k }] else []) ∧
        (getCore t k).active = (getCore e.s k).active ∧ (getCore t k).shadow = (getCore e.s k).shadow) ∧
      ∀ b x, bar = some b → getBar e.s b = some x → getBar t b = some { x with
        refs := x.refs + 1 }

/-- R205, R207, R208, R209, R210, R211, R214, R215, R431: MATRIX_COMMAND_COMPLETE takes the first free command of the
core out of its queue. Where no other half of it stands, the command ends: its bits join `%mstat`, its barrier has
an arrival and loses a reference, and its attached flag falls; else they join the other half's. MSWAP exchanges the
planes; MLDW loads the shadow plane, with its issuer the owner, from the elements of the box; MZERO clears its tile,
and no other; MLDA writes its box, converted to FP32, into its tile; MSTA changes no tile, and stores the in-bounds
elements of its box, converted, to the window or to memory as the core sees it, or nothing where an element is
poisoned and the descriptor forbids it. MATRIX_ROW_WRITE adds one row of R120's sums into the tile, and changes no
other element: of an MMA from the box, of an MMAQ from the queue's record, which it takes; a stream that has ended
sets `SHORT`. The model's choices in it: log entry 26. -/
def Obligations.MatrixEnginesAct : Prop :=
  (∀ (core : Nat) (s : State) (m : MeCmd) (t : Team), cmdReady s core = some m → getTeam s m.team = some t →
    ∃ u x, Machine.exec (.matrixCommandComplete core) s = .next u ∧ getTeam u m.team = some x ∧
      (m.pair = false → m.bar = none → m.flag = none → x.groups = t.groups ∧ x.lead = t.lead) ∧
      (getCore u core).me = (getCore s core).me.filter (fun y => !sameCmd m y) ∧
      (otherHalf s core m = none → x.mstat = t.mstat ||| m.sticky ||| BitVec.ofNat 32 (endBits t m)) ∧
      (∀ o, otherHalf s core m = some o → x.mstat = t.mstat ∧
        ∀ y ∈ (getCore u (partnerOf core)).me, sameCmd m y = true → ∃ z ∈ (getCore s (partnerOf core)).me,
          sameCmd m z = true ∧ y = { z with
            sticky := z.sticky ||| (m.sticky ||| BitVec.ofNat 32 (endBits t m)) }) ∧
      (∀ b y, otherHalf s core m = none → m.bar = some b → getBar s b = some y →
        getBar u b = if y.refs ≤ 1 then none else if y.inval = true then some { y with
            refs := y.refs - 1 }
          else some { arrivedAt y core 0 with
            refs := y.refs - 1 }) ∧
      (∀ id n o, otherHalf s core m = none → m.flag = some id → getCom s m.party = some n →
        n.ops.find? (fun y => y.id == id) = some o → ∃ k, getCom u m.party = some k ∧ (∀ y ∈ k.ops, y.id ≠ id) ∧
          ∀ f, o.flag = some f → Tab.get k.flags f 0 = Tab.get n.flags f 0 - 1) ∧
      ((∃ c b p, m.instr = .mswap c b p) →
        (getCore u core).active = (getCore s core).shadow ∧ (getCore u core).shadow = (getCore s core).active) ∧
      ((∃ c a b td p, m.instr = .mldw c a b td p) → tdBox m.desc 1 ≤ 64 →
        ∃ q, (getCore u core).shadow = q ∧ (getCore u core).active = (getCore s core).active ∧ q.owner = some m.team ∧
          q.kk = tdBox m.desc 0 ∧ q.nn = tdBox m.desc 1 ∧ q.fmt.toNat = tdFmt m.desc ∧ q.mx = tdMx m.desc ∧
          ∀ k j, k < q.kk → j < q.nn →
            Tab.get q.w (k * 64 + j) 0 = (spElem t core m.desc [m.c0 + (k : Int), m.c1 + (j : Int), 0, 0, 0]).1) ∧
      (∀ c d b p, m.instr = .mzero c d b p →
        (∀ k, Tab.get (tilesOf x m.half) k 0 =
          if k / 4096 = d.toNat - 0xC0 then 0 else Tab.get (tilesOf t m.half) k 0) ∧
        ∀ k ∈ tilePoison x m.half, k / 4096 ≠ d.toNat - 0xC0) ∧
      (∀ c d a b td p, m.instr = .mlda c d a b td p → tdBox m.desc 0 ≤ 64 →
        ∀ i j, i < tdBox m.desc 1 → j < tdBox m.desc 0 →
          Tab.get (tilesOf x m.half) ((d.toNat - 0xC0) * 4096 + 64 * i + j) 0 =
            BitVec.ofNat 32 (convert (tdFmt m.desc) 0 0 false false
              (spElem t core m.desc [m.c0 + (j : Int), m.c1 + (i : Int), 0, 0, 0]).1).bits) ∧
      (∀ c d a b td p rnd sat, m.instr = .msta c d a b td p rnd sat →
        x.tiles0 = t.tiles0 ∧ x.tiles1 = t.tiles1 ∧ (getCore u core).active = (getCore s core).active ∧
        (boxMarked t m d = true → tdPois m.desc = true → x.win0 = t.win0 ∧ x.win1 = t.win1 ∧
          (m.pair = false → m.bar = none → u.mem = s.mem ∧ u.wb = s.wb)) ∧
        ((boxMarked t m d && tdPois m.desc) = false → tdSpace m.desc = true → ∀ half k, half ≤ 1 →
          winByte x half k = storedBytes t m d rnd sat
            (fun v => if spHalf t core v = half then some (v % 2 ^ 24) else none) k (winByte t half k)) ∧
        ((boxMarked t m d && tdPois m.desc) = false → tdSpace m.desc = false → m.pair = false → s.refused = [] →
          (∀ y ∈ s.wb, y.core = core → y.key = 0 ∧ wbFind s core y.sector = some y) →
          (∀ y ∈ boxCells m.desc, ∀ v, storedCell t m d rnd sat y = some v →
            simple (capturedPhys m v.1).pa (capturedPhys m v.1).key (tdBits m.desc / 8)) →
          ∀ k, seenByte u core k = storedBytes t m d rnd sat (fun v => some (capturedPhys m v).pa) k (seenByte s core k)))) ∧
  (∀ (core : Nat) (s : State) (m : MeCmd) (t : Team) (c : Ctl) (d a b : Code) (td : BitVec 6) (p : Bool),
    rowReady s core = some m → m.instr = .mma c d a b td p → getTeam s m.team = some t →
    ∃ u x base, Machine.exec (.matrixRowWrite core) s = .next u ∧ getTeam u m.team = some x ∧
      base = (d.toNat - 0xC0) * 4096 + 64 * m.row ∧
      (∀ j, j < (getCore s core).active.nn → Tab.get (tilesOf x m.half) (base + j) 0 =
        BitVec.ofNat 32 (accElem (getCore s core).active (tdFmt m.desc) (rowScratch t core m) j
          (Tab.get (tilesOf t m.half) (base + j) 0).toNat).1) ∧
      (∀ k, (k < base ∨ base + (getCore s core).active.nn ≤ k) →
        Tab.get (tilesOf x m.half) k 0 = Tab.get (tilesOf t m.half) k 0) ∧
      x.groups = t.groups ∧ x.lead = t.lead ∧
      ∀ y ∈ (getCore u core).me, sameCmd m y = true →
        ∃ z ∈ (getCore s core).me, sameCmd m z = true ∧ y.row = z.row + 1 ∧ y.begun = true ∧
          ∀ j i, j < (getCore s core).active.nn → i < 32 → (accElem (getCore s core).active (tdFmt m.desc)
            (rowScratch t core m) j (Tab.get (tilesOf t m.half) (base + j) 0).toNat).2.testBit i = true →
            y.sticky.getLsbD i = true) ∧
  (∀ (core : Nat) (s : State) (m : MeCmd) (t : Team) (c : Ctl) (d b : Code) (td : BitVec 6) (q : BitVec 4) (p : Bool)
    (n : Nat) (r : Record) (w : Queue),
    rowReady s core = some m → m.instr = .mmaq c d b td q p → getTeam s m.team = some t →
    getQueue s t.inst q.toNat = some w → rowSource s core m = .record n r →
    ∃ u x base, Machine.exec (.matrixRowWrite core) s = .next u ∧ getTeam u m.team = some x ∧
      base = (d.toNat - 0xC0) * 4096 + 64 * m.row ∧
      (∀ j, j < (getCore s core).active.nn → Tab.get (tilesOf x m.half) (base + j) 0 =
        BitVec.ofNat 32 (accElem (getCore s core).active (tdFmt m.desc) (rowRecord m r) j
          (Tab.get (tilesOf t m.half) (base + j) 0).toNat).1) ∧
      (∀ k, (k < base ∨ base + (getCore s core).active.nn ≤ k) →
        Tab.get (tilesOf x m.half) k 0 = Tab.get (tilesOf t m.half) k 0) ∧
      (getQueue u t.inst q.toNat).map (·.recs) = some (w.recs.eraseIdx n) ∧
      (∀ i k, (i, k) ≠ (t.inst, q.toNat) → getQueue u i k = getQueue s i k) ∧
      ∀ y ∈ (getCore u core).me, sameCmd m y = true →
        ∃ z ∈ (getCore s core).me, sameCmd m z = true ∧ y.row = z.row + 1 ∧ y.begun = true) ∧
  (∀ (core : Nat) (s : State) (m : MeCmd) (t : Team), rowReady s core = some m → getTeam s m.team = some t →
    rowSource s core m = .short →
    ∃ u, Machine.exec (.matrixRowWrite core) s = .next u ∧ { u with
        cores := s.cores } = s ∧
      ∀ y ∈ (getCore u core).me, sameCmd m y = true →
        ∃ z ∈ (getCore s core).me, sameCmd m z = true ∧ y = { z with
          begun := true, narrow := y.narrow, row := meRows z, sticky := z.sticky ||| 0x40 })

/-! ### Porters -/

/-- R168, R172, R173, R194, R444, R445, R446: PSTART by a party with the rights starts an IDLE porter at its entry with
its arguments and barrier, and writes status 0; resumes a FAULTED one; and otherwise writes 1, 2 or 3 and does
nothing. PSTOP writes the state that the porter had, and an IDLE or FAULTED one is IDLE at once; another completes
later. PSTAT reads the word that its selector names. A party without the rights traps COPY_RIGHTS. The model's
choices in it: log entry 27. -/
def Obligations.PortersAreStartedStoppedAndRead : Prop :=
  (∀ (c : Ctl) (d a b : Code) (unit : BitVec 3) (entry : BitVec 16) (n : BitVec 3) (s : State) (e : Env) (core num : Nat)
    (tm : Team) (bar : Option BarRef), Runs s (.pstart c d a b unit entry n false) e → e.act ≠ [] → mayCommand e →
    porterOf e unit.toNat = some (core, num) → (getPorter e.s core num).st = .idle →
    getTeam e.s (tdOwner e.s e.core e.t) = some tm →
    (handle e b = 0 ∧ bar = none ∨ ∃ r x, bar = some r ∧ Holds e.s tm core (handle e b) r x ∧ x.inval = false) →
    ∃ t y, Machine.exec (.pstart c d a b unit entry n false) s = .next (done e (writeRun e t d 1 fun _ => 0)) ∧
      getPorter t core num = y ∧ y.st = .running ∧ y.pc = entry.setWidth 64 ∧ y.entered = true ∧ y.bar = bar ∧
      y.team = some (tdOwner e.s e.core e.t) ∧ y.xfers = [] ∧ (e.tm.pair = false → t.teams = e.s.teams) ∧
      (∀ j, Tab.get y.g j 0 = if j < n.toNat then BitVec.ofNat 64 (regVal e a j e.low) else 0) ∧
      ∀ r x, bar = some r → getBar e.s r = some x → getBar t r = some { x with
        refs := x.refs + 1 }) ∧
  (∀ (c : Ctl) (d a b : Code) (unit : BitVec 3) (entry : BitVec 16) (n : BitVec 3) (s : State) (e : Env) (core num : Nat),
    Runs s (.pstart c d a b unit entry n true) e → e.act ≠ [] → mayCommand e → porterOf e unit.toNat = some (core, num) →
    (getPorter e.s core num).st = .faulted →
    ((getPorter e.s core num).team = some e.t ∨ isHandler e.t = true) →
    ∃ t y, Machine.exec (.pstart c d a b unit entry n true) s = .next (done e (writeRun e t d 1 fun _ => 0)) ∧
      getPorter t core num = y ∧ y.st = .running ∧ y.fault = none ∧ y.pc = (getPorter e.s core num).pc ∧
      y.g = (getPorter e.s core num).g ∧ y.roff = (getPorter e.s core num).roff ∧
      (e.tm.pair = false → t.teams = e.s.teams)) ∧
  (∀ (c : Ctl) (d a b : Code) (unit : BitVec 3) (entry : BitVec 16) (n : BitVec 3) (resume : Bool) (s : State) (e : Env)
    (status : Nat), Runs s (.pstart c d a b unit entry n resume) e → e.act ≠ [] → mayCommand e →
    ((porterOf e unit.toNat = none ∧ status = 2) ∨
      (∃ core num, porterOf e unit.toNat = some (core, num) ∧ status = 1 ∧
        (resume = false ∧ (getPorter e.s core num).st ≠ .idle ∨
          resume = true ∧ ((getPorter e.s core num).st ≠ .faulted ∨
            ((getPorter e.s core num).team ≠ some e.t ∧ isHandler e.t = false)))) ∨
      (∃ core num tm, porterOf e unit.toNat = some (core, num) ∧ status = 3 ∧ resume = false ∧
        (getPorter e.s core num).st = .idle ∧ getTeam e.s (tdOwner e.s e.core e.t) = some tm ∧ handle e b ≠ 0 ∧
        ∀ r x, Holds e.s tm core (handle e b) r x → x.inval = true)) →
    Machine.exec (.pstart c d a b unit entry n resume) s = .next (done e (writeRun e e.s d 1 fun _ => status))) ∧
  (∀ (c : Ctl) (d : Code) (unit : BitVec 3) (s : State) (e : Env) (core num : Nat), Runs s (.pstop c d unit) e →
    e.act ≠ [] → mayCommand e → porterOf e unit.toNat = some (core, num) → (getPorter e.s core num).st = .idle →
    Machine.exec (.pstop c d unit) s = .next (done e (writeRun e e.s d 1 fun _ => 0))) ∧
  (∀ (c : Ctl) (d : Code) (unit : BitVec 3) (s : State) (e : Env) (core num : Nat), Runs s (.pstop c d unit) e →
    e.act ≠ [] → mayCommand e → porterOf e unit.toNat = some (core, num) → (getPorter e.s core num).st = .faulted →
    ((getPorter e.s core num).team = some e.t ∨ isHandler e.t = true) →
    ∃ t, Machine.exec (.pstop c d unit) s = .next (done e (writeRun e t d 1 fun _ => 3)) ∧
      getPorter t core num = Porter.idle ∧ t.teams = e.s.teams) ∧
  (∀ (c : Ctl) (d : Code) (unit : BitVec 3) (s : State) (e : Env) (core num : Nat), Runs s (.pstop c d unit) e →
    e.act ≠ [] → mayCommand e → porterOf e unit.toNat = some (core, num) →
    ((getPorter e.s core num).st = .running ∨ (getPorter e.s core num).st = .draining) →
    ((getPorter e.s core num).team = some e.t ∨ isHandler e.t = true) →
    ∃ t y, Machine.exec (.pstop c d unit) s = .next (later e t (.pstop core num) [] (outKeys e d 1)
        (stateCode (getPorter e.s core num))) ∧ getPorter t core num = y ∧ y.st = .draining ∧ y.xfers = [] ∧
      y.stamps = [] ∧ y.bar = (getPorter e.s core num).bar ∧ t.teams = e.s.teams) ∧
  (∀ (c : Ctl) (d : Code) (unit : BitVec 3) (sel : BitVec 16) (s : State) (e : Env) (core num : Nat),
    Runs s (.pstat c d unit sel) e → e.act ≠ [] → mayCommand e → porterOf e unit.toNat = some (core, num) →
    Machine.exec (.pstat c d unit sel) s = .next (done e (writeRun e e.s d (if e.kind = .group then 2 else 1)
      fun _ => porterWord (getPorter e.s core num) sel.toNat))) ∧
  (∀ (i : Instr) (unit : BitVec 3) (s : State) (e : Env), ((∃ c d a b entry n resume, i = .pstart c d a b unit entry n resume) ∨
      (∃ c d, i = .pstop c d unit) ∨ ∃ c d sel, i = .pstat c d unit sel) → Runs s i e → e.act ≠ [] → ¬ mayCommand e →
    Machine.exec i s = .next (raiseTrap s e.p 0x12 unit.toNat e.pc 0))

/-- R177, R182, R183, R188 to R190, R491 to R496: a porter's XLDI reads the bytes that its core sees, or scratchpad;
XCOORD steps a coordinate by one box; XARRIVE arrives on the bound barrier; XSTAMP hands in its stamp; XWAIT goes on
when few enough transfers are outstanding, or the phase has passed; XFENCE drains; XTRAP faults the porter with code
0x30, and does nothing when resumed; XEND lets the porter drain. The model's choices in it: log entry 27. -/
def Obligations.PorterInstructionsAct : Prop :=
  (∀ (c : Ctl) (d a : Code) (off : BitVec 24) (pol : BitVec 4) (size : BitVec 3) (s : State) (e : Env) (p : Nat),
    Runs s (.xldi c d a off pol size true) e → p = porterAddr e a off % 2 ^ 32 → spOpen e p (2 ^ size.toNat) →
    spClean e.tm e.core p (2 ^ size.toNat) → e.x.xfers = [] → e.x.stamps = [] →
    Machine.exec (.xldi c d a off pol size true) s = .next (done e (writeRun e e.s d (xldiRun size.toNat) fun _ =>
      spNumber e.tm e.core p (2 ^ size.toNat)))) ∧
  (∀ (c : Ctl) (d a : Code) (off : BitVec 24) (pol : BitVec 4) (size : BitVec 3) (s : State) (e : Env) (p : Phys),
    Runs s (.xldi c d a off pol size false) e →
    checkNow e.s e.ctx e.core (porterAddr e a off) (2 ^ size.toNat) .load = .ok p → simple p.pa p.key (2 ^ size.toNat) →
    cleanAt e.s e.core p.pa → l1Find e.s e.core (p.pa / 32) = none → e.x.xfers = [] → e.x.stamps = [] →
    ∃ t, Machine.exec (.xldi c d a off pol size false) s = .next (done e (writeRun e t d (xldiRun size.toNat) fun _ =>
        seenValue e.s e.core p.pa (2 ^ size.toNat))) ∧
      { t with
        l1 := e.s.l1, sc := e.s.sc, tlb := e.s.tlb, walks := e.s.walks, bwNow := e.s.bwNow } = e.s) ∧
  (∀ (c : Ctl) (d a : Code) (td : BitVec 6) (s : State) (e : Env) (x : Team), Runs s (.xcoord c d a td) e →
    getTeam e.s (tdOwner e.s e.core e.t) = some x → td.toNat < x.nd →
    ∃ v : Nat, Machine.exec (.xcoord c d a td) s = .next (done e (writeRun e e.s d 2 fun _ => v)) ∧
      v = ((nextCoord (Tab.get x.tds td.toNat 0) (indexAt e a) (indexAt e d)).zipIdx.map fun y =>
        lowBits 32 y.1 * 2 ^ (32 * y.2)).sum) ∧
  (∀ (c : Ctl) (imm : Bool) (a : Code) (v : BitVec 16) (s : State) (e : Env) (b : BarRef) (x : Barrier),
    Runs s (.xarrive c imm a v) e → e.x.bar = some b → getBar e.s b = some x → x.inval = false →
    ∃ t, Machine.exec (.xarrive c imm a v) s = .next (done e t) ∧ otherBars e.s t b.core b.entry ∧
      getBar t b = some (arrivedAt x e.core (if imm then v.toNat else val e a 0 % 2 ^ 32))) ∧
  (∀ (c : Ctl) (a b : Code) (off : BitVec 24) (pol : BitVec 4) (scope : BitVec 3) (s : State) (e : Env) (p : Phys),
    Runs s (.xstamp c a b off pol scope) e → checkNow e.s e.ctx e.core (porterAddr e a off) 8 .store = .ok p →
    ∃ u y, Machine.exec (.xstamp c a b off pol scope) s = .next u ∧ getPorter u e.core (porterNo e) = y ∧
      y.stamps = e.x.stamps ++ [⟨e.x.nextXfer, p.pa, p.key, p.ca, p.scp, BitVec.ofNat 64 (val e b 0), pol, scope⟩] ∧
      y.pc = nextPc e.pc ∧ y.xfers = e.x.xfers ∧ y.g = e.x.g ∧ { u with
        cores := e.s.cores, tlb := e.s.tlb, walks := e.s.walks } = e.s) ∧
  (∀ (c : Ctl) (a : Code) (n : BitVec 5) (s : State) (e : Env), Runs s (.xwait c false a n) e →
    e.x.xfers.length ≤ n.toNat → Machine.exec (.xwait c false a n) s = .next (done e e.s)) ∧
  (∀ (c : Ctl) (a : Code) (n : BitVec 5) (s : State) (e : Env) (b : BarRef) (x : Barrier), Runs s (.xwait c true a n) e →
    e.x.bar = some b → e.x.wait = none → getBar e.s b = some x → x.inval = false → x.ph ≠ (val e a 0).testBit 0 →
    Machine.exec (.xwait c true a n) s =
      .next (done e (if flipCrosses x x.last e.core then phaseBoundary e.s e.core else e.s))) ∧
  (∀ (c : Ctl) (a : Code) (n : BitVec 5) (s : State) (e : Env) (b : BarRef) (x : Barrier), Runs s (.xwait c true a n) e →
    e.x.bar = some b → e.x.wait = none → getBar e.s b = some x → x.inval = false → x.ph = (val e a 0).testBit 0 →
    ∃ u y, Machine.exec (.xwait c true a n) s = .next u ∧ getPorter u e.core (porterNo e) = y ∧ y.wait = some none ∧
      y.pc = e.pc ∧ getBar u b = some { x with
        waiters := x.waiters + 1 } ∧ { u with
        cores := e.s.cores } = e.s) ∧
  (∀ (c : Ctl) (a : Code) (n : BitVec 5) (s : State) (e : Env) (b : BarRef) (x : Barrier) (w : WaitEnd), Runs s (.xwait c true a n) e →
    e.x.bar = some b → e.x.wait = some (some w) → w.fail = false → getBar e.s b = some x →
    ∃ t, Machine.exec (.xwait c true a n) s =
        .next (done e (if flipCrosses x w.cores e.core then phaseBoundary t e.core else t)) ∧
      otherBars e.s t b.core b.entry ∧ getBar t b = some { x with
        waiters := x.waiters - 1 } ∧ { t with
        cores := e.s.cores } = e.s) ∧
  (∀ (c : Ctl) (scope order : BitVec 3) (s : State) (e : Env), Runs s (.xfence c scope order) e → e.x.xfers = [] →
    e.x.stamps = [] → ∃ t, Machine.exec (.xfence c scope order) s = .next (done e t) ∧ t.cores = e.s.cores ∧
      (scopeLeaves e.tm scope = false → t = e.s) ∧
      (scopeLeaves e.tm scope = true → (∀ x ∈ t.wb, x.core ≠ e.core) ∧ (order ≠ 2 → ∀ x ∈ t.l1, x.core ≠ e.core))) ∧
  (∀ (c : Ctl) (v : BitVec 16) (s : State) (e : Env), Runs s (.xtrap c v) e → e.x.resumed = false → e.x.xfers = [] →
    ∃ u y f, Machine.exec (.xtrap c v) s = .next u ∧ getPorter u e.core (porterNo e) = y ∧ y.st = .faulted ∧
      f = ⟨e.pc, 0x30, 0, v.toNat, e.x.roff, 0⟩ ∧ y.fault = some f ∧ y.g = e.x.g ∧ (getCore u e.core).traps =
        (getCore s e.core).traps ++ [⟨.porter e.core (porterNo e), e.t,
          ⟨0x20, BitVec.ofNat 32 (0x30 * 2 ^ 24 + porterNo e * 2 ^ 16 + v.toNat), e.pc, 0⟩⟩]) ∧
  (∀ (c : Ctl) (v : BitVec 16) (s : State) (e : Env), Runs s (.xtrap c v) e → e.x.resumed = true →
    Machine.exec (.xtrap c v) s = .next (done e e.s)) ∧
  (∀ (c : Ctl) (s : State) (e : Env), Runs s (.xend c) e →
    ∃ u y, Machine.exec (.xend c) s = .next u ∧ getPorter u e.core (porterNo e) = y ∧ y.st = .draining ∧
      y.xfers = e.x.xfers ∧ y.g = e.x.g ∧ y.bar = e.x.bar ∧ { u with
        cores := e.s.cores } = e.s)

/-- R171, R174, R176, R178 to R181, R184, R486 to R490: a transfer with a good descriptor, size, queue and address,
whose units pass their checks, enters after those outstanding with its box, image and rows captured, and the porter
goes on. The model's choices in it: log entry 27. -/
def Obligations.TransfersEnter : Prop :=
  (∀ (c : Ctl) (a b g : Code) (td : BitVec 6) (q : BitVec 4) (pad : BitVec 8) (dir : BitVec 3) (s : State) (e : Env)
    (d : BitVec 512) (co : List Int) (sp len : Nat), Runs s (.xcopy c a b g td q pad dir) e → e.x.xfers.length < 32 →
    (if dir.toNat < 4 then xDesc e a td.toNat = .ok (d, co) ∧ len = xRow d * xRows d else d = 0 ∧ co = [] ∧ len = val e g 0) →
    sp = (if dir.toNat = 2 ∨ dir.toNat = 3 then 0 else val e b 0 % 2 ^ 32) → sp % 4 = 0 →
    xSize e e.i len = .ok () → xBind e e.i = .ok () → unitsPass e e.s (newXfer e d co sp len 0) →
    ∃ u y, Machine.exec (.xcopy c a b g td q pad dir) s = .next u ∧ Enters u e y ∧ y.desc = d ∧ y.coord = co ∧ y.sp = sp ∧
      y.len = len ∧ y.next = e.x.roff / 32 ∧ y.stop = (len + 31) / 32) ∧
  (∀ (i : Instr) (c : Ctl) (a b g : Code) (td : BitVec 6) (pad : BitVec 8) (n : BitVec 10) (s : State) (e : Env)
    (d : BitVec 512) (co l : List Int) (s1 : State), (i = .xgather c a b g td pad n ∨ i = .xscatter c a b g td pad n) →
    Runs s i e → e.x.xfers = [] → e.x.stamps = [] → e.x.roff = 0 → xDesc e a td.toNat = .ok (d, co) → val e b 0 % 4 = 0 →
    xRow d * (n.toNat + 1) ≤ 2 ^ 24 → gatherIndices e (val e g 0) e.s (List.range (n.toNat + 1)) = (s1, l, none) →
    s1.cores = e.s.cores → s1.teams = e.s.teams →
    unitsPass e s1 { newXfer e d co (val e b 0 % 2 ^ 32) (xRow d * (n.toNat + 1)) 0 with
      idx := l } →
    ∃ u y, Machine.exec i s = .next u ∧ Enters u e y ∧ y.desc = d ∧ y.coord = co ∧ y.idx = l ∧
      y.sp = val e b 0 % 2 ^ 32 ∧ y.len = xRow d * (n.toNat + 1) ∧ y.next = 0 ∧ y.stop = (y.len + 31) / 32) ∧
  (∀ (c : Ctl) (a b g : Code) (td : BitVec 6) (pad : BitVec 8) (s : State) (e : Env) (d : BitVec 512) (co : List Int)
    (x : Xfer), Runs s (.xmcast c a b g td pad) e → e.x.xfers = [] → e.x.stamps = [] → xDesc e a td.toNat = .ok (d, co) → val e g 0 < 2 ^ 20 →
    val e g 0 ≠ 0 → val e b 0 % 2 ^ 32 % 4 = 0 → (val e b 0).testBit 24 = false → xRow d * xRows d ≤ 2 ^ 24 →
    (∀ k ∈ mcastCores e.core (val e g 0), (mcastTeam e.s e.tm k).isSome = true) →
    x = newXfer e d co (val e b 0 % 2 ^ 32) (xRow d * xRows d) (BitVec.ofNat 64 (val e g 0)) →
    unitsPass e e.s x → unitsPass e (drainCore e.s e.core) x →
    ∃ u y, Machine.exec (.xmcast c a b g td pad) s = .next u ∧ Enters u e y ∧ y.desc = d ∧ y.coord = co ∧
      y.sp = val e b 0 % 2 ^ 32 ∧ y.dsts = (mcastCores e.core (val e g 0)).map (fun k => (k, e.x.roff / 32)) ∧
      y.extra = BitVec.ofNat 64 (val e g 0)) ∧
  (∀ (c : Ctl) (a b : Code) (td : BitVec 6) (pad : BitVec 8) (bf16 had : Bool) (s : State) (e : Env) (d : BitVec 512)
    (co : List Int), Runs s (.xstmx c a b td pad bf16 had) e → e.x.xfers.length < 32 →
    xDesc e a td.toNat = .ok (d, co) → stmxBad d co had = false → val e b 0 % 4 = 0 → xRow d * xRows d ≤ 2 ^ 24 →
    unitsPass e e.s (newXfer e d co (val e b 0 % 2 ^ 32) (xRow d * xRows d) 0) →
    ∃ u y, Machine.exec (.xstmx c a b td pad bf16 had) s = .next u ∧ Enters u e y ∧ y.desc = d ∧ y.coord = co ∧
      y.sp = val e b 0 % 2 ^ 32 ∧ y.len = xRow d * xRows d ∧ y.next = e.x.roff / 32) ∧
  (∀ (c : Ctl) (a b g : Code) (td : BitVec 6) (s : State) (e : Env) (len : Nat), Runs s (.xfill c a b g td true) e →
    e.x.xfers.length < 32 → len = val e a 0 % 2 ^ 32 → len % 4 = 0 → len ≤ 2 ^ 24 → val e b 0 % 4 = 0 →
    unitsPass e e.s (newXfer e 0 [] (val e b 0 % 2 ^ 32) len (BitVec.ofNat 64 (val e g 0))) →
    ∃ u y, Machine.exec (.xfill c a b g td true) s = .next u ∧ Enters u e y ∧ y.len = len ∧ y.sp = val e b 0 % 2 ^ 32 ∧
      y.extra = BitVec.ofNat 64 (val e g 0) ∧ y.next = e.x.roff / 32 ∧ y.stop = (len + 31) / 32) ∧
  (∀ (c : Ctl) (a b g : Code) (td : BitVec 6) (s : State) (e : Env) (d : BitVec 512) (co : List Int),
    Runs s (.xfill c a b g td false) e → e.x.xfers.length < 32 → xDesc e a td.toNat = .ok (d, co) →
    xRow d * xRows d ≤ 2 ^ 24 → unitsPass e e.s (newXfer e d co 0 (xRow d * xRows d) (BitVec.ofNat 64 (val e g 0))) →
    ∃ u y, Machine.exec (.xfill c a b g td false) s = .next u ∧ Enters u e y ∧ y.desc = d ∧ y.coord = co ∧
      y.len = xRow d * xRows d ∧ y.extra = BitVec.ofNat 64 (val e g 0) ∧ y.next = e.x.roff / 32)

/-- R167, R175, R176, R178, R180, R181, R184, R188, R190 to R193: a unit of a transfer is performed, the transfer moves
on by it, or ends with its last, and the bound barrier is credited with its bytes. What the unit writes is what its
source end holds, or what the instruction forms (XFILL, XSTMX with its scales), and nothing else of the window or of
memory changes; a unit of a linear XFILL writes its pattern. A queue form pops a record for the bytes that it lacks,
writes a unit whose bytes it has, and pushes the records that its bytes complete; its unit is checked once, before
its first effect. A delivery of an XMCAST writes its unit into the receiving team's window and moves its core on. A
stamp's 8 bytes are written; a fault whose earlier transfers have ended is recorded and raised; a drained porter is
IDLE. The model's choices in it: log entry 27. -/
def Obligations.PorterEventsAct : Prop :=
  (∀ (core num tid : Nat) (s : State) (x : Xfer) (t : Team), Due s core num tid t x → queueSide x.instr = false →
    (∀ c a b g td pad, x.instr ≠ .xmcast c a b g td pad) → sourceOpen s core x x.next →
    ∃ u l ps, Machine.exec (.porterUnitPerform core num x.id) s = .next u ∧
      Advances s u core num x { x with
        next := x.next + 1 } (x.stop ≤ x.next + 1) ∧
      l = (if xSource x.instr = .formed then (unitFormed t core x x.next).map (·.1)
        else (unitBytes x.len x.next).map (sourceByte s t core x x.next)) ∧
      ps = unitPieces t core x (xDest x.instr) x.next l ∧
      (endSp x (xDest x.instr) = true → WindowTakes u tid core t ps) ∧
      (endSp x (xDest x.instr) = false → MemoryTakes s u core x ps ∧ WindowTakes u tid core t []) ∧
      ∀ b z, (getPorter s core num).bar = some b → getBar s b = some z →
        getBar u b = some (if z.inval = true then z else creditedBy z core (unitCredit x x.next))) ∧
  (∀ (core num tid : Nat) (s : State) (x : Xfer) (t : Team) (c : Ctl) (a b g : Code) (td : BitVec 6),
    Due s core num tid t x → x.instr = .xfill c a b g td true → (getPorter s core num).bar = none →
    x.sp + x.len ≤ 2 ^ 24 →
    ∃ u y, Machine.exec (.porterUnitPerform core num x.id) s = .next u ∧ getTeam u tid = some y ∧ u.mem = s.mem ∧
      u.wb = s.wb ∧ (∀ k, 32 * x.next ≤ k → k < min x.len (32 * x.next + 32) →
        winByte y (halfOf t core) (x.sp + k) = BitVec.ofNat 8 (x.extra.toNat / 2 ^ (8 * (k % 4)))) ∧
      ∀ h k, h ≤ 1 → (h ≠ halfOf t core ∨ k < x.sp + 32 * x.next ∨ x.sp + min x.len (32 * x.next + 32) ≤ k) →
        winByte y h k = winByte t h k) ∧
  (∀ (core num tid n : Nat) (s : State) (x : Xfer) (t : Team) (pages : Tab (Nat × Nat × Nat × Nat)) (q : Queue)
    (r : Record), Due s core num tid t x → xSource x.instr = .queue →
    unitPages s core t x pages →
    32 * x.next + x.buf.length < min x.len (32 * x.next + 32) → getQueue s t.inst (xQueue x.instr) = some q →
    popIndex q (.porter core num) = some n → q.recs[n]? = some r → r.poison = false →
    ∃ u, Machine.exec (.porterUnitPerform core num x.id) s = .next u ∧
      (getQueue u t.inst (xQueue x.instr)).map (·.recs) = some (q.recs.eraseIdx n) ∧
      (getPorter u core num).xfers.find? (·.id == x.id) = some { x with
        pages := pages, okTo := max x.okTo (x.next + 1),
        buf := x.buf ++ r.words.flatMap fun w => (List.range 4).map fun i => (w.extractLsb' (8 * i) 8, false) }) ∧
  (∀ (core num tid : Nat) (s : State) (x y : Xfer) (t : Team) (pages : Tab (Nat × Nat × Nat × Nat)),
    Due s core num tid t x → xSource x.instr = .queue → unitPages s core t x pages →
    min x.len (32 * x.next + 32) ≤ 32 * x.next + x.buf.length → y = { x with
      pages := pages } →
    ∃ u ps, Machine.exec (.porterUnitPerform core num x.id) s = .next u ∧
      Advances s u core num x { x with
        next := x.next + 1, pages := [], okTo := max x.okTo (x.next + 1),
        buf := x.buf.drop (unitBytes x.len x.next).length } (x.stop ≤ x.next + 1) ∧
      ps = unitPieces t core y (xDest x.instr) x.next ((x.buf.take (unitBytes x.len x.next).length).map (·.1)) ∧
      (endSp x (xDest x.instr) = true → WindowTakes u tid core t ps) ∧
      (endSp x (xDest x.instr) = false → MemoryTakes s u core y ps ∧ WindowTakes u tid core t [])) ∧
  (∀ (core num tid : Nat) (s : State) (x y : Xfer) (t : Team) (pages : Tab (Nat × Nat × Nat × Nat)) (q : Queue),
    Due s core num tid t x → xDest x.instr = .queue → xSource x.instr ≠ .queue → unitPages s core t x pages →
    y = { x with
      pages := pages } → sourceOpen s core y x.next → x.got < min x.len (32 * x.next + 32) →
    getQueue s t.inst (xQueue x.instr) = some q → q.cclosed = false →
    q.recs.length + (x.buf.length + (unitBytes x.len x.next).length) / (4 * qWords q.decl) ≤ qDepth q.decl →
    ∃ u l w, Machine.exec (.porterUnitPerform core num x.id) s = .next u ∧
      l.map (·.1) = (unitBytes x.len x.next).map (sourceByte s t core y x.next) ∧
      getQueue u t.inst (xQueue x.instr) = some w ∧ w.recs.take q.recs.length = q.recs ∧
      (w.recs.drop q.recs.length).map (·.words) = (List.range ((x.buf ++ l).length / (4 * qWords q.decl))).map
        (recordWords (x.buf ++ l) (qWords q.decl)) ∧
      (∀ r ∈ w.recs.drop q.recs.length, r.vis = false ∧ r.tag = some (.porter core num)) ∧
      Advances s u core num x { x with
        next := x.next + 1, pages := [], okTo := max x.okTo (x.next + 1), got := min x.len (32 * x.next + 32),
        buf := (x.buf ++ l).drop (4 * qWords q.decl * ((x.buf ++ l).length / (4 * qWords q.decl))) }
        (x.stop ≤ x.next + 1)) ∧
  (∀ (core num dst tid rid n : Nat) (s : State) (x : Xfer) (t r : Team),
    (getPorter s core num).xfers.find? (·.id == x.id) = some x → (getPorter s core num).team = some tid →
    getTeam s tid = some t → Tab.find x.dsts dst = some n → mcastTeam s t dst = some (rid, r) → n < x.stop →
    (∃ c a b g td pad, x.instr = .xmcast c a b g td pad) →
    unitFree s tid t core (getPorter s core num).xfers (getPorter s core num).stamps x n = true →
    ∃ u, Machine.exec (.xmcastDelivery core num x.id dst) s = .next u ∧
      Advances s u core num x { x with
        dsts := Tab.set x.dsts dst (n + 1) } (∀ k ∈ Tab.set x.dsts dst (n + 1), x.stop ≤ k.2) ∧
      WindowTakes u rid dst r (unitPieces r dst x .rows n
        ((unitBytes x.len n).map fun k => (x.image.getD k (0, false)).1)) ∧
      ∀ b d z, (getPorter s core num).bar = some b → mcastBar s t core b dst = some d → getBar s d = some z →
        getBar u d = some (if z.inval = true then z else creditedBy z core (unitCredit x n))) ∧
  (∀ (core num dst tid n : Nat) (s : State) (x : Xfer) (t : Team),
    (getPorter s core num).xfers.find? (·.id == x.id) = some x → (getPorter s core num).team = some tid →
    getTeam s tid = some t → Tab.find x.dsts dst = some n → mcastTeam s t dst = none →
    ∃ u, Machine.exec (.xmcastDelivery core num x.id dst) s = .next u ∧
      Advances s u core num x { x with
        dsts := Tab.set x.dsts dst (max n x.stop) } (∀ k ∈ Tab.set x.dsts dst (max n x.stop), x.stop ≤ k.2) ∧
      u.teams = s.teams ∧ u.mem = s.mem) ∧
  (∀ (core num tid : Nat) (s : State) (st : Stamp) (r : List Stamp) (t : Team),
    (getPorter s core num).stamps = st :: r → (getPorter s core num).team = some tid → getTeam s tid = some t →
    (∀ x ∈ (getPorter s core num).xfers, st.after ≤ x.id) → simple st.pa st.key 8 → st.pa / 32 ∉ s.refused →
    (s.wb.filter fun x => x.core == core).length < 64 →
    ∃ u, Machine.exec (.xstampWrite core num) s = .next u ∧ (getPorter u core num).stamps = r ∧
      ∀ i, i < 8 → seenByte u core (st.pa + i) = st.data.extractLsb' (8 * i) 8) ∧
  (∀ (core num : Nat) (s : State) (f : PFault), (getPorter s core num).pending = some f →
    (getPorter s core num).xfers = [] → (getPorter s core num).stamps = [] →
    ∃ u y, Machine.exec (.porterFault core num) s = .next u ∧ getPorter u core num = y ∧ y.st = .faulted ∧
      y.fault = some f ∧ y.pending = none ∧ y.pc = f.pc ∧ u.mem = s.mem ∧ u.teams = s.teams ∧
      (getCore u core).traps.length = (getCore s core).traps.length + 1) ∧
  (∀ (core num : Nat) (s : State), (getPorter s core num).dropped = true → (getPorter s core num).st = .running →
    (getPorter s core num).xfers = [] → (getPorter s core num).stamps = [] → (getPorter s core num).pending = none →
    (getPorter s core num).roff = 0 →
    ∃ u y f, Machine.exec (.droppedCreditFault core num) s = .next u ∧ getPorter u core num = y ∧ y.st = .faulted ∧
      y.dropped = false ∧ y.fault = some f ∧ f.code = 0x11 ∧ f.pc = (getPorter s core num).pc ∧ u.teams = s.teams) ∧
  (∀ (core num : Nat) (s : State), (getPorter s core num).st = .draining → (getPorter s core num).xfers = [] →
    (getPorter s core num).stamps = [] →
    ∃ u, Machine.exec (.porterDrainEnd core num) s = .next u ∧ getPorter u core num = Porter.idle ∧
      u.teams = s.teams ∧ u.mem = s.mem)

/-! ### Islands -/

/-- R230, R234, R252 to R254, R275, R418, R419, R447: ICTL reads the state word and the fault's address; in the handler
it runs the faulted request again or discards it, with one unit of zeros on the output port of its class. ILOAD
takes the bytes of its range as its core reads them, and a reference on its barrier, and completes later. QBIND
joins a binding to an island of its context, or starts to remove one. PASSBEGIN opens a pass of a well-formed
descriptor at a ready island, PASSSTAT reads its status word, PASSEND and RESOLVE complete later. The model's
choices in it: log entries 28, 29. -/
def Obligations.IslandInstructionsAct : Prop :=
  (∀ (c : Ctl) (d a : Code) (kind : BitVec 3) (s : State) (e : Env), Runs s (.ictlState c d a kind) e → e.act ≠ [] →
    Machine.exec (.ictlState c d a kind) s = .next (done e (writeRun e e.s d (baseRun e.kind) fun _ =>
      stateWord e.s (myIsle e kind.toNat) e.ctx (tdOwner e.s e.core e.t)))) ∧
  (∀ (c : Ctl) (d a : Code) (kind : BitVec 3) (s : State) (e : Env), Runs s (.ictlFaultAddress c d a kind) e →
    e.act ≠ [] → ∃ v, Machine.exec (.ictlFaultAddress c d a kind) s = .next (done e (writeRun e e.s d (baseRun e.kind) fun _ => v)) ∧
      ((myIsle e kind.toNat).fault = none → v = 0) ∧ ∀ f, (myIsle e kind.toNat).fault = some f → v = f.va.toNat) ∧
  (∀ (i : Instr) (c : Ctl) (d a : Code) (kind : BitVec 3) (s : State) (e : Env),
    (i = .ictlResume c d a kind ∨ i = .ictlDiscard c d a kind) → Runs s i e → e.act ≠ [] →
    (myIsle e kind.toNat).fault = none →
    Machine.exec i s = .next (done e (writeRun e e.s d (baseRun e.kind) fun _ => 1))) ∧
  (∀ (c : Ctl) (d a : Code) (kind : BitVec 3) (s : State) (e : Env) (f : IFault) (p : Option Party) (n : Nat)
    (l : List Record) (b : Binding) (cls : Nat × List Word) (g : Serve) (at' : Nat) (s1 : State)
    (units : List (List (List Word))), Runs s (.ictlResume c d a kind) e → e.act ≠ [] →
    at' = viewIdx e.s kind.toNat (isleIdx e kind.toNat) →
    (myIsle e kind.toNat).fault = some f → f.stopped = .request p n l →
    (myIsle e kind.toNat).binds.find? (fun y => y.id == f.bind) = some b → classOf (myIsle e kind.toNat) b = some cls →
    serveOf kind.toNat at' cls.1 = some g → (∀ r ∈ l, r.poison = false) →
    g (modIsle e.s kind.toNat at' fun x => { x with
      fault := none }) b p n l = .ok (s1, units) →
    Machine.exec (.ictlResume c d a kind) s = .next (done e (writeRun e
      (modIsle s1 kind.toNat at' fun x => { x with
        resps := x.resps ++ units.map fun w => ⟨b.team, p, b.id, b.cls, n, w⟩ }) d (baseRun e.kind) fun _ => 0))) ∧
  (∀ (c : Ctl) (d a : Code) (kind : BitVec 3) (s : State) (e : Env) (f : IFault) (p : Option Party) (n : Nat)
    (l : List Record) (b : Binding), Runs s (.ictlDiscard c d a kind) e → e.act ≠ [] →
    (myIsle e kind.toNat).fault = some f → f.stopped = .request p n l → (myIsle e kind.toNat).binds.find? (fun y => y.id == f.bind) = some b →
    ∃ units : List (List (List Word)), Machine.exec (.ictlDiscard c d a kind) s = .next (done e (writeRun e
      (modIsle e.s kind.toNat (viewIdx e.s kind.toNat (isleIdx e kind.toNat)) fun x => { x with
        fault := none, resps := x.resps ++ units.map fun w => ⟨b.team, p, b.id, b.cls, n, w⟩ }) d (baseRun e.kind)
          fun _ => 0)) ∧
      ((classOf (myIsle e kind.toNat) b).bind outPort = none → units = []) ∧
      ∀ w o y, (classOf (myIsle e kind.toNat) b).bind outPort = some w →
        outBinding (myIsle e kind.toNat) b.team b.cls = some o → getQueue e.s o.inst o.q = some y →
        units = [List.replicate (portUnit w) (List.replicate (qWords y.decl) 0)]) ∧
  (∀ (c : Ctl) (d a b g : Code) (kind : BitVec 3) (s : State) (e : Env) (ps : List (Nat × Nat × Phys))
    (bar : Option BarRef), Runs s (.iload c d a b g kind) e → e.act ≠ [] → hasRights e = true →
    (handle e b = 0 ∧ bar = none ∨ ∃ r x, bar = some r ∧ Holds e.s e.tm e.core (handle e b) r x ∧ x.inval = false) →
    rangePages (val e g e.low % 2 ^ 32 / 4096 + 2) e .load (val64 e a e.low) (val e g e.low % 2 ^ 32) = .ok ps →
    ∃ t l bad, Machine.exec (.iload c d a b g kind) s = .next (later e
        (match bar with
          | some r => barTake t r
          | none => t) (.iload e.s.tick kind.toNat
        (BitVec.ofNat 64 (val64 e a e.low)) (val e g e.low % 2 ^ 32) l bad none bar) [] (outKeys e d 1) 0) ∧
      (t, l, bad) = coreBytes (if e.tm.pair then drainCore e.s e.core else e.s) e.ctx e.core (val64 e a e.low)
        (val e g e.low % 2 ^ 32) ∧
      t.teams = e.s.teams ∧ t.ctxs = e.s.ctxs) ∧
  (∀ (s : State) (ctx core va n : Nat) (p : Nat → Phys),
    (∀ x ∈ sectorPieces (n / 32 + 2) va n 0, checkNow s ctx core (va + x.1) 1 .load = .ok (p x.1) ∧
      (tlbFind s ctx (va + x.1) (tlbPlaces core none)).isSome = true ∧
      simple (p x.1).pa (p x.1).key x.2 ∧ l1Find s core ((p x.1).pa / 32) = none) →
    (coreBytes s ctx core va n).2.1 = (sectorPieces (n / 32 + 2) va n 0).flatMap fun x =>
      (List.range x.2).map fun i => seenByte s core ((p x.1).pa + i)) ∧
  (∀ (c : Ctl) (d a : Code) (q : BitVec 4) (kind : BitVec 3) (slot : BitVec 4) (port : BitVec 3) (s : State) (e : Env)
    (y : Queue) (entry : BitVec 128), Runs s (.qbind c d a q kind slot port false) e → e.act ≠ [] →
    getQueue e.s e.tm.inst q.toNat = some y → qValid y.decl = true →
    (qCKind y.decl = 4 ∧ qCStage y.decl = e.tm.stage ∨ qPKind y.decl = 4 ∧ qPStage y.decl = e.tm.stage) →
    targetEntry e kind.toNat (val64 e a e.low) false = .ok entry →
    (getIsle e.s kind.toNat (isleIdx e kind.toNat)).owner = some e.ctx →
    bindStatus (getIsle e.s kind.toNat (isleIdx e kind.toNat)) e.ctx kind.toNat e.t (Tab.find (getCtx e.s e.ctx).images kind.toNat) slot.toNat
      port.toNat y.decl (qCKind y.decl == 4 && qCStage y.decl == e.tm.stage)
      (qPKind y.decl == 4 && qPStage y.decl == e.tm.stage) entry = 0 →
    ∃ (b : Binding) (f : Env) (t : State), f = entryTaken e kind.toNat (val64 e a e.low) false ∧ t = f.s ∧
      touchedOnly e.s t ∧
      Machine.exec (.qbind c d a q kind slot port false) s = .next (later f
        (modPorts { t with nextBind := t.nextBind + 1 } kind.toNat (isleIdx e kind.toNat) fun x => { x with
          binds := x.binds ++ [{ b with id := e.s.nextBind }] }) .qbind [] (outKeys e d 1) 0) ∧
      b.team = e.t ∧ b.inst = e.tm.inst ∧ b.q = q.toNat ∧ b.cls = slot.toNat ∧ b.port = port.toNat ∧ b.closing = false ∧
      b.param = BitVec.ofNat 64 (val64 e a e.low) ∧ b.entry = entry ∧
      b.core = ((getInst e.s e.tm.inst).map (·.core)).getD e.core) ∧
  (∀ (c : Ctl) (d a : Code) (q : BitVec 4) (kind : BitVec 3) (slot : BitVec 4) (port : BitVec 3) (s : State) (e : Env)
    (y : Queue) (mine : Binding → Bool), Runs s (.qbind c d a q kind slot port true) e → e.act ≠ [] →
    getQueue e.s e.tm.inst q.toNat = some y → qValid y.decl = true →
    (qCKind y.decl = 4 ∧ qCStage y.decl = e.tm.stage ∨ qPKind y.decl = 4 ∧ qPStage y.decl = e.tm.stage) →
    (∀ b, mine b = (decide (b.team = e.t ∧ b.inst = e.tm.inst ∧ b.q = q.toNat ∧ b.cls = slot.toNat ∧
      b.port = port.toNat ∧ b.closing = false))) →
    (if ∃ b ∈ (getIsle e.s kind.toNat (isleIdx e kind.toNat)).binds, mine b = true then
      Machine.exec (.qbind c d a q kind slot port true) s = .next (later e
        (modPorts e.s kind.toNat (isleIdx e kind.toNat) fun x => { x with
          binds := x.binds.map fun b => if mine b then { b with
            closing := true } else b }) .qbind [] (outKeys e d 1) 0)
    else Machine.exec (.qbind c d a q kind slot port true) s = .next (done e (writeRun e e.s d 1 fun _ => 6)))) ∧
  (∀ (c : Ctl) (d a : Code) (s t : State) (e : Env) (v : BitVec 512), Runs s (.passbegin c d a) e → e.act ≠ [] →
    passDesc e a = .ok (t, v) → (getIsle t 0 (isleIdx e 0)).pass = none → pdMalformed v = false →
    isleReady (getIsle t 0 (isleIdx e 0)) e.ctx = true →
    Machine.exec (.passbegin c d a) s = .next (done e (writeRun e
      (modIsle { t with nextBind := t.nextBind + 1 } 0 (isleIdx e 0) fun x => { x with
        pass := some (passStart t.nextBind v e.ctx) }) d (baseRun e.kind) fun _ => 0))) ∧
  (∀ (c : Ctl) (d a : Code) (s : State) (e : Env), Runs s (.passstat c d a) e → e.act ≠ [] →
    Machine.exec (.passstat c d a) s = .next (done e (writeRun e e.s d (baseRun e.kind) fun _ =>
      match (myIsle e 0).pass with
      | some p => passBits p true
      | none => (myIsle e 0).pstat.toNat))) ∧
  (∀ (c : Ctl) (d a : Code) (s : State) (e : Env) (p : Pass), Runs s (.passend c d a) e → e.act ≠ [] →
    (myIsle e 0).pass = some p → p.ctx = e.ctx →
    ∃ t, Machine.exec (.passend c d a) s = .next (later e (modIsle e.s 0 (isleIdx e 0) fun x => { x with
        pass := some { p with
          ending := some t } }) (.passend p.num) [] (outKeys e d (baseRun e.kind)) 0) ∧
      (∀ z, p.ending = some z → t = z) ∧ (p.ending = none →
        ∀ b, (∀ y ∈ (myIsle e 0).binds, y.id = b → isInput (myIsle e 0) y = false) → Tab.get t b 0 = 0)) ∧
  (∀ (c : Ctl) (d a : Code) (s : State) (e : Env), Runs s (.passend c d a) e → e.act ≠ [] →
    (∀ p, (myIsle e 0).pass = some p → p.ctx ≠ e.ctx) →
    Machine.exec (.passend c d a) s = .next (done e (writeRun e e.s d (baseRun e.kind) fun _ => 0))) ∧
  (∀ (c : Ctl) (d a : Code) (s t : State) (e : Env) (v : BitVec 512), Runs s (.resolve c d a) e → e.act ≠ [] →
    passDesc e a = .ok (t, v) → pdMalformed v = false → isleReady (getIsle t 0 (isleIdx e 0)) e.ctx = true →
    Machine.exec (.resolve c d a) s = .next (later e t (.resolve v 0 0) [] (outKeys e d (baseRun e.kind)) 0))

/-- R231, R233: the event of a class whose binding has its turn takes the next unit of one producer; a request that is
sound adds its response units after those that wait, and one that fails stops the island with its records kept.
Sampler and ray requests change no memory. R237 to R247, R257 to R271: and the answer of each class from the words
of the records: zeros, and the texel of the point filter in 2D and of a cube's face, for the samplers; the boxes
hit, in order, for RAY.BOX4 and RAY.FRUSTUM64; hit, T, u and v for RAY.TRI; the bytes of the blended pixel; the
records of the tiles that a triangle reaches; what a line within a pixel adds to a path, and the units of a path
that ends. The model's choices in it: log entries 7, 28, 29, 30, 31, 32. -/
def Obligations.RequestsAreServed : Prop :=
  (∀ (s s1 : State) (i : Instr) (kind idx : Nat) (f : Serve) (y : Binding) (p : Option Party) (recs : List Record)
    (units : List (List (List Word))), Serves s i kind idx f y p recs →
    f (requested s kind idx y p) y p (requestNo s kind idx) recs = .ok (s1, units) →
    ∃ u, Machine.exec i s = .next u ∧ sameButIslands s1 u ∧ (getIsle u kind idx).fault = (getIsle s1 kind idx).fault ∧
      (getIsle u kind idx).resps = (getIsle s1 kind idx).resps ++
        units.map (fun w => ⟨y.team, p, y.id, y.cls, requestNo s kind idx, w⟩) ∧
      (kind = 1 ∨ kind = 2 → u.mem = s.mem)) ∧
  (∀ (s : State) (i : Instr) (kind idx : Nat) (f : Serve) (y : Binding) (p : Option Party) (recs : List Record)
    (code : Byte) (cause va at' : Nat), Serves s i kind idx f y p recs →
    f (requested s kind idx y p) y p (requestNo s kind idx) recs = .error (code, cause, va) →
    at' = (if kind = 3 then blendSlice (requested s kind idx y p)
      (((getIsle (requested s kind idx y p) kind idx).owner).getD 0) va else idx) →
    ∃ u, Machine.exec i s = .next u ∧ sameButIslands (requested s kind idx y p) u ∧
      (getIsle u kind idx).resps = (getIsle s kind idx).resps ∧
      (getIsle u kind at').fault = some ⟨code, cause, y.port, BitVec.ofNat 64 va, y.id, y.cls, y.team, y.core, false,
        .request p (requestNo s kind idx) recs⟩) ∧
  ClassesAnswer

/-- R228, R229, R230, R231, R233: verification that fails ends the oldest ILOAD with its status; an image that is
loading is then held; a response that may be delivered leaves the island; a fault is raised once, in the handler of
its core. The model's choices in it: log entries 7, 28. -/
def Obligations.IslandEventsAct : Prop :=
  (∀ (ctx : Nat) (s : State) (p : Party) (o : Op) (seq kind : Nat) (base : DWord) (len : Nat) (l : List Byte) (bad : Bool)
    (n : Nat), oldestIload s ctx = some (p, o) → o.kind = .iload seq kind base len l bad none none →
    n = imageStatus kind base.toNat len l bad (Tab.find (getCtx s ctx).images kind) → n ≠ 0 →
    Machine.exec (.iloadComplete ctx) s = .next (modCom (putRegs s p (o.dst.map fun d =>
      (d.1, n / 2 ^ ((if kindOf p = .group then 32 else 64) * d.2.2) % 2 ^ (if kindOf p = .group then 32 else 64)))) p
        fun c => endOp c o)) ∧
  (∀ (ctx : Nat) (s : State) (p : Party) (o : Op) (seq kind : Nat) (base : DWord) (len : Nat) (l : List Byte),
    oldestIload s ctx = some (p, o) → o.kind = .iload seq kind base len l false none none →
    Tab.find (getCtx s ctx).images kind = none →
    ∃ u, Machine.exec (.iloadComplete ctx) s = .next u ∧
      (s.Inv → ∀ a, a < forceReg s ctx 0x330 ∨ forceReg s ctx 0x330 + forceReg s ctx 0x338 ≤ a →
        cellGet u.mem a = cellGet s.mem a) ∧ (imageStatus kind base.toNat len l false none = 0 →
      Tab.find (getCtx u ctx).images kind = some (imageOf l) ∧
      ∀ idx, (getIsle s kind idx).owner = some ctx → (getIsle s kind idx).image = none → (kind, idx) ∈ allIsles s →
        (getIsle s kind idx).loading = none → kind ≤ 3 → (getIsle u kind idx).loading = some (imageOf l))) ∧
  (∀ (kind idx : Nat) (s : State) (i : Image), (getIsle s kind idx).loading = some i →
    Machine.exec (.islandLoad kind idx) s = .next (setIsle s kind idx { getIsle s kind idx with
      image := some i, loading := none })) ∧
  (∀ (kind idx i : Nat) (s : State) (r : Response) (o b : Binding) (z : Queue),
    deliverable s kind idx = [(i, r)] → outBinding (getIsle s kind idx) r.team r.cls = some o →
    (getIsle s kind idx).binds.find? (fun y => y.id == r.inB) = some b → getQueue s o.inst o.q = some z →
    z.cclosed = false →
    ∃ u y, Machine.exec (.islandResponseDeliver kind idx) s = .next u ∧
      (getIsle u kind idx).resps = (getIsle s kind idx).resps.eraseIdx i ∧ getQueue u o.inst o.q = some y ∧
      ∃ new, y.recs = z.recs ++ new ∧ new.map (·.words) = r.words.map (fitWords (qWords z.decl)) ∧ ∀ x ∈ new, x.vis = false ∧ x.tag = none) ∧
  (∀ (kind idx : Nat) (s : State) (f : IFault), kind ≤ 3 → (getIsle s kind idx).fault = some f → f.raised = false →
    ∃ u x, Machine.exec (.islandFault kind idx) s = .next u ∧ (getIsle u kind idx).fault = some { f with
        raised := true } ∧ getCore u f.core = { getCore s f.core with
        traps := (getCore s f.core).traps ++ [x] } ∧ x.src = .island kind idx ∧ x.team = f.team ∧ x.info.code = 0x21 ∧
      x.info.va = f.va ∧ x.info.detail.toNat = f.code.toNat * 2 ^ 24 + f.cause % 16 * 2 ^ 20 + f.port % 16 * 2 ^ 16 +
        kind * 2 ^ 12 ∧ u.mem = s.mem)

/-! ### The host, the launch unit and the HKC -/

/-- R26, R140, R276, R284, R285, R298, R312 to R315: a write of a register of the host's pages changes that register as
its fields say and no other: LQWR and LQCFG, the budgets, the deadline word, TLBINV, SCOWN, ECCCNT, the clock limit.
LQCFG of a running queue waits until its queue is empty, be it by a write of LQWR; its reserved bits read as zero. A
malformed or overrun queue raises the queue error vector. TLB_INVALIDATION_DONE drops exactly the translations
named. TRAPACT ends the oldest escalation. While the device is not READY nothing is taken. The model's choices in
it: log entry 41. -/
def Obligations.HostRegistersAct : Prop :=
  (∀ (c q : Nat) (v : Word) (s : State), s.ready = true → c < 96 → q < 8 →
    ∃ t, Machine.exec (.lqwrWrite c q v) s = .next t ∧ pageReg t c (16 * q + 8) = v.setWidth 64 ∧ t.mem = s.mem ∧
      t.teams = s.teams ∧
      if Tab.find (getCtx s c).lqNext q = none ∨ inRing s c q v.toNat ≠ 0 then
        otherPages s t c (16 * q + 8) ∧ t.ctxs = s.ctxs ∧
        t.msix = s.msix ++ (if cfgEn (lqCfg s c q) = true ∧ cfgValid (lqCfg s c q) = true ∧ q ∉ (getCtx s c).lqErr ∧
          2 ^ (lqCfg s c q % 16) < inRing s c q v.toNat then [ctxVector s c 1] else [])
      else ∀ w, Tab.find (getCtx s c).lqNext q = some w → Tab.find (getCtx t c).lqNext q = none ∧
        pageReg t c (16 * q) = w &&& 0x0001FFFFFFFFFF9F#64 ∧
        (∀ d o, d * 0x10000 + o ≠ c * 0x10000 + 16 * q → d * 0x10000 + o ≠ c * 0x10000 + (16 * q + 8) →
          pageReg t d o = pageReg s d o) ∧
        t.msix = s.msix ++ (if cfgEn w.toNat = true ∧ cfgValid w.toNat = false ∧ q ∉ (getCtx s c).lqErr then
          [ctxVector s c 1] else [])) ∧
  (∀ (c q : Nat) (v : DWord) (s : State), s.ready = true → c < 96 → q < 8 →
    (if cfgEn (lqCfg s c q) = true ∧ cfgValid (lqCfg s c q) = true ∧ q ∉ (getCtx s c).lqErr ∧
        inRing s c q (lqWr s c q) ≠ 0 then
      ∃ t, Machine.exec (.lqcfgWrite c q v) s = .next t ∧ t.page = s.page ∧ t.msix = s.msix ∧
        Tab.find (getCtx t c).lqNext q = some v
    else
      ∃ t, Machine.exec (.lqcfgWrite c q v) s = .next t ∧ pageReg t c (16 * q) = v &&& 0x0001FFFFFFFFFF9F#64 ∧
        otherPages s t c (16 * q) ∧
        Tab.find (getCtx t c).lqNext q = none ∧ t.mem = s.mem ∧
        t.msix = s.msix ++ (if cfgEn v.toNat = true ∧
          (cfgValid v.toNat = false ∧ q ∉ (getCtx s c).lqErr ∨ cfgValid v.toNat = true ∧
            2 ^ (v.toNat % 16) < inRing s c q (lqWr s c q)) then [ctxVector s c 1] else []))) ∧
  (∀ (off : Nat) (v : DWord) (s : State), s.ready = true → off = 0x20 ∨ off = 0x28 ∨ off = 0x108 ∨
      (0x1000 ≤ off ∧ off < 0x1400 ∧ off % 2 = 0) ∨ (0x1400 ≤ off ∧ off < 0x1410) →
    ∃ t, Machine.exec (.registerWrite .pf off v) s = .next t ∧ otherDev s t off ∧ { t with
        dev := s.dev } = s ∧
      (devReg t off).toNat = if off = 0x20 then max 250 (min 420 (v.toNat % 512)) else if off = 0x28 then 0
        else if off = 0x108 then v.toNat / 64 % 2 ^ 40 * 64 else if off < 0x1400 then v.toNat % 2 ^ 16
        else v.toNat % 16) ∧
  (∀ (bar : Bar0) (place : Nat) (v : DWord) (s : State),
    s.ready = false ∨ (bar = .pf ∧ (place ∈ [0x0, 0x8, 0x10, 0x18, 0x110] ∨ 0x700000 ≤ place)) ∨
      (∃ n, bar = .vf n ∧ (0x10000 ≤ place ∨ n = 0 ∨ s.vfs < n)) ∨
      (∃ c off, atPage s bar place c off ∧
        (off < 0x80 ∧ off % 16 = 12 ∨ off ∈ [0x388, 0x340, 0x348, 0x350, 0x358, 0x360, 0x368])) →
    Machine.exec (.registerWrite bar place v) s = .next s) ∧
  (∀ (bar : Bar0) (place c off : Nat) (v : DWord) (s : State), s.ready = true → atPage s bar place c off → 0x100 ≤ off →
    off < 0x120 → off % 8 = 0 →
    ∃ t, Machine.exec (.registerWrite bar place v) s = .next t ∧ (pageReg t c off).toNat = v.toNat % 2 ^ 24 ∧
      otherPages s t c off ∧ { t with
        page := s.page } = s) ∧
  (∀ (p : Nat) (v : Byte) (s : State), s.ready = true → p < 16 →
    ∃ t, Machine.exec (.scownWrite p v) s = .next t ∧ devReg t (0x1410 + p) = v.setWidth 64 ∧ otherDev s t (0x1410 + p) ∧
      (∀ l, l ∈ t.sc ↔ l ∈ s.sc ∧ (l.part ≠ p ∨ scOwner t p = scOwner s p)) ∧ { t with
        dev := s.dev, sc := s.sc } = s) ∧
  (∀ s : State, s.ready = true → ∃ t, Machine.exec .ecccntClear s = .next t ∧ devReg t 0x28 = 0 ∧ otherDev s t 0x28 ∧
    { t with
      dev := s.dev } = s) ∧
  (∀ (c : Nat) (v : DWord) (s : State), s.ready = true → c < 96 → (getCtx s c).st ≠ 0 → (getCtx s c).tlbinv = none →
    ∃ t w, Machine.exec (.tlbinvWrite c v) s = .next t ∧ pageReg t c 0x308 = w ∧ otherPages s t c 0x308 ∧
      w.toNat = v.toNat / 2 ^ 62 * 2 ^ 62 + v.toNat / 2 ^ 12 % 2 ^ 37 * 2 ^ 12 + v.toNat % 4 ∧
      (getCtx t c).tlbinv = (if v.toNat / 2 ^ 63 = 1 then some w else none) ∧ t.tlb = s.tlb ∧ t.mem = s.mem) ∧
  (∀ (c : Nat) (w : DWord) (s : State), (getCtx s c).tlbinv = some w →
    ∃ t, Machine.exec (.tlbInvalidationDone c) s = .next t ∧ (getCtx t c).tlbinv = none ∧
      (pageReg t c 0x308).toNat = w.toNat % 2 ^ 63 ∧ (∀ e, e ∈ t.tlb ↔ e ∈ s.tlb ∧ ¬ (e.ctx = c ∧ NamedBy w.toNat e.vpn e.lg)) ∧
      (∀ e, e ∈ t.walks ↔ e ∈ s.walks ∧ ¬ (e.ctx = c ∧ NamedBy w.toNat e.vpn 12)) ∧ t.mem = s.mem ∧ t.teams = s.teams) ∧
  (∀ (c core : Nat) (v : DWord) (s : State) (p : Party) (x : TrapEntry) (w : Word) (r : List Escalation) (m : Common),
    s.ready = true → c < 96 → (getCtx s c).st ≠ 0 → v.toNat % 4 = 0 → v.toNat.testBit 8 = true →
    (getCtx s c).escalations = ⟨core, x, w, false⟩ :: r → x.src = .party p → getCom s p = some m → m.defer = none →
    (m.st = .trapped ∨ m.st = .escalated) → m.late = false →
    (x.info.code = tcBound → (∀ o ∈ m.ops, o.poisoned = false) ∧ ∀ t, getTeam s x.team = some t → t.preempt = false) →
    ∃ t n, Machine.exec (.trapactWrite c v) s = .next t ∧ (getCtx t c).escalations = r ∧ getCom t p = some n ∧
      n.st = .running ∧ n.wcount = (if m.tcode = 0x16 then 0 else m.wcount) ∧ n.ops = m.ops ∧ t.mem = s.mem) ∧
  (∀ (c : Nat) (v : DWord) (s : State) (x : Nat) (e : Escalation) (y : Team) (r : List Escalation), s.ready = true → c < 96 →
    (getCtx s c).st ≠ 0 → v.toNat % 4 = 2 → v.toNat.testBit 8 = true → (getCtx s c).escalations = e :: r →
    e.handler = false → e.trap.team = x → getTeam s x = some y →
    ∃ t z, Machine.exec (.trapactWrite c v) s = .next t ∧ (getCtx t c).escalations = r ∧ getTeam t x = some z ∧
      z.killed = true ∧ z.lead.com.st = .exited ∧ ∀ g ∈ z.groups, g.2.com.st = .exited) ∧
  (∀ (c : Nat) (v : DWord) (s : State) (e : Escalation) (r : List Escalation), s.ready = true → c < 96 →
    (getCtx s c).st ≠ 0 → v.toNat % 4 ≠ 3 → v.toNat.testBit 8 = true → (getCtx s c).escalations = e :: r → e.handler = true →
    (∀ y, getTeam s (Config.handlerBase + e.core) = some y → y.ctx ≠ c) →
    ∃ t, Machine.exec (.trapactWrite c v) s = .next t ∧ (getCtx t c).escalations = r ∧ t.teams = s.teams ∧ t.mem = s.mem) ∧
  (∀ (c : Nat) (v : Word) (s : State), s.ready = true → c < 96 →
    ∃ t, Machine.exec (.deadlineApproach c v) s = .next t ∧ otherPages s t c 0x200 ∧
      (pageReg t c 0x200).toNat = v.toNat % 128 +
        (if (pageReg s c 0x200).toNat.testBit 8 = true ∨ v.toNat.testBit 8 = true then 256 else 0) ∧
      ((pageReg t c 0x200).toNat < 256 → { t with
        page := s.page } = s) ∧
      (256 ≤ (pageReg t c 0x200).toNat → (getCtx s c).reserve = none → displayHead s c = none →
        (getCtx s c).reserved = [] → (getCtx t c).reserved.length ≤ v.toNat % 128 ∧
          ∀ k ∈ (getCtx t c).reserved, k < 80 ∧ (∀ d, d ≠ c → k ∉ (getCtx s d).reserved) ∧
            ∀ o x n y, tenancyOf s k = some (o, x) → launchPrio x ≠ 0 → getTeam t n = some y → isHandler n = false →
              teamOn y k = true → y.preempt = true))

/-- R144, R147, R165, R282, R287, R309, R310, R312, R316, R317, R325, R326: a core reset kills the core's teams, empties
the core and restarts its count; a device reset leaves nothing but memory of system space; a VF's reset frees its
context; bring-up makes the device READY when its firmware is good. BAR2 and CXL.mem store the bytes that lie below
MEMCAP and read what the slices hold; a host atomic replaces its location and returns the old value. The other
events change the one thing they name. The model's choices in it: log entries 6, 42, 46. -/
def Obligations.DeviceEventsAct : Prop :=
  (∀ (core : Nat) (s : State), s.ready = true → core < 80 →
    ∃ t x, Machine.exec (.coreReset core) s = .next t ∧ getCore t core = x ∧ x.cycle = 0 ∧ x.ptest = 0 ∧ x.traps = [] ∧
      x.pool = [] ∧ x.me = [] ∧ x.serving = none ∧ x.p0 = Porter.idle ∧ x.p1 = Porter.idle ∧
      getTeam t (Config.handlerBase + core) = none ∧ t.mem = s.mem ∧
      ∀ n y, getTeam s n = some y → isHandler n = false → teamOn y core = true →
        ∃ z, getTeam t n = some z ∧ z.killed = true ∧ z.lead.com.st = .exited) ∧
  (∀ s : State, ∃ t, Machine.exec .deviceReset s = .next t ∧ t.ready = false ∧ t.teams = [] ∧ t.insts = [] ∧
    t.launches = [] ∧ t.cores = [] ∧ t.ctxs = [] ∧ t.slots = [] ∧ t.dev = [] ∧ t.page = [] ∧ t.tlb = [] ∧ t.icache = [] ∧
    t.l1 = [] ∧ t.wb = [] ∧ t.sc = [] ∧ t.command = none ∧ t.vfs = 0 ∧ ∀ x ∈ t.mem, isSys x.1 = true) ∧
  (∀ (vf : Nat) (s : State), 0 < vf → vf ≤ s.vfs → (getCtx s (64 + vf)).st ≠ 0 →
    ∃ t, Machine.exec (.vfFunctionLevelReset vf) s = .next t ∧ getCtx t (64 + vf) = Context.free ∧
      (∀ k ∈ t.slots, k.2 ≠ 64 + vf) ∧ (∀ off, off < 0x10000 → pageReg t (64 + vf) off = 0) ∧
      ∀ n y, getTeam t n = some y → isHandler n = false → y.ctx ≠ 64 + vf) ∧
  (∀ s : State, s.ready = false → ∃ t, Machine.exec .hkcBringupComplete s = .next t ∧
    (Config.firmwareOk s.boots = false → t = s) ∧
    (Config.firmwareOk s.boots = true → t.ready = true ∧ devReg t 0x10 = BitVec.ofNat 64 Config.memCap ∧
      (∃ k, k < 3 ∧ (devReg t 0x10).toNat = 128000000000 * 2 ^ k) ∧
      devReg t 0x18 = Config.errata s.boots ∧
      (devReg t 0x8).toNat = 1 + (if Config.kduOk s.boots = true then 2 else 0) + (if Config.trng s.tick = none then 0 else 4) ∧
      { t with
        dev := s.dev, ready := s.ready } = s)) ∧
  (∀ (i : Instr) (pa n : Nat) (l d : List Byte) (s : State),
    (i = .bar2Write pa l ∨ i = .hostCxlMemAccess pa n (.write d) ∧ l = d.take n) → s.ready = true → memCap s ≤ 2 ^ 45 →
    ∃ t, Machine.exec i s = .next t ∧ BytesStored s t pa (l.take (memCap s - pa)) ∧ t.teams = s.teams) ∧
  (∀ (i : Instr) (pa n : Nat) (s : State), (i = .bar2Read pa n ∨ i = .hostCxlMemAccess pa n .read) → s.ready = true →
    ∃ l b, Machine.exec i s = .next { s with
        hostRead := some (l, b) } ∧ l.length = n ∧
      (∀ k, k < n → pa + k < memCap s → l.getD k 0 = cellGet s.mem (pa + k)) ∧
      (b = true ↔ ∃ k, k < n ∧ pa + k < memCap s ∧ (pa + k) / 32 ∈ s.poison)) ∧
  (∀ (pa n : Nat) (op : BitVec 4) (data cmp : DWord) (s : State), s.ready = true → memCap s ≤ 2 ^ 45 →
    (n = 4 ∨ n = 8) → (op.toNat ≤ 9 ∨ op = 10 ∧ n = 4) → pa % n = 0 → pa + n ≤ memCap s → pa / 32 ∉ s.poison → atomicQueue s pa = [] →
    ∃ t, Machine.exec (.hostCxlMemAccess pa n (.atomic op data cmp)) s = .next t ∧ t.teams = s.teams ∧
      t.hostRead = some (cellsGet s.mem pa n, false) ∧
      BytesStored s t pa (bytesOf n (atomicNew op.toNat (8 * n) (ofBytes (cellsGet s.mem pa n)) (data.toNat % 2 ^ (8 * n))
        (cmp.toNat % 2 ^ (8 * n))))) ∧
  (∀ (pa : Nat) (s : State), isSys pa = true → ∃ t, Machine.exec (.systemSpaceRefusal pa) s = .next t ∧
    (∀ k, k ∈ t.refused ↔ k = pa / 32 ∨ k ∈ s.refused) ∧ { t with
      refused := s.refused } = s) ∧
  (∀ (n : Nat) (s : State), s.ready = true → n ≤ 31 → Machine.exec (.vfEnable n) s = .next { s with
    vfs := n }) ∧
  (∀ (mc : Nat) (s : State), mc < 32 → ∃ t, Machine.exec (.bandwidthWindowEnd mc) s = .next t ∧
    (∀ c, c < 96 → Tab.get t.bwLast (mc * 128 + c) 0 = (if (getCtx s c).st = 0 then 0 else
      min 655360 (Tab.get s.bwNow (mc * 128 + c) 0))) ∧
    (∀ k, (∀ c, c < 96 → k ≠ mc * 128 + c) → Tab.get t.bwLast k 0 = Tab.get s.bwLast k 0) ∧
    (∀ k, Tab.get t.bwNow k 0 = if k / 128 = mc then 0 else Tab.get s.bwNow k 0) ∧ { t with
      bwLast := s.bwLast, bwNow := s.bwNow } = s) ∧
  (∀ (cores : List Nat) (s : State), (∀ c ∈ cores, c < 80) → revokeOrder s cores = true →
    ∃ t, Machine.exec (.powerAlarmRaise cores) s = .next t ∧ t.alarm = true ∧
      (∀ k, getCore t k = { getCore s k with
        narrow := (getCore s k).narrow || cores.contains k }) ∧ { t with
      alarm := s.alarm, cores := s.cores } = s) ∧
  (∀ s : State, ∃ t, Machine.exec .powerAlarmLower s = .next t ∧ t.alarm = false ∧
    (∀ k, getCore t k = { getCore s k with
      narrow := false }) ∧ { t with
    alarm := s.alarm, cores := s.cores } = s)

/-- R311, R312, R319 to R322, R324 to R326: a command in the wrong state of its context answers 1 and does nothing;
CREATE and IMPORT without a key root answer 2. CREATE takes the lowest free key slots and a fresh salt and makes the
context ACTIVE; RESET makes it FREE; ATTEST writes a report that begins with the nonce; ABORT makes an EXPORTED
context ACTIVE with fresh slots. The end of a command writes CTXSTAT, clears the busy bit and raises the PF vector 1
and the context's command vector. The model's choices in it: log entries 20, 38. -/
def Obligations.ContextCommandsAct : Prop :=
  (∀ (i : Instr) (code c : Nat) (s : State) (x : Command), commandOf i = some (code, c) → Asked s code c x →
    x.begun = false → asksState code (getCtx s c).st = false → (code = 1 ∨ code = 5 → kduGood s = true) →
    Machine.exec i s = .next (answer s x 1)) ∧
  (∀ (i : Instr) (code c : Nat) (s : State) (x : Command), commandOf i = some (code, c) → Asked s code c x →
    (code = 1 ∨ code = 5) → kduGood s = false → Machine.exec i s = .next (answer s x 2)) ∧
  (∀ (c : Nat) (s : State) (x : Command) (l : List Byte) (sl : List Nat), Asked s 1 c x → (getCtx s c).st = 0 →
    physRead s x.arg 9 = some l → argNum l 8 1 ≤ 4 → kduGood s = true → freeSlots s (argNum l 8 1) = some sl →
    ∃ t y, Machine.exec (.ctxCreate c) s = .next t ∧ getCtx t c = y ∧ t.mem = s.mem ∧
      (Config.trng s.tick = none → t.command = some { x with
        result := some 2 } ∧ t.ctxs = s.ctxs ∧ t.slots = s.slots) ∧
      ∀ salt, Config.trng s.tick = some salt → t.command = some { x with
          result := some 0 } ∧ y.st = 1 ∧ y.tenant = BitVec.ofNat 64 (argNum l 0 8) ∧ y.salt = salt ∧ y.period = 0 ∧
        y.slots = sl ∧ y.images = [] ∧ y.escalations = [] ∧ (∀ n ∈ sl, Tab.find t.slots n = some c) ∧
        ∀ n, n ∉ sl → Tab.find t.slots n = Tab.find s.slots n) ∧
  (∀ (c : Nat) (s : State) (x : Command), Asked s 2 c x → (getCtx s c).st ≠ 0 →
    ∃ t, Machine.exec (.ctxReset c) s = .next t ∧ t.command = some { x with
        result := some 0 } ∧ getCtx t c = Context.free ∧ (∀ k ∈ t.slots, k.2 ≠ c) ∧
      (∀ off, off < 0x10000 → pageReg t c off = 0) ∧ (∀ k ∈ t.tlb, k.ctx ≠ c) ∧
      ∀ n y, getTeam t n = some y → isHandler n = false → y.ctx ≠ c) ∧
  (∀ (c : Nat) (s : State) (x : Command) (l : List Byte) (n : Nat), Asked s 3 c x → physRead s x.arg 44 = some l →
    192 ≤ argNum l 40 4 → n = (if 384 ≤ argNum l 40 4 then 384 else 192) → argNum l 32 8 + n ≤ memCap s → memCap s ≤ 2 ^ 45 →
    ∃ t, Machine.exec (.ctxAttest c) s = .next t ∧ t.command = some { x with
        result := some 0 } ∧ t.ctxs = s.ctxs ∧
      (∀ k, k < 32 → cellGet t.mem (argNum l 32 8 + k) = l.getD k 0) ∧
      ofBytes (cellsGet t.mem (argNum l 32 8 + 80) 8) = (getCtx s c).tenant.toNat ∧
      ∀ a, a < argNum l 32 8 ∨ argNum l 32 8 + n ≤ a → cellGet t.mem a = cellGet s.mem a) ∧
  (∀ (c : Nat) (s : State) (x : Command) (l : List Byte), Asked s 3 c x → physRead s x.arg 44 = some l →
    argNum l 40 4 < 192 → Machine.exec (.ctxAttest c) s = .next (answer s x 4)) ∧
  (∀ (c : Nat) (s : State) (x : Command) (sl : List Nat), Asked s 8 c x → (getCtx s c).st = 2 →
    freeSlots s (getCtx s c).nkeys = some sl →
    ∃ t, Machine.exec (.ctxAbort c) s = .next t ∧ t.command = some { x with
        result := some 0 } ∧ getCtx t c = { getCtx s c with
        st := 1, slots := sl, nkeys := sl.length } ∧ (∀ n ∈ sl, Tab.find t.slots n = some c) ∧
      (∀ n, n ∉ sl → Tab.find t.slots n = Tab.find s.slots n) ∧ t.mem = s.mem) ∧
  (∀ (s : State) (x : Command) (n : Nat), s.command = some x → x.result = some n →
    ∃ t, Machine.exec .ctxCommandComplete s = .next t ∧ t.command = none ∧
      devReg t 0x110 = BitVec.ofNat 64 (256 + n) ∧ devReg t 0x8 = devReg s 0x8 &&& 0xFFFFFFFFFFFFFFF7#64 ∧
      t.msix = s.msix ++ [(0, 1)] ++ (if x.ctx < 96 then [ctxVector s x.ctx 3] else []) ∧ t.mem = s.mem ∧ t.ctxs = s.ctxs)

/-- R323, R324, R327 to R331: EXPORT first asks every team of the context to stop, waits for their saves, then writes
the image, header and sealed pages, where it was asked to, or answers 4 with nothing changed; the exported context
holds no key. IMPORT makes a context of the image, ACTIVE if this device made it, else IMPORTED. CONFIRM and RELEASE
act on a good signature and answer 5 otherwise. KESLOAD uses a valid entry as it stands, or writes a new one with
its header, and writes its 64-byte result; else it answers another status with nothing changed. The model's choices
in it: log entries 20, 21, 39, 40. -/
def Obligations.ContextsMoveAndLoad : Prop :=
  (∀ (c : Nat) (s : State) (x : Command) (l : List Byte), Asked s 4 c x → x.begun = false → (getCtx s c).st = 1 →
    physRead s x.arg 88 = some l →
    ∃ t, Machine.exec (.ctxExport c) s = .next t ∧ t.command = some { x with
        begun := true } ∧ { t with
        command := s.command, teams := s.teams } = s ∧
      ∀ n, getTeam t n = (getTeam s n).map fun y =>
        if isHandler n = false ∧ y.resident = true ∧ y.ctx = c then { y with
          preempt := true } else y) ∧
  (∀ (c : Nat) (s : State) (x : Command), Asked s 4 c x → x.begun = true → residentTeams s c ≠ [] →
    (∀ y ∈ residentTeams s c, y.2.preempt = true) → Machine.exec (.ctxExport c) s = .next s) ∧
  (∀ (c : Nat) (s : State) (x : Command) (l : List Byte), Asked s 4 c x → x.begun = true → residentTeams s c = [] →
    physRead s x.arg 88 = some l →
    ∃ t n, Machine.exec (.ctxExport c) s = .next t ∧ t.command = some { x with
        result := some n } ∧ (n = 4 ∧ t = answer s x 4 ∨ n = 0 ∧ (getCtx t c).st = 2 ∧ (getCtx t c).slots = [] ∧
        (getCtx t c).peer = BitVec.ofNat 512 (argNum l 0 64) ∧ (∀ k ∈ t.slots, k.2 ≠ c) ∧ ∃ e, t.exports = e :: s.exports ∧
          e.dest = BitVec.ofNat 512 (argNum l 0 64) ∧ e.tenant = (getCtx s c).tenant ∧
          (getCtx t c).hash = digestOf e.header)) ∧
  (∀ (c : Nat) (s : State) (x : Command) (l r b : List Byte) (dest : BitVec 512) (rs : List (Nat × Nat))
    (ps : List (List Byte × Nat × Nat)), Asked s 4 c x → x.begun = true → residentTeams s c = [] →
    physRead s x.arg 88 = some l → physRead s (argNum l 64 8) 4096 = some r → Config.rangeList r = some rs →
    exportPages s c rs = some ps → dest = BitVec.ofNat 512 (argNum l 0 64) → b = imageBytes s c dest rs ps →
    (imageHead s c dest rs).length % 32 = 0 → b.length ≤ argNum l 80 8 → argNum l 72 8 + b.length ≤ memCap s →
    memCap s ≤ 2 ^ 45 →
    ∃ t, Machine.exec (.ctxExport c) s = .next t ∧ t.command = some { x with
        result := some 0 } ∧ BytesStored s t (argNum l 72 8) b ∧ (getCtx t c).st = 2 ∧ (getCtx t c).slots = [] ∧
      (getCtx t c).peer = dest ∧ (getCtx t c).hash = digestOf (imageHead s c dest rs) ∧ (∀ k ∈ t.slots, k.2 ≠ c) ∧
      ∃ e, t.exports = e :: s.exports ∧ e.header = imageHead s c dest rs ∧ e.dest = dest ∧
        e.tenant = (getCtx s c).tenant ∧ e.nkeys = (getCtx s c).slots.length ∧ e.pages = ps.map fun y => (y.2.1, y.2.2)) ∧
  (∀ (c : Nat) (s : State) (x : Command) (l : List Byte) (e : Exported) (sl : List Nat), Asked s 5 c x →
    (getCtx s c).st = 0 → physRead s x.arg 16 = some l → kduGood s = true → imageAt s (argNum l 0 8) = some e →
    freeSlots s e.nkeys = some sl →
    ∃ t y n, Machine.exec (.ctxImport c) s = .next t ∧ getCtx t c = y ∧ t.command = some { x with
        result := some n } ∧
      (Config.trng s.tick = none → n = 2 ∧ t.ctxs = s.ctxs) ∧
      ∀ salt, Config.trng s.tick = some salt → (n = 4 ∧ t = answer s x 4 ∨ n = 0 ∧
          y.st = (if e.source = Config.sm2Public atstKey then 1 else 3) ∧ y.tenant = e.tenant ∧ y.period = e.period ∧ y.salt = salt ∧
          y.slots = sl ∧ y.peer = e.source ∧ (∀ k ∈ sl, Tab.find t.slots k = some c)) ∧
        (e.pages = [] → physOk s (argNum l 8 8) 64 = true → n = 0)) ∧
  (∀ (c : Nat) (s : State) (x : Command) (l sig : List Byte), Asked s 6 c x → (getCtx s c).st = 2 →
    physRead s x.arg 16 = some l → physRead s (argNum l 0 8) 64 = some sig → physOk s (argNum l 8 8) 64 = true →
    ∃ t, Machine.exec (.ctxConfirm c) s = .next t ∧
      if Config.sm2Verify (getCtx s c).peer (getCtx s c).hash (BitVec.ofNat 512 (ofBytes sig)) = true then
        t.command = some { x with
          result := some 0 } ∧ getCtx t c = Context.free ∧ (∀ k ∈ t.slots, k.2 ≠ c) ∧
          ∀ n y, getTeam t n = some y → isHandler n = false → y.ctx ≠ c
      else t = answer s x 5) ∧
  (∀ (c : Nat) (s : State) (x : Command) (l sig : List Byte), Asked s 7 c x → (getCtx s c).st = 3 →
    physRead s x.arg 8 = some l → physRead s (argNum l 0 8) 64 = some sig →
    ∃ t, Machine.exec (.ctxRelease c) s = .next t ∧
      if Config.sm2Verify (getCtx s c).peer (releaseDigest (getCtx s c).hash) (BitVec.ofNat 512 (ofBytes sig)) = true then
        t.command = some { x with
          result := some 0 } ∧ getCtx t c = { getCtx s c with
          st := 1 } ∧ t.slots = s.slots ∧ t.mem = s.mem
      else t = answer s x 5) ∧
  (∀ (c : Nat) (s : State) (x : Command) (a : List Byte), Asked s 9 c x → (getCtx s c).st = 1 →
    physRead s x.arg 40 = some a →
    ∃ t n, Machine.exec (.kesload c) s = .next t ∧ t.command = some { x with
        result := some n } ∧ (n = 4 ∨ n = 6 → ∃ u, touchedOnly s u ∧ t = answer u x n) ∧ (n = 0 ∨ n = 4 ∨ n = 6) ∧
      (kesArgsBad a = true → n = 4) ∧
      (∀ h, kesArgsBad a = false → kesRead s c (argNum a 0 8) 16 = some h →
        (kesKernels h = none ∨ ∃ k, kesKernels h = some k ∧ k ≤ argNum a 8 2) → n = 6) ∧
      (∀ img, kesArgsBad a = false → kesImage s c a = .ok img → argNum a 10 1 < 3 → kesDeclared img (argNum a 8 2) < 3 →
        argNum a 10 1 ≠ kesDeclared img (argNum a 8 2) → n = 4) ∧
      (n = 0 → ∃ s0 s1 s2 l img j off, touchedOnly s s0 ∧ kesWrite s1 c (argNum a 32 8) l = some s2 ∧ t = answer s2 x 0 ∧
        l.length = 64 ∧ Loads s c x a img j ∧ argNum l 0 8 = (argNum a 16 8 + off) % 2 ^ 64 ∧
        (s1 = s0 ∨ ∃ b, kesWrite s0 c (argNum a 16 8 + off) b = some s1))) ∧
  (∀ (c : Nat) (s u : State) (x : Command) (a img : List Byte) (j : KesJob), Loads s c x a img j → u = kesTaken s c a →
    touchedOnly s u ∧
    j.img = img ∧ j.kernel = argNum a 8 2 ∧ j.errata = devReg s 0x18 ∧ (argNum a 10 1 < 3 → j.width = argNum a 10 1) ∧
    (argNum a 10 1 = 3 → kesDeclared img j.kernel < 3 → j.width = kesDeclared img j.kernel) ∧
    (∀ k, k < j.entry.regions → (kesRegion img j.entry k).modes.testBit (kesMode j k) = true ∧
      (if kesMode j k = 1 then ∃ m, 1 ≤ m ∧ m ≤ 4 ∧ kesItems j k = 2 ^ m else kesItems j k = 1)) ∧
    (∀ ch stop e r s1, walkArea u c a j = some (ch, stop, some e) → kesReuse u c (argNum a 16 8) j e = some r →
      kesWrite u c (argNum a 32 8) r = some s1 →
      Machine.exec (.kesload c) s = .next (answer s1 x 0) ∧ validEntry s c j e = true ∧
        ResultSays r (argNum a 16 8 + e.off) (argNum e.head 56 4) (argNum e.head 60 4)
          (if argNum e.head 60 4 = 0 then 0 else j.entry.portLen) j.width 1) ∧
    (∀ ch stop off len ends b r s1 s2, walkArea u c a j = some (ch, stop, none) → (kesPlan j).len ≤ argNum a 24 4 →
      kesPlace ch stop (argNum a 24 4) (kesPlan j).len (kesSame (getCtx s c).tenant (sm3 img) j.kernel j.width) =
        (off, len, ends) →
      b = kesEntry (getCtx s c) j (argNum a 24 4) off len ends → r = kesFresh (argNum a 16 8 + off) j →
      kesWrite u c (argNum a 16 8 + off) b = some s1 → kesWrite s1 c (argNum a 32 8) r = some s2 →
      Machine.exec (.kesload c) s = .next (answer s2 x 0) ∧ EntrySays b s c j len ∧
        ResultSays r (argNum a 16 8 + off) (kesPlan j).head (kesPort j) j.entry.portLen j.width 0 ∧
        (r.drop 32).take 16 = (kesTemplate img j.kernel ++ List.replicate 16 0).take 16) ∧
    (∀ ch stop, walkArea u c a j = some (ch, stop, none) → argNum a 24 4 < (kesPlan j).len →
      Machine.exec (.kesload c) s = .next (answer u x 4)))

/-- R33, R45, R48, R98, R163, R169, R277 to R283: a published packet becomes the head of its queue, and is rejected with
its CODE and REASON or waits for its tokens; an admission step places the next team of the launch whose turn it is,
unless its budget's bandwidth or power forbids it; a team starts once its cores are ready; it retires into its
launch's counts with its stamp; and the launch ends with its CODE, its STATUS and its vector. The model's choices in
it: log entries 33, 34. -/
def Obligations.LaunchesRunAndEnd : Prop :=
  (∀ (c q : Nat) (s : State), packetDue s c q = true →
    ∃ t x, Machine.exec (.packetBecomesHead c q) s = .next t ∧ getLaunch t s.nextLaunch = some x ∧
      t.nextLaunch = s.nextLaunch + 1 ∧ x.ctx = c ∧ x.queue = q ∧ x.index = lqRd s c q ∧
      x.va = lqCfg s c q / 2 ^ 7 % 2 ^ 42 * 128 + 128 * (lqRd s c q % 2 ^ (lqCfg s c q % 16)) ∧ x.placed = 0 ∧
      x.retired = 0 ∧ x.ended = false ∧ Tab.find (getCtx t c).last q = some s.nextLaunch ∧
      (x.code = 0 ∨ x.code = 2 ∨ x.code = 3) ∧
      (∀ l, unitBytesAt s c x.va 128 = some l → x.packet = BitVec.ofNat 1024 (ofBytes l)) ∧
      (unitBytesAt s c x.va 128 = none → x.code = 2 ∧ x.reason = 9) ∧
      (∀ l r, unitBytesAt s c x.va 128 = some l → r ∈ pkReserved → pkt x r.1 r.2 ≠ 0 → x.code = 2 ∧ x.reason = 1) ∧
      (if x.code = 0 then Tab.find (getCtx t c).heads q = some s.nextLaunch ∧ t.page = s.page
      else Tab.find (getCtx t c).heads q = none ∧
        (pageReg t c (16 * q + 12)).toNat = (lqRd s c q + 1) % 2 ^ 32)) ∧
  (∀ (l : Nat) (s : State) (x : Launch) (ts : List Nat), getLaunch s l = some x → x.code = 0 → x.released = false →
    (pkWaits x).map (fun w => tokenAt s x.ctx w.2.1) = ts.map some →
    ∃ t b, Machine.exec (.tokenReread l) s = .next t ∧ getLaunch t l = some { x with
        tokenErr := false, released := b } ∧
      (b = true ↔ ∀ y ∈ (pkWaits x).zip ts, y.1.2.2 ≤ y.2) ∧ touchedOnly s { t with
        launches := s.launches }) ∧
  (∀ (l : Nat) (s : State) (x : Launch) (r : List (Nat × Launch)), turns s = (l, x) :: r → getLaunch s l = some x →
    x.code = 0 → (getCtx s x.ctx).st = 1 → exporting s x.ctx = false → launchCores x = false → savedItems s l = [] →
    freshItems s l x ≠ [] → (launchPipe x = true → (freshItems s l x).length = launchTotal x - x.placed) →
    budgetCores s x ≠ 0 → (placeHomes s l x .fresh).isSome = true →
    ∃ t, Machine.exec .admissionStep s = .next t ∧ t.mem = s.mem ∧ (budgetHolds s x = false →
      ∃ y, getLaunch t l = some y ∧ y.placed = x.placed + stageCount x ∧ Tab.get t.servedCtx (launchPrio x) 95 = x.ctx ∧
        Tab.get t.servedQ x.ctx 7 = x.queue ∧
        ∀ j, j < stageCount x → ∃ z, getTeam t (s.nextTeam + j) = some z ∧ z.launch = l ∧ z.inst = s.nextInst ∧
          z.stage = j ∧ z.idx = (if launchPipe x = true then j else x.placed) ∧ z.ctx = x.ctx ∧ z.width = pkWidth x ∧
          z.resident = true ∧ z.started = false ∧ z.killed = false ∧ z.lead.pc = BitVec.ofNat 64 (stLead x j) ∧
          (∀ g, (Tab.find z.groups g).isSome = true ↔ g < stInit x j) ∧
          (getCore t z.core).tenant = some (x.ctx, l))) ∧
  (∀ s : State, (∀ x ∈ turns s, tryLaunch s x.1 x.2 = none) → Machine.exec .admissionStep s = .next s) ∧
  (∀ (core : Nat) (s : State), (getCore s core).zeroing = true →
    Machine.exec (.contextZeroingDone core) s = .next (setCore s core { getCore s core with
      zeroing := false })) ∧
  (∀ (core c : Nat) (s : State) (x : Launch), tenancyOf s core = some (c, x) → (getCore s core).copying = true →
    ∃ t y, Machine.exec (.porterSectionCopyDone core) s = .next t ∧ getCore t core = y ∧ y.copying = false ∧ y.zeroing =
        (getCore s core).zeroing ∧ t.mem = s.mem ∧ t.teams = s.teams ∧
      (∀ i, (core, i) ∈ t.badStore ↔ 64 * i < pkPortLen x ∧ (sectionLine s x i).2.2 = true) ∧
      ∀ i, Tab.get y.pstore i 0 = if 64 * i < pkPortLen x then (sectionLine s x i).1 else 0) ∧
  (∀ (t : Nat) (s : State) (x : Team), getTeam s t = some x → x.started = false → x.resident = true →
    (∀ c ∈ teamCores x, (getCore s c).zeroing = false ∧ (getCore s c).copying = false) →
    (∀ o ∈ teamOps x, ∀ c d a b off m cond, o.instr ≠ .monw c d a b off m cond) →
    ∃ u, Machine.exec (.teamStart t) s = .next u ∧ getTeam u t = some { x with
        started := true } ∧ (getLaunch s x.launch = none → { u with
        teams := s.teams } = s)) ∧
  (∀ (id : Nat) (s : State) (t : Team) (x : Launch), getTeam s id = some t → mayRetire s id t = true →
    getLaunch s t.launch = some x →
    ∃ u y d, Machine.exec (.teamRetirement id) s = .next u ∧ getTeam u id = none ∧ getLaunch u t.launch = some y ∧
      y.retired = x.retired + 1 ∧ y.killed = x.killed + (if t.killed = true then 1 else 0) ∧
      (∀ n, n ∈ y.published ↔ n = t.idx ∨ n ∈ x.published) ∧ (∀ v ∈ u.saves, v.team ≠ id) ∧
      d = (teamCores t).foldl drainCore s ∧
      u.mem = (if pkEvtarr x = 0 ∨ x.ended = true then d else unitWriteAt d x.ctx (pkEvtarr x + 8 * t.idx) (bytesOf 8
        (2 ^ 63 + (if t.killed = true then 2 ^ 62 else 0) + x.queue * 2 ^ 40 + x.index % 2 ^ 32))).mem) ∧
  (∀ (l : Nat) (s : State) (x : Launch) (k : Nat), getLaunch s l = some x → x.ended = false →
    (x.code ≠ 0 ∧ k = x.code ∨ x.code = 0 ∧ x.placed = 0 ∧ producerFailed s x = true ∧ k = 4 ∨
      x.code = 0 ∧ ¬ (x.placed = 0 ∧ producerFailed s x = true) ∧ x.retired = launchTotal x ∧ k = 1) →
    ∃ u y s1, Machine.exec (.launchEnd l) s = .next u ∧ getLaunch u l = some y ∧ y.ended = true ∧ y.code = k ∧
      y.reason = x.reason ∧ y.killed = x.killed ∧ u.teams = s.teams ∧ s1.mem = s.mem ∧ s1.tlb = s.tlb ∧ s1.dev = s.dev ∧
      u.mem = (unitWriteAt (if k = 1 then signalToken s1 y else s1) x.ctx (x.va + 120)
        (bytesOf 8 (min x.killed 0xFFFF * 2 ^ 48 + (if k = 2 then x.reason else 0) * 2 ^ 8 + k))).mem ∧
      (pkIrq x = true → ctxVector s x.ctx 0 ∈ u.msix))

/-- R63, R65, R218, R286, R301 to R305, R314: a team whose parties have all stopped is saved with its whole instance and
leaves its cores; where the save area cannot hold it, it runs on and the error vector is raised. An interval in
which the instance was not wholly resident moves no group; otherwise the idle group that stands last in the lowest
partition goes from the donor, and a fresh group of the recipient starts in its slot. The model's choices in it: log
entries 35, 37. -/
def Obligations.TeamsAreSavedAndRebalanced : Prop :=
  (∀ (id : Nat) (s : State) (t : Team), getTeam s id = some t → isHandler id = false → t.preempt = true →
    (∀ x ∈ instTeams s t.inst, teamHalted s x.1 x.2 = true) →
    2654208 * max 1 (maxOf ((upto 0 4).map fun b => (pageReg s t.ctx (0x100 + 8 * b)).toNat % 256) 0) ≤ forceReg s t.ctx 0x328 →
    ∃ u, Machine.exec (.teamSave id) s = .next u ∧ u.launches = s.launches ∧
      ∀ k x, getTeam s k = some x → isHandler k = false → x.inst = t.inst →
        (∃ v ∈ u.saves, v.team = k ∧ v.ctx = x.ctx ∧ v.launch = x.launch ∧ v.bytes ≤ 2654208 * (teamCores x).length) ∧
        ∃ y, getTeam u k = some y ∧ y.resident = false ∧ y.preempt = false ∧ y.started = false ∧ y.launch = x.launch ∧
          y.idx = x.idx ∧ y.groups.map (·.1) = x.groups.map (·.1) ∧
          (x.region = none → (∀ o ∈ teamOps x, o.poisoned = false) → y.lead = x.lead ∧ y.win0 = x.win0 ∧ y.win1 = x.win1 ∧
            y.groups = x.groups.map fun g => (g.1, match g.2.live with
              | none => g.2
              | some m => { maskWindow g.2 x.alloc m with
                  live := none })) ∧
          (x.region = none → y.win0 = x.win0 ∧ y.win1 = x.win1 ∧
            (y.lead.com.late = true ↔ x.lead.com.late = true ∨ ∃ o ∈ x.lead.com.ops, o.poisoned = true))) ∧
  (∀ (id : Nat) (s : State) (t : Team), getTeam s id = some t → isHandler id = false → t.preempt = true →
    (∀ x ∈ instTeams s t.inst, teamHalted s x.1 x.2 = true) → forceReg s t.ctx 0x328 < 4096 →
    (∀ x ∈ instTeams s t.inst, ∀ o ∈ teamOps x.2, ∀ c d a b off m cond, o.instr ≠ .monw c d a b off m cond) →
    ∃ u, Machine.exec (.teamSave id) s = .next u ∧ u.msix = s.msix ++ [ctxVector s t.ctx 1] ∧ u.saves = s.saves ∧
      u.mem = s.mem ∧ ∃ y, getTeam u id = some y ∧ y.preempt = false ∧ y.resident = t.resident ∧
        y.lead.com.st ≠ .stopped ∧ ∀ g ∈ y.groups, g.2.com.st ≠ .stopped) ∧
  (∀ (inst : Nat) (s : State) (x : Instance), getInst s inst = some x →
    ∃ u y, Machine.exec (.rebalanceInterval inst) s = .next u ∧ getInst u inst = some y ∧ y.queues = x.queues ∧
      (y.resident = true ↔ instTeams s inst ≠ [] ∧ ∀ t ∈ instTeams s inst, t.2.resident = true) ∧
      (∀ q, q ∈ y.qseen ↔ (∃ z ∈ x.queues, z.1 = q) ∧ visibleIn x q ≠ 0) ∧ u.mem = s.mem ∧
      (x.resident = false ∨ (∃ t ∈ instTeams s inst, t.2.resident = false ∨ t.2.preempt = true) ∨
        (∀ d ∈ x.stages, donor s x d.2 = false) ∨ (∀ d ∈ x.stages, recipient s x d.2 = false) → u.teams = s.teams)) ∧
  (∀ (inst n p : Nat) (s : State) (x : Instance) (d r : Stage) (g : Group) (a b : Team), getInst s inst = some x →
    x.pair = false → x.resident = true → instTeams s inst ≠ [] →
    (∀ t ∈ instTeams s inst, t.2.resident = true ∧ t.2.preempt = false) →
    (x.stages.map (·.2)).find? (donor s x) = some d → (x.stages.map (·.2)).find? (recipient s x) = some r →
    d.team ≠ r.team → getTeam s d.team = some a → getTeam s r.team = some b → a.groups.length = d.gmin + 1 →
    b.groups.length < r.gmax → (∃ k, k < 32 ∧ Tab.find b.groups k = none) → p < 8 →
    (a.groups.filter fun y => y.2.core == x.core && y.2.part == p && idleAt s d.team y.1 a.ctx (d.inq.getD 0) y.2).getLast? = some (n, g) →
    (∀ y ∈ a.groups, y.2.core = x.core → y.2.part < p → idleAt s d.team y.1 a.ctx (d.inq.getD 0) y.2 = false) →
    ∃ u y z k h, Machine.exec (.rebalanceInterval inst) s = .next u ∧ getTeam u d.team = some y ∧
      y.groups = Tab.del a.groups n ∧ y.lead = a.lead ∧ getTeam u r.team = some z ∧ Tab.find b.groups k = none ∧ k < 32 ∧
      z.groups = Tab.set b.groups k h ∧ h.core = x.core ∧ h.part = p ∧ h.slot = g.slot ∧ h.com = Common.start ∧
      h.rd = b.wr ∧ h.thr.length = b.width ∧ (∀ l ∈ h.thr, l.pc = r.grpEntry ∧ l.live = true))

/-! ### Rules of the spec, stated whole -/

/-- R396. -/
def Obligations.ClzCountsLeadingZeros : Prop :=
  OneSourceForm 0x01B .clz ∧
  ∀ (c : Ctl) (d a : Code) (s : State) (e : Env), Issues s (.clz c d a) c (oneSource d a) e →
    ∃ f, Machine.exec (.clz c d a) s = .next (done e (writeOut e e.s d f)) ∧ ∀ l,
      (val e a l = 0 → f l = e.w) ∧
      (∀ k, (val e a l).testBit k = true → (∀ j, k < j → (val e a l).testBit j = false) → f l = e.w - 1 - k) ∧
      (e.kind = .group → (val e a l = 0x1000 → f l = 19) ∧ (val e a l = 0 → f l = 32)) ∧
      (e.kind = .lead → (val e a l = 0x1000 → f l = 51) ∧ (val e a l = 0 → f l = 64))

/-- R439. -/
def Obligations.PopcCountsOneBits : Prop :=
  OneSourceForm 0x01A .popc ∧
  ∀ (c : Ctl) (d a : Code) (s : State) (e : Env), Issues s (.popc c d a) c (oneSource d a) e →
    ∃ f, Machine.exec (.popc c d a) s = .next (done e (writeOut e e.s d f)) ∧ ∀ l,
      f l = ((List.range e.w).filter fun k => (val e a l).testBit k).length ∧
      (e.kind = .group → val e a l = 0xF0F0_0001 → f l = 9) ∧
      (e.kind = .lead → val e a l = 0xFFFF_FFFF_FFFF_FFFF → f l = 64)

/-- R386. -/
def Obligations.BrevReversesTheBits : Prop :=
  OneSourceForm 0x01C .brev ∧
  ∀ (c : Ctl) (d a : Code) (s : State) (e : Env), Issues s (.brev c d a) c (oneSource d a) e →
    ∃ f, Machine.exec (.brev c d a) s = .next (done e (writeOut e e.s d f)) ∧ ∀ l,
      f l < 2 ^ e.w ∧ (∀ k, k < e.w → (f l).testBit k = (val e a l).testBit (e.w - 1 - k)) ∧
      (e.kind = .group ∧ e.w = 32 ∨ e.kind ≠ .group ∧ e.w = 64) ∧
      (e.kind = .group → val e a l = 1 → f l = 0x8000_0000)

/-- R414. -/
def Obligations.IabsIsTheMagnitude : Prop :=
  OneSourceForm 0x009 .iabs ∧
  ∀ (c : Ctl) (d a : Code) (s : State) (e : Env), Issues s (.iabs c d a) c (oneSource d a) e →
    ∃ f, Machine.exec (.iabs c d a) s = .next (done e (writeOut e e.s d f)) ∧ ∀ l,
      f l = (if 2 ^ (e.w - 1) ≤ val e a l then 2 ^ e.w - val e a l else val e a l) ∧
      (val e a l = 2 ^ (e.w - 1) → f l = val e a l)

end
end

