-- ==== Sys2Proof/Laws/Tab.lean ====
section
/-! SUPPORT. The laws of sparse tables and of memory cells: read after write, and the canonical form kept by every
write. -/

namespace Sys2Proof.Machine

/-! ### Finding -/

theorem Tab.find_set_same {α : Type} (t : Tab α) (k : Nat) (x : α) : Tab.find (Tab.set t k x) k = some x := by
  induction t with
  | nil => simp [Tab.set, Tab.find]
  | cons c r ih =>
    obtain ⟨i, y⟩ := c
    simp only [Tab.set]
    split
    · simp [Tab.find]
    · split
      · simp [Tab.find]
      · rename_i h1 h2
        simp [Tab.find, ih, Ne.symm h2]

theorem Tab.find_set_other {α : Type} (t : Tab α) (k j : Nat) (x : α) (h : j ≠ k) :
    Tab.find (Tab.set t k x) j = Tab.find t j := by
  induction t with
  | nil => simp [Tab.set, Tab.find, h.symm]
  | cons c r ih =>
    obtain ⟨i, y⟩ := c
    simp only [Tab.set]
    split
    · simp [Tab.find, h.symm]
    · split
      · rename_i h2
        subst h2
        simp [Tab.find, h.symm]
      · simp [Tab.find, ih]

theorem Tab.find_del_other {α : Type} (t : Tab α) (k j : Nat) (h : j ≠ k) : Tab.find (Tab.del t k) j = Tab.find t j := by
  induction t with
  | nil => rfl
  | cons c r ih =>
    obtain ⟨i, y⟩ := c
    simp only [Tab.del]
    split
    · rename_i e
      subst e
      simp [Tab.find, h.symm, ih]
    · simp [Tab.find, ih]

/-! ### Order -/

/-- Every key of a table is above `k`. -/
def Tab.above {α : Type} (t : Tab α) (k : Nat) : Prop := ∀ c ∈ t, k < c.1

theorem Tab.sorted_cons {α : Type} (i : Nat) (y : α) (r : Tab α) :
    Tab.sorted ((i, y) :: r) = true ↔ Tab.above r i ∧ Tab.sorted r = true := by
  induction r generalizing i y with
  | nil => simp [Tab.sorted, Tab.above]
  | cons c r ih =>
    obtain ⟨j, z⟩ := c
    have hj := ih j z
    rw [Tab.sorted]
    simp only [Bool.and_eq_true, decide_eq_true_eq]
    constructor
    · rintro ⟨h1, h2⟩
      refine ⟨?_, h2⟩
      intro c hc
      rcases List.mem_cons.1 hc with rfl | hc
      · exact h1
      · exact Nat.lt_trans h1 ((hj.1 h2).1 c hc)
    · rintro ⟨h1, h2⟩
      exact ⟨h1 (j, z) (List.mem_cons_self ..), h2⟩

theorem Tab.above_set {α : Type} (t : Tab α) (k j : Nat) (x : α) (h : Tab.above t j) (hk : j < k) :
    Tab.above (Tab.set t k x) j := by
  induction t with
  | nil => intro c hc; simp [Tab.set] at hc; subst hc; exact hk
  | cons c r ih =>
    obtain ⟨i, y⟩ := c
    have hi : j < i := h (i, y) (List.mem_cons_self ..)
    have hr : Tab.above r j := fun c hc => h c (List.mem_cons_of_mem _ hc)
    simp only [Tab.set]
    split
    · intro c hc
      rcases List.mem_cons.1 hc with rfl | hc
      · exact hk
      · exact h c hc
    · split
      · intro c hc
        rcases List.mem_cons.1 hc with rfl | hc
        · exact hk
        · exact hr c hc
      · intro c hc
        rcases List.mem_cons.1 hc with rfl | hc
        · exact hi
        · exact ih hr c hc

theorem Tab.above_del {α : Type} (t : Tab α) (k j : Nat) (h : Tab.above t j) : Tab.above (Tab.del t k) j := by
  induction t with
  | nil => exact h
  | cons c r ih =>
    obtain ⟨i, y⟩ := c
    have hr : Tab.above r j := fun c hc => h c (List.mem_cons_of_mem _ hc)
    simp only [Tab.del]
    split
    · exact ih hr
    · intro c hc
      rcases List.mem_cons.1 hc with rfl | hc
      · exact h (i, y) (List.mem_cons_self ..)
      · exact ih hr c hc

/-- Setting an entry keeps the order of the keys. -/
theorem Tab.sorted_set {α : Type} (t : Tab α) (k : Nat) (x : α) (h : Tab.sorted t = true) :
    Tab.sorted (Tab.set t k x) = true := by
  induction t with
  | nil => simp [Tab.set, Tab.sorted]
  | cons c r ih =>
    obtain ⟨i, y⟩ := c
    obtain ⟨ha, hr⟩ := (Tab.sorted_cons i y r).1 h
    simp only [Tab.set]
    split
    · rename_i hk
      refine (Tab.sorted_cons ..).2 ⟨?_, h⟩
      intro c hc
      rcases List.mem_cons.1 hc with rfl | hc
      · exact hk
      · exact Nat.lt_trans hk (ha c hc)
    · split
      · rename_i hk
        subst hk
        exact (Tab.sorted_cons ..).2 ⟨ha, hr⟩
      · rename_i h1 h2
        exact (Tab.sorted_cons ..).2 ⟨Tab.above_set r k i x ha (by omega), ih hr⟩

/-- Dropping an entry keeps the order of the keys. -/
theorem Tab.sorted_del {α : Type} (t : Tab α) (k : Nat) (h : Tab.sorted t = true) : Tab.sorted (Tab.del t k) = true := by
  induction t with
  | nil => exact h
  | cons c r ih =>
    obtain ⟨i, y⟩ := c
    obtain ⟨ha, hr⟩ := (Tab.sorted_cons i y r).1 h
    simp only [Tab.del]
    split
    · exact ih hr
    · exact (Tab.sorted_cons ..).2 ⟨Tab.above_del r k i ha, ih hr⟩

theorem Tab.sorted_filter {α : Type} (t : Tab α) (f : Nat × α → Bool) (h : Tab.sorted t = true) :
    Tab.sorted (t.filter f : Tab α) = true := by
  induction t with
  | nil => exact h
  | cons c r ih =>
    obtain ⟨i, y⟩ := c
    obtain ⟨ha, hr⟩ := (Tab.sorted_cons i y r).1 h
    rw [List.filter_cons]
    split
    · exact (Tab.sorted_cons ..).2 ⟨fun c hc => ha c ((List.mem_filter.1 hc).1), ih hr⟩
    · exact ih hr

/-- In a sorted table, nothing is found below the keys. -/
theorem Tab.find_above {α : Type} (t : Tab α) (k : Nat) (h : Tab.above t k) : Tab.find t k = none := by
  induction t with
  | nil => rfl
  | cons c r ih =>
    obtain ⟨i, y⟩ := c
    have hi : k < i := h (i, y) (List.mem_cons_self ..)
    simp [Tab.find, ih fun c hc => h c (List.mem_cons_of_mem _ hc), Nat.ne_of_gt hi]

theorem Tab.find_del_same {α : Type} (t : Tab α) (k : Nat) : Tab.find (Tab.del t k) k = none := by
  induction t with
  | nil => rfl
  | cons c r ih =>
    obtain ⟨i, y⟩ := c
    simp only [Tab.del]
    split
    · exact ih
    · rename_i e
      simp [Tab.find, ih, Ne.symm e]

/-! ### Entries with a default -/

@[simp] theorem Tab.get_set_same {α : Type} (t : Tab α) (k : Nat) (x d : α) : Tab.get (Tab.set t k x) k d = x := by
  simp [Tab.get, Tab.find_set_same]

theorem Tab.get_set_other {α : Type} (t : Tab α) (k j : Nat) (x d : α) (h : j ≠ k) :
    Tab.get (Tab.set t k x) j d = Tab.get t j d := by simp [Tab.get, Tab.find_set_other t k j x h]

theorem Tab.get_put_other {α : Type} [DecidableEq α] (t : Tab α) (k j : Nat) (x d e : α) (h : j ≠ k) :
    Tab.get (Tab.put t k x d) j e = Tab.get t j e := by
  unfold Tab.put
  split
  · simp [Tab.get, Tab.find_del_other t k j h]
  · exact Tab.get_set_other t k j x e h

theorem Tab.get_put_same {α : Type} [DecidableEq α] (t : Tab α) (k : Nat) (x d : α) :
    Tab.get (Tab.put t k x d) k d = x := by
  unfold Tab.put
  split
  · rename_i e
    simp [Tab.get, Tab.find_del_same t k, e]
  · simp

theorem Tab.sorted_put {α : Type} [DecidableEq α] (t : Tab α) (k : Nat) (x d : α) (h : Tab.sorted t = true) :
    Tab.sorted (Tab.put t k x d) = true := by
  unfold Tab.put
  split
  · exact Tab.sorted_del t k h
  · exact Tab.sorted_set t k x h

theorem Tab.mem_set {α : Type} (t : Tab α) (k : Nat) (x : α) (c : Nat × α) (h : c ∈ Tab.set t k x) : c = (k, x) ∨ c ∈ t := by
  induction t with
  | nil => exact .inl (by simpa [Tab.set] using h)
  | cons e r ih =>
    obtain ⟨i, y⟩ := e
    simp only [Tab.set] at h
    split at h
    · rcases List.mem_cons.1 h with h | h
      · exact .inl h
      · exact .inr h
    · split at h
      · rcases List.mem_cons.1 h with h | h
        · exact .inl h
        · exact .inr (List.mem_cons_of_mem _ h)
      · rcases List.mem_cons.1 h with h | h
        · exact .inr (h ▸ List.mem_cons_self ..)
        · exact (ih h).imp id (List.mem_cons_of_mem _)

theorem Tab.mem_del {α : Type} (t : Tab α) (k : Nat) (c : Nat × α) (h : c ∈ Tab.del t k) : c ∈ t := by
  induction t with
  | nil => exact h
  | cons e r ih =>
    obtain ⟨i, y⟩ := e
    simp only [Tab.del] at h
    split at h
    · exact List.mem_cons_of_mem _ (ih h)
    · rcases List.mem_cons.1 h with h | h
      · exact h ▸ List.mem_cons_self ..
      · exact List.mem_cons_of_mem _ (ih h)

/-! ### Memory cells -/

theorem Memory.wf_iff (m : List Host.Cell) : Memory.wf m = true ↔ Tab.sorted m = true ∧ ∀ c ∈ m, c.2 ≠ 0 := by
  simp [Memory.wf, List.all_eq_true]

/-- One byte written keeps the canonical form. -/
@[simp] theorem cellPut_wf (m : List Host.Cell) (a : Nat) (b : Byte) (h : Memory.wf m = true) :
    Memory.wf (cellPut m a b) = true := by
  rw [Memory.wf_iff] at *
  refine ⟨Tab.sorted_put m a b 0 h.1, ?_⟩
  intro c hc
  unfold cellPut Tab.put at hc
  split at hc
  · exact h.2 c (Tab.mem_del m a c hc)
  · rename_i hb
    rcases Tab.mem_set m a b c hc with rfl | hc
    · exact hb
    · exact h.2 c hc

/-- Bytes written keep the canonical form. -/
@[simp] theorem cellsPut_wf (m : List Host.Cell) (a : Nat) (l : List Byte) (h : Memory.wf m = true) :
    Memory.wf (cellsPut m a l) = true := by
  induction l generalizing m a with
  | nil => exact h
  | cons b r ih => exact ih _ _ (cellPut_wf m a b h)

/-- Keeping only some cells keeps the canonical form. -/
@[simp] theorem filter_wf (m : List Host.Cell) (f : Host.Cell → Bool) (h : Memory.wf m = true) :
    Memory.wf (m.filter f) = true := by
  rw [Memory.wf_iff] at *
  exact ⟨Tab.sorted_filter m f h.1, fun c hc => h.2 c ((List.mem_filter.1 hc).1)⟩

/-- A byte read after it was written is the byte written. -/
theorem cellGet_cellPut_same (m : List Host.Cell) (a : Nat) (b : Byte) :
    cellGet (cellPut m a b) a = b := Tab.get_put_same m a b 0

/-- Writing one byte leaves every other byte alone. -/
theorem cellGet_cellPut_other (m : List Host.Cell) (a x : Nat) (b : Byte) (h : x ≠ a) :
    cellGet (cellPut m a b) x = cellGet m x := Tab.get_put_other m a x b 0 0 h

/-- Writing bytes leaves every byte outside them alone. -/
theorem cellGet_cellsPut_other (m : List Host.Cell) (a x : Nat) (l : List Byte) (h : x < a ∨ a + l.length ≤ x) :
    cellGet (cellsPut m a l) x = cellGet m x := by
  induction l generalizing m a with
  | nil => rfl
  | cons b r ih =>
    simp only [List.length_cons] at h
    rw [cellsPut, ih _ _ (by omega), cellGet_cellPut_other m a x b (by omega)]

/-- A byte read from bytes written is the byte written there. -/
theorem cellGet_cellsPut_same (m : List Host.Cell) (a i : Nat) (l : List Byte) (hi : i < l.length) :
    cellGet (cellsPut m a l) (a + i) = l.getD i 0 := by
  induction l generalizing m a i with
  | nil => simp at hi
  | cons b r ih =>
    rw [cellsPut]
    cases i with
    | zero =>
      change cellGet (cellsPut (cellPut m a b) (a + 1) r) a = b
      rw [cellGet_cellsPut_other _ (a + 1) a r (.inl (by omega)), cellGet_cellPut_same m a b]
    | succ i =>
      have := ih (cellPut m a b) (a + 1) i (by simpa using hi)
      rw [show a + (i + 1) = a + 1 + i by omega, this]
      rfl

end Sys2Proof.Machine
end

