-- ==== Sys2Proof/Laws/State.lean ====
section
/-! SUPPORT. What each update of the state leaves alone, one lemma per field, and what it sets. -/

namespace Sys2Proof.Machine

/-! ### `setCore` changes only `cores` -/

@[simp] theorem setCore_agenda (s : State) (c : Nat) (x : Core) : (setCore s c x).agenda = s.agenda := rfl
@[simp] theorem setCore_tick (s : State) (c : Nat) (x : Core) : (setCore s c x).tick = s.tick := rfl
@[simp] theorem setCore_turn (s : State) (c : Nat) (x : Core) : (setCore s c x).turn = s.turn := rfl
@[simp] theorem setCore_lw (s : State) (c : Nat) (x : Core) : (setCore s c x).lw = s.lw := rfl
@[simp] theorem setCore_teams (s : State) (c : Nat) (x : Core) : (setCore s c x).teams = s.teams := rfl
@[simp] theorem setCore_insts (s : State) (c : Nat) (x : Core) : (setCore s c x).insts = s.insts := rfl
@[simp] theorem setCore_nextTeam (s : State) (c : Nat) (x : Core) : (setCore s c x).nextTeam = s.nextTeam := rfl
@[simp] theorem setCore_nextInst (s : State) (c : Nat) (x : Core) : (setCore s c x).nextInst = s.nextInst := rfl
@[simp] theorem setCore_nextBind (s : State) (c : Nat) (x : Core) : (setCore s c x).nextBind = s.nextBind := rfl
@[simp] theorem setCore_launches (s : State) (c : Nat) (x : Core) : (setCore s c x).launches = s.launches := rfl
@[simp] theorem setCore_nextLaunch (s : State) (c : Nat) (x : Core) : (setCore s c x).nextLaunch = s.nextLaunch := rfl
@[simp] theorem setCore_saves (s : State) (c : Nat) (x : Core) : (setCore s c x).saves = s.saves := rfl
@[simp] theorem setCore_mem (s : State) (c : Nat) (x : Core) : (setCore s c x).mem = s.mem := rfl
@[simp] theorem setCore_poison (s : State) (c : Nat) (x : Core) : (setCore s c x).poison = s.poison := rfl
@[simp] theorem setCore_wb (s : State) (c : Nat) (x : Core) : (setCore s c x).wb = s.wb := rfl
@[simp] theorem setCore_l1 (s : State) (c : Nat) (x : Core) : (setCore s c x).l1 = s.l1 := rfl
@[simp] theorem setCore_sc (s : State) (c : Nat) (x : Core) : (setCore s c x).sc = s.sc := rfl
@[simp] theorem setCore_fills (s : State) (c : Nat) (x : Core) : (setCore s c x).fills = s.fills := rfl
@[simp] theorem setCore_tlb (s : State) (c : Nat) (x : Core) : (setCore s c x).tlb = s.tlb := rfl
@[simp] theorem setCore_walks (s : State) (c : Nat) (x : Core) : (setCore s c x).walks = s.walks := rfl
@[simp] theorem setCore_icache (s : State) (c : Nat) (x : Core) : (setCore s c x).icache = s.icache := rfl
@[simp] theorem setCore_fbuf (s : State) (c : Nat) (x : Core) : (setCore s c x).fbuf = s.fbuf := rfl
@[simp] theorem setCore_want (s : State) (c : Nat) (x : Core) : (setCore s c x).want = s.want := rfl
@[simp] theorem setCore_scFences (s : State) (c : Nat) (x : Core) : (setCore s c x).scFences = s.scFences := rfl
@[simp] theorem setCore_seen (s : State) (c : Nat) (x : Core) : (setCore s c x).seen = s.seen := rfl
@[simp] theorem setCore_badStore (s : State) (c : Nat) (x : Core) : (setCore s c x).badStore = s.badStore := rfl
@[simp] theorem setCore_refused (s : State) (c : Nat) (x : Core) : (setCore s c x).refused = s.refused := rfl
@[simp] theorem setCore_raster (s : State) (c : Nat) (x : Core) : (setCore s c x).raster = s.raster := rfl
@[simp] theorem setCore_sampler (s : State) (c : Nat) (x : Core) : (setCore s c x).sampler = s.sampler := rfl
@[simp] theorem setCore_ray (s : State) (c : Nat) (x : Core) : (setCore s c x).ray = s.ray := rfl
@[simp] theorem setCore_blend (s : State) (c : Nat) (x : Core) : (setCore s c x).blend = s.blend := rfl
@[simp] theorem setCore_dev (s : State) (c : Nat) (x : Core) : (setCore s c x).dev = s.dev := rfl
@[simp] theorem setCore_page (s : State) (c : Nat) (x : Core) : (setCore s c x).page = s.page := rfl
@[simp] theorem setCore_ctxs (s : State) (c : Nat) (x : Core) : (setCore s c x).ctxs = s.ctxs := rfl
@[simp] theorem setCore_command (s : State) (c : Nat) (x : Core) : (setCore s c x).command = s.command := rfl
@[simp] theorem setCore_msix (s : State) (c : Nat) (x : Core) : (setCore s c x).msix = s.msix := rfl
@[simp] theorem setCore_vfs (s : State) (c : Nat) (x : Core) : (setCore s c x).vfs = s.vfs := rfl
@[simp] theorem setCore_alarm (s : State) (c : Nat) (x : Core) : (setCore s c x).alarm = s.alarm := rfl
@[simp] theorem setCore_slots (s : State) (c : Nat) (x : Core) : (setCore s c x).slots = s.slots := rfl
@[simp] theorem setCore_bwLast (s : State) (c : Nat) (x : Core) : (setCore s c x).bwLast = s.bwLast := rfl
@[simp] theorem setCore_bwNow (s : State) (c : Nat) (x : Core) : (setCore s c x).bwNow = s.bwNow := rfl
@[simp] theorem setCore_servedCtx (s : State) (c : Nat) (x : Core) : (setCore s c x).servedCtx = s.servedCtx := rfl
@[simp] theorem setCore_servedQ (s : State) (c : Nat) (x : Core) : (setCore s c x).servedQ = s.servedQ := rfl
@[simp] theorem setCore_ready (s : State) (c : Nat) (x : Core) : (setCore s c x).ready = s.ready := rfl
@[simp] theorem setCore_boots (s : State) (c : Nat) (x : Core) : (setCore s c x).boots = s.boots := rfl
@[simp] theorem setCore_exports (s : State) (c : Nat) (x : Core) : (setCore s c x).exports = s.exports := rfl
@[simp] theorem setCore_hostRead (s : State) (c : Nat) (x : Core) : (setCore s c x).hostRead = s.hostRead := rfl

/-! ### `modCore` changes only `cores` -/

@[simp] theorem modCore_agenda (s : State) (c : Nat) (f : Core → Core) : (modCore s c f).agenda = s.agenda := rfl
@[simp] theorem modCore_tick (s : State) (c : Nat) (f : Core → Core) : (modCore s c f).tick = s.tick := rfl
@[simp] theorem modCore_turn (s : State) (c : Nat) (f : Core → Core) : (modCore s c f).turn = s.turn := rfl
@[simp] theorem modCore_lw (s : State) (c : Nat) (f : Core → Core) : (modCore s c f).lw = s.lw := rfl
@[simp] theorem modCore_teams (s : State) (c : Nat) (f : Core → Core) : (modCore s c f).teams = s.teams := rfl
@[simp] theorem modCore_insts (s : State) (c : Nat) (f : Core → Core) : (modCore s c f).insts = s.insts := rfl
@[simp] theorem modCore_nextTeam (s : State) (c : Nat) (f : Core → Core) : (modCore s c f).nextTeam = s.nextTeam := rfl
@[simp] theorem modCore_nextInst (s : State) (c : Nat) (f : Core → Core) : (modCore s c f).nextInst = s.nextInst := rfl
@[simp] theorem modCore_nextBind (s : State) (c : Nat) (f : Core → Core) : (modCore s c f).nextBind = s.nextBind := rfl
@[simp] theorem modCore_launches (s : State) (c : Nat) (f : Core → Core) : (modCore s c f).launches = s.launches := rfl
@[simp] theorem modCore_nextLaunch (s : State) (c : Nat) (f : Core → Core) : (modCore s c f).nextLaunch = s.nextLaunch := rfl
@[simp] theorem modCore_saves (s : State) (c : Nat) (f : Core → Core) : (modCore s c f).saves = s.saves := rfl
@[simp] theorem modCore_mem (s : State) (c : Nat) (f : Core → Core) : (modCore s c f).mem = s.mem := rfl
@[simp] theorem modCore_poison (s : State) (c : Nat) (f : Core → Core) : (modCore s c f).poison = s.poison := rfl
@[simp] theorem modCore_wb (s : State) (c : Nat) (f : Core → Core) : (modCore s c f).wb = s.wb := rfl
@[simp] theorem modCore_l1 (s : State) (c : Nat) (f : Core → Core) : (modCore s c f).l1 = s.l1 := rfl
@[simp] theorem modCore_sc (s : State) (c : Nat) (f : Core → Core) : (modCore s c f).sc = s.sc := rfl
@[simp] theorem modCore_fills (s : State) (c : Nat) (f : Core → Core) : (modCore s c f).fills = s.fills := rfl
@[simp] theorem modCore_tlb (s : State) (c : Nat) (f : Core → Core) : (modCore s c f).tlb = s.tlb := rfl
@[simp] theorem modCore_walks (s : State) (c : Nat) (f : Core → Core) : (modCore s c f).walks = s.walks := rfl
@[simp] theorem modCore_icache (s : State) (c : Nat) (f : Core → Core) : (modCore s c f).icache = s.icache := rfl
@[simp] theorem modCore_fbuf (s : State) (c : Nat) (f : Core → Core) : (modCore s c f).fbuf = s.fbuf := rfl
@[simp] theorem modCore_want (s : State) (c : Nat) (f : Core → Core) : (modCore s c f).want = s.want := rfl
@[simp] theorem modCore_scFences (s : State) (c : Nat) (f : Core → Core) : (modCore s c f).scFences = s.scFences := rfl
@[simp] theorem modCore_seen (s : State) (c : Nat) (f : Core → Core) : (modCore s c f).seen = s.seen := rfl
@[simp] theorem modCore_badStore (s : State) (c : Nat) (f : Core → Core) : (modCore s c f).badStore = s.badStore := rfl
@[simp] theorem modCore_refused (s : State) (c : Nat) (f : Core → Core) : (modCore s c f).refused = s.refused := rfl
@[simp] theorem modCore_raster (s : State) (c : Nat) (f : Core → Core) : (modCore s c f).raster = s.raster := rfl
@[simp] theorem modCore_sampler (s : State) (c : Nat) (f : Core → Core) : (modCore s c f).sampler = s.sampler := rfl
@[simp] theorem modCore_ray (s : State) (c : Nat) (f : Core → Core) : (modCore s c f).ray = s.ray := rfl
@[simp] theorem modCore_blend (s : State) (c : Nat) (f : Core → Core) : (modCore s c f).blend = s.blend := rfl
@[simp] theorem modCore_dev (s : State) (c : Nat) (f : Core → Core) : (modCore s c f).dev = s.dev := rfl
@[simp] theorem modCore_page (s : State) (c : Nat) (f : Core → Core) : (modCore s c f).page = s.page := rfl
@[simp] theorem modCore_ctxs (s : State) (c : Nat) (f : Core → Core) : (modCore s c f).ctxs = s.ctxs := rfl
@[simp] theorem modCore_command (s : State) (c : Nat) (f : Core → Core) : (modCore s c f).command = s.command := rfl
@[simp] theorem modCore_msix (s : State) (c : Nat) (f : Core → Core) : (modCore s c f).msix = s.msix := rfl
@[simp] theorem modCore_vfs (s : State) (c : Nat) (f : Core → Core) : (modCore s c f).vfs = s.vfs := rfl
@[simp] theorem modCore_alarm (s : State) (c : Nat) (f : Core → Core) : (modCore s c f).alarm = s.alarm := rfl
@[simp] theorem modCore_slots (s : State) (c : Nat) (f : Core → Core) : (modCore s c f).slots = s.slots := rfl
@[simp] theorem modCore_bwLast (s : State) (c : Nat) (f : Core → Core) : (modCore s c f).bwLast = s.bwLast := rfl
@[simp] theorem modCore_bwNow (s : State) (c : Nat) (f : Core → Core) : (modCore s c f).bwNow = s.bwNow := rfl
@[simp] theorem modCore_servedCtx (s : State) (c : Nat) (f : Core → Core) : (modCore s c f).servedCtx = s.servedCtx := rfl
@[simp] theorem modCore_servedQ (s : State) (c : Nat) (f : Core → Core) : (modCore s c f).servedQ = s.servedQ := rfl
@[simp] theorem modCore_ready (s : State) (c : Nat) (f : Core → Core) : (modCore s c f).ready = s.ready := rfl
@[simp] theorem modCore_boots (s : State) (c : Nat) (f : Core → Core) : (modCore s c f).boots = s.boots := rfl
@[simp] theorem modCore_exports (s : State) (c : Nat) (f : Core → Core) : (modCore s c f).exports = s.exports := rfl
@[simp] theorem modCore_hostRead (s : State) (c : Nat) (f : Core → Core) : (modCore s c f).hostRead = s.hostRead := rfl

/-! ### `setTeam` changes only `teams` -/

@[simp] theorem setTeam_agenda (s : State) (t : Nat) (x : Team) : (setTeam s t x).agenda = s.agenda := rfl
@[simp] theorem setTeam_tick (s : State) (t : Nat) (x : Team) : (setTeam s t x).tick = s.tick := rfl
@[simp] theorem setTeam_turn (s : State) (t : Nat) (x : Team) : (setTeam s t x).turn = s.turn := rfl
@[simp] theorem setTeam_lw (s : State) (t : Nat) (x : Team) : (setTeam s t x).lw = s.lw := rfl
@[simp] theorem setTeam_insts (s : State) (t : Nat) (x : Team) : (setTeam s t x).insts = s.insts := rfl
@[simp] theorem setTeam_nextTeam (s : State) (t : Nat) (x : Team) : (setTeam s t x).nextTeam = s.nextTeam := rfl
@[simp] theorem setTeam_nextInst (s : State) (t : Nat) (x : Team) : (setTeam s t x).nextInst = s.nextInst := rfl
@[simp] theorem setTeam_nextBind (s : State) (t : Nat) (x : Team) : (setTeam s t x).nextBind = s.nextBind := rfl
@[simp] theorem setTeam_launches (s : State) (t : Nat) (x : Team) : (setTeam s t x).launches = s.launches := rfl
@[simp] theorem setTeam_nextLaunch (s : State) (t : Nat) (x : Team) : (setTeam s t x).nextLaunch = s.nextLaunch := rfl
@[simp] theorem setTeam_cores (s : State) (t : Nat) (x : Team) : (setTeam s t x).cores = s.cores := rfl
@[simp] theorem setTeam_saves (s : State) (t : Nat) (x : Team) : (setTeam s t x).saves = s.saves := rfl
@[simp] theorem setTeam_mem (s : State) (t : Nat) (x : Team) : (setTeam s t x).mem = s.mem := rfl
@[simp] theorem setTeam_poison (s : State) (t : Nat) (x : Team) : (setTeam s t x).poison = s.poison := rfl
@[simp] theorem setTeam_wb (s : State) (t : Nat) (x : Team) : (setTeam s t x).wb = s.wb := rfl
@[simp] theorem setTeam_l1 (s : State) (t : Nat) (x : Team) : (setTeam s t x).l1 = s.l1 := rfl
@[simp] theorem setTeam_sc (s : State) (t : Nat) (x : Team) : (setTeam s t x).sc = s.sc := rfl
@[simp] theorem setTeam_fills (s : State) (t : Nat) (x : Team) : (setTeam s t x).fills = s.fills := rfl
@[simp] theorem setTeam_tlb (s : State) (t : Nat) (x : Team) : (setTeam s t x).tlb = s.tlb := rfl
@[simp] theorem setTeam_walks (s : State) (t : Nat) (x : Team) : (setTeam s t x).walks = s.walks := rfl
@[simp] theorem setTeam_icache (s : State) (t : Nat) (x : Team) : (setTeam s t x).icache = s.icache := rfl
@[simp] theorem setTeam_fbuf (s : State) (t : Nat) (x : Team) : (setTeam s t x).fbuf = s.fbuf := rfl
@[simp] theorem setTeam_want (s : State) (t : Nat) (x : Team) : (setTeam s t x).want = s.want := rfl
@[simp] theorem setTeam_scFences (s : State) (t : Nat) (x : Team) : (setTeam s t x).scFences = s.scFences := rfl
@[simp] theorem setTeam_seen (s : State) (t : Nat) (x : Team) : (setTeam s t x).seen = s.seen := rfl
@[simp] theorem setTeam_badStore (s : State) (t : Nat) (x : Team) : (setTeam s t x).badStore = s.badStore := rfl
@[simp] theorem setTeam_refused (s : State) (t : Nat) (x : Team) : (setTeam s t x).refused = s.refused := rfl
@[simp] theorem setTeam_raster (s : State) (t : Nat) (x : Team) : (setTeam s t x).raster = s.raster := rfl
@[simp] theorem setTeam_sampler (s : State) (t : Nat) (x : Team) : (setTeam s t x).sampler = s.sampler := rfl
@[simp] theorem setTeam_ray (s : State) (t : Nat) (x : Team) : (setTeam s t x).ray = s.ray := rfl
@[simp] theorem setTeam_blend (s : State) (t : Nat) (x : Team) : (setTeam s t x).blend = s.blend := rfl
@[simp] theorem setTeam_dev (s : State) (t : Nat) (x : Team) : (setTeam s t x).dev = s.dev := rfl
@[simp] theorem setTeam_page (s : State) (t : Nat) (x : Team) : (setTeam s t x).page = s.page := rfl
@[simp] theorem setTeam_ctxs (s : State) (t : Nat) (x : Team) : (setTeam s t x).ctxs = s.ctxs := rfl
@[simp] theorem setTeam_command (s : State) (t : Nat) (x : Team) : (setTeam s t x).command = s.command := rfl
@[simp] theorem setTeam_msix (s : State) (t : Nat) (x : Team) : (setTeam s t x).msix = s.msix := rfl
@[simp] theorem setTeam_vfs (s : State) (t : Nat) (x : Team) : (setTeam s t x).vfs = s.vfs := rfl
@[simp] theorem setTeam_alarm (s : State) (t : Nat) (x : Team) : (setTeam s t x).alarm = s.alarm := rfl
@[simp] theorem setTeam_slots (s : State) (t : Nat) (x : Team) : (setTeam s t x).slots = s.slots := rfl
@[simp] theorem setTeam_bwLast (s : State) (t : Nat) (x : Team) : (setTeam s t x).bwLast = s.bwLast := rfl
@[simp] theorem setTeam_bwNow (s : State) (t : Nat) (x : Team) : (setTeam s t x).bwNow = s.bwNow := rfl
@[simp] theorem setTeam_servedCtx (s : State) (t : Nat) (x : Team) : (setTeam s t x).servedCtx = s.servedCtx := rfl
@[simp] theorem setTeam_servedQ (s : State) (t : Nat) (x : Team) : (setTeam s t x).servedQ = s.servedQ := rfl
@[simp] theorem setTeam_ready (s : State) (t : Nat) (x : Team) : (setTeam s t x).ready = s.ready := rfl
@[simp] theorem setTeam_boots (s : State) (t : Nat) (x : Team) : (setTeam s t x).boots = s.boots := rfl
@[simp] theorem setTeam_exports (s : State) (t : Nat) (x : Team) : (setTeam s t x).exports = s.exports := rfl
@[simp] theorem setTeam_hostRead (s : State) (t : Nat) (x : Team) : (setTeam s t x).hostRead = s.hostRead := rfl

/-! ### `modTeam` changes only `teams` -/

@[simp] theorem modTeam_agenda (s : State) (t : Nat) (f : Team → Team) : (modTeam s t f).agenda = s.agenda := by unfold modTeam; (repeat' split) <;> rfl
@[simp] theorem modTeam_tick (s : State) (t : Nat) (f : Team → Team) : (modTeam s t f).tick = s.tick := by unfold modTeam; (repeat' split) <;> rfl
@[simp] theorem modTeam_turn (s : State) (t : Nat) (f : Team → Team) : (modTeam s t f).turn = s.turn := by unfold modTeam; (repeat' split) <;> rfl
@[simp] theorem modTeam_lw (s : State) (t : Nat) (f : Team → Team) : (modTeam s t f).lw = s.lw := by unfold modTeam; (repeat' split) <;> rfl
@[simp] theorem modTeam_insts (s : State) (t : Nat) (f : Team → Team) : (modTeam s t f).insts = s.insts := by unfold modTeam; (repeat' split) <;> rfl
@[simp] theorem modTeam_nextTeam (s : State) (t : Nat) (f : Team → Team) : (modTeam s t f).nextTeam = s.nextTeam := by unfold modTeam; (repeat' split) <;> rfl
@[simp] theorem modTeam_nextInst (s : State) (t : Nat) (f : Team → Team) : (modTeam s t f).nextInst = s.nextInst := by unfold modTeam; (repeat' split) <;> rfl
@[simp] theorem modTeam_nextBind (s : State) (t : Nat) (f : Team → Team) : (modTeam s t f).nextBind = s.nextBind := by unfold modTeam; (repeat' split) <;> rfl
@[simp] theorem modTeam_launches (s : State) (t : Nat) (f : Team → Team) : (modTeam s t f).launches = s.launches := by unfold modTeam; (repeat' split) <;> rfl
@[simp] theorem modTeam_nextLaunch (s : State) (t : Nat) (f : Team → Team) : (modTeam s t f).nextLaunch = s.nextLaunch := by unfold modTeam; (repeat' split) <;> rfl
@[simp] theorem modTeam_cores (s : State) (t : Nat) (f : Team → Team) : (modTeam s t f).cores = s.cores := by unfold modTeam; (repeat' split) <;> rfl
@[simp] theorem modTeam_saves (s : State) (t : Nat) (f : Team → Team) : (modTeam s t f).saves = s.saves := by unfold modTeam; (repeat' split) <;> rfl
@[simp] theorem modTeam_mem (s : State) (t : Nat) (f : Team → Team) : (modTeam s t f).mem = s.mem := by unfold modTeam; (repeat' split) <;> rfl
@[simp] theorem modTeam_poison (s : State) (t : Nat) (f : Team → Team) : (modTeam s t f).poison = s.poison := by unfold modTeam; (repeat' split) <;> rfl
@[simp] theorem modTeam_wb (s : State) (t : Nat) (f : Team → Team) : (modTeam s t f).wb = s.wb := by unfold modTeam; (repeat' split) <;> rfl
@[simp] theorem modTeam_l1 (s : State) (t : Nat) (f : Team → Team) : (modTeam s t f).l1 = s.l1 := by unfold modTeam; (repeat' split) <;> rfl
@[simp] theorem modTeam_sc (s : State) (t : Nat) (f : Team → Team) : (modTeam s t f).sc = s.sc := by unfold modTeam; (repeat' split) <;> rfl
@[simp] theorem modTeam_fills (s : State) (t : Nat) (f : Team → Team) : (modTeam s t f).fills = s.fills := by unfold modTeam; (repeat' split) <;> rfl
@[simp] theorem modTeam_tlb (s : State) (t : Nat) (f : Team → Team) : (modTeam s t f).tlb = s.tlb := by unfold modTeam; (repeat' split) <;> rfl
@[simp] theorem modTeam_walks (s : State) (t : Nat) (f : Team → Team) : (modTeam s t f).walks = s.walks := by unfold modTeam; (repeat' split) <;> rfl
@[simp] theorem modTeam_icache (s : State) (t : Nat) (f : Team → Team) : (modTeam s t f).icache = s.icache := by unfold modTeam; (repeat' split) <;> rfl
@[simp] theorem modTeam_fbuf (s : State) (t : Nat) (f : Team → Team) : (modTeam s t f).fbuf = s.fbuf := by unfold modTeam; (repeat' split) <;> rfl
@[simp] theorem modTeam_want (s : State) (t : Nat) (f : Team → Team) : (modTeam s t f).want = s.want := by unfold modTeam; (repeat' split) <;> rfl
@[simp] theorem modTeam_scFences (s : State) (t : Nat) (f : Team → Team) : (modTeam s t f).scFences = s.scFences := by unfold modTeam; (repeat' split) <;> rfl
@[simp] theorem modTeam_seen (s : State) (t : Nat) (f : Team → Team) : (modTeam s t f).seen = s.seen := by unfold modTeam; (repeat' split) <;> rfl
@[simp] theorem modTeam_badStore (s : State) (t : Nat) (f : Team → Team) : (modTeam s t f).badStore = s.badStore := by unfold modTeam; (repeat' split) <;> rfl
@[simp] theorem modTeam_refused (s : State) (t : Nat) (f : Team → Team) : (modTeam s t f).refused = s.refused := by unfold modTeam; (repeat' split) <;> rfl
@[simp] theorem modTeam_raster (s : State) (t : Nat) (f : Team → Team) : (modTeam s t f).raster = s.raster := by unfold modTeam; (repeat' split) <;> rfl
@[simp] theorem modTeam_sampler (s : State) (t : Nat) (f : Team → Team) : (modTeam s t f).sampler = s.sampler := by unfold modTeam; (repeat' split) <;> rfl
@[simp] theorem modTeam_ray (s : State) (t : Nat) (f : Team → Team) : (modTeam s t f).ray = s.ray := by unfold modTeam; (repeat' split) <;> rfl
@[simp] theorem modTeam_blend (s : State) (t : Nat) (f : Team → Team) : (modTeam s t f).blend = s.blend := by unfold modTeam; (repeat' split) <;> rfl
@[simp] theorem modTeam_dev (s : State) (t : Nat) (f : Team → Team) : (modTeam s t f).dev = s.dev := by unfold modTeam; (repeat' split) <;> rfl
@[simp] theorem modTeam_page (s : State) (t : Nat) (f : Team → Team) : (modTeam s t f).page = s.page := by unfold modTeam; (repeat' split) <;> rfl
@[simp] theorem modTeam_ctxs (s : State) (t : Nat) (f : Team → Team) : (modTeam s t f).ctxs = s.ctxs := by unfold modTeam; (repeat' split) <;> rfl
@[simp] theorem modTeam_command (s : State) (t : Nat) (f : Team → Team) : (modTeam s t f).command = s.command := by unfold modTeam; (repeat' split) <;> rfl
@[simp] theorem modTeam_msix (s : State) (t : Nat) (f : Team → Team) : (modTeam s t f).msix = s.msix := by unfold modTeam; (repeat' split) <;> rfl
@[simp] theorem modTeam_vfs (s : State) (t : Nat) (f : Team → Team) : (modTeam s t f).vfs = s.vfs := by unfold modTeam; (repeat' split) <;> rfl
@[simp] theorem modTeam_alarm (s : State) (t : Nat) (f : Team → Team) : (modTeam s t f).alarm = s.alarm := by unfold modTeam; (repeat' split) <;> rfl
@[simp] theorem modTeam_slots (s : State) (t : Nat) (f : Team → Team) : (modTeam s t f).slots = s.slots := by unfold modTeam; (repeat' split) <;> rfl
@[simp] theorem modTeam_bwLast (s : State) (t : Nat) (f : Team → Team) : (modTeam s t f).bwLast = s.bwLast := by unfold modTeam; (repeat' split) <;> rfl
@[simp] theorem modTeam_bwNow (s : State) (t : Nat) (f : Team → Team) : (modTeam s t f).bwNow = s.bwNow := by unfold modTeam; (repeat' split) <;> rfl
@[simp] theorem modTeam_servedCtx (s : State) (t : Nat) (f : Team → Team) : (modTeam s t f).servedCtx = s.servedCtx := by unfold modTeam; (repeat' split) <;> rfl
@[simp] theorem modTeam_servedQ (s : State) (t : Nat) (f : Team → Team) : (modTeam s t f).servedQ = s.servedQ := by unfold modTeam; (repeat' split) <;> rfl
@[simp] theorem modTeam_ready (s : State) (t : Nat) (f : Team → Team) : (modTeam s t f).ready = s.ready := by unfold modTeam; (repeat' split) <;> rfl
@[simp] theorem modTeam_boots (s : State) (t : Nat) (f : Team → Team) : (modTeam s t f).boots = s.boots := by unfold modTeam; (repeat' split) <;> rfl
@[simp] theorem modTeam_exports (s : State) (t : Nat) (f : Team → Team) : (modTeam s t f).exports = s.exports := by unfold modTeam; (repeat' split) <;> rfl
@[simp] theorem modTeam_hostRead (s : State) (t : Nat) (f : Team → Team) : (modTeam s t f).hostRead = s.hostRead := by unfold modTeam; (repeat' split) <;> rfl

/-! ### `modGroup` changes only `teams` -/

@[simp] theorem modGroup_agenda (s : State) (t g : Nat) (f : Group → Group) : (modGroup s t g f).agenda = s.agenda := by unfold modGroup; (repeat' split) <;> rfl
@[simp] theorem modGroup_tick (s : State) (t g : Nat) (f : Group → Group) : (modGroup s t g f).tick = s.tick := by unfold modGroup; (repeat' split) <;> rfl
@[simp] theorem modGroup_turn (s : State) (t g : Nat) (f : Group → Group) : (modGroup s t g f).turn = s.turn := by unfold modGroup; (repeat' split) <;> rfl
@[simp] theorem modGroup_lw (s : State) (t g : Nat) (f : Group → Group) : (modGroup s t g f).lw = s.lw := by unfold modGroup; (repeat' split) <;> rfl
@[simp] theorem modGroup_insts (s : State) (t g : Nat) (f : Group → Group) : (modGroup s t g f).insts = s.insts := by unfold modGroup; (repeat' split) <;> rfl
@[simp] theorem modGroup_nextTeam (s : State) (t g : Nat) (f : Group → Group) : (modGroup s t g f).nextTeam = s.nextTeam := by unfold modGroup; (repeat' split) <;> rfl
@[simp] theorem modGroup_nextInst (s : State) (t g : Nat) (f : Group → Group) : (modGroup s t g f).nextInst = s.nextInst := by unfold modGroup; (repeat' split) <;> rfl
@[simp] theorem modGroup_nextBind (s : State) (t g : Nat) (f : Group → Group) : (modGroup s t g f).nextBind = s.nextBind := by unfold modGroup; (repeat' split) <;> rfl
@[simp] theorem modGroup_launches (s : State) (t g : Nat) (f : Group → Group) : (modGroup s t g f).launches = s.launches := by unfold modGroup; (repeat' split) <;> rfl
@[simp] theorem modGroup_nextLaunch (s : State) (t g : Nat) (f : Group → Group) : (modGroup s t g f).nextLaunch = s.nextLaunch := by unfold modGroup; (repeat' split) <;> rfl
@[simp] theorem modGroup_cores (s : State) (t g : Nat) (f : Group → Group) : (modGroup s t g f).cores = s.cores := by unfold modGroup; (repeat' split) <;> rfl
@[simp] theorem modGroup_saves (s : State) (t g : Nat) (f : Group → Group) : (modGroup s t g f).saves = s.saves := by unfold modGroup; (repeat' split) <;> rfl
@[simp] theorem modGroup_mem (s : State) (t g : Nat) (f : Group → Group) : (modGroup s t g f).mem = s.mem := by unfold modGroup; (repeat' split) <;> rfl
@[simp] theorem modGroup_poison (s : State) (t g : Nat) (f : Group → Group) : (modGroup s t g f).poison = s.poison := by unfold modGroup; (repeat' split) <;> rfl
@[simp] theorem modGroup_wb (s : State) (t g : Nat) (f : Group → Group) : (modGroup s t g f).wb = s.wb := by unfold modGroup; (repeat' split) <;> rfl
@[simp] theorem modGroup_l1 (s : State) (t g : Nat) (f : Group → Group) : (modGroup s t g f).l1 = s.l1 := by unfold modGroup; (repeat' split) <;> rfl
@[simp] theorem modGroup_sc (s : State) (t g : Nat) (f : Group → Group) : (modGroup s t g f).sc = s.sc := by unfold modGroup; (repeat' split) <;> rfl
@[simp] theorem modGroup_fills (s : State) (t g : Nat) (f : Group → Group) : (modGroup s t g f).fills = s.fills := by unfold modGroup; (repeat' split) <;> rfl
@[simp] theorem modGroup_tlb (s : State) (t g : Nat) (f : Group → Group) : (modGroup s t g f).tlb = s.tlb := by unfold modGroup; (repeat' split) <;> rfl
@[simp] theorem modGroup_walks (s : State) (t g : Nat) (f : Group → Group) : (modGroup s t g f).walks = s.walks := by unfold modGroup; (repeat' split) <;> rfl
@[simp] theorem modGroup_icache (s : State) (t g : Nat) (f : Group → Group) : (modGroup s t g f).icache = s.icache := by unfold modGroup; (repeat' split) <;> rfl
@[simp] theorem modGroup_fbuf (s : State) (t g : Nat) (f : Group → Group) : (modGroup s t g f).fbuf = s.fbuf := by unfold modGroup; (repeat' split) <;> rfl
@[simp] theorem modGroup_want (s : State) (t g : Nat) (f : Group → Group) : (modGroup s t g f).want = s.want := by unfold modGroup; (repeat' split) <;> rfl
@[simp] theorem modGroup_scFences (s : State) (t g : Nat) (f : Group → Group) : (modGroup s t g f).scFences = s.scFences := by unfold modGroup; (repeat' split) <;> rfl
@[simp] theorem modGroup_seen (s : State) (t g : Nat) (f : Group → Group) : (modGroup s t g f).seen = s.seen := by unfold modGroup; (repeat' split) <;> rfl
@[simp] theorem modGroup_badStore (s : State) (t g : Nat) (f : Group → Group) : (modGroup s t g f).badStore = s.badStore := by unfold modGroup; (repeat' split) <;> rfl
@[simp] theorem modGroup_refused (s : State) (t g : Nat) (f : Group → Group) : (modGroup s t g f).refused = s.refused := by unfold modGroup; (repeat' split) <;> rfl
@[simp] theorem modGroup_raster (s : State) (t g : Nat) (f : Group → Group) : (modGroup s t g f).raster = s.raster := by unfold modGroup; (repeat' split) <;> rfl
@[simp] theorem modGroup_sampler (s : State) (t g : Nat) (f : Group → Group) : (modGroup s t g f).sampler = s.sampler := by unfold modGroup; (repeat' split) <;> rfl
@[simp] theorem modGroup_ray (s : State) (t g : Nat) (f : Group → Group) : (modGroup s t g f).ray = s.ray := by unfold modGroup; (repeat' split) <;> rfl
@[simp] theorem modGroup_blend (s : State) (t g : Nat) (f : Group → Group) : (modGroup s t g f).blend = s.blend := by unfold modGroup; (repeat' split) <;> rfl
@[simp] theorem modGroup_dev (s : State) (t g : Nat) (f : Group → Group) : (modGroup s t g f).dev = s.dev := by unfold modGroup; (repeat' split) <;> rfl
@[simp] theorem modGroup_page (s : State) (t g : Nat) (f : Group → Group) : (modGroup s t g f).page = s.page := by unfold modGroup; (repeat' split) <;> rfl
@[simp] theorem modGroup_ctxs (s : State) (t g : Nat) (f : Group → Group) : (modGroup s t g f).ctxs = s.ctxs := by unfold modGroup; (repeat' split) <;> rfl
@[simp] theorem modGroup_command (s : State) (t g : Nat) (f : Group → Group) : (modGroup s t g f).command = s.command := by unfold modGroup; (repeat' split) <;> rfl
@[simp] theorem modGroup_msix (s : State) (t g : Nat) (f : Group → Group) : (modGroup s t g f).msix = s.msix := by unfold modGroup; (repeat' split) <;> rfl
@[simp] theorem modGroup_vfs (s : State) (t g : Nat) (f : Group → Group) : (modGroup s t g f).vfs = s.vfs := by unfold modGroup; (repeat' split) <;> rfl
@[simp] theorem modGroup_alarm (s : State) (t g : Nat) (f : Group → Group) : (modGroup s t g f).alarm = s.alarm := by unfold modGroup; (repeat' split) <;> rfl
@[simp] theorem modGroup_slots (s : State) (t g : Nat) (f : Group → Group) : (modGroup s t g f).slots = s.slots := by unfold modGroup; (repeat' split) <;> rfl
@[simp] theorem modGroup_bwLast (s : State) (t g : Nat) (f : Group → Group) : (modGroup s t g f).bwLast = s.bwLast := by unfold modGroup; (repeat' split) <;> rfl
@[simp] theorem modGroup_bwNow (s : State) (t g : Nat) (f : Group → Group) : (modGroup s t g f).bwNow = s.bwNow := by unfold modGroup; (repeat' split) <;> rfl
@[simp] theorem modGroup_servedCtx (s : State) (t g : Nat) (f : Group → Group) : (modGroup s t g f).servedCtx = s.servedCtx := by unfold modGroup; (repeat' split) <;> rfl
@[simp] theorem modGroup_servedQ (s : State) (t g : Nat) (f : Group → Group) : (modGroup s t g f).servedQ = s.servedQ := by unfold modGroup; (repeat' split) <;> rfl
@[simp] theorem modGroup_ready (s : State) (t g : Nat) (f : Group → Group) : (modGroup s t g f).ready = s.ready := by unfold modGroup; (repeat' split) <;> rfl
@[simp] theorem modGroup_boots (s : State) (t g : Nat) (f : Group → Group) : (modGroup s t g f).boots = s.boots := by unfold modGroup; (repeat' split) <;> rfl
@[simp] theorem modGroup_exports (s : State) (t g : Nat) (f : Group → Group) : (modGroup s t g f).exports = s.exports := by unfold modGroup; (repeat' split) <;> rfl
@[simp] theorem modGroup_hostRead (s : State) (t g : Nat) (f : Group → Group) : (modGroup s t g f).hostRead = s.hostRead := by unfold modGroup; (repeat' split) <;> rfl

/-! ### `modLead` changes only `teams` -/

@[simp] theorem modLead_agenda (s : State) (t : Nat) (f : Lead → Lead) : (modLead s t f).agenda = s.agenda := modTeam_agenda s t _
@[simp] theorem modLead_tick (s : State) (t : Nat) (f : Lead → Lead) : (modLead s t f).tick = s.tick := modTeam_tick s t _
@[simp] theorem modLead_turn (s : State) (t : Nat) (f : Lead → Lead) : (modLead s t f).turn = s.turn := modTeam_turn s t _
@[simp] theorem modLead_lw (s : State) (t : Nat) (f : Lead → Lead) : (modLead s t f).lw = s.lw := modTeam_lw s t _
@[simp] theorem modLead_insts (s : State) (t : Nat) (f : Lead → Lead) : (modLead s t f).insts = s.insts := modTeam_insts s t _
@[simp] theorem modLead_nextTeam (s : State) (t : Nat) (f : Lead → Lead) : (modLead s t f).nextTeam = s.nextTeam := modTeam_nextTeam s t _
@[simp] theorem modLead_nextInst (s : State) (t : Nat) (f : Lead → Lead) : (modLead s t f).nextInst = s.nextInst := modTeam_nextInst s t _
@[simp] theorem modLead_nextBind (s : State) (t : Nat) (f : Lead → Lead) : (modLead s t f).nextBind = s.nextBind := modTeam_nextBind s t _
@[simp] theorem modLead_launches (s : State) (t : Nat) (f : Lead → Lead) : (modLead s t f).launches = s.launches := modTeam_launches s t _
@[simp] theorem modLead_nextLaunch (s : State) (t : Nat) (f : Lead → Lead) : (modLead s t f).nextLaunch = s.nextLaunch := modTeam_nextLaunch s t _
@[simp] theorem modLead_cores (s : State) (t : Nat) (f : Lead → Lead) : (modLead s t f).cores = s.cores := modTeam_cores s t _
@[simp] theorem modLead_saves (s : State) (t : Nat) (f : Lead → Lead) : (modLead s t f).saves = s.saves := modTeam_saves s t _
@[simp] theorem modLead_mem (s : State) (t : Nat) (f : Lead → Lead) : (modLead s t f).mem = s.mem := modTeam_mem s t _
@[simp] theorem modLead_poison (s : State) (t : Nat) (f : Lead → Lead) : (modLead s t f).poison = s.poison := modTeam_poison s t _
@[simp] theorem modLead_wb (s : State) (t : Nat) (f : Lead → Lead) : (modLead s t f).wb = s.wb := modTeam_wb s t _
@[simp] theorem modLead_l1 (s : State) (t : Nat) (f : Lead → Lead) : (modLead s t f).l1 = s.l1 := modTeam_l1 s t _
@[simp] theorem modLead_sc (s : State) (t : Nat) (f : Lead → Lead) : (modLead s t f).sc = s.sc := modTeam_sc s t _
@[simp] theorem modLead_fills (s : State) (t : Nat) (f : Lead → Lead) : (modLead s t f).fills = s.fills := modTeam_fills s t _
@[simp] theorem modLead_tlb (s : State) (t : Nat) (f : Lead → Lead) : (modLead s t f).tlb = s.tlb := modTeam_tlb s t _
@[simp] theorem modLead_walks (s : State) (t : Nat) (f : Lead → Lead) : (modLead s t f).walks = s.walks := modTeam_walks s t _
@[simp] theorem modLead_icache (s : State) (t : Nat) (f : Lead → Lead) : (modLead s t f).icache = s.icache := modTeam_icache s t _
@[simp] theorem modLead_fbuf (s : State) (t : Nat) (f : Lead → Lead) : (modLead s t f).fbuf = s.fbuf := modTeam_fbuf s t _
@[simp] theorem modLead_want (s : State) (t : Nat) (f : Lead → Lead) : (modLead s t f).want = s.want := modTeam_want s t _
@[simp] theorem modLead_scFences (s : State) (t : Nat) (f : Lead → Lead) : (modLead s t f).scFences = s.scFences := modTeam_scFences s t _
@[simp] theorem modLead_seen (s : State) (t : Nat) (f : Lead → Lead) : (modLead s t f).seen = s.seen := modTeam_seen s t _
@[simp] theorem modLead_badStore (s : State) (t : Nat) (f : Lead → Lead) : (modLead s t f).badStore = s.badStore := modTeam_badStore s t _
@[simp] theorem modLead_refused (s : State) (t : Nat) (f : Lead → Lead) : (modLead s t f).refused = s.refused := modTeam_refused s t _
@[simp] theorem modLead_raster (s : State) (t : Nat) (f : Lead → Lead) : (modLead s t f).raster = s.raster := modTeam_raster s t _
@[simp] theorem modLead_sampler (s : State) (t : Nat) (f : Lead → Lead) : (modLead s t f).sampler = s.sampler := modTeam_sampler s t _
@[simp] theorem modLead_ray (s : State) (t : Nat) (f : Lead → Lead) : (modLead s t f).ray = s.ray := modTeam_ray s t _
@[simp] theorem modLead_blend (s : State) (t : Nat) (f : Lead → Lead) : (modLead s t f).blend = s.blend := modTeam_blend s t _
@[simp] theorem modLead_dev (s : State) (t : Nat) (f : Lead → Lead) : (modLead s t f).dev = s.dev := modTeam_dev s t _
@[simp] theorem modLead_page (s : State) (t : Nat) (f : Lead → Lead) : (modLead s t f).page = s.page := modTeam_page s t _
@[simp] theorem modLead_ctxs (s : State) (t : Nat) (f : Lead → Lead) : (modLead s t f).ctxs = s.ctxs := modTeam_ctxs s t _
@[simp] theorem modLead_command (s : State) (t : Nat) (f : Lead → Lead) : (modLead s t f).command = s.command := modTeam_command s t _
@[simp] theorem modLead_msix (s : State) (t : Nat) (f : Lead → Lead) : (modLead s t f).msix = s.msix := modTeam_msix s t _
@[simp] theorem modLead_vfs (s : State) (t : Nat) (f : Lead → Lead) : (modLead s t f).vfs = s.vfs := modTeam_vfs s t _
@[simp] theorem modLead_alarm (s : State) (t : Nat) (f : Lead → Lead) : (modLead s t f).alarm = s.alarm := modTeam_alarm s t _
@[simp] theorem modLead_slots (s : State) (t : Nat) (f : Lead → Lead) : (modLead s t f).slots = s.slots := modTeam_slots s t _
@[simp] theorem modLead_bwLast (s : State) (t : Nat) (f : Lead → Lead) : (modLead s t f).bwLast = s.bwLast := modTeam_bwLast s t _
@[simp] theorem modLead_bwNow (s : State) (t : Nat) (f : Lead → Lead) : (modLead s t f).bwNow = s.bwNow := modTeam_bwNow s t _
@[simp] theorem modLead_servedCtx (s : State) (t : Nat) (f : Lead → Lead) : (modLead s t f).servedCtx = s.servedCtx := modTeam_servedCtx s t _
@[simp] theorem modLead_servedQ (s : State) (t : Nat) (f : Lead → Lead) : (modLead s t f).servedQ = s.servedQ := modTeam_servedQ s t _
@[simp] theorem modLead_ready (s : State) (t : Nat) (f : Lead → Lead) : (modLead s t f).ready = s.ready := modTeam_ready s t _
@[simp] theorem modLead_boots (s : State) (t : Nat) (f : Lead → Lead) : (modLead s t f).boots = s.boots := modTeam_boots s t _
@[simp] theorem modLead_exports (s : State) (t : Nat) (f : Lead → Lead) : (modLead s t f).exports = s.exports := modTeam_exports s t _
@[simp] theorem modLead_hostRead (s : State) (t : Nat) (f : Lead → Lead) : (modLead s t f).hostRead = s.hostRead := modTeam_hostRead s t _

/-! ### `setPorter` changes only `cores` -/

@[simp] theorem setPorter_agenda (s : State) (c p : Nat) (x : Porter) : (setPorter s c p x).agenda = s.agenda := rfl
@[simp] theorem setPorter_tick (s : State) (c p : Nat) (x : Porter) : (setPorter s c p x).tick = s.tick := rfl
@[simp] theorem setPorter_turn (s : State) (c p : Nat) (x : Porter) : (setPorter s c p x).turn = s.turn := rfl
@[simp] theorem setPorter_lw (s : State) (c p : Nat) (x : Porter) : (setPorter s c p x).lw = s.lw := rfl
@[simp] theorem setPorter_teams (s : State) (c p : Nat) (x : Porter) : (setPorter s c p x).teams = s.teams := rfl
@[simp] theorem setPorter_insts (s : State) (c p : Nat) (x : Porter) : (setPorter s c p x).insts = s.insts := rfl
@[simp] theorem setPorter_nextTeam (s : State) (c p : Nat) (x : Porter) : (setPorter s c p x).nextTeam = s.nextTeam := rfl
@[simp] theorem setPorter_nextInst (s : State) (c p : Nat) (x : Porter) : (setPorter s c p x).nextInst = s.nextInst := rfl
@[simp] theorem setPorter_nextBind (s : State) (c p : Nat) (x : Porter) : (setPorter s c p x).nextBind = s.nextBind := rfl
@[simp] theorem setPorter_launches (s : State) (c p : Nat) (x : Porter) : (setPorter s c p x).launches = s.launches := rfl
@[simp] theorem setPorter_nextLaunch (s : State) (c p : Nat) (x : Porter) : (setPorter s c p x).nextLaunch = s.nextLaunch := rfl
@[simp] theorem setPorter_saves (s : State) (c p : Nat) (x : Porter) : (setPorter s c p x).saves = s.saves := rfl
@[simp] theorem setPorter_mem (s : State) (c p : Nat) (x : Porter) : (setPorter s c p x).mem = s.mem := rfl
@[simp] theorem setPorter_poison (s : State) (c p : Nat) (x : Porter) : (setPorter s c p x).poison = s.poison := rfl
@[simp] theorem setPorter_wb (s : State) (c p : Nat) (x : Porter) : (setPorter s c p x).wb = s.wb := rfl
@[simp] theorem setPorter_l1 (s : State) (c p : Nat) (x : Porter) : (setPorter s c p x).l1 = s.l1 := rfl
@[simp] theorem setPorter_sc (s : State) (c p : Nat) (x : Porter) : (setPorter s c p x).sc = s.sc := rfl
@[simp] theorem setPorter_fills (s : State) (c p : Nat) (x : Porter) : (setPorter s c p x).fills = s.fills := rfl
@[simp] theorem setPorter_tlb (s : State) (c p : Nat) (x : Porter) : (setPorter s c p x).tlb = s.tlb := rfl
@[simp] theorem setPorter_walks (s : State) (c p : Nat) (x : Porter) : (setPorter s c p x).walks = s.walks := rfl
@[simp] theorem setPorter_icache (s : State) (c p : Nat) (x : Porter) : (setPorter s c p x).icache = s.icache := rfl
@[simp] theorem setPorter_fbuf (s : State) (c p : Nat) (x : Porter) : (setPorter s c p x).fbuf = s.fbuf := rfl
@[simp] theorem setPorter_want (s : State) (c p : Nat) (x : Porter) : (setPorter s c p x).want = s.want := rfl
@[simp] theorem setPorter_scFences (s : State) (c p : Nat) (x : Porter) : (setPorter s c p x).scFences = s.scFences := rfl
@[simp] theorem setPorter_seen (s : State) (c p : Nat) (x : Porter) : (setPorter s c p x).seen = s.seen := rfl
@[simp] theorem setPorter_badStore (s : State) (c p : Nat) (x : Porter) : (setPorter s c p x).badStore = s.badStore := rfl
@[simp] theorem setPorter_refused (s : State) (c p : Nat) (x : Porter) : (setPorter s c p x).refused = s.refused := rfl
@[simp] theorem setPorter_raster (s : State) (c p : Nat) (x : Porter) : (setPorter s c p x).raster = s.raster := rfl
@[simp] theorem setPorter_sampler (s : State) (c p : Nat) (x : Porter) : (setPorter s c p x).sampler = s.sampler := rfl
@[simp] theorem setPorter_ray (s : State) (c p : Nat) (x : Porter) : (setPorter s c p x).ray = s.ray := rfl
@[simp] theorem setPorter_blend (s : State) (c p : Nat) (x : Porter) : (setPorter s c p x).blend = s.blend := rfl
@[simp] theorem setPorter_dev (s : State) (c p : Nat) (x : Porter) : (setPorter s c p x).dev = s.dev := rfl
@[simp] theorem setPorter_page (s : State) (c p : Nat) (x : Porter) : (setPorter s c p x).page = s.page := rfl
@[simp] theorem setPorter_ctxs (s : State) (c p : Nat) (x : Porter) : (setPorter s c p x).ctxs = s.ctxs := rfl
@[simp] theorem setPorter_command (s : State) (c p : Nat) (x : Porter) : (setPorter s c p x).command = s.command := rfl
@[simp] theorem setPorter_msix (s : State) (c p : Nat) (x : Porter) : (setPorter s c p x).msix = s.msix := rfl
@[simp] theorem setPorter_vfs (s : State) (c p : Nat) (x : Porter) : (setPorter s c p x).vfs = s.vfs := rfl
@[simp] theorem setPorter_alarm (s : State) (c p : Nat) (x : Porter) : (setPorter s c p x).alarm = s.alarm := rfl
@[simp] theorem setPorter_slots (s : State) (c p : Nat) (x : Porter) : (setPorter s c p x).slots = s.slots := rfl
@[simp] theorem setPorter_bwLast (s : State) (c p : Nat) (x : Porter) : (setPorter s c p x).bwLast = s.bwLast := rfl
@[simp] theorem setPorter_bwNow (s : State) (c p : Nat) (x : Porter) : (setPorter s c p x).bwNow = s.bwNow := rfl
@[simp] theorem setPorter_servedCtx (s : State) (c p : Nat) (x : Porter) : (setPorter s c p x).servedCtx = s.servedCtx := rfl
@[simp] theorem setPorter_servedQ (s : State) (c p : Nat) (x : Porter) : (setPorter s c p x).servedQ = s.servedQ := rfl
@[simp] theorem setPorter_ready (s : State) (c p : Nat) (x : Porter) : (setPorter s c p x).ready = s.ready := rfl
@[simp] theorem setPorter_boots (s : State) (c p : Nat) (x : Porter) : (setPorter s c p x).boots = s.boots := rfl
@[simp] theorem setPorter_exports (s : State) (c p : Nat) (x : Porter) : (setPorter s c p x).exports = s.exports := rfl
@[simp] theorem setPorter_hostRead (s : State) (c p : Nat) (x : Porter) : (setPorter s c p x).hostRead = s.hostRead := rfl

/-! ### `modPorter` changes only `cores` -/

@[simp] theorem modPorter_agenda (s : State) (c p : Nat) (f : Porter → Porter) : (modPorter s c p f).agenda = s.agenda := rfl
@[simp] theorem modPorter_tick (s : State) (c p : Nat) (f : Porter → Porter) : (modPorter s c p f).tick = s.tick := rfl
@[simp] theorem modPorter_turn (s : State) (c p : Nat) (f : Porter → Porter) : (modPorter s c p f).turn = s.turn := rfl
@[simp] theorem modPorter_lw (s : State) (c p : Nat) (f : Porter → Porter) : (modPorter s c p f).lw = s.lw := rfl
@[simp] theorem modPorter_teams (s : State) (c p : Nat) (f : Porter → Porter) : (modPorter s c p f).teams = s.teams := rfl
@[simp] theorem modPorter_insts (s : State) (c p : Nat) (f : Porter → Porter) : (modPorter s c p f).insts = s.insts := rfl
@[simp] theorem modPorter_nextTeam (s : State) (c p : Nat) (f : Porter → Porter) : (modPorter s c p f).nextTeam = s.nextTeam := rfl
@[simp] theorem modPorter_nextInst (s : State) (c p : Nat) (f : Porter → Porter) : (modPorter s c p f).nextInst = s.nextInst := rfl
@[simp] theorem modPorter_nextBind (s : State) (c p : Nat) (f : Porter → Porter) : (modPorter s c p f).nextBind = s.nextBind := rfl
@[simp] theorem modPorter_launches (s : State) (c p : Nat) (f : Porter → Porter) : (modPorter s c p f).launches = s.launches := rfl
@[simp] theorem modPorter_nextLaunch (s : State) (c p : Nat) (f : Porter → Porter) : (modPorter s c p f).nextLaunch = s.nextLaunch := rfl
@[simp] theorem modPorter_saves (s : State) (c p : Nat) (f : Porter → Porter) : (modPorter s c p f).saves = s.saves := rfl
@[simp] theorem modPorter_mem (s : State) (c p : Nat) (f : Porter → Porter) : (modPorter s c p f).mem = s.mem := rfl
@[simp] theorem modPorter_poison (s : State) (c p : Nat) (f : Porter → Porter) : (modPorter s c p f).poison = s.poison := rfl
@[simp] theorem modPorter_wb (s : State) (c p : Nat) (f : Porter → Porter) : (modPorter s c p f).wb = s.wb := rfl
@[simp] theorem modPorter_l1 (s : State) (c p : Nat) (f : Porter → Porter) : (modPorter s c p f).l1 = s.l1 := rfl
@[simp] theorem modPorter_sc (s : State) (c p : Nat) (f : Porter → Porter) : (modPorter s c p f).sc = s.sc := rfl
@[simp] theorem modPorter_fills (s : State) (c p : Nat) (f : Porter → Porter) : (modPorter s c p f).fills = s.fills := rfl
@[simp] theorem modPorter_tlb (s : State) (c p : Nat) (f : Porter → Porter) : (modPorter s c p f).tlb = s.tlb := rfl
@[simp] theorem modPorter_walks (s : State) (c p : Nat) (f : Porter → Porter) : (modPorter s c p f).walks = s.walks := rfl
@[simp] theorem modPorter_icache (s : State) (c p : Nat) (f : Porter → Porter) : (modPorter s c p f).icache = s.icache := rfl
@[simp] theorem modPorter_fbuf (s : State) (c p : Nat) (f : Porter → Porter) : (modPorter s c p f).fbuf = s.fbuf := rfl
@[simp] theorem modPorter_want (s : State) (c p : Nat) (f : Porter → Porter) : (modPorter s c p f).want = s.want := rfl
@[simp] theorem modPorter_scFences (s : State) (c p : Nat) (f : Porter → Porter) : (modPorter s c p f).scFences = s.scFences := rfl
@[simp] theorem modPorter_seen (s : State) (c p : Nat) (f : Porter → Porter) : (modPorter s c p f).seen = s.seen := rfl
@[simp] theorem modPorter_badStore (s : State) (c p : Nat) (f : Porter → Porter) : (modPorter s c p f).badStore = s.badStore := rfl
@[simp] theorem modPorter_refused (s : State) (c p : Nat) (f : Porter → Porter) : (modPorter s c p f).refused = s.refused := rfl
@[simp] theorem modPorter_raster (s : State) (c p : Nat) (f : Porter → Porter) : (modPorter s c p f).raster = s.raster := rfl
@[simp] theorem modPorter_sampler (s : State) (c p : Nat) (f : Porter → Porter) : (modPorter s c p f).sampler = s.sampler := rfl
@[simp] theorem modPorter_ray (s : State) (c p : Nat) (f : Porter → Porter) : (modPorter s c p f).ray = s.ray := rfl
@[simp] theorem modPorter_blend (s : State) (c p : Nat) (f : Porter → Porter) : (modPorter s c p f).blend = s.blend := rfl
@[simp] theorem modPorter_dev (s : State) (c p : Nat) (f : Porter → Porter) : (modPorter s c p f).dev = s.dev := rfl
@[simp] theorem modPorter_page (s : State) (c p : Nat) (f : Porter → Porter) : (modPorter s c p f).page = s.page := rfl
@[simp] theorem modPorter_ctxs (s : State) (c p : Nat) (f : Porter → Porter) : (modPorter s c p f).ctxs = s.ctxs := rfl
@[simp] theorem modPorter_command (s : State) (c p : Nat) (f : Porter → Porter) : (modPorter s c p f).command = s.command := rfl
@[simp] theorem modPorter_msix (s : State) (c p : Nat) (f : Porter → Porter) : (modPorter s c p f).msix = s.msix := rfl
@[simp] theorem modPorter_vfs (s : State) (c p : Nat) (f : Porter → Porter) : (modPorter s c p f).vfs = s.vfs := rfl
@[simp] theorem modPorter_alarm (s : State) (c p : Nat) (f : Porter → Porter) : (modPorter s c p f).alarm = s.alarm := rfl
@[simp] theorem modPorter_slots (s : State) (c p : Nat) (f : Porter → Porter) : (modPorter s c p f).slots = s.slots := rfl
@[simp] theorem modPorter_bwLast (s : State) (c p : Nat) (f : Porter → Porter) : (modPorter s c p f).bwLast = s.bwLast := rfl
@[simp] theorem modPorter_bwNow (s : State) (c p : Nat) (f : Porter → Porter) : (modPorter s c p f).bwNow = s.bwNow := rfl
@[simp] theorem modPorter_servedCtx (s : State) (c p : Nat) (f : Porter → Porter) : (modPorter s c p f).servedCtx = s.servedCtx := rfl
@[simp] theorem modPorter_servedQ (s : State) (c p : Nat) (f : Porter → Porter) : (modPorter s c p f).servedQ = s.servedQ := rfl
@[simp] theorem modPorter_ready (s : State) (c p : Nat) (f : Porter → Porter) : (modPorter s c p f).ready = s.ready := rfl
@[simp] theorem modPorter_boots (s : State) (c p : Nat) (f : Porter → Porter) : (modPorter s c p f).boots = s.boots := rfl
@[simp] theorem modPorter_exports (s : State) (c p : Nat) (f : Porter → Porter) : (modPorter s c p f).exports = s.exports := rfl
@[simp] theorem modPorter_hostRead (s : State) (c p : Nat) (f : Porter → Porter) : (modPorter s c p f).hostRead = s.hostRead := rfl

/-! ### `modCom` changes only `teams` -/

@[simp] theorem modCom_agenda (s : State) (p : Party) (f : Common → Common) : (modCom s p f).agenda = s.agenda := by cases p <;> simp [modCom]
@[simp] theorem modCom_tick (s : State) (p : Party) (f : Common → Common) : (modCom s p f).tick = s.tick := by cases p <;> simp [modCom]
@[simp] theorem modCom_turn (s : State) (p : Party) (f : Common → Common) : (modCom s p f).turn = s.turn := by cases p <;> simp [modCom]
@[simp] theorem modCom_lw (s : State) (p : Party) (f : Common → Common) : (modCom s p f).lw = s.lw := by cases p <;> simp [modCom]
@[simp] theorem modCom_insts (s : State) (p : Party) (f : Common → Common) : (modCom s p f).insts = s.insts := by cases p <;> simp [modCom]
@[simp] theorem modCom_nextTeam (s : State) (p : Party) (f : Common → Common) : (modCom s p f).nextTeam = s.nextTeam := by cases p <;> simp [modCom]
@[simp] theorem modCom_nextInst (s : State) (p : Party) (f : Common → Common) : (modCom s p f).nextInst = s.nextInst := by cases p <;> simp [modCom]
@[simp] theorem modCom_nextBind (s : State) (p : Party) (f : Common → Common) : (modCom s p f).nextBind = s.nextBind := by cases p <;> simp [modCom]
@[simp] theorem modCom_launches (s : State) (p : Party) (f : Common → Common) : (modCom s p f).launches = s.launches := by cases p <;> simp [modCom]
@[simp] theorem modCom_nextLaunch (s : State) (p : Party) (f : Common → Common) : (modCom s p f).nextLaunch = s.nextLaunch := by cases p <;> simp [modCom]
@[simp] theorem modCom_cores (s : State) (p : Party) (f : Common → Common) : (modCom s p f).cores = s.cores := by cases p <;> simp [modCom]
@[simp] theorem modCom_saves (s : State) (p : Party) (f : Common → Common) : (modCom s p f).saves = s.saves := by cases p <;> simp [modCom]
@[simp] theorem modCom_mem (s : State) (p : Party) (f : Common → Common) : (modCom s p f).mem = s.mem := by cases p <;> simp [modCom]
@[simp] theorem modCom_poison (s : State) (p : Party) (f : Common → Common) : (modCom s p f).poison = s.poison := by cases p <;> simp [modCom]
@[simp] theorem modCom_wb (s : State) (p : Party) (f : Common → Common) : (modCom s p f).wb = s.wb := by cases p <;> simp [modCom]
@[simp] theorem modCom_l1 (s : State) (p : Party) (f : Common → Common) : (modCom s p f).l1 = s.l1 := by cases p <;> simp [modCom]
@[simp] theorem modCom_sc (s : State) (p : Party) (f : Common → Common) : (modCom s p f).sc = s.sc := by cases p <;> simp [modCom]
@[simp] theorem modCom_fills (s : State) (p : Party) (f : Common → Common) : (modCom s p f).fills = s.fills := by cases p <;> simp [modCom]
@[simp] theorem modCom_tlb (s : State) (p : Party) (f : Common → Common) : (modCom s p f).tlb = s.tlb := by cases p <;> simp [modCom]
@[simp] theorem modCom_walks (s : State) (p : Party) (f : Common → Common) : (modCom s p f).walks = s.walks := by cases p <;> simp [modCom]
@[simp] theorem modCom_icache (s : State) (p : Party) (f : Common → Common) : (modCom s p f).icache = s.icache := by cases p <;> simp [modCom]
@[simp] theorem modCom_fbuf (s : State) (p : Party) (f : Common → Common) : (modCom s p f).fbuf = s.fbuf := by cases p <;> simp [modCom]
@[simp] theorem modCom_want (s : State) (p : Party) (f : Common → Common) : (modCom s p f).want = s.want := by cases p <;> simp [modCom]
@[simp] theorem modCom_scFences (s : State) (p : Party) (f : Common → Common) : (modCom s p f).scFences = s.scFences := by cases p <;> simp [modCom]
@[simp] theorem modCom_seen (s : State) (p : Party) (f : Common → Common) : (modCom s p f).seen = s.seen := by cases p <;> simp [modCom]
@[simp] theorem modCom_badStore (s : State) (p : Party) (f : Common → Common) : (modCom s p f).badStore = s.badStore := by cases p <;> simp [modCom]
@[simp] theorem modCom_refused (s : State) (p : Party) (f : Common → Common) : (modCom s p f).refused = s.refused := by cases p <;> simp [modCom]
@[simp] theorem modCom_raster (s : State) (p : Party) (f : Common → Common) : (modCom s p f).raster = s.raster := by cases p <;> simp [modCom]
@[simp] theorem modCom_sampler (s : State) (p : Party) (f : Common → Common) : (modCom s p f).sampler = s.sampler := by cases p <;> simp [modCom]
@[simp] theorem modCom_ray (s : State) (p : Party) (f : Common → Common) : (modCom s p f).ray = s.ray := by cases p <;> simp [modCom]
@[simp] theorem modCom_blend (s : State) (p : Party) (f : Common → Common) : (modCom s p f).blend = s.blend := by cases p <;> simp [modCom]
@[simp] theorem modCom_dev (s : State) (p : Party) (f : Common → Common) : (modCom s p f).dev = s.dev := by cases p <;> simp [modCom]
@[simp] theorem modCom_page (s : State) (p : Party) (f : Common → Common) : (modCom s p f).page = s.page := by cases p <;> simp [modCom]
@[simp] theorem modCom_ctxs (s : State) (p : Party) (f : Common → Common) : (modCom s p f).ctxs = s.ctxs := by cases p <;> simp [modCom]
@[simp] theorem modCom_command (s : State) (p : Party) (f : Common → Common) : (modCom s p f).command = s.command := by cases p <;> simp [modCom]
@[simp] theorem modCom_msix (s : State) (p : Party) (f : Common → Common) : (modCom s p f).msix = s.msix := by cases p <;> simp [modCom]
@[simp] theorem modCom_vfs (s : State) (p : Party) (f : Common → Common) : (modCom s p f).vfs = s.vfs := by cases p <;> simp [modCom]
@[simp] theorem modCom_alarm (s : State) (p : Party) (f : Common → Common) : (modCom s p f).alarm = s.alarm := by cases p <;> simp [modCom]
@[simp] theorem modCom_slots (s : State) (p : Party) (f : Common → Common) : (modCom s p f).slots = s.slots := by cases p <;> simp [modCom]
@[simp] theorem modCom_bwLast (s : State) (p : Party) (f : Common → Common) : (modCom s p f).bwLast = s.bwLast := by cases p <;> simp [modCom]
@[simp] theorem modCom_bwNow (s : State) (p : Party) (f : Common → Common) : (modCom s p f).bwNow = s.bwNow := by cases p <;> simp [modCom]
@[simp] theorem modCom_servedCtx (s : State) (p : Party) (f : Common → Common) : (modCom s p f).servedCtx = s.servedCtx := by cases p <;> simp [modCom]
@[simp] theorem modCom_servedQ (s : State) (p : Party) (f : Common → Common) : (modCom s p f).servedQ = s.servedQ := by cases p <;> simp [modCom]
@[simp] theorem modCom_ready (s : State) (p : Party) (f : Common → Common) : (modCom s p f).ready = s.ready := by cases p <;> simp [modCom]
@[simp] theorem modCom_boots (s : State) (p : Party) (f : Common → Common) : (modCom s p f).boots = s.boots := by cases p <;> simp [modCom]
@[simp] theorem modCom_exports (s : State) (p : Party) (f : Common → Common) : (modCom s p f).exports = s.exports := by cases p <;> simp [modCom]
@[simp] theorem modCom_hostRead (s : State) (p : Party) (f : Common → Common) : (modCom s p f).hostRead = s.hostRead := by cases p <;> simp [modCom]

/-! ### `setCtx` changes only `ctxs` -/

@[simp] theorem setCtx_agenda (s : State) (c : Nat) (x : Context) : (setCtx s c x).agenda = s.agenda := rfl
@[simp] theorem setCtx_tick (s : State) (c : Nat) (x : Context) : (setCtx s c x).tick = s.tick := rfl
@[simp] theorem setCtx_turn (s : State) (c : Nat) (x : Context) : (setCtx s c x).turn = s.turn := rfl
@[simp] theorem setCtx_lw (s : State) (c : Nat) (x : Context) : (setCtx s c x).lw = s.lw := rfl
@[simp] theorem setCtx_teams (s : State) (c : Nat) (x : Context) : (setCtx s c x).teams = s.teams := rfl
@[simp] theorem setCtx_insts (s : State) (c : Nat) (x : Context) : (setCtx s c x).insts = s.insts := rfl
@[simp] theorem setCtx_nextTeam (s : State) (c : Nat) (x : Context) : (setCtx s c x).nextTeam = s.nextTeam := rfl
@[simp] theorem setCtx_nextInst (s : State) (c : Nat) (x : Context) : (setCtx s c x).nextInst = s.nextInst := rfl
@[simp] theorem setCtx_nextBind (s : State) (c : Nat) (x : Context) : (setCtx s c x).nextBind = s.nextBind := rfl
@[simp] theorem setCtx_launches (s : State) (c : Nat) (x : Context) : (setCtx s c x).launches = s.launches := rfl
@[simp] theorem setCtx_nextLaunch (s : State) (c : Nat) (x : Context) : (setCtx s c x).nextLaunch = s.nextLaunch := rfl
@[simp] theorem setCtx_cores (s : State) (c : Nat) (x : Context) : (setCtx s c x).cores = s.cores := rfl
@[simp] theorem setCtx_saves (s : State) (c : Nat) (x : Context) : (setCtx s c x).saves = s.saves := rfl
@[simp] theorem setCtx_mem (s : State) (c : Nat) (x : Context) : (setCtx s c x).mem = s.mem := rfl
@[simp] theorem setCtx_poison (s : State) (c : Nat) (x : Context) : (setCtx s c x).poison = s.poison := rfl
@[simp] theorem setCtx_wb (s : State) (c : Nat) (x : Context) : (setCtx s c x).wb = s.wb := rfl
@[simp] theorem setCtx_l1 (s : State) (c : Nat) (x : Context) : (setCtx s c x).l1 = s.l1 := rfl
@[simp] theorem setCtx_sc (s : State) (c : Nat) (x : Context) : (setCtx s c x).sc = s.sc := rfl
@[simp] theorem setCtx_fills (s : State) (c : Nat) (x : Context) : (setCtx s c x).fills = s.fills := rfl
@[simp] theorem setCtx_tlb (s : State) (c : Nat) (x : Context) : (setCtx s c x).tlb = s.tlb := rfl
@[simp] theorem setCtx_walks (s : State) (c : Nat) (x : Context) : (setCtx s c x).walks = s.walks := rfl
@[simp] theorem setCtx_icache (s : State) (c : Nat) (x : Context) : (setCtx s c x).icache = s.icache := rfl
@[simp] theorem setCtx_fbuf (s : State) (c : Nat) (x : Context) : (setCtx s c x).fbuf = s.fbuf := rfl
@[simp] theorem setCtx_want (s : State) (c : Nat) (x : Context) : (setCtx s c x).want = s.want := rfl
@[simp] theorem setCtx_scFences (s : State) (c : Nat) (x : Context) : (setCtx s c x).scFences = s.scFences := rfl
@[simp] theorem setCtx_seen (s : State) (c : Nat) (x : Context) : (setCtx s c x).seen = s.seen := rfl
@[simp] theorem setCtx_badStore (s : State) (c : Nat) (x : Context) : (setCtx s c x).badStore = s.badStore := rfl
@[simp] theorem setCtx_refused (s : State) (c : Nat) (x : Context) : (setCtx s c x).refused = s.refused := rfl
@[simp] theorem setCtx_raster (s : State) (c : Nat) (x : Context) : (setCtx s c x).raster = s.raster := rfl
@[simp] theorem setCtx_sampler (s : State) (c : Nat) (x : Context) : (setCtx s c x).sampler = s.sampler := rfl
@[simp] theorem setCtx_ray (s : State) (c : Nat) (x : Context) : (setCtx s c x).ray = s.ray := rfl
@[simp] theorem setCtx_blend (s : State) (c : Nat) (x : Context) : (setCtx s c x).blend = s.blend := rfl
@[simp] theorem setCtx_dev (s : State) (c : Nat) (x : Context) : (setCtx s c x).dev = s.dev := rfl
@[simp] theorem setCtx_page (s : State) (c : Nat) (x : Context) : (setCtx s c x).page = s.page := rfl
@[simp] theorem setCtx_command (s : State) (c : Nat) (x : Context) : (setCtx s c x).command = s.command := rfl
@[simp] theorem setCtx_msix (s : State) (c : Nat) (x : Context) : (setCtx s c x).msix = s.msix := rfl
@[simp] theorem setCtx_vfs (s : State) (c : Nat) (x : Context) : (setCtx s c x).vfs = s.vfs := rfl
@[simp] theorem setCtx_alarm (s : State) (c : Nat) (x : Context) : (setCtx s c x).alarm = s.alarm := rfl
@[simp] theorem setCtx_slots (s : State) (c : Nat) (x : Context) : (setCtx s c x).slots = s.slots := rfl
@[simp] theorem setCtx_bwLast (s : State) (c : Nat) (x : Context) : (setCtx s c x).bwLast = s.bwLast := rfl
@[simp] theorem setCtx_bwNow (s : State) (c : Nat) (x : Context) : (setCtx s c x).bwNow = s.bwNow := rfl
@[simp] theorem setCtx_servedCtx (s : State) (c : Nat) (x : Context) : (setCtx s c x).servedCtx = s.servedCtx := rfl
@[simp] theorem setCtx_servedQ (s : State) (c : Nat) (x : Context) : (setCtx s c x).servedQ = s.servedQ := rfl
@[simp] theorem setCtx_ready (s : State) (c : Nat) (x : Context) : (setCtx s c x).ready = s.ready := rfl
@[simp] theorem setCtx_boots (s : State) (c : Nat) (x : Context) : (setCtx s c x).boots = s.boots := rfl
@[simp] theorem setCtx_exports (s : State) (c : Nat) (x : Context) : (setCtx s c x).exports = s.exports := rfl
@[simp] theorem setCtx_hostRead (s : State) (c : Nat) (x : Context) : (setCtx s c x).hostRead = s.hostRead := rfl

/-! ### `modCtx` changes only `ctxs` -/

@[simp] theorem modCtx_agenda (s : State) (c : Nat) (f : Context → Context) : (modCtx s c f).agenda = s.agenda := rfl
@[simp] theorem modCtx_tick (s : State) (c : Nat) (f : Context → Context) : (modCtx s c f).tick = s.tick := rfl
@[simp] theorem modCtx_turn (s : State) (c : Nat) (f : Context → Context) : (modCtx s c f).turn = s.turn := rfl
@[simp] theorem modCtx_lw (s : State) (c : Nat) (f : Context → Context) : (modCtx s c f).lw = s.lw := rfl
@[simp] theorem modCtx_teams (s : State) (c : Nat) (f : Context → Context) : (modCtx s c f).teams = s.teams := rfl
@[simp] theorem modCtx_insts (s : State) (c : Nat) (f : Context → Context) : (modCtx s c f).insts = s.insts := rfl
@[simp] theorem modCtx_nextTeam (s : State) (c : Nat) (f : Context → Context) : (modCtx s c f).nextTeam = s.nextTeam := rfl
@[simp] theorem modCtx_nextInst (s : State) (c : Nat) (f : Context → Context) : (modCtx s c f).nextInst = s.nextInst := rfl
@[simp] theorem modCtx_nextBind (s : State) (c : Nat) (f : Context → Context) : (modCtx s c f).nextBind = s.nextBind := rfl
@[simp] theorem modCtx_launches (s : State) (c : Nat) (f : Context → Context) : (modCtx s c f).launches = s.launches := rfl
@[simp] theorem modCtx_nextLaunch (s : State) (c : Nat) (f : Context → Context) : (modCtx s c f).nextLaunch = s.nextLaunch := rfl
@[simp] theorem modCtx_cores (s : State) (c : Nat) (f : Context → Context) : (modCtx s c f).cores = s.cores := rfl
@[simp] theorem modCtx_saves (s : State) (c : Nat) (f : Context → Context) : (modCtx s c f).saves = s.saves := rfl
@[simp] theorem modCtx_mem (s : State) (c : Nat) (f : Context → Context) : (modCtx s c f).mem = s.mem := rfl
@[simp] theorem modCtx_poison (s : State) (c : Nat) (f : Context → Context) : (modCtx s c f).poison = s.poison := rfl
@[simp] theorem modCtx_wb (s : State) (c : Nat) (f : Context → Context) : (modCtx s c f).wb = s.wb := rfl
@[simp] theorem modCtx_l1 (s : State) (c : Nat) (f : Context → Context) : (modCtx s c f).l1 = s.l1 := rfl
@[simp] theorem modCtx_sc (s : State) (c : Nat) (f : Context → Context) : (modCtx s c f).sc = s.sc := rfl
@[simp] theorem modCtx_fills (s : State) (c : Nat) (f : Context → Context) : (modCtx s c f).fills = s.fills := rfl
@[simp] theorem modCtx_tlb (s : State) (c : Nat) (f : Context → Context) : (modCtx s c f).tlb = s.tlb := rfl
@[simp] theorem modCtx_walks (s : State) (c : Nat) (f : Context → Context) : (modCtx s c f).walks = s.walks := rfl
@[simp] theorem modCtx_icache (s : State) (c : Nat) (f : Context → Context) : (modCtx s c f).icache = s.icache := rfl
@[simp] theorem modCtx_fbuf (s : State) (c : Nat) (f : Context → Context) : (modCtx s c f).fbuf = s.fbuf := rfl
@[simp] theorem modCtx_want (s : State) (c : Nat) (f : Context → Context) : (modCtx s c f).want = s.want := rfl
@[simp] theorem modCtx_scFences (s : State) (c : Nat) (f : Context → Context) : (modCtx s c f).scFences = s.scFences := rfl
@[simp] theorem modCtx_seen (s : State) (c : Nat) (f : Context → Context) : (modCtx s c f).seen = s.seen := rfl
@[simp] theorem modCtx_badStore (s : State) (c : Nat) (f : Context → Context) : (modCtx s c f).badStore = s.badStore := rfl
@[simp] theorem modCtx_refused (s : State) (c : Nat) (f : Context → Context) : (modCtx s c f).refused = s.refused := rfl
@[simp] theorem modCtx_raster (s : State) (c : Nat) (f : Context → Context) : (modCtx s c f).raster = s.raster := rfl
@[simp] theorem modCtx_sampler (s : State) (c : Nat) (f : Context → Context) : (modCtx s c f).sampler = s.sampler := rfl
@[simp] theorem modCtx_ray (s : State) (c : Nat) (f : Context → Context) : (modCtx s c f).ray = s.ray := rfl
@[simp] theorem modCtx_blend (s : State) (c : Nat) (f : Context → Context) : (modCtx s c f).blend = s.blend := rfl
@[simp] theorem modCtx_dev (s : State) (c : Nat) (f : Context → Context) : (modCtx s c f).dev = s.dev := rfl
@[simp] theorem modCtx_page (s : State) (c : Nat) (f : Context → Context) : (modCtx s c f).page = s.page := rfl
@[simp] theorem modCtx_command (s : State) (c : Nat) (f : Context → Context) : (modCtx s c f).command = s.command := rfl
@[simp] theorem modCtx_msix (s : State) (c : Nat) (f : Context → Context) : (modCtx s c f).msix = s.msix := rfl
@[simp] theorem modCtx_vfs (s : State) (c : Nat) (f : Context → Context) : (modCtx s c f).vfs = s.vfs := rfl
@[simp] theorem modCtx_alarm (s : State) (c : Nat) (f : Context → Context) : (modCtx s c f).alarm = s.alarm := rfl
@[simp] theorem modCtx_slots (s : State) (c : Nat) (f : Context → Context) : (modCtx s c f).slots = s.slots := rfl
@[simp] theorem modCtx_bwLast (s : State) (c : Nat) (f : Context → Context) : (modCtx s c f).bwLast = s.bwLast := rfl
@[simp] theorem modCtx_bwNow (s : State) (c : Nat) (f : Context → Context) : (modCtx s c f).bwNow = s.bwNow := rfl
@[simp] theorem modCtx_servedCtx (s : State) (c : Nat) (f : Context → Context) : (modCtx s c f).servedCtx = s.servedCtx := rfl
@[simp] theorem modCtx_servedQ (s : State) (c : Nat) (f : Context → Context) : (modCtx s c f).servedQ = s.servedQ := rfl
@[simp] theorem modCtx_ready (s : State) (c : Nat) (f : Context → Context) : (modCtx s c f).ready = s.ready := rfl
@[simp] theorem modCtx_boots (s : State) (c : Nat) (f : Context → Context) : (modCtx s c f).boots = s.boots := rfl
@[simp] theorem modCtx_exports (s : State) (c : Nat) (f : Context → Context) : (modCtx s c f).exports = s.exports := rfl
@[simp] theorem modCtx_hostRead (s : State) (c : Nat) (f : Context → Context) : (modCtx s c f).hostRead = s.hostRead := rfl

/-! ### `modInst` changes only `insts` -/

@[simp] theorem modInst_agenda (s : State) (i : Nat) (f : Instance → Instance) : (modInst s i f).agenda = s.agenda := by unfold modInst; (repeat' split) <;> rfl
@[simp] theorem modInst_tick (s : State) (i : Nat) (f : Instance → Instance) : (modInst s i f).tick = s.tick := by unfold modInst; (repeat' split) <;> rfl
@[simp] theorem modInst_turn (s : State) (i : Nat) (f : Instance → Instance) : (modInst s i f).turn = s.turn := by unfold modInst; (repeat' split) <;> rfl
@[simp] theorem modInst_lw (s : State) (i : Nat) (f : Instance → Instance) : (modInst s i f).lw = s.lw := by unfold modInst; (repeat' split) <;> rfl
@[simp] theorem modInst_teams (s : State) (i : Nat) (f : Instance → Instance) : (modInst s i f).teams = s.teams := by unfold modInst; (repeat' split) <;> rfl
@[simp] theorem modInst_nextTeam (s : State) (i : Nat) (f : Instance → Instance) : (modInst s i f).nextTeam = s.nextTeam := by unfold modInst; (repeat' split) <;> rfl
@[simp] theorem modInst_nextInst (s : State) (i : Nat) (f : Instance → Instance) : (modInst s i f).nextInst = s.nextInst := by unfold modInst; (repeat' split) <;> rfl
@[simp] theorem modInst_nextBind (s : State) (i : Nat) (f : Instance → Instance) : (modInst s i f).nextBind = s.nextBind := by unfold modInst; (repeat' split) <;> rfl
@[simp] theorem modInst_launches (s : State) (i : Nat) (f : Instance → Instance) : (modInst s i f).launches = s.launches := by unfold modInst; (repeat' split) <;> rfl
@[simp] theorem modInst_nextLaunch (s : State) (i : Nat) (f : Instance → Instance) : (modInst s i f).nextLaunch = s.nextLaunch := by unfold modInst; (repeat' split) <;> rfl
@[simp] theorem modInst_cores (s : State) (i : Nat) (f : Instance → Instance) : (modInst s i f).cores = s.cores := by unfold modInst; (repeat' split) <;> rfl
@[simp] theorem modInst_saves (s : State) (i : Nat) (f : Instance → Instance) : (modInst s i f).saves = s.saves := by unfold modInst; (repeat' split) <;> rfl
@[simp] theorem modInst_mem (s : State) (i : Nat) (f : Instance → Instance) : (modInst s i f).mem = s.mem := by unfold modInst; (repeat' split) <;> rfl
@[simp] theorem modInst_poison (s : State) (i : Nat) (f : Instance → Instance) : (modInst s i f).poison = s.poison := by unfold modInst; (repeat' split) <;> rfl
@[simp] theorem modInst_wb (s : State) (i : Nat) (f : Instance → Instance) : (modInst s i f).wb = s.wb := by unfold modInst; (repeat' split) <;> rfl
@[simp] theorem modInst_l1 (s : State) (i : Nat) (f : Instance → Instance) : (modInst s i f).l1 = s.l1 := by unfold modInst; (repeat' split) <;> rfl
@[simp] theorem modInst_sc (s : State) (i : Nat) (f : Instance → Instance) : (modInst s i f).sc = s.sc := by unfold modInst; (repeat' split) <;> rfl
@[simp] theorem modInst_fills (s : State) (i : Nat) (f : Instance → Instance) : (modInst s i f).fills = s.fills := by unfold modInst; (repeat' split) <;> rfl
@[simp] theorem modInst_tlb (s : State) (i : Nat) (f : Instance → Instance) : (modInst s i f).tlb = s.tlb := by unfold modInst; (repeat' split) <;> rfl
@[simp] theorem modInst_walks (s : State) (i : Nat) (f : Instance → Instance) : (modInst s i f).walks = s.walks := by unfold modInst; (repeat' split) <;> rfl
@[simp] theorem modInst_icache (s : State) (i : Nat) (f : Instance → Instance) : (modInst s i f).icache = s.icache := by unfold modInst; (repeat' split) <;> rfl
@[simp] theorem modInst_fbuf (s : State) (i : Nat) (f : Instance → Instance) : (modInst s i f).fbuf = s.fbuf := by unfold modInst; (repeat' split) <;> rfl
@[simp] theorem modInst_want (s : State) (i : Nat) (f : Instance → Instance) : (modInst s i f).want = s.want := by unfold modInst; (repeat' split) <;> rfl
@[simp] theorem modInst_scFences (s : State) (i : Nat) (f : Instance → Instance) : (modInst s i f).scFences = s.scFences := by unfold modInst; (repeat' split) <;> rfl
@[simp] theorem modInst_seen (s : State) (i : Nat) (f : Instance → Instance) : (modInst s i f).seen = s.seen := by unfold modInst; (repeat' split) <;> rfl
@[simp] theorem modInst_badStore (s : State) (i : Nat) (f : Instance → Instance) : (modInst s i f).badStore = s.badStore := by unfold modInst; (repeat' split) <;> rfl
@[simp] theorem modInst_refused (s : State) (i : Nat) (f : Instance → Instance) : (modInst s i f).refused = s.refused := by unfold modInst; (repeat' split) <;> rfl
@[simp] theorem modInst_raster (s : State) (i : Nat) (f : Instance → Instance) : (modInst s i f).raster = s.raster := by unfold modInst; (repeat' split) <;> rfl
@[simp] theorem modInst_sampler (s : State) (i : Nat) (f : Instance → Instance) : (modInst s i f).sampler = s.sampler := by unfold modInst; (repeat' split) <;> rfl
@[simp] theorem modInst_ray (s : State) (i : Nat) (f : Instance → Instance) : (modInst s i f).ray = s.ray := by unfold modInst; (repeat' split) <;> rfl
@[simp] theorem modInst_blend (s : State) (i : Nat) (f : Instance → Instance) : (modInst s i f).blend = s.blend := by unfold modInst; (repeat' split) <;> rfl
@[simp] theorem modInst_dev (s : State) (i : Nat) (f : Instance → Instance) : (modInst s i f).dev = s.dev := by unfold modInst; (repeat' split) <;> rfl
@[simp] theorem modInst_page (s : State) (i : Nat) (f : Instance → Instance) : (modInst s i f).page = s.page := by unfold modInst; (repeat' split) <;> rfl
@[simp] theorem modInst_ctxs (s : State) (i : Nat) (f : Instance → Instance) : (modInst s i f).ctxs = s.ctxs := by unfold modInst; (repeat' split) <;> rfl
@[simp] theorem modInst_command (s : State) (i : Nat) (f : Instance → Instance) : (modInst s i f).command = s.command := by unfold modInst; (repeat' split) <;> rfl
@[simp] theorem modInst_msix (s : State) (i : Nat) (f : Instance → Instance) : (modInst s i f).msix = s.msix := by unfold modInst; (repeat' split) <;> rfl
@[simp] theorem modInst_vfs (s : State) (i : Nat) (f : Instance → Instance) : (modInst s i f).vfs = s.vfs := by unfold modInst; (repeat' split) <;> rfl
@[simp] theorem modInst_alarm (s : State) (i : Nat) (f : Instance → Instance) : (modInst s i f).alarm = s.alarm := by unfold modInst; (repeat' split) <;> rfl
@[simp] theorem modInst_slots (s : State) (i : Nat) (f : Instance → Instance) : (modInst s i f).slots = s.slots := by unfold modInst; (repeat' split) <;> rfl
@[simp] theorem modInst_bwLast (s : State) (i : Nat) (f : Instance → Instance) : (modInst s i f).bwLast = s.bwLast := by unfold modInst; (repeat' split) <;> rfl
@[simp] theorem modInst_bwNow (s : State) (i : Nat) (f : Instance → Instance) : (modInst s i f).bwNow = s.bwNow := by unfold modInst; (repeat' split) <;> rfl
@[simp] theorem modInst_servedCtx (s : State) (i : Nat) (f : Instance → Instance) : (modInst s i f).servedCtx = s.servedCtx := by unfold modInst; (repeat' split) <;> rfl
@[simp] theorem modInst_servedQ (s : State) (i : Nat) (f : Instance → Instance) : (modInst s i f).servedQ = s.servedQ := by unfold modInst; (repeat' split) <;> rfl
@[simp] theorem modInst_ready (s : State) (i : Nat) (f : Instance → Instance) : (modInst s i f).ready = s.ready := by unfold modInst; (repeat' split) <;> rfl
@[simp] theorem modInst_boots (s : State) (i : Nat) (f : Instance → Instance) : (modInst s i f).boots = s.boots := by unfold modInst; (repeat' split) <;> rfl
@[simp] theorem modInst_exports (s : State) (i : Nat) (f : Instance → Instance) : (modInst s i f).exports = s.exports := by unfold modInst; (repeat' split) <;> rfl
@[simp] theorem modInst_hostRead (s : State) (i : Nat) (f : Instance → Instance) : (modInst s i f).hostRead = s.hostRead := by unfold modInst; (repeat' split) <;> rfl

/-! ### `modLaunch` changes only `launches` -/

@[simp] theorem modLaunch_agenda (s : State) (l : Nat) (f : Launch → Launch) : (modLaunch s l f).agenda = s.agenda := by unfold modLaunch; (repeat' split) <;> rfl
@[simp] theorem modLaunch_tick (s : State) (l : Nat) (f : Launch → Launch) : (modLaunch s l f).tick = s.tick := by unfold modLaunch; (repeat' split) <;> rfl
@[simp] theorem modLaunch_turn (s : State) (l : Nat) (f : Launch → Launch) : (modLaunch s l f).turn = s.turn := by unfold modLaunch; (repeat' split) <;> rfl
@[simp] theorem modLaunch_lw (s : State) (l : Nat) (f : Launch → Launch) : (modLaunch s l f).lw = s.lw := by unfold modLaunch; (repeat' split) <;> rfl
@[simp] theorem modLaunch_teams (s : State) (l : Nat) (f : Launch → Launch) : (modLaunch s l f).teams = s.teams := by unfold modLaunch; (repeat' split) <;> rfl
@[simp] theorem modLaunch_insts (s : State) (l : Nat) (f : Launch → Launch) : (modLaunch s l f).insts = s.insts := by unfold modLaunch; (repeat' split) <;> rfl
@[simp] theorem modLaunch_nextTeam (s : State) (l : Nat) (f : Launch → Launch) : (modLaunch s l f).nextTeam = s.nextTeam := by unfold modLaunch; (repeat' split) <;> rfl
@[simp] theorem modLaunch_nextInst (s : State) (l : Nat) (f : Launch → Launch) : (modLaunch s l f).nextInst = s.nextInst := by unfold modLaunch; (repeat' split) <;> rfl
@[simp] theorem modLaunch_nextBind (s : State) (l : Nat) (f : Launch → Launch) : (modLaunch s l f).nextBind = s.nextBind := by unfold modLaunch; (repeat' split) <;> rfl
@[simp] theorem modLaunch_nextLaunch (s : State) (l : Nat) (f : Launch → Launch) : (modLaunch s l f).nextLaunch = s.nextLaunch := by unfold modLaunch; (repeat' split) <;> rfl
@[simp] theorem modLaunch_cores (s : State) (l : Nat) (f : Launch → Launch) : (modLaunch s l f).cores = s.cores := by unfold modLaunch; (repeat' split) <;> rfl
@[simp] theorem modLaunch_saves (s : State) (l : Nat) (f : Launch → Launch) : (modLaunch s l f).saves = s.saves := by unfold modLaunch; (repeat' split) <;> rfl
@[simp] theorem modLaunch_mem (s : State) (l : Nat) (f : Launch → Launch) : (modLaunch s l f).mem = s.mem := by unfold modLaunch; (repeat' split) <;> rfl
@[simp] theorem modLaunch_poison (s : State) (l : Nat) (f : Launch → Launch) : (modLaunch s l f).poison = s.poison := by unfold modLaunch; (repeat' split) <;> rfl
@[simp] theorem modLaunch_wb (s : State) (l : Nat) (f : Launch → Launch) : (modLaunch s l f).wb = s.wb := by unfold modLaunch; (repeat' split) <;> rfl
@[simp] theorem modLaunch_l1 (s : State) (l : Nat) (f : Launch → Launch) : (modLaunch s l f).l1 = s.l1 := by unfold modLaunch; (repeat' split) <;> rfl
@[simp] theorem modLaunch_sc (s : State) (l : Nat) (f : Launch → Launch) : (modLaunch s l f).sc = s.sc := by unfold modLaunch; (repeat' split) <;> rfl
@[simp] theorem modLaunch_fills (s : State) (l : Nat) (f : Launch → Launch) : (modLaunch s l f).fills = s.fills := by unfold modLaunch; (repeat' split) <;> rfl
@[simp] theorem modLaunch_tlb (s : State) (l : Nat) (f : Launch → Launch) : (modLaunch s l f).tlb = s.tlb := by unfold modLaunch; (repeat' split) <;> rfl
@[simp] theorem modLaunch_walks (s : State) (l : Nat) (f : Launch → Launch) : (modLaunch s l f).walks = s.walks := by unfold modLaunch; (repeat' split) <;> rfl
@[simp] theorem modLaunch_icache (s : State) (l : Nat) (f : Launch → Launch) : (modLaunch s l f).icache = s.icache := by unfold modLaunch; (repeat' split) <;> rfl
@[simp] theorem modLaunch_fbuf (s : State) (l : Nat) (f : Launch → Launch) : (modLaunch s l f).fbuf = s.fbuf := by unfold modLaunch; (repeat' split) <;> rfl
@[simp] theorem modLaunch_want (s : State) (l : Nat) (f : Launch → Launch) : (modLaunch s l f).want = s.want := by unfold modLaunch; (repeat' split) <;> rfl
@[simp] theorem modLaunch_scFences (s : State) (l : Nat) (f : Launch → Launch) : (modLaunch s l f).scFences = s.scFences := by unfold modLaunch; (repeat' split) <;> rfl
@[simp] theorem modLaunch_seen (s : State) (l : Nat) (f : Launch → Launch) : (modLaunch s l f).seen = s.seen := by unfold modLaunch; (repeat' split) <;> rfl
@[simp] theorem modLaunch_badStore (s : State) (l : Nat) (f : Launch → Launch) : (modLaunch s l f).badStore = s.badStore := by unfold modLaunch; (repeat' split) <;> rfl
@[simp] theorem modLaunch_refused (s : State) (l : Nat) (f : Launch → Launch) : (modLaunch s l f).refused = s.refused := by unfold modLaunch; (repeat' split) <;> rfl
@[simp] theorem modLaunch_raster (s : State) (l : Nat) (f : Launch → Launch) : (modLaunch s l f).raster = s.raster := by unfold modLaunch; (repeat' split) <;> rfl
@[simp] theorem modLaunch_sampler (s : State) (l : Nat) (f : Launch → Launch) : (modLaunch s l f).sampler = s.sampler := by unfold modLaunch; (repeat' split) <;> rfl
@[simp] theorem modLaunch_ray (s : State) (l : Nat) (f : Launch → Launch) : (modLaunch s l f).ray = s.ray := by unfold modLaunch; (repeat' split) <;> rfl
@[simp] theorem modLaunch_blend (s : State) (l : Nat) (f : Launch → Launch) : (modLaunch s l f).blend = s.blend := by unfold modLaunch; (repeat' split) <;> rfl
@[simp] theorem modLaunch_dev (s : State) (l : Nat) (f : Launch → Launch) : (modLaunch s l f).dev = s.dev := by unfold modLaunch; (repeat' split) <;> rfl
@[simp] theorem modLaunch_page (s : State) (l : Nat) (f : Launch → Launch) : (modLaunch s l f).page = s.page := by unfold modLaunch; (repeat' split) <;> rfl
@[simp] theorem modLaunch_ctxs (s : State) (l : Nat) (f : Launch → Launch) : (modLaunch s l f).ctxs = s.ctxs := by unfold modLaunch; (repeat' split) <;> rfl
@[simp] theorem modLaunch_command (s : State) (l : Nat) (f : Launch → Launch) : (modLaunch s l f).command = s.command := by unfold modLaunch; (repeat' split) <;> rfl
@[simp] theorem modLaunch_msix (s : State) (l : Nat) (f : Launch → Launch) : (modLaunch s l f).msix = s.msix := by unfold modLaunch; (repeat' split) <;> rfl
@[simp] theorem modLaunch_vfs (s : State) (l : Nat) (f : Launch → Launch) : (modLaunch s l f).vfs = s.vfs := by unfold modLaunch; (repeat' split) <;> rfl
@[simp] theorem modLaunch_alarm (s : State) (l : Nat) (f : Launch → Launch) : (modLaunch s l f).alarm = s.alarm := by unfold modLaunch; (repeat' split) <;> rfl
@[simp] theorem modLaunch_slots (s : State) (l : Nat) (f : Launch → Launch) : (modLaunch s l f).slots = s.slots := by unfold modLaunch; (repeat' split) <;> rfl
@[simp] theorem modLaunch_bwLast (s : State) (l : Nat) (f : Launch → Launch) : (modLaunch s l f).bwLast = s.bwLast := by unfold modLaunch; (repeat' split) <;> rfl
@[simp] theorem modLaunch_bwNow (s : State) (l : Nat) (f : Launch → Launch) : (modLaunch s l f).bwNow = s.bwNow := by unfold modLaunch; (repeat' split) <;> rfl
@[simp] theorem modLaunch_servedCtx (s : State) (l : Nat) (f : Launch → Launch) : (modLaunch s l f).servedCtx = s.servedCtx := by unfold modLaunch; (repeat' split) <;> rfl
@[simp] theorem modLaunch_servedQ (s : State) (l : Nat) (f : Launch → Launch) : (modLaunch s l f).servedQ = s.servedQ := by unfold modLaunch; (repeat' split) <;> rfl
@[simp] theorem modLaunch_ready (s : State) (l : Nat) (f : Launch → Launch) : (modLaunch s l f).ready = s.ready := by unfold modLaunch; (repeat' split) <;> rfl
@[simp] theorem modLaunch_boots (s : State) (l : Nat) (f : Launch → Launch) : (modLaunch s l f).boots = s.boots := by unfold modLaunch; (repeat' split) <;> rfl
@[simp] theorem modLaunch_exports (s : State) (l : Nat) (f : Launch → Launch) : (modLaunch s l f).exports = s.exports := by unfold modLaunch; (repeat' split) <;> rfl
@[simp] theorem modLaunch_hostRead (s : State) (l : Nat) (f : Launch → Launch) : (modLaunch s l f).hostRead = s.hostRead := by unfold modLaunch; (repeat' split) <;> rfl

/-! ### `setDev` changes only `dev` -/

@[simp] theorem setDev_agenda (s : State) (off : Nat) (v : DWord) : (setDev s off v).agenda = s.agenda := rfl
@[simp] theorem setDev_tick (s : State) (off : Nat) (v : DWord) : (setDev s off v).tick = s.tick := rfl
@[simp] theorem setDev_turn (s : State) (off : Nat) (v : DWord) : (setDev s off v).turn = s.turn := rfl
@[simp] theorem setDev_lw (s : State) (off : Nat) (v : DWord) : (setDev s off v).lw = s.lw := rfl
@[simp] theorem setDev_teams (s : State) (off : Nat) (v : DWord) : (setDev s off v).teams = s.teams := rfl
@[simp] theorem setDev_insts (s : State) (off : Nat) (v : DWord) : (setDev s off v).insts = s.insts := rfl
@[simp] theorem setDev_nextTeam (s : State) (off : Nat) (v : DWord) : (setDev s off v).nextTeam = s.nextTeam := rfl
@[simp] theorem setDev_nextInst (s : State) (off : Nat) (v : DWord) : (setDev s off v).nextInst = s.nextInst := rfl
@[simp] theorem setDev_nextBind (s : State) (off : Nat) (v : DWord) : (setDev s off v).nextBind = s.nextBind := rfl
@[simp] theorem setDev_launches (s : State) (off : Nat) (v : DWord) : (setDev s off v).launches = s.launches := rfl
@[simp] theorem setDev_nextLaunch (s : State) (off : Nat) (v : DWord) : (setDev s off v).nextLaunch = s.nextLaunch := rfl
@[simp] theorem setDev_cores (s : State) (off : Nat) (v : DWord) : (setDev s off v).cores = s.cores := rfl
@[simp] theorem setDev_saves (s : State) (off : Nat) (v : DWord) : (setDev s off v).saves = s.saves := rfl
@[simp] theorem setDev_mem (s : State) (off : Nat) (v : DWord) : (setDev s off v).mem = s.mem := rfl
@[simp] theorem setDev_poison (s : State) (off : Nat) (v : DWord) : (setDev s off v).poison = s.poison := rfl
@[simp] theorem setDev_wb (s : State) (off : Nat) (v : DWord) : (setDev s off v).wb = s.wb := rfl
@[simp] theorem setDev_l1 (s : State) (off : Nat) (v : DWord) : (setDev s off v).l1 = s.l1 := rfl
@[simp] theorem setDev_sc (s : State) (off : Nat) (v : DWord) : (setDev s off v).sc = s.sc := rfl
@[simp] theorem setDev_fills (s : State) (off : Nat) (v : DWord) : (setDev s off v).fills = s.fills := rfl
@[simp] theorem setDev_tlb (s : State) (off : Nat) (v : DWord) : (setDev s off v).tlb = s.tlb := rfl
@[simp] theorem setDev_walks (s : State) (off : Nat) (v : DWord) : (setDev s off v).walks = s.walks := rfl
@[simp] theorem setDev_icache (s : State) (off : Nat) (v : DWord) : (setDev s off v).icache = s.icache := rfl
@[simp] theorem setDev_fbuf (s : State) (off : Nat) (v : DWord) : (setDev s off v).fbuf = s.fbuf := rfl
@[simp] theorem setDev_want (s : State) (off : Nat) (v : DWord) : (setDev s off v).want = s.want := rfl
@[simp] theorem setDev_scFences (s : State) (off : Nat) (v : DWord) : (setDev s off v).scFences = s.scFences := rfl
@[simp] theorem setDev_seen (s : State) (off : Nat) (v : DWord) : (setDev s off v).seen = s.seen := rfl
@[simp] theorem setDev_badStore (s : State) (off : Nat) (v : DWord) : (setDev s off v).badStore = s.badStore := rfl
@[simp] theorem setDev_refused (s : State) (off : Nat) (v : DWord) : (setDev s off v).refused = s.refused := rfl
@[simp] theorem setDev_raster (s : State) (off : Nat) (v : DWord) : (setDev s off v).raster = s.raster := rfl
@[simp] theorem setDev_sampler (s : State) (off : Nat) (v : DWord) : (setDev s off v).sampler = s.sampler := rfl
@[simp] theorem setDev_ray (s : State) (off : Nat) (v : DWord) : (setDev s off v).ray = s.ray := rfl
@[simp] theorem setDev_blend (s : State) (off : Nat) (v : DWord) : (setDev s off v).blend = s.blend := rfl
@[simp] theorem setDev_page (s : State) (off : Nat) (v : DWord) : (setDev s off v).page = s.page := rfl
@[simp] theorem setDev_ctxs (s : State) (off : Nat) (v : DWord) : (setDev s off v).ctxs = s.ctxs := rfl
@[simp] theorem setDev_command (s : State) (off : Nat) (v : DWord) : (setDev s off v).command = s.command := rfl
@[simp] theorem setDev_msix (s : State) (off : Nat) (v : DWord) : (setDev s off v).msix = s.msix := rfl
@[simp] theorem setDev_vfs (s : State) (off : Nat) (v : DWord) : (setDev s off v).vfs = s.vfs := rfl
@[simp] theorem setDev_alarm (s : State) (off : Nat) (v : DWord) : (setDev s off v).alarm = s.alarm := rfl
@[simp] theorem setDev_slots (s : State) (off : Nat) (v : DWord) : (setDev s off v).slots = s.slots := rfl
@[simp] theorem setDev_bwLast (s : State) (off : Nat) (v : DWord) : (setDev s off v).bwLast = s.bwLast := rfl
@[simp] theorem setDev_bwNow (s : State) (off : Nat) (v : DWord) : (setDev s off v).bwNow = s.bwNow := rfl
@[simp] theorem setDev_servedCtx (s : State) (off : Nat) (v : DWord) : (setDev s off v).servedCtx = s.servedCtx := rfl
@[simp] theorem setDev_servedQ (s : State) (off : Nat) (v : DWord) : (setDev s off v).servedQ = s.servedQ := rfl
@[simp] theorem setDev_ready (s : State) (off : Nat) (v : DWord) : (setDev s off v).ready = s.ready := rfl
@[simp] theorem setDev_boots (s : State) (off : Nat) (v : DWord) : (setDev s off v).boots = s.boots := rfl
@[simp] theorem setDev_exports (s : State) (off : Nat) (v : DWord) : (setDev s off v).exports = s.exports := rfl
@[simp] theorem setDev_hostRead (s : State) (off : Nat) (v : DWord) : (setDev s off v).hostRead = s.hostRead := rfl

/-! ### `setPage` changes only `page` -/

@[simp] theorem setPage_agenda (s : State) (c off : Nat) (v : DWord) : (setPage s c off v).agenda = s.agenda := rfl
@[simp] theorem setPage_tick (s : State) (c off : Nat) (v : DWord) : (setPage s c off v).tick = s.tick := rfl
@[simp] theorem setPage_turn (s : State) (c off : Nat) (v : DWord) : (setPage s c off v).turn = s.turn := rfl
@[simp] theorem setPage_lw (s : State) (c off : Nat) (v : DWord) : (setPage s c off v).lw = s.lw := rfl
@[simp] theorem setPage_teams (s : State) (c off : Nat) (v : DWord) : (setPage s c off v).teams = s.teams := rfl
@[simp] theorem setPage_insts (s : State) (c off : Nat) (v : DWord) : (setPage s c off v).insts = s.insts := rfl
@[simp] theorem setPage_nextTeam (s : State) (c off : Nat) (v : DWord) : (setPage s c off v).nextTeam = s.nextTeam := rfl
@[simp] theorem setPage_nextInst (s : State) (c off : Nat) (v : DWord) : (setPage s c off v).nextInst = s.nextInst := rfl
@[simp] theorem setPage_nextBind (s : State) (c off : Nat) (v : DWord) : (setPage s c off v).nextBind = s.nextBind := rfl
@[simp] theorem setPage_launches (s : State) (c off : Nat) (v : DWord) : (setPage s c off v).launches = s.launches := rfl
@[simp] theorem setPage_nextLaunch (s : State) (c off : Nat) (v : DWord) : (setPage s c off v).nextLaunch = s.nextLaunch := rfl
@[simp] theorem setPage_cores (s : State) (c off : Nat) (v : DWord) : (setPage s c off v).cores = s.cores := rfl
@[simp] theorem setPage_saves (s : State) (c off : Nat) (v : DWord) : (setPage s c off v).saves = s.saves := rfl
@[simp] theorem setPage_mem (s : State) (c off : Nat) (v : DWord) : (setPage s c off v).mem = s.mem := rfl
@[simp] theorem setPage_poison (s : State) (c off : Nat) (v : DWord) : (setPage s c off v).poison = s.poison := rfl
@[simp] theorem setPage_wb (s : State) (c off : Nat) (v : DWord) : (setPage s c off v).wb = s.wb := rfl
@[simp] theorem setPage_l1 (s : State) (c off : Nat) (v : DWord) : (setPage s c off v).l1 = s.l1 := rfl
@[simp] theorem setPage_sc (s : State) (c off : Nat) (v : DWord) : (setPage s c off v).sc = s.sc := rfl
@[simp] theorem setPage_fills (s : State) (c off : Nat) (v : DWord) : (setPage s c off v).fills = s.fills := rfl
@[simp] theorem setPage_tlb (s : State) (c off : Nat) (v : DWord) : (setPage s c off v).tlb = s.tlb := rfl
@[simp] theorem setPage_walks (s : State) (c off : Nat) (v : DWord) : (setPage s c off v).walks = s.walks := rfl
@[simp] theorem setPage_icache (s : State) (c off : Nat) (v : DWord) : (setPage s c off v).icache = s.icache := rfl
@[simp] theorem setPage_fbuf (s : State) (c off : Nat) (v : DWord) : (setPage s c off v).fbuf = s.fbuf := rfl
@[simp] theorem setPage_want (s : State) (c off : Nat) (v : DWord) : (setPage s c off v).want = s.want := rfl
@[simp] theorem setPage_scFences (s : State) (c off : Nat) (v : DWord) : (setPage s c off v).scFences = s.scFences := rfl
@[simp] theorem setPage_seen (s : State) (c off : Nat) (v : DWord) : (setPage s c off v).seen = s.seen := rfl
@[simp] theorem setPage_badStore (s : State) (c off : Nat) (v : DWord) : (setPage s c off v).badStore = s.badStore := rfl
@[simp] theorem setPage_refused (s : State) (c off : Nat) (v : DWord) : (setPage s c off v).refused = s.refused := rfl
@[simp] theorem setPage_raster (s : State) (c off : Nat) (v : DWord) : (setPage s c off v).raster = s.raster := rfl
@[simp] theorem setPage_sampler (s : State) (c off : Nat) (v : DWord) : (setPage s c off v).sampler = s.sampler := rfl
@[simp] theorem setPage_ray (s : State) (c off : Nat) (v : DWord) : (setPage s c off v).ray = s.ray := rfl
@[simp] theorem setPage_blend (s : State) (c off : Nat) (v : DWord) : (setPage s c off v).blend = s.blend := rfl
@[simp] theorem setPage_dev (s : State) (c off : Nat) (v : DWord) : (setPage s c off v).dev = s.dev := rfl
@[simp] theorem setPage_ctxs (s : State) (c off : Nat) (v : DWord) : (setPage s c off v).ctxs = s.ctxs := rfl
@[simp] theorem setPage_command (s : State) (c off : Nat) (v : DWord) : (setPage s c off v).command = s.command := rfl
@[simp] theorem setPage_msix (s : State) (c off : Nat) (v : DWord) : (setPage s c off v).msix = s.msix := rfl
@[simp] theorem setPage_vfs (s : State) (c off : Nat) (v : DWord) : (setPage s c off v).vfs = s.vfs := rfl
@[simp] theorem setPage_alarm (s : State) (c off : Nat) (v : DWord) : (setPage s c off v).alarm = s.alarm := rfl
@[simp] theorem setPage_slots (s : State) (c off : Nat) (v : DWord) : (setPage s c off v).slots = s.slots := rfl
@[simp] theorem setPage_bwLast (s : State) (c off : Nat) (v : DWord) : (setPage s c off v).bwLast = s.bwLast := rfl
@[simp] theorem setPage_bwNow (s : State) (c off : Nat) (v : DWord) : (setPage s c off v).bwNow = s.bwNow := rfl
@[simp] theorem setPage_servedCtx (s : State) (c off : Nat) (v : DWord) : (setPage s c off v).servedCtx = s.servedCtx := rfl
@[simp] theorem setPage_servedQ (s : State) (c off : Nat) (v : DWord) : (setPage s c off v).servedQ = s.servedQ := rfl
@[simp] theorem setPage_ready (s : State) (c off : Nat) (v : DWord) : (setPage s c off v).ready = s.ready := rfl
@[simp] theorem setPage_boots (s : State) (c off : Nat) (v : DWord) : (setPage s c off v).boots = s.boots := rfl
@[simp] theorem setPage_exports (s : State) (c off : Nat) (v : DWord) : (setPage s c off v).exports = s.exports := rfl
@[simp] theorem setPage_hostRead (s : State) (c off : Nat) (v : DWord) : (setPage s c off v).hostRead = s.hostRead := rfl

/-! ### `raiseCtx` changes only `msix` -/

@[simp] theorem raiseCtx_agenda (s : State) (c k : Nat) : (raiseCtx s c k).agenda = s.agenda := rfl
@[simp] theorem raiseCtx_tick (s : State) (c k : Nat) : (raiseCtx s c k).tick = s.tick := rfl
@[simp] theorem raiseCtx_turn (s : State) (c k : Nat) : (raiseCtx s c k).turn = s.turn := rfl
@[simp] theorem raiseCtx_lw (s : State) (c k : Nat) : (raiseCtx s c k).lw = s.lw := rfl
@[simp] theorem raiseCtx_teams (s : State) (c k : Nat) : (raiseCtx s c k).teams = s.teams := rfl
@[simp] theorem raiseCtx_insts (s : State) (c k : Nat) : (raiseCtx s c k).insts = s.insts := rfl
@[simp] theorem raiseCtx_nextTeam (s : State) (c k : Nat) : (raiseCtx s c k).nextTeam = s.nextTeam := rfl
@[simp] theorem raiseCtx_nextInst (s : State) (c k : Nat) : (raiseCtx s c k).nextInst = s.nextInst := rfl
@[simp] theorem raiseCtx_nextBind (s : State) (c k : Nat) : (raiseCtx s c k).nextBind = s.nextBind := rfl
@[simp] theorem raiseCtx_launches (s : State) (c k : Nat) : (raiseCtx s c k).launches = s.launches := rfl
@[simp] theorem raiseCtx_nextLaunch (s : State) (c k : Nat) : (raiseCtx s c k).nextLaunch = s.nextLaunch := rfl
@[simp] theorem raiseCtx_cores (s : State) (c k : Nat) : (raiseCtx s c k).cores = s.cores := rfl
@[simp] theorem raiseCtx_saves (s : State) (c k : Nat) : (raiseCtx s c k).saves = s.saves := rfl
@[simp] theorem raiseCtx_mem (s : State) (c k : Nat) : (raiseCtx s c k).mem = s.mem := rfl
@[simp] theorem raiseCtx_poison (s : State) (c k : Nat) : (raiseCtx s c k).poison = s.poison := rfl
@[simp] theorem raiseCtx_wb (s : State) (c k : Nat) : (raiseCtx s c k).wb = s.wb := rfl
@[simp] theorem raiseCtx_l1 (s : State) (c k : Nat) : (raiseCtx s c k).l1 = s.l1 := rfl
@[simp] theorem raiseCtx_sc (s : State) (c k : Nat) : (raiseCtx s c k).sc = s.sc := rfl
@[simp] theorem raiseCtx_fills (s : State) (c k : Nat) : (raiseCtx s c k).fills = s.fills := rfl
@[simp] theorem raiseCtx_tlb (s : State) (c k : Nat) : (raiseCtx s c k).tlb = s.tlb := rfl
@[simp] theorem raiseCtx_walks (s : State) (c k : Nat) : (raiseCtx s c k).walks = s.walks := rfl
@[simp] theorem raiseCtx_icache (s : State) (c k : Nat) : (raiseCtx s c k).icache = s.icache := rfl
@[simp] theorem raiseCtx_fbuf (s : State) (c k : Nat) : (raiseCtx s c k).fbuf = s.fbuf := rfl
@[simp] theorem raiseCtx_want (s : State) (c k : Nat) : (raiseCtx s c k).want = s.want := rfl
@[simp] theorem raiseCtx_scFences (s : State) (c k : Nat) : (raiseCtx s c k).scFences = s.scFences := rfl
@[simp] theorem raiseCtx_seen (s : State) (c k : Nat) : (raiseCtx s c k).seen = s.seen := rfl
@[simp] theorem raiseCtx_badStore (s : State) (c k : Nat) : (raiseCtx s c k).badStore = s.badStore := rfl
@[simp] theorem raiseCtx_refused (s : State) (c k : Nat) : (raiseCtx s c k).refused = s.refused := rfl
@[simp] theorem raiseCtx_raster (s : State) (c k : Nat) : (raiseCtx s c k).raster = s.raster := rfl
@[simp] theorem raiseCtx_sampler (s : State) (c k : Nat) : (raiseCtx s c k).sampler = s.sampler := rfl
@[simp] theorem raiseCtx_ray (s : State) (c k : Nat) : (raiseCtx s c k).ray = s.ray := rfl
@[simp] theorem raiseCtx_blend (s : State) (c k : Nat) : (raiseCtx s c k).blend = s.blend := rfl
@[simp] theorem raiseCtx_dev (s : State) (c k : Nat) : (raiseCtx s c k).dev = s.dev := rfl
@[simp] theorem raiseCtx_page (s : State) (c k : Nat) : (raiseCtx s c k).page = s.page := rfl
@[simp] theorem raiseCtx_ctxs (s : State) (c k : Nat) : (raiseCtx s c k).ctxs = s.ctxs := rfl
@[simp] theorem raiseCtx_command (s : State) (c k : Nat) : (raiseCtx s c k).command = s.command := rfl
@[simp] theorem raiseCtx_vfs (s : State) (c k : Nat) : (raiseCtx s c k).vfs = s.vfs := rfl
@[simp] theorem raiseCtx_alarm (s : State) (c k : Nat) : (raiseCtx s c k).alarm = s.alarm := rfl
@[simp] theorem raiseCtx_slots (s : State) (c k : Nat) : (raiseCtx s c k).slots = s.slots := rfl
@[simp] theorem raiseCtx_bwLast (s : State) (c k : Nat) : (raiseCtx s c k).bwLast = s.bwLast := rfl
@[simp] theorem raiseCtx_bwNow (s : State) (c k : Nat) : (raiseCtx s c k).bwNow = s.bwNow := rfl
@[simp] theorem raiseCtx_servedCtx (s : State) (c k : Nat) : (raiseCtx s c k).servedCtx = s.servedCtx := rfl
@[simp] theorem raiseCtx_servedQ (s : State) (c k : Nat) : (raiseCtx s c k).servedQ = s.servedQ := rfl
@[simp] theorem raiseCtx_ready (s : State) (c k : Nat) : (raiseCtx s c k).ready = s.ready := rfl
@[simp] theorem raiseCtx_boots (s : State) (c k : Nat) : (raiseCtx s c k).boots = s.boots := rfl
@[simp] theorem raiseCtx_exports (s : State) (c k : Nat) : (raiseCtx s c k).exports = s.exports := rfl
@[simp] theorem raiseCtx_hostRead (s : State) (c k : Nat) : (raiseCtx s c k).hostRead = s.hostRead := rfl

/-! ### `raisePF` changes only `msix` -/

@[simp] theorem raisePF_agenda (s : State) (v : Nat) : (raisePF s v).agenda = s.agenda := rfl
@[simp] theorem raisePF_tick (s : State) (v : Nat) : (raisePF s v).tick = s.tick := rfl
@[simp] theorem raisePF_turn (s : State) (v : Nat) : (raisePF s v).turn = s.turn := rfl
@[simp] theorem raisePF_lw (s : State) (v : Nat) : (raisePF s v).lw = s.lw := rfl
@[simp] theorem raisePF_teams (s : State) (v : Nat) : (raisePF s v).teams = s.teams := rfl
@[simp] theorem raisePF_insts (s : State) (v : Nat) : (raisePF s v).insts = s.insts := rfl
@[simp] theorem raisePF_nextTeam (s : State) (v : Nat) : (raisePF s v).nextTeam = s.nextTeam := rfl
@[simp] theorem raisePF_nextInst (s : State) (v : Nat) : (raisePF s v).nextInst = s.nextInst := rfl
@[simp] theorem raisePF_nextBind (s : State) (v : Nat) : (raisePF s v).nextBind = s.nextBind := rfl
@[simp] theorem raisePF_launches (s : State) (v : Nat) : (raisePF s v).launches = s.launches := rfl
@[simp] theorem raisePF_nextLaunch (s : State) (v : Nat) : (raisePF s v).nextLaunch = s.nextLaunch := rfl
@[simp] theorem raisePF_cores (s : State) (v : Nat) : (raisePF s v).cores = s.cores := rfl
@[simp] theorem raisePF_saves (s : State) (v : Nat) : (raisePF s v).saves = s.saves := rfl
@[simp] theorem raisePF_mem (s : State) (v : Nat) : (raisePF s v).mem = s.mem := rfl
@[simp] theorem raisePF_poison (s : State) (v : Nat) : (raisePF s v).poison = s.poison := rfl
@[simp] theorem raisePF_wb (s : State) (v : Nat) : (raisePF s v).wb = s.wb := rfl
@[simp] theorem raisePF_l1 (s : State) (v : Nat) : (raisePF s v).l1 = s.l1 := rfl
@[simp] theorem raisePF_sc (s : State) (v : Nat) : (raisePF s v).sc = s.sc := rfl
@[simp] theorem raisePF_fills (s : State) (v : Nat) : (raisePF s v).fills = s.fills := rfl
@[simp] theorem raisePF_tlb (s : State) (v : Nat) : (raisePF s v).tlb = s.tlb := rfl
@[simp] theorem raisePF_walks (s : State) (v : Nat) : (raisePF s v).walks = s.walks := rfl
@[simp] theorem raisePF_icache (s : State) (v : Nat) : (raisePF s v).icache = s.icache := rfl
@[simp] theorem raisePF_fbuf (s : State) (v : Nat) : (raisePF s v).fbuf = s.fbuf := rfl
@[simp] theorem raisePF_want (s : State) (v : Nat) : (raisePF s v).want = s.want := rfl
@[simp] theorem raisePF_scFences (s : State) (v : Nat) : (raisePF s v).scFences = s.scFences := rfl
@[simp] theorem raisePF_seen (s : State) (v : Nat) : (raisePF s v).seen = s.seen := rfl
@[simp] theorem raisePF_badStore (s : State) (v : Nat) : (raisePF s v).badStore = s.badStore := rfl
@[simp] theorem raisePF_refused (s : State) (v : Nat) : (raisePF s v).refused = s.refused := rfl
@[simp] theorem raisePF_raster (s : State) (v : Nat) : (raisePF s v).raster = s.raster := rfl
@[simp] theorem raisePF_sampler (s : State) (v : Nat) : (raisePF s v).sampler = s.sampler := rfl
@[simp] theorem raisePF_ray (s : State) (v : Nat) : (raisePF s v).ray = s.ray := rfl
@[simp] theorem raisePF_blend (s : State) (v : Nat) : (raisePF s v).blend = s.blend := rfl
@[simp] theorem raisePF_dev (s : State) (v : Nat) : (raisePF s v).dev = s.dev := rfl
@[simp] theorem raisePF_page (s : State) (v : Nat) : (raisePF s v).page = s.page := rfl
@[simp] theorem raisePF_ctxs (s : State) (v : Nat) : (raisePF s v).ctxs = s.ctxs := rfl
@[simp] theorem raisePF_command (s : State) (v : Nat) : (raisePF s v).command = s.command := rfl
@[simp] theorem raisePF_vfs (s : State) (v : Nat) : (raisePF s v).vfs = s.vfs := rfl
@[simp] theorem raisePF_alarm (s : State) (v : Nat) : (raisePF s v).alarm = s.alarm := rfl
@[simp] theorem raisePF_slots (s : State) (v : Nat) : (raisePF s v).slots = s.slots := rfl
@[simp] theorem raisePF_bwLast (s : State) (v : Nat) : (raisePF s v).bwLast = s.bwLast := rfl
@[simp] theorem raisePF_bwNow (s : State) (v : Nat) : (raisePF s v).bwNow = s.bwNow := rfl
@[simp] theorem raisePF_servedCtx (s : State) (v : Nat) : (raisePF s v).servedCtx = s.servedCtx := rfl
@[simp] theorem raisePF_servedQ (s : State) (v : Nat) : (raisePF s v).servedQ = s.servedQ := rfl
@[simp] theorem raisePF_ready (s : State) (v : Nat) : (raisePF s v).ready = s.ready := rfl
@[simp] theorem raisePF_boots (s : State) (v : Nat) : (raisePF s v).boots = s.boots := rfl
@[simp] theorem raisePF_exports (s : State) (v : Nat) : (raisePF s v).exports = s.exports := rfl
@[simp] theorem raisePF_hostRead (s : State) (v : Nat) : (raisePF s v).hostRead = s.hostRead := rfl

/-! ### What the updates set -/

@[simp] theorem getCore_setCore (s : State) (c : Nat) (x : Core) : getCore (setCore s c x) c = x := by
  simp [getCore, setCore]

theorem getCore_setCore_other (s : State) (c d : Nat) (x : Core) (h : d ≠ c) : getCore (setCore s c x) d = getCore s d :=
  Tab.get_set_other s.cores c d x Core.reset h

@[simp] theorem getCore_modCore (s : State) (c : Nat) (f : Core → Core) : getCore (modCore s c f) c = f (getCore s c) :=
  getCore_setCore s c _

theorem getCore_modCore_other (s : State) (c d : Nat) (f : Core → Core) (h : d ≠ c) :
    getCore (modCore s c f) d = getCore s d := getCore_setCore_other s c d _ h

@[simp] theorem getTeam_setTeam (s : State) (t : Nat) (x : Team) : getTeam (setTeam s t x) t = some x :=
  Tab.find_set_same s.teams t x

theorem getTeam_setTeam_other (s : State) (t u : Nat) (x : Team) (h : u ≠ t) : getTeam (setTeam s t x) u = getTeam s u :=
  Tab.find_set_other s.teams t u x h

theorem getTeam_modTeam (s : State) (t : Nat) (f : Team → Team) : getTeam (modTeam s t f) t = (getTeam s t).map f := by
  cases h : getTeam s t <;> simp [modTeam, h]

theorem getTeam_modTeam_other (s : State) (t u : Nat) (f : Team → Team) (h : u ≠ t) :
    getTeam (modTeam s t f) u = getTeam s u := by
  unfold modTeam
  split
  · exact getTeam_setTeam_other s t u _ h
  · rfl

theorem getTeam_modLead (s : State) (t : Nat) (f : Lead → Lead) :
    getTeam (modLead s t f) t = (getTeam s t).map fun x => { x with lead := f x.lead } := getTeam_modTeam s t _

theorem getGroup_modGroup (s : State) (t g : Nat) (f : Group → Group) :
    getGroup (modGroup s t g f) t g = (getGroup s t g).map f := by
  unfold modGroup getGroup
  cases h : getTeam s t with
  | none => simp [h]
  | some x => cases h2 : Tab.find x.groups g with
    | none => simp [h, h2]
    | some y => simp [setGroup, h2, Tab.find_set_same]

theorem getGroup_modGroup_other (s : State) (t g i : Nat) (f : Group → Group) (h : i ≠ g) :
    getGroup (modGroup s t g f) t i = getGroup s t i := by
  unfold modGroup getGroup
  cases h1 : getTeam s t with
  | none => simp [h1]
  | some x => cases h2 : Tab.find x.groups g with
    | none => simp [h1, h2]
    | some y => simp [setGroup, h2, Tab.find_set_other _ _ _ _ h]

theorem getPorter_setPorter (s : State) (c p : Nat) (x : Porter) : getPorter (setPorter s c p x) c p = x := by
  unfold getPorter setPorter
  by_cases h : p = 0 <;> simp [h]

@[simp] theorem getCtx_setCtx (s : State) (c : Nat) (x : Context) : getCtx (setCtx s c x) c = x := by simp [getCtx, setCtx]

theorem getCtx_setCtx_other (s : State) (c d : Nat) (x : Context) (h : d ≠ c) : getCtx (setCtx s c x) d = getCtx s d :=
  Tab.get_set_other s.ctxs c d x Context.free h

end Sys2Proof.Machine
end

