-- ==== Sys2Proof/Laws/Frame.lean ====
section
/-! SUPPORT. What the shared operations of an issue leave unchanged: everything but the teams and the cores. -/

namespace Sys2Proof.Machine

/-- `t` differs from `s` in teams and cores at most. -/
def OnlyWork (s t : State) : Prop := t = { s with teams := t.teams, cores := t.cores }

theorem OnlyWork.refl (s : State) : OnlyWork s s := rfl

theorem OnlyWork.trans {s t u : State} (h : OnlyWork s t) (k : OnlyWork t u) : OnlyWork s u := by
  unfold OnlyWork at *
  rw [k, h]

theorem setTeam_only (s : State) (t : Nat) (x : Team) : OnlyWork s (setTeam s t x) := rfl

theorem setCore_only (s : State) (c : Nat) (x : Core) : OnlyWork s (setCore s c x) := rfl

theorem modCore_only (s : State) (c : Nat) (f : Core → Core) : OnlyWork s (modCore s c f) := rfl

theorem modPorter_only (s : State) (c p : Nat) (f : Porter → Porter) : OnlyWork s (modPorter s c p f) := rfl

theorem modTeam_only (s : State) (t : Nat) (f : Team → Team) : OnlyWork s (modTeam s t f) := by
  unfold modTeam
  split
  · exact setTeam_only ..
  · exact .refl s

theorem modLead_only (s : State) (t : Nat) (f : Lead → Lead) : OnlyWork s (modLead s t f) := modTeam_only ..

theorem modGroup_only (s : State) (t g : Nat) (f : Group → Group) : OnlyWork s (modGroup s t g f) := by
  unfold modGroup
  repeat' split
  · exact setTeam_only ..
  · exact .refl s
  · exact .refl s

theorem modCom_only (s : State) (p : Party) (f : Common → Common) : OnlyWork s (modCom s p f) := by
  unfold modCom
  cases p with
  | group t g => exact modGroup_only ..
  | lead t => exact modLead_only ..
  | porter c n => exact .refl s

theorem putRegs_only (s : State) (p : Party) (l : List (Nat × Nat)) : OnlyWork s (putRegs s p l) := by
  unfold putRegs
  cases p with
  | group t g => exact modGroup_only ..
  | lead t => exact modLead_only ..
  | porter c n => exact modPorter_only ..

theorem writeRun_only (e : Env) (s : State) (c : Code) (n : Nat) (v : Nat → Nat) : OnlyWork s (writeRun e s c n v) := by
  unfold writeRun dropKeys
  exact (putRegs_only ..).trans (modCom_only ..)

theorem writePred_only (e : Env) (s : State) (c : Code) (v : Nat → Bool) : OnlyWork s (writePred e s c v) := by
  unfold writePred dropKeys
  exact (putRegs_only ..).trans (modCom_only ..)

/-- A destination that is no queue. -/
theorem writeOut_only (e : Env) (s : State) (c : Code) (v : Nat → Nat) (h : isQ c = false) :
    OnlyWork s (writeOut e s c v) := by
  unfold writeOut
  split
  · exact .refl s
  · rw [h]; exact writeRun_only ..

theorem counted_only (e : Env) (s : State) : OnlyWork s (counted e s) := modCom_only ..

theorem addOp_only (e : Env) (s : State) (k : OpKind) (l : List Lane) (d : List (Nat × Nat × Nat)) (v : Nat) :
    OnlyWork s (addOp e s k l d v) := modCom_only ..

theorem attach_only (e : Env) (s : State) : OnlyWork s (attach e s) := by
  unfold attach
  split
  · exact .refl s
  · exact addOp_only ..

theorem fall_only (e : Env) (s : State) : OnlyWork s (fall e s) := by
  unfold fall
  split
  · exact modGroup_only ..
  · exact modLead_only ..
  · exact modPorter_only ..

/-- Going on: the count, the attached flag and the PC. -/
theorem done_only (e : Env) (s : State) : OnlyWork s (done e s) :=
  ((counted_only e s).trans (attach_only ..)).trans (fall_only ..)

theorem later_only (e : Env) (s : State) (k : OpKind) (l : List Lane) (d : List (Nat × Nat × Nat)) (v : Nat) :
    OnlyWork s (later e s k l d v) :=
  ((counted_only e s).trans (addOp_only ..)).trans (fall_only ..)

/-- An instruction that writes a register, or nothing, and goes on. -/
theorem done_writeOut_only (e : Env) (c : Code) (v : Nat → Nat) (h : isQ c = false) :
    OnlyWork e.s (done e (writeOut e e.s c v)) := (writeOut_only e e.s c v h).trans (done_only ..)

/-! ### Reading teams back -/

theorem getTeam_setTeam_same (s : State) (t : Nat) (x : Team) : getTeam (setTeam s t x) t = some x := Tab.find_set_same ..

theorem getTeam_modTeam_same (s : State) (t : Nat) (f : Team → Team) (x : Team) (h : getTeam s t = some x) :
    getTeam (modTeam s t f) t = some (f x) := by
  unfold modTeam
  rw [h]
  exact getTeam_setTeam_same ..

theorem getTeam_modGroup_same (s : State) (t g : Nat) (f : Group → Group) (x : Team) (y : Group)
    (h : getTeam s t = some x) (hg : Tab.find x.groups g = some y) :
    getTeam (modGroup s t g f) t = some (setGroup x g (f y)) := by
  unfold modGroup
  rw [h]
  simp only [hg]
  exact getTeam_setTeam_same ..

theorem getTeam_modGroup_other (s : State) (t g k : Nat) (f : Group → Group) (h : k ≠ t) :
    getTeam (modGroup s t g f) k = getTeam s k := by
  unfold modGroup
  repeat' split
  · exact getTeam_setTeam_other _ _ _ _ h
  · rfl
  · rfl

theorem find_setGroup_same (x : Team) (g : Nat) (y : Group) : Tab.find (setGroup x g y).groups g = some y :=
  Tab.find_set_same ..

theorem find_setGroup_other (x : Team) (g k : Nat) (y : Group) (h : k ≠ g) :
    Tab.find (setGroup x g y).groups k = Tab.find x.groups k := Tab.find_set_other _ _ _ _ h

theorem getCore_setCore_same (s : State) (c : Nat) (x : Core) : getCore (setCore s c x) c = x := Tab.get_set_same ..

end Sys2Proof.Machine
end

