-- ==== Sys2Proof/Laws/MemoryKeep.lean ====
section
/-! SUPPORT. Every operation of the caches, the queues, the traps, the issue and the transfers leaves memory alone (`_mem`) or keeps its canonical form (`_wf`). -/

namespace Sys2Proof.Machine

set_option linter.unusedSimpArgs false
set_option linter.unusedVariables false

/-! ### Loops -/

theorem foldl_mem {α : Type} (l : List α) (f : State → α → State) (s : State) (m : List Host.Cell) (h0 : s.mem = m)
    (hf : ∀ s x, (f s x).mem = s.mem) : (l.foldl f s).mem = m := by
  induction l generalizing s with
  | nil => exact h0
  | cons x r ih => exact ih _ ((hf s x).trans h0)

theorem foldl_fst_mem {α β : Type} (l : List α) (f : State × β → α → State × β) (a : State × β) (m : List Host.Cell)
    (h0 : a.1.mem = m) (hf : ∀ a x, (f a x).1.mem = a.1.mem) : (l.foldl f a).1.mem = m := by
  induction l generalizing a with
  | nil => exact h0
  | cons x r ih => exact ih _ ((hf a x).trans h0)

theorem foldl_wf {α : Type} (l : List α) (f : State → α → State) (s : State) (h0 : Memory.wf s.mem = true)
    (hf : ∀ s x, Memory.wf s.mem = true → Memory.wf (f s x).mem = true) : Memory.wf (l.foldl f s).mem = true := by
  induction l generalizing s with
  | nil => exact h0
  | cons x r ih => exact ih _ (hf s x h0)

theorem foldl_fst_wf {α β : Type} (l : List α) (f : State × β → α → State × β) (a : State × β)
    (h0 : Memory.wf a.1.mem = true)
    (hf : ∀ a x, Memory.wf a.1.mem = true → Memory.wf (f a x).1.mem = true) :
    Memory.wf (l.foldl f a).1.mem = true := by
  induction l generalizing a with
  | nil => exact h0
  | cons x r ih => exact ih _ (hf a x h0)

theorem foldE_keep {σ ε α : Type} (P : σ → Prop) (l : List α) (f : σ → α → Except ε σ)
    (hf : ∀ a x b, P a → f a x = .ok b → P b) (s t : σ) (h : foldE l s f = .ok t) (hs : P s) : P t := by
  induction l generalizing s with
  | nil => cases h; exact hs
  | cons x r ih =>
    simp only [foldE] at h
    split at h
    · rename_i b hb
      exact ih b h (hf s x b hs hb)
    · cases h

theorem foldO_keep {σ α : Type} (P : σ → Prop) (l : List α) (f : σ → α → Option σ)
    (hf : ∀ a x b, P a → f a x = some b → P b) (s t : σ) (h : foldO l s f = some t) (hs : P s) : P t := by
  induction l generalizing s with
  | nil => cases h; exact hs
  | cons x r ih =>
    simp only [foldO] at h
    split at h
    · rename_i b hb
      exact ih b h (hf s x b hs hb)
    · cases h

theorem toOption_some {ε α : Type} {x : Except ε α} {a : α} (h : x.toOption = some a) : x = .ok a := by
  cases x with
  | error e => cases h
  | ok b => cases h; rfl

/-! ### Mmu -/

@[simp] theorem tlbFill_mem (s : State) (e : TlbEntry) : (tlbFill s e).mem = s.mem := by
  unfold tlbFill
  repeat' first
    | with_reducible rfl
    | split
    | refine foldl_mem _ _ _ _ ?_ fun _ _ => ?_
    | refine foldl_fst_mem _ _ _ _ ?_ fun _ _ => ?_
    | dsimp only
    | simp

@[simp] theorem countSector_mem (s : State) (ctx : Option Nat) (sector : Nat) : (countSector s ctx sector).mem = s.mem := by
  unfold countSector
  repeat' first
    | with_reducible rfl
    | split
    | refine foldl_mem _ _ _ _ ?_ fun _ _ => ?_
    | refine foldl_fst_mem _ _ _ _ ?_ fun _ _ => ?_
    | dsimp only
    | simp

@[simp] theorem countLine_mem (s : State) (p line : Nat) : (countLine s p line).mem = s.mem :=
  foldl_mem _ _ _ _ rfl fun _ _ => countSector_mem ..

@[simp] theorem movedSector_mem (s : State) (ctx sector : Nat) : (movedSector s ctx sector).mem = s.mem := by
  unfold movedSector
  repeat' first
    | with_reducible rfl
    | split
    | refine foldl_mem _ _ _ _ ?_ fun _ _ => ?_
    | refine foldl_fst_mem _ _ _ _ ?_ fun _ _ => ?_
    | dsimp only
    | simp

@[simp] theorem lineBack_mem (s : State) (line : Nat) : (lineBack s line).mem = s.mem := by
  unfold lineBack
  repeat' first
    | with_reducible rfl
    | split
    | refine foldl_mem _ _ _ _ ?_ fun _ _ => ?_
    | refine foldl_fst_mem _ _ _ _ ?_ fun _ _ => ?_
    | dsimp only
    | simp

@[simp] theorem walked_mem (s : State) (c va : Nat) : (walked s c va).mem = s.mem := by
  unfold walked
  repeat' first
    | with_reducible rfl
    | split
    | refine foldl_mem _ _ _ _ ?_ fun _ _ => ?_
    | refine foldl_fst_mem _ _ _ _ ?_ fun _ _ => ?_
    | dsimp only
    | simp

@[simp] theorem startWalk_mem (s : State) (c core : Nat) (part : Option Nat) (vpn : Nat) :
    (startWalk s c core part vpn).mem = s.mem := by
  unfold startWalk
  repeat' first
    | with_reducible rfl
    | split
    | refine foldl_mem _ _ _ _ ?_ fun _ _ => ?_
    | refine foldl_fst_mem _ _ _ _ ?_ fun _ _ => ?_
    | dsimp only
    | simp

@[simp] theorem fillTlbs_mem (s : State) (c core : Nat) (part : Option Nat) (va lg : Nat) (pte : DWord) :
    (fillTlbs s c core part va lg pte).mem = s.mem := by
  unfold fillTlbs
  repeat' first
    | with_reducible rfl
    | split
    | refine foldl_mem _ _ _ _ ?_ fun _ _ => ?_
    | refine foldl_fst_mem _ _ _ _ ?_ fun _ _ => ?_
    | dsimp only
    | simp

@[simp] theorem endWalk_mem (s : State) (i : Nat) : (endWalk s i).mem = s.mem := by
  unfold endWalk
  repeat' first
    | with_reducible rfl
    | split
    | refine foldl_mem _ _ _ _ ?_ fun _ _ => ?_
    | refine foldl_fst_mem _ _ _ _ ?_ fun _ _ => ?_
    | dsimp only
    | simp

@[simp] theorem touchTlb_mem (s : State) (c core va : Nat) : (touchTlb s c core va).mem = s.mem := by
  unfold touchTlb
  repeat' first
    | with_reducible rfl
    | split
    | refine foldl_mem _ _ _ _ ?_ fun _ _ => ?_
    | refine foldl_fst_mem _ _ _ _ ?_ fun _ _ => ?_
    | dsimp only
    | simp

@[simp] theorem touchRange_mem (s : State) (c va n : Nat) : (touchRange s c va n).mem = s.mem :=
  foldl_mem _ _ _ _ rfl fun _ _ => touchTlb_mem ..

@[simp] theorem dropWalk_mem (s : State) (c vpn : Nat) : (dropWalk s c vpn).mem = s.mem := by
  unfold dropWalk
  repeat' first
    | with_reducible rfl
    | split
    | refine foldl_mem _ _ _ _ ?_ fun _ _ => ?_
    | refine foldl_fst_mem _ _ _ _ ?_ fun _ _ => ?_
    | dsimp only
    | simp

/-! ### Cache -/

@[simp] theorem scAllocate_mem (s : State) (line p lv : Nat) : (scAllocate s line p lv).mem = s.mem := by
  unfold scAllocate
  repeat' first
    | with_reducible rfl
    | split
    | refine foldl_mem _ _ _ _ ?_ fun _ _ => ?_
    | refine foldl_fst_mem _ _ _ _ ?_ fun _ _ => ?_
    | dsimp only
    | simp

@[simp] theorem scDirty_mem (s : State) (line : Nat) : (scDirty s line).mem = s.mem := by
  unfold scDirty
  repeat' first
    | with_reducible rfl
    | split
    | refine foldl_mem _ _ _ _ ?_ fun _ _ => ?_
    | refine foldl_fst_mem _ _ _ _ ?_ fun _ _ => ?_
    | dsimp only
    | simp

@[simp] theorem linkServed_mem (s : State) (pa : Nat) : (linkServed s pa).mem = s.mem := by
  unfold linkServed
  repeat' first
    | with_reducible rfl
    | split
    | refine foldl_mem _ _ _ _ ?_ fun _ _ => ?_
    | refine foldl_fst_mem _ _ _ _ ?_ fun _ _ => ?_
    | dsimp only
    | simp

@[simp] theorem sliceWrite_wf (s : State) (ctx sector mask : Nat) (l : List Byte) (bad : Bool) (hw : Memory.wf s.mem = true) :
    Memory.wf (sliceWrite s ctx sector mask l bad).mem = true := by
  unfold sliceWrite
  dsimp only
  split
  · exact hw
  · split
    · simpa using hw
    · exact cellsPut_wf _ _ _ (by simpa using hw)

@[simp] theorem l1Drop_mem (s : State) (core sector : Nat) : (l1Drop s core sector).mem = s.mem := by
  unfold l1Drop
  repeat' first
    | with_reducible rfl
    | split
    | refine foldl_mem _ _ _ _ ?_ fun _ _ => ?_
    | refine foldl_fst_mem _ _ _ _ ?_ fun _ _ => ?_
    | dsimp only
    | simp

@[simp] theorem l1Allocate_mem (s : State) (core sector lv : Nat) (l : List Byte) (bad : Bool) :
    (l1Allocate s core sector lv l bad).mem = s.mem := by
  unfold l1Allocate
  repeat' first
    | with_reducible rfl
    | split
    | refine foldl_mem _ _ _ _ ?_ fun _ _ => ?_
    | refine foldl_fst_mem _ _ _ _ ?_ fun _ _ => ?_
    | dsimp only
    | simp

@[simp] theorem l1Refresh_mem (s : State) (core sector : Nat) (l : List Byte) (bad : Bool) :
    (l1Refresh s core sector l bad).mem = s.mem := by
  unfold l1Refresh
  repeat' first
    | with_reducible rfl
    | split
    | refine foldl_mem _ _ _ _ ?_ fun _ _ => ?_
    | refine foldl_fst_mem _ _ _ _ ?_ fun _ _ => ?_
    | dsimp only
    | simp

@[simp] theorem noAllocate_mem (s : State) (core : Nat) : (noAllocate s core).mem = s.mem := by
  unfold noAllocate
  repeat' first
    | with_reducible rfl
    | split
    | refine foldl_mem _ _ _ _ ?_ fun _ _ => ?_
    | refine foldl_fst_mem _ _ _ _ ?_ fun _ _ => ?_
    | dsimp only
    | simp

@[simp] theorem phaseBoundary_mem (s : State) (core : Nat) : (phaseBoundary s core).mem = s.mem := by
  unfold phaseBoundary
  repeat' first
    | with_reducible rfl
    | split
    | refine foldl_mem _ _ _ _ ?_ fun _ _ => ?_
    | refine foldl_fst_mem _ _ _ _ ?_ fun _ _ => ?_
    | dsimp only
    | simp

@[simp] theorem wbDrop_mem (s : State) (core sector : Nat) : (wbDrop s core sector).mem = s.mem := by
  unfold wbDrop
  repeat' first
    | with_reducible rfl
    | split
    | refine foldl_mem _ _ _ _ ?_ fun _ _ => ?_
    | refine foldl_fst_mem _ _ _ _ ?_ fun _ _ => ?_
    | dsimp only
    | simp

@[simp] theorem drainEntry_wf (s : State) (e : WbEntry) (hw : Memory.wf s.mem = true) :
    Memory.wf (drainEntry s e).mem = true := by
  unfold drainEntry
  repeat' first
    | with_reducible exact hw
    | with_reducible assumption
    | split
    | (refine foldl_wf _ _ _ ?_ (fun _ _ _ => ?_))
    | (refine foldl_fst_wf _ _ _ ?_ (fun _ _ _ => ?_))
    | dsimp only
    | (simp [*]; done)
    | simp

@[simp] theorem drainCore_wf (s : State) (core : Nat) (hw : Memory.wf s.mem = true) :
    Memory.wf (drainCore s core).mem = true := by
  unfold drainCore
  repeat' first
    | with_reducible exact hw
    | with_reducible assumption
    | split
    | (refine foldl_wf _ _ _ ?_ (fun _ _ _ => ?_))
    | (refine foldl_fst_wf _ _ _ ?_ (fun _ _ _ => ?_))
    | dsimp only
    | (simp [*]; done)
    | simp

@[simp] theorem drainSector_wf (s : State) (core sector : Nat) (hw : Memory.wf s.mem = true) :
    Memory.wf (drainSector s core sector).mem = true := by
  unfold drainSector
  repeat' first
    | with_reducible exact hw
    | with_reducible assumption
    | split
    | (refine foldl_wf _ _ _ ?_ (fun _ _ _ => ?_))
    | (refine foldl_fst_wf _ _ _ ?_ (fun _ _ _ => ?_))
    | dsimp only
    | (simp [*]; done)
    | simp

theorem wbPut_wf (t : State) (core sector n : Nat) (e : WbEntry) (hw : Memory.wf t.mem = true) :
    let s2 : State := { wbDrop t core sector with wb := (wbDrop t core sector).wb ++ [e] }
    let held := s2.wb.filter fun x => x.core == core
    Memory.wf (if held.length ≤ 64 then s2
      else match held[n % held.length]? with
        | some v => drainEntry s2 v
        | none => s2).mem = true := by
  have h2 : ∀ e, Memory.wf ({ wbDrop t core sector with wb := (wbDrop t core sector).wb ++ [e] } : State).mem = true := by
    intro e; simpa using hw
  dsimp only
  split
  · exact h2 e
  · split
    · exact drainEntry_wf _ _ (h2 e)
    · exact h2 e

@[simp] theorem storeBytes_wf (s : State) (core : Nat) (p : Phys) (l1 sc : Nat) (l : List Byte) (bad : Bool) (hw : Memory.wf s.mem = true) :
    Memory.wf (storeBytes s core p l1 sc l bad).mem = true := by
  unfold storeBytes
  extract_lets sector
  dsimp only
  refine wbPut_wf _ core _ _ _ ?_
  have h : ∀ (q : Prop) [Decidable q], Memory.wf (if q then movedSector s (coreCtx s core) sector else s).mem = true := by
    intro q _; split <;> simpa using hw
  split
  · exact h _
  · split
    · simpa using h _
    · exact h _

@[simp] theorem readSlice_mem (s : State) (core : Nat) (pa key n l1 sc part : Nat) :
    (readSlice s core pa key n l1 sc part).1.mem = s.mem := by
  unfold readSlice
  repeat' first
    | with_reducible rfl
    | split
    | refine foldl_mem _ _ _ _ ?_ fun _ _ => ?_
    | refine foldl_fst_mem _ _ _ _ ?_ fun _ _ => ?_
    | dsimp only
    | simp

@[simp] theorem readMem_mem (s : State) (core : Nat) (p : Phys) (n l1 sc : Nat) :
    (readMem s core p n l1 sc).1.mem = s.mem := by
  unfold readMem
  repeat' first
    | with_reducible rfl
    | split
    | refine foldl_mem _ _ _ _ ?_ fun _ _ => ?_
    | refine foldl_fst_mem _ _ _ _ ?_ fun _ _ => ?_
    | dsimp only
    | simp

@[simp] theorem takenPieces_mem (s : State) (c core : Nat) (k : Acc133) (l : List Nat) :
    (takenPieces s c core k l).mem = s.mem := by
  induction l generalizing s with
  | nil => rfl
  | cons x r ih => unfold takenPieces; dsimp only; split <;> simp [ih]

@[simp] theorem takenVirt_mem (s : State) (c core va n : Nat) (k : Acc133) : (takenVirt s c core va n k).mem = s.mem :=
  takenPieces_mem ..

@[simp] theorem writeAt_wf (s : State) (ctx : Nat) (p : Phys) (l : List Byte) (hw : Memory.wf s.mem = true) :
    Memory.wf (writeAt s ctx p l).mem = true := by
  unfold writeAt
  repeat' first
    | with_reducible exact hw
    | with_reducible assumption
    | split
    | (refine foldl_wf _ _ _ ?_ (fun _ _ _ => ?_))
    | (refine foldl_fst_wf _ _ _ ?_ (fun _ _ _ => ?_))
    | dsimp only
    | (simp [*]; done)
    | simp

@[simp] theorem physPut_wf (s : State) (ctx pa : Nat) (l : List Byte) (hw : Memory.wf s.mem = true) :
    Memory.wf (physPut s ctx pa l).mem = true :=
  foldl_wf _ _ _ hw fun _ _ h => sliceWrite_wf _ _ _ _ _ _ h

@[simp] theorem hostWrite_wf (s : State) (pa : Nat) (l : List Byte) (hw : Memory.wf s.mem = true) :
    Memory.wf (hostWrite s pa l).mem = true := physPut_wf s 0 pa l hw

@[simp] theorem storeWrite_wf (s : State) (c base size limit n : Nat) (hw : Memory.wf s.mem = true) :
    Memory.wf (storeWrite s c base size limit n).mem = true := physPut_wf s c _ _ hw

theorem writeVirt_wf (s : State) (c va : Nat) (l : List Byte) (k : Acc133) {t : State} (h : writeVirt s c va l k = .ok t)
    (hw : Memory.wf s.mem = true) : Memory.wf t.mem = true := by
  unfold writeVirt at h
  split at h
  · cases h
  · cases h
    exact foldl_wf _ _ _ hw fun a x ha => writeAt_wf a c x.1 _ ha

/-! ### Barrier -/

@[simp] theorem modBar_mem (s : State) (b : BarRef) (f : Barrier → Barrier) : (modBar s b f).mem = s.mem := by
  unfold modBar
  repeat' first
    | with_reducible rfl
    | split
    | refine foldl_mem _ _ _ _ ?_ fun _ _ => ?_
    | refine foldl_fst_mem _ _ _ _ ?_ fun _ _ => ?_
    | dsimp only
    | simp

@[simp] theorem barTake_mem (s : State) (b : BarRef) : (barTake s b).mem = s.mem := by
  unfold barTake
  repeat' first
    | with_reducible rfl
    | split
    | refine foldl_mem _ _ _ _ ?_ fun _ _ => ?_
    | refine foldl_fst_mem _ _ _ _ ?_ fun _ _ => ?_
    | dsimp only
    | simp

@[simp] theorem barDrop_mem (s : State) (b : BarRef) : (barDrop s b).mem = s.mem := by
  unfold barDrop
  repeat' first
    | with_reducible rfl
    | split
    | refine foldl_mem _ _ _ _ ?_ fun _ _ => ?_
    | refine foldl_fst_mem _ _ _ _ ?_ fun _ _ => ?_
    | dsimp only
    | simp

@[simp] theorem mapCommons_mem (s : State) (f : Common → Common) : (mapCommons s f).mem = s.mem := by
  unfold mapCommons
  repeat' first
    | with_reducible rfl
    | split
    | refine foldl_mem _ _ _ _ ?_ fun _ _ => ?_
    | refine foldl_fst_mem _ _ _ _ ?_ fun _ _ => ?_
    | dsimp only
    | simp

@[simp] theorem releasePorters_mem (s : State) (b : BarRef) (w : WaitEnd) :
    (releasePorters s b w).mem = s.mem := by
  unfold releasePorters
  repeat' first
    | with_reducible rfl
    | split
    | refine foldl_mem _ _ _ _ ?_ fun _ _ => ?_
    | refine foldl_fst_mem _ _ _ _ ?_ fun _ _ => ?_
    | dsimp only
    | simp

@[simp] theorem releaseAll_mem (s : State) (b : BarRef) (w : WaitEnd) : (releaseAll s b w).mem = s.mem := by
  unfold releaseAll
  repeat' first
    | with_reducible rfl
    | split
    | refine foldl_mem _ _ _ _ ?_ fun _ _ => ?_
    | refine foldl_fst_mem _ _ _ _ ?_ fun _ _ => ?_
    | dsimp only
    | simp

@[simp] theorem phaseTest_mem (s : State) (b : BarRef) : (phaseTest s b).mem = s.mem := by
  unfold phaseTest
  repeat' first
    | with_reducible rfl
    | split
    | refine foldl_mem _ _ _ _ ?_ fun _ _ => ?_
    | refine foldl_fst_mem _ _ _ _ ?_ fun _ _ => ?_
    | dsimp only
    | simp

@[simp] theorem barArrive_mem (s : State) (b : BarRef) (at' n : Nat) : (barArrive s b at' n).mem = s.mem := by
  unfold barArrive
  repeat' first
    | with_reducible rfl
    | split
    | refine foldl_mem _ _ _ _ ?_ fun _ _ => ?_
    | refine foldl_fst_mem _ _ _ _ ?_ fun _ _ => ?_
    | dsimp only
    | simp

@[simp] theorem barCredit_mem (s : State) (b : BarRef) (at' n : Nat) : (barCredit s b at' n).1.mem = s.mem := by
  unfold barCredit
  repeat' first
    | with_reducible rfl
    | split
    | refine foldl_mem _ _ _ _ ?_ fun _ _ => ?_
    | refine foldl_fst_mem _ _ _ _ ?_ fun _ _ => ?_
    | dsimp only
    | simp

@[simp] theorem barInvalidate_mem (s : State) (b : BarRef) : (barInvalidate s b).mem = s.mem := by
  unfold barInvalidate
  repeat' first
    | with_reducible rfl
    | split
    | refine foldl_mem _ _ _ _ ?_ fun _ _ => ?_
    | refine foldl_fst_mem _ _ _ _ ?_ fun _ _ => ?_
    | dsimp only
    | simp

@[simp] theorem barLeave_mem (s : State) (b : BarRef) : (barLeave s b).mem = s.mem := by
  unfold barLeave
  repeat' first
    | with_reducible rfl
    | split
    | refine foldl_mem _ _ _ _ ?_ fun _ _ => ?_
    | refine foldl_fst_mem _ _ _ _ ?_ fun _ _ => ?_
    | dsimp only
    | simp

@[simp] theorem barDropTeam_mem (s : State) (t : Nat) : (barDropTeam s t).mem = s.mem := by
  unfold barDropTeam
  repeat' first
    | with_reducible rfl
    | split
    | refine foldl_mem _ _ _ _ ?_ fun _ _ => ?_
    | refine foldl_fst_mem _ _ _ _ ?_ fun _ _ => ?_
    | dsimp only
    | simp

/-! ### QueueOps -/

@[simp] theorem modQueue_mem (s : State) (i q : Nat) (f : Queue → Queue) : (modQueue s i q f).mem = s.mem := by
  unfold modQueue
  repeat' first
    | with_reducible rfl
    | split
    | refine foldl_mem _ _ _ _ ?_ fun _ _ => ?_
    | refine foldl_fst_mem _ _ _ _ ?_ fun _ _ => ?_
    | dsimp only
    | simp

@[simp] theorem closeEnds_mem (s : State) (i : Nat) : (closeEnds s i).mem = s.mem := by
  unfold closeEnds
  repeat' first
    | with_reducible rfl
    | split
    | refine foldl_mem _ _ _ _ ?_ fun _ _ => ?_
    | refine foldl_fst_mem _ _ _ _ ?_ fun _ _ => ?_
    | dsimp only
    | simp

@[simp] theorem pushOrder_wf (s : State) (core i q : Nat) (hw : Memory.wf s.mem = true) :
    Memory.wf (pushOrder s core i q).mem = true := by
  unfold pushOrder
  repeat' first
    | with_reducible exact hw
    | with_reducible assumption
    | split
    | (refine foldl_wf _ _ _ ?_ (fun _ _ _ => ?_))
    | (refine foldl_fst_wf _ _ _ ?_ (fun _ _ _ => ?_))
    | dsimp only
    | (simp [*]; done)
    | simp

@[simp] theorem popOrder_mem (s : State) (core : Nat) (r : Record) : (popOrder s core r).mem = s.mem := by
  unfold popOrder
  repeat' first
    | with_reducible rfl
    | split
    | refine foldl_mem _ _ _ _ ?_ fun _ _ => ?_
    | refine foldl_fst_mem _ _ _ _ ?_ fun _ _ => ?_
    | dsimp only
    | simp

/-! ### Ops -/

@[simp] theorem recordStall_mem (s : State) (p : Party) (r : Stall) : (recordStall s p r).mem = s.mem := by
  unfold recordStall
  repeat' first
    | with_reducible rfl
    | split
    | refine foldl_mem _ _ _ _ ?_ fun _ _ => ?_
    | refine foldl_fst_mem _ _ _ _ ?_ fun _ _ => ?_
    | dsimp only
    | simp

@[simp] theorem escalate_mem (s : State) (core : Nat) (e : TrapEntry) (handler : Bool) :
    (escalate s core e handler).mem = s.mem := by
  unfold escalate
  repeat' first
    | with_reducible rfl
    | split
    | refine foldl_mem _ _ _ _ ?_ fun _ _ => ?_
    | refine foldl_fst_mem _ _ _ _ ?_ fun _ _ => ?_
    | dsimp only
    | simp

@[simp] theorem queueTrap_mem (s : State) (core : Nat) (e : TrapEntry) : (queueTrap s core e).mem = s.mem := by
  unfold queueTrap
  repeat' first
    | with_reducible rfl
    | split
    | refine foldl_mem _ _ _ _ ?_ fun _ _ => ?_
    | refine foldl_fst_mem _ _ _ _ ?_ fun _ _ => ?_
    | dsimp only
    | simp

@[simp] theorem raiseTrap_mem (s : State) (p : Party) (code : Byte) (detail : Nat) (pc : DWord) (va : Nat) :
    (raiseTrap s p code detail pc va).mem = s.mem := by
  unfold raiseTrap
  repeat' first
    | with_reducible rfl
    | split
    | refine foldl_mem _ _ _ _ ?_ fun _ _ => ?_
    | refine foldl_fst_mem _ _ _ _ ?_ fun _ _ => ?_
    | dsimp only
    | simp

@[simp] theorem raiseDeferred_mem (s : State) (p : Party) (o : Op) (detail va : Nat) :
    (raiseDeferred s p o detail va).mem = s.mem := by
  unfold raiseDeferred
  repeat' first
    | with_reducible rfl
    | split
    | refine foldl_mem _ _ _ _ ?_ fun _ _ => ?_
    | refine foldl_fst_mem _ _ _ _ ?_ fun _ _ => ?_
    | dsimp only
    | simp

@[simp] theorem leaveXwait_mem (s : State) (core n : Nat) : (leaveXwait s core n).mem = s.mem := by
  unfold leaveXwait
  repeat' first
    | with_reducible rfl
    | split
    | refine foldl_mem _ _ _ _ ?_ fun _ _ => ?_
    | refine foldl_fst_mem _ _ _ _ ?_ fun _ _ => ?_
    | dsimp only
    | simp

@[simp] theorem porterFaulted_mem (s : State) (core n : Nat) (f : PFault) :
    (porterFaulted s core n f).mem = s.mem := by
  unfold porterFaulted
  repeat' first
    | with_reducible rfl
    | split
    | refine foldl_mem _ _ _ _ ?_ fun _ _ => ?_
    | refine foldl_fst_mem _ _ _ _ ?_ fun _ _ => ?_
    | dsimp only
    | simp

@[simp] theorem porterStop_mem (s : State) (core n : Nat) (f : PFault) : (porterStop s core n f).mem = s.mem := by
  unfold porterStop
  repeat' first
    | with_reducible rfl
    | split
    | refine foldl_mem _ _ _ _ ?_ fun _ _ => ?_
    | refine foldl_fst_mem _ _ _ _ ?_ fun _ _ => ?_
    | dsimp only
    | simp

@[simp] theorem porterIdle_mem (s : State) (core n : Nat) : (porterIdle s core n).mem = s.mem := by
  unfold porterIdle
  repeat' first
    | with_reducible rfl
    | split
    | refine foldl_mem _ _ _ _ ?_ fun _ _ => ?_
    | refine foldl_fst_mem _ _ _ _ ?_ fun _ _ => ?_
    | dsimp only
    | simp

@[simp] theorem stopPorter_mem (s : State) (core n : Nat) : (stopPorter s core n).mem = s.mem := by
  unfold stopPorter
  repeat' first
    | with_reducible rfl
    | split
    | refine foldl_mem _ _ _ _ ?_ fun _ _ => ?_
    | refine foldl_fst_mem _ _ _ _ ?_ fun _ _ => ?_
    | dsimp only
    | simp

@[simp] theorem stopPorters_mem (s : State) (t : Nat) : (stopPorters s t).mem = s.mem := by
  unfold stopPorters
  repeat' first
    | with_reducible rfl
    | split
    | refine foldl_mem _ _ _ _ ?_ fun _ _ => ?_
    | refine foldl_fst_mem _ _ _ _ ?_ fun _ _ => ?_
    | dsimp only
    | simp

@[simp] theorem dropCmd_mem (s : State) (m : MeCmd) : (dropCmd s m).mem = s.mem := by
  unfold dropCmd
  repeat' first
    | with_reducible rfl
    | split
    | refine foldl_mem _ _ _ _ ?_ fun _ _ => ?_
    | refine foldl_fst_mem _ _ _ _ ?_ fun _ _ => ?_
    | dsimp only
    | simp

@[simp] theorem abandonCmds_mem (s : State) (t : Nat) (f : MeCmd → Bool) : (abandonCmds s t f).mem = s.mem := by
  unfold abandonCmds
  repeat' first
    | with_reducible rfl
    | split
    | refine foldl_mem _ _ _ _ ?_ fun _ _ => ?_
    | refine foldl_fst_mem _ _ _ _ ?_ fun _ _ => ?_
    | dsimp only
    | simp

@[simp] theorem syncAdvance_mem (s : State) (t : Nat) : (syncAdvance s t).mem = s.mem := by
  unfold syncAdvance
  repeat' first
    | with_reducible rfl
    | split
    | refine foldl_mem _ _ _ _ ?_ fun _ _ => ?_
    | refine foldl_fst_mem _ _ _ _ ?_ fun _ _ => ?_
    | dsimp only
    | simp

@[simp] theorem groupExit_mem (s : State) (t g : Nat) : (groupExit s t g).mem = s.mem := by
  unfold groupExit
  repeat' first
    | with_reducible rfl
    | split
    | refine foldl_mem _ _ _ _ ?_ fun _ _ => ?_
    | refine foldl_fst_mem _ _ _ _ ?_ fun _ _ => ?_
    | dsimp only
    | simp

@[simp] theorem leadExit_mem (s : State) (t : Nat) : (leadExit s t).mem = s.mem := by
  unfold leadExit
  repeat' first
    | with_reducible rfl
    | split
    | refine foldl_mem _ _ _ _ ?_ fun _ _ => ?_
    | refine foldl_fst_mem _ _ _ _ ?_ fun _ _ => ?_
    | dsimp only
    | simp

@[simp] theorem stopTeam_mem (s : State) (t : Nat) : (stopTeam s t).mem = s.mem := by
  unfold stopTeam
  repeat' first
    | with_reducible rfl
    | split
    | refine foldl_mem _ _ _ _ ?_ fun _ _ => ?_
    | refine foldl_fst_mem _ _ _ _ ?_ fun _ _ => ?_
    | dsimp only
    | simp

@[simp] theorem killSaved_mem (s : State) (t : Nat) : (killSaved s t).mem = s.mem := rfl

@[simp] theorem killTeam_mem (s : State) (t : Nat) : (killTeam s t).mem = s.mem := by
  unfold killTeam
  repeat' first
    | with_reducible rfl
    | split
    | refine foldl_mem _ _ _ _ ?_ fun _ _ => ?_
    | refine foldl_fst_mem _ _ _ _ ?_ fun _ _ => ?_
    | dsimp only
    | simp

@[simp] theorem endHandler_mem (s : State) (core : Nat) : (endHandler s core).mem = s.mem := by
  unfold endHandler
  repeat' first
    | with_reducible rfl
    | split
    | refine foldl_mem _ _ _ _ ?_ fun _ _ => ?_
    | refine foldl_fst_mem _ _ _ _ ?_ fun _ _ => ?_
    | dsimp only
    | simp

@[simp] theorem resumeParty_mem (s : State) (p : Party) : (resumeParty s p).mem = s.mem := by
  unfold resumeParty
  repeat' first
    | with_reducible rfl
    | split
    | refine foldl_mem _ _ _ _ ?_ fun _ _ => ?_
    | refine foldl_fst_mem _ _ _ _ ?_ fun _ _ => ?_
    | dsimp only
    | simp

@[simp] theorem movePast_mem (s : State) (p : Party) : (movePast s p).mem = s.mem := by
  unfold movePast
  repeat' first
    | with_reducible rfl
    | split
    | refine foldl_mem _ _ _ _ ?_ fun _ _ => ?_
    | refine foldl_fst_mem _ _ _ _ ?_ fun _ _ => ?_
    | dsimp only
    | simp

@[simp] theorem skipParty_mem (s : State) (p : Party) : (skipParty s p).mem = s.mem := by
  unfold skipParty
  repeat' first
    | with_reducible rfl
    | split
    | refine foldl_mem _ _ _ _ ?_ fun _ _ => ?_
    | refine foldl_fst_mem _ _ _ _ ?_ fun _ _ => ?_
    | dsimp only
    | simp

@[simp] theorem applyAction_mem (s : State) (core : Nat) (e : TrapEntry) (act : Nat) :
    (applyAction s core e act).mem = s.mem := by
  unfold applyAction
  repeat' first
    | with_reducible rfl
    | split
    | refine foldl_mem _ _ _ _ ?_ fun _ _ => ?_
    | refine foldl_fst_mem _ _ _ _ ?_ fun _ _ => ?_
    | dsimp only
    | simp

@[simp] theorem enterHandler_mem (s : State) (core : Nat) : (enterHandler s core).mem = s.mem := by
  unfold enterHandler
  repeat' first
    | with_reducible rfl
    | split
    | refine foldl_mem _ _ _ _ ?_ fun _ _ => ?_
    | refine foldl_fst_mem _ _ _ _ ?_ fun _ _ => ?_
    | dsimp only
    | simp

/-! ### Preempt -/

@[simp] theorem preemptWhere_mem (s : State) (f : Nat × Team → Bool) : (preemptWhere s f).mem = s.mem := by
  unfold preemptWhere
  repeat' first
    | with_reducible rfl
    | split
    | refine foldl_mem _ _ _ _ ?_ fun _ _ => ?_
    | refine foldl_fst_mem _ _ _ _ ?_ fun _ _ => ?_
    | dsimp only
    | simp

@[simp] theorem preemptCore_mem (s : State) (core : Nat) : (preemptCore s core).mem = s.mem := by
  unfold preemptCore
  repeat' first
    | with_reducible rfl
    | split
    | refine foldl_mem _ _ _ _ ?_ fun _ _ => ?_
    | refine foldl_fst_mem _ _ _ _ ?_ fun _ _ => ?_
    | dsimp only
    | simp

@[simp] theorem preemptTest_mem (s : State) (core : Nat) : (preemptTest s core).mem = s.mem := by
  unfold preemptTest
  repeat' first
    | with_reducible rfl
    | split
    | refine foldl_mem _ _ _ _ ?_ fun _ _ => ?_
    | refine foldl_fst_mem _ _ _ _ ?_ fun _ _ => ?_
    | dsimp only
    | simp

@[simp] theorem withdrawWait_mem (s : State) (p : Party) : (withdrawWait s p).mem = s.mem := by
  unfold withdrawWait
  repeat' first
    | with_reducible rfl
    | split
    | refine foldl_mem _ _ _ _ ?_ fun _ _ => ?_
    | refine foldl_fst_mem _ _ _ _ ?_ fun _ _ => ?_
    | dsimp only
    | simp

@[simp] theorem stopParty_mem (s : State) (p : Party) : (stopParty s p).mem = s.mem := by
  unfold stopParty
  repeat' first
    | with_reducible rfl
    | split
    | refine foldl_mem _ _ _ _ ?_ fun _ _ => ?_
    | refine foldl_fst_mem _ _ _ _ ?_ fun _ _ => ?_
    | dsimp only
    | simp

@[simp] theorem stopStalled_mem (s : State) (p : Party) : (stopStalled s p).mem = s.mem := by
  unfold stopStalled
  repeat' first
    | with_reducible rfl
    | split
    | refine foldl_mem _ _ _ _ ?_ fun _ _ => ?_
    | refine foldl_fst_mem _ _ _ _ ?_ fun _ _ => ?_
    | dsimp only
    | simp

@[simp] theorem stallParty_mem (s : State) (p : Party) (r : Stall) : (stallParty s p r).mem = s.mem := by
  unfold stallParty
  repeat' first
    | with_reducible rfl
    | split
    | refine foldl_mem _ _ _ _ ?_ fun _ _ => ?_
    | refine foldl_fst_mem _ _ _ _ ?_ fun _ _ => ?_
    | dsimp only
    | simp

@[simp] theorem stopAt_mem (s : State) (p : Party) (mask : Option (BitVec 16)) (pending : Bool) :
    (stopAt s p mask pending).mem = s.mem := by
  unfold stopAt
  repeat' first
    | with_reducible rfl
    | split
    | refine foldl_mem _ _ _ _ ?_ fun _ _ => ?_
    | refine foldl_fst_mem _ _ _ _ ?_ fun _ _ => ?_
    | dsimp only
    | simp

@[simp] theorem waypointDone_mem (s : State) (p : Party) (mask : Option (BitVec 16)) :
    (waypointDone s p mask).mem = s.mem := by
  unfold waypointDone
  repeat' first
    | with_reducible rfl
    | split
    | refine foldl_mem _ _ _ _ ?_ fun _ _ => ?_
    | refine foldl_fst_mem _ _ _ _ ?_ fun _ _ => ?_
    | dsimp only
    | simp

@[simp] theorem goOn_mem (s : State) (p : Party) (c : Common) (bound : Bool) : (goOn s p c bound).mem = s.mem := by
  unfold goOn
  repeat' first
    | with_reducible rfl
    | split
    | refine foldl_mem _ _ _ _ ?_ fun _ _ => ?_
    | refine foldl_fst_mem _ _ _ _ ?_ fun _ _ => ?_
    | dsimp only
    | simp

@[simp] theorem endTrap_mem (s : State) (core : Nat) (e : TrapEntry) (act : Nat) :
    (endTrap s core e act).mem = s.mem := by
  unfold endTrap
  repeat' first
    | with_reducible rfl
    | split
    | refine foldl_mem _ _ _ _ ?_ fun _ _ => ?_
    | refine foldl_fst_mem _ _ _ _ ?_ fun _ _ => ?_
    | dsimp only
    | simp

/-! ### Operands -/

@[simp] theorem putRegs_mem (s : State) (p : Party) (kvs : List (Nat × Nat)) : (putRegs s p kvs).mem = s.mem := by
  unfold putRegs
  repeat' first
    | with_reducible rfl
    | split
    | refine foldl_mem _ _ _ _ ?_ fun _ _ => ?_
    | refine foldl_fst_mem _ _ _ _ ?_ fun _ _ => ?_
    | dsimp only
    | simp

@[simp] theorem dropKeys_mem (s : State) (p : Party) (ks : List Nat) : (dropKeys s p ks).mem = s.mem := by
  unfold dropKeys
  repeat' first
    | with_reducible rfl
    | split
    | refine foldl_mem _ _ _ _ ?_ fun _ _ => ?_
    | refine foldl_fst_mem _ _ _ _ ?_ fun _ _ => ?_
    | dsimp only
    | simp

@[simp] theorem writeRun_mem (e : Env) (s : State) (c : Code) (n : Nat) (v : Nat → Nat) :
    (writeRun e s c n v).mem = s.mem := by
  unfold writeRun
  repeat' first
    | with_reducible rfl
    | split
    | refine foldl_mem _ _ _ _ ?_ fun _ _ => ?_
    | refine foldl_fst_mem _ _ _ _ ?_ fun _ _ => ?_
    | dsimp only
    | simp

@[simp] theorem writePred_mem (e : Env) (s : State) (c : Code) (v : Nat → Bool) :
    (writePred e s c v).mem = s.mem := by
  unfold writePred
  repeat' first
    | with_reducible rfl
    | split
    | refine foldl_mem _ _ _ _ ?_ fun _ _ => ?_
    | refine foldl_fst_mem _ _ _ _ ?_ fun _ _ => ?_
    | dsimp only
    | simp

@[simp] theorem pushQueue_wf (e : Env) (s : State) (q : Nat) (v : Nat → Nat) (hw : Memory.wf s.mem = true) :
    Memory.wf (pushQueue e s q v).mem = true := by
  unfold pushQueue
  repeat' first
    | with_reducible exact hw
    | with_reducible assumption
    | split
    | (refine foldl_wf _ _ _ ?_ (fun _ _ _ => ?_))
    | (refine foldl_fst_wf _ _ _ ?_ (fun _ _ _ => ?_))
    | dsimp only
    | (simp [*]; done)
    | simp

@[simp] theorem writeOut_wf (e : Env) (s : State) (c : Code) (v : Nat → Nat) (hw : Memory.wf s.mem = true) :
    Memory.wf (writeOut e s c v).mem = true := by
  unfold writeOut
  repeat' first
    | with_reducible exact hw
    | with_reducible assumption
    | split
    | (refine foldl_wf _ _ _ ?_ (fun _ _ _ => ?_))
    | (refine foldl_fst_wf _ _ _ ?_ (fun _ _ _ => ?_))
    | dsimp only
    | (simp [*]; done)
    | simp

@[simp] theorem counted_mem (e : Env) (s : State) : (counted e s).mem = s.mem := by
  unfold counted
  repeat' first
    | with_reducible rfl
    | split
    | refine foldl_mem _ _ _ _ ?_ fun _ _ => ?_
    | refine foldl_fst_mem _ _ _ _ ?_ fun _ _ => ?_
    | dsimp only
    | simp

@[simp] theorem addOp_mem (e : Env) (s : State) (kind : OpKind) (lanes : List Lane) (dst : List (Nat × Nat × Nat)) (value : Nat) :
    (addOp e s kind lanes dst value).mem = s.mem := by
  unfold addOp
  repeat' first
    | with_reducible rfl
    | split
    | refine foldl_mem _ _ _ _ ?_ fun _ _ => ?_
    | refine foldl_fst_mem _ _ _ _ ?_ fun _ _ => ?_
    | dsimp only
    | simp

@[simp] theorem attach_mem (e : Env) (s : State) : (attach e s).mem = s.mem := by
  unfold attach
  repeat' first
    | with_reducible rfl
    | split
    | refine foldl_mem _ _ _ _ ?_ fun _ _ => ?_
    | refine foldl_fst_mem _ _ _ _ ?_ fun _ _ => ?_
    | dsimp only
    | simp

@[simp] theorem fall_mem (e : Env) (s : State) : (fall e s).mem = s.mem := by
  unfold fall
  repeat' first
    | with_reducible rfl
    | split
    | refine foldl_mem _ _ _ _ ?_ fun _ _ => ?_
    | refine foldl_fst_mem _ _ _ _ ?_ fun _ _ => ?_
    | dsimp only
    | simp

@[simp] theorem done_mem (e : Env) (s : State) : (done e s).mem = s.mem := by
  unfold done
  repeat' first
    | with_reducible rfl
    | split
    | refine foldl_mem _ _ _ _ ?_ fun _ _ => ?_
    | refine foldl_fst_mem _ _ _ _ ?_ fun _ _ => ?_
    | dsimp only
    | simp

@[simp] theorem later_mem (e : Env) (s : State) (kind : OpKind) (lanes : List Lane) (dst : List (Nat × Nat × Nat)) (value : Nat) :
    (later e s kind lanes dst value).mem = s.mem := by
  unfold later
  repeat' first
    | with_reducible rfl
    | split
    | refine foldl_mem _ _ _ _ ?_ fun _ _ => ?_
    | refine foldl_fst_mem _ _ _ _ ?_ fun _ _ => ?_
    | dsimp only
    | simp

@[simp] theorem dropLine_mem (s : State) (core va : Nat) : (dropLine s core va).mem = s.mem := by
  unfold dropLine
  repeat' first
    | with_reducible rfl
    | split
    | refine foldl_mem _ _ _ _ ?_ fun _ _ => ?_
    | refine foldl_fst_mem _ _ _ _ ?_ fun _ _ => ?_
    | dsimp only
    | simp

@[simp] theorem wantLine_mem (s : State) (core ctx va : Nat) : (wantLine s core ctx va).mem = s.mem := by
  unfold wantLine
  repeat' first
    | with_reducible rfl
    | split
    | refine foldl_mem _ _ _ _ ?_ fun _ _ => ?_
    | refine foldl_fst_mem _ _ _ _ ?_ fun _ _ => ?_
    | dsimp only
    | simp

@[simp] theorem settle_mem (s : State) (p : Party) (i : Instr) (pc : DWord) (x : Stop) :
    (settle s p i pc x).mem = s.mem := by
  unfold settle
  repeat' first
    | with_reducible rfl
    | split
    | refine foldl_mem _ _ _ _ ?_ fun _ _ => ?_
    | refine foldl_fst_mem _ _ _ _ ?_ fun _ _ => ?_
    | dsimp only
    | simp

/-! ### Fetch -/

theorem fetchLine_mem (s : State) (p : Party) (va : Nat) (arrived : Bool) {t} (h : fetchLine s p va arrived = .ok t) :
    t.1.mem = s.mem := by
  unfold fetchLine at h
  repeat' first
    | contradiction
    | (cases h; first | with_reducible rfl | (simp [*]; done))
    | split at h
    | dsimp only at h

/-! ### Mem -/

theorem storeNow_wf (s : State) (core : Nat) (p : Phys) (l1 sc : Nat) (l : List Byte) (bad now : Bool) (hw : Memory.wf s.mem = true) :
    Memory.wf (if now = true then drainSector (storeBytes s core p l1 sc l bad) core (p.pa / 32)
      else storeBytes s core p l1 sc l bad).mem = true := by
  cases now with
  | true => exact drainSector_wf _ _ _ (storeBytes_wf _ _ _ _ _ _ _ hw)
  | false => exact storeBytes_wf _ _ _ _ _ _ _ hw

@[simp] theorem storeLanes_wf (e : Env) (s : State) (pol : BitVec 4) (n : Nat) (data : Nat → Nat) (ls : List (Nat × Nat × Phys)) (hw : Memory.wf s.mem = true) :
    Memory.wf (storeLanes e s pol n data ls).mem = true :=
  foldl_wf _ _ _ hw fun _ _ h => storeNow_wf _ _ _ _ _ _ _ _ h

theorem atomicIssue_wf (e : Env) (d a b : Code) (off : BitVec 24) (o : Mo) (op : BitVec 4) (k : Acc133) (dst : List (Nat × Nat × Nat)) {t} (h : atomicIssue e d a b off o op k dst = .ok t) (hw : Memory.wf e.s.mem = true) :
    Memory.wf t.mem = true := by
  unfold atomicIssue at h
  repeat' first
    | contradiction
    | (cases h; first | with_reducible rfl | (simp [*]; done))
    | split at h
    | dsimp only at h

@[simp] theorem prefLane_mem (e : Env) (pol : BitVec 4) (s : State) (va : Nat) :
    (prefLane e pol s va).mem = s.mem := by
  unfold prefLane
  repeat' first
    | with_reducible rfl
    | split
    | refine foldl_mem _ _ _ _ ?_ fun _ _ => ?_
    | refine foldl_fst_mem _ _ _ _ ?_ fun _ _ => ?_
    | dsimp only
    | simp

@[simp] theorem cleanLine_mem (s : State) (line : Nat) : (cleanLine s line).mem = s.mem := by
  unfold cleanLine
  repeat' first
    | with_reducible rfl
    | split
    | refine foldl_mem _ _ _ _ ?_ fun _ _ => ?_
    | refine foldl_fst_mem _ _ _ _ ?_ fun _ _ => ?_
    | dsimp only
    | simp

@[simp] theorem pinLine_mem (s : State) (line : Nat) (p : Phys) : (pinLine s line p).1.mem = s.mem := by
  unfold pinLine
  repeat' first
    | with_reducible rfl
    | split
    | refine foldl_mem _ _ _ _ ?_ fun _ _ => ?_
    | refine foldl_fst_mem _ _ _ _ ?_ fun _ _ => ?_
    | dsimp only
    | simp

@[simp] theorem unpinLines_mem (s : State) (ls : List Nat) : (unpinLines s ls).mem = s.mem := by
  unfold unpinLines
  repeat' first
    | with_reducible rfl
    | split
    | refine foldl_mem _ _ _ _ ?_ fun _ _ => ?_
    | refine foldl_fst_mem _ _ _ _ ?_ fun _ _ => ?_
    | dsimp only
    | simp

/-! ### CoreEvents -/

@[simp] theorem modLane_mem (s : State) (p : Party) (id lane : Nat) (f : Lane → Lane) :
    (modLane s p id lane f).mem = s.mem := by
  unfold modLane
  repeat' first
    | with_reducible rfl
    | split
    | refine foldl_mem _ _ _ _ ?_ fun _ _ => ?_
    | refine foldl_fst_mem _ _ _ _ ?_ fun _ _ => ?_
    | dsimp only
    | simp

@[simp] theorem loadLane_mem (s : State) (p : Party) (o : Op) (l : Lane) : (loadLane s p o l).mem = s.mem := by
  unfold loadLane
  try dsimp only
  rw [modLane_mem, readSlice_mem]

@[simp] theorem atomicLane_wf (s : State) (p : Party) (o : Op) (l : Lane) (hw : Memory.wf s.mem = true) :
    Memory.wf (atomicLane s p o l).mem = true := by
  unfold atomicLane
  repeat' first
    | with_reducible exact hw
    | with_reducible assumption
    | split
    | (refine foldl_wf _ _ _ ?_ (fun _ _ _ => ?_))
    | (refine foldl_fst_wf _ _ _ ?_ (fun _ _ _ => ?_))
    | dsimp only
    | (simp [*]; done)
    | simp

@[simp] theorem applyLanes_wf (s : State) (l : List Request) (hw : Memory.wf s.mem = true) :
    Memory.wf (applyLanes s l).mem = true := by
  unfold applyLanes
  repeat' first
    | with_reducible exact hw
    | with_reducible assumption
    | split
    | (refine foldl_wf _ _ _ ?_ (fun _ _ _ => ?_))
    | (refine foldl_fst_wf _ _ _ ?_ (fun _ _ _ => ?_))
    | dsimp only
    | (simp [*]; done)
    | simp

theorem monTake_mem (s : State) (p : Party) (op : Nat) (l : Lane) (cond n v : Nat) (bad : Bool) {t} (h : monTake s p op l cond n v bad = some t) :
    t.mem = s.mem := by
  unfold monTake at h
  repeat' first
    | contradiction
    | (cases h; first | with_reducible rfl | (simp [*]; done))
    | split at h
    | dsimp only at h

@[simp] theorem holdLine_mem (s : State) (l : CodeLine) : (holdLine s l).mem = s.mem := by
  unfold holdLine
  repeat' first
    | with_reducible rfl
    | split
    | refine foldl_mem _ _ _ _ ?_ fun _ _ => ?_
    | refine foldl_fst_mem _ _ _ _ ?_ fun _ _ => ?_
    | dsimp only
    | simp

@[simp] theorem lineTaken_mem (s : State) (core ctx va : Nat) : (lineTaken s core ctx va).mem = s.mem := takenVirt_mem ..

@[simp] theorem fetchAhead_mem (s : State) (core va : Nat) : (fetchAhead s core va).mem = s.mem := by
  unfold fetchAhead
  repeat' first
    | with_reducible rfl
    | split
    | refine foldl_mem _ _ _ _ ?_ fun _ _ => ?_
    | refine foldl_fst_mem _ _ _ _ ?_ fun _ _ => ?_
    | dsimp only
    | simp

@[simp] theorem storeLane_wf (s : State) (p : Party) (o : Op) (l : Lane) (hw : Memory.wf s.mem = true) :
    Memory.wf (storeLane s p o l).mem = true := by
  unfold storeLane
  try dsimp only
  rw [modLane_mem]
  exact drainSector_wf _ _ _ (storeBytes_wf _ _ _ _ _ _ _ (drainCore_wf _ _ hw))

@[simp] theorem monitorRead_mem (s : State) (p : Party) (op lane : Nat) : (monitorRead s p op lane).mem = s.mem := by
  unfold monitorRead
  split
  · rfl
  · split
    · dsimp only
      split
      · rename_i he
        obtain ⟨x, _, hx⟩ := Option.bind_eq_some_iff.1 he
        exact monTake_mem _ _ _ _ _ _ _ _ hx
      · have key : ∀ (r : State) (o : Option State), (∀ t, o = some t → t.mem = r.mem) → r.mem = s.mem →
            (o.getD r).mem = s.mem := by
          intro r o h1 h2
          cases o with
          | none => exact h2
          | some t => exact (h1 t rfl).trans h2
        exact key _ _ (fun t h => monTake_mem _ _ _ _ _ _ _ _ h) (readSlice_mem ..)
    · rfl

@[simp] theorem rearmLane_mem (s : State) (p : Party) (o : Op) (l : Lane) : (rearmLane s p o l).mem = s.mem := by
  unfold rearmLane
  split
  · rw [monitorRead_mem, modLane_mem, touchTlb_mem]
  · rw [modLane_mem]

@[simp] theorem rearm_mem (s : State) (p : Party) : (rearm s p).mem = s.mem := by
  unfold rearm
  refine foldl_mem _ _ _ _ rfl fun a o => ?_
  split
  · exact foldl_mem _ _ _ _ rfl fun b l => rearmLane_mem b p o l
  · rfl

/-! ### Xfer -/

@[simp] theorem portRead_mem (s : State) (core : Nat) (p : Phys) (n : Nat) : (portRead s core p n).1.mem = s.mem := by
  unfold portRead
  repeat' first
    | with_reducible rfl
    | split
    | refine foldl_mem _ _ _ _ ?_ fun _ _ => ?_
    | refine foldl_fst_mem _ _ _ _ ?_ fun _ _ => ?_
    | dsimp only
    | simp

@[simp] theorem portWrite_wf (s : State) (core : Nat) (p : Phys) (l : List Byte) (bad : Bool) (hw : Memory.wf s.mem = true) :
    Memory.wf (portWrite s core p l bad).mem = true := by
  have h := storeNow_wf s core p (polLevel 0 p.ca false) (polLevel 0 p.ca true) l bad (decide (p.ca = 1)) hw
  simpa only [portWrite, decide_eq_true_eq] using h

@[simp] theorem pieceRead_mem (s : State) (tid core : Nat) (x : Xfer) (sp : Bool) (p : Piece) :
    (pieceRead s tid core x sp p).1.mem = s.mem := by
  unfold pieceRead
  try dsimp only
  split
  · split <;> rfl
  · exact portRead_mem ..

@[simp] theorem unitRead_mem (s : State) (tid core : Nat) (x : Xfer) (en : XEnd) (u : Nat) :
    (unitRead s tid core x en u).1.mem = s.mem := by
  unfold unitRead
  exact foldl_fst_mem _ _ _ _ rfl fun a p => pieceRead_mem a.1 tid core x _ p

@[simp] theorem pieceWrite_wf (s : State) (tid core : Nat) (x : Xfer) (sp : Bool) (p : Piece) (l : List (Byte × Bool)) (hw : Memory.wf s.mem = true) :
    Memory.wf (pieceWrite s tid core x sp p l).mem = true := by
  unfold pieceWrite
  repeat' first
    | with_reducible exact hw
    | with_reducible assumption
    | split
    | (refine foldl_wf _ _ _ ?_ (fun _ _ _ => ?_))
    | (refine foldl_fst_wf _ _ _ ?_ (fun _ _ _ => ?_))
    | dsimp only
    | (simp [*]; done)
    | simp

@[simp] theorem unitWrite_wf (s : State) (tid core : Nat) (x : Xfer) (en : XEnd) (u : Nat) (l : List (Byte × Bool)) (hw : Memory.wf s.mem = true) :
    Memory.wf (unitWrite s tid core x en u l).mem = true := by
  unfold unitWrite
  repeat' first
    | with_reducible exact hw
    | with_reducible assumption
    | split
    | (refine foldl_wf _ _ _ ?_ (fun _ _ _ => ?_))
    | (refine foldl_fst_wf _ _ _ ?_ (fun _ _ _ => ?_))
    | dsimp only
    | (simp [*]; done)
    | simp

@[simp] theorem scalesWrite_wf (s : State) (tid core : Nat) (x : Xfer) (l : List (Nat × Byte × Bool)) (hw : Memory.wf s.mem = true) :
    Memory.wf (scalesWrite s tid core x l).mem = true := by
  unfold scalesWrite
  repeat' first
    | with_reducible exact hw
    | with_reducible assumption
    | split
    | (refine foldl_wf _ _ _ ?_ (fun _ _ _ => ?_))
    | (refine foldl_fst_wf _ _ _ ?_ (fun _ _ _ => ?_))
    | dsimp only
    | (simp [*]; done)
    | simp

@[simp] theorem porterCredit_wf (s : State) (core num c n : Nat) (hw : Memory.wf s.mem = true) :
    Memory.wf (porterCredit s core num c n).1.mem = true := by
  unfold porterCredit
  repeat' first
    | with_reducible exact hw
    | with_reducible assumption
    | split
    | (refine foldl_wf _ _ _ ?_ (fun _ _ _ => ?_))
    | (refine foldl_fst_wf _ _ _ ?_ (fun _ _ _ => ?_))
    | dsimp only
    | (simp [*]; done)
    | simp

end Sys2Proof.Machine
end

