-- ==== Sys2Proof/Laws/MemoryIslands.lean ====
section
/-! SUPPORT. Every operation of the matrix engine and the islands leaves memory alone (`_mem`) or keeps its canonical form (`_wf`). -/

namespace Sys2Proof.Machine

set_option linter.unusedSimpArgs false
set_option linter.unusedVariables false

/-! ### Texture -/

theorem isleRead_mem (s : State) (ctx core va n size : Nat) {t} (h : isleRead s ctx core va n size = .ok t) :
    t.1.mem = s.mem := by
  unfold isleRead at h
  repeat' first
    | contradiction
    | (cases h; first | with_reducible rfl | (simp [*]; done))
    | split at h
    | dsimp only at h

theorem isleBytes_mem (s : State) (ctx core va n : Nat) {r} (h : isleBytes s ctx core va n = .ok r) :
    r.1.mem = s.mem := by
  unfold isleBytes at h
  refine foldE_keep (fun a : State × List Byte => a.1.mem = s.mem) _ _ ?_ _ _ h rfl
  intro a x b ha hb
  try dsimp only at hb
  split at hb
  · cases hb
  · rename_i heq
    cases hb
    exact (isleRead_mem _ _ _ _ _ _ heq).trans ha

theorem texelRead_mem (s : State) (ctx core : Nat) (t : Tex) (f l i j : Nat) {r} (h : texelRead s ctx core t f l i j = .ok r) :
    r.1.mem = s.mem := by
  unfold texelRead at h
  split at h
  · cases h
  · rename_i heq
    cases h
    exact isleRead_mem _ _ _ _ _ _ heq

/-! ### Sampler -/

theorem filterTexels_mem (s : State) (ctx core : Nat) (t : Tex) (face : Nat) (fs : List Foot) (total : Nat) {r}
    (h : filterTexels s ctx core t face fs total = .ok r) : r.1.mem = s.mem := by
  unfold filterTexels at h
  try dsimp only at h
  split at h
  · cases h
  · rename_i heq
    cases h
    refine foldE_keep (fun a : State × List Ext => a.1.mem = s.mem) _ _ ?_ _ _ heq rfl
    intro a x b ha hb
    try dsimp only at hb
    split at hb
    · cases hb
    · rename_i he
      cases hb
      exact (texelRead_mem _ _ _ _ _ _ _ _ he).trans ha

theorem entryRead_mem (s : State) (ctx core table ctl : Nat) {r} (h : entryRead s ctx core table ctl = .ok r) :
    r.1.mem = s.mem := by
  unfold entryRead at h
  split at h
  · cases h
  · rename_i heq
    cases h
    exact isleBytes_mem _ _ _ _ _ heq

theorem batchUnit_mem (s : State) (recs : List Record) (n : Nat) (f : State → Nat → List Nat → Except IStop (State × List Nat))
    (hf : ∀ s l w r, f s l w = .ok r → r.1.mem = s.mem) {r} (h : batchUnit s recs n f = .ok r) : r.1.mem = s.mem := by
  unfold batchUnit at h
  try dsimp only at h
  split at h
  · cases h
  · rename_i heq
    cases h
    refine foldE_keep (fun a : State × List (List Nat) => a.1.mem = s.mem) _ _ ?_ _ _ heq rfl
    intro a x b ha hb
    try dsimp only at hb
    split at hb
    · cases hb
    · rename_i he
      cases hb
      exact (hf _ _ _ _ he).trans ha

theorem zeroLane_mem (s : State) {r} (h : zeroLane s = .ok r) : r.1.mem = s.mem := by cases h; rfl

theorem sampleLane_mem (s : State) (ctx core table lane : Nat) (w : List Nat) {r}
    (h : sampleLane s ctx core table lane w = .ok r) : r.1.mem = s.mem := by
  unfold sampleLane at h
  try dsimp only at h
  split at h
  · exact zeroLane_mem s h
  · split at h
    · cases h
    · rename_i he
      have h1 := entryRead_mem _ _ _ _ _ he
      try dsimp only at h1
      rw [← h1]
      split at h
      · exact zeroLane_mem _ h
      · exact filterTexels_mem _ _ _ _ _ _ _ h

theorem cubeLane_mem (s : State) (ctx core table lane : Nat) (w : List Nat) {r}
    (h : cubeLane s ctx core table lane w = .ok r) : r.1.mem = s.mem := by
  unfold cubeLane at h
  try dsimp only at h
  split at h
  · exact zeroLane_mem s h
  · split at h
    · cases h
    · rename_i he
      have h1 := entryRead_mem _ _ _ _ _ he
      try dsimp only at h1
      rw [← h1]
      split at h
      · exact zeroLane_mem _ h
      · exact filterTexels_mem _ _ _ _ _ _ _ h

theorem sample2dUnit_mem (core : Nat) (s : State) (ctx : Nat) (b : Binding) (recs : List Record) {r} (h : sample2dUnit core s ctx b recs = .ok r) :
    r.1.mem = s.mem := batchUnit_mem s recs _ _ (fun _ _ _ _ h => sampleLane_mem _ _ _ _ _ _ h) h

theorem sampleCubeUnit_mem (core : Nat) (s : State) (ctx : Nat) (b : Binding) (recs : List Record) {r} (h : sampleCubeUnit core s ctx b recs = .ok r) :
    r.1.mem = s.mem := batchUnit_mem s recs _ _ (fun _ _ _ _ h => cubeLane_mem _ _ _ _ _ _ h) h

/-! ### Ray -/

theorem wordsRead_mem (s : State) (ctx core a : Nat) (offs : List Nat) {r} (h : wordsRead s ctx core a offs = .ok r) :
    r.1.mem = s.mem := by
  unfold wordsRead at h
  refine foldE_keep (fun a : State × List Nat => a.1.mem = s.mem) _ _ ?_ _ _ h rfl
  intro a x b ha hb
  try dsimp only at hb
  split at hb
  · cases hb
  · rename_i heq
    cases hb
    exact (isleRead_mem _ _ _ _ _ _ heq).trans ha

theorem nodeTest_mem (s : State) (ctx core base lane : Nat) (o : List Nat) (inv : List (List Nat)) (tmin tmax node : Nat)
    (miss : Bool) {r} (h : nodeTest s ctx core base lane o inv tmin tmax node miss = .ok r) : r.1.mem = s.mem := by
  unfold nodeTest at h
  split at h
  · cases h
  · rename_i he
    have h1 := wordsRead_mem _ _ _ _ _ he
    try dsimp only at h1 h
    rw [← h1]
    split at h
    · cases h; rfl
    · split at h
      · cases h; rfl
      · cases h; rfl

theorem boxLane_mem (s : State) (ctx core base lane : Nat) (w : List Nat) {r} (h : boxLane s ctx core base lane w = .ok r) :
    r.1.mem = s.mem := by
  unfold boxLane at h
  split at h
  · cases h; rfl
  · exact nodeTest_mem _ _ _ _ _ _ _ _ _ _ _ h

theorem frustumWord_mem (s : State) (ctx core base : Nat) (w : List Nat) {r} (h : frustumWord s ctx core base w = .ok r) :
    r.1.mem = s.mem := by
  unfold frustumWord at h
  split at h
  · cases h; rfl
  · exact nodeTest_mem _ _ _ _ _ _ _ _ _ _ _ h

theorem triLane_mem (s : State) (ctx core base lane : Nat) (w : List Nat) {r} (h : triLane s ctx core base lane w = .ok r) :
    r.1.mem = s.mem := by
  unfold triLane at h
  split at h
  · exact zeroLane_mem s h
  · split at h
    · cases h
    · rename_i he
      have h1 := wordsRead_mem _ _ _ _ _ he
      try dsimp only at h1
      rw [← h1]
      split at h
      · exact zeroLane_mem _ h
      · cases h; rfl

theorem box4Unit_mem (core : Nat) (s : State) (ctx : Nat) (b : Binding) (recs : List Record) {r} (h : box4Unit core s ctx b recs = .ok r) :
    r.1.mem = s.mem := batchUnit_mem s recs _ _ (fun _ _ _ _ h => boxLane_mem _ _ _ _ _ _ h) h

theorem triUnit_mem (core : Nat) (s : State) (ctx : Nat) (b : Binding) (recs : List Record) {r} (h : triUnit core s ctx b recs = .ok r) :
    r.1.mem = s.mem := batchUnit_mem s recs _ _ (fun _ _ _ _ h => triLane_mem _ _ _ _ _ _ h) h

theorem frustumUnit_mem (core : Nat) (s : State) (ctx : Nat) (b : Binding) (recs : List Record) {r}
    (h : frustumUnit core s ctx b recs = .ok r) : r.1.mem = s.mem := by
  unfold frustumUnit at h
  try dsimp only at h
  split at h
  · cases h
  · rename_i he
    cases h
    exact frustumWord_mem _ _ _ _ _ he

/-! ### PorterCtl -/

@[simp] theorem pstartDo_mem (e : Env) (a b : Code) (unit entry n : Nat) (resume : Bool) :
    (pstartDo e a b unit entry n resume).1.mem = e.s.mem := by
  unfold pstartDo
  repeat' first
    | with_reducible rfl
    | split
    | refine foldl_mem _ _ _ _ ?_ fun _ _ => ?_
    | refine foldl_fst_mem _ _ _ _ ?_ fun _ _ => ?_
    | dsimp only
    | simp

@[simp] theorem pstartFork_wf (e : Env) (unit : Nat) (r : State × Nat) (hw : Memory.wf r.1.mem = true) :
    Memory.wf (pstartFork e unit r).mem = true := by
  unfold pstartFork
  dsimp only
  repeat' split
  all_goals first
    | exact hw
    | exact drainCore_wf _ _ hw
    | (rw [phaseBoundary_mem]; exact drainCore_wf _ _ hw)

/-! ### Matrix -/

@[simp] theorem meEnter_mem (e : Env) (s : State) (m : MeCmd) : (meEnter e s m).mem = s.mem := by
  unfold meEnter
  repeat' first
    | with_reducible rfl
    | split
    | refine foldl_mem _ _ _ _ ?_ fun _ _ => ?_
    | refine foldl_fst_mem _ _ _ _ ?_ fun _ _ => ?_
    | dsimp only
    | simp

theorem meIssue_wf (r : MeReq) (e : Env) {t} (h : meIssue r e = .ok t) (hw : Memory.wf e.s.mem = true) :
    Memory.wf t.mem = true := by
  have h1 : ∀ b : Option BarRef, Memory.wf (match b with | some b => barTake e.s b | none => e.s).mem = true := by
    intro b
    cases b <;> simp [hw]
  unfold meIssue at h
  try dsimp only at h
  split at h
  · cases h
  · split at h
    · cases h
    · split at h
      · cases h
      · split at h
        · cases h
        · split at h
          · cases h
          · split at h
            · cases h
            · obtain rfl := Except.ok.inj h
              split <;> simp only [done_mem, later_mem, meEnter_mem] <;> split <;>
                first
                | exact drainCore_wf _ _ (h1 _)
                | exact h1 _

@[simp] theorem modCmd_mem (s : State) (core : Nat) (m : MeCmd) (f : MeCmd → MeCmd) :
    (modCmd s core m f).mem = s.mem := by
  unfold modCmd
  repeat' first
    | with_reducible rfl
    | split
    | refine foldl_mem _ _ _ _ ?_ fun _ _ => ?_
    | refine foldl_fst_mem _ _ _ _ ?_ fun _ _ => ?_
    | dsimp only
    | simp

@[simp] theorem storeTile_wf (s : State) (t : Team) (core : Nat) (m : MeCmd) (rnd : BitVec 2) (sat : Bool)
    (hw : Memory.wf s.mem = true) : Memory.wf (storeTile s t core m rnd sat).1.mem = true := by
  unfold storeTile
  try dsimp only
  split
  · exact hw
  · refine foldl_fst_wf _ _ _ hw fun a x ha => ?_
    repeat' split
    all_goals first
      | with_reducible exact ha
      | (simp only [modTeam_mem]; with_reducible exact ha)
      | (with_reducible apply storeBytes_wf; with_reducible exact ha)
      | (with_reducible apply drainSector_wf; with_reducible apply storeBytes_wf; with_reducible exact ha)

@[simp] theorem meFinish_wf (s : State) (core : Nat) (m : MeCmd) (hw : Memory.wf s.mem = true) :
    Memory.wf (meFinish s core m).mem = true := by
  unfold meFinish
  dsimp only
  split
  · simpa using hw
  · simp only [closeEnds_mem]
    have h2 : ∀ (a b : Bool) (x : State), Memory.wf x.mem = true → Memory.wf (if a = true then
        phaseBoundary (phaseBoundary (drainCore (drainCore x core) (partnerOf core)) core) (partnerOf core)
        else if b = true then drainCore x core else x).mem = true := by
      intro a b x hx
      split
      · simp [hx]
      · split
        · exact drainCore_wf _ _ hx
        · exact hx
    cases m.flag <;> cases m.bar <;> simp only [modCom_mem, barDrop_mem, barArrive_mem, modTeam_mem] <;>
      exact h2 _ _ _ (by simpa using hw)

@[simp] theorem mePerform_wf (s : State) (core : Nat) (t : Team) (m : MeCmd) (hw : Memory.wf s.mem = true) :
    Memory.wf (mePerform s core t m).1.mem = true := by
  unfold mePerform
  split
  · simpa using hw
  · simpa using hw
  · simpa using hw
  · simpa using hw
  · exact storeTile_wf _ _ _ _ _ _ hw
  · exact hw

/-! ### Island -/

@[simp] theorem setIsle_mem (s : State) (kind idx : Nat) (x : Island) : (setIsle s kind idx x).mem = s.mem := by
  unfold setIsle
  repeat' first
    | with_reducible rfl
    | split
    | refine foldl_mem _ _ _ _ ?_ fun _ _ => ?_
    | refine foldl_fst_mem _ _ _ _ ?_ fun _ _ => ?_
    | dsimp only
    | simp

@[simp] theorem modIsle_mem (s : State) (kind idx : Nat) (f : Island → Island) :
    (modIsle s kind idx f).mem = s.mem := by
  unfold modIsle
  repeat' first
    | with_reducible rfl
    | split
    | refine foldl_mem _ _ _ _ ?_ fun _ _ => ?_
    | refine foldl_fst_mem _ _ _ _ ?_ fun _ _ => ?_
    | dsimp only
    | simp

@[simp] theorem modPorts_mem (s : State) (kind idx : Nat) (f : Island → Island) :
    (modPorts s kind idx f).mem = s.mem := by
  unfold modPorts
  repeat' first
    | with_reducible rfl
    | split
    | refine foldl_mem _ _ _ _ ?_ fun _ _ => ?_
    | refine foldl_fst_mem _ _ _ _ ?_ fun _ _ => ?_
    | dsimp only
    | simp

@[simp] theorem completeOp_mem (s : State) (p : Party) (o : Op) (v : Nat) : (completeOp s p o v).mem = s.mem := by
  unfold completeOp
  repeat' first
    | with_reducible rfl
    | split
    | refine foldl_mem _ _ _ _ ?_ fun _ _ => ?_
    | refine foldl_fst_mem _ _ _ _ ?_ fun _ _ => ?_
    | dsimp only
    | simp

@[simp] theorem coreBytes_mem (s : State) (ctx core va n : Nat) : (coreBytes s ctx core va n).1.mem = s.mem := by
  unfold coreBytes
  repeat' first
    | with_reducible rfl
    | split
    | refine foldl_mem _ _ _ _ ?_ fun _ _ => ?_
    | refine foldl_fst_mem _ _ _ _ ?_ fun _ _ => ?_
    | dsimp only
    | simp

@[simp] theorem fillImage_wf (s : State) (ctx kind : Nat) (img : Image) (hw : Memory.wf s.mem = true) :
    Memory.wf (fillImage s ctx kind img).mem = true := by
  unfold fillImage
  repeat' first
    | with_reducible exact hw
    | with_reducible assumption
    | split
    | (refine foldl_wf _ _ _ ?_ (fun _ _ _ => ?_))
    | (refine foldl_fst_wf _ _ _ ?_ (fun _ _ _ => ?_))
    | dsimp only
    | (simp [*]; done)
    | simp

@[simp] theorem endIload_mem (s : State) (p : Party) (o : Op) (st : Nat) (bar : Option BarRef) :
    (endIload s p o st bar).mem = s.mem := by
  unfold endIload
  repeat' first
    | with_reducible rfl
    | split
    | refine foldl_mem _ _ _ _ ?_ fun _ _ => ?_
    | refine foldl_fst_mem _ _ _ _ ?_ fun _ _ => ?_
    | dsimp only
    | simp

@[simp] theorem changeOwner_mem (s : State) (kind idx ctx : Nat) : (changeOwner s kind idx ctx).mem = s.mem := by
  unfold changeOwner
  repeat' first
    | with_reducible rfl
    | split
    | refine foldl_mem _ _ _ _ ?_ fun _ _ => ?_
    | refine foldl_fst_mem _ _ _ _ ?_ fun _ _ => ?_
    | dsimp only
    | simp

@[simp] theorem bindDo_mem (e : Env) (kind q slot port : Nat) (param : Nat) (d : Word) (cin cout : Bool) (entry : BitVec 128) :
    (bindDo e kind q slot port param d cin cout entry).1.mem = e.s.mem := by
  unfold bindDo
  repeat' first
    | with_reducible rfl
    | split
    | refine foldl_mem _ _ _ _ ?_ fun _ _ => ?_
    | refine foldl_fst_mem _ _ _ _ ?_ fun _ _ => ?_
    | dsimp only
    | simp

theorem unbindDo_mem (e : Env) (kind q slot port : Nat) {t} (h : unbindDo e kind q slot port = some t) :
    t.mem = e.s.mem := by
  unfold unbindDo at h
  repeat' first
    | contradiction
    | (cases h; first | with_reducible rfl | (simp [*]; done))
    | split at h
    | dsimp only at h

@[simp] theorem takeOrder_mem (s : State) (kind idx : Nat) (l : List Record) :
    (takeOrder s kind idx l).mem = s.mem := by
  unfold takeOrder
  repeat' first
    | with_reducible rfl
    | split
    | refine foldl_mem _ _ _ _ ?_ fun _ _ => ?_
    | refine foldl_fst_mem _ _ _ _ ?_ fun _ _ => ?_
    | dsimp only
    | simp

@[simp] theorem unitTake_mem (s : State) (kind idx : Nat) (x : Island) (b : Binding) (p : Option Party) :
    (unitTake s kind idx x b p).1.mem = s.mem := by
  unfold unitTake
  repeat' first
    | with_reducible rfl
    | split
    | refine foldl_mem _ _ _ _ ?_ fun _ _ => ?_
    | refine foldl_fst_mem _ _ _ _ ?_ fun _ _ => ?_
    | dsimp only
    | simp

@[simp] theorem isleFault_mem (s : State) (kind idx : Nat) (b : Binding) (st : Stopped) (err : Byte × Nat × Nat) :
    (isleFault s kind idx b st err).mem = s.mem := by
  unfold isleFault
  repeat' first
    | with_reducible rfl
    | split
    | refine foldl_mem _ _ _ _ ?_ fun _ _ => ?_
    | refine foldl_fst_mem _ _ _ _ ?_ fun _ _ => ?_
    | dsimp only
    | simp

@[simp] theorem respond_mem (s : State) (kind idx : Nat) (b : Binding) (p : Option Party) (req : Nat) (units : List (List (List Word))) :
    (respond s kind idx b p req units).mem = s.mem := by
  unfold respond
  repeat' first
    | with_reducible rfl
    | split
    | refine foldl_mem _ _ _ _ ?_ fun _ _ => ?_
    | refine foldl_fst_mem _ _ _ _ ?_ fun _ _ => ?_
    | dsimp only
    | simp

@[simp] theorem deliver_mem (s : State) (kind idx : Nat) (i : Nat) (r : Response) :
    (deliver s kind idx i r).mem = s.mem := by
  unfold deliver
  repeat' first
    | with_reducible rfl
    | split
    | refine foldl_mem _ _ _ _ ?_ fun _ _ => ?_
    | refine foldl_fst_mem _ _ _ _ ?_ fun _ _ => ?_
    | dsimp only
    | simp

@[simp] theorem ictlDone_mem (e : Env) (s : State) (d : Code) (v : Nat) : (ictlDone e s d v).mem = s.mem := by
  unfold ictlDone
  repeat' first
    | with_reducible rfl
    | split
    | refine foldl_mem _ _ _ _ ?_ fun _ _ => ?_
    | refine foldl_fst_mem _ _ _ _ ?_ fun _ _ => ?_
    | dsimp only
    | simp

/-- A class keeps the form of memory. -/
def Serve.Keeps (f : Serve) : Prop :=
  ∀ s b p req recs r, f s b p req recs = .ok r → Memory.wf s.mem = true → Memory.wf r.1.mem = true

theorem serveRequest_wf (s : State) (kind idx : Nat) (b : Binding) (p : Option Party) (req : Nat) (recs : List Record) (f : Serve)
    (hf : f.Keeps) (hw : Memory.wf s.mem = true) : Memory.wf (serveRequest s kind idx b p req recs f).mem = true := by
  unfold serveRequest
  try dsimp only
  split
  · rename_i he
    split at he
    · cases he
    · simpa using hf _ _ _ _ _ _ he hw
  · simpa using hw

theorem takeUnit_wf (s : State) (kind idx : Nat) (b : Binding) (f : Serve) (hf : f.Keeps) (hw : Memory.wf s.mem = true) :
    Memory.wf (takeUnit s kind idx b f).mem = true := by
  unfold takeUnit
  try dsimp only
  split
  · exact hw
  · split
    · exact hw
    · exact serveRequest_wf _ _ _ _ _ _ _ _ hf (by simpa using hw)

/-! ### Blend -/

@[simp] theorem blendOne_wf (s : State) (ctx : Nat) (b : Binding) (recs : List Record) (x : Nat × Phys) (hw : Memory.wf s.mem = true) :
    Memory.wf (blendOne s ctx b recs x).mem = true := by
  unfold blendOne
  repeat' first
    | with_reducible exact hw
    | with_reducible assumption
    | split
    | (refine foldl_wf _ _ _ ?_ (fun _ _ _ => ?_))
    | (refine foldl_fst_wf _ _ _ ?_ (fun _ _ _ => ?_))
    | dsimp only
    | (simp [*]; done)
    | simp

theorem oneUnit_keeps (kind idx : Nat) (f : Nat → State → Nat → Binding → List Record → Except IStop (State × List (List Word)))
    (hf : ∀ s c b l r, f idx s c b l = .ok r → r.1.mem = s.mem) : (oneUnit kind idx f).Keeps := by
  intro s b p req recs r h hw
  unfold oneUnit at h
  split at h
  · rename_i he
    cases h
    rw [hf _ _ _ _ _ he]
    exact hw
  · cases h

theorem blendUnit_keeps : Serve.Keeps blendUnit := by
  intro s b p req recs r h hw
  unfold blendUnit at h
  try dsimp only at h
  split at h
  · cases h
  · cases h
    exact foldl_wf _ _ _ hw fun a x ha => by simp [ha]

/-! ### Raster -/

@[simp] theorem modPass_mem (s : State) (q : Nat) (f : Pass → Pass) : (modPass s q f).mem = s.mem := by
  unfold modPass
  repeat' first
    | with_reducible rfl
    | split
    | refine foldl_mem _ _ _ _ ?_ fun _ _ => ?_
    | refine foldl_fst_mem _ _ _ _ ?_ fun _ _ => ?_
    | dsimp only
    | simp

@[simp] theorem seqCount_mem (s : State) (q cls tx ty n : Nat) : (seqCount s q cls tx ty n).mem = s.mem := by
  unfold seqCount
  repeat' first
    | with_reducible rfl
    | split
    | refine foldl_mem _ _ _ _ ?_ fun _ _ => ?_
    | refine foldl_fst_mem _ _ _ _ ?_ fun _ _ => ?_
    | dsimp only
    | simp

theorem entryTake_mem (s : State) (ctx : Nat) (d : BitVec 512) (n : Nat) {r} (h : entryTake s ctx d n = .ok r) :
    r.mem = s.mem := by
  unfold entryTake at h
  repeat' first
    | contradiction
    | (cases h; first | with_reducible rfl | (simp [*]; done))
    | split at h
    | dsimp only at h

theorem emptyBins_mem (s : State) (q : Nat) (count : Bool) {r} (h : emptyBins s q count = .ok r) : r.mem = s.mem := by
  unfold emptyBins at h
  split at h
  · cases h; rfl
  · split at h
    · cases h
    · rename_i he
      cases h
      rw [modIsle_mem]
      exact foldE_keep (fun a : State => a.mem = s.mem) _ _ (fun a x b ha hb => (entryTake_mem _ _ _ _ hb).trans ha) _ _ he rfl

/-- Bins emptied where they have to be. -/
theorem binsFor_mem (s : State) (q : Nat) (p : Prop) [Decidable p] {r}
    (h : (if p then emptyBins s q true else .ok s) = .ok r) : r.mem = s.mem := by
  split at h
  · exact emptyBins_mem _ _ _ h
  · cases h; rfl

@[simp] theorem setPath_mem (s : State) (q : Nat) (a : PathAcc) : (setPath s q a).mem = s.mem := by
  unfold setPath
  repeat' first
    | with_reducible rfl
    | split
    | refine foldl_mem _ _ _ _ ?_ fun _ _ => ?_
    | refine foldl_fst_mem _ _ _ _ ?_ fun _ _ => ?_
    | dsimp only
    | simp

@[simp] theorem endPath_mem (s : State) (q b : Nat) : (endPath s q b).mem = s.mem := by
  unfold endPath
  repeat' first
    | with_reducible rfl
    | split
    | refine foldl_mem _ _ _ _ ?_ fun _ _ => ?_
    | refine foldl_fst_mem _ _ _ _ ?_ fun _ _ => ?_
    | dsimp only
    | simp

@[simp] theorem pathAdd_mem (s : State) (q : Nat) (ps : Pass) (a : PathAcc) (r : List Word) :
    (pathAdd s q ps a r).mem = s.mem := by
  unfold pathAdd
  repeat' first
    | with_reducible rfl
    | split
    | refine foldl_mem _ _ _ _ ?_ fun _ _ => ?_
    | refine foldl_fst_mem _ _ _ _ ?_ fun _ _ => ?_
    | dsimp only
    | simp

@[simp] theorem passCount_mem (s : State) (q : Nat) (b : Nat) : (passCount s q b).mem = s.mem := by
  unfold passCount
  repeat' first
    | with_reducible rfl
    | split
    | refine foldl_mem _ _ _ _ ?_ fun _ _ => ?_
    | refine foldl_fst_mem _ _ _ _ ?_ fun _ _ => ?_
    | dsimp only
    | simp

theorem passDesc_wf (e : Env) (a : Code) {t} (h : passDesc e a = .ok t) (hw : Memory.wf e.s.mem = true) :
    Memory.wf t.1.mem = true := by
  unfold passDesc at h
  repeat' first
    | contradiction
    | (cases h; first | with_reducible rfl | (simp [*]; done))
    | split at h
    | dsimp only at h

@[simp] theorem discard_mem (s : State) (kind idx : Nat) (f : IFault) : (discard s kind idx f).mem = s.mem := by
  unfold discard
  repeat' first
    | with_reducible rfl
    | split
    | refine foldl_mem _ _ _ _ ?_ fun _ _ => ?_
    | refine foldl_fst_mem _ _ _ _ ?_ fun _ _ => ?_
    | dsimp only
    | simp

theorem clearPixel_wf (s : State) (ctx : Nat) (t : BitVec 128) (v : Nat) (p : Nat × Nat) {r}
    (h : clearPixel s ctx t v p = .ok r) (hw : Memory.wf s.mem = true) : Memory.wf r.mem = true := by
  unfold clearPixel at h
  try dsimp only at h
  split at h
  · cases h
  · cases h
    exact writeAt_wf _ _ _ _ (by rw [touchTlb_mem]; exact hw)

theorem materialise_wf (s : State) (ctx : Nat) (d : BitVec 512) (tx ty : Nat) {r} (h : materialise s ctx d tx ty = .ok r)
    (hw : Memory.wf s.mem = true) : Memory.wf r.1.mem = true := by
  unfold materialise at h
  try dsimp only at h
  split at h
  · split at h
    · cases h
    · split at h
      · cases h
        exact writeAt_wf _ _ _ _ (by rw [takenVirt_mem]; exact hw)
      · split at h
        · cases h
        · split at h
          · cases h
          · split at h
            · cases h
            · rename_i he
              cases h
              exact foldE_keep (fun a : State => Memory.wf a.mem = true) _ _ (fun a x b ha hb => clearPixel_wf _ _ _ _ _ hb ha)
                _ _ he (by rw [takenVirt_mem]; exact writeAt_wf _ _ _ _ (by rw [takenVirt_mem]; exact hw))
  · cases h
  · cases h

theorem tileClean_wf (s : State) (q tx ty : Nat) {r} (h : tileClean s q tx ty = .ok r)
    (hw : Memory.wf s.mem = true) : Memory.wf r.mem = true := by
  unfold tileClean at h
  split at h
  · cases h
    exact hw
  · split at h
    · cases h
      exact hw
    · split at h
      · cases h
      · rename_i he
        cases h
        simpa using materialise_wf _ _ _ _ _ he hw

theorem poolWrite_wf (s : State) (ctx : Nat) (d : BitVec 512) (off : Nat) (l : List Byte) {r}
    (h : poolWrite s ctx d off l = .ok r) (hw : Memory.wf s.mem = true) : Memory.wf r.mem = true := by
  unfold poolWrite at h
  split at h
  · cases h
  · split at h
    · rename_i he
      cases h
      exact writeVirt_wf _ _ _ _ _ he (by rw [touchRange_mem]; exact hw)
    · cases h

theorem poolSpoil_wf (s : State) (ctx : Nat) (d : BitVec 512) (off n : Nat) {r}
    (h : poolSpoil s ctx d off n = .ok r) (hw : Memory.wf s.mem = true) : Memory.wf r.mem = true := by
  unfold poolSpoil at h
  split at h
  · cases h
  · exact poolWrite_wf _ _ _ _ _ h hw

theorem poolState_wf (s : State) (ctx : Nat) (d : BitVec 512) (store : Bool) {r}
    (h : poolState s ctx d store = .ok r) (hw : Memory.wf s.mem = true) : Memory.wf r.mem = true := by
  unfold poolState at h
  split at h
  · exact poolSpoil_wf _ _ _ _ _ h hw
  · split at h
    · cases h
      rw [takenVirt_mem]; exact hw
    · cases h

theorem emitCoarse_keep (s : State) (q : Nat) (b : Binding) (p : Option Party) (req tile : Nat) (words : List Word) {r}
    (h : emitCoarse s q b p req tile words = .ok r) (hw : Memory.wf s.mem = true) : Memory.wf r.mem = true := by
  unfold emitCoarse at h
  dsimp only at h
  split at h
  · cases h
    exact hw
  · split at h
    · cases h
      simpa using hw
    · split at h
      · cases h
      · rename_i h1
        have h2 := binsFor_mem s q (¬_ = true) ((ite_not ..).trans h1)
        split at h
        · cases h
        · rename_i h3
          cases h
          rw [modPass_mem]
          exact poolWrite_wf _ _ _ _ _ h3 (by rw [h2]; exact hw)

theorem pathRoom_wf (s : State) (q bind : Nat) {r} (h : pathRoom s q bind = .ok r) (hw : Memory.wf s.mem = true) :
    Memory.wf r.mem = true := by
  unfold pathRoom at h
  dsimp only at h
  split at h
  · cases h
    exact hw
  · split at h
    · cases h
      exact hw
    · split at h
      · cases h
      · rename_i h1
        have h2 := binsFor_mem _ _ _ h1
        split at h
        · cases h
          rw [modPass_mem, setPath_mem, h2]
          exact hw
        · split at h
          · cases h
          · rename_i h3
            exact poolSpoil_wf _ _ _ _ _ h (poolSpoil_wf _ _ _ _ _ h3 (by rw [h2]; exact hw))

theorem pathEmit_wf (s : State) (q : Nat) (ps : Pass) (b : Binding) (a : PathAcc) (pid : Word) (evenOdd : Bool) {r}
    (h : pathEmit s q ps b a pid evenOdd = .ok r) (hw : Memory.wf s.mem = true) : Memory.wf r.1.mem = true := by
  unfold pathEmit at h
  refine foldE_keep (fun a : State × List (List (List Word)) => Memory.wf a.1.mem = true) _ _ ?_ _ _ h hw
  intro a x b ha hb
  try dsimp only at hb
  split at hb
  · cases hb
  · rename_i he
    cases hb
    simpa using tileClean_wf _ _ _ _ he ha

theorem coarseUnit_keeps (q : Nat) : (coarseUnit q).Keeps := by
  intro s b p req recs r h hw
  unfold coarseUnit at h
  try dsimp only at h
  split at h
  · cases h
    exact hw
  · split at h
    · cases h
      simpa using hw
    · split at h
      · cases h
        exact hw
      · split at h
        · cases h
        · rename_i he
          cases h
          refine foldE_keep (fun a : State => Memory.wf a.mem = true) _ _ ?_ _ _ he hw
          intro a x b' ha hb
          try dsimp only at hb
          split at hb
          · cases hb
          · rename_i h1
            exact emitCoarse_keep _ _ _ _ _ _ _ hb (by simpa using tileClean_wf _ _ _ _ h1 ha)

theorem pathRecord_keeps (q : Nat) : (pathRecord q).Keeps := by
  intro s b p req recs r h hw
  unfold pathRecord at h
  try dsimp only at h
  split at h
  · cases h
    exact hw
  · split at h
    · cases h
      simpa using hw
    · split at h
      · split at h
        · cases h
        · rename_i h1
          split at h
          · cases h
          · rename_i h2
            cases h
            simp only [endPath_mem]
            refine pathEmit_wf _ _ _ _ _ _ _ h2 ?_
            exact pathRoom_wf _ _ _ h1 hw
      · split at h
        · cases h
        · rename_i h1
          cases h
          exact pathRoom_wf _ _ _ h1 (by simpa using hw)

theorem serveOf_keeps (kind idx cls : Nat) {g : Serve} (h : serveOf kind idx cls = some g) : g.Keeps := by
  unfold serveOf at h
  split at h <;> cases h
  · exact coarseUnit_keeps _
  · exact pathRecord_keeps _
  · exact oneUnit_keeps _ _ _ fun _ _ _ _ _ h => sample2dUnit_mem _ _ _ _ _ h
  · exact oneUnit_keeps _ _ _ fun _ _ _ _ _ h => sampleCubeUnit_mem _ _ _ _ _ h
  · exact oneUnit_keeps _ _ _ fun _ _ _ _ _ h => box4Unit_mem _ _ _ _ _ h
  · exact oneUnit_keeps _ _ _ fun _ _ _ _ _ h => triUnit_mem _ _ _ _ _ h
  · exact oneUnit_keeps _ _ _ fun _ _ _ _ _ h => frustumUnit_mem _ _ _ _ _ h
  · exact blendUnit_keeps

@[simp] theorem rerun_wf (s : State) (kind idx : Nat) (f : IFault) (hw : Memory.wf s.mem = true) :
    Memory.wf (rerun s kind idx f).mem = true := by
  unfold rerun
  dsimp only
  split
  · split
    · rename_i he
      obtain ⟨c, _, hc⟩ := Option.bind_eq_some_iff.1 he
      exact serveRequest_wf _ _ _ _ _ _ _ _ (serveOf_keeps _ _ _ hc) (by simpa using hw)
    · simpa using hw
  · split
    · rename_i he
      exact poolState_wf _ _ _ _ he (by simpa using hw)
    · simpa using hw
  · simpa using hw

/-! ### Complete -/

@[simp] theorem poisonAccess_mem (s : State) (p : Party) (c : Common) (o : Op) :
    (poisonAccess s p c o).mem = s.mem := by
  unfold poisonAccess
  repeat' first
    | with_reducible rfl
    | split
    | refine foldl_mem _ _ _ _ ?_ fun _ _ => ?_
    | refine foldl_fst_mem _ _ _ _ ?_ fun _ _ => ?_
    | dsimp only
    | simp

@[simp] theorem finishAccess_mem (s : State) (p : Party) (c : Common) (o : Op) :
    (finishAccess s p c o).mem = s.mem := by
  unfold finishAccess
  repeat' first
    | with_reducible rfl
    | split
    | refine foldl_mem _ _ _ _ ?_ fun _ _ => ?_
    | refine foldl_fst_mem _ _ _ _ ?_ fun _ _ => ?_
    | dsimp only
    | simp

@[simp] theorem finishFence_wf (s : State) (p : Party) (c : Common) (o : Op) (hw : Memory.wf s.mem = true) :
    Memory.wf (finishFence s p c o).mem = true := by
  unfold finishFence
  repeat' first
    | with_reducible exact hw
    | with_reducible assumption
    | split
    | (refine foldl_wf _ _ _ ?_ (fun _ _ _ => ?_))
    | (refine foldl_fst_wf _ _ _ ?_ (fun _ _ _ => ?_))
    | dsimp only
    | (simp [*]; done)
    | simp

@[simp] theorem dropBinding_mem (s : State) (kind idx : Nat) (b : Binding) :
    (dropBinding s kind idx b).mem = s.mem := by
  unfold dropBinding
  repeat' first
    | with_reducible rfl
    | split
    | refine foldl_mem _ _ _ _ ?_ fun _ _ => ?_
    | refine foldl_fst_mem _ _ _ _ ?_ fun _ _ => ?_
    | dsimp only
    | simp

@[simp] theorem removeBinding_mem (s : State) (kind idx : Nat) (b : Binding) :
    (removeBinding s kind idx b).mem = s.mem := by
  unfold removeBinding
  repeat' first
    | with_reducible rfl
    | split
    | refine foldl_mem _ _ _ _ ?_ fun _ _ => ?_
    | refine foldl_fst_mem _ _ _ _ ?_ fun _ _ => ?_
    | dsimp only
    | simp

@[simp] theorem finishQbind_mem (s : State) (p : Party) (o : Op) : (finishQbind s p o).mem = s.mem := by
  unfold finishQbind
  repeat' first
    | with_reducible rfl
    | split
    | refine foldl_mem _ _ _ _ ?_ fun _ _ => ?_
    | refine foldl_fst_mem _ _ _ _ ?_ fun _ _ => ?_
    | dsimp only
    | simp

@[simp] theorem finishPassend_mem (s : State) (p : Party) (o : Op) (num : Nat) : (finishPassend s p o num).mem = s.mem := by
  unfold finishPassend
  repeat' first
    | with_reducible rfl
    | split
    | exact emptyBins_mem _ _ _ ‹_›
    | dsimp only
    | simp

@[simp] theorem resolveGo_wf (fuel : Nat) (s : State) (ctx : Nat) (d : BitVec 512) (next count : Nat)
    (hw : Memory.wf s.mem = true) : Memory.wf (resolveGo fuel s ctx d next count).1.mem = true := by
  induction fuel generalizing s next count with
  | zero => exact hw
  | succ n ih =>
    simp only [resolveGo]
    split
    · exact hw
    · rename_i he
      exact ih _ _ _ (materialise_wf _ _ _ _ _ he hw)

@[simp] theorem finishResolve_wf (s : State) (p : Party) (o : Op) (d : BitVec 512) (next count : Nat)
    (hw : Memory.wf s.mem = true) : Memory.wf (finishResolve s p o d next count).mem = true := by
  unfold finishResolve
  try dsimp only
  split
  · exact hw
  · split
    · rename_i he
      have := resolveGo_wf (if pdFlags d = 0 then 0 else pdTilesX d * pdTilesY d - next) s (ctxOf s p) d next count hw
      rw [he] at this
      simpa using this
    · rename_i he
      have := resolveGo_wf (if pdFlags d = 0 then 0 else pdTilesX d * pdTilesY d - next) s (ctxOf s p) d next count hw
      rw [he] at this
      simpa using this

end Sys2Proof.Machine
end

