-- ==== Sys2Proof/Laws/MemoryDevice.lean ====
section
/-! SUPPORT. Every operation of the launch unit, saves, the host, the HKC and the porters leaves memory alone (`_mem`) or keeps its canonical form (`_wf`). -/

namespace Sys2Proof.Machine

set_option linter.unusedSimpArgs false
set_option linter.unusedVariables false

/-! ### Launch -/

@[simp] theorem lqCheck_mem (s : State) (c q v : Nat) : (lqCheck s c q v).mem = s.mem := by
  unfold lqCheck
  repeat' first
    | with_reducible rfl
    | split
    | refine foldl_mem _ _ _ _ ?_ fun _ _ => ?_
    | refine foldl_fst_mem _ _ _ _ ?_ fun _ _ => ?_
    | dsimp only
    | simp

@[simp] theorem lqPut_mem (s : State) (c q : Nat) (v : DWord) : (lqPut s c q v).mem = s.mem := by
  unfold lqPut
  repeat' first
    | with_reducible rfl
    | split
    | refine foldl_mem _ _ _ _ ?_ fun _ _ => ?_
    | refine foldl_fst_mem _ _ _ _ ?_ fun _ _ => ?_
    | dsimp only
    | simp

@[simp] theorem lqSettle_mem (s : State) (c q : Nat) : (lqSettle s c q).mem = s.mem := by
  unfold lqSettle
  repeat' first
    | with_reducible rfl
    | split
    | refine foldl_mem _ _ _ _ ?_ fun _ _ => ?_
    | refine foldl_fst_mem _ _ _ _ ?_ fun _ _ => ?_
    | dsimp only
    | simp

@[simp] theorem headDone_mem (s : State) (l : Nat) : (headDone s l).mem = s.mem := by
  unfold headDone
  repeat' first
    | with_reducible rfl
    | split
    | refine foldl_mem _ _ _ _ ?_ fun _ _ => ?_
    | refine foldl_fst_mem _ _ _ _ ?_ fun _ _ => ?_
    | dsimp only
    | simp

@[simp] theorem reserveNow_mem (s : State) (c n : Nat) (pair : Bool) : (reserveNow s c n pair).mem = s.mem := by
  unfold reserveNow
  repeat' first
    | with_reducible rfl
    | split
    | refine foldl_mem _ _ _ _ ?_ fun _ _ => ?_
    | refine foldl_fst_mem _ _ _ _ ?_ fun _ _ => ?_
    | dsimp only
    | simp

@[simp] theorem reserveStep_mem (s : State) (c : Nat) : (reserveStep s c).mem = s.mem := by
  unfold reserveStep
  repeat' first
    | with_reducible rfl
    | split
    | refine foldl_mem _ _ _ _ ?_ fun _ _ => ?_
    | refine foldl_fst_mem _ _ _ _ ?_ fun _ _ => ?_
    | dsimp only
    | simp

@[simp] theorem reserveEnd_mem (s : State) (l : Nat) : (reserveEnd s l).mem = s.mem := by
  unfold reserveEnd
  repeat' first
    | with_reducible rfl
    | split
    | refine foldl_mem _ _ _ _ ?_ fun _ _ => ?_
    | refine foldl_fst_mem _ _ _ _ ?_ fun _ _ => ?_
    | dsimp only
    | simp

@[simp] theorem signalToken_wf (s : State) (x : Launch) (hw : Memory.wf s.mem = true) :
    Memory.wf (signalToken s x).mem = true := by
  unfold signalToken
  repeat' first
    | with_reducible exact hw
    | with_reducible assumption
    | split
    | (refine foldl_wf _ _ _ ?_ (fun _ _ _ => ?_))
    | (refine foldl_fst_wf _ _ _ ?_ (fun _ _ _ => ?_))
    | dsimp only
    | (simp [*]; done)
    | simp

@[simp] theorem unitWriteAt_wf (s : State) (c va : Nat) (l : List Byte) (hw : Memory.wf s.mem = true) :
    Memory.wf (unitWriteAt s c va l).mem = true := by
  unfold unitWriteAt
  dsimp only
  split
  · rename_i h
    exact writeVirt_wf _ _ _ _ _ h (by simpa using hw)
  · simpa using hw

@[simp] theorem endLaunch_wf (s : State) (l code : Nat) (hw : Memory.wf s.mem = true) :
    Memory.wf (endLaunch s l code).mem = true := by
  unfold endLaunch
  try dsimp only
  split
  · simpa using hw
  · simp only [reserveEnd_mem]
    have h2 : ∀ x : Launch, Memory.wf (if code = 1 then
        signalToken (headDone (modLaunch s l fun x => { x with code := code, ended := true }) l) x
        else headDone (modLaunch s l fun x => { x with code := code, ended := true }) l).mem = true := by
      intro x
      split
      · exact signalToken_wf _ _ (by simpa using hw)
      · simpa using hw
    split
    · simp only [raiseCtx_mem]
      exact unitWriteAt_wf _ _ _ _ (h2 _)
    · exact unitWriteAt_wf _ _ _ _ (h2 _)

/-! ### Admission -/

@[simp] theorem forcePage_mem (s : State) (c : Nat) : (forcePage s c).mem = s.mem := by
  unfold forcePage
  repeat' first
    | with_reducible rfl
    | split
    | refine foldl_mem _ _ _ _ ?_ fun _ _ => ?_
    | refine foldl_fst_mem _ _ _ _ ?_ fun _ _ => ?_
    | dsimp only
    | simp

@[simp] theorem zeroCore_mem (s : State) (core : Nat) : (zeroCore s core).mem = s.mem := by
  unfold zeroCore
  repeat' first
    | with_reducible rfl
    | split
    | refine foldl_mem _ _ _ _ ?_ fun _ _ => ?_
    | refine foldl_fst_mem _ _ _ _ ?_ fun _ _ => ?_
    | dsimp only
    | simp

@[simp] theorem takeIslands_mem (s : State) (core c : Nat) : (takeIslands s core c).mem = s.mem := by
  unfold takeIslands
  repeat' first
    | with_reducible rfl
    | split
    | refine foldl_mem _ _ _ _ ?_ fun _ _ => ?_
    | refine foldl_fst_mem _ _ _ _ ?_ fun _ _ => ?_
    | dsimp only
    | simp

@[simp] theorem beginTenancy_mem (s : State) (l : Nat) (x : Launch) (core : Nat) :
    (beginTenancy s l x core).mem = s.mem := by
  unfold beginTenancy
  repeat' first
    | with_reducible rfl
    | split
    | refine foldl_mem _ _ _ _ ?_ fun _ _ => ?_
    | refine foldl_fst_mem _ _ _ _ ?_ fun _ _ => ?_
    | dsimp only
    | simp

@[simp] theorem endTenancy_mem (s : State) (core : Nat) : (endTenancy s core).mem = s.mem := by
  unfold endTenancy
  repeat' first
    | with_reducible rfl
    | split
    | refine foldl_mem _ _ _ _ ?_ fun _ _ => ?_
    | refine foldl_fst_mem _ _ _ _ ?_ fun _ _ => ?_
    | dsimp only
    | simp

theorem placeStage_mem (l : Nat) (x : Launch) (inst home tid i : Nat) (s : State) (j : Nat) {r}
    (h : placeStage l x inst home tid i s j = some r) : r.mem = s.mem := by
  unfold placeStage at h
  obtain ⟨p, _, rfl⟩ := Option.map_eq_some_iff.1 h
  rfl

theorem placeNew_mem (s : State) (l : Nat) (x : Launch) (home : Nat) {r} (h : placeNew s l x home = some r) :
    r.mem = s.mem := by
  unfold placeNew at h
  obtain ⟨p, hp, rfl⟩ := Option.map_eq_some_iff.1 h
  rw [modLaunch_mem]
  refine foldO_keep (fun a : State => a.mem = s.mem) _ _ (fun a x b ha hb => ?_) _ _ hp ?_
  · rw [placeStage_mem _ _ _ _ _ _ _ _ hb]
    exact ha
  · exact foldl_mem _ _ _ _ rfl fun a c => beginTenancy_mem a l x c

@[simp] theorem restoreBars_mem (home : Nat) (l : List (Nat × Nat × Barrier)) (s : State) :
    (restoreBars home l s).1.mem = s.mem := by
  unfold restoreBars
  repeat' first
    | with_reducible rfl
    | split
    | refine foldl_mem _ _ _ _ ?_ fun _ _ => ?_
    | refine foldl_fst_mem _ _ _ _ ?_ fun _ _ => ?_
    | dsimp only
    | simp

@[simp] theorem rebind_mem (home : Nat) (v : Saved) (s : State) (kind half : Nat) (b : Binding) :
    (rebind home v s kind half b).mem = s.mem := by
  unfold rebind
  repeat' first
    | with_reducible rfl
    | split
    | refine foldl_mem _ _ _ _ ?_ fun _ _ => ?_
    | refine foldl_fst_mem _ _ _ _ ?_ fun _ _ => ?_
    | dsimp only
    | simp

@[simp] theorem restoreBinds_mem (home : Nat) (v : Saved) (s : State) : (restoreBinds home v s).mem = s.mem := by
  unfold restoreBinds
  repeat' first
    | with_reducible rfl
    | split
    | refine foldl_mem _ _ _ _ ?_ fun _ _ => ?_
    | refine foldl_fst_mem _ _ _ _ ?_ fun _ _ => ?_
    | dsimp only
    | simp

@[simp] theorem resumePorter_mem (t : Team) (home tid : Nat) (m : List ((Nat × Nat) × (Nat × Nat))) (s : State) (p : Nat × Nat × Porter) :
    (resumePorter t home tid m s p).mem = s.mem := by
  unfold resumePorter
  repeat' first
    | with_reducible rfl
    | split
    | refine foldl_mem _ _ _ _ ?_ fun _ _ => ?_
    | refine foldl_fst_mem _ _ _ _ ?_ fun _ _ => ?_
    | dsimp only
    | simp

@[simp] theorem requeue_mem (s : State) (e : TrapEntry) : (requeue s e).mem = s.mem := by
  unfold requeue
  repeat' first
    | with_reducible rfl
    | split
    | refine foldl_mem _ _ _ _ ?_ fun _ _ => ?_
    | refine foldl_fst_mem _ _ _ _ ?_ fun _ _ => ?_
    | dsimp only
    | simp

@[simp] theorem startAcquire_wf (s : State) (x : Launch) (t : Team) (hw : Memory.wf s.mem = true) :
    Memory.wf (startAcquire s x t).mem = true := by
  unfold startAcquire
  repeat' first
    | with_reducible exact hw
    | with_reducible assumption
    | split
    | (refine foldl_wf _ _ _ ?_ (fun _ _ _ => ?_))
    | (refine foldl_fst_wf _ _ _ ?_ (fun _ _ _ => ?_))
    | dsimp only
    | (simp [*]; done)
    | simp

@[simp] theorem rearmTeam_mem (s : State) (t : Nat) (x : Team) : (rearmTeam s t x).mem = s.mem := by
  unfold rearmTeam
  repeat' first
    | with_reducible rfl
    | split
    | refine foldl_mem _ _ _ _ ?_ fun _ _ => ?_
    | refine foldl_fst_mem _ _ _ _ ?_ fun _ _ => ?_
    | dsimp only
    | simp

theorem poolState_read_mem (s : State) (ctx : Nat) (d : BitVec 512) {r} (h : poolState s ctx d false = .ok r) :
    r.mem = s.mem := by
  unfold poolState at h
  split at h
  · rename_i he
    cases he
  · split at h
    · cases h
      exact takenVirt_mem ..
    · cases h

@[simp] theorem reopenPass_mem (home : Nat) (v : Saved) (s : State) :
    (reopenPass home v s).mem = s.mem := by
  unfold reopenPass
  split
  · rfl
  · dsimp only
    split
    · rename_i he
      rw [poolState_read_mem _ _ _ he, modIsle_mem]
    · rw [modIsle_mem, modIsle_mem]

@[simp] theorem restoreIsles_mem (home : Nat) (v : Saved) (s : State) :
    (restoreIsles home v s).mem = s.mem := by
  unfold restoreIsles
  dsimp only
  rw [reopenPass_mem]
  have h2 : (v.faults.foldl (fun s f => modIsle s f.1 (isleFor f.1 home f.2.1) fun x =>
      { x with reqs := max x.reqs (stoppedReq f.2.2.stopped),
               fault := some { f.2.2 with core := home, raised := false } })
      (v.resps.foldl (fun s r => modIsle s r.1 (isleFor r.1 home r.2.1) fun x =>
        { x with reqs := max x.reqs r.2.2.req, resps := x.resps ++ [r.2.2] }) s)).mem = s.mem :=
    foldl_mem _ _ _ _ (foldl_mem _ _ _ _ rfl fun a c => modIsle_mem ..) fun a c => modIsle_mem ..
  split
  · exact h2
  · rw [modIsle_mem]
    exact h2

theorem resumeTeam_mem (x : Launch) (home : Nat) (s : State) (v : Saved) {r} (h : resumeTeam x home s v = some r) :
    r.mem = s.mem := by
  unfold resumeTeam at h
  split at h
  · cases h
  · split at h
    · cases h
    · split at h
      · cases h
      · have e1 := restoreBars_mem home v.bars s
        generalize restoreBars home v.bars s = rb at h e1
        obtain ⟨s1, m⟩ := rb
        dsimp only at h e1
        generalize hs4 : List.foldl (resumePorter _ home v.team m) _ v.porters = s4 at h
        have e4 : s4.mem = s.mem := by
          rw [← hs4]
          refine foldl_mem _ _ _ _ ?_ fun a c => resumePorter_mem _ _ _ _ a c
          refine foldl_mem _ _ _ _ ?_ fun a c => modCore_mem a _ _
          exact e1
        obtain rfl := Option.some.inj h
        refine foldl_mem _ _ _ _ ?_ fun a c => phaseBoundary_mem a c
        refine foldl_mem _ _ _ _ ?_ fun a c => requeue_mem a c
        rw [restoreIsles_mem, restoreBinds_mem]
        exact e4

theorem placeSaved_mem (s : State) (l : Nat) (x : Launch) (inst home : Nat) {r} (h : placeSaved s l x inst home = some r) :
    r.mem = s.mem := by
  unfold placeSaved at h
  dsimp only at h
  split at h
  · cases h
  obtain ⟨p, hp, rfl⟩ := Option.map_eq_some_iff.1 h
  rw [modInst_mem]
  refine foldO_keep (fun a : State => a.mem = s.mem) _ _ (fun a x b ha hb => ?_) _ _ hp ?_
  · rw [resumeTeam_mem _ _ _ _ hb]
    exact ha
  · exact foldl_mem _ _ _ _ rfl fun a c => beginTenancy_mem a l x c

theorem placeItem_mem (s : State) (l : Nat) (x : Launch) (home : Nat) (i : Item) {r} (h : placeItem s l x home i = some r) :
    r.mem = s.mem := by
  cases i
  · exact placeNew_mem _ _ _ _ h
  · exact placeSaved_mem _ _ _ _ _ h

theorem placeHomes_mem (s : State) (l : Nat) (x : Launch) (it : Item) {r} (h : placeHomes s l x it = some r) :
    r.mem = s.mem := by
  unfold placeHomes at h
  dsimp only at h
  split at h
  · rename_i he
    cases h
    obtain ⟨a, _, hb⟩ := List.exists_of_findSome?_eq_some he
    exact placeItem_mem _ _ _ _ _ hb
  · generalize hq : (if launchPair x = true then 2 else 1) = q at h
    by_cases hc : coresUsed s x.ctx + q ≤ budgetCores s x
    · rw [if_pos hc] at h
      obtain ⟨a, _, hb⟩ := List.exists_of_findSome?_eq_some h
      exact placeItem_mem _ _ _ _ _ hb
    · rw [if_neg hc] at h
      cases h

theorem tryItem_mem (s : State) (l : Nat) (x : Launch) (it : Item) {r} (h : tryItem s l x it = some r) :
    r.mem = s.mem := by
  unfold tryItem at h
  split at h
  · cases h
  · exact placeHomes_mem _ _ _ _ h

theorem tryAll_mem (s : State) (l : Nat) (x : Launch) {r} (h : tryAll s l x = some r) : r.mem = s.mem := by
  unfold tryAll at h
  dsimp only at h
  split at h
  · cases h
  · refine foldO_keep (fun a : State => a.mem = s.mem) _ _ (fun a x b ha hb => ?_) _ _ h rfl
    try dsimp only at hb
    split at hb
    · rw [tryItem_mem _ _ _ _ hb]
      exact ha
    · cases hb

theorem tryLaunch_mem (s : State) (l : Nat) (x : Launch) {r} (h : tryLaunch s l x = some r) : r.mem = s.mem := by
  unfold tryLaunch at h
  dsimp only at h
  split at h
  · cases h
  · split at h
    · exact tryAll_mem _ _ _ h
    · split at h
      · rename_i he
        cases h
        obtain ⟨a, _, hb⟩ := List.exists_of_findSome?_eq_some he
        exact tryItem_mem _ _ _ _ hb
      · split at h
        · cases h
        · exact tryItem_mem _ _ _ _ h

theorem admitOne_mem (s : State) {r} (h : admitOne s = some r) : r.mem = s.mem := by
  unfold admitOne at h
  obtain ⟨a, _, hb⟩ := List.exists_of_findSome?_eq_some h
  obtain ⟨p, hp, hr⟩ := Option.map_eq_some_iff.1 hb
  have key : ∀ s2 : State, s2.mem = s.mem → (match getLaunch s2 a.1 with
      | some y => if y.placed = launchTotal y then headDone s2 a.1 else s2
      | none => s2).mem = s.mem := by
    intro s2 h2
    split
    · split
      · simpa using h2
      · exact h2
    · exact h2
  rw [← hr]
  refine key _ ?_
  have e := tryLaunch_mem s a.1 a.2 hp
  exact e

/-! ### Control -/

@[simp] theorem moveTo_mem (e : Env) (s : State) (keep : Bool) (f : Nat → Option DWord) :
    (moveTo e s keep f).mem = s.mem := by
  unfold moveTo
  repeat' first
    | with_reducible rfl
    | split
    | refine foldl_mem _ _ _ _ ?_ fun _ _ => ?_
    | refine foldl_fst_mem _ _ _ _ ?_ fun _ _ => ?_
    | dsimp only
    | simp

@[simp] theorem branch_mem (e : Env) (s : State) (keep : Bool) (f : Nat → Option DWord) :
    (branch e s keep f).mem = s.mem := by
  unfold branch
  repeat' first
    | with_reducible rfl
    | split
    | refine foldl_mem _ _ _ _ ?_ fun _ _ => ?_
    | refine foldl_fst_mem _ _ _ _ ?_ fun _ _ => ?_
    | dsimp only
    | simp

theorem branchTo_mem (e : Env) (s : State) (keep : Bool) (tgt : DWord) (take : Nat → Bool) {t} (h : branchTo e s keep tgt take = .ok t) :
    t.mem = s.mem := by
  unfold branchTo at h
  repeat' first
    | contradiction
    | (cases h; first | with_reducible rfl | (simp [*]; done))
    | split at h
    | dsimp only at h

theorem groupCall_mem (e : Env) (n : Nat) (tgt : Nat → DWord) {t} (h : groupCall e n tgt = .ok t) :
    t.mem = e.s.mem := by
  unfold groupCall at h
  repeat' first
    | contradiction
    | (cases h; first | with_reducible rfl | (simp [*]; done))
    | split at h
    | dsimp only at h

theorem groupRet_mem (e : Env) {t} (h : groupRet e = .ok t) : t.mem = e.s.mem := by
  unfold groupRet at h
  repeat' first
    | contradiction
    | (cases h; first | with_reducible rfl | (simp [*]; done))
    | split at h
    | dsimp only at h

@[simp] theorem leaveRegion_mem (s : State) (t : Nat) : (leaveRegion s t).mem = s.mem := by
  unfold leaveRegion
  repeat' first
    | with_reducible rfl
    | split
    | refine foldl_mem _ _ _ _ ?_ fun _ _ => ?_
    | refine foldl_fst_mem _ _ _ _ ?_ fun _ _ => ?_
    | dsimp only
    | simp

@[simp] theorem restartLabel_mem (e : Env) (close : Bool) (tgt : DWord) :
    (restartLabel e close tgt).mem = e.s.mem := by
  unfold restartLabel
  repeat' first
    | with_reducible rfl
    | split
    | refine foldl_mem _ _ _ _ ?_ fun _ _ => ?_
    | refine foldl_fst_mem _ _ _ _ ?_ fun _ _ => ?_
    | dsimp only
    | simp

/-! ### Float -/

theorem fpFinish_wf (e : Env) (rs : List (Nat × FRes)) (more : Nat) (write : State → (Nat → Nat) → State)
    (hwr : ∀ s v, Memory.wf s.mem = true → Memory.wf (write s v).mem = true) {r} (h : fpFinish e rs more write = .ok r)
    (hw : Memory.wf e.s.mem = true) : Memory.wf r.mem = true := by
  unfold fpFinish at h
  dsimp only at h
  split at h
  · cases h
  · cases h
    rw [done_mem]
    exact hwr _ _ (by simpa using hw)

/-! ### Save -/

@[simp] theorem dropBinds_mem (s : State) (t : Nat) : (dropBinds s t).mem = s.mem := by
  unfold dropBinds
  repeat' first
    | with_reducible rfl
    | split
    | refine foldl_mem _ _ _ _ ?_ fun _ _ => ?_
    | refine foldl_fst_mem _ _ _ _ ?_ fun _ _ => ?_
    | dsimp only
    | simp

@[simp] theorem removeTeam_mem (s : State) (id : Nat) (t : Team) : (removeTeam s id t).mem = s.mem := by
  unfold removeTeam
  repeat' first
    | with_reducible rfl
    | split
    | refine foldl_mem _ _ _ _ ?_ fun _ _ => ?_
    | refine foldl_fst_mem _ _ _ _ ?_ fun _ _ => ?_
    | dsimp only
    | simp

@[simp] theorem regionDrop_mem (s : State) (id : Nat) (t : Team) : (regionDrop s id t).mem = s.mem := by
  unfold regionDrop
  repeat' first
    | with_reducible rfl
    | split
    | refine foldl_mem _ _ _ _ ?_ fun _ _ => ?_
    | refine foldl_fst_mem _ _ _ _ ?_ fun _ _ => ?_
    | dsimp only
    | simp

@[simp] theorem takeCore_mem (s : State) (id : Nat) (t : Team) (v : Saved) (half core : Nat) :
    (takeCore s id t v half core).1.mem = s.mem := by
  unfold takeCore
  repeat' first
    | with_reducible rfl
    | split
    | refine foldl_mem _ _ _ _ ?_ fun _ _ => ?_
    | refine foldl_fst_mem _ _ _ _ ?_ fun _ _ => ?_
    | dsimp only
    | simp

@[simp] theorem rebalancePart_mem (d r : Stage) (q : Nat) (s : State) (core part : Nat) :
    (rebalancePart d r q s core part).mem = s.mem := by
  unfold rebalancePart
  repeat' first
    | with_reducible rfl
    | split
    | refine foldl_mem _ _ _ _ ?_ fun _ _ => ?_
    | refine foldl_fst_mem _ _ _ _ ?_ fun _ _ => ?_
    | dsimp only
    | simp

@[simp] theorem rebalance_mem (s : State) (x : Instance) : (rebalance s x).mem = s.mem := by
  unfold rebalance
  repeat' first
    | with_reducible rfl
    | split
    | refine foldl_mem _ _ _ _ ?_ fun _ _ => ?_
    | refine foldl_fst_mem _ _ _ _ ?_ fun _ _ => ?_
    | dsimp only
    | simp

@[simp] theorem publish_wf (s : State) (t : Team) (hw : Memory.wf s.mem = true) :
    Memory.wf (publish s t).mem = true := by
  unfold publish
  split
  · exact hw
  · dsimp only
    rw [modLaunch_mem]
    split
    · exact hw
    · exact unitWriteAt_wf _ _ _ _ hw

@[simp] theorem saveFails_mem (s : State) (i c : Nat) : (saveFails s i c).mem = s.mem := by
  unfold saveFails
  repeat' first
    | with_reducible rfl
    | split
    | refine foldl_mem _ _ _ _ ?_ fun _ _ => ?_
    | refine foldl_fst_mem _ _ _ _ ?_ fun _ _ => ?_
    | dsimp only
    | simp

@[simp] theorem suspendPass_wf (s : State) (id : Nat) (t : Team) (v : Saved) (p : Pass) (hw : Memory.wf s.mem = true) :
    Memory.wf (suspendPass s id t v p).1.mem = true := by
  unfold suspendPass
  split
  · rename_i he
    exact poolState_wf _ _ _ _ he hw
  · split <;> exact hw

@[simp] theorem takeIsle_wf (s : State) (id : Nat) (t : Team) (v : Saved) (kind idx : Nat) (hw : Memory.wf s.mem = true) :
    Memory.wf (takeIsle s id t v kind idx).1.mem = true := by
  unfold takeIsle
  dsimp only
  split
  · exact hw
  · split
    · exact suspendPass_wf _ _ _ _ _ (by rw [setIsle_mem]; exact hw)
    · rw [setIsle_mem]
      exact hw

@[simp] theorem saveOne_wf (s : State) (id : Nat) (t : Team) (hw : Memory.wf s.mem = true) :
    Memory.wf (saveOne s id t).mem = true := by
  unfold saveOne
  dsimp only
  refine foldl_wf _ _ _ (storeWrite_wf _ _ _ _ _ _ ?_) fun a c ha => by simpa using ha
  rw [modTeam_mem]
  refine foldl_fst_wf _ _ _ ?_ fun a c ha => takeIsle_wf _ _ _ _ _ _ ha
  refine foldl_fst_wf _ _ _ ?_ fun a c ha => by simpa using ha
  rw [regionDrop_mem]
  exact foldl_wf _ _ _ hw fun a c ha => drainCore_wf a c ha

/-! ### Host -/

@[simp] theorem handOver_mem (s : State) (p : Nat) : (handOver s p).mem = s.mem := by
  unfold handOver
  repeat' first
    | with_reducible rfl
    | split
    | refine foldl_mem _ _ _ _ ?_ fun _ _ => ?_
    | refine foldl_fst_mem _ _ _ _ ?_ fun _ _ => ?_
    | dsimp only
    | simp

@[simp] theorem writeScown_mem (s : State) (p : Nat) (v : Byte) : (writeScown s p v).mem = s.mem := by
  unfold writeScown
  repeat' first
    | with_reducible rfl
    | split
    | refine foldl_mem _ _ _ _ ?_ fun _ _ => ?_
    | refine foldl_fst_mem _ _ _ _ ?_ fun _ _ => ?_
    | dsimp only
    | simp

@[simp] theorem handlerAction_mem (s : State) (c : Nat) (e : Escalation) (act : Nat) : (handlerAction s c e act).mem = s.mem := by
  unfold handlerAction
  repeat' first
    | with_reducible rfl
    | split
    | refine foldl_mem _ _ _ _ ?_ fun _ _ => ?_
    | refine foldl_fst_mem _ _ _ _ ?_ fun _ _ => ?_
    | dsimp only
    | simp

@[simp] theorem resetCore_mem (s : State) (core : Nat) : (resetCore s core).mem = s.mem := by
  unfold resetCore
  repeat' first
    | with_reducible rfl
    | split
    | refine foldl_mem _ _ _ _ ?_ fun _ _ => ?_
    | refine foldl_fst_mem _ _ _ _ ?_ fun _ _ => ?_
    | dsimp only
    | simp

@[simp] theorem dropTeam_mem (s : State) (id : Nat) : (dropTeam s id).mem = s.mem := by
  unfold dropTeam
  repeat' first
    | with_reducible rfl
    | split
    | refine foldl_mem _ _ _ _ ?_ fun _ _ => ?_
    | refine foldl_fst_mem _ _ _ _ ?_ fun _ _ => ?_
    | dsimp only
    | simp

@[simp] theorem dropHandlers_mem (s : State) (c : Nat) : (dropHandlers s c).mem = s.mem := by
  unfold dropHandlers
  repeat' first
    | with_reducible rfl
    | split
    | refine foldl_mem _ _ _ _ ?_ fun _ _ => ?_
    | refine foldl_fst_mem _ _ _ _ ?_ fun _ _ => ?_
    | dsimp only
    | simp

@[simp] theorem dropHoldings_mem (s : State) (c : Nat) : (dropHoldings s c).mem = s.mem := by
  unfold dropHoldings
  repeat' first
    | with_reducible rfl
    | split
    | refine foldl_mem _ _ _ _ ?_ fun _ _ => ?_
    | refine foldl_fst_mem _ _ _ _ ?_ fun _ _ => ?_
    | dsimp only
    | simp

@[simp] theorem freeContext_mem (s : State) (c : Nat) : (freeContext s c).mem = s.mem := by
  unfold freeContext
  repeat' first
    | with_reducible rfl
    | split
    | refine foldl_mem _ _ _ _ ?_ fun _ _ => ?_
    | refine foldl_fst_mem _ _ _ _ ?_ fun _ _ => ?_
    | dsimp only
    | simp

@[simp] theorem countKilled_mem (s : State) (c : Nat) : (countKilled s c).mem = s.mem := by
  unfold countKilled
  repeat' first
    | with_reducible rfl
    | split
    | refine foldl_mem _ _ _ _ ?_ fun _ _ => ?_
    | refine foldl_fst_mem _ _ _ _ ?_ fun _ _ => ?_
    | dsimp only
    | simp

@[simp] theorem dropCommand_mem (s : State) (c : Nat) : (dropCommand s c).mem = s.mem := by
  unfold dropCommand
  repeat' first
    | with_reducible rfl
    | split
    | refine foldl_mem _ _ _ _ ?_ fun _ _ => ?_
    | refine foldl_fst_mem _ _ _ _ ?_ fun _ _ => ?_
    | dsimp only
    | simp

@[simp] theorem writeCmd_mem (s : State) (v : Nat) : (writeCmd s v).mem = s.mem := by
  unfold writeCmd
  repeat' first
    | with_reducible rfl
    | split
    | refine foldl_mem _ _ _ _ ?_ fun _ _ => ?_
    | refine foldl_fst_mem _ _ _ _ ?_ fun _ _ => ?_
    | dsimp only
    | simp

@[simp] theorem writeDevice_mem (s : State) (off v : Nat) : (writeDevice s off v).mem = s.mem := by
  unfold writeDevice
  dsimp only
  repeat' split
  all_goals first
    | with_reducible rfl
    | exact setDev_mem ..
    | exact writeCmd_mem ..
    | exact resetCore_mem ..
    | exact writeScown_mem ..

@[simp] theorem writeForce_mem (s : State) (c off v : Nat) : (writeForce s c off v).mem = s.mem := by
  unfold writeForce
  repeat' first
    | with_reducible rfl
    | split
    | refine foldl_mem _ _ _ _ ?_ fun _ _ => ?_
    | refine foldl_fst_mem _ _ _ _ ?_ fun _ _ => ?_
    | dsimp only
    | simp

@[simp] theorem hostAtomic_wf (s : State) (pa n op data cmp : Nat) (hw : Memory.wf s.mem = true) :
    Memory.wf (hostAtomic s pa n op data cmp).mem = true := by
  have h1 : ∀ l, Memory.wf (applyLanes s l).mem = true := fun l => applyLanes_wf s l hw
  unfold hostAtomic
  dsimp only
  split
  · exact h1 _
  · exact sliceWrite_wf _ _ _ _ _ _ (h1 _)

@[simp] theorem resetContext_wf (s : State) (c : Nat) (ends : Bool) (hw : Memory.wf s.mem = true) :
    Memory.wf (resetContext s c ends).mem = true := by
  unfold resetContext
  dsimp only
  rw [freeContext_mem, dropHoldings_mem]
  have h2 : ∀ x : State, Memory.wf x.mem = true →
      Memory.wf (List.foldl dropTeam (dropHandlers (countKilled x c) c) (ctxTeams x c)).mem = true := by
    intro x hx
    refine foldl_wf _ _ _ ?_ fun a t ha => by simpa using ha
    rw [dropHandlers_mem, countKilled_mem]
    exact hx
  have h3 := h2 _ (foldl_wf (s.cores.filter fun k => k.2.lastCtx == some c) (fun s k => drainCore s k.1) s hw
    fun a k ha => drainCore_wf a k.1 ha)
  split
  · exact foldl_wf _ _ _ h3 fun a l ha => endLaunch_wf a l.1 5 ha
  · exact h3

/-! ### Hkc -/

@[simp] theorem drawSalt_mem (s : State) : (drawSalt s).1.mem = s.mem := by
  unfold drawSalt
  repeat' first
    | with_reducible rfl
    | split
    | refine foldl_mem _ _ _ _ ?_ fun _ _ => ?_
    | refine foldl_fst_mem _ _ _ _ ?_ fun _ _ => ?_
    | dsimp only
    | simp

@[simp] theorem takeSlots_mem (s : State) (c : Nat) (l : List Nat) : (takeSlots s c l).mem = s.mem := by
  unfold takeSlots
  repeat' first
    | with_reducible rfl
    | split
    | refine foldl_mem _ _ _ _ ?_ fun _ _ => ?_
    | refine foldl_fst_mem _ _ _ _ ?_ fun _ _ => ?_
    | dsimp only
    | simp

@[simp] theorem eraseSlots_mem (s : State) (c : Nat) : (eraseSlots s c).mem = s.mem := by
  unfold eraseSlots
  repeat' first
    | with_reducible rfl
    | split
    | refine foldl_mem _ _ _ _ ?_ fun _ _ => ?_
    | refine foldl_fst_mem _ _ _ _ ?_ fun _ _ => ?_
    | dsimp only
    | simp

@[simp] theorem restoreSaves_mem (s : State) (c : Nat) (e : Exported) : (restoreSaves s c e).mem = s.mem := by
  unfold restoreSaves
  repeat' first
    | with_reducible rfl
    | split
    | refine foldl_mem _ _ _ _ ?_ fun _ _ => ?_
    | refine foldl_fst_mem _ _ _ _ ?_ fun _ _ => ?_
    | dsimp only
    | simp

theorem importPages_wf (s : State) (c pa : Nat) (e : Exported) {r} (h : importPages s c pa e = some r)
    (hw : Memory.wf s.mem = true) : Memory.wf r.mem = true := by
  unfold importPages at h
  try dsimp only at h
  have h1 := toOption_some h
  refine foldE_keep (fun a : State => Memory.wf a.mem = true) _ _ (fun a x b ha hb => ?_) _ _ h1 hw
  try dsimp only at hb
  split at hb
  · cases hb
  · split at hb
    · cases hb
    · cases hb
      exact foldl_wf _ _ _ ha fun a k ha => writeAt_wf _ _ _ _ ha

theorem physWrite_wf (s : State) (c pa : Nat) (l : List Byte) {r} (h : physWrite s c pa l = some r)
    (hw : Memory.wf s.mem = true) : Memory.wf r.mem = true := by
  unfold physWrite at h
  split at h
  · cases h
    exact foldl_wf _ _ _ hw fun a p ha => sliceWrite_wf _ _ _ _ _ _ ha
  · cases h

/-! ### Kesor -/

theorem kesWrite_wf (s : State) (c va : Nat) (l : List Byte) {r} (h : kesWrite s c va l = some r)
    (hw : Memory.wf s.mem = true) : Memory.wf r.mem = true :=
  writeVirt_wf _ _ _ _ _ (toOption_some h) (by rw [touchRange_mem]; exact hw)

/-! ### Porter -/

@[simp] theorem launchXfer_mem (e : Env) (s : State) (x : Xfer) (fail : Option PFault) :
    (launchXfer e s x fail).mem = s.mem := by
  unfold launchXfer
  repeat' first
    | with_reducible rfl
    | split
    | refine foldl_mem _ _ _ _ ?_ fun _ _ => ?_
    | refine foldl_fst_mem _ _ _ _ ?_ fun _ _ => ?_
    | dsimp only
    | simp

@[simp] theorem endXfer_mem (s : State) (core num id : Nat) : (endXfer s core num id).mem = s.mem := by
  unfold endXfer
  repeat' first
    | with_reducible rfl
    | split
    | refine foldl_mem _ _ _ _ ?_ fun _ _ => ?_
    | refine foldl_fst_mem _ _ _ _ ?_ fun _ _ => ?_
    | dsimp only
    | simp

@[simp] theorem modXfer_mem (s : State) (core num id : Nat) (f : Xfer → Xfer) :
    (modXfer s core num id f).mem = s.mem := by
  unfold modXfer
  repeat' first
    | with_reducible rfl
    | split
    | refine foldl_mem _ _ _ _ ?_ fun _ _ => ?_
    | refine foldl_fst_mem _ _ _ _ ?_ fun _ _ => ?_
    | dsimp only
    | simp

@[simp] theorem xferFault_mem (s : State) (core num : Nat) (x : Xfer) (code : Byte) (cause info va : Nat) :
    (xferFault s core num x code cause info va).mem = s.mem := by
  unfold xferFault
  repeat' first
    | with_reducible rfl
    | split
    | refine foldl_mem _ _ _ _ ?_ fun _ _ => ?_
    | refine foldl_fst_mem _ _ _ _ ?_ fun _ _ => ?_
    | dsimp only
    | simp

@[simp] theorem unitDone_wf (s : State) (core num : Nat) (x : Xfer) (hw : Memory.wf s.mem = true) :
    Memory.wf (unitDone s core num x).mem = true := by
  unfold unitDone
  dsimp only
  split
  · rw [endXfer_mem, modXfer_mem]
    exact porterCredit_wf _ _ _ _ _ hw
  · rw [modXfer_mem]
    exact porterCredit_wf _ _ _ _ _ hw

@[simp] theorem xferPop_mem (s : State) (core num : Nat) (t : Team) (x : Xfer) :
    (xferPop s core num t x).mem = s.mem := by
  unfold xferPop
  repeat' first
    | with_reducible rfl
    | split
    | refine foldl_mem _ _ _ _ ?_ fun _ _ => ?_
    | refine foldl_fst_mem _ _ _ _ ?_ fun _ _ => ?_
    | dsimp only
    | simp

@[simp] theorem xferPush_wf (fuel : Nat) (s : State) (core num : Nat) (t : Team) (q : Nat) (buf : List (Byte × Bool))
    (hw : Memory.wf s.mem = true) : Memory.wf (xferPush fuel s core num t q buf).1.mem = true := by
  induction fuel generalizing s buf with
  | zero => exact hw
  | succ f ih =>
    simp only [xferPush]
    split
    · exact hw
    · split
      · exact hw
      · refine ih _ _ ?_
        rw [modQueue_mem]
        exact hw

@[simp] theorem mcastNext_mem (s : State) (core num dst u : Nat) (x : Xfer) (drop : Bool) :
    (mcastNext s core num dst u x drop).mem = s.mem := by
  unfold mcastNext
  repeat' first
    | with_reducible rfl
    | split
    | refine foldl_mem _ _ _ _ ?_ fun _ _ => ?_
    | refine foldl_fst_mem _ _ _ _ ?_ fun _ _ => ?_
    | dsimp only
    | simp

@[simp] theorem gatherIndices_mem (e : Env) (base : Nat) (s : State) (rows : List Nat) :
    (gatherIndices e base s rows).1.mem = s.mem := by
  induction rows generalizing s with
  | nil => rfl
  | cons r rest ih =>
    simp only [gatherIndices]
    split
    · rfl
    · split
      · exact (portRead_mem ..).trans (touchTlb_mem ..)
      · dsimp only
        rw [ih]
        exact (portRead_mem ..).trans (touchTlb_mem ..)

@[simp] theorem unitPerform_wf (s : State) (core num tid : Nat) (t : Team) (x : Xfer) (hw : Memory.wf s.mem = true) :
    Memory.wf (unitPerform s core num tid t x).mem = true := by
  unfold unitPerform
  dsimp only
  split
  · simpa using hw
  · rename_i pages _
    have h0 : Memory.wf (if (queueSide x.instr && decide (x.okTo ≤ x.next)) = true then
        modXfer (pages.foldl (fun s p => touchTlb s t.ctx core (p.1 * 4096)) s) core num x.id fun y =>
          { y with pages := pages, okTo := x.next + 1 }
        else s).mem = true := by
      split
      · rw [modXfer_mem, foldl_mem _ _ _ _ rfl fun a p => touchTlb_mem ..]
        exact hw
      · exact hw
    generalize (if (queueSide x.instr && decide (x.okTo ≤ x.next)) = true then
        modXfer (pages.foldl (fun s p => touchTlb s t.ctx core (p.1 * 4096)) s) core num x.id fun y =>
          { y with pages := pages, okTo := x.next + 1 }
        else s) = s0 at h0 ⊢
    split
    · split
      · simpa using h0
      · refine unitDone_wf _ _ _ _ (unitWrite_wf _ _ _ _ _ _ _ ?_)
        simpa using h0
    · split
      · have h2 : ∀ (f : Nat) (a : State) (b : List (Byte × Bool)) (g : Xfer → Xfer), Memory.wf a.mem = true →
            Memory.wf (modXfer (xferPush f a core num t (xQueue x.instr) b).1 core num x.id g).mem = true := by
          intro f a b g ha
          rw [modXfer_mem]
          exact xferPush_wf _ _ _ _ _ _ _ ha
        repeat' split
        all_goals first
          | (refine unitDone_wf _ _ _ _ (h2 _ _ _ _ ?_); first | exact h0 | (rw [unitRead_mem]; exact h0))
          | (refine h2 _ _ _ _ ?_; first | exact h0 | (rw [unitRead_mem]; exact h0))
      · refine unitDone_wf _ _ _ _ (scalesWrite_wf _ _ _ _ _ (unitWrite_wf _ _ _ _ _ _ _ ?_))
        split
        · exact h0
        · rw [unitRead_mem]
          exact h0

/-! ### System -/

@[simp] theorem barAlloc_mem (s : State) (t core : Nat) (pair : Bool) : (barAlloc s t core pair).1.mem = s.mem := by
  unfold barAlloc
  repeat' first
    | with_reducible rfl
    | split
    | refine foldl_mem _ _ _ _ ?_ fun _ _ => ?_
    | refine foldl_fst_mem _ _ _ _ ?_ fun _ _ => ?_
    | dsimp only
    | simp

@[simp] theorem bwaitDone_mem (e : Env) (s : State) (f : Code) (x : Barrier) (w : WaitEnd) :
    (bwaitDone e s f x w).mem = s.mem := by
  unfold bwaitDone
  repeat' first
    | with_reducible rfl
    | split
    | refine foldl_mem _ _ _ _ ?_ fun _ _ => ?_
    | refine foldl_fst_mem _ _ _ _ ?_ fun _ _ => ?_
    | dsimp only
    | simp

@[simp] theorem tickCycle_mem (s : State) (core : Nat) : (tickCycle s core).mem = s.mem := by
  unfold tickCycle
  repeat' first
    | with_reducible rfl
    | split
    | refine foldl_mem _ _ _ _ ?_ fun _ _ => ?_
    | refine foldl_fst_mem _ _ _ _ ?_ fun _ _ => ?_
    | dsimp only
    | simp

@[simp] theorem srWrite_mem (e : Env) (sr v : Nat) : (srWrite e sr v).mem = e.s.mem := by
  unfold srWrite
  repeat' first
    | with_reducible rfl
    | split
    | refine foldl_mem _ _ _ _ ?_ fun _ _ => ?_
    | refine foldl_fst_mem _ _ _ _ ?_ fun _ _ => ?_
    | dsimp only
    | simp

theorem meetWrite_mem (e : Env) (v : Nat → Nat) {t} (h : meetWrite e v = .ok t) : t.mem = e.s.mem := by
  unfold meetWrite at h
  repeat' first
    | contradiction
    | (cases h; first | with_reducible rfl | (simp [*]; done))
    | split at h
    | dsimp only at h

/-! ### Moves -/

@[simp] theorem loseLine_wf (s : State) (l : ScLine) (hw : Memory.wf s.mem = true) :
    Memory.wf (loseLine s l).mem = true := by
  unfold loseLine
  repeat' first
    | with_reducible exact hw
    | with_reducible assumption
    | split
    | (refine foldl_wf _ _ _ ?_ (fun _ _ _ => ?_))
    | (refine foldl_fst_wf _ _ _ ?_ (fun _ _ _ => ?_))
    | dsimp only
    | (simp [*]; done)
    | simp

@[simp] theorem strikeOne_wf (s : State) (u : Upset) (hw : Memory.wf s.mem = true) :
    Memory.wf (strikeOne s u).mem = true := by
  unfold strikeOne
  repeat' first
    | with_reducible exact hw
    | with_reducible assumption
    | split
    | (refine foldl_wf _ _ _ ?_ (fun _ _ _ => ?_))
    | (refine foldl_fst_wf _ _ _ ?_ (fun _ _ _ => ?_))
    | dsimp only
    | (simp [*]; done)
    | simp

@[simp] theorem strike_wf (s : State) (hw : Memory.wf s.mem = true) : Memory.wf (strike s).mem = true := by
  unfold strike
  repeat' first
    | with_reducible exact hw
    | with_reducible assumption
    | split
    | (refine foldl_wf _ _ _ ?_ (fun _ _ _ => ?_))
    | (refine foldl_fst_wf _ _ _ ?_ (fun _ _ _ => ?_))
    | dsimp only
    | (simp [*]; done)
    | simp

/-! ### Step -/

@[simp] theorem State.withFetchWord_mem (s : State) (nbits w : Nat) :
    (State.withFetchWord s nbits w).mem = s.mem := by
  unfold State.withFetchWord
  repeat' first
    | with_reducible rfl
    | split
    | refine foldl_mem _ _ _ _ ?_ fun _ _ => ?_
    | refine foldl_fst_mem _ _ _ _ ?_ fun _ _ => ?_
    | dsimp only
    | simp

/-! ### What reads leave behind -/

@[simp] theorem headTaken_mem (s : State) (l : Launch) (read : Bool) : (headTaken s l read).mem = s.mem := by
  unfold headTaken
  dsimp only
  split
  · rw [foldl_mem _ _ _ _ rfl fun a r => touchRange_mem .., takenVirt_mem, takenVirt_mem]
  · exact takenVirt_mem ..

@[simp] theorem tokensTaken_mem (s : State) (x : Launch) : (tokensTaken s x).mem = s.mem :=
  foldl_mem _ _ _ _ rfl fun _ _ => takenVirt_mem ..

@[simp] theorem exportTaken_mem (s : State) (c : Nat) (rs : List (Nat × Nat)) : (exportTaken s c rs).mem = s.mem :=
  foldl_mem _ _ _ _ rfl fun _ _ => takenVirt_mem ..

@[simp] theorem kesTaken_mem (s : State) (c : Nat) (a : List Byte) : (kesTaken s c a).mem = s.mem :=
  foldl_mem _ _ _ _ rfl fun _ _ => takenVirt_mem ..

@[simp] theorem entryTaken_mem (e : Env) (kind param : Nat) (unbind : Bool) :
    (entryTaken e kind param unbind).s.mem = e.s.mem := by
  unfold entryTaken
  split
  · rfl
  · exact takenVirt_mem ..

@[simp] theorem dropFetched_mem (s : State) (core ctx scope : Nat) (ls : List Nat) :
    (dropFetched s core ctx scope ls).mem = s.mem := rfl

@[simp] theorem recordRelease_wf (s : State) (inst q : Nat) (hw : Memory.wf s.mem = true) :
    Memory.wf (recordRelease s inst q).mem = true := by
  unfold recordRelease
  repeat' split
  · exact pushOrder_wf _ _ _ _ hw
  · exact hw
  · exact hw

end Sys2Proof.Machine
end

