-- ==== Sys2Proof/Laws/Issue.lean ====
section
/-! SUPPORT. What the issue of an instruction comes to: when every check passes, its own effect; and that an issue keeps
the canonical form of memory. -/

namespace Sys2Proof.Machine

/-! ### The environment of an issue -/

theorem envOf_spec {s : State} {p : Party} {i : Instr} {c : Ctl} {e : Env} (h : envOf s p i c = some e) :
    e.p = p ∧ e.i = i ∧ e.c = c ∧ e.kind = kindOf p ∧ e.recs = [] ∧ e.dq = none ∧ e.s.mem = s.mem ∧
      (getTeam s (teamOf s p)).isSome = true := by
  unfold envOf at h
  cases ht : getTeam s (teamOf s p) with
  | none => simp [ht] at h
  | some tm =>
    simp only [ht] at h
    cases p with
    | group t g =>
      simp only at h
      split at h
      · cases h
      · split at h
        · cases h
        · cases h
          simp [kindOf]
    | lead t =>
      cases h
      simp [kindOf]
    | porter k n =>
      cases h
      simp [kindOf]

/-- R67, R70: of an issue by a lead. -/
theorem envOf_lead (s : State) (t : Nat) (i : Instr) (c : Ctl) (tm : Team) (h : getTeam s t = some tm) :
    ∃ e, envOf s (.lead t) i c = some e ∧ e.s = s ∧ e.t = t ∧ e.tm = tm ∧ e.com = tm.lead.com ∧ e.pc = tm.lead.pc := by
  simp [envOf, teamOf, h]

/-! ### The checks -/

theorem regCount_le (k : Kind) (alloc : Nat) : regCount k alloc ≤ 128 := by
  cases k
  · exact Nat.min_le_right ..
  · simp [regCount]
  · simp [regCount]

theorem below_of_own {a c n : Nat} (ha : a ≤ 128) (h : c + n ≤ a ∧ c % n = 0) : c ≤ 0x7F := by
  rcases Nat.eq_zero_or_pos n with rfl | hn
  · have := h.2
    simp at this
    omega
  · omega

/-- What the checks ask of a code. -/
abbrev Passes (k : Kind) (cls alloc op : Nat) (f : Field) : Prop :=
  codeIllegal k cls alloc f = false ∧ codeContext k op f = none ∧ isQ f.code = false ∧ isDq f.code = false

theorem ownRun_spec {k : Kind} {alloc : Nat} (cls op : Nat) {c : Code} {r : Role} {n : Nat}
    (h : ownRun (regCount k alloc) c n = true) (hn : r.run = n) (hr : ∀ ev, r ≠ .pin ev ∧ r ≠ .pout ev)
    (ht : r ≠ .tile) (hu : r.uniform = true → k ≠ .group) (hc : r = .ctr → k ≠ .group) :
    Passes k cls alloc op ⟨c, r⟩ := by
  simp only [ownRun, Bool.and_eq_true, decide_eq_true_eq, beq_iff_eq] at h
  have h1 := below_of_own (regCount_le k alloc) h
  have hq : isQ c = false := by simp [isQ]; omega
  have hd : isDq c = false := by simp [isDq]; omega
  have hk : isK c = false := by simp [isK]; omega
  have hp : isPred c = false := by simp [isPred]; omega
  have hi : isTile c = false := by simp [isTile]; omega
  refine ⟨?_, ?_, hq, hd⟩
  · subst hn
    have h2 : runIllegal k cls (regCount k alloc) c r.run r = false := by
      have : (r.uniform && k == .group) = false := by
        cases hx : r.uniform
        · rfl
        · simpa using hu hx
      simp only [runIllegal, if_pos h1, this, decide_eq_false (Nat.not_lt.2 h.1), h.2]
      rfl
    cases r with
    | ctr =>
      have : c.toNat + 1 ≤ regCount k alloc := h.1
      simp [codeIllegal, hc rfl]
      omega
    | pin ev => exact absurd rfl (hr ev).1
    | pout ev => exact absurd rfl (hr ev).2
    | tile => exact absurd rfl ht
    | also n => rfl
    | coord n =>
      have h3 : k ≠ .group := hu rfl
      have h4 : c.toNat + n ≤ regCount k alloc := h.1
      simp [codeIllegal, h3, Nat.not_lt.2 h4]
    | _ => exact h2
  · cases k <;> cases r <;> simp [codeContext, hq, hd, hk, hp, hi]

theorem kRun_spec (cls op alloc : Nat) {c : Code} {r : Role} {n : Nat} (h : kRun c n = true) (hn : r.run = n)
    (hr : ∀ ev, r ≠ .pin ev ∧ r ≠ .pout ev) (ht : r ≠ .tile) : Passes .group cls alloc op ⟨c, r⟩ := by
  simp only [kRun, Bool.and_eq_true, decide_eq_true_eq, beq_iff_eq] at h
  obtain ⟨⟨h0, h1⟩, h2⟩ := h
  have h3 : c.toNat ≤ 0x9F := by
    rcases Nat.eq_zero_or_pos n with rfl | hp
    · have : c.toNat = 0 := by simpa using h2
      omega
    · omega
  have hq : isQ c = false := by simp [isQ]; omega
  have hd : isDq c = false := by simp [isDq]; omega
  have hk : isK c = true := by simp [isK]; omega
  have h4 : ¬c.toNat ≤ 0x7F := by omega
  have h5 := Nat.not_lt.2 h1
  subst hn
  have h6 : runIllegal .group cls (regCount .group alloc) c r.run r = false := by
    simp only [runIllegal, if_neg h4, if_pos h3, decide_eq_false h5, h2]
    rfl
  refine ⟨?_, by simp [codeContext], hq, hd⟩
  cases r with
  | ctr => simp [codeIllegal, hk]
  | pin ev => exact absurd rfl (hr ev).1
  | pout ev => exact absurd rfl (hr ev).2
  | tile => exact absurd rfl ht
  | also n => rfl
  | coord n =>
    have h7 : c.toNat + n ≤ 0xA0 := h1
    have h8 : c.toNat % n = 0 := h2
    simp [codeIllegal, hk, h8, Nat.not_lt.2 h7]
  | _ => exact h6

theorem zero_spec (k : Kind) (cls op alloc : Nat) {c : Code} {r : Role} (h : isZero c = true)
    (hr : ∀ ev, r ≠ .pin ev ∧ r ≠ .pout ev) (ht : r ≠ .tile) (hc : r ≠ .ctr) (hz : r.noZero = false) :
    Passes k cls alloc op ⟨c, r⟩ := by
  have h0 : c.toNat = 0xD0 := by simpa [isZero] using h
  refine ⟨?_, ?_, by simp [isQ, h0], by simp [isDq, h0]⟩
  · have h1 : runIllegal k cls (regCount k alloc) c r.run r = false := by simp [runIllegal, h0, hz]
    cases r with
    | ctr => exact absurd rfl hc
    | pin ev => exact absurd rfl (hr ev).1
    | pout ev => exact absurd rfl (hr ev).2
    | tile => exact absurd rfl ht
    | also n => rfl
    | coord n => simp [codeIllegal, h]
    | _ => exact h1
  · cases k <;> cases r <;> simp [codeContext, isQ, isDq, isK, isPred, isTile, h0]

theorem plainCode_spec {k : Kind} {alloc : Nat} (cls op : Nat) {f : Field} (h : plainCode k alloc f = true) :
    Passes k cls alloc op f := by
  obtain ⟨c, r⟩ := f
  have gen : ∀ {r : Role}, (∀ ev, r ≠ .pin ev ∧ r ≠ .pout ev) → r ≠ .tile → r ≠ .ctr → r.noZero = false →
      r.uniform = false → (isZero c || ownRun (regCount k alloc) c r.run || (k == .group && kRun c r.run)) = true →
      Passes k cls alloc op ⟨c, r⟩ := by
    intro r h1 h2 h3 h4 h5 hx
    simp only [Bool.or_eq_true, Bool.and_eq_true, beq_iff_eq] at hx
    rcases hx with (hx | hx) | ⟨hk, hx⟩
    · exact zero_spec k cls op alloc hx h1 h2 h3 h4
    · exact ownRun_spec cls op hx rfl h1 h2 (by simp [h5]) (fun x => absurd x h3)
    · exact hk ▸ kRun_spec cls op alloc hx rfl h1 h2
  have uni : ∀ {r : Role}, (∀ ev, r ≠ .pin ev ∧ r ≠ .pout ev) → r ≠ .tile →
      (if k = .group then kRun c r.run else ownRun (regCount k alloc) c r.run) = true →
      Passes k cls alloc op ⟨c, r⟩ := by
    intro r h1 h2 hx
    split at hx
    · next hk => exact hk ▸ kRun_spec cls op alloc hx rfl h1 h2
    · next hk => exact ownRun_spec cls op hx rfl h1 h2 (fun _ => hk) (fun _ => hk)
  have pred : ∀ {ev : Bool}, (k != .porter && isPred c && !(ev && c.toNat % 2 == 1)) = true →
      k ≠ .porter ∧ isPred c = true ∧ (ev && c.toNat % 2 == 1) = false ∧ isQ c = false ∧ isDq c = false ∧
        isK c = false := by
    clear gen uni h
    intro ev h
    have : 0xB0 ≤ c.toNat ∧ c.toNat ≤ 0xB7 := by simp_all [isPred]
    refine ⟨by simp_all, by simp_all, by revert h; cases ev <;> simp, ?_, ?_, ?_⟩ <;> simp [isQ, isDq, isK] <;> omega
  cases r with
  | pin ev =>
    obtain ⟨h1, h2, h3, h4, h5, h6⟩ := pred h
    refine ⟨by simp_all [codeIllegal], ?_, h4, h5⟩
    cases k <;> simp_all [codeContext]
  | pout ev =>
    obtain ⟨h1, h2, h3, h4, h5, h6⟩ := pred h
    refine ⟨by simp_all [codeIllegal], ?_, h4, h5⟩
    cases k <;> simp_all [codeContext]
  | tile =>
    have h1 : k ≠ .porter ∧ isTile c = true := by simpa [plainCode] using h
    have h2 : 0xC0 ≤ c.toNat ∧ c.toNat ≤ 0xCF := by simpa [isTile] using h1.2
    have hq : isQ c = false := by simp [isQ]; omega
    have hd : isDq c = false := by simp [isDq]; omega
    have hk : isK c = false := by simp [isK]; omega
    refine ⟨by simp_all [codeIllegal], ?_, hq, hd⟩
    cases k <;> simp_all [codeContext]
  | ctr => exact uni (by simp) (by simp) h
  | also n =>
    have h1 : isQ c = false ∧ isDq c = false := by simpa [plainCode] using h
    refine ⟨rfl, ?_, h1.1, h1.2⟩
    cases k <;> simp [codeContext]
  | uni n =>
    simp only [plainCode, Bool.or_eq_true] at h
    rcases h with h | h
    · exact zero_spec k cls op alloc h (by simp) (by simp) (by simp) rfl
    · exact uni (by simp) (by simp) h
  | coord n =>
    simp only [plainCode, Bool.or_eq_true] at h
    rcases h with h | h
    · exact zero_spec k cls op alloc h (by simp) (by simp) (by simp) rfl
    · exact uni (by simp) (by simp) h
  | sp => exact ownRun_spec cls op h rfl (by simp) (by simp) (by simp [Role.uniform]) (by simp)
  | kout n => exact uni (by simp) (by simp) h
  | src fp => exact gen (by simp) (by simp) (by simp) rfl rfl h
  | dst => exact gen (by simp) (by simp) (by simp) rfl rfl h
  | reg n => exact gen (by simp) (by simp) (by simp) rfl rfl h
  | out n => exact gen (by simp) (by simp) (by simp) rfl rfl h
  | data n => exact gen (by simp) (by simp) (by simp) rfl rfl h

theorem queue_spec {k : Kind} {cls : Nat} (alloc op : Nat) {c : Code} {r : Role} (hk : k ≠ .porter) (hc : cls ≤ 2)
    (hr : r.queued = true) (hq : isQ c = true) : codeIllegal k cls alloc ⟨c, r⟩ = false ∧ codeContext k op ⟨c, r⟩ = none := by
  have hm : 0xA0 ≤ c.toNat ∧ c.toNat ≤ 0xAF := by simpa [isQ] using hq
  have hd : isDq c = false := by simp [isDq]; omega
  have hi : isK c = false := by simp [isK]; omega
  have h1 : ¬c.toNat ≤ 0x7F := by omega
  have h2 : ¬c.toNat ≤ 0x9F := by omega
  have h3 : runIllegal k cls (regCount k alloc) c r.run r = false := by
    simp [runIllegal, h1, h2, hm.2, hr, hc]
  refine ⟨?_, ?_⟩
  · cases r <;> first | exact h3 | cases hr
  · cases k <;> cases r <;> simp_all [codeContext]

theorem dq_spec (cls alloc op : Nat) {c : Code} {fp : Bool} (hd : isDq c = true) :
    codeIllegal .group cls alloc ⟨c, .src fp⟩ = false ∧ codeContext .group op ⟨c, .src fp⟩ = none := by
  have hm : c.toNat = 0xD1 := by simpa [isDq] using hd
  refine ⟨?_, by simp [codeContext]⟩
  simp [codeIllegal, runIllegal, hm, Role.noDq]

theorem goodCode_spec {k : Kind} {cls alloc : Nat} (op : Nat) {f : Field} (h : goodCode k cls alloc f = true) :
    codeIllegal k cls alloc f = false ∧ codeContext k op f = none := by
  simp only [goodCode, Bool.or_eq_true, Bool.and_eq_true, bne_iff_ne, beq_iff_eq, decide_eq_true_eq] at h
  rcases h with (h | ⟨⟨⟨h1, h2⟩, h3⟩, h4⟩) | ⟨⟨rfl, h2⟩, h3⟩
  · exact ⟨(plainCode_spec cls op h).1, (plainCode_spec cls op h).2.1⟩
  · obtain ⟨c, r⟩ := f
    exact queue_spec alloc op h1 h2 h3 h4
  · obtain ⟨c, r⟩ := f
    cases r <;> first | exact dq_spec cls alloc op h3 | simp at h2

/-! ### An issue that passes -/

/-- The conjuncts of `sourced`. -/
theorem sourced_spec {e : Env} {r : Rules} (h : sourced e r = true) :
    (e.i.wf = true ∧ kindOk (opOf e.i) e.kind = true ∧ r.allows e = true ∧ attachable e = true ∧
      (e.kind = .porter ∨ r.waypoint = true ∨ e.com.wcount < 4096)) ∧
    (∀ f ∈ r.fields e.kind, codeIllegal e.kind (clsOf e.i) e.tm.alloc f = false ∧
      codeContext e.kind (opOf e.i) f = none) ∧
    readable e r = true ∧ unawaited e r = true ∧ supplied e r = true := by
  simp only [sourced, Bool.and_eq_true, Bool.or_eq_true, beq_iff_eq, decide_eq_true_eq] at h
  obtain ⟨⟨⟨⟨⟨⟨⟨⟨h1, h2⟩, h3⟩, h4⟩, h5⟩, h6⟩, h7⟩, h10⟩, h11⟩ := h
  exact ⟨⟨h1, h2, h4, h10, or_assoc.1 h11⟩, fun f hf => goodCode_spec _ (List.all_eq_true.1 h3 f hf), h5, h6, h7⟩

/-- The conjuncts of `plain`. -/
theorem plain_spec {e : Env} {r : Rules} (h : plain e r = true) :
    sourced e r = true ∧ unpoisoned (e.taking r) r = true ∧
      unmarked (e.taking r) (r.fields e.kind) = true := by
  simpa [plain, and_assoc] using h

theorem statics_plain {e : Env} {r : Rules} (h : sourced e r = true) : statics e r = .ok () := by
  obtain ⟨⟨hwf, hk, ho, ha, hb⟩, hall, -⟩ := sourced_spec h
  have hb' : (decide (e.kind ≠ .porter) && !r.waypoint && decide (4096 ≤ e.com.wcount)) = false := by
    rcases hb with hb | hb | hb
    · simp [hb]
    · simp [hb]
    · have : ¬4096 ≤ e.com.wcount := by omega
      simp [this]
  simp only [Rules.allows, Bool.and_eq_true, Bool.not_eq_true', Option.isNone_iff_eq_none] at ho
  obtain ⟨⟨⟨ho, hi⟩, hc⟩, hp⟩ := ho
  have hwf : e.i.formOk = true ∧ e.i.entryOk = true := by simpa [Instr.wf] using hwf
  have hm : (!e.i.formOk || ctlBad e.kind e.s.lw.toNat e.c) = false := by
    rw [hwf.1]
    unfold attachable at ha
    unfold ctlBad
    split at ha
    · next hp =>
      have : e.c = ⟨false, 0, 0⟩ := by simpa using ha
      simp [hp, this]
    · next hp =>
      simp only [Bool.and_eq_true, Bool.not_eq_true'] at ha
      simp [hp, ha.1]
  have hn : (!e.i.entryOk || r.modBad e) = false := by simp [hwf.2, ho]
  have h1 : (r.fields e.kind).find? (codeIllegal e.kind (clsOf e.i) e.tm.alloc) = none :=
    List.find?_eq_none.2 fun f hf => by simp [(hall f hf).1]
  have h2 : (r.fields e.kind).findSome? (codeContext e.kind (opOf e.i)) = none :=
    List.findSome?_eq_none_iff.2 fun f hf => (hall f hf).2
  simp only [statics, hb', hm, hn, h1, h2, hi, hc, hp, hk]
  rfl

theorem scoreboard_plain {e : Env} {r : Rules} (h : sourced e r = true) : scoreboard e r = .ok () := by
  obtain ⟨⟨-, -, -, ha, -⟩, -, hread, hwait, -⟩ := sourced_spec h
  unfold scoreboard
  split
  · rfl
  · have hit : (e.com.ops.find? fun o => o.dst.any fun d => (readUnits e r).contains (d.1 / 64)) = none := by
      refine List.find?_eq_none.2 fun o ho => ?_
      have := List.all_eq_true.1 hread o ho
      rw [Bool.not_eq_true'] at this
      rw [this]
      simp
    have hp : e.kind ≠ .porter ∨ cfFlag e.s.lw.toNat e.c = none := by
      by_cases hk : e.kind = .porter
      · right
        have : e.c = ⟨false, 0, 0⟩ := by simpa [attachable, hk] using ha
        simp [cfFlag, this]
      · exact .inl hk
    simp only [unawaited, Bool.and_eq_true, Bool.not_eq_true'] at hwait
    obtain ⟨hw1, hw2⟩ := hwait
    have hlate : (if r.settles then e.com.ops.find? (·.poisoned) else none) = none := by
      split
      · next hs =>
        rw [hs, Bool.true_and, List.any_eq_false] at hw1
        refine List.find?_eq_none.2 fun o ho hx => hw1 o ho (by simp [hx])
      · rfl
    have hload : (r.settles && e.com.ops.any fun o => o.kind == .access && (match o.instr with
        | .ld .. | .atom .. => true
        | _ => false)) = false := by
      cases hs : r.settles
      · rfl
      · rw [hs, Bool.true_and, List.any_eq_false] at hw1
        rw [Bool.true_and, List.any_eq_false]
        intro o ho hx
        exact hw1 o ho (by rw [Bool.or_eq_true]; exact .inr hx)
    have key : ∀ (a b : Option Op) (l f : Bool), a = none → b = none → l = false → f = false →
        (match a <|> b with
          | some o => if o.poisoned then .error (deferOf o) else .error (.stall .scoreboard)
          | none =>
            if l || f then .error (.stall .scoreboard)
            else match cfFlag e.s.lw.toNat e.c with
              | some f => if flagCount e.com f = 63 then .error (.stall .scoreboard) else .ok ()
              | none => .ok ()) = (.ok () : Except Stop Unit) := by
      rintro _ _ _ _ rfl rfl rfl rfl
      simp only [Bool.or_self, Bool.false_eq_true, if_false]
      dsimp only [HOrElse.hOrElse, OrElse.orElse, Option.orElse]
      cases hf : cfFlag e.s.lw.toNat e.c with
      | none => rfl
      | some f =>
        have hk : e.kind ≠ .porter := by
          rcases hp with h | h
          · exact h
          · simp [h] at hf
        have : cfBad e.s.lw.toNat e.c = false ∧ flagCount e.com f < 63 := by simpa [attachable, hk, hf] using ha
        simp [Nat.ne_of_lt this.2]
    exact key _ _ _ _ hlate hit hload hw2

theorem got_all {α β : Type} (l : List α) (f : α → Option β) (h : l.all (fun a => (f a).isSome) = true) :
    (l.filterMap f).length = l.length := by
  induction l with
  | nil => rfl
  | cons a l ih =>
    simp only [List.all_cons, Bool.and_eq_true] at h
    obtain ⟨b, hb⟩ := Option.isSome_iff_exists.1 h.1
    simp [hb, ih h.2]

theorem takes_plain {e : Env} {r : Rules} (h : sourced e r = true) (hd : e.dq = none) :
    takes e r = .ok (e.taking r) ∧ queueTraps (e.taking r) (r.fields e.kind) = none := by
  obtain ⟨-, -, -, -, hs⟩ := sourced_spec h
  simp only [supplied, Bool.and_eq_true, Option.isNone_iff_eq_none, Bool.or_eq_true, Bool.not_eq_true'] at hs
  obtain ⟨⟨⟨h1, h2⟩, h3⟩, h4⟩ := hs
  have h5 := got_all _ _ h2
  have h6 : ((pushFields (r.fields e.kind)).any fun q => match getQueue e.s e.tm.inst q with
      | some x => qFull x
      | none => false) = false := by
    rw [List.any_eq_false]
    intro q hq
    have := List.all_eq_true.1 h3 q hq
    split at this <;> simp_all
  refine ⟨?_, h1⟩
  have h7 : ¬((popFields (r.fields e.kind)).filterMap (headRec e)).length < (popFields (r.fields e.kind)).length := by
    omega
  unfold takes Env.taking
  cases hu : usesDq e r with
  | false =>
    simp only [Bool.false_eq_true, if_false]
    rw [h1]
    dsimp only
    rw [if_neg h7]
    exact (if_neg (fun hx => Bool.noConfusion (h6.symm.trans hx))).trans (by rw [hd])
  | true =>
    have h4 : (dqHead e).isSome = true := by simpa [hu] using h4
    obtain ⟨v, hv⟩ := Option.isSome_iff_exists.1 h4
    simp only [if_true, hv]
    have h8 : queueTraps { e with dq := some v } (r.fields e.kind) = none := h1
    rw [h8]
    dsimp only
    have h9 : headRec { e with dq := some v } = headRec e := rfl
    rw [h9, if_neg h7]
    exact if_neg (fun hx => Bool.noConfusion (h6.symm.trans hx))

theorem marker_plain {e : Env} {fs : List Field} (hu : unmarked e fs = true) : markerTrap e fs = .ok () := by
  unfold markerTrap
  split
  · rfl
  · next hn =>
    have hu : (fs.all fun f => match f.role with
        | .src true => e.act.all fun l => !isMarker (val e f.code l)
        | _ => true) = true := by
      simp only [unmarked, Bool.or_eq_true, beq_iff_eq, Bool.not_eq_true'] at hu
      rcases hu with (hu | hu) | hu
      · exact absurd (.inl hu) hn
      · exact absurd (.inr hu) hn
      · exact hu
    have : (fs.findSome? fun f => match f.role with
        | .src true => e.act.findSome? fun l => if isMarker (val e f.code l) then some (val e f.code l % 4096) else none
        | _ => none) = none := by
      refine List.findSome?_eq_none_iff.2 fun f hf => ?_
      have hf := List.all_eq_true.1 hu f hf
      split
      · next hs =>
        rw [hs] at hf
        refine List.findSome?_eq_none_iff.2 fun l hl => ?_
        have := List.all_eq_true.1 hf l hl
        rw [Bool.not_eq_true'] at this
        simp [this]
      · rfl
    have key : ∀ o : Option Nat, o = none → (match o with
        | some n => Except.error (.trap tcUninit n 0)
        | none => .ok ()) = (.ok () : Except Stop Unit) := by
      rintro _ rfl
      rfl
    exact key _ this

theorem poison_plain {e : Env} {r : Rules} (h : unpoisoned e r = true) : poisonTrap e r = .ok () := by
  simp only [unpoisoned, Bool.and_eq_true] at h
  obtain ⟨hu, hr⟩ := h
  have hrec : (if e.recs.any fun x => x.2.2.poison then e.act.head? else none) = none := by
    have : (e.recs.any fun x => x.2.2.poison) = false := by
      rw [List.any_eq_false]
      intro x hx
      have := List.all_eq_true.1 hr x hx
      simpa using this
    rw [this]
    rfl
  have hreg : (if e.kind = .group ∧ e.g.vpoison ≠ [] then (srcLanes e r).find? (fun l => (if r.noPoison then [] else r.fields e.kind).any fun f =>
      if isZero f.code || isQ f.code || isDq f.code then false
      else match f.role with
        | .dst | .out _ | .kout _ | .data _ | .pout _ | .pin _ | .tile => false
        | r => (upto 0 r.run).any fun j => e.g.vpoison.contains (regKey e f.code j l)) else none) = none := by
    split
    · next hk =>
      refine List.find?_eq_none.2 fun l hl => ?_
      have hu : ((srcLanes e r).all fun l => (if r.noPoison then [] else r.fields e.kind).all fun f =>
          !f.role.reads || (upto 0 f.role.run).all fun j => !e.g.vpoison.contains (regKey e f.code j l)) = true := by
        simpa [hk.1] using hu
      have hu := List.all_eq_true.1 hu l hl
      rw [Bool.not_eq_true, List.any_eq_false]
      intro f hf
      have hf := List.all_eq_true.1 hu f hf
      split
      · simp
      · have key : f.role.reads = true → ((upto 0 f.role.run).any fun j =>
            e.g.vpoison.contains (regKey e f.code j l)) ≠ true := by
          intro hx
          rw [hx] at hf
          simp only [Bool.not_true, Bool.false_or] at hf
          rw [ne_eq, Bool.not_eq_true, List.any_eq_false]
          intro j hj
          have := List.all_eq_true.1 hf j hj
          simpa using this
        cases hrole : f.role <;> rw [hrole] at key <;> first | exact key rfl | simp
    · rfl
  have key : ∀ a b : Option Nat, a = none → b = none → (match a, b with
      | some l, some m => Except.error (.trap tcPoison (if m < l then m + 3 * 256 else l + 2 * 256) 0)
      | some l, none => .error (.trap tcPoison (l + 2 * 256) 0)
      | none, some m => .error (.trap tcPoison (m + 3 * 256) 0)
      | none, none => .ok ()) = (.ok () : Except Stop Unit) := by
    rintro _ _ rfl rfl
    rfl
  exact key _ _ hreg hrec

/-- R291, R346, R348: an issue that is plain passes every check, with its records and DQ entry taken. -/
theorem ready_plain {e : Env} {r : Rules} (h : plain e r = true) (hd : e.dq = none) :
    ready e r = .ok (popAll (e.taking r)) := by
  obtain ⟨hs, hp, hm⟩ := plain_spec h
  obtain ⟨ht, hq⟩ := takes_plain hs hd
  have hk : (e.taking r).kind = e.kind := rfl
  simp only [ready, statics_plain hs, scoreboard_plain hs, ht, hk, marker_plain hm, poison_plain hp, hq]

/-- R291: an issue that passes its checks makes its own effect. -/
theorem perform_next {i : Instr} {c : Ctl} {r : Rules} {s t : State} {e : Env} {body : Env → Except Stop State}
    (h : Issues s i c r e) (hb : body e = .ok t) : perform i c r s body = .next t := by
  obtain ⟨b, ht, he, hp, rfl⟩ := h
  obtain ⟨h1, h2, h3, h4, h5, h6, h7, h8⟩ := envOf_spec he
  obtain ⟨tm, htm⟩ := Option.isSome_iff_exists.1 h8
  simp only [perform, ht, htm, he, ready_plain hp h6, hb]

/-- As `perform_next`, of a body that always answers. -/
theorem perform_ok {i : Instr} {c : Ctl} {r : Rules} {s : State} {e : Env} (h : Issues s i c r e) (f : Env → State) :
    perform i c r s (fun e => .ok (f e)) = .next (f e) := perform_next h rfl

/-- As `perform_next`, of a body that stops. -/
theorem perform_stop {i : Instr} {c : Ctl} {r : Rules} {s : State} {e : Env} {x : Stop}
    {body : Env → Except Stop State} (h : Issues s i c r e) (hb : body e = .error x) :
    perform i c r s body = .next (settle s e.p i e.pc x) := by
  obtain ⟨b, ht, he, hp, rfl⟩ := h
  obtain ⟨h1, h2, h3, h4, h5, h6, h7, h8⟩ := envOf_spec he
  obtain ⟨tm, htm⟩ := Option.isSome_iff_exists.1 h8
  simp only [perform, ht, htm, he, ready_plain hp h6, hb]
  rfl

/-! ### Memory -/

theorem popAll_mem (e : Env) : (popAll e).s.mem = e.s.mem := by
  unfold popAll
  dsimp only
  refine foldl_mem _ _ _ _ ?_ fun s r => by simp
  cases e.dq with
  | none => rfl
  | some v =>
    dsimp only
    split <;> simp

theorem takes_mem {e t : Env} {r : Rules} (h : takes e r = .ok t) : t.s.mem = e.s.mem := by
  unfold takes at h
  dsimp only at h
  repeat' split at h
  all_goals first
    | cases h; rfl
    | cases h

/-- Making an issue ready leaves memory alone. -/
theorem ready_mem {e t : Env} {r : Rules} (h : ready e r = .ok t) : t.s.mem = e.s.mem := by
  unfold ready at h
  split at h
  · cases h
  split at h
  · cases h
  split at h
  · cases h
  next e' ht =>
    dsimp only at h
    split at h
    · cases h
    split at h
    · cases h
    split at h
    · cases h
    obtain rfl := Except.ok.inj h
    rw [popAll_mem, takes_mem ht]

/-- An issue keeps the canonical form of memory where its body does. -/
theorem perform_wf {i : Instr} {c : Ctl} {r : Rules} {s t : State} {body : Env → Except Stop State}
    (hw : Memory.wf s.mem = true) (hb : ∀ e t, Memory.wf e.s.mem = true → body e = .ok t → Memory.wf t.mem = true)
    (h : perform i c r s body = .next t) : Memory.wf t.mem = true := by
  unfold perform at h
  split at h
  · cases h
  · next p hp =>
    split at h
    · cases h
    · split at h
      · obtain rfl := Host.Outcome.next.inj h
        simpa using hw
      · next e he =>
        have h7 := (envOf_spec he).2.2.2.2.2.2.1
        split at h
        · obtain rfl := Host.Outcome.next.inj h
          simpa using hw
        · next e' hr =>
          split at h
          · obtain rfl := Host.Outcome.next.inj h
            simpa using hw
          · next t' hbody =>
            obtain rfl := Host.Outcome.next.inj h
            exact hb _ _ (by rw [ready_mem hr, h7]; exact hw) hbody

end Sys2Proof.Machine
end

