-- ==== Sys2Proof/Laws/Words.lean ====
section
/-! SUPPORT. Bounds of the encoder's parts: every word has 96 bits. -/

namespace Sys2Proof

theorem encHead_add_lt (op fmt : Nat) (c : Ctl) (r : Nat) (ho : op < 1024) (hf : fmt < 8) (hr : r < 2 ^ 77) :
    encHead op fmt c + r < 2 ^ 96 := by
  have h1 := Bool.toNat_le c.gn
  have h2 := c.gp.isLt
  have h3 := c.cf.isLt
  simp only [encHead]
  generalize c.gn.toNat = g at *
  generalize c.gp.toNat = p at *
  generalize c.cf.toNat = f at *
  omega

theorem encHead_lt (op fmt : Nat) (c : Ctl) (ho : op < 1024) (hf : fmt < 8) : encHead op fmt c < 2 ^ 96 :=
  Nat.lt_of_le_of_lt (Nat.le_add_right _ 0) (encHead_add_lt op fmt c 0 ho hf (by omega))

theorem encDA_add_lt (d a : Code) (r : Nat) (hr : r < 2 ^ 61) : encDA d a + r < 2 ^ 77 := by
  unfold encDA
  omega

theorem encR_lt (op : Nat) (c : Ctl) (d a : Code) (mod : Nat) (ho : op < 1024) (hm : mod < 2 ^ 61) :
    encR op c d a mod < 2 ^ 96 := by
  unfold encR
  rw [Nat.add_assoc]
  exact encHead_add_lt op 0 c _ ho (by omega) (encDA_add_lt d a _ hm)

theorem encAB_lt (op : Nat) (c : Ctl) (d a : Code) (b : Src) (mod : Nat) (ho : op < 1024) (hm : mod < 2 ^ 29) :
    encAB op c d a b mod < 2 ^ 96 := by
  cases b <;> simp only [encAB, Nat.add_assoc] <;>
    exact encHead_add_lt _ _ _ _ ho (by omega) (encDA_add_lt _ _ _ (by omega))

theorem encABC_lt (op : Nat) (c : Ctl) (d a : Code) (b : Src) (e : Code) (lo mod : Nat) (ho : op < 1024)
    (hm : e.toNat * 2 ^ lo + mod < 2 ^ 29) : encABC op c d a b e lo mod < 2 ^ 96 := by
  have : mod < 2 ^ 29 := Nat.lt_of_le_of_lt (Nat.le_add_left ..) hm
  cases b <;> simp only [encABC, Nat.add_assoc] <;>
    exact encHead_add_lt _ _ _ _ ho (by omega) (encDA_add_lt _ _ _ (by omega))

theorem encM_lt (op : Nat) (c : Ctl) (d a b : Code) (off : BitVec 24) (low : Nat) (ho : op < 1024) (hm : low < 2 ^ 29) :
    encM op c d a b off low < 2 ^ 96 := by
  simp only [encM, Nat.add_assoc]
  exact encHead_add_lt _ _ _ _ ho (by omega) (encDA_add_lt _ _ _ (by omega))

theorem encE_lt (op : Nat) (c : Ctl) (d a b e : Code) (td : BitVec 6) (q : BitVec 4) (low : Nat) (ho : op < 1024)
    (hm : low < 2 ^ 35) : encE op c d a b e td q low < 2 ^ 96 := by
  simp only [encE, Nat.add_assoc]
  exact encHead_add_lt _ _ _ _ ho (by omega) (encDA_add_lt _ _ _ (by omega))

theorem encS_lt (op : Nat) (c : Ctl) (d a sr : Code) (n : BitVec 24) (low : Nat) (ho : op < 1024) (hm : low < 2 ^ 29) :
    encS op c d a sr n low < 2 ^ 96 := by
  simp only [encS, Nat.add_assoc]
  exact encHead_add_lt _ _ _ _ ho (by omega) (encDA_add_lt _ _ _ (by omega))

theorem encMo_le (o : Mo) : encMo o ≤ 2 ^ 29 - 2 ^ 16 := by
  unfold encMo
  omega

theorem encIdx_lt (m : Addr) : encIdx m < 2 ^ 12 := by
  have := Bool.toNat_le m.idx
  unfold encIdx
  omega

theorem encTgt_le (t : Target) : encTgt t ≤ 2 ^ 77 - 2 ^ 45 := by
  unfold encTgt
  omega

theorem encMeet_lt (t : Target) : encMeet t ≤ 2 ^ 45 - 2 ^ 13 := by
  unfold encMeet
  omega

theorem encTy_lt (ty : BitVec 2) (rnd : BitVec 3) : encTy ty rnd < 2 ^ 5 := by
  unfold encTy
  omega

end Sys2Proof
end

