-- ==== Sys2Proof/Laws/PerInstr.lean ====
section
/-! SUPPORT. The family WordFits: the word of an encoded instruction has 96 bits; one lemma per constructor. -/

namespace Sys2Proof.Laws.WordFits

/-- The word of the instruction, when it has one, fits in the 96 bits of an instruction (R333, R336). -/
def Statement (i : Instr) : Prop := ∀ w, encode i = some w → w < 2 ^ 96

theorem iadd (c : Ctl) (d : Code) (a : Code) (b : Src) (sat : BitVec 2) : Statement (.iadd c d a b sat) := by
  rintro w ⟨⟩
  exact encAB_lt _ _ _ _ _ _ (by omega) (by omega)

theorem isub (c : Ctl) (d : Code) (a : Code) (b : Src) (sat : BitVec 2) : Statement (.isub c d a b sat) := by
  rintro w ⟨⟩
  exact encAB_lt _ _ _ _ _ _ (by omega) (by omega)

theorem imul (c : Ctl) (d : Code) (a : Code) (b : Src) : Statement (.imul c d a b) := by
  rintro w ⟨⟩
  exact encAB_lt _ _ _ _ _ _ (by omega) (by omega)

theorem imulh (c : Ctl) (d : Code) (a : Code) (b : Src) (u : Bool) : Statement (.imulh c d a b u) := by
  rintro w ⟨⟩
  have := Bool.toNat_le u
  exact encAB_lt _ _ _ _ _ _ (by omega) (by omega)

theorem imad (c : Ctl) (d : Code) (a : Code) (b : Src) (e : Code) : Statement (.imad c d a b e) := by
  rintro w ⟨⟩
  exact encABC_lt _ _ _ _ _ _ _ _ (by omega) (by omega)

theorem imadw (c : Ctl) (d : Code) (a : Code) (b : Src) (e : Code) (u : Bool) : Statement (.imadw c d a b e u) := by
  rintro w ⟨⟩
  have := Bool.toNat_le u
  exact encABC_lt _ _ _ _ _ _ _ _ (by omega) (by omega)

theorem idot4 (c : Ctl) (d : Code) (a : Code) (b : Src) (e : Code) (ua : Bool) (ub : Bool) : Statement (.idot4 c d a b e ua ub) := by
  rintro w ⟨⟩
  have := Bool.toNat_le ua
  have := Bool.toNat_le ub
  exact encABC_lt _ _ _ _ _ _ _ _ (by omega) (by omega)

theorem imin (c : Ctl) (d : Code) (a : Code) (b : Src) (u : Bool) : Statement (.imin c d a b u) := by
  rintro w ⟨⟩
  have := Bool.toNat_le u
  exact encAB_lt _ _ _ _ _ _ (by omega) (by omega)

theorem imax (c : Ctl) (d : Code) (a : Code) (b : Src) (u : Bool) : Statement (.imax c d a b u) := by
  rintro w ⟨⟩
  have := Bool.toNat_le u
  exact encAB_lt _ _ _ _ _ _ (by omega) (by omega)

theorem iabs (c : Ctl) (d : Code) (a : Code) : Statement (.iabs c d a) := by
  rintro w ⟨⟩
  exact encR_lt _ _ _ _ _ (by omega) (by omega)

theorem icmp (c : Ctl) (d : Code) (a : Code) (b : Src) (cond : BitVec 4) (comb : BitVec 2) (pc : Code) : Statement (.icmp c d a b cond comb pc) := by
  rintro w ⟨⟩
  exact encABC_lt _ _ _ _ _ _ _ _ (by omega) (by omega)

theorem tern (c : Ctl) (d : Code) (a : Code) (b : Src) (pc : Code) : Statement (.tern c d a b pc) := by
  rintro w ⟨⟩
  exact encABC_lt _ _ _ _ _ _ _ _ (by omega) (by omega)

theorem loca (c : Ctl) (d : Code) (a : Code) (b : Src) (sh : BitVec 3) (w : Bool) : Statement (.loca c d a b sh w) := by
  rintro w ⟨⟩
  have := Bool.toNat_le w
  exact encAB_lt _ _ _ _ _ _ (by omega) (by omega)

theorem bAnd (c : Ctl) (d : Code) (a : Code) (b : Src) : Statement (.bAnd c d a b) := by
  rintro w ⟨⟩
  exact encAB_lt _ _ _ _ _ _ (by omega) (by omega)

theorem bAndn (c : Ctl) (d : Code) (a : Code) (b : Src) : Statement (.bAndn c d a b) := by
  rintro w ⟨⟩
  exact encAB_lt _ _ _ _ _ _ (by omega) (by omega)

theorem bOr (c : Ctl) (d : Code) (a : Code) (b : Src) : Statement (.bOr c d a b) := by
  rintro w ⟨⟩
  exact encAB_lt _ _ _ _ _ _ (by omega) (by omega)

theorem bXor (c : Ctl) (d : Code) (a : Code) (b : Src) : Statement (.bXor c d a b) := by
  rintro w ⟨⟩
  exact encAB_lt _ _ _ _ _ _ (by omega) (by omega)

theorem shl (c : Ctl) (d : Code) (a : Code) (b : Src) : Statement (.shl c d a b) := by
  rintro w ⟨⟩
  exact encAB_lt _ _ _ _ _ _ (by omega) (by omega)

theorem shr (c : Ctl) (d : Code) (a : Code) (b : Src) : Statement (.shr c d a b) := by
  rintro w ⟨⟩
  exact encAB_lt _ _ _ _ _ _ (by omega) (by omega)

theorem sar (c : Ctl) (d : Code) (a : Code) (b : Src) : Statement (.sar c d a b) := by
  rintro w ⟨⟩
  exact encAB_lt _ _ _ _ _ _ (by omega) (by omega)

theorem funl (c : Ctl) (d : Code) (a : Code) (b : Src) (e : Code) : Statement (.funl c d a b e) := by
  rintro w ⟨⟩
  exact encABC_lt _ _ _ _ _ _ _ _ (by omega) (by omega)

theorem bfx (c : Ctl) (d : Code) (a : Code) (b : Src) (s : Bool) : Statement (.bfx c d a b s) := by
  rintro w ⟨⟩
  have := Bool.toNat_le s
  exact encAB_lt _ _ _ _ _ _ (by omega) (by omega)

theorem bfi (c : Ctl) (d : Code) (a : Code) (b : Src) (e : Code) : Statement (.bfi c d a b e) := by
  rintro w ⟨⟩
  exact encABC_lt _ _ _ _ _ _ _ _ (by omega) (by omega)

theorem popc (c : Ctl) (d : Code) (a : Code) : Statement (.popc c d a) := by
  rintro w ⟨⟩
  exact encR_lt _ _ _ _ _ (by omega) (by omega)

theorem clz (c : Ctl) (d : Code) (a : Code) : Statement (.clz c d a) := by
  rintro w ⟨⟩
  exact encR_lt _ _ _ _ _ (by omega) (by omega)

theorem brev (c : Ctl) (d : Code) (a : Code) : Statement (.brev c d a) := by
  rintro w ⟨⟩
  exact encR_lt _ _ _ _ _ (by omega) (by omega)

theorem mixb (c : Ctl) (d : Code) (a : Code) (b : Src) (e : Code) (fill : BitVec 2) : Statement (.mixb c d a b e fill) := by
  rintro w ⟨⟩
  exact encABC_lt _ _ _ _ _ _ _ _ (by omega) (by omega)

theorem psop (c : Ctl) (d : Code) (a : Code) (b : Code) (e : Code) (n : Bool) (terms : BitVec 24) : Statement (.psop c d a b e n terms) := by
  rintro w ⟨⟩
  have := Bool.toNat_le n
  exact encABC_lt _ _ _ _ _ _ _ _ (by omega) (by omega)

theorem mov (c : Ctl) (d : Code) (a : Code) (b64 : Bool) : Statement (.mov c d a b64) := by
  rintro w ⟨⟩
  have := Bool.toNat_le b64
  exact encR_lt _ _ _ _ _ (by omega) (by omega)

theorem movi (c : Ctl) (d : Code) (v : Word) (hi : Bool) : Statement (.movi c d v hi) := by
  rintro w ⟨⟩
  have := Bool.toNat_le hi
  exact encAB_lt _ _ _ _ _ _ (by omega) (by omega)

theorem fadd (c : Ctl) (d : Code) (a : Code) (b : Src) (ty : BitVec 2) (rnd : BitVec 3) : Statement (.fadd c d a b ty rnd) := by
  rintro w ⟨⟩
  have := encTy_lt ty rnd
  exact encAB_lt _ _ _ _ _ _ (by omega) (by omega)

theorem fsub (c : Ctl) (d : Code) (a : Code) (b : Src) (ty : BitVec 2) (rnd : BitVec 3) : Statement (.fsub c d a b ty rnd) := by
  rintro w ⟨⟩
  have := encTy_lt ty rnd
  exact encAB_lt _ _ _ _ _ _ (by omega) (by omega)

theorem fmul (c : Ctl) (d : Code) (a : Code) (b : Src) (ty : BitVec 2) (rnd : BitVec 3) : Statement (.fmul c d a b ty rnd) := by
  rintro w ⟨⟩
  have := encTy_lt ty rnd
  exact encAB_lt _ _ _ _ _ _ (by omega) (by omega)

theorem ffma (c : Ctl) (d : Code) (a : Code) (b : Src) (e : Code) (ty : BitVec 2) (rnd : BitVec 3) : Statement (.ffma c d a b e ty rnd) := by
  rintro w ⟨⟩
  have := encTy_lt ty rnd
  exact encABC_lt _ _ _ _ _ _ _ _ (by omega) (by omega)

theorem fmin (c : Ctl) (d : Code) (a : Code) (b : Src) (ty : BitVec 2) : Statement (.fmin c d a b ty) := by
  rintro w ⟨⟩
  exact encAB_lt _ _ _ _ _ _ (by omega) (by omega)

theorem fmax (c : Ctl) (d : Code) (a : Code) (b : Src) (ty : BitVec 2) : Statement (.fmax c d a b ty) := by
  rintro w ⟨⟩
  exact encAB_lt _ _ _ _ _ _ (by omega) (by omega)

theorem fcmp (c : Ctl) (d : Code) (a : Code) (b : Src) (ty : BitVec 2) (cond : BitVec 4) (comb : BitVec 2) (pc : Code) : Statement (.fcmp c d a b ty cond comb pc) := by
  rintro w ⟨⟩
  exact encABC_lt _ _ _ _ _ _ _ _ (by omega) (by omega)

theorem frnd (c : Ctl) (d : Code) (a : Code) (ty : BitVec 2) (rnd : BitVec 3) : Statement (.frnd c d a ty rnd) := by
  rintro w ⟨⟩
  have := encTy_lt ty rnd
  exact encR_lt _ _ _ _ _ (by omega) (by omega)

theorem fclass (c : Ctl) (d : Code) (a : Code) (ty : BitVec 2) : Statement (.fclass c d a ty) := by
  rintro w ⟨⟩
  exact encR_lt _ _ _ _ _ (by omega) (by omega)

theorem fdivf (c : Ctl) (d : Code) (a : Code) (b : Src) (ty : BitVec 2) (rnd : BitVec 3) : Statement (.fdivf c d a b ty rnd) := by
  rintro w ⟨⟩
  have := encTy_lt ty rnd
  exact encAB_lt _ _ _ _ _ _ (by omega) (by omega)

theorem cvt (c : Ctl) (d : Code) (a : Code) (e : Code) (mrg : Bool) (dsel : BitVec 3) (ssel : BitVec 3) (sat : Bool) (rnd : BitVec 3) (df : BitVec 4) (sf : BitVec 4) : Statement (.cvt c d a e mrg dsel ssel sat rnd df sf) := by
  rintro w ⟨⟩
  have := Bool.toNat_le mrg
  have := Bool.toNat_le sat
  exact encR_lt _ _ _ _ _ (by omega) (by omega)

theorem rcp (c : Ctl) (d : Code) (a : Code) (ty : BitVec 2) (rnd : BitVec 3) : Statement (.rcp c d a ty rnd) := by
  rintro w ⟨⟩
  have := encTy_lt ty rnd
  exact encR_lt _ _ _ _ _ (by omega) (by omega)

theorem rsq (c : Ctl) (d : Code) (a : Code) (ty : BitVec 2) (rnd : BitVec 3) : Statement (.rsq c d a ty rnd) := by
  rintro w ⟨⟩
  have := encTy_lt ty rnd
  exact encR_lt _ _ _ _ _ (by omega) (by omega)

theorem sqrt (c : Ctl) (d : Code) (a : Code) (ty : BitVec 2) (rnd : BitVec 3) : Statement (.sqrt c d a ty rnd) := by
  rintro w ⟨⟩
  have := encTy_lt ty rnd
  exact encR_lt _ _ _ _ _ (by omega) (by omega)

theorem exp2 (c : Ctl) (d : Code) (a : Code) (ty : BitVec 2) (rnd : BitVec 3) : Statement (.exp2 c d a ty rnd) := by
  rintro w ⟨⟩
  have := encTy_lt ty rnd
  exact encR_lt _ _ _ _ _ (by omega) (by omega)

theorem log2 (c : Ctl) (d : Code) (a : Code) (ty : BitVec 2) (rnd : BitVec 3) : Statement (.log2 c d a ty rnd) := by
  rintro w ⟨⟩
  have := encTy_lt ty rnd
  exact encR_lt _ _ _ _ _ (by omega) (by omega)

theorem sincos (c : Ctl) (d : Code) (a : Code) (ty : BitVec 2) (rnd : BitVec 3) : Statement (.sincos c d a ty rnd) := by
  rintro w ⟨⟩
  have := encTy_lt ty rnd
  exact encR_lt _ _ _ _ _ (by omega) (by omega)

theorem tanh (c : Ctl) (d : Code) (a : Code) (ty : BitVec 2) (rnd : BitVec 3) : Statement (.tanh c d a ty rnd) := by
  rintro w ⟨⟩
  have := encTy_lt ty rnd
  exact encR_lt _ _ _ _ _ (by omega) (by omega)

theorem rngc (c : Ctl) (d : Code) (a : Code) (b : Code) : Statement (.rngc c d a b) := by
  rintro w ⟨⟩
  exact encR_lt _ _ _ _ _ (by omega) (by omega)

theorem edge (c : Ctl) (d : Code) (a : Code) (b : Code) (e : Code) (conj : Bool) : Statement (.edge c d a b e conj) := by
  rintro w ⟨⟩
  have := Bool.toNat_le conj
  exact encR_lt _ _ _ _ _ (by omega) (by omega)

theorem swiz (c : Ctl) (d : Code) (a : Code) (b : Code) (useImm : Bool) (imm7 : BitVec 7) (mode : BitVec 2) : Statement (.swiz c d a b useImm imm7 mode) := by
  rintro w ⟨⟩
  have := Bool.toNat_le useImm
  exact encR_lt _ _ _ _ _ (by omega) (by omega)

theorem ballot (c : Ctl) (d : Code) (a : Code) : Statement (.ballot c d a) := by
  rintro w ⟨⟩
  exact encR_lt _ _ _ _ _ (by omega) (by omega)

theorem redux (c : Ctl) (d : Code) (a : Code) (op : BitVec 4) (rnd : BitVec 3) : Statement (.redux c d a op rnd) := by
  rintro w ⟨⟩
  exact encR_lt _ _ _ _ _ (by omega) (by omega)

theorem scan (c : Ctl) (d : Code) (a : Code) (op : BitVec 4) (rnd : BitVec 3) (x : Bool) : Statement (.scan c d a op rnd x) := by
  rintro w ⟨⟩
  have := Bool.toNat_le x
  exact encR_lt _ _ _ _ _ (by omega) (by omega)

theorem ld (c : Ctl) (d : Code) (m : Addr) (o : Mo) (s : Bool) : Statement (.ld c d m o s) := by
  rintro w ⟨⟩
  have := Bool.toNat_le s
  have := encIdx_lt m
  have := encMo_le o
  exact encM_lt _ _ _ _ _ _ _ (by omega) (by omega)

theorem st (c : Ctl) (a : Code) (b : Code) (off : BitVec 24) (o : Mo) : Statement (.st c a b off o) := by
  rintro w ⟨⟩
  have := encMo_le o
  exact encM_lt _ _ _ _ _ _ _ (by omega) (by omega)

theorem lds (c : Ctl) (d : Code) (m : Addr) (size : BitVec 3) (s : Bool) : Statement (.lds c d m size s) := by
  rintro w ⟨⟩
  have := Bool.toNat_le s
  have := encIdx_lt m
  exact encM_lt _ _ _ _ _ _ _ (by omega) (by omega)

theorem sts (c : Ctl) (a : Code) (b : Code) (off : BitVec 24) (size : BitVec 3) : Statement (.sts c a b off size) := by
  rintro w ⟨⟩
  exact encM_lt _ _ _ _ _ _ _ (by omega) (by omega)

theorem atom (c : Ctl) (d : Code) (a : Code) (b : Code) (off : BitVec 24) (o : Mo) (op : BitVec 4) : Statement (.atom c d a b off o op) := by
  rintro w ⟨⟩
  have := encMo_le o
  exact encM_lt _ _ _ _ _ _ _ (by omega) (by omega)

theorem atomb (c : Ctl) (d : Code) (a : Code) (b : Code) (off : BitVec 24) (size : BitVec 3) (op : BitVec 4) : Statement (.atomb c d a b off size op) := by
  rintro w ⟨⟩
  exact encM_lt _ _ _ _ _ _ _ (by omega) (by omega)

theorem red (c : Ctl) (a : Code) (b : Code) (off : BitVec 24) (o : Mo) (op : BitVec 4) : Statement (.red c a b off o op) := by
  rintro w ⟨⟩
  have := encMo_le o
  exact encM_lt _ _ _ _ _ _ _ (by omega) (by omega)

theorem monw (c : Ctl) (d : Code) (a : Code) (b : Code) (off : BitVec 24) (o : Mo) (cond : BitVec 4) : Statement (.monw c d a b off o cond) := by
  rintro w ⟨⟩
  have := encMo_le o
  exact encM_lt _ _ _ _ _ _ _ (by omega) (by omega)

theorem pref (c : Ctl) (m : Addr) (pol : BitVec 4) : Statement (.pref c m pol) := by
  rintro w ⟨⟩
  have := encIdx_lt m
  exact encM_lt _ _ _ _ _ _ _ (by omega) (by omega)

theorem fence (c : Ctl) (scope : BitVec 3) (order : BitVec 3) : Statement (.fence c scope order) := by
  rintro w ⟨⟩
  exact encM_lt _ _ _ _ _ _ _ (by omega) (by omega)

theorem cwb (c : Ctl) (a : Code) (b : Code) (off : BitVec 24) : Statement (.cwb c a b off) := by
  rintro w ⟨⟩
  exact encM_lt _ _ _ _ _ _ _ (by omega) (by omega)

theorem cinv (c : Ctl) (a : Code) (b : Code) (off : BitVec 24) : Statement (.cinv c a b off) := by
  rintro w ⟨⟩
  exact encM_lt _ _ _ _ _ _ _ (by omega) (by omega)

theorem iinv (c : Ctl) (a : Code) (b : Code) (off : BitVec 24) (scope : BitVec 3) : Statement (.iinv c a b off scope) := by
  rintro w ⟨⟩
  exact encM_lt _ _ _ _ _ _ _ (by omega) (by omega)

theorem cpin (c : Ctl) (d : Code) (a : Code) (b : Code) (off : BitVec 24) : Statement (.cpin c d a b off) := by
  rintro w ⟨⟩
  exact encM_lt _ _ _ _ _ _ _ (by omega) (by omega)

theorem cunpin (c : Ctl) (d : Code) (a : Code) (b : Code) (off : BitVec 24) : Statement (.cunpin c d a b off) := by
  rintro w ⟨⟩
  exact encM_lt _ _ _ _ _ _ _ (by omega) (by omega)

theorem nop (c : Ctl) : Statement (.nop c) := by
  rintro w ⟨⟩
  exact encHead_lt _ _ _ (by omega) (by omega)

theorem br (c : Ctl) (t : Target) : Statement (.br c t) := by
  rintro w ⟨⟩
  have := encTgt_le t
  exact encHead_add_lt _ _ _ _ (by omega) (by omega) (by omega)

theorem brc (c : Ctl) (a : Code) (b : Code) (cond : BitVec 3) (t : Target) : Statement (.brc c a b cond t) := by
  rintro w ⟨⟩
  have := encTgt_le t
  simp only [Nat.add_assoc]
  exact encHead_add_lt _ _ _ _ (by omega) (by omega) (by omega)

theorem brv (c : Ctl) (a : Code) (t : Target) (m : Target) : Statement (.brv c a t m) := by
  rintro w ⟨⟩
  have := encTgt_le t
  have := encMeet_lt m
  simp only [Nat.add_assoc]
  exact encHead_add_lt _ _ _ _ (by omega) (by omega) (by omega)

theorem bdq (c : Ctl) (n : BitVec 6) (z : Bool) (t : Target) : Statement (.bdq c n z t) := by
  rintro w ⟨⟩
  have := Bool.toNat_le z
  have := encTgt_le t
  simp only [Nat.add_assoc]
  exact encHead_add_lt _ _ _ _ (by omega) (by omega) (by omega)

theorem brx (c : Ctl) (a : Code) : Statement (.brx c a) := by
  rintro w ⟨⟩
  exact encR_lt _ _ _ _ _ (by omega) (by omega)

theorem call (c : Ctl) (slide : BitVec 3) (t : Target) : Statement (.call c slide t) := by
  rintro w ⟨⟩
  have := encTgt_le t
  simp only [Nat.add_assoc]
  exact encHead_add_lt _ _ _ _ (by omega) (by omega) (by omega)

theorem callx (c : Ctl) (a : Code) (slide : BitVec 3) : Statement (.callx c a slide) := by
  rintro w ⟨⟩
  exact encR_lt _ _ _ _ _ (by omega) (by omega)

theorem ret (c : Ctl) : Statement (.ret c) := by
  rintro w ⟨⟩
  exact encHead_lt _ _ _ (by omega) (by omega)

theorem loop (c : Ctl) (a : Code) (t : Target) : Statement (.loop c a t) := by
  rintro w ⟨⟩
  have := encTgt_le t
  simp only [Nat.add_assoc]
  exact encHead_add_lt _ _ _ _ (by omega) (by omega) (by omega)

theorem exit (c : Ctl) : Statement (.exit c) := by
  rintro w ⟨⟩
  exact encHead_lt _ _ _ (by omega) (by omega)

theorem dqpush (c : Ctl) (a : Code) : Statement (.dqpush c a) := by
  rintro w ⟨⟩
  exact encR_lt _ _ _ _ _ (by omega) (by omega)

theorem dqpop (c : Ctl) (d : Code) (b32 : Bool) : Statement (.dqpop c d b32) := by
  rintro w ⟨⟩
  have := Bool.toNat_le b32
  exact encR_lt _ _ _ _ _ (by omega) (by omega)

theorem setmeet (c : Ctl) (nn : Bool) (m : Target) : Statement (.setmeet c nn m) := by
  rintro w ⟨⟩
  have := Bool.toNat_le nn
  have := encMeet_lt m
  simp only [Nat.add_assoc]
  exact encHead_add_lt _ _ _ _ (by omega) (by omega) (by omega)

theorem waypt (c : Ctl) (mask : BitVec 16) : Statement (.waypt c mask) := by
  rintro w ⟨⟩
  exact encHead_add_lt _ _ _ _ (by omega) (by omega) (by omega)

theorem rstlbl (c : Ctl) (close : Bool) (t : Target) : Statement (.rstlbl c close t) := by
  rintro w ⟨⟩
  have := Bool.toNat_le close
  have := encTgt_le t
  simp only [Nat.add_assoc]
  exact encHead_add_lt _ _ _ _ (by omega) (by omega) (by omega)

theorem yield (c : Ctl) : Statement (.yield c) := by
  rintro w ⟨⟩
  exact encHead_lt _ _ _ (by omega) (by omega)

theorem fbar (c : Ctl) : Statement (.fbar c) := by
  rintro w ⟨⟩
  exact encHead_lt _ _ _ (by omega) (by omega)

theorem qpush (c : Ctl) (a : Code) (q : BitVec 4) : Statement (.qpush c a q) := by
  rintro w ⟨⟩
  exact encE_lt _ _ _ _ _ _ _ _ _ (by omega) (by omega)

theorem qpop (c : Ctl) (d : Code) (q : BitVec 4) (e : Code) : Statement (.qpop c d q e) := by
  rintro w ⟨⟩
  exact encE_lt _ _ _ _ _ _ _ _ _ (by omega) (by omega)

theorem qstat (c : Ctl) (d : Code) (q : BitVec 4) : Statement (.qstat c d q) := by
  rintro w ⟨⟩
  exact encE_lt _ _ _ _ _ _ _ _ _ (by omega) (by omega)

theorem qbind (c : Ctl) (d : Code) (a : Code) (q : BitVec 4) (kind : BitVec 3) (slot : BitVec 4) (port : BitVec 3) (unbind : Bool) : Statement (.qbind c d a q kind slot port unbind) := by
  rintro w ⟨⟩
  have := Bool.toNat_le unbind
  exact encE_lt _ _ _ _ _ _ _ _ _ (by omega) (by omega)

theorem tdset (c : Ctl) (a : Code) (td : BitVec 6) (w : Bool) (i : BitVec 3) : Statement (.tdset c a td w i) := by
  rintro w ⟨⟩
  have := Bool.toNat_le w
  exact encE_lt _ _ _ _ _ _ _ _ _ (by omega) (by omega)

theorem tdget (c : Ctl) (d : Code) (td : BitVec 6) (w : Bool) (i : BitVec 3) : Statement (.tdget c d td w i) := by
  rintro w ⟨⟩
  have := Bool.toNat_le w
  exact encE_lt _ _ _ _ _ _ _ _ _ (by omega) (by omega)

theorem mldw (c : Ctl) (a : Code) (b : Code) (td : BitVec 6) (pair : Bool) : Statement (.mldw c a b td pair) := by
  rintro w ⟨⟩
  have := Bool.toNat_le pair
  exact encE_lt _ _ _ _ _ _ _ _ _ (by omega) (by omega)

theorem mswap (c : Ctl) (b : Code) (pair : Bool) : Statement (.mswap c b pair) := by
  rintro w ⟨⟩
  have := Bool.toNat_le pair
  exact encE_lt _ _ _ _ _ _ _ _ _ (by omega) (by omega)

theorem mma (c : Ctl) (d : Code) (a : Code) (b : Code) (td : BitVec 6) (pair : Bool) : Statement (.mma c d a b td pair) := by
  rintro w ⟨⟩
  have := Bool.toNat_le pair
  exact encE_lt _ _ _ _ _ _ _ _ _ (by omega) (by omega)

theorem mmaq (c : Ctl) (d : Code) (b : Code) (td : BitVec 6) (q : BitVec 4) (pair : Bool) : Statement (.mmaq c d b td q pair) := by
  rintro w ⟨⟩
  have := Bool.toNat_le pair
  exact encE_lt _ _ _ _ _ _ _ _ _ (by omega) (by omega)

theorem mzero (c : Ctl) (d : Code) (b : Code) (pair : Bool) : Statement (.mzero c d b pair) := by
  rintro w ⟨⟩
  have := Bool.toNat_le pair
  exact encE_lt _ _ _ _ _ _ _ _ _ (by omega) (by omega)

theorem mlda (c : Ctl) (d : Code) (a : Code) (b : Code) (td : BitVec 6) (pair : Bool) : Statement (.mlda c d a b td pair) := by
  rintro w ⟨⟩
  have := Bool.toNat_le pair
  exact encE_lt _ _ _ _ _ _ _ _ _ (by omega) (by omega)

theorem msta (c : Ctl) (d : Code) (a : Code) (b : Code) (td : BitVec 6) (pair : Bool) (rnd : BitVec 2) (sat : Bool) : Statement (.msta c d a b td pair rnd sat) := by
  rintro w ⟨⟩
  have := Bool.toNat_le pair
  have := Bool.toNat_le sat
  exact encE_lt _ _ _ _ _ _ _ _ _ (by omega) (by omega)

theorem pstart (c : Ctl) (d : Code) (a : Code) (b : Code) (unit : BitVec 3) (entry : BitVec 16) (n : BitVec 3) (resume : Bool) : Statement (.pstart c d a b unit entry n resume) := by
  rintro w ⟨⟩
  have := Bool.toNat_le resume
  exact encE_lt _ _ _ _ _ _ _ _ _ (by omega) (by omega)

theorem pstop (c : Ctl) (d : Code) (unit : BitVec 3) : Statement (.pstop c d unit) := by
  rintro w ⟨⟩
  exact encE_lt _ _ _ _ _ _ _ _ _ (by omega) (by omega)

theorem pstat (c : Ctl) (d : Code) (unit : BitVec 3) (sel : BitVec 16) : Statement (.pstat c d unit sel) := by
  rintro w ⟨⟩
  exact encE_lt _ _ _ _ _ _ _ _ _ (by omega) (by omega)

theorem iload (c : Ctl) (d : Code) (a : Code) (b : Code) (e : Code) (kind : BitVec 3) : Statement (.iload c d a b e kind) := by
  rintro w ⟨⟩
  exact encE_lt _ _ _ _ _ _ _ _ _ (by omega) (by omega)

theorem ictlState (c : Ctl) (d : Code) (a : Code) (kind : BitVec 3) : Statement (.ictlState c d a kind) := by
  rintro w ⟨⟩
  exact encE_lt _ _ _ _ _ _ _ _ _ (by omega) (by omega)

theorem ictlResume (c : Ctl) (d : Code) (a : Code) (kind : BitVec 3) : Statement (.ictlResume c d a kind) := by
  rintro w ⟨⟩
  exact encE_lt _ _ _ _ _ _ _ _ _ (by omega) (by omega)

theorem ictlDiscard (c : Ctl) (d : Code) (a : Code) (kind : BitVec 3) : Statement (.ictlDiscard c d a kind) := by
  rintro w ⟨⟩
  exact encE_lt _ _ _ _ _ _ _ _ _ (by omega) (by omega)

theorem ictlFaultAddress (c : Ctl) (d : Code) (a : Code) (kind : BitVec 3) : Statement (.ictlFaultAddress c d a kind) := by
  rintro w ⟨⟩
  exact encE_lt _ _ _ _ _ _ _ _ _ (by omega) (by omega)

theorem passbegin (c : Ctl) (d : Code) (a : Code) : Statement (.passbegin c d a) := by
  rintro w ⟨⟩
  exact encE_lt _ _ _ _ _ _ _ _ _ (by omega) (by omega)

theorem passend (c : Ctl) (d : Code) (a : Code) : Statement (.passend c d a) := by
  rintro w ⟨⟩
  exact encE_lt _ _ _ _ _ _ _ _ _ (by omega) (by omega)

theorem passstat (c : Ctl) (d : Code) (a : Code) : Statement (.passstat c d a) := by
  rintro w ⟨⟩
  exact encE_lt _ _ _ _ _ _ _ _ _ (by omega) (by omega)

theorem resolve (c : Ctl) (d : Code) (a : Code) : Statement (.resolve c d a) := by
  rintro w ⟨⟩
  exact encE_lt _ _ _ _ _ _ _ _ _ (by omega) (by omega)

theorem xldi (c : Ctl) (d : Code) (a : Code) (off : BitVec 24) (pol : BitVec 4) (size : BitVec 3) (sp : Bool) : Statement (.xldi c d a off pol size sp) := by
  rintro w ⟨⟩
  have := Bool.toNat_le sp
  exact encM_lt _ _ _ _ _ _ _ (by omega) (by omega)

theorem xcoord (c : Ctl) (d : Code) (a : Code) (td : BitVec 6) : Statement (.xcoord c d a td) := by
  rintro w ⟨⟩
  exact encE_lt _ _ _ _ _ _ _ _ _ (by omega) (by omega)

theorem xcopy (c : Ctl) (a : Code) (b : Code) (e : Code) (td : BitVec 6) (q : BitVec 4) (pad : BitVec 8) (dir : BitVec 3) : Statement (.xcopy c a b e td q pad dir) := by
  rintro w ⟨⟩
  exact encE_lt _ _ _ _ _ _ _ _ _ (by omega) (by omega)

theorem xgather (c : Ctl) (a : Code) (b : Code) (e : Code) (td : BitVec 6) (pad : BitVec 8) (n : BitVec 10) : Statement (.xgather c a b e td pad n) := by
  rintro w ⟨⟩
  exact encE_lt _ _ _ _ _ _ _ _ _ (by omega) (by omega)

theorem xscatter (c : Ctl) (a : Code) (b : Code) (e : Code) (td : BitVec 6) (pad : BitVec 8) (n : BitVec 10) : Statement (.xscatter c a b e td pad n) := by
  rintro w ⟨⟩
  exact encE_lt _ _ _ _ _ _ _ _ _ (by omega) (by omega)

theorem xmcast (c : Ctl) (a : Code) (b : Code) (e : Code) (td : BitVec 6) (pad : BitVec 8) : Statement (.xmcast c a b e td pad) := by
  rintro w ⟨⟩
  exact encE_lt _ _ _ _ _ _ _ _ _ (by omega) (by omega)

theorem xstmx (c : Ctl) (a : Code) (b : Code) (td : BitVec 6) (pad : BitVec 8) (bf16 : Bool) (had : Bool) : Statement (.xstmx c a b td pad bf16 had) := by
  rintro w ⟨⟩
  have := Bool.toNat_le bf16
  have := Bool.toNat_le had
  exact encE_lt _ _ _ _ _ _ _ _ _ (by omega) (by omega)

theorem xfill (c : Ctl) (a : Code) (b : Code) (e : Code) (td : BitVec 6) (s : Bool) : Statement (.xfill c a b e td s) := by
  rintro w ⟨⟩
  have := Bool.toNat_le s
  exact encE_lt _ _ _ _ _ _ _ _ _ (by omega) (by omega)

theorem xarrive (c : Ctl) (imm : Bool) (a : Code) (v : BitVec 16) : Statement (.xarrive c imm a v) := by
  rintro w ⟨⟩
  have := Bool.toNat_le imm
  simp only [Nat.add_assoc]
  exact encHead_add_lt _ _ _ _ (by omega) (by omega) (by omega)

theorem xstamp (c : Ctl) (a : Code) (b : Code) (off : BitVec 24) (pol : BitVec 4) (scope : BitVec 3) : Statement (.xstamp c a b off pol scope) := by
  rintro w ⟨⟩
  exact encM_lt _ _ _ _ _ _ _ (by omega) (by omega)

theorem xwait (c : Ctl) (bar : Bool) (a : Code) (n : BitVec 5) : Statement (.xwait c bar a n) := by
  rintro w ⟨⟩
  have := Bool.toNat_le bar
  simp only [Nat.add_assoc]
  exact encHead_add_lt _ _ _ _ (by omega) (by omega) (by omega)

theorem xfence (c : Ctl) (scope : BitVec 3) (order : BitVec 3) : Statement (.xfence c scope order) := by
  rintro w ⟨⟩
  exact encM_lt _ _ _ _ _ _ _ (by omega) (by omega)

theorem xtrap (c : Ctl) (v : BitVec 16) : Statement (.xtrap c v) := by
  rintro w ⟨⟩
  exact encHead_add_lt _ _ _ _ (by omega) (by omega) (by omega)

theorem xend (c : Ctl) : Statement (.xend c) := by
  rintro w ⟨⟩
  exact encHead_lt _ _ _ (by omega) (by omega)

theorem balloc (c : Ctl) (d : Code) (pair : Bool) (f : Code) : Statement (.balloc c d pair f) := by
  rintro w ⟨⟩
  have := Bool.toNat_le pair
  exact encS_lt _ _ _ _ _ _ _ (by omega) (by omega)

theorem bfree (c : Ctl) (a : Code) : Statement (.bfree c a) := by
  rintro w ⟨⟩
  exact encS_lt _ _ _ _ _ _ _ (by omega) (by omega)

theorem binit (c : Ctl) (a : Code) (n : BitVec 24) : Statement (.binit c a n) := by
  rintro w ⟨⟩
  exact encS_lt _ _ _ _ _ _ _ (by omega) (by omega)

theorem barrive (c : Ctl) (a : Code) (n : BitVec 24) (f : Code) : Statement (.barrive c a n f) := by
  rintro w ⟨⟩
  exact encS_lt _ _ _ _ _ _ _ (by omega) (by omega)

theorem bwait (c : Ctl) (d : Code) (a : Code) (f : Code) : Statement (.bwait c d a f) := by
  rintro w ⟨⟩
  exact encS_lt _ _ _ _ _ _ _ (by omega) (by omega)

theorem btest (c : Ctl) (d : Code) (a : Code) (r : Code) (f : Code) : Statement (.btest c d a r f) := by
  rintro w ⟨⟩
  exact encS_lt _ _ _ _ _ _ _ (by omega) (by omega)

theorem binval (c : Ctl) (a : Code) : Statement (.binval c a) := by
  rintro w ⟨⟩
  exact encS_lt _ _ _ _ _ _ _ (by omega) (by omega)

theorem sync (c : Ctl) : Statement (.sync c) := by
  rintro w ⟨⟩
  exact encHead_lt _ _ _ (by omega) (by omega)

theorem rdsr (c : Ctl) (d : Code) (sr : BitVec 8) : Statement (.rdsr c d sr) := by
  rintro w ⟨⟩
  exact encS_lt _ _ _ _ _ _ _ (by omega) (by omega)

theorem wrsr (c : Ctl) (a : Code) (sr : BitVec 8) (imm : Bool) (v : BitVec 24) : Statement (.wrsr c a sr imm v) := by
  rintro w ⟨⟩
  have := Bool.toNat_le imm
  exact encS_lt _ _ _ _ _ _ _ (by omega) (by omega)

theorem trap (c : Ctl) (v : BitVec 24) : Statement (.trap c v) := by
  rintro w ⟨⟩
  exact encS_lt _ _ _ _ _ _ _ (by omega) (by omega)

theorem tret (c : Ctl) (act : BitVec 2) : Statement (.tret c act) := by
  rintro w ⟨⟩
  exact encHead_add_lt _ _ _ _ (by omega) (by omega) (by omega)

theorem handlerEntry : ∀ x0, Statement (.handlerEntry x0) := by
  intros
  intro w h
  cases h

theorem instructionComplete : ∀ x0 x1, Statement (.instructionComplete x0 x1) := by
  intros
  intro w h
  cases h

theorem queueRecordVisible : ∀ x0 x1, Statement (.queueRecordVisible x0 x1) := by
  intros
  intro w h
  cases h

theorem barriveArrivalApplied : ∀ x0 x1, Statement (.barriveArrivalApplied x0 x1) := by
  intros
  intro w h
  cases h

theorem sliceAccess : ∀ x0 x1 x2, Statement (.sliceAccess x0 x1 x2) := by
  intros
  intro w h
  cases h

theorem scFillComplete : ∀ x0, Statement (.scFillComplete x0) := by
  intros
  intro w h
  cases h

theorem sliceAtomic : ∀ x0, Statement (.sliceAtomic x0) := by
  intros
  intro w h
  cases h

theorem writeBufferDrain : ∀ x0 x1, Statement (.writeBufferDrain x0 x1) := by
  intros
  intro w h
  cases h

theorem monitorReread : ∀ x0 x1 x2, Statement (.monitorReread x0 x1 x2) := by
  intros
  intro w h
  cases h

theorem pageWalkComplete : ∀ x0, Statement (.pageWalkComplete x0) := by
  intros
  intro w h
  cases h

theorem instructionLineFill : ∀ x0 x1, Statement (.instructionLineFill x0 x1) := by
  intros
  intro w h
  cases h

theorem lqwrWrite : ∀ x0 x1 x2, Statement (.lqwrWrite x0 x1 x2) := by
  intros
  intro w h
  cases h

theorem lqcfgWrite : ∀ x0 x1 x2, Statement (.lqcfgWrite x0 x1 x2) := by
  intros
  intro w h
  cases h

theorem packetBecomesHead : ∀ x0 x1, Statement (.packetBecomesHead x0 x1) := by
  intros
  intro w h
  cases h

theorem tokenReread : ∀ x0, Statement (.tokenReread x0) := by
  intros
  intro w h
  cases h

theorem admissionStep : Statement .admissionStep := by
  intro w h
  cases h

theorem contextZeroingDone : ∀ x0, Statement (.contextZeroingDone x0) := by
  intros
  intro w h
  cases h

theorem porterSectionCopyDone : ∀ x0, Statement (.porterSectionCopyDone x0) := by
  intros
  intro w h
  cases h

theorem teamStart : ∀ x0, Statement (.teamStart x0) := by
  intros
  intro w h
  cases h

theorem teamRetirement : ∀ x0, Statement (.teamRetirement x0) := by
  intros
  intro w h
  cases h

theorem launchEnd : ∀ x0, Statement (.launchEnd x0) := by
  intros
  intro w h
  cases h

theorem rebalanceInterval : ∀ x0, Statement (.rebalanceInterval x0) := by
  intros
  intro w h
  cases h

theorem deadlineApproach : ∀ x0 x1, Statement (.deadlineApproach x0 x1) := by
  intros
  intro w h
  cases h

theorem teamSave : ∀ x0, Statement (.teamSave x0) := by
  intros
  intro w h
  cases h

theorem powerAlarmRaise : ∀ x0, Statement (.powerAlarmRaise x0) := by
  intros
  intro w h
  cases h

theorem powerAlarmLower : Statement .powerAlarmLower := by
  intro w h
  cases h

theorem matrixRowWrite : ∀ x0, Statement (.matrixRowWrite x0) := by
  intros
  intro w h
  cases h

theorem matrixCommandComplete : ∀ x0, Statement (.matrixCommandComplete x0) := by
  intros
  intro w h
  cases h

theorem porterUnitPerform : ∀ x0 x1 x2, Statement (.porterUnitPerform x0 x1 x2) := by
  intros
  intro w h
  cases h

theorem xmcastDelivery : ∀ x0 x1 x2 x3, Statement (.xmcastDelivery x0 x1 x2 x3) := by
  intros
  intro w h
  cases h

theorem xstampWrite : ∀ x0 x1, Statement (.xstampWrite x0 x1) := by
  intros
  intro w h
  cases h

theorem porterFault : ∀ x0 x1, Statement (.porterFault x0 x1) := by
  intros
  intro w h
  cases h

theorem droppedCreditFault : ∀ x0 x1, Statement (.droppedCreditFault x0 x1) := by
  intros
  intro w h
  cases h

theorem porterDrainEnd : ∀ x0 x1, Statement (.porterDrainEnd x0 x1) := by
  intros
  intro w h
  cases h

theorem iloadComplete : ∀ x0, Statement (.iloadComplete x0) := by
  intros
  intro w h
  cases h

theorem islandLoad : ∀ x0 x1, Statement (.islandLoad x0 x1) := by
  intros
  intro w h
  cases h

theorem sample2d : ∀ x0 x1, Statement (.sample2d x0 x1) := by
  intros
  intro w h
  cases h

theorem sampleCube : ∀ x0 x1, Statement (.sampleCube x0 x1) := by
  intros
  intro w h
  cases h

theorem rayBox4 : ∀ x0 x1, Statement (.rayBox4 x0 x1) := by
  intros
  intro w h
  cases h

theorem rayTri : ∀ x0 x1, Statement (.rayTri x0 x1) := by
  intros
  intro w h
  cases h

theorem rayFrustum64 : ∀ x0 x1, Statement (.rayFrustum64 x0 x1) := by
  intros
  intro w h
  cases h

theorem blendColour : ∀ x0, Statement (.blendColour x0) := by
  intros
  intro w h
  cases h

theorem rasterCoarse : ∀ x0 x1, Statement (.rasterCoarse x0 x1) := by
  intros
  intro w h
  cases h

theorem rasterPath : ∀ x0 x1, Statement (.rasterPath x0 x1) := by
  intros
  intro w h
  cases h

theorem islandResponseDeliver : ∀ x0 x1, Statement (.islandResponseDeliver x0 x1) := by
  intros
  intro w h
  cases h

theorem islandFault : ∀ x0 x1, Statement (.islandFault x0 x1) := by
  intros
  intro w h
  cases h

theorem ctxCreate : ∀ x0, Statement (.ctxCreate x0) := by
  intros
  intro w h
  cases h

theorem ctxReset : ∀ x0, Statement (.ctxReset x0) := by
  intros
  intro w h
  cases h

theorem ctxAttest : ∀ x0, Statement (.ctxAttest x0) := by
  intros
  intro w h
  cases h

theorem ctxExport : ∀ x0, Statement (.ctxExport x0) := by
  intros
  intro w h
  cases h

theorem ctxImport : ∀ x0, Statement (.ctxImport x0) := by
  intros
  intro w h
  cases h

theorem ctxConfirm : ∀ x0, Statement (.ctxConfirm x0) := by
  intros
  intro w h
  cases h

theorem ctxRelease : ∀ x0, Statement (.ctxRelease x0) := by
  intros
  intro w h
  cases h

theorem ctxAbort : ∀ x0, Statement (.ctxAbort x0) := by
  intros
  intro w h
  cases h

theorem kesload : ∀ x0, Statement (.kesload x0) := by
  intros
  intro w h
  cases h

theorem ctxCommandComplete : Statement .ctxCommandComplete := by
  intro w h
  cases h

theorem tlbinvWrite : ∀ x0 x1, Statement (.tlbinvWrite x0 x1) := by
  intros
  intro w h
  cases h

theorem tlbInvalidationDone : ∀ x0, Statement (.tlbInvalidationDone x0) := by
  intros
  intro w h
  cases h

theorem trapactWrite : ∀ x0 x1, Statement (.trapactWrite x0 x1) := by
  intros
  intro w h
  cases h

theorem coreReset : ∀ x0, Statement (.coreReset x0) := by
  intros
  intro w h
  cases h

theorem scownWrite : ∀ x0 x1, Statement (.scownWrite x0 x1) := by
  intros
  intro w h
  cases h

theorem ecccntClear : Statement .ecccntClear := by
  intro w h
  cases h

theorem registerWrite : ∀ x0 x1 x2, Statement (.registerWrite x0 x1 x2) := by
  intros
  intro w h
  cases h

theorem deviceReset : Statement .deviceReset := by
  intro w h
  cases h

theorem vfFunctionLevelReset : ∀ x0, Statement (.vfFunctionLevelReset x0) := by
  intros
  intro w h
  cases h

theorem hkcBringupComplete : Statement .hkcBringupComplete := by
  intro w h
  cases h

theorem bar2Write : ∀ x0 x1, Statement (.bar2Write x0 x1) := by
  intros
  intro w h
  cases h

theorem bar2Read : ∀ x0 x1, Statement (.bar2Read x0 x1) := by
  intros
  intro w h
  cases h

theorem hostCxlMemAccess : ∀ x0 x1 x2, Statement (.hostCxlMemAccess x0 x1 x2) := by
  intros
  intro w h
  cases h

theorem bandwidthWindowEnd : ∀ x0, Statement (.bandwidthWindowEnd x0) := by
  intros
  intro w h
  cases h

theorem systemSpaceRefusal : ∀ x0, Statement (.systemSpaceRefusal x0) := by
  intros
  intro w h
  cases h

theorem vfEnable : ∀ x0, Statement (.vfEnable x0) := by
  intros
  intro w h
  cases h

end Sys2Proof.Laws.WordFits
end

