-- ==== Sys2Proof/Tests/Slice0.lean ====
section
/-! SUPPORT. Small tests: ill-formed terms, decoded words, one step on small states, and states that meet the hypotheses
of the statements. Expected values are those of the rules cited. They are elaborated one after another, to keep memory low. -/

set_option Elab.async false

namespace Sys2Proof.Tests

open Machine

/-! ### Small states -/

/-- No guard, no flag attached. -/
def c0 : Ctl := ⟨false, 0, 0⟩

/-- A team with one lead and one group of 32 threads on core 0; v1 holds 1000 + lane, v2 holds 5, v4 to v7 hold 0 in
every lane; k0 and k1 hold 0x1000 and 0, k2 holds 3. -/
def team0 : Team :=
  { loadedTeam true true with
    nd := 64, nt := 8, window := 4096
    lead := { startLead 0 with
      s := [(1, 0x10000), (2, 5), (3, 7), (5, 0x20), (8, 0x100)] }
    groups := [(0, { startGroup 32 0 0 0 0 0 0 with
      k := [(0, 0x1000), (2, 3)],
      v := (upto 0 32).map (fun l => (1 * 64 + l, BitVec.ofNat 32 (1000 + l))) ++
        (upto 0 32).map (fun l => (2 * 64 + l, 5)) ++
        ((upto 4 4).flatMap fun r => (upto 0 32).map fun l => (r * 64 + l, 0)) })] }

def withTeam (t : Team) (p : Party) : State := { State.reset with
  teams := [(0, t)], turn := some p, insts := [(0, ⟨0, false, [], [], [], true⟩)] }

/-- The group, the lead, a porter of the team issues. -/
def gst : State := withTeam team0 (.group 0 0)
def lst : State := withTeam team0 (.lead 0)
def pst : State := { withTeam team0 (.porter 0 0) with
  cores := [(0, { Core.reset with
    tenant := some (0, 0)
    p0 := { Porter.idle with
      st := .running, team := some 0, g := [(1, 0x40), (2, 5), (4, 8)] } })] }

/-! ### States that meet hypotheses -/

/-- The environment with which an instruction issues, when it passes the checks. -/
def issued (s : State) (i : Instr) (c : Ctl) (r : Rules) : Option Env :=
  match s.turn with
  | none => none
  | some p => match envOf s p i c with
    | none => none
    | some b => if plain b r && decide (b.p = p) then some (popAll (b.taking r)) else none

theorem issued_spec {s : State} {i : Instr} {c : Ctl} {r : Rules} {e : Env} (h : issued s i c r = some e) :
    Issues s i c r e := by
  unfold issued at h
  split at h
  · cases h
  · rename_i p hp
    split at h
    · cases h
    · rename_i b hb
      split at h
      · rename_i hc
        simp only [Bool.and_eq_true, decide_eq_true_eq] at hc
        cases h
        exact ⟨b, by rw [hp, hc.2], by rw [hc.2]; exact hb, hc.1, rfl⟩
      · cases h

/-- The instruction issues, with an environment of which `f` holds. -/
def meets (s : State) (i : Instr) (c : Ctl) (r : Rules) (f : Env → Bool) : Bool :=
  match issued s i c r with
  | some e => f e
  | none => false

theorem issues_of {s : State} {i : Instr} {c : Ctl} {r : Rules} (P : Env → Prop) [DecidablePred P]
    (h : meets s i c r (fun e => decide (P e)) = true) : ∃ e, Issues s i c r e ∧ P e := by
  unfold meets at h
  split at h
  · rename_i e he
    exact ⟨e, issued_spec he, by simpa using h⟩
  · cases h

/-- The same for an instruction whose rules stand in a row. -/
theorem row_of {α : Type} {s : State} {i : Instr} {row : Option α} {c : α → Ctl} {r : α → Rules} (P : α → Env → Prop)
    [∀ x, DecidablePred (P x)]
    (h : (match row with | some x => meets s i (c x) (r x) (fun e => decide (P x e)) | none => false) = true) :
    ∃ x e, row = some x ∧ Issues s i (c x) (r x) e ∧ P x e := by
  split at h
  · rename_i x
    obtain ⟨e, he, hp⟩ := issues_of (P x) h
    exact ⟨x, e, rfl, he, hp⟩
  · cases h

/-- What a step of exec leaves, for tests on its parts. -/
def after (i : Instr) (s : State) : State :=
  match exec i s with
  | .next t => t
  | .fault _ => State.reset
  | .refused _ => State.reset

/-! ### Ill-formed terms -/

/-- One ill-formed term for each check of `Instr.wf` (R338 to R340 and the entries), beside a well-formed one. -/
theorem test_wf_refuses :
    (Instr.iadd ⟨false, 0, 3⟩ 1 2 (.reg 3) 0).wf = false ∧ (Instr.iadd c0 1 2 (.reg 3) 3).wf = false ∧
    (Instr.iadd c0 1 2 (.reg 3) 2).wf = true ∧
    (Instr.icmp c0 0xB1 2 (.reg 3) 10 0 0).wf = false ∧ (Instr.icmp c0 0xB1 2 (.reg 3) 0 0 0xB2).wf = false ∧
    (Instr.psop c0 0xB1 0xB2 0xB3 0xB4 false 0x08).wf = false ∧ (Instr.psop c0 0xB1 0xB2 0xB3 0xB4 false 0x09).wf = true ∧
    (Instr.fadd c0 1 2 (.reg 3) 3 0).wf = false ∧ (Instr.fadd c0 1 2 (.reg 3) 0 1).wf = false ∧
    (Instr.fmin c0 1 2 (.reg 3) 3).wf = false ∧ (Instr.fcmp c0 0xB1 2 (.reg 3) 0 13 0 0).wf = false ∧
    (Instr.cvt c0 1 2 0 false 0 0 false 0 12 0).wf = false ∧ (Instr.cvt c0 1 2 0 false 0 0 false 0 0 12).wf = false ∧
    (Instr.cvt c0 1 2 0 false 0 1 false 0 0 0).wf = false ∧ (Instr.cvt c0 1 2 0 false 1 0 false 0 0 1).wf = false ∧
    (Instr.cvt c0 1 2 3 false 0 0 false 0 0 1).wf = false ∧ (Instr.cvt c0 1 2 0 false 0 0 false 0 8 9).wf = false ∧
    (Instr.cvt c0 1 2 0 false 0 0 true 0 0 1).wf = false ∧ (Instr.cvt c0 1 2 0 false 0 0 false 0 0 1).wf = true ∧
    (Instr.rcp c0 1 2 0 2).wf = false ∧ (Instr.swiz c0 1 2 3 true 0 0).wf = false ∧
    (Instr.swiz c0 1 2 3 false 1 0).wf = false ∧ (Instr.redux c0 1 2 9 0).wf = false ∧ (Instr.redux c0 1 2 1 4).wf = false ∧
    (Instr.ld c0 1 ⟨2, 0, 0, true, 5⟩ ⟨0, 0, 0, 2⟩ false).wf = false ∧ (Instr.ld c0 1 ⟨2, 3, 0, false, 0⟩ ⟨0, 0, 0, 2⟩ false).wf = false ∧
    (Instr.ld c0 1 ⟨2, 0, 0, false, 0⟩ ⟨0, 0, 0, 6⟩ false).wf = false ∧ (Instr.ld c0 1 ⟨2, 0, 0, false, 0⟩ ⟨0, 7, 0, 2⟩ false).wf = false ∧
    (Instr.ld c0 1 ⟨2, 0, 0, false, 0⟩ ⟨0, 0, 1, 2⟩ false).wf = false ∧ (Instr.ld c0 1 ⟨2, 0, 0, false, 0⟩ ⟨0, 1, 4, 2⟩ false).wf = false ∧
    (Instr.ld c0 1 ⟨2, 0, 0, false, 0⟩ ⟨0, 1, 2, 2⟩ false).wf = false ∧ (Instr.ld c0 1 ⟨2, 0, 0, false, 0⟩ ⟨0, 1, 1, 3⟩ true).wf = false ∧
    (Instr.ld c0 1 ⟨2, 0, 0, false, 0⟩ ⟨0, 1, 1, 2⟩ true).wf = true ∧ (Instr.st c0 1 2 0 ⟨0, 1, 1, 2⟩).wf = false := by
  decide +kernel

theorem test_wf_refuses_more :
    (Instr.lds c0 1 ⟨2, 0, 0, false, 0⟩ 5 false).wf = false ∧ (Instr.lds c0 1 ⟨2, 0, 0, false, 0⟩ 2 true).wf = false ∧
    (Instr.sts c0 1 2 0 5).wf = false ∧ (Instr.atom c0 1 2 3 0 ⟨0, 1, 0, 1⟩ 0).wf = false ∧
    (Instr.atom c0 1 2 3 0 ⟨0, 1, 0, 2⟩ 11).wf = false ∧ (Instr.atomb c0 1 2 3 0 3 10).wf = false ∧
    (Instr.red c0 1 2 0 ⟨0, 1, 0, 2⟩ 9).wf = false ∧ (Instr.monw c0 1 2 3 0 ⟨0, 1, 0, 2⟩ 7).wf = false ∧
    (Instr.fence c0 0 1).wf = false ∧ (Instr.fence c0 1 0).wf = false ∧ (Instr.fence c0 1 5).wf = false ∧
    (Instr.iinv c0 1 2 0 2).wf = false ∧ (Instr.br c0 ⟨0, 5⟩).wf = false ∧ (Instr.brv c0 0xB1 ⟨0, 0⟩ ⟨0, 5⟩).wf = false ∧
    (Instr.setmeet c0 true ⟨1, 0⟩).wf = false ∧ (Instr.rstlbl c0 true ⟨1, 0⟩).wf = false ∧
    (Instr.qbind c0 0x80 0x82 0 4 0 0 false).wf = false ∧ (Instr.tdset c0 8 0 false 1).wf = false ∧
    (Instr.pstart c0 1 2 3 4 0 1 false).wf = false ∧ (Instr.pstart c0 1 2 3 0 0 5 false).wf = false ∧
    (Instr.pstart c0 1 2 3 0 0 0 false).wf = false ∧ (Instr.pstart c0 1 2 3 0 8 1 false).wf = false ∧
    (Instr.pstart c0 1 2 3 0 5 1 false).wf = false ∧ (Instr.pstart c0 1 0 3 0 0 0 true).wf = false ∧
    (Instr.pstop c0 1 4).wf = false ∧ (Instr.ictlState c0 0x80 0x82 4).wf = false ∧ (Instr.xldi c0 1 2 0 0 6 false).wf = false ∧
    (Instr.xcopy c0 2 4 6 0 0 0 0).wf = false ∧ (Instr.xcopy c0 2 4 0 0 0 0 2).wf = false ∧ (Instr.xcopy c0 2 4 6 0 0 0 4).wf = false ∧
    (Instr.xcopy c0 0 0 0 0 0 0 6).wf = false ∧ (Instr.xfill c0 2 4 6 0 false).wf = false ∧ (Instr.xfill c0 2 4 6 1 true).wf = false ∧
    (Instr.xarrive c0 true 1 0).wf = false ∧ (Instr.xarrive c0 false 1 1).wf = false ∧ (Instr.xstamp c0 1 2 0 0 0).wf = false ∧
    (Instr.xwait c0 true 1 1).wf = false ∧ (Instr.xwait c0 false 1 1).wf = false ∧ (Instr.xfence c0 1 4).wf = false ∧
    (Instr.binit c0 1 0).wf = false ∧ (Instr.wrsr c0 1 0x10 true 0).wf = false ∧ (Instr.wrsr c0 1 0x10 false 1).wf = false ∧
    (Instr.deviceReset).wf = false := by decide +kernel

/-! ### Decoding: words written out from R336 to R343, a field at a time -/

/-- `FADD.f16x2 v3, v1, v2` with `RND` RNE: OP 0x080, D 3, A 1, B 2, MOD 0b10001. -/
theorem test_decode_fadd : decode (0x080 * 2 ^ 86 + 3 * 2 ^ 69 + 1 * 2 ^ 61 + 2 * 2 ^ 53 + 4 * 2 ^ 2 + 1) =
    .ok (.fadd c0 3 1 (.reg 2) 1 4) := rfl
/-- `IADD v3, v1, 0xFFFF_FFFF`: FMT 1, IMM32 in [60:29]. -/
theorem test_decode_imm : decode (0x000 * 2 ^ 86 + 1 * 2 ^ 83 + 3 * 2 ^ 69 + 1 * 2 ^ 61 + 0xFFFFFFFF * 2 ^ 29) =
    .ok (.iadd c0 3 1 (.imm 0xFFFFFFFF) 0) := rfl
/-- A word with a MOD bit that the entry does not use traps ILLEGAL_ENCODING with detail 0 (R338). -/
theorem test_decode_unused : decode (0x01B * 2 ^ 86 + 3 * 2 ^ 69 + 1 * 2 ^ 61 + 1) = .error (.detail 0) := rfl
/-- R345: an opcode that no row has, and a format that no opcode has. -/
theorem test_decode_unassigned : decode (0x00D * 2 ^ 86) = .error (.detail 0x1000D) ∧
    decode (6 * 2 ^ 83) = .error (.detail 0x20006) := ⟨rfl, rfl⟩
/-- `LD.b32 v4, [v8+0x40]` at scope 1, ORDER 1. -/
theorem test_decode_ld : decode (0x180 * 2 ^ 86 + 2 * 2 ^ 83 + 4 * 2 ^ 69 + 8 * 2 ^ 61 + 0x40 * 2 ^ 29 + 1 * 2 ^ 22 +
    1 * 2 ^ 19 + 2 * 2 ^ 16) = .ok (.ld c0 4 ⟨8, 0, 0x40, false, 0⟩ ⟨0, 1, 1, 2⟩ false) := rfl
/-- `LOOP k2, target`: TOFF, TSLOT, A in [12:5]. -/
theorem test_decode_loop : decode (0x209 * 2 ^ 86 + 3 * 2 ^ 83 + 0x1FFFFFFF * 2 ^ 48 + 4 * 2 ^ 45 + 0x82 * 2 ^ 5) =
    .ok (.loop c0 0x82 ⟨0x1FFFFFFF, 4⟩) := rfl
/-- `QPUSH v1, q3`, `MMA t1, k0, k2, td5`, and XTRAP 0xBEEF with a guard. -/
theorem test_decode_engines : decode (0x280 * 2 ^ 86 + 4 * 2 ^ 83 + 1 * 2 ^ 61 + 3 * 2 ^ 35) = .ok (.qpush c0 1 3) ∧
    decode (0x292 * 2 ^ 86 + 4 * 2 ^ 83 + 0xC1 * 2 ^ 69 + 0x80 * 2 ^ 61 + 0x82 * 2 ^ 53 + 5 * 2 ^ 39) =
      .ok (.mma c0 0xC1 0x80 0x82 5 false) ∧
    decode (0x30C * 2 ^ 86 + 5 * 2 ^ 83 + 1 * 2 ^ 82 + 2 * 2 ^ 79 + 0xBEEF * 2 ^ 29) = .ok (.xtrap ⟨true, 2, 0⟩ 0xBEEF) :=
  ⟨rfl, rfl, rfl⟩
/-- `BARRIVE s5, 3` with failure predicate p2, and `WRSR %fcr, 0x100`. -/
theorem test_decode_system : decode (0x383 * 2 ^ 86 + 5 * 2 ^ 83 + 5 * 2 ^ 61 + 3 * 2 ^ 29 + 0xB2) =
      .ok (.barrive c0 5 3 0xB2) ∧
    decode (0x391 * 2 ^ 86 + 5 * 2 ^ 83 + 0x10 * 2 ^ 53 + 0x100 * 2 ^ 29 + 1) = .ok (.wrsr c0 0 0x10 true 0x100) := ⟨rfl, rfl⟩
/-- The host's view of the same bits. -/
theorem test_decode_table : decodeTableWord 96 (0x01A * 2 ^ 86 + 3 * 2 ^ 69 + 1 * 2 ^ 61) = some (.popc c0 3 1) := rfl

/-! ### Hypotheses: encoding and the step -/

theorem test_hyp_DecodeInvertsEncode : (Instr.bXor c0 3 1 (.reg 2)).wf = true ∧
    encode (.bXor c0 3 1 (.reg 2)) = some 0x0480_0060_2040_0000_0000_0000 := by decide +kernel

/-- A program of one NOP, about to issue. -/
def nopState : State := State.reset.withFetchWord 96 0x8000_0000_0000_0000_0000_0000

/-- Some move is always enabled: a controller's window may end. -/
theorem chosen (s : State) : ∃ m, choose s = some m := by
  have hm : Move.event (.bandwidthWindowEnd 0) ∈ enabled s := by simp [enabled, hkcEvents, upto]
  have hl : 0 < (enabled s).length := List.length_pos_of_mem hm
  unfold choose
  have : Config.freeMove s.tick % max 1 (enabled s).length < (enabled s).length :=
    Nat.lt_of_lt_of_le (Nat.mod_lt _ (by omega)) (by omega)
  exact ⟨_, List.getElem?_eq_getElem this⟩

theorem test_hyp_StepRunsDecodedInstruction :
    (∃ (s : State) (i : Instr) (r : List Move), s.agenda = .event i :: r) ∧
    (∃ (s1 : State) (p : Party) (r : List Move) (pc : DWord) (line : Nat) (entered arrived : Bool) (i : Instr),
      nopState.agenda = .issue p :: r ∧ mayIssue { nopState with agenda := r, tick := nopState.tick + 1 } p = true ∧
      StandsAt { nopState with agenda := r, tick := nopState.tick + 1 } p s1 pc line entered arrived ∧
      SlotOpen s1 p pc line entered arrived ∧ decode (slotWord line (slotOf pc)) = .ok i) ∧
    (∃ (s : State) (m : Move), s.agenda = [] ∧ choose (strike s) = some m) := by
  refine ⟨⟨{ State.reset with agenda := [.event .admissionStep] }, _, _, rfl⟩, ?_,
    State.reset, _, rfl, (chosen (strike State.reset)).choose_spec⟩
  have h : (match fetchLine { nopState with agenda := [], tick := nopState.tick + 1 } (.group 0 0) 0 false with
      | .ok x => tgtBit x.2 0 && !lwMalformed (lineWord x.2) && lwWait (lineWord x.2) == 0 &&
          (match decode (slotWord x.2 0) with | .ok i => i == .nop c0 | .error _ => false) &&
          getCom x.1 (.group 0 0) == some Common.start
      | .error _ => false) = true := by decide +kernel
  split at h
  · rename_i x hx
    simp only [Bool.and_eq_true, Bool.not_eq_true', beq_iff_eq] at h
    obtain ⟨⟨⟨⟨h1, h2⟩, -⟩, h4⟩, -⟩ := h
    refine ⟨x.1, .group 0 0, [], 0, x.2, true, false, .nop c0, rfl, by decide +kernel,
      ⟨inLine (startGroup 32 0 0 0 0 0 0), inLine (startGroup 32 0 0 0 0 0 0), upto 0 32, by rfl, by decide +kernel, by decide +kernel,
        by decide +kernel, hx⟩, ⟨fun _ => h1, ?_, h2⟩, ?_⟩
    · intro h
      cases h
    · split at h4
      · rename_i i hi
        exact hi.trans (by rw [eq_of_beq h4])
      · cases h4
  · cases h

/-- An outcome that is a next state. -/
def isNext (o : Host.Outcome State Fault Refusal) : Bool :=
  match o with
  | .next _ => true
  | _ => false

theorem next_of {o : Host.Outcome State Fault Refusal} (h : isNext o = true) : ∃ t, o = .next t := by
  cases o
  · exact ⟨_, rfl⟩
  · cases h
  · cases h

theorem test_hyp_StepKeepsMemoryForm : nopState.Inv ∧ ∃ t, step nopState = .next t :=
  ⟨by decide +kernel, next_of (by decide +kernel)⟩

/-! ### Hypotheses: results of classes 0 to 2 -/

theorem test_hyp_IntegerResults :
    (∃ r e, intRow (.bXor c0 3 1 (.reg 2)) = some r ∧ Issues gst (.bXor c0 3 1 (.reg 2)) r.c r.rules e ∧ e.act ≠ []) ∧
    (∃ r e, intRow (.iabs c0 3 2) = some r ∧ Issues lst (.iabs c0 3 2) r.c r.rules e ∧ e.act ≠ []) ∧
    (∃ e, Issues lst (.movi c0 2 7 true) c0 (moviHi c0 2 7).rules e ∧ e.act ≠ []) :=
  ⟨row_of (fun _ e => e.act ≠ []) (by decide +kernel), row_of (fun _ e => e.act ≠ []) (by decide +kernel),
    issues_of _ (by decide +kernel)⟩

theorem test_hyp_WideResults :
    (∃ r e, pairRow (.imadw c0 8 1 (.reg 2) 4 false) = some r ∧ Issues gst (.imadw c0 8 1 (.reg 2) 4 false) r.c r.rules e ∧
      e.kind = .group) ∧
    (∃ r e, pairRow (.imadw c0 4 1 (.reg 2) 3 true) = some r ∧ Issues lst (.imadw c0 4 1 (.reg 2) 3 true) r.c r.rules e ∧
      e.kind ≠ .group) :=
  ⟨row_of (fun _ e => e.kind = .group) (by decide +kernel), row_of (fun _ e => e.kind ≠ .group) (by decide +kernel)⟩

theorem test_hyp_PredicateResults :
    (∃ r e, predRow (.icmp c0 0xB1 1 (.reg 2) 9 3 0xB2) = some r ∧
      Issues gst (.icmp c0 0xB1 1 (.reg 2) 9 3 0xB2) r.c r.rules e ∧ e.act ≠ []) ∧
    (∃ r e, predRow (.edge c0 0xB1 4 6 1 true) = some r ∧ Issues gst (.edge c0 0xB1 4 6 1 true) r.c r.rules e ∧ e.act ≠ []) :=
  ⟨row_of (fun _ e => e.act ≠ []) (by decide +kernel), row_of (fun _ e => e.act ≠ []) (by decide +kernel)⟩

theorem test_hyp_LaneResults :
    (∃ r e, laneRow (.swiz c0 3 1 0 true 127 1) = some r ∧ Issues gst (.swiz c0 3 1 0 true 127 1) r.c r.rules e ∧ e.act ≠ []) ∧
    (∃ e, Issues gst (.ballot c0 8 0xB0) c0 { fields := fun _ => [⟨8, .out 2⟩, ⟨0xB0, .pin false⟩] } e ∧ e.act ≠ []) :=
  ⟨row_of (fun _ e => e.act ≠ []) (by decide +kernel), issues_of _ (by decide +kernel)⟩

/-- The team with every trap of R106 enabled in its group. -/
def trapTeam : Team := { team0 with
  groups := team0.groups.map fun g => (g.1, { g.2 with
    com := { g.2.com with
      fcr := 0x1F8 } }) }

theorem test_hyp_FloatResultsAndExceptions :
    (∃ r e, floatRow (.fadd c0 3 1 (.reg 2) 0 0) = some r ∧ Issues gst (.fadd c0 3 1 (.reg 2) 0 0) r.c r.rules e ∧
      r.flags e &&& fcrTraps e.com = 0) ∧
    (∃ r e, floatRow (.rcp c0 3 4 0 0) = some r ∧ Issues (withTeam trapTeam (.group 0 0)) (.rcp c0 3 4 0 0) r.c r.rules e ∧
      r.flags e &&& fcrTraps e.com ≠ 0) :=
  ⟨row_of (fun (r : FloatRow) (e : Env) => r.flags e &&& fcrTraps e.com = 0) (by decide +kernel),
    row_of (fun (r : FloatRow) (e : Env) => r.flags e &&& fcrTraps e.com ≠ 0) (by decide +kernel)⟩

/-- v10 has never been written: its value in lane 0 is a register marker (R116). -/
theorem test_hyp_MarkerTraps : ∃ r b, floatRow (.fadd c0 3 1 (.reg 10) 0 0) = some r ∧ gst.turn = some b.p ∧
    envOf gst b.p (.fadd c0 3 1 (.reg 10) 0 0) r.c = some b ∧ sourced b r.rules = true ∧ fcrMark b.com = true ∧
    r.rules.fields b.kind = [⟨3, .dst⟩, ⟨1, .src true⟩] ++ ⟨10, .src true⟩ :: [] ∧ b.act = [] ++ 0 :: upto 1 31 ∧
    (∀ m ∈ b.act, isMarker (val (b.taking r.rules) 1 m) = false) ∧ isMarker (val (b.taking r.rules) 10 0) = true := by
  have h : (match floatRow (.fadd c0 3 1 (.reg 10) 0 0), envOf gst (.group 0 0) (.fadd c0 3 1 (.reg 10) 0 0) c0 with
    | some r, some b => decide (b.p = .group 0 0) && decide (r.c = c0) && sourced b r.rules && fcrMark b.com &&
        decide (r.rules.fields b.kind = [⟨3, .dst⟩, ⟨1, .src true⟩, ⟨10, .src true⟩]) && decide (b.act = upto 0 32) &&
        b.act.all (fun m => !isMarker (val (b.taking r.rules) 1 m)) && isMarker (val (b.taking r.rules) 10 0)
    | _, _ => false) = true := by decide +kernel
  split at h
  · rename_i r b hr hb
    simp only [Bool.and_eq_true, decide_eq_true_eq, List.all_eq_true, Bool.not_eq_true'] at h
    obtain ⟨⟨⟨⟨⟨⟨⟨h1, h2⟩, h3⟩, h4⟩, h5⟩, h6⟩, h7⟩, h8⟩ := h
    exact ⟨r, b, hr, by rw [h1]; rfl, by rw [h1, h2]; exact hb, h3, h4, h5, h6, h7, h8⟩
  · cases h

theorem test_hyp_ResultsChangeOnlyTheirRegisters : ∃ w e, writesOf (.bXor c0 3 1 (.reg 2)) = some w ∧
    Issues gst (.bXor c0 3 1 (.reg 2)) w.c w.rules e ∧ e.recs = [] ∧ e.dq = none ∧ isQ w.d = false ∧ e.act ≠ [] :=
  row_of (fun (w : Writes) (e : Env) => e.recs = [] ∧ e.dq = none ∧ isQ w.d = false ∧ e.act ≠ []) (by decide +kernel)

theorem test_hyp_stated_rules : (∃ e, Issues gst (.clz c0 3 1) c0 (oneSource 3 1) e ∧ e.kind = .group ∧ val e 1 0 = 1000) ∧
    (∃ e, Issues lst (.popc c0 3 1) c0 (oneSource 3 1) e ∧ e.kind = .lead ∧ val e 1 0 = 0x10000) ∧
    (∃ e, Issues lst (.clz c0 3 4) c0 (oneSource 3 4) e ∧ e.kind = .lead ∧ val e 4 0 = 0) ∧
    (∃ e, Issues gst (.brev c0 3 2) c0 (oneSource 3 2) e ∧ e.kind = .group) ∧
    (∃ e, Issues pst (.iabs c0 3 1) c0 (oneSource 3 1) e ∧ e.kind = .porter) :=
  ⟨issues_of _ (by decide +kernel), issues_of _ (by decide +kernel), issues_of _ (by decide +kernel),
    issues_of _ (by decide +kernel), issues_of _ (by decide +kernel)⟩

/-! ### Hypotheses: control -/

def okB {ε α : Type} (x : Except ε α) : Bool :=
  match x with
  | .ok _ => true
  | .error _ => false

theorem ok_of {ε : Type} {x : Except ε Unit} (h : okB x = true) : x = .ok () := by
  cases x
  · cases h
  · rfl

theorem ok_get {ε α : Type} {x : Except ε α} (h : okB x = true) : ∃ a, x = .ok a := by
  cases x
  · cases h
  · exact ⟨_, rfl⟩

/-- Weaken what is said of the environment. -/
theorem issues_imp {s : State} {i : Instr} {c : Ctl} {r : Rules} {P Q : Env → Prop}
    (h : ∃ e, Issues s i c r e ∧ P e) (f : ∀ e, P e → Q e) : ∃ e, Issues s i c r e ∧ Q e :=
  let ⟨e, a, b⟩ := h
  ⟨e, a, f e b⟩

/-- Context 0 owns SC partition 0 and may reach the first GiB of GDDR7; page 1 may be read and written, page 0x10 too,
and pages 3 and 0 be executed. -/
def mapped (s : State) : State := { s with
  dev := [(0x10, 0x4000_0000), (0x1410, 0x80),
    (0x2000, 0x1_0000_0000), (0x2008, 0x1_0000_0000_0000)]
  tlb := [⟨.shared, 0, 1, 12, 0x1047⟩, ⟨.shared, 0, 0x10, 12, 0x1_0047⟩, ⟨.shared, 0, 3, 12, 0x304B⟩, ⟨.shared, 0, 0, 12, 0x504B⟩] }

/-- The line at address 0 is held, all five slots are targets. -/
def fetched (s : State) : State := { mapped s with fbuf := [⟨0, 0, 0, 0x1F * 2 ^ 500, false⟩] }

/-- The same for a porter's store. -/
def pstored (s : State) : State := { s with
  cores := s.cores.map fun k => (k.1, { k.2 with
    pstore := [(0, 0x1F * 2 ^ 500)] }) }

theorem test_targets_held : tgtBit (0x1F * 2 ^ 500) 0 = true ∧ tgtBit (0x1F * 2 ^ 500) 4 = true := by decide +kernel

theorem targetOk_of {e : Env} {t : Target} (f : Nat → Bool) (h : okB (targetCheck e (targetPc e.pc t)) = true) :
    targetOk e t f := fun _ => ok_of h

theorem test_hyp_StraightLineControl : (∃ e, Runs gst (.nop c0) e ∧ e.act ≠ []) ∧
    (∃ e, Runs gst (.yield c0) e ∧ e.p = .group 0 0) ∧ (∃ e, Runs lst (.yield c0) e ∧ e.kind ≠ .group) ∧
    (∃ e, Runs lst (.fbar c0) e ∧ e.act ≠ []) ∧ (∃ e, Runs gst (.setmeet c0 false ⟨0, 4⟩) e ∧ e.act ≠ []) :=
  ⟨issues_of _ (by decide +kernel), issues_of _ (by decide +kernel), issues_of _ (by decide +kernel),
    issues_of _ (by decide +kernel), issues_of _ (by decide +kernel)⟩

/-- The team with three DQ entries, of which its group has taken one; p1 holds in lanes 0 and 2. -/
def dqTeam : Team := { team0 with
  dq := [0, 1, 2], wr := 3
  groups := team0.groups.map fun g => (g.1, { g.2 with
    rd := 1, p := [(0, 2), (2, 2)] }) }

theorem test_hyp_BranchesMoveTheirLanes :
    (∃ e, Runs (fetched gst) (.br c0 ⟨0, 4⟩) e ∧ targetOk e ⟨0, 4⟩ (fun _ => true)) ∧
    (∃ e, Runs (fetched lst) (.brc c0 1 2 0 ⟨0, 1⟩) e ∧
      targetOk e ⟨0, 1⟩ (fun _ => compareHolds 0 (val e 1 0) (val e 2 0))) ∧
    (∃ e, Runs (fetched (withTeam dqTeam (.group 0 0))) (.bdq c0 0 false ⟨0, 1⟩) e ∧ e.dq = some 1 ∧
      targetOk e ⟨0, 1⟩ (fun _ => (1 : DWord).getLsbD 0 != false)) ∧
    (∃ e, Runs (fetched (withTeam dqTeam (.group 0 0))) (.brv c0 0xB1 ⟨0, 1⟩ ⟨0, 2⟩) e ∧
      (targetOk e ⟨0, 1⟩ (fun l => predVal e (predNum 0xB1) l) ∧ (getGroup e.s e.t e.gid).isSome = true)) ∧
    (∃ e, Runs (fetched gst) (.brx c0 4) e ∧ targetsOk e (pcOf e 4)) ∧
    (∃ e, Runs (fetched gst) (.loop c0 0x82 ⟨0, 1⟩) e ∧ (e.act ≠ [] ∧ 2 < 2 ^ e.w ∧ (2 + 1) % 2 ^ e.w = val e 0x82 e.low ∧
      targetOk e ⟨0, 1⟩ (fun _ => 2 != 0))) ∧
    (∃ e, Runs (fetched gst) (.loop c0 0x81 ⟨0, 1⟩) e ∧ (e.act ≠ [] ∧ 2 ^ 32 - 1 < 2 ^ e.w ∧
      (2 ^ 32 - 1 + 1) % 2 ^ e.w = val e 0x81 e.low ∧ targetOk e ⟨0, 1⟩ (fun _ => true))) :=
  ⟨issues_imp (issues_of (fun e => okB (targetCheck e (targetPc e.pc ⟨0, 4⟩)) = true) (by decide +kernel))
      fun _ h => targetOk_of _ h,
    issues_imp (issues_of (fun e => okB (targetCheck e (targetPc e.pc ⟨0, 1⟩)) = true) (by decide +kernel))
      fun _ h => targetOk_of _ h,
    issues_imp (issues_of (fun e => e.dq = some 1 ∧ okB (targetCheck e (targetPc e.pc ⟨0, 1⟩)) = true) (by decide +kernel))
      fun _ h => ⟨h.1, targetOk_of _ h.2⟩,
    issues_imp (issues_of (fun e => okB (targetCheck e (targetPc e.pc ⟨0, 1⟩)) = true ∧ (getGroup e.s e.t e.gid).isSome = true)
      (by decide +kernel)) fun _ h => ⟨targetOk_of _ h.1, h.2⟩,
    issues_imp (issues_of (fun e => ∀ l ∈ e.act, pcOk (pcOf e 4 l) = true ∧ okB (targetCheck e (pcOf e 4 l)) = true)
      (by decide +kernel)) fun _ h l hl => ⟨(h l hl).1, ok_of (h l hl).2⟩,
    issues_imp (issues_of (fun e => e.act ≠ [] ∧ 2 < 2 ^ e.w ∧ (2 + 1) % 2 ^ e.w = val e 0x82 e.low ∧
      okB (targetCheck e (targetPc e.pc ⟨0, 1⟩)) = true) (by decide +kernel))
      fun _ h => ⟨h.1, h.2.1, h.2.2.1, targetOk_of _ h.2.2.2⟩,
    issues_imp (issues_of (fun e => e.act ≠ [] ∧ 2 ^ 32 - 1 < 2 ^ e.w ∧ (2 ^ 32 - 1 + 1) % 2 ^ e.w = val e 0x81 e.low ∧
      okB (targetCheck e (targetPc e.pc ⟨0, 1⟩)) = true) (by decide +kernel))
      fun _ h => ⟨h.1, h.2.1, h.2.2.1, targetOk_of _ h.2.2.2⟩⟩

/-- Every thread of the group has one frame; the lead holds one return PC, or seven. -/
def calledTeam : Team := { team0 with
  ruck := 12288
  lead := { team0.lead with
    stack := [0x1] }
  groups := team0.groups.map fun g => (g.1, { g.2 with
    thr := g.2.thr.map fun h => { h with
      wb := 8, stack := [⟨1, 2⟩] } }) }
def deepLead : Team := { team0 with
  lead := { team0.lead with
    stack := List.replicate 7 0 } }
def ruckTeam : Team := { team0 with
  ruck := 12288 }

theorem spills_none {e : Env} (w : Slide) (h : e.com.ops = []) : spills e w := fun o ho => by
  rw [h] at ho
  cases ho

theorem test_hyp_CallsAndReturns :
    (∃ e, Runs (fetched (withTeam ruckTeam (.group 0 0))) (.call c0 0 ⟨0, 4⟩) e ∧ (e.kind = .group ∧ e.act ≠ [] ∧
      targetOk e ⟨0, 4⟩ (fun _ => true) ∧ ∃ w, slideWindow e true (fun l => (thread e.g l).wb + (0 + 1) * 8) = .ok w ∧ spills e w)) ∧
    (∃ e, Runs (fetched (withTeam ruckTeam (.group 0 0))) (.callx c0 4 7) e ∧ (e.act ≠ [] ∧ targetsOk e (pcOf e 4) ∧
      ∃ w, slideWindow e true (fun l => (thread e.g l).wb + (7 + 1) * 8) = .ok w ∧ spills e w)) ∧
    (∃ e, Runs (fetched (withTeam deepLead (.lead 0))) (.call c0 0 ⟨0, 4⟩) e ∧ (e.p = .lead 0 ∧ e.act ≠ [] ∧
      targetOk e ⟨0, 4⟩ (fun _ => true) ∧ e.tm.lead.stack.length < 8)) ∧
    (∃ e, Runs (fetched (withTeam calledTeam (.group 0 0))) (.ret c0) e ∧ (e.kind = .group ∧ e.act ≠ [] ∧
      (∀ l ∈ e.act, (thread e.g l).stack.head? = some ⟨1, 2⟩) ∧
      (∃ w : Slide, slideWindow e false (fun l => (thread e.g l).wb -
        (((thread e.g l).stack.head?).map fun y => (bits y.ret.toNat 3 3 + 1) * 8).getD 0) = .ok w ∧
        ∀ k ∈ e.g.spillPoison, k / 512 ∉ w.refill) ∧ targetsOk e (fun _ => retPc ⟨1, 2⟩))) ∧
    (∃ e, Runs (fetched (withTeam calledTeam (.lead 0))) (.ret c0) e ∧ (e.p = .lead 0 ∧ e.act ≠ [] ∧
      e.tm.lead.stack = 1 :: [] ∧ targetsOk e (fun _ => 1))) :=
  ⟨issues_imp (issues_of (fun e => e.kind = .group ∧ e.act ≠ [] ∧ okB (targetCheck e (targetPc e.pc ⟨0, 4⟩)) = true ∧
      okB (slideWindow e true (fun l => (thread e.g l).wb + (0 + 1) * 8)) = true ∧ e.com.ops = []) (by decide +kernel))
      fun _ h => ⟨h.1, h.2.1, targetOk_of _ h.2.2.1, (ok_get h.2.2.2.1).imp fun w hw => ⟨hw, spills_none w h.2.2.2.2⟩⟩,
    issues_imp (issues_of (fun e => e.act ≠ [] ∧ (∀ l ∈ e.act, pcOk (pcOf e 4 l) = true ∧ okB (targetCheck e (pcOf e 4 l)) = true) ∧
      okB (slideWindow e true (fun l => (thread e.g l).wb + (7 + 1) * 8)) = true ∧ e.com.ops = []) (by decide +kernel))
      fun _ h => ⟨h.1, fun l hl => ⟨(h.2.1 l hl).1, ok_of (h.2.1 l hl).2⟩,
        (ok_get h.2.2.1).imp fun w hw => ⟨hw, spills_none w h.2.2.2⟩⟩,
    issues_imp (issues_of (fun e => e.p = .lead 0 ∧ e.act ≠ [] ∧ okB (targetCheck e (targetPc e.pc ⟨0, 4⟩)) = true ∧
      e.tm.lead.stack.length < 8) (by decide +kernel)) fun _ h => ⟨h.1, h.2.1, targetOk_of _ h.2.2.1, h.2.2.2⟩,
    issues_imp (issues_of (fun e => e.kind = .group ∧ e.act ≠ [] ∧ (∀ l ∈ e.act, (thread e.g l).stack.head? = some ⟨1, 2⟩) ∧
      (e.g.spillPoison = [] ∧ okB (slideWindow e false (fun l => (thread e.g l).wb -
        (((thread e.g l).stack.head?).map fun y => (bits y.ret.toNat 3 3 + 1) * 8).getD 0)) = true) ∧
      ∀ l ∈ e.act, pcOk (retPc ⟨1, 2⟩) = true ∧ okB (targetCheck e (retPc ⟨1, 2⟩)) = true) (by decide +kernel))
      fun _ h => ⟨h.1, h.2.1, h.2.2.1, (ok_get h.2.2.2.1.2).imp fun _ hw => ⟨hw, by rw [h.2.2.2.1.1]; intro k hk; cases hk⟩,
        fun l hl => ⟨(h.2.2.2.2 l hl).1, ok_of (h.2.2.2.2 l hl).2⟩⟩,
    issues_imp (issues_of (fun e => e.p = .lead 0 ∧ e.act ≠ [] ∧ e.tm.lead.stack = 1 :: [] ∧
      ∀ l ∈ e.act, pcOk 1 = true ∧ okB (targetCheck e 1) = true) (by decide +kernel))
      fun _ h => ⟨h.1, h.2.1, h.2.2.1, fun l hl => ⟨(h.2.2.2 l hl).1, ok_of (h.2.2.2 l hl).2⟩⟩⟩

theorem test_hyp_ExitEndsThreads : (∃ e, Runs gst (.exit c0) e ∧ e.p = .group 0 0 ∧ e.act ≠ []) ∧
    (∃ e, Runs (withTeam dqTeam (.group 0 0)) (.exit ⟨false, 1, 0⟩) e ∧ e.p = .group 0 0 ∧ e.act = [0, 2]) ∧
    (∃ e, Runs lst (.exit c0) e ∧ e.p = .lead 0 ∧ e.act ≠ []) :=
  ⟨issues_of _ (by decide +kernel), issues_of _ (by decide +kernel), issues_of _ (by decide +kernel)⟩

theorem test_hyp_DecisionQueuePushAndPop :
    (∃ e, Runs (withTeam dqTeam (.lead 0)) (.dqpush c0 2) e ∧ e.act ≠ [] ∧ dqOccupancy e.tm < 64) ∧
    (∃ e, Runs (withTeam dqTeam (.group 0 0)) (.dqpop c0 8 false) e ∧ e.dq = some 1) :=
  ⟨issues_of _ (by decide +kernel), issues_of _ (by decide +kernel)⟩

/-- The line is held, and none of its slots is a target. -/
def untargeted (s : State) : State := { mapped s with fbuf := [⟨0, 0, 0, 0, false⟩] }

theorem test_hyp_BadTargetsTrap :
    (∃ e, Runs (untargeted lst) (.br c0 ⟨0, 1⟩) e ∧ e.act ≠ [] ∧ e.kind ≠ .porter ∧
      findLine e.s.fbuf e.core e.ctx (lineOf (targetPc e.pc ⟨0, 1⟩)) = some ⟨0, 0, 0, 0, false⟩ ∧
      tgtBit 0 (slotOf (targetPc e.pc ⟨0, 1⟩)) = false) ∧
    (∃ e, Runs gst (.brx c0 10) e ∧ e.kind ≠ .porter ∧ e.act = 0 :: upto 1 31 ∧ pcOk (pcOf e 10 0) = false) :=
  ⟨issues_of _ (by decide +kernel), issues_of _ (by decide +kernel)⟩

theorem test_hyp_WaypointsRestartTheCount :
    (∃ e, Runs gst (.waypt c0 0xFFFF) e ∧ e.tm.preempt = false ∧ (getCore e.s e.core).ptest.toNat < 2 ^ 31 ∧
      isHandler e.t = false) ∧
    (∃ e, Runs (fetched lst) (.rstlbl c0 false ⟨0, 1⟩) e ∧ (e.p = .lead 0 ∧ e.act ≠ [] ∧ e.tm.preempt = false ∧
      isHandler e.t = false ∧ targetCheck e (targetPc e.pc ⟨0, 1⟩) = .ok ())) ∧
    (∃ e, Runs (fetched gst) (.rstlbl c0 false ⟨0, 1⟩) e ∧ (e.p = .group 0 0 ∧ e.act ≠ [] ∧ e.tm.preempt = false ∧
      (getCore e.s e.core).ptest.toNat < 2 ^ 31 ∧ isHandler e.t = false ∧
      targetCheck e (targetPc e.pc ⟨0, 1⟩) = .ok () ∧ ∀ l, l < e.g.thr.length → (thread e.g l).live = true → l ∈ e.act)) ∧
    (∃ e, Runs lst (.rstlbl c0 true ⟨0, 0⟩) e ∧ e.p = .lead 0 ∧ e.act ≠ [] ∧ e.tm.preempt = false ∧ isHandler e.t = false) :=
  ⟨issues_of _ (by decide +kernel),
    issues_imp (issues_of (fun e => e.p = .lead 0 ∧ e.act ≠ [] ∧ e.tm.preempt = false ∧ isHandler e.t = false ∧
      okB (targetCheck e (targetPc e.pc ⟨0, 1⟩)) = true) (by decide +kernel))
      fun _ h => ⟨h.1, h.2.1, h.2.2.1, h.2.2.2.1, ok_of h.2.2.2.2⟩,
    issues_imp (issues_of (fun e => e.p = .group 0 0 ∧ e.act ≠ [] ∧ e.tm.preempt = false ∧
      (getCore e.s e.core).ptest.toNat < 2 ^ 31 ∧ isHandler e.t = false ∧
      okB (targetCheck e (targetPc e.pc ⟨0, 1⟩)) = true ∧ ∀ l, l < e.g.thr.length → (thread e.g l).live = true → l ∈ e.act)
      (by decide +kernel))
      fun _ h => ⟨h.1, h.2.1, h.2.2.1, h.2.2.2.1, h.2.2.2.2.1, ok_of h.2.2.2.2.2.1, h.2.2.2.2.2.2⟩,
    issues_of _ (by decide +kernel)⟩

/-! ### Hypotheses: queues and descriptors -/

/-- R52: a declaration: producer kind and stage, consumer kind and stage, words and depth. -/
def declOf (pk ps ck cs words depth : Nat) : Word :=
  BitVec.ofNat 32 (2 ^ 31 + cs * 2 ^ 28 + ck * 2 ^ 24 + ps * 2 ^ 20 + pk * 2 ^ 16 + (depth - 1) * 2 ^ 6 + (words - 1))

def recOf (vis : Bool) (l : List Word) : Record := ⟨l, vis, false, none, none, 0, 0, 0, .core 0⟩

/-- Queue 0 between the groups holds one record and a reserved one; queue 1 is closed and empty; queue 2 belongs to
leads; queue 3 is full. -/
def queued (s : State) : State := { s with
  insts := [(0, ⟨0, false, [(0, ⟨declOf 1 0 1 0 2 4, [recOf true [7, 8], recOf false [9, 10]], false, false, []⟩),
    (1, ⟨declOf 1 0 1 0 2 4, [], true, false, []⟩), (2, ⟨declOf 2 0 2 0 2 4, [], false, false, []⟩)], [], [], true⟩)] }

theorem test_hyp_PushesReserveAtTheTail : ∃ e, Runs (queued gst) (.qpush c0 1 0) e ∧ queueReason e 0 false = 0 ∧
    (getQueue e.s e.tm.inst 0).any (fun x => !qFull x) = true := issues_of _ (by decide +kernel)

theorem test_hyp_PopsAndState :
    (∃ e, Runs (queued gst) (.qpop c0 3 0 0xB1) e ∧ queueReason e 0 true = 0 ∧
      (getQueue e.s e.tm.inst 0).any (fun x => popIndex x e.p == some 0 && (x.recs[0]?).any fun r => !r.poison) = true) ∧
    (∃ e, Runs (queued gst) (.qpop c0 3 1 0xB1) e ∧ queueReason e 1 true = 3) ∧
    (∃ e, Runs (queued gst) (.qstat c0 3 0) e ∧ e.act ≠ [] ∧
      (getQueue e.s e.tm.inst 0).any (fun x => qValid x.decl) = true) :=
  ⟨issues_of _ (by decide +kernel), issues_of _ (by decide +kernel), issues_of _ (by decide +kernel)⟩

theorem test_hyp_RecordsBecomeVisibleInOrder : ∃ x r, getQueue (queued gst) 0 0 = some x ∧ x.recs[1]? = some r ∧
    r.vis = false ∧ r.unit = 0 ∧ (∀ i y, i < 1 → x.recs[i]? = some y → y.vis = true) ∧
    ∀ p c, r.tag = some p → getCom (queued gst) p = some c → accessDue c r.after = false :=
  ⟨_, _, rfl, rfl, rfl, rfl, fun i y hi h => by
    have : i = 0 := by omega
    subst this
    cases h
    rfl, fun p c h => by cases h⟩

/-- A reserved record of core 0's group, on a queue of a pair; and on a queue to an island. -/
def released (pair : Bool) (ck : Nat) : State := { gst with
  insts := [(0, ⟨0, pair, [(0, ⟨declOf 1 0 ck 0 2 4, [{ recOf false [7, 8] with
    tag := some (.group 0 0) }], false, false, []⟩)], [], [], true⟩)] }

theorem test_hyp_RecordsAreReleased :
    (∃ x r i, getQueue (released true 1) 0 0 = some x ∧ x.recs[0]? = some r ∧ r.vis = false ∧ r.tag = some (.group 0 0) ∧
      r.origin = .core 0 ∧ getInst (released true 1) 0 = some i ∧ i.pair = true ∧
      (getCom (released true 1) (.group 0 0)).any (fun c => !accessDue c r.after) = true) ∧
    (∃ x r, getQueue (released false 4) 0 0 = some x ∧ x.recs[0]? = some r ∧ r.vis = false ∧ r.tag = some (.group 0 0) ∧
      r.origin = .core 0 ∧ qCKind x.decl = 4 ∧ samplerOrRay (released false 4) 0 0 0 = false) ∧
    ((getInst (queued gst) 0).any (fun i => !i.pair) = true ∧
      (getQueue (queued gst) 0 0).any (fun x => qCKind x.decl != 4) = true) :=
  ⟨⟨_, _, _, rfl, rfl, rfl, rfl, rfl, rfl, rfl, by decide +kernel⟩, ⟨_, _, rfl, rfl, rfl, rfl, rfl, by decide +kernel, rfl⟩,
    by decide +kernel⟩

theorem test_hyp_DescriptorsAreSetAndRead :
    (∃ e, Runs gst (.tdset c0 4 63 true 7) e ∧ e.act ≠ [] ∧
      (getTeam e.s (tdOwner e.s e.core e.t)).any (fun x => decide (63 < x.nd)) = true) ∧
    (∃ e, Runs gst (.tdget c0 16 63 false 0) e ∧ e.act ≠ [] ∧
      (getTeam e.s (tdOwner e.s e.core e.t)).any (fun x => decide (63 < x.nd)) = true) ∧
    (∃ e, Runs (withTeam { team0 with nd := 3 } (.lead 0)) (.tdget c0 8 3 true 0) e ∧ e.act ≠ [] ∧
      (getTeam e.s (tdOwner e.s e.core e.t)).any (fun x => decide (x.nd ≤ 3)) = true) ∧
    (∃ e, Runs (withTeam { team0 with nd := 3 } (.lead 0)) (.tdset c0 4 3 true 7) e ∧ e.act ≠ [] ∧
      (getTeam e.s (tdOwner e.s e.core e.t)).any (fun x => decide (x.nd ≤ 3)) = true) :=
  ⟨issues_of _ (by decide +kernel), issues_of _ (by decide +kernel), issues_of _ (by decide +kernel), issues_of _ (by decide +kernel)⟩

theorem test_hyp_QueueBindingTraps :
    (∃ e, Runs (queued gst) (.qpush c0 1 15) e ∧ getQueue e.s e.tm.inst 15 = none) ∧
    (∃ e, Runs (queued gst) (.qpush c0 1 2) e ∧ (getQueue e.s e.tm.inst 2).any (fun x => qValid x.decl &&
      !endOk (qPKind x.decl) (qPStage x.decl) e.kind e.tm.stage) = true) ∧
    (∃ e, Runs (queued gst) (.qpop c0 3 2 0xB1) e ∧ (getQueue e.s e.tm.inst 2).any (fun x => qValid x.decl &&
      !endOk (qCKind x.decl) (qCStage x.decl) e.kind e.tm.stage) = true) ∧
    (∃ e, Runs (queued gst) (.qpop c0 3 15 0xB1) e ∧ getQueue e.s e.tm.inst 15 = none) ∧
    (∃ e, Runs (queued gst) (.qstat c0 3 15) e ∧ e.act ≠ [] ∧ getQueue e.s e.tm.inst 15 = none) :=
  ⟨issues_of _ (by decide +kernel), issues_of _ (by decide +kernel), issues_of _ (by decide +kernel), issues_of _ (by decide +kernel), issues_of _ (by decide +kernel)⟩


/-! ### Hypotheses: memory -/

/-- Every `Active` lane passes the checks and no earlier access must come first. -/
def accessOk (e : Env) (n : Nat) (k : Acc133) (wr : Bool) (ea : Nat → Nat) : Bool :=
  match physLanes e n k wr ea with
  | .ok ls => !ls.isEmpty && okB (accessWait e wr (placesOf ls))
  | .error _ => false

theorem accessOk_spec {e : Env} {n : Nat} {k : Acc133} {wr : Bool} {ea : Nat → Nat} (h : accessOk e n k wr ea = true) :
    ∃ ls, physLanes e n k wr ea = .ok ls ∧ ls ≠ [] ∧ accessWait e wr (placesOf ls) = .ok () := by
  unfold accessOk at h
  split at h
  · rename_i ls hl
    simp only [Bool.and_eq_true, Bool.not_eq_true', List.isEmpty_eq_false_iff] at h
    exact ⟨ls, hl, h.1, ok_of h.2⟩
  · cases h

/-- `.gpu` scope, ORDER 0; 4 bytes. -/
def mo4 : Mo := ⟨0, 4, 0, 2⟩
def mr4 : Mo := ⟨0, 4, 1, 2⟩

theorem test_hyp_AccessesBecomeOutstanding :
    (∃ e, Runs (mapped gst) (.ld c0 3 ⟨0x80, 0, 4, false, 0⟩ mo4 false) e ∧
      ∃ ls, physLanes e 4 .load false (eaOf e ⟨0x80, 0, 4, false, 0⟩) = .ok ls ∧ ls ≠ [] ∧
        accessWait e false (placesOf ls) = .ok ()) ∧
    (∃ e, Runs (mapped lst) (.atom c0 3 1 2 0 mr4 0) e ∧ (e.tm.region = none ∧
      ∃ ls, physLanes e 4 .atom true (eaOf e ⟨1, 0, 0, false, 0⟩) = .ok ls ∧ ls ≠ [] ∧
        accessWait e true (placesOf ls) = .ok ())) ∧
    (∃ e, Runs (mapped gst) (.red c0 0x80 2 0 mo4 4) e ∧ (e.tm.region = none ∧
      ∃ ls, physLanes e 4 .red true (eaOf e ⟨0x80, 0, 0, false, 0⟩) = .ok ls ∧ ls ≠ [] ∧
        accessWait e true (placesOf ls) = .ok ())) ∧
    (∃ e, Runs (mapped lst) (.monw c0 3 1 2 0 mr4 1) e ∧
      ∃ ls, physLanes e 4 .monw false (eaOf e ⟨1, 0, 0, false, 0⟩) = .ok ls ∧ ls ≠ [] ∧
        accessWait e false (placesOf ls) = .ok ()) :=
  ⟨issues_imp (issues_of (fun e => accessOk e 4 .load false (eaOf e ⟨0x80, 0, 4, false, 0⟩) = true) (by decide +kernel))
      fun _ h => accessOk_spec h,
    issues_imp (issues_of (fun e => e.tm.region = none ∧ accessOk e 4 .atom true (eaOf e ⟨1, 0, 0, false, 0⟩) = true)
      (by decide +kernel)) fun _ h => ⟨h.1, accessOk_spec h.2⟩,
    issues_imp (issues_of (fun e => e.tm.region = none ∧ accessOk e 4 .red true (eaOf e ⟨0x80, 0, 0, false, 0⟩) = true)
      (by decide +kernel)) fun _ h => ⟨h.1, accessOk_spec h.2⟩,
    issues_imp (issues_of (fun e => accessOk e 4 .monw false (eaOf e ⟨1, 0, 0, false, 0⟩) = true) (by decide +kernel))
      fun _ h => accessOk_spec h⟩

/-- One lane of an access at an address with an SC level and a value already returned, and the operation of it. -/
def laneAt (pa sc data : Nat) (v : Option Nat) : Lane := ⟨0, BitVec.ofNat 64 pa, pa, 0, 0, sc, 0, data, 0, v, false⟩
def opOf (i : Instr) (k : OpKind) (ls : List Lane) (dst : List (Nat × Nat × Nat)) : Op :=
  ⟨0, i, 0, none, k, [0], ls, dst, 0, false⟩

/-- The lead has one outstanding operation. -/
def busy (o : Op) : State := mapped (withTeam { team0 with
  lead := { team0.lead with
    com := { team0.lead.com with
      ops := [o], nextOp := 1 } } } (.lead 0))

def ldOp (sc : Nat) (v : Option Nat) : Op :=
  opOf (.ld c0 3 ⟨1, 0, 0, false, 0⟩ mo4 false) .access [laneAt 0x10000 sc 0 v] [(3, 0, 0)]
def monOp : Op := opOf (.monw c0 3 1 2 0 mr4 0) .access [laneAt 0x10000 0 0 none] [(3, 0, 0)]
def stOp : Op := opOf (.st c0 1 2 0 ⟨0, 4, 2, 2⟩) .access [laneAt 0x10000 0 5 none] []
def atomOp' : Op := opOf (.atom c0 3 1 2 0 mr4 0) .access [laneAt 0x10000 0 5 none] [(3, 0, 0)]

theorem clean_of {s : State} {core a : Nat} (h : s.poison = [] ∧ s.refused = [] ∧ s.wb = []) : cleanAt s core a := by
  obtain ⟨h1, h2, h3⟩ := h
  refine ⟨by simp [h1], by simp [h2], ?_⟩
  intro x hx
  simp [wbFind, h3] at hx

theorem test_hyp_ReadsReturn :
    (findOp (busy (ldOp 0 none)) (.lead 0) 0 = some (ldOp 0 none) ∧ dueLane (ldOp 0 none) 0 = some (laneAt 0x10000 0 0 none)) ∧
    (findOp (busy (ldOp 2 none)) (.lead 0) 0 = some (ldOp 2 none) ∧
      dueLane (ldOp 2 none) 0 = some (laneAt 0x10000 2 0 none) ∧ scFind (busy (ldOp 2 none)) (0x10000 / 128) = none ∧
      isSys 0x10000 = false) ∧
    ({ busy (ldOp 2 none) with fills := [0x200] }.fills.contains 0x200 = true ∧
      fillWaiters { busy (ldOp 2 none) with fills := [0x200] } 0x200 = [(.lead 0, ldOp 2 none, laneAt 0x10000 2 0 none)]) ∧
    (findOp (busy monOp) (.lead 0) 0 = some monOp ∧ dueLane monOp 0 = some (laneAt 0x10000 0 0 none) ∧
      (getTeam (busy monOp) (teamOf (busy monOp) (.lead 0))).isSome = true ∧ monitorsArmed (busy monOp) (.lead 0) = true ∧ simple 0x10000 0 4 ∧
      l1Find (busy monOp) (coreOf (busy monOp) (.lead 0)) (0x10000 / 32) = none ∧
      cleanAt (busy monOp) (coreOf (busy monOp) (.lead 0)) 0x10000 ∧
      monitorHolds 0 32 (seenValue (busy monOp) (coreOf (busy monOp) (.lead 0)) 0x10000 4) 0 = true) ∧
    (findOp (busy stOp) (.lead 0) 0 = some stOp ∧ isStore stOp.instr = true ∧ dueLane stOp 0 = some (laneAt 0x10000 0 5 none) ∧
      laneFirst stOp (laneAt 0x10000 0 5 none) = true ∧ simple 0x10000 0 (accessBytes stOp.instr) ∧ (busy stOp).wb = [] ∧
      (busy stOp).refused = []) :=
  ⟨by decide +kernel, by decide +kernel, by decide +kernel, ⟨by decide +kernel, by decide +kernel, by decide +kernel, by decide +kernel,
    ⟨rfl, by decide⟩, by decide +kernel, clean_of ⟨rfl, rfl, rfl⟩, by decide +kernel⟩, by decide +kernel, by decide +kernel,
    by decide +kernel, by decide +kernel, ⟨rfl, by decide⟩, rfl, rfl⟩

/-- Tables of two levels: the root at 0x2000, a table at 0x3000 whose entry 0 is a 1 GiB leaf. -/
def walking : State := { mapped gst with
  tlb := [], mem := [(0x2000, 1), (0x2001, 0x30), (0x3000, 0x47)]
  ctxs := [(0, { Context.free with
    force := [(0x0300, 0x2000)] })]
  walks := [⟨0, 1, 0, some 0, none⟩] }

def wanted : State := { mapped gst with want := [(0, 0, 0x3000)] }

theorem test_hyp_WalksReturn :
    (walking.walks[0]? = some ⟨0, 1, 0, some 0, none⟩ ∧ walkTables walking 0 (1 * 4096) = .leaf 0x47 30) ∧
    (wanted.want.find? (fun w => w.1 == 0 && w.2.2 == 0x3000) = some (0, 0, 0x3000) ∧
      (∃ p, checkNow wanted 0 0 0x3000 64 .fetch = .ok p ∧ p.key = 0 ∧ p.pa % 32 = 0) ∧
      wanted.poison = [] ∧ wanted.refused = []) := by
  refine ⟨by decide +kernel, by decide +kernel, ?_, by decide +kernel⟩
  have h : (match checkNow wanted 0 0 0x3000 64 .fetch with
      | .ok p => decide (p.key = 0 ∧ p.pa % 32 = 0)
      | .error _ => false) = true := by decide +kernel
  split at h
  · rename_i p hp
    exact ⟨p, hp, of_decide_eq_true h⟩
  · cases h

theorem test_hyp_AtomicsReplaceOneLocation :
    atomicWaiters (busy atomOp') 0x10000 = [⟨0, 8, .lead 0, atomOp', laneAt 0x10000 0 5 none⟩] ∧
    findOp (busy atomOp') (.lead 0) 0 = some atomOp' ∧ simple 0x10000 0 (atomicOf atomOp'.instr).2 ∧
    cleanAt (busy atomOp') (coreOf (busy atomOp') (.lead 0)) 0x10000 ∧
    wbFind (busy atomOp') (coreOf (busy atomOp') (.lead 0)) (0x10000 / 32) = none :=
  ⟨by decide +kernel, by decide +kernel, ⟨rfl, by decide⟩, clean_of ⟨rfl, rfl, rfl⟩, by decide +kernel⟩

def fixedOp : Op := opOf (.clz c0 3 1) .fixed [] []
def fenceOp : Op := opOf (.fence c0 2 3) .fence [] []

theorem test_hyp_CompletionsWriteRegisters :
    ((getCom (busy (ldOp 0 (some 9))) (.lead 0)).isSome = true ∧
      findOp (busy (ldOp 0 (some 9))) (.lead 0) 0 = some (ldOp 0 (some 9)) ∧
      (∀ l ∈ (ldOp 0 (some 9)).lanes, l.done.isSome = true ∧ l.bad = false) ∧
      (getTeam (busy (ldOp 0 (some 9))) (teamOf (busy (ldOp 0 (some 9))) (.lead 0))).any (fun t =>
        !acquireOf t (ldOp 0 (some 9)).instr) = true) ∧
    ((getCom (busy fixedOp) (.lead 0)).isSome = true ∧ findOp (busy fixedOp) (.lead 0) 0 = some fixedOp) ∧
    (findOp (busy (ldOp 0 none)) (.lead 0) 0 = some (ldOp 0 none) ∧ ∃ l ∈ (ldOp 0 none).lanes, l.done = none) ∧
    (findOp (busy fenceOp) (.lead 0) 0 = some fenceOp ∧ (getCom (busy fenceOp) (.lead 0)).any (fun c =>
      !fenceWaits c fenceOp) = true ∧ (getTeam (busy fenceOp) (teamOf (busy fenceOp) (.lead 0))).any (fun t =>
        !scopeLeaves t 2) = true) := by decide +kernel

theorem test_hyp_Stores : ∃ e, Runs (mapped gst) (.st c0 0x80 2 0 mo4) e ∧ (e.tm.region = none ∧
    (∃ ls, physLanes e 4 .store true (eaOf e ⟨0x80, 0, 0, false, 0⟩) = .ok ls ∧ ls ≠ [] ∧
      accessWait e true (placesOf ls) = .ok ()) ∧ dataPoison e 2 (dataRun e.kind 2) = .ok () ∧
    (moRel mo4 && scopeLeaves e.tm 4) = false) :=
  issues_imp (issues_of (fun e => e.tm.region = none ∧ accessOk e 4 .store true (eaOf e ⟨0x80, 0, 0, false, 0⟩) = true ∧
    okB (dataPoison e 2 (dataRun e.kind 2)) = true ∧ (moRel mo4 && scopeLeaves e.tm 4) = false) (by decide +kernel))
    fun _ h => ⟨h.1, accessOk_spec h.2.1, ok_of h.2.2.1, h.2.2.2⟩

theorem test_hyp_Releases : ∃ e, Runs (mapped gst) (.st c0 0x80 2 0 ⟨0, 4, 2, 2⟩) e ∧ (e.act ≠ [] ∧ e.tm.region = none ∧
    (∃ ls, physLanes e 4 .store true (eaOf e ⟨0x80, 0, 0, false, 0⟩) = .ok ls ∧ ls ≠ [] ∧
      accessWait e true (placesOf ls) = .ok ()) ∧ dataPoison e 2 (dataRun e.kind 2) = .ok () ∧
    moRel ⟨0, 4, 2, 2⟩ = true ∧ scopeLeaves e.tm 4 = true) :=
  issues_imp (issues_of (fun e => e.act ≠ [] ∧ e.tm.region = none ∧
    accessOk e 4 .store true (eaOf e ⟨0x80, 0, 0, false, 0⟩) = true ∧ okB (dataPoison e 2 (dataRun e.kind 2)) = true ∧
    moRel ⟨0, 4, 2, 2⟩ = true ∧ scopeLeaves e.tm 4 = true) (by decide +kernel))
    fun _ h => ⟨h.1, h.2.1, accessOk_spec h.2.2.1, ok_of h.2.2.2.1, h.2.2.2.2⟩

/-- One store waits in the write buffer of core 0. -/
def bufEntry : WbEntry := ⟨0, 0x800, 0xF, 0x12345678, 0, 0, 0, false⟩
def buffered : State := { mapped gst with wb := [bufEntry] }

theorem test_hyp_Drains :
    ((∀ x ∈ [(0, 0x10004, (⟨0x10004, 0, 0, 0, false, false⟩ : Phys))],
      simple x.2.2.pa x.2.2.key 4 ∧ x.2.2.pa / 32 ∉ buffered.refused) ∧ (∀ x ∈ buffered.wb, x.key = 0) ∧
      (buffered.wb.filter fun x => x.core == 0).length + 1 ≤ 64) ∧
    ((buffered.wb.filter fun y => y.core == 0)[0]? = some bufEntry ∧ bufEntry.key = 0 ∧
      wbFind buffered 0 bufEntry.sector = some bufEntry ∧ bufEntry.sector ∉ buffered.refused) := by
  simp only [simple]
  decide +kernel

/-- `spOpen` and `spClean` where no word is poisoned, in a form that decides. -/
abbrev spFree (e : Env) (a n : Nat) : Prop :=
  (a < 2 ^ 25 ∧ a % 2 ^ 24 + n ≤ e.tm.window ∧ (2 ^ 24 ≤ a → e.tm.pair = true) ∧ a % n = 0) ∧ e.tm.wpo0 = [] ∧ e.tm.wpo1 = []

theorem spClean_of {e : Env} {a n : Nat} (h : spFree e a n) : spClean e.tm e.core a n := by
  intro i _
  simp [h.2.1, h.2.2]

/-- p1 holds in lane 2 alone. -/
def oneLane : State := withTeam { team0 with
  groups := team0.groups.map fun g => (g.1, { g.2 with
    p := [(2, 2)] }) } (.group 0 0)

theorem test_hyp_ScratchpadLoadsAndStores :
    (∃ e, Runs gst (.lds c0 3 ⟨4, 0, 8, false, 0⟩ 2 false) e ∧ (e.act ≠ [] ∧ accessWait e false [] = .ok () ∧
      ∀ l ∈ e.act, spOpen e (spAddrOf e 4 0 8 false 0 l) 4 ∧ spClean e.tm e.core (spAddrOf e 4 0 8 false 0 l) 4)) ∧
    (∃ e, Runs oneLane (.sts ⟨false, 1, 0⟩ 4 2 8 2) e ∧ (e.act = [2] ∧ dataPoison e 2 (dataRun e.kind 2) = .ok () ∧
      accessWait e true [] = .ok () ∧ ∀ l ∈ e.act, spOpen e (spAddrOf e 4 0 8 false 0 l) 4)) :=
  ⟨issues_imp (issues_of (fun e => e.act ≠ [] ∧ okB (accessWait e false []) = true ∧
      ∀ l ∈ e.act, spFree e (spAddrOf e 4 0 8 false 0 l) 4) (by decide +kernel))
      fun _ h => ⟨h.1, ok_of h.2.1, fun l hl => ⟨(h.2.2 l hl).1, spClean_of (h.2.2 l hl)⟩⟩,
    issues_imp (issues_of (fun e => e.act = [2] ∧ okB (dataPoison e 2 (dataRun e.kind 2)) = true ∧
      okB (accessWait e true []) = true ∧ ∀ l ∈ e.act, spFree e (spAddrOf e 4 0 8 false 0 l) 4) (by decide +kernel))
      fun _ h => ⟨h.1, ok_of h.2.1, ok_of h.2.2.1, fun l hl => (h.2.2.2 l hl).1⟩⟩

theorem test_hyp_ScratchpadAtomics : ∃ e, Runs oneLane (.atomb ⟨false, 1, 0⟩ 3 4 2 0 2 9) e ∧ (e.act = [2] ∧
    (getTeam e.s e.t).isSome = true ∧ accessWait e true [] = .ok () ∧ spOpen e (spAddrOf e 4 0 0 false 0 2) 4 ∧
    spClean e.tm e.core (spAddrOf e 4 0 0 false 0 2) 4) :=
  issues_imp (issues_of (fun e => e.act = [2] ∧ (getTeam e.s e.t).isSome = true ∧ okB (accessWait e true []) = true ∧
    spFree e (spAddrOf e 4 0 0 false 0 2) 4) (by decide +kernel))
    fun _ h => ⟨h.1, h.2.1, ok_of h.2.2.1, h.2.2.2.1, spClean_of h.2.2.2⟩

/-- The pages of a maintenance range pass the checks. -/
def pagesOk (e : Env) (k : Acc133) (a b : Code) (off : BitVec 24) : Bool :=
  okB (rangePages ((rangeOf e a b off).2 / 4096 + 2) e k (rangeOf e a b off).1 (rangeOf e a b off).2)

theorem pagesOk_spec {e : Env} {k : Acc133} {a b : Code} {off : BitVec 24}
    (h : e.act ≠ [] ∧ pagesOk e k a b off = true) : e.act ≠ [] ∧
    ∃ ps, rangePages ((rangeOf e a b off).2 / 4096 + 2) e k (rangeOf e a b off).1 (rangeOf e a b off).2 = .ok ps :=
  ⟨h.1, ok_get h.2⟩

/-- A lead that names 256 bytes of page 0x10 by s1 and s8, and of page 3 by s6. -/
def ranged : State := mapped (withTeam { team0 with
  lead := { team0.lead with
    s := [(1, 0x10000), (6, 0x3000), (8, 0x100)] } } (.lead 0))

/-- An IINV of one instruction line waits. -/
def iinvOp : Op := opOf (.iinv c0 6 8 0 4) (.iinv 0 4 [0xC0]) [] []

theorem test_hyp_FencesAndCacheMaintenance :
    (∃ e, Runs (mapped gst) (.pref c0 ⟨0x80, 0, 0, false, 0⟩ 5) e ∧ e.act ≠ []) ∧
    (∃ e, Runs gst (.fence c0 2 3) e ∧ e.act ≠ []) ∧
    (∃ e, Runs ranged (.cinv c0 1 8 0) e ∧ (e.act ≠ [] ∧ ∃ ps, rangePages ((rangeOf e 1 8 0).2 / 4096 + 2) e .range
      (rangeOf e 1 8 0).1 (rangeOf e 1 8 0).2 = .ok ps)) ∧
    (∃ e, Runs ranged (.iinv c0 6 8 0 4) e ∧ (e.act ≠ [] ∧ ∃ ps, rangePages ((rangeOf e 6 8 0).2 / 4096 + 2) e .rangeExec
      (rangeOf e 6 8 0).1 (rangeOf e 6 8 0).2 = .ok ps)) ∧
    (∃ e, Runs ranged (.cwb c0 1 8 0) e ∧ (e.act ≠ [] ∧ ∃ ps, rangePages ((rangeOf e 1 8 0).2 / 4096 + 2) e .range
      (rangeOf e 1 8 0).1 (rangeOf e 1 8 0).2 = .ok ps)) ∧
    (∃ e, Runs ranged (.cpin c0 3 1 8 0) e ∧ (e.act ≠ [] ∧ ∃ ps, rangePages ((rangeOf e 1 8 0).2 / 4096 + 2) e .range
      (rangeOf e 1 8 0).1 (rangeOf e 1 8 0).2 = .ok ps)) ∧
    (pinLine { mapped gst with dev := (0x1400, 1) :: (mapped gst).dev, sc := [⟨0x200, 0, 0, 2, false, false, none⟩] } 0x200
      ⟨0x10000, 0, 0, 0, true, false⟩).2 = true ∧
    (∃ e, Runs (mapped gst) (.cunpin c0 3 0x80 0x82 0) e ∧ (e.act ≠ [] ∧ ∃ ps,
      rangePages ((rangeOf e 0x80 0x82 0).2 / 4096 + 2) e .range (rangeOf e 0x80 0x82 0).1 (rangeOf e 0x80 0x82 0).2 = .ok ps)) ∧
    ((getCom (busy iinvOp) (.lead 0)).isSome = true ∧ findOp (busy iinvOp) (.lead 0) 0 = some iinvOp ∧
      iinvOp.kind = .iinv 0 4 [0xC0]) :=
  ⟨issues_of _ (by decide +kernel), issues_of _ (by decide +kernel),
    issues_imp (issues_of (fun e => e.act ≠ [] ∧ pagesOk e .range 1 8 0 = true) (by decide +kernel)) fun _ h => pagesOk_spec h,
    issues_imp (issues_of (fun e => e.act ≠ [] ∧ pagesOk e .rangeExec 6 8 0 = true) (by decide +kernel)) fun _ h => pagesOk_spec h,
    issues_imp (issues_of (fun e => e.act ≠ [] ∧ pagesOk e .range 1 8 0 = true) (by decide +kernel)) fun _ h => pagesOk_spec h,
    issues_imp (issues_of (fun e => e.act ≠ [] ∧ pagesOk e .range 1 8 0 = true) (by decide +kernel)) fun _ h => pagesOk_spec h,
    by decide +kernel,
    issues_imp (issues_of (fun e => e.act ≠ [] ∧ pagesOk e .range 0x80 0x82 0 = true) (by decide +kernel)) fun _ h => pagesOk_spec h,
    by decide +kernel⟩

/-- Lane 0's address is 2^49; the others' is 0x1000. -/
def outside : State := mapped (withTeam { team0 with
  lead := { team0.lead with
    s := [(1, 0x2000000000000), (2, 0x10002)] }
  region := some ⟨0, 0, 0⟩ } (.lead 0))

theorem test_hyp_MemoryChecksTrap :
    (∃ e, Runs outside (.ld c0 3 ⟨1, 0, 0, false, 0⟩ mo4 false) e ∧ e.act = 0 :: [] ∧ 2 ^ 49 ≤ eaOf e ⟨1, 0, 0, false, 0⟩ 0) ∧
    (∃ e, Runs outside (.ld c0 3 ⟨2, 0, 0, false, 0⟩ mo4 false) e ∧ e.act = 0 :: [] ∧ eaOf e ⟨2, 0, 0, false, 0⟩ 0 < 2 ^ 49 ∧
      eaOf e ⟨2, 0, 0, false, 0⟩ 0 % 2 ^ 2 ≠ 0) ∧
    (∃ e, Runs outside (.st c0 1 2 0 mo4) e ∧ e.act ≠ [] ∧ e.tm.region.isSome = true) ∧
    (∃ e, Runs outside (.atom c0 3 1 2 0 mr4 0) e ∧ e.act ≠ [] ∧ e.tm.region.isSome = true) ∧
    (∃ e, Runs outside (.red c0 1 2 0 mo4 0) e ∧ e.act ≠ [] ∧ e.tm.region.isSome = true) :=
  ⟨issues_of _ (by decide +kernel), issues_of _ (by decide +kernel), issues_of _ (by decide +kernel),
    issues_of _ (by decide +kernel), issues_of _ (by decide +kernel)⟩

/-! ### Hypotheses: barriers and the system -/

/-- Core 0 holds a barrier in pool entry 0; the team's name 0 is generation 1 of it, and s4 its handle 0x4000. -/
def bar0 : Barrier := ⟨2, 2, 0, false, [], [], [], 0, 1, false, false, 0, 0⟩
def barTeam : Team := { team0 with
  names := [(0, ⟨1, some (0, 0), false⟩)]
  lead := { team0.lead with
    s := [(4, 0x4000), (6, 1), (7, 0)] } }
def barred (x : Barrier) : State := { withTeam barTeam (.lead 0) with
  cores := [(0, { Core.reset with
    pool := [(0, x)] })] }
def ref0 : BarRef := ⟨0, 0, 0x4000⟩

/-- `Holds`, in a form that decides. -/
def heldB (s : State) (t : Team) (core h : Nat) (b : BarRef) (x : Barrier) : Bool :=
  (Tab.find t.names (h % 64)).any fun n => decide (n.bar = some (b.core, b.entry) ∧ b.low = BitVec.ofNat 16 h ∧ h < 2 ^ 32 ∧
    n.gen = h / 2 ^ 14 ∧ n.gen ≠ 0 ∧ h / 128 % 128 = 0 ∧ (h.testBit 6 = true ↔ n.pair = true) ∧
    (n.pair = true ∨ b.core = core) ∧ getBar s b = some x)

theorem holds_of {s : State} {t : Team} {core h : Nat} {b : BarRef} {x : Barrier} (hh : heldB s t core h b x = true) :
    Holds s t core h b x := by
  unfold heldB at hh
  cases hn : Tab.find t.names (h % 64) with
  | none => simp [hn] at hh
  | some n => exact ⟨n, hn, by simpa only [hn, Option.any_some, decide_eq_true_eq] using hh⟩

theorem test_hyp_BarriersAreAllocated :
    (∃ e, Runs (barred bar0) (.balloc c0 3 false 0xB1) e ∧ (e.act ≠ [] ∧ (getTeam e.s e.t).isSome = true ∧
      getBar e.s ⟨e.core, 1, 0⟩ = none ∧ (∀ j, j < 1 → getBar e.s ⟨e.core, j, 0⟩ ≠ none) ∧
      nameFree e.tm 1 ∧ (∀ j, j < 1 → ¬ nameFree e.tm j))) ∧
    (∃ e, Runs lst (.balloc c0 3 true 0xB1) e ∧ e.act ≠ [] ∧ e.tm.pair = false) :=
  ⟨issues_imp (issues_of (fun e => e.act ≠ [] ∧ (getTeam e.s e.t).isSome = true ∧ getBar e.s ⟨e.core, 1, 0⟩ = none ∧
      getBar e.s ⟨e.core, 0, 0⟩ ≠ none ∧ e.tm.names = [(0, ⟨1, some (0, 0), false⟩)]) (by decide +kernel))
      fun e h => ⟨h.1, h.2.1, h.2.2.1, fun j hj => by
          have : j = 0 := by omega
          subst this
          exact h.2.2.2.1,
        fun n hn => by simp [h.2.2.2.2, Tab.find] at hn,
        fun j hj hf => by
          have : j = 0 := by omega
          subst this
          have := hf ⟨1, some (0, 0), false⟩ (by simp [h.2.2.2.2, Tab.find])
          cases this⟩,
    issues_of _ (by decide +kernel)⟩

def badBar : Barrier := { bar0 with inval := true }
def spent : Barrier := { bar0 with arr := 1, pend := [(16, .lead 0, 0)], refs := 2, tx := -16 }

/-- A group waits on the barrier with BWAIT. -/
def waited (w : Option WaitEnd) : State := { barred bar0 with
  teams := [(0, { barTeam with
    lead := { barTeam.lead with
      com := { barTeam.lead.com with
        wait := some (.bwait ref0 w) } } })] }

theorem test_hyp_BarriersAreFreedSetAndInvalidated :
    (∃ e, Runs (barred bar0) (.bfree c0 4) e ∧ (e.act ≠ [] ∧ (getTeam e.s e.t).isSome = true ∧
      Holds e.s e.tm e.core (handle e 4) ref0 bar0 ∧ bar0.waiters = 0)) ∧
    (∃ e, Runs (barred bar0) (.binit c0 4 0xFFFFFF) e ∧ (e.act ≠ [] ∧ Holds e.s e.tm e.core (handle e 4) ref0 bar0 ∧
      crediting e.s ref0 = false)) ∧
    (∃ e, Runs (barred bar0) (.binval c0 4) e ∧ (e.act ≠ [] ∧ Holds e.s e.tm e.core (handle e 4) ref0 bar0)) ∧
    (∃ p m, getCom (waited none) p = some m ∧ m.wait = some (.bwait ref0 none)) ∧
    (∃ e, Runs (barred badBar) (.binval c0 4) e ∧ (e.act ≠ [] ∧ Holds e.s e.tm e.core (handle e 4) ref0 badBar)) :=
  ⟨issues_imp (issues_of (fun e => e.act ≠ [] ∧ (getTeam e.s e.t).isSome = true ∧
      heldB e.s e.tm e.core (handle e 4) ref0 bar0 = true) (by decide +kernel)) fun _ h => ⟨h.1, h.2.1, holds_of h.2.2, rfl⟩,
    issues_imp (issues_of (fun e => e.act ≠ [] ∧ heldB e.s e.tm e.core (handle e 4) ref0 bar0 = true ∧
      crediting e.s ref0 = false) (by decide +kernel)) fun _ h => ⟨h.1, holds_of h.2.1, h.2.2⟩,
    issues_imp (issues_of (fun e => e.act ≠ [] ∧ heldB e.s e.tm e.core (handle e 4) ref0 bar0 = true) (by decide +kernel))
      fun _ h => ⟨h.1, holds_of h.2⟩,
    ⟨.lead 0, _, rfl, rfl⟩,
    issues_imp (issues_of (fun e => e.act ≠ [] ∧ heldB e.s e.tm e.core (handle e 4) ref0 badBar = true) (by decide +kernel))
      fun _ h => ⟨h.1, holds_of h.2⟩⟩

theorem test_hyp_ArrivalsCountAndFlipPhases :
    (∃ e, Runs (barred bar0) (.barrive c0 4 5 0xB1) e ∧ (e.act ≠ [] ∧ Holds e.s e.tm e.core (handle e 4) ref0 bar0 ∧
      bar0.pend.length < bar0.arr)) ∧
    (∃ e, Runs (barred badBar) (.barrive c0 4 5 0xB1) e ∧ (e.act ≠ [] ∧ Holds e.s e.tm e.core (handle e 4) ref0 badBar)) ∧
    (getBar (barred spent) ⟨0, 0, 0⟩ = some spent ∧ spent.pend = [(16, .lead 0, 0)] ∧ spent.inval = false ∧
      (∀ c, getCom (barred spent) (.lead 0) = some c → accessDue c 0 = false) ∧ spent.arr - 1 = 0 ∧ txAfter spent.tx 16 = 0) :=
  ⟨issues_imp (issues_of (fun e => e.act ≠ [] ∧ heldB e.s e.tm e.core (handle e 4) ref0 bar0 = true) (by decide +kernel))
      fun _ h => ⟨h.1, holds_of h.2, by decide⟩,
    issues_imp (issues_of (fun e => e.act ≠ [] ∧ heldB e.s e.tm e.core (handle e 4) ref0 badBar = true) (by decide +kernel))
      fun _ h => ⟨h.1, holds_of h.2⟩,
    by decide +kernel, rfl, rfl, fun c h => by cases h; rfl, by decide +kernel, by decide +kernel⟩

/-- The group's SYNC is counted. -/
def synced (w : Option Wait) (p : Nat) : State := withTeam { team0 with
  syncP := p
  groups := team0.groups.map fun g => (g.1, { g.2 with
    sync := if w.isSome then 1 else 0
    com := { g.2.com with
      wait := w } }) } (.group 0 0)

theorem test_hyp_TestsWaitsAndSync :
    (∃ e, Runs (barred bar0) (.btest c0 6 4 0xB1 0xB2) e ∧ (e.act ≠ [] ∧ Holds e.s e.tm e.core (handle e 4) ref0 bar0)) ∧
    (∃ e, Runs (barred bar0) (.bwait c0 6 4 0xB1) e ∧ (e.act ≠ [] ∧ e.com.wait = none ∧
      Holds e.s e.tm e.core (handle e 4) ref0 bar0 ∧ bar0.ph ≠ (val e 6 e.low).testBit 0)) ∧
    (∃ e, Runs (barred bar0) (.bwait c0 7 4 0xB1) e ∧ (e.act ≠ [] ∧ e.com.wait = none ∧
      Holds e.s e.tm e.core (handle e 4) ref0 bar0 ∧ bar0.inval = false ∧ bar0.ph = (val e 7 e.low).testBit 0 ∧
      e.tm.preempt = false)) ∧
    (∃ e, Runs (waited (some ⟨false, []⟩)) (.bwait c0 7 4 0xB1) e ∧ e.act ≠ [] ∧ e.com.wait = some (.bwait ref0 (some ⟨false, []⟩))) ∧
    (∃ e, Runs (synced (some .sync) 1) (.sync c0) e ∧ e.com.wait = some .sync ∧ e.g.sync ≤ e.tm.syncP) ∧
    (∃ e, Runs (synced none 0) (.sync c0) e ∧ e.com.wait = none ∧ e.tm.preempt = false ∧ e.g.com.st = .running) :=
  ⟨issues_imp (issues_of (fun e => e.act ≠ [] ∧ heldB e.s e.tm e.core (handle e 4) ref0 bar0 = true) (by decide +kernel))
      fun _ h => ⟨h.1, holds_of h.2⟩,
    issues_imp (issues_of (fun e => e.act ≠ [] ∧ e.com.wait = none ∧ heldB e.s e.tm e.core (handle e 4) ref0 bar0 = true ∧
      bar0.ph ≠ (val e 6 e.low).testBit 0) (by decide +kernel)) fun _ h => ⟨h.1, h.2.1, holds_of h.2.2.1, h.2.2.2⟩,
    issues_imp (issues_of (fun e => e.act ≠ [] ∧ e.com.wait = none ∧ heldB e.s e.tm e.core (handle e 4) ref0 bar0 = true ∧
      bar0.ph = (val e 7 e.low).testBit 0 ∧ e.tm.preempt = false) (by decide +kernel))
      fun _ h => ⟨h.1, h.2.1, holds_of h.2.2.1, rfl, h.2.2.2.1, h.2.2.2.2⟩,
    issues_of _ (by decide +kernel), issues_of _ (by decide +kernel), issues_of _ (by decide +kernel)⟩

/-- The team's kernel declares no width. -/
def undeclared : Team := { team0 with declared := false }

theorem test_hyp_SpecialRegistersAreReadAndWritten :
    (∃ e, Runs gst (.rdsr c0 8 0x00) e ∧ e.act ≠ []) ∧ (∃ e, Runs gst (.rdsr c0 8 0x0E) e ∧ e.act ≠ []) ∧
    (∃ e, Runs lst (.rdsr c0 8 0x08) e ∧ e.tm.declared = true) ∧ (∃ e, Runs gst (.rdsr c0 8 0x0C) e ∧ e.act ≠ []) ∧
    (∃ e, Runs (withTeam undeclared (.lead 0)) (.rdsr c0 3 0x08) e ∧ e.act ≠ [] ∧ e.tm.declared = false) ∧
    (∃ e, Runs gst (.wrsr c0 0 0x10 true 0x1FF) e ∧ e.act ≠ [] ∧ wordWritten e 0 true 0x1FF < 2 ^ 9) ∧
    (∃ e, Runs gst (.wrsr c0 0 0x11 true 0x1F) e ∧ e.act ≠ [] ∧ wordWritten e 0 true 0x1F < 2 ^ 5) ∧
    (∃ e, Runs lst (.wrsr c0 2 0x12 false 0) e ∧ e.act ≠ [] ∧ wordWritten e 2 false 0 < 2 ^ 8) ∧
    (∃ e, Runs (withTeam team0 (.group 0 0)) (.wrsr c0 0 0x0E true 0x40) e ∧ e.act ≠ [] ∧ pcOk 0x40 = true) ∧
    (∃ e, Runs gst (.wrsr c0 0 0x10 true 0x200) e ∧ e.act ≠ [] ∧ 2 ^ 9 ≤ wordWritten e 0 true 0x200) ∧
    (∃ e, Runs gst (.wrsr c0 0 0x11 true 0x20) e ∧ e.act ≠ [] ∧ 2 ^ 5 ≤ wordWritten e 0 true 0x20) ∧
    (∃ e, Runs gst (.wrsr c0 0 0x12 true 0x100) e ∧ e.act ≠ [] ∧ 2 ^ 8 ≤ wordWritten e 0 true 0x100) :=
  ⟨issues_of _ (by decide +kernel), issues_of _ (by decide +kernel), issues_of _ (by decide +kernel),
    issues_of _ (by decide +kernel), issues_of _ (by decide +kernel), issues_of _ (by decide +kernel),
    issues_of _ (by decide +kernel), issues_of _ (by decide +kernel), issues_of _ (by decide +kernel),
    issues_of _ (by decide +kernel), issues_of _ (by decide +kernel), issues_of _ (by decide +kernel)⟩

/-- The team's lead has trapped with TRAP 7. -/
def trap0 : TrapEntry := ⟨.party (.lead 0), 0, ⟨0x30, 7, 0, 0⟩⟩
def trapped : Team := { team0 with
  lead := { team0.lead with
    com := { team0.lead.com with
      st := .trapped, tcode := 0x30, tdetail := 7 } } }

/-- The trap waits; or core 0's handler serves it and its lead or group is about to issue. -/
def raised : State := { withTeam trapped (.lead 0) with
  cores := [(0, { Core.reset with
    traps := [trap0] })] }
def serving (p : Party) : State := { withTeam trapped p with
  teams := [(0, trapped), (Config.handlerBase, loadedTeam true true)]
  cores := [(0, { Core.reset with
    serving := some trap0 })] }

theorem test_hyp_TrapsAndTheirReturns :
    (∃ e, Runs gst (.trap c0 7) e ∧ e.act ≠ [] ∧ isHandler e.t = false) ∧
    (∃ e, Runs (serving (.lead Config.handlerBase)) (.trap c0 7) e ∧ e.act ≠ [] ∧ isHandler e.t = true) ∧
    ((getCore raised 0).serving = none ∧ (getCore raised 0).traps = trap0 :: [] ∧
      (getCom raised (.lead 0)).any (fun m => decide (m.st = .trapped)) = true ∧
      (getTeam raised 0).any (fun t => (getCtx raised t.ctx).escalations.isEmpty) = true) ∧
    (∃ e, Runs (serving (.group Config.handlerBase 0)) (.tret c0 1) e ∧ e.act ≠ [] ∧
      (getCore e.s e.core).serving = some trap0 ∧
      (getCom e.s (.lead 0)).any (fun m => decide (m.defer = none ∧ m.late = false ∧ m.st = .trapped)) = true ∧
      handlerDue e.s e.t = false ∧ trap0.info.code ≠ tcBound ∧
      teamOf e.s (.lead 0) ≠ Config.handlerBase + e.core ∧ trap0.team ≠ Config.handlerBase + e.core) :=
  ⟨issues_of _ (by decide +kernel), issues_of _ (by decide +kernel), by decide +kernel, issues_of _ (by decide +kernel)⟩

theorem test_hyp_SpecialRegistersOfHandlers :
    (∃ e, Runs (serving (.lead Config.handlerBase)) (.wrsr c0 0 0x20 true 0xFFFF) e ∧ e.act ≠ [] ∧
      wordWritten e 0 true 0xFFFF / 2 ^ 16 % 2 ^ 15 = 0 ∧ wordWritten e 0 true 0xFFFF ≠ 2 ^ 31) ∧
    (∃ e, Runs (serving (.lead Config.handlerBase)) (.wrsr c0 0 0x20 true 0x10000) e ∧ e.act ≠ [] ∧
      wordWritten e 0 true 0x10000 / 2 ^ 16 % 2 ^ 15 ≠ 0) ∧
    (∃ e, Runs (serving (.lead Config.handlerBase)) (.rdsr c0 3 0x23) e ∧ e.act ≠ []) :=
  ⟨issues_of _ (by decide +kernel), issues_of _ (by decide +kernel), issues_of _ (by decide +kernel)⟩

/-- The checks that come before the privilege of an instruction are met outside a handler. -/
def refusedHere (s : State) (p : Party) (i : Instr) : Bool :=
  (envOf s p i (ctlOf i)).any fun b => permitted b (rulesOf i) && !isHandler b.t && decide (b.p = p)

theorem test_hyp_PrivilegeAndHandlesTrap :
    refusedHere gst (.group 0 0) (.tret c0 0) = true ∧ refusedHere lst (.lead 0) (.rdsr c0 3 0x20) = true ∧
    refusedHere lst (.lead 0) (.rdsr c0 3 0x23) = true ∧ refusedHere lst (.lead 0) (.wrsr c0 1 0x20 false 0) = true ∧
    (∃ e, Runs lst (.bfree c0 1) e ∧ (e.act ≠ [] ∧ ∀ b x, ¬ Holds e.s e.tm e.core (handle e 1) b x)) ∧
    (∃ e, Runs lst (.bwait c0 2 1 0xB1) e ∧ (e.act ≠ [] ∧ e.com.wait = none ∧
      ∀ b x, ¬ Holds e.s e.tm e.core (handle e 1) b x)) :=
  ⟨by decide +kernel, by decide +kernel, by decide +kernel, by decide +kernel,
    issues_imp (issues_of (fun e => e.act ≠ [] ∧ e.tm.names = []) (by decide +kernel))
      fun _ h => ⟨h.1, fun b x hh => by
        obtain ⟨n, hn, _⟩ := hh
        simp [h.2, Tab.find] at hn⟩,
    issues_imp (issues_of (fun e => e.act ≠ [] ∧ e.com.wait = none ∧ e.tm.names = []) (by decide +kernel))
      fun _ h => ⟨h.1, h.2.1, fun b x hh => by
        obtain ⟨n, hn, _⟩ := hh
        simp [h.2.2, Tab.find] at hn⟩⟩

/-! ### Hypotheses: the matrix engine -/

/-- R197: a row-major 4 by 4 tensor of a format in the scratchpad at 0, rows 16 bytes apart, with a box of 4 by 4. -/
def desc44 (fmt : Nat) : BitVec 512 :=
  BitVec.ofNat 512 (2 ^ 56 + 2 * 2 ^ 57 + fmt * 2 ^ 60 + 4 * 2 ^ 64 + 4 * 2 ^ 96 + 3 * 2 ^ 226 + 3 * 2 ^ 236 + 16 * 2 ^ 276)

/-- Descriptor 5 is FP32, 6 FP16; the team has the active and shadow planes of its core. -/
def meTeam : Team := { team0 with tds := [(5, desc44 0), (6, desc44 1)] }
def plane4 : Plane := { Plane.empty with
  owner := some 0, fmt := 1, kk := 4, nn := 4 }
def mePlanes (l : List MeCmd) : State := { withTeam meTeam (.lead 0) with
  cores := [(0, { Core.reset with
    active := plane4, shadow := plane4, me := l })] }

def stepsPass (e : Env) (r : MeReq) (n : Nat) (d : BitVec 512) : Bool :=
  decide (r.td.map (·.toNat) = some n ∧ e.tm.nt = 8 ∧ handle e r.bar = 0 ∧ r.pair = false) &&
  (getTeam e.s (tdOwner e.s e.core e.t)).any fun x => decide (n < x.nd ∧ d = Tab.get x.tds n 0 ∧ descReason d = 0)

def boxPass (e : Env) (r : MeReq) (d : BitVec 512) : Bool :=
  decide (r.kind ≠ .rowsQueue ∧ r.kind ≠ .storeTile ∧ r.pair = false ∧ tdSpace d = true ∧
    meReason d r e.t 0 (planesAfter (getCore e.s e.core)) = 0) &&
  okB (spBox e d (boxCoords (boxAt e r.coord).1 (boxAt e r.coord).2 (tdBox d 0) (tdBox d 1)))

theorem head_of {e : Env} {r : MeReq} {n : Nat} {d : BitVec 512} (h : stepsPass e r n d = true)
    (ht : ∀ c, r.tile = some c → c.toNat - 0xC0 < 8) : headPasses e r d none := by
  unfold stepsPass at h
  simp only [Bool.and_eq_true, decide_eq_true_eq] at h
  obtain ⟨⟨h1, h2, h3, h4⟩, h5⟩ := h
  refine ⟨fun hp => absurd (h4.symm.trans hp) Bool.false_ne_true, fun c hc => by rw [h2]; exact ht c hc, fun hn => by simp [hn] at h1,
    fun m hm => ?_, Or.inl ⟨h3, rfl⟩⟩
  have hmn : m.toNat = n := by simpa [hm] using h1
  cases hg : getTeam e.s (tdOwner e.s e.core e.t) with
  | none => rw [hg] at h5; nomatch h5
  | some x =>
    simp only [hg, Option.any_some, decide_eq_true_eq] at h5
    exact ⟨x, rfl, by rw [hmn]; exact h5.1, by rw [hmn]; exact h5.2.1, h5.2.2⟩

theorem body_of {e : Env} {r : MeReq} {d : BitVec 512} (h : boxPass e r d = true) : bodyPasses e r d [] := by
  unfold boxPass at h
  simp only [Bool.and_eq_true, decide_eq_true_eq] at h
  obtain ⟨⟨h1, h2, h3, h4, h5⟩, h6⟩ := h
  refine ⟨⟨0, by rw [if_neg h1], fun k hk => ?_⟩, fun hs => h2 hs.1, ?_⟩
  · have : k = e.core := by simpa [enginesOf, h3] using hk
    rw [this]
    exact h5
  · rw [if_pos h4]
    split
    · rfl
    · exact ⟨ok_of h6, rfl⟩

theorem test_hyp_MatrixCommandsEnterTheQueue :
    (∃ e, Runs (mePlanes []) (.mlda c0 0xC7 0xD0 0xD0 5 false) e ∧
      (headPasses e ⟨.loadTile, some 0xC7, 0xD0, some 5, 0xD0, 0, false⟩ (desc44 0) none ∧
        bodyPasses e ⟨.loadTile, some 0xC7, 0xD0, some 5, 0xD0, 0, false⟩ (desc44 0) [])) ∧
    (∃ e, Runs (mePlanes []) (.mldw c0 0xD0 0xD0 6 false) e ∧
      (headPasses e ⟨.loadWeights, none, 0xD0, some 6, 0xD0, 0, false⟩ (desc44 1) none ∧
        bodyPasses e ⟨.loadWeights, none, 0xD0, some 6, 0xD0, 0, false⟩ (desc44 1) [])) ∧
    (∃ e, Runs (mePlanes []) (.mma c0 0xC0 0xD0 0xD0 6 false) e ∧
      (headPasses e ⟨.rows, some 0xC0, 0xD0, some 6, 0xD0, 0, false⟩ (desc44 1) none ∧
        bodyPasses e ⟨.rows, some 0xC0, 0xD0, some 6, 0xD0, 0, false⟩ (desc44 1) [])) :=
  ⟨issues_imp (issues_of (fun e => stepsPass e ⟨.loadTile, some 0xC7, 0xD0, some 5, 0xD0, 0, false⟩ 5 (desc44 0) = true ∧
      boxPass e ⟨.loadTile, some 0xC7, 0xD0, some 5, 0xD0, 0, false⟩ (desc44 0) = true) (by decide +kernel))
      fun _ h => ⟨head_of h.1 (by intro c hc; cases hc; decide), body_of h.2⟩,
    issues_imp (issues_of (fun e => stepsPass e ⟨.loadWeights, none, 0xD0, some 6, 0xD0, 0, false⟩ 6 (desc44 1) = true ∧
      boxPass e ⟨.loadWeights, none, 0xD0, some 6, 0xD0, 0, false⟩ (desc44 1) = true) (by decide +kernel))
      fun _ h => ⟨head_of h.1 (by intro c hc; cases hc), body_of h.2⟩,
    issues_imp (issues_of (fun e => stepsPass e ⟨.rows, some 0xC0, 0xD0, some 6, 0xD0, 0, false⟩ 6 (desc44 1) = true ∧
      boxPass e ⟨.rows, some 0xC0, 0xD0, some 6, 0xD0, 0, false⟩ (desc44 1) = true) (by decide +kernel))
      fun _ h => ⟨head_of h.1 (by intro c hc; cases hc; decide), body_of h.2⟩⟩

/-- A command of the team's lead in the queue of core 0. -/
def cmdOf (i : Instr) (d : BitVec 512) : MeCmd :=
  { id := 0, team := 0, party := .lead 0, flag := none, instr := i, desc := d, pages := [], c0 := 0, c1 := 0, bar := none,
    pair := false, half := 0, row := 0, narrow := false, begun := false, region := false, sticky := 4 }

def zeroCmd : MeCmd := cmdOf (.mzero c0 0xC7 0xD0 false) 0
def swapCmd : MeCmd := cmdOf (.mswap c0 0xD0 false) 0
def loadCmd : MeCmd := cmdOf (.mldw c0 0xD0 0xD0 6 false) (desc44 1)
def tileCmd : MeCmd := cmdOf (.mlda c0 0xC7 0xD0 0xD0 5 false) (desc44 0)
def outCmd : MeCmd := cmdOf (.msta c0 0xC7 0xD0 0xD0 5 false 0 false) (desc44 0)
def rowCmd : MeCmd := cmdOf (.mma c0 0xC0 0xD0 0xD0 6 false) (desc44 1)

theorem test_hyp_MatrixEnginesAct :
    (∀ m ∈ [zeroCmd, swapCmd, loadCmd, tileCmd, outCmd], cmdReady (mePlanes [m]) 0 = some m ∧
      (getTeam (mePlanes [m]) m.team).isSome = true ∧ m.pair = false ∧ m.bar = none ∧ m.flag = none) ∧
    tdBox loadCmd.desc 1 ≤ 64 ∧ tdBox tileCmd.desc 0 ≤ 64 ∧
    (rowReady (mePlanes [rowCmd]) 0 = some rowCmd ∧ (getTeam (mePlanes [rowCmd]) rowCmd.team).isSome = true) := by
  decide +kernel

/-! ### Hypotheses: porters -/

/-- The lead, the group or porter 0 of the team that has the descriptors and the barrier, with porter 0 of core 0 as given.
Descriptor 7 is a 4 by 4 FP32 tensor in memory at 0x1000, 8 an MX one of 32 FP4 elements in the scratchpad. -/
def ptTeam : Team := { meTeam with
  tds := [(5, desc44 0), (6, desc44 1), (7, desc44 0 - 2 ^ 56 + 0x1000), (8, BitVec.ofNat 512
    (2 ^ 51 + 2 ^ 56 + 1 * 2 ^ 57 + 7 * 2 ^ 60 + 32 * 2 ^ 64 + 31 * 2 ^ 226 + 0x800 * 2 ^ 431))]
  names := barTeam.names
  lead := { team0.lead with
    s := [(2, 5), (4, 0x4000), (6, 1)] } }
def ported (x : Porter) (p : Party) : State := { mapped (withTeam ptTeam p) with
  cores := [(0, { Core.reset with
    pool := [(0, bar0)], p0 := x })] }

/-- Its registers: g1 = 0x40, g2 = 5, g4 = 8, g5 = 1 (a core mask), g6 = 0x1000. -/
def ready0 : Porter := { Porter.idle with
  st := .running, team := some 0, g := [(1, 0x40), (2, 5), (4, 8), (5, 1), (6, 0x1000)] }
def faulted0 : Porter := { ready0 with st := .faulted, fault := some ⟨0, 0x30, 0, 7, 0, 0⟩ }

theorem may_of {e : Env} {n : Nat} (h : e.p = .lead n) : mayCommand e := Or.inr (Or.inl ⟨n, h⟩)

theorem test_hyp_PortersAreStartedStoppedAndRead :
    (∃ e, Runs (ported .idle (.lead 0)) (.pstart c0 9 2 4 0 0x40 1 false) e ∧ (e.act ≠ [] ∧ mayCommand e ∧
      porterOf e 0 = some (0, 0) ∧ (getPorter e.s 0 0).st = .idle ∧ getTeam e.s (tdOwner e.s e.core e.t) = some ptTeam ∧
      Holds e.s ptTeam 0 (handle e 4) ref0 bar0)) ∧
    (∃ e, Runs (ported .idle (.lead 0)) (.pstart c0 9 0 0xD0 1 0x40 0 false) e ∧ (e.act ≠ [] ∧ mayCommand e ∧
      porterOf e 1 = some (0, 1) ∧ (getPorter e.s 0 1).st = .idle ∧ handle e 0xD0 = 0)) ∧
    (∃ e, Runs (ported faulted0 (.lead 0)) (.pstart c0 9 0 0xD0 0 0 0 true) e ∧ (e.act ≠ [] ∧ mayCommand e ∧
      porterOf e 0 = some (0, 0) ∧ (getPorter e.s 0 0).st = .faulted ∧ (getPorter e.s 0 0).team = some e.t)) ∧
    (∃ e, Runs (ported .idle (.lead 0)) (.pstart c0 9 0 0xD0 2 0x40 0 false) e ∧ (e.act ≠ [] ∧ mayCommand e ∧
      porterOf e 2 = none)) ∧
    (∃ e, Runs (ported ready0 (.lead 0)) (.pstart c0 9 0 0xD0 0 0x40 0 false) e ∧ (e.act ≠ [] ∧ mayCommand e ∧
      porterOf e 0 = some (0, 0) ∧ (getPorter e.s 0 0).st ≠ .idle)) ∧
    (∃ e, Runs (ported .idle (.lead 0)) (.pstart c0 9 0 2 0 0x40 0 false) e ∧ (e.act ≠ [] ∧ mayCommand e ∧
      porterOf e 0 = some (0, 0) ∧ getTeam e.s (tdOwner e.s e.core e.t) = some ptTeam ∧ handle e 2 ≠ 0 ∧
      ∀ r x, ¬ Holds e.s ptTeam 0 (handle e 2) r x)) ∧
    (∃ e, Runs (ported .idle (.lead 0)) (.pstop c0 9 0) e ∧ (e.act ≠ [] ∧ mayCommand e ∧ porterOf e 0 = some (0, 0) ∧
      (getPorter e.s 0 0).st = .idle)) ∧
    (∃ e, Runs (ported faulted0 (.lead 0)) (.pstop c0 9 0) e ∧ (e.act ≠ [] ∧ mayCommand e ∧ porterOf e 0 = some (0, 0) ∧
      (getPorter e.s 0 0).st = .faulted ∧ (getPorter e.s 0 0).team = some e.t)) ∧
    (∃ e, Runs (ported ready0 (.lead 0)) (.pstop c0 9 0) e ∧ (e.act ≠ [] ∧ mayCommand e ∧ porterOf e 0 = some (0, 0) ∧
      (getPorter e.s 0 0).st = .running ∧ (getPorter e.s 0 0).team = some e.t)) ∧
    (∃ e, Runs (ported faulted0 (.lead 0)) (.pstat c0 9 0 2) e ∧ (e.act ≠ [] ∧ mayCommand e ∧
      porterOf e 0 = some (0, 0))) ∧
    (∃ e, Runs (ported ready0 (.group 0 0)) (.pstop c0 9 0) e ∧ (e.act ≠ [] ∧ ¬ mayCommand e)) :=
  ⟨issues_imp (issues_of (fun e => e.act ≠ [] ∧ e.p = .lead 0 ∧ porterOf e 0 = some (0, 0) ∧ (getPorter e.s 0 0).st = .idle ∧
      getTeam e.s (tdOwner e.s e.core e.t) = some ptTeam ∧ heldB e.s ptTeam 0 (handle e 4) ref0 bar0 = true) (by decide +kernel))
      fun _ h => ⟨h.1, may_of h.2.1, h.2.2.1, h.2.2.2.1, h.2.2.2.2.1, holds_of h.2.2.2.2.2⟩,
    issues_imp (issues_of (fun e => e.act ≠ [] ∧ e.p = .lead 0 ∧ porterOf e 1 = some (0, 1) ∧ (getPorter e.s 0 1).st = .idle ∧
      handle e 0xD0 = 0) (by decide +kernel)) fun _ h => ⟨h.1, may_of h.2.1, h.2.2⟩,
    issues_imp (issues_of (fun e => e.act ≠ [] ∧ e.p = .lead 0 ∧ porterOf e 0 = some (0, 0) ∧ (getPorter e.s 0 0).st = .faulted ∧
      (getPorter e.s 0 0).team = some e.t) (by decide +kernel)) fun _ h => ⟨h.1, may_of h.2.1, h.2.2⟩,
    issues_imp (issues_of (fun e => e.act ≠ [] ∧ e.p = .lead 0 ∧ porterOf e 2 = none) (by decide +kernel))
      fun _ h => ⟨h.1, may_of h.2.1, h.2.2⟩,
    issues_imp (issues_of (fun e => e.act ≠ [] ∧ e.p = .lead 0 ∧ porterOf e 0 = some (0, 0) ∧ (getPorter e.s 0 0).st ≠ .idle)
      (by decide +kernel)) fun _ h => ⟨h.1, may_of h.2.1, h.2.2⟩,
    issues_imp (issues_of (fun e => e.act ≠ [] ∧ e.p = .lead 0 ∧ porterOf e 0 = some (0, 0) ∧
      getTeam e.s (tdOwner e.s e.core e.t) = some ptTeam ∧ handle e 2 = 5) (by decide +kernel))
      fun _ h => ⟨h.1, may_of h.2.1, h.2.2.1, h.2.2.2.1, by rw [h.2.2.2.2]; decide, fun r x hh => by
        obtain ⟨n, hn, _⟩ := hh
        rw [h.2.2.2.2] at hn
        cases hn⟩,
    issues_imp (issues_of (fun e => e.act ≠ [] ∧ e.p = .lead 0 ∧ porterOf e 0 = some (0, 0) ∧ (getPorter e.s 0 0).st = .idle)
      (by decide +kernel)) fun _ h => ⟨h.1, may_of h.2.1, h.2.2⟩,
    issues_imp (issues_of (fun e => e.act ≠ [] ∧ e.p = .lead 0 ∧ porterOf e 0 = some (0, 0) ∧ (getPorter e.s 0 0).st = .faulted ∧
      (getPorter e.s 0 0).team = some e.t) (by decide +kernel)) fun _ h => ⟨h.1, may_of h.2.1, h.2.2⟩,
    issues_imp (issues_of (fun e => e.act ≠ [] ∧ e.p = .lead 0 ∧ porterOf e 0 = some (0, 0) ∧ (getPorter e.s 0 0).st = .running ∧
      (getPorter e.s 0 0).team = some e.t) (by decide +kernel)) fun _ h => ⟨h.1, may_of h.2.1, h.2.2⟩,
    issues_imp (issues_of (fun e => e.act ≠ [] ∧ e.p = .lead 0 ∧ porterOf e 0 = some (0, 0)) (by decide +kernel))
      fun _ h => ⟨h.1, may_of h.2.1, h.2.2⟩,
    issues_imp (issues_of (fun e => e.act ≠ [] ∧ isHandler e.t = false ∧ e.p = .group 0 0 ∧ e.tm.producer = none)
      (by decide +kernel)) fun _ h => ⟨h.1, fun hm => by
        rcases hm with hm | ⟨t, hm⟩ | ⟨t, g, _, hm⟩
        · rw [h.2.1] at hm
          cases hm
        · rw [h.2.2.1] at hm
          cases hm
        · rw [h.2.2.2] at hm
          cases hm⟩⟩

def boundTo (x : Porter) : Porter := { x with bar := some ref0 }

theorem test_hyp_PorterInstructionsAct :
    (∃ e, Runs (ported ready0 (.porter 0 0)) (.xldi c0 8 1 0 0 3 true) e ∧ (spOpen e (porterAddr e 1 0 % 2 ^ 32) 8 ∧
      spClean e.tm e.core (porterAddr e 1 0 % 2 ^ 32) 8 ∧ e.x.xfers = [])) ∧
    (∃ e, Runs (ported ready0 (.porter 0 0)) (.xldi c0 8 6 0 0 3 false) e ∧ ((∃ p,
      checkNow e.s e.ctx e.core (porterAddr e 6 0) 8 .load = .ok p ∧ simple p.pa p.key 8 ∧ cleanAt e.s e.core p.pa ∧
      l1Find e.s e.core (p.pa / 32) = none) ∧ e.x.xfers = [])) ∧
    (∃ e, Runs (ported ready0 (.porter 0 0)) (.xcoord c0 8 2 5) e ∧
      (getTeam e.s (tdOwner e.s e.core e.t)).any (fun x => decide (5 < x.nd)) = true) ∧
    (∃ e, Runs (ported (boundTo ready0) (.porter 0 0)) (.xarrive c0 true 0 16) e ∧ e.x.bar = some ref0 ∧
      getBar e.s ref0 = some bar0) ∧
    (∃ e, Runs (ported ready0 (.porter 0 0)) (.xstamp c0 6 1 0 0 4) e ∧
      okB (checkNow e.s e.ctx e.core (porterAddr e 6 0) 8 .store) = true) ∧
    (∃ e, Runs (ported ready0 (.porter 0 0)) (.xwait c0 false 0 0) e ∧ e.x.xfers.length ≤ 0) ∧
    (∃ e, Runs (ported (boundTo ready0) (.porter 0 0)) (.xwait c0 true 5 0) e ∧ e.x.bar = some ref0 ∧ e.x.wait = none ∧
      getBar e.s ref0 = some bar0 ∧ bar0.ph ≠ (val e 5 0).testBit 0) ∧
    (∃ e, Runs (ported (boundTo ready0) (.porter 0 0)) (.xwait c0 true 4 0) e ∧ e.x.bar = some ref0 ∧ e.x.wait = none ∧
      getBar e.s ref0 = some bar0 ∧ bar0.ph = (val e 4 0).testBit 0) ∧
    (∃ e, Runs (ported ready0 (.porter 0 0)) (.xfence c0 4 3) e ∧ e.x.xfers = [] ∧ e.x.stamps = [] ∧
      scopeLeaves e.tm 4 = true) ∧
    (∃ e, Runs (ported ready0 (.porter 0 0)) (.xfence c0 2 1) e ∧ e.x.xfers = [] ∧ e.x.stamps = [] ∧
      scopeLeaves e.tm 2 = false) ∧
    (∃ e, Runs (ported ready0 (.porter 0 0)) (.xtrap c0 7) e ∧ e.x.resumed = false ∧ e.x.xfers = []) ∧
    (∃ e, Runs (ported { ready0 with resumed := true } (.porter 0 0)) (.xtrap c0 7) e ∧ e.x.resumed = true) ∧
    (∃ e, Runs (ported ready0 (.porter 0 0)) (.xend c0) e ∧ e.p = .porter 0 0) := by
  refine ⟨issues_imp (issues_of (fun e => spFree e (porterAddr e 1 0 % 2 ^ 32) 8 ∧ e.x.xfers = []) (by decide +kernel))
      fun _ h => ⟨h.1.1, spClean_of h.1, h.2⟩,
    issues_imp (issues_of (fun e => (match checkNow e.s e.ctx e.core (porterAddr e 6 0) 8 .load with
        | .ok p => decide (p.key = 0 ∧ p.pa % 32 + 8 ≤ 32 ∧ l1Find e.s e.core (p.pa / 32) = none)
        | .error _ => false) = true ∧ e.s.poison = [] ∧ e.s.refused = [] ∧ e.s.wb = [] ∧ e.x.xfers = []) (by decide +kernel))
      fun e h => ⟨?_, h.2.2.2.2⟩,
    issues_of _ (by decide +kernel), issues_of _ (by decide +kernel), issues_of _ (by decide +kernel),
    issues_of _ (by decide +kernel), issues_of _ (by decide +kernel), issues_of _ (by decide +kernel),
    issues_of _ (by decide +kernel), issues_of _ (by decide +kernel), issues_of _ (by decide +kernel),
    issues_of _ (by decide +kernel), issues_of _ (by decide +kernel)⟩
  obtain ⟨h1, h2⟩ := h
  split at h1
  · rename_i p hp
    have := of_decide_eq_true h1
    exact ⟨p, hp, ⟨this.1, this.2.1⟩, clean_of ⟨h2.1, h2.2.1, h2.2.2.1⟩, this.2.2⟩
  · cases h1

/-- The hypotheses of a transfer from a descriptor, in a form that decides: descriptor, room, size, units. -/
def xferOk (e : Env) (d : BitVec 512) (f : List Int → Xfer) : Bool :=
  decide (e.x.xfers = [] ∧ e.x.roff = 0 ∧ xRow d * xRows d ≤ 2 ^ 24) &&
  (match xDesc e 0xD0 (match e.i with
      | .xcopy _ _ _ _ td _ _ _ | .xmcast _ _ _ _ td _ | .xstmx _ _ _ td _ _ _ | .xfill _ _ _ _ td _
      | .xgather _ _ _ _ td _ _ | .xscatter _ _ _ _ td _ _ => td.toNat
      | _ => 63) with
    | .ok (d', co) => decide (d' = d ∧ co = [0, 0, 0, 0, 0]) && (decide ((f co).next < (f co).stop) &&
        (queueSide e.i || (checkUnits e.s e.ctx e.core e.tm (f co) (upto (f co).next ((f co).stop - (f co).next)) []).2.isNone))
    | .error _ => false)

theorem units_of {e : Env} {s : State} {x : Xfer} (h : (decide (x.next < x.stop) &&
    (queueSide e.i || (checkUnits s e.ctx e.core e.tm x (upto x.next (x.stop - x.next)) []).2.isNone)) = true) :
    unitsPass e s x := by
  simp only [Bool.and_eq_true, decide_eq_true_eq, Bool.or_eq_true, Option.isNone_iff_eq_none] at h
  exact h

theorem xfer_of {e : Env} {d : BitVec 512} {f : List Int → Xfer} (td : Nat) (ht : td = (match e.i with
      | .xcopy _ _ _ _ td _ _ _ | .xmcast _ _ _ _ td _ | .xstmx _ _ _ td _ _ _ | .xfill _ _ _ _ td _
      | .xgather _ _ _ _ td _ _ | .xscatter _ _ _ _ td _ _ => td.toNat
      | _ => 63)) (h : xferOk e d f = true) :
    e.x.xfers = [] ∧ e.x.roff = 0 ∧ xRow d * xRows d ≤ 2 ^ 24 ∧ xDesc e 0xD0 td = .ok (d, [0, 0, 0, 0, 0]) ∧
      unitsPass e e.s (f [0, 0, 0, 0, 0]) := by
  unfold xferOk at h
  simp only [Bool.and_eq_true, decide_eq_true_eq] at h
  obtain ⟨⟨h1, h2, h3⟩, h4⟩ := h
  rw [← ht] at h4
  split at h4
  · rename_i d' co hd
    simp only [Bool.and_eq_true, decide_eq_true_eq] at h4
    obtain ⟨⟨h5, h6⟩, h7⟩ := h4
    subst h5
    subst h6
    exact ⟨h1, h2, h3, hd, units_of (by simpa using h7)⟩
  · cases h4

def mem44 : BitVec 512 := desc44 0 - 2 ^ 56 + 0x1000
def mx32 : BitVec 512 := Tab.get ptTeam.tds 8 0

/-- A stated transfer of each kind, from descriptor 7, 5 or 8, with coordinate ZERO. -/
theorem test_hyp_TransfersEnter :
    (∃ e, Runs (ported ready0 (.porter 0 0)) (.xcopy c0 0xD0 1 0 7 0 0 0) e ∧ (e.x.xfers = [] ∧
      xDesc e 0xD0 7 = .ok (mem44, [0, 0, 0, 0, 0]) ∧ val e 1 0 % 2 ^ 32 = 0x40 ∧
      unitsPass e e.s (newXfer e mem44 [0, 0, 0, 0, 0] 0x40 64 0))) ∧
    (∃ e, Runs (ported ready0 (.porter 0 0)) (.xgather c0 0xD0 1 6 7 0 2) e ∧ (e.x.xfers = [] ∧ e.x.roff = 0 ∧
      xDesc e 0xD0 7 = .ok (mem44, [0, 0, 0, 0, 0]) ∧ val e 1 0 % 4 = 0 ∧ xRow mem44 * 3 ≤ 2 ^ 24 ∧
      ∃ s1 l, gatherIndices e (val e 6 0) e.s (List.range 3) = (s1, l, none) ∧ s1.cores = e.s.cores ∧
        s1.teams = e.s.teams ∧ unitsPass e s1 { newXfer e mem44 [0, 0, 0, 0, 0] (val e 1 0 % 2 ^ 32) (xRow mem44 * 3) 0 with
          idx := l })) ∧
    (∃ e, Runs (ported ready0 (.porter 0 0)) (.xmcast c0 0xD0 1 5 7 0) e ∧ (e.x.xfers = [] ∧
      xDesc e 0xD0 7 = .ok (mem44, [0, 0, 0, 0, 0]) ∧ val e 5 0 = 1 ∧
      (∀ k ∈ mcastCores e.core (val e 5 0), (mcastTeam e.s e.tm k).isSome = true) ∧
      unitsPass e e.s (newXfer e mem44 [0, 0, 0, 0, 0] 0x40 64 1) ∧
      unitsPass e (drainCore e.s e.core) (newXfer e mem44 [0, 0, 0, 0, 0] 0x40 64 1))) ∧
    (∃ e, Runs (ported ready0 (.porter 0 0)) (.xstmx c0 0xD0 1 8 0 false false) e ∧ (e.x.xfers = [] ∧
      xDesc e 0xD0 8 = .ok (mx32, [0, 0, 0, 0, 0]) ∧ stmxBad mx32 [0, 0, 0, 0, 0] false = false ∧ val e 1 0 % 4 = 0 ∧
      unitsPass e e.s (newXfer e mx32 [0, 0, 0, 0, 0] 0x40 16 0))) ∧
    (∃ e, Runs (ported ready0 (.porter 0 0)) (.xfill c0 4 1 2 0 true) e ∧ (e.x.xfers = [] ∧ val e 4 0 % 2 ^ 32 = 8 ∧
      val e 1 0 % 4 = 0 ∧ unitsPass e e.s (newXfer e 0 [] 0x40 8 5))) ∧
    (∃ e, Runs (ported ready0 (.porter 0 0)) (.xfill c0 0xD0 0 2 7 false) e ∧ (e.x.xfers = [] ∧
      xDesc e 0xD0 7 = .ok (mem44, [0, 0, 0, 0, 0]) ∧ unitsPass e e.s (newXfer e mem44 [0, 0, 0, 0, 0] 0 64 5))) := by
  refine ⟨issues_imp (issues_of (fun e => e.i = .xcopy c0 0xD0 1 0 7 0 0 0 ∧ xferOk e mem44 (fun co => newXfer e mem44 co 0x40 64 0) = true ∧
      val e 1 0 % 2 ^ 32 = 0x40) (by decide +kernel))
      fun _ h => have x := xfer_of 7 (by rw [h.1]; rfl) h.2.1; ⟨x.1, x.2.2.2.1, h.2.2, x.2.2.2.2⟩,
    issues_imp (issues_of (fun e => e.i = .xgather c0 0xD0 1 6 7 0 2 ∧ (xferOk e mem44 (fun co => newXfer e mem44 co 0 64 0) = true ∧
      val e 1 0 % 4 = 0) ∧ (match gatherIndices e (val e 6 0) e.s (List.range 3) with
        | (s1, l, none) => decide (s1.cores = e.s.cores ∧ s1.teams = e.s.teams) &&
          (let x := { newXfer e mem44 [0, 0, 0, 0, 0] (val e 1 0 % 2 ^ 32) (xRow mem44 * 3) 0 with idx := l }
          decide (x.next < x.stop) && (queueSide e.i ||
            (checkUnits s1 e.ctx e.core e.tm x (upto x.next (x.stop - x.next)) []).2.isNone))
        | _ => false) = true) (by decide +kernel))
      fun e h => ?_,
    issues_imp (issues_of (fun e => e.i = .xmcast c0 0xD0 1 5 7 0 ∧ xferOk e mem44 (fun co => newXfer e mem44 co 0x40 64 1) = true ∧
      val e 5 0 = 1 ∧ (∀ k ∈ mcastCores e.core (val e 5 0), (mcastTeam e.s e.tm k).isSome = true) ∧
      drainCore e.s e.core = e.s) (by decide +kernel))
      fun _ h => have x := xfer_of 7 (by rw [h.1]; rfl) h.2.1
        ⟨x.1, x.2.2.2.1, h.2.2.1, h.2.2.2.1, x.2.2.2.2, by rw [h.2.2.2.2]; exact x.2.2.2.2⟩,
    issues_imp (issues_of (fun e => e.i = .xstmx c0 0xD0 1 8 0 false false ∧
      xferOk e mx32 (fun co => newXfer e mx32 co 0x40 16 0) = true ∧ stmxBad mx32 [0, 0, 0, 0, 0] false = false ∧
      val e 1 0 % 4 = 0) (by decide +kernel))
      fun _ h => have x := xfer_of 8 (by rw [h.1]; rfl) h.2.1; ⟨x.1, x.2.2.2.1, h.2.2.1, h.2.2.2, x.2.2.2.2⟩,
    issues_imp (issues_of (fun e => e.x.xfers = [] ∧ val e 4 0 % 2 ^ 32 = 8 ∧ val e 1 0 % 4 = 0 ∧
      (decide ((newXfer e 0 [] 0x40 8 5).next < (newXfer e 0 [] 0x40 8 5).stop) && (queueSide e.i ||
        (checkUnits e.s e.ctx e.core e.tm (newXfer e 0 [] 0x40 8 5) (upto (newXfer e 0 [] 0x40 8 5).next
          ((newXfer e 0 [] 0x40 8 5).stop - (newXfer e 0 [] 0x40 8 5).next)) []).2.isNone)) = true) (by decide +kernel))
      fun _ h => ⟨h.1, h.2.1, h.2.2.1, units_of h.2.2.2⟩,
    issues_imp (issues_of (fun e => e.i = .xfill c0 0xD0 0 2 7 false ∧ xferOk e mem44 (fun co => newXfer e mem44 co 0 64 5) = true)
      (by decide +kernel))
      fun _ h => have x := xfer_of 7 (by rw [h.1]; rfl) h.2; ⟨x.1, x.2.2.2.1, x.2.2.2.2⟩⟩
  have x := xfer_of 7 (by rw [h.1]; rfl) h.2.1.1
  have h2 := h.2.2
  split at h2
  · rename_i s1 l hg
    simp only [Bool.and_eq_true, decide_eq_true_eq] at h2
    exact ⟨x.1, x.2.1, x.2.2.2.1, h.2.1.2, by decide +kernel, s1, l, hg, h2.1.1, h2.1.2, units_of (by simpa using h2.2)⟩
  · cases h2

/-! ### Hypotheses: events of porters -/

/-- The transfers that the porter has outstanding after one issue. -/
def issuedXfer (i : Instr) : State := after i (ported ready0 (.porter 0 0))

/-- An outstanding transfer of 32 bytes, at scratchpad address 0x40. -/
def xferOf (i : Instr) (dsts : Tab Nat) (buf : List (Byte × Bool)) : Xfer :=
  { id := 0, instr := i, pc := 0, desc := 0, coord := [], sp := 0x40, extra := 5, len := 32, stop := 1, next := 0, pages := [],
    idx := [], buf := buf, okTo := 0, got := 0, image := [], dsts := dsts, dropped := false }

/-- The porter has this transfer outstanding; queue 3 runs from groups to the porters, queue 4 back. -/
def moving (x : Xfer) : State := { ported { ready0 with xfers := [x], nextXfer := 1 } (.porter 0 0) with
  insts := [(0, ⟨0, false, [(3, ⟨declOf 1 0 3 0 2 8, [recOf true [7, 8]], false, false, []⟩),
    (4, ⟨declOf 3 0 1 0 2 8, [], false, false, []⟩)], [], [], true⟩)] }

theorem due_of {s : State} (P : Xfer → Team → Prop) [∀ x t, Decidable (P x t)]
    (h : (match (getPorter s 0 0).xfers.find? (·.id == 0), getTeam s 0 with
      | some x, some t => decide ((getPorter s 0 0).team = some 0 ∧ x.next < x.stop ∧ P x t) &&
          unitFree s 0 t 0 (getPorter s 0 0).xfers (getPorter s 0 0).stamps x x.next
      | _, _ => false) = true) : ∃ x t, Due s 0 0 0 t x ∧ P x t := by
  split at h
  · rename_i x t hx ht
    simp only [Bool.and_eq_true, decide_eq_true_eq] at h
    have hid : x.id = 0 := by simpa using List.find?_some hx
    exact ⟨x, t, ⟨by rw [hid]; exact hx, h.1.1, ht, h.1.2.1, h.2⟩, h.1.2.2⟩
  · cases h

/-- `sourceOpen`, in a form that decides. -/
def openB (s : State) (x : Xfer) : Bool := endSp x (xSource x.instr) || (endPieces x (xSource x.instr) x.next).all fun p =>
  decide ((piecePhys x p).key = 0 ∧ (piecePhys x p).pa % 32 + p.n ≤ 32 ∧ l1Find s 0 ((piecePhys x p).pa / 32) = none)

theorem open_of {s : State} {x : Xfer} (h : openB s x = true) : sourceOpen s 0 x x.next := by
  intro he p hp
  simp only [openB, he, Bool.false_or, List.all_eq_true, decide_eq_true_eq] at h
  exact ⟨⟨(h p hp).1, (h p hp).2.1⟩, (h p hp).2.2⟩

/-- The checks pass and name no page. -/
def noPages (r : Checks) : Bool :=
  match r with
  | .ok l => l.isEmpty
  | .error _ => false

theorem noPages_spec {r : Checks} (h : noPages r = true) : r = .ok [] := by
  unfold noPages at h
  split at h
  · simp_all
  · cases h

theorem unitPages_of {s : State} {t : Team} {x : Xfer} (h : noPages (checkUnit s t.ctx 0 t x [] x.next) = true)
    (ho : x.okTo ≤ x.next) : unitPages s 0 t x [] := by
  rw [unitPages, if_pos ho]
  exact noPages_spec h

/-- XCOPY from queue 3 to linear bytes, and from linear bytes to queue 4. -/
def fromQueue : Instr := .xcopy c0 0 1 0 0 3 0 5
def toQueue : Instr := .xcopy c0 0 1 0 0 4 0 4

theorem test_hyp_PorterEventsAct_1 :
    (∃ x t, Due (issuedXfer (.xcopy c0 0xD0 1 0 7 0 0 0)) 0 0 0 t x ∧ x.instr = .xcopy c0 0xD0 1 0 7 0 0 0 ∧
      openB (issuedXfer (.xcopy c0 0xD0 1 0 7 0 0 0)) x = true) ∧
    (∃ x t, Due (issuedXfer (.xfill c0 4 1 2 0 true)) 0 0 0 t x ∧ x.instr = .xfill c0 4 1 2 0 true ∧ x.sp + x.len ≤ 2 ^ 24) ∧
    (getPorter (issuedXfer (.xfill c0 4 1 2 0 true)) 0 0).bar = none ∧
    (∃ x t, Due (moving (xferOf fromQueue [] [])) 0 0 0 t x ∧ x = xferOf fromQueue [] [] ∧ xSource x.instr = XEnd.queue ∧
      unitPages (moving (xferOf fromQueue [] [])) 0 t x [] ∧
      (getQueue (moving (xferOf fromQueue [] [])) t.inst (xQueue x.instr)).any (fun (q : Queue) =>
        popIndex q (.porter 0 0) == some 0 && q.recs[0]? == some (recOf true [7, 8])) = true) ∧
    (∃ x t, Due (moving (xferOf fromQueue [] (List.replicate 32 (1, false)))) 0 0 0 t x ∧ xSource x.instr = XEnd.queue ∧
      unitPages (moving (xferOf fromQueue [] (List.replicate 32 (1, false)))) 0 t x [] ∧
      min x.len (32 * x.next + 32) ≤ 32 * x.next + x.buf.length) ∧
    (∃ x t, Due (moving (xferOf toQueue [] [])) 0 0 0 t x ∧ xDest x.instr = XEnd.queue ∧ xSource x.instr ≠ XEnd.queue ∧
      unitPages (moving (xferOf toQueue [] [])) 0 t x [] ∧
      openB (moving (xferOf toQueue [] [])) { x with pages := [] } = true ∧ x.got < min x.len (32 * x.next + 32) ∧
      (getQueue (moving (xferOf toQueue [] [])) t.inst (xQueue x.instr)).any (fun (q : Queue) => !q.cclosed &&
        decide (q.recs.length + (x.buf.length + (unitBytes x.len x.next).length) / (4 * qWords q.decl) ≤ qDepth q.decl)) = true) :=
  ⟨due_of _ (by decide +kernel), due_of _ (by decide +kernel), by decide +kernel,
    (due_of (fun (x : Xfer) (t : Team) => x = xferOf fromQueue [] [] ∧ xSource x.instr = XEnd.queue ∧
      noPages (checkUnit (moving (xferOf fromQueue [] [])) t.ctx 0 t x [] x.next) = true ∧ x.okTo ≤ x.next ∧
      (getQueue (moving (xferOf fromQueue [] [])) t.inst (xQueue x.instr)).any (fun (q : Queue) =>
        popIndex q (.porter 0 0) == some 0 && q.recs[0]? == some (recOf true [7, 8])) = true) (by decide +kernel)).imp
      fun _ h => h.imp fun _ h => ⟨h.1, h.2.1, h.2.2.1, unitPages_of h.2.2.2.1 h.2.2.2.2.1, h.2.2.2.2.2⟩,
    (due_of (fun (x : Xfer) (t : Team) => xSource x.instr = XEnd.queue ∧
      noPages (checkUnit (moving (xferOf fromQueue [] (List.replicate 32 (1, false)))) t.ctx 0 t x [] x.next) = true ∧ x.okTo ≤ x.next ∧
      min x.len (32 * x.next + 32) ≤ 32 * x.next + x.buf.length) (by decide +kernel)).imp
      fun _ h => h.imp fun _ h => ⟨h.1, h.2.1, unitPages_of h.2.2.1 h.2.2.2.1, h.2.2.2.2⟩,
    (due_of (fun (x : Xfer) (t : Team) => xDest x.instr = XEnd.queue ∧ xSource x.instr ≠ XEnd.queue ∧
      noPages (checkUnit (moving (xferOf toQueue [] [])) t.ctx 0 t x [] x.next) = true ∧ x.okTo ≤ x.next ∧
      openB (moving (xferOf toQueue [] [])) { x with pages := [] } = true ∧ x.got < min x.len (32 * x.next + 32) ∧
      (getQueue (moving (xferOf toQueue [] [])) t.inst (xQueue x.instr)).any (fun (q : Queue) => !q.cclosed &&
        decide (q.recs.length + (x.buf.length + (unitBytes x.len x.next).length) / (4 * qWords q.decl) ≤ qDepth q.decl)) = true)
      (by decide +kernel)).imp
      fun _ h => h.imp fun _ h => ⟨h.1, h.2.1, h.2.2.1, unitPages_of h.2.2.2.1 h.2.2.2.2.1, h.2.2.2.2.2⟩⟩

theorem test_hyp_PorterEventsAct_2 :
    ((getPorter (issuedXfer (.xmcast c0 0xD0 1 5 7 0)) 0 0).xfers.find? (·.id == 0)).any (fun x =>
      decide (Tab.find x.dsts 0 = some 0 ∧ 0 < x.stop) && (getTeam (issuedXfer (.xmcast c0 0xD0 1 5 7 0)) 0).any fun t =>
        (mcastTeam (issuedXfer (.xmcast c0 0xD0 1 5 7 0)) t 0).isSome &&
        unitFree (issuedXfer (.xmcast c0 0xD0 1 5 7 0)) 0 t 0 (getPorter (issuedXfer (.xmcast c0 0xD0 1 5 7 0)) 0 0).xfers
          (getPorter (issuedXfer (.xmcast c0 0xD0 1 5 7 0)) 0 0).stamps x 0) = true ∧
    ((getPorter (moving (xferOf (.xmcast c0 0xD0 1 5 7 0) [(1, 0)] [])) 0 0).xfers.find? (·.id == 0)).any (fun x =>
      Tab.find x.dsts 1 == some 0 && (getTeam (moving (xferOf (.xmcast c0 0xD0 1 5 7 0) [(1, 0)] [])) 0).any fun t =>
        (mcastTeam (moving (xferOf (.xmcast c0 0xD0 1 5 7 0) [(1, 0)] [])) t 1).isNone) = true ∧
    (((getPorter (issuedXfer (.xstamp c0 6 1 0 0 4)) 0 0).stamps[0]?).any (fun x =>
      decide (x.key = 0 ∧ x.pa % 32 + 8 ≤ 32)) = true ∧ (getPorter (issuedXfer (.xstamp c0 6 1 0 0 4)) 0 0).xfers = [] ∧
      (getPorter (issuedXfer (.xstamp c0 6 1 0 0 4)) 0 0).team = some 0 ∧
      (issuedXfer (.xstamp c0 6 1 0 0 4)).refused = [] ∧ (issuedXfer (.xstamp c0 6 1 0 0 4)).wb = []) ∧
    (∃ x : Porter, x.pending = some ⟨0, 0x30, 0, 7, 0, 0⟩ ∧ getPorter (ported x (.porter 0 0)) 0 0 = x ∧ x.xfers = [] ∧ x.stamps = []) ∧
    (∃ x : Porter, x.dropped = true ∧ getPorter (ported x (.porter 0 0)) 0 0 = x ∧ x.st = .running ∧ x.xfers = [] ∧ x.stamps = [] ∧
      x.pending = none ∧ x.roff = 0) ∧
    (getPorter (issuedXfer (.xend c0)) 0 0).st = .draining ∧ (getPorter (issuedXfer (.xend c0)) 0 0).xfers = [] ∧
    (getPorter (issuedXfer (.xend c0)) 0 0).stamps = [] := by
  refine ⟨by decide +kernel, by decide +kernel, by decide +kernel, ⟨{ ready0 with pending := some ⟨0, 0x30, 0, 7, 0, 0⟩ }, ?_⟩,
    ⟨{ ready0 with dropped := true }, ?_⟩, by decide +kernel⟩ <;> decide +kernel


/-! ### Hypotheses: islands -/

/-- An image with one class, and an island of context 0 that has it. -/
def imgOf (cls : Nat) (ports : List Word) : Image := ⟨7, [(cls, ports)], []⟩
def isleOf (cls : Nat) (ports : List Word) (b : List Binding) : Island := { Island.empty with
  owner := some 0, image := some (imgOf cls ports), binds := b }
def bindOf (id q port : Nat) (param : DWord) (entry : BitVec 128) : Binding := ⟨id, 0, 0, q, 0, port, param, entry, 0, false⟩

/-- The lead of the team, or core 0's handler, on a machine with these islands; a page at 0x10000 holds a pass descriptor
(R251: a pool of 16,384 bytes, a target of one pixel). Queue 3 runs from the groups to an island, queue 4 from one back. -/
def isled (p : Party) (raster ray blend : Island) (recs : List Record) : State := { mapped (serving p) with
  mem := [(0x10015, 0x40)], raster := [(0, raster)], ray := [(0, ray)], blend := [(0, blend)]
  ctxs := [(0, { Context.free with
    st := 1, images := [(0, imgOf 1 [0x00010008, 0x81010010]), (3, imgOf 0x3001 [0x00050000])] })]
  insts := [(0, ⟨0, false, [(3, ⟨declOf 1 0 4 0 32 8, recs, false, false, []⟩), (4, ⟨declOf 4 0 1 0 16 8, [], false, false, []⟩),
    (5, ⟨declOf 1 0 4 0 8 8, recs, false, false, []⟩)], [], [], true⟩)] }

def raster0 (b : List Binding) : Island := isleOf 1 [0x00010008, 0x81010010] b
def both : List Binding := [bindOf 0 5 0 0 0, bindOf 1 4 1 0 0]
def ifault0 : IFault := ⟨0x09, 7, 0, 0x2000, 0, 0, 0, 0, false, .request (some (.group 0 0)) 0 [⟨[0, 0, 0, 0, 0, 0, 0, 0], true, false, none, none, 0, 0, 0, .core 0⟩]⟩
def leadH : Party := .lead Config.handlerBase
def fresh (p : Party) : State := isled p (raster0 both) .empty .empty []
def rights (p : Party) : State := { fresh p with teams := [(0, team0)] }
def faulty (p : Party) : State := isled p { raster0 both with
  fault := some ifault0, pass := some (passStart 0 0x40000000000000000000000000000000000000000000 0) } .empty .empty []
def open0 (p : Party) : State := { isled p { raster0 both with pass := some (passStart 0 0 0) } .empty .empty [] with
  teams := [(0, team0)] }

theorem test_hyp_IslandInstructionsAct_1 :
    (∃ e, Runs (rights (.lead 0)) (.ictlState c0 9 0 0) e ∧ e.act ≠ []) ∧
    (∃ e, Runs (faulty leadH) (.ictlFaultAddress c0 9 0 0) e ∧ e.act ≠ [] ∧ (myIsle e 0).fault = some ifault0) ∧
    (∃ e, Runs (fresh leadH) (.ictlResume c0 9 0 0) e ∧ e.act ≠ [] ∧ (myIsle e 0).fault = none) ∧
    (∃ e, Runs (fresh leadH) (.ictlDiscard c0 9 0 0) e ∧ e.act ≠ [] ∧ (myIsle e 0).fault = none) ∧
    (∃ e, Runs (faulty leadH) (.ictlResume c0 9 0 0) e ∧ e.act ≠ [] ∧ (myIsle e 0).fault = some ifault0 ∧
      (myIsle e 0).binds.find? (fun y => y.id == 0) = some (bindOf 0 5 0 0 0) ∧
      (classOf (myIsle e 0) (bindOf 0 5 0 0 0)).map (·.1) = some 1 ∧
      okB (coarseUnit 0 (modIsle e.s 0 (isleIdx e 0) fun x => { x with fault := none }) (bindOf 0 5 0 0 0)
        (some (.group 0 0)) 0 [⟨[0, 0, 0, 0, 0, 0, 0, 0], true, false, none, none, 0, 0, 0, .core 0⟩]) = true) ∧
    (∃ e, Runs (faulty leadH) (.ictlDiscard c0 9 0 0) e ∧ e.act ≠ [] ∧ (myIsle e 0).fault = some ifault0 ∧
      (myIsle e 0).binds.find? (fun y => y.id == 0) = some (bindOf 0 5 0 0 0)) :=
  ⟨issues_of _ (by decide +kernel), issues_of _ (by decide +kernel), issues_of _ (by decide +kernel),
    issues_of _ (by decide +kernel), issues_of _ (by decide +kernel), issues_of _ (by decide +kernel)⟩

/-- The function of a class serves the request of a fault (the fourth clause's `serveOf`). -/
theorem test_serve_of_coarse : serveOf 0 0 1 = some (coarseUnit 0) := rfl

theorem test_hyp_IslandInstructionsAct_2 :
    (∃ e, Runs (rights (.lead 0)) (.iload c0 9 1 0xD0 8 0) e ∧ (e.act ≠ [] ∧ hasRights e = true ∧ handle e 0xD0 = 0 ∧
      ∃ ps, rangePages (val e 8 e.low % 2 ^ 32 / 4096 + 2) e .load (val64 e 1 e.low) (val e 8 e.low % 2 ^ 32) = .ok ps)) ∧
    (∃ e, Runs (rights (.lead 0)) (.qbind c0 9 2 5 0 0 0 false) e ∧ (e.act ≠ [] ∧
      targetEntry e 0 (val64 e 2 e.low) false = .ok 0 ∧ (myIsle e 0).owner = some e.ctx ∧
      (getQueue e.s e.tm.inst 5).any (fun y => qValid y.decl && decide (qCKind y.decl = 4 ∧ qCStage y.decl = e.tm.stage)) = true)) ∧
    (∃ e, Runs (rights (.lead 0)) (.qbind c0 9 0xD0 5 0 0 0 true) e ∧ e.act ≠ [] ∧
      (getQueue e.s e.tm.inst 5).any (fun y => qValid y.decl && decide (qCKind y.decl = 4 ∧ qCStage y.decl = e.tm.stage)) = true ∧
      (myIsle e 0).binds.any (fun b => decide (b.team = e.t ∧ b.inst = e.tm.inst ∧ b.q = 5 ∧ b.cls = 0 ∧ b.port = 0 ∧
        b.closing = false)) = true) ∧
    (∃ e, Runs (rights (.lead 0)) (.passbegin c0 9 1) e ∧ (e.act ≠ [] ∧ ∃ t v, passDesc e 1 = .ok (t, v) ∧
      (getIsle t 0 (isleIdx e 0)).pass = none ∧ pdMalformed v = false ∧ isleReady (getIsle t 0 (isleIdx e 0)) e.ctx = true)) ∧
    (∃ e, Runs (open0 (.lead 0)) (.passstat c0 9 0) e ∧ e.act ≠ [] ∧ (myIsle e 0).pass.isSome = true) ∧
    (∃ e, Runs (open0 (.lead 0)) (.passend c0 9 0) e ∧ e.act ≠ [] ∧
      (myIsle e 0).pass.any (fun p => decide (p.ctx = e.ctx ∧ p.ending = none)) = true) ∧
    (∃ e, Runs (rights (.lead 0)) (.resolve c0 9 1) e ∧ (e.act ≠ [] ∧ ∃ t v, passDesc e 1 = .ok (t, v) ∧
      pdMalformed v = false ∧ isleReady (getIsle t 0 (isleIdx e 0)) e.ctx = true)) := by
  have desc : ∀ (e : Env), (match passDesc e 1 with
      | .ok (t, v) => decide ((getIsle t 0 (isleIdx e 0)).pass = none ∧ pdMalformed v = false ∧
          isleReady (getIsle t 0 (isleIdx e 0)) e.ctx = true)
      | .error _ => false) = true → ∃ t v, passDesc e 1 = .ok (t, v) ∧ (getIsle t 0 (isleIdx e 0)).pass = none ∧
        pdMalformed v = false ∧ isleReady (getIsle t 0 (isleIdx e 0)) e.ctx = true := by
    intro e h
    split at h
    · rename_i t v hd
      exact ⟨t, v, hd, of_decide_eq_true h⟩
    · cases h
  refine ⟨issues_imp (issues_of (fun e => e.act ≠ [] ∧ hasRights e = true ∧ handle e 0xD0 = 0 ∧
      okB (rangePages (val e 8 e.low % 2 ^ 32 / 4096 + 2) e .load (val64 e 1 e.low) (val e 8 e.low % 2 ^ 32)) = true)
      (by decide +kernel)) fun _ h => ⟨h.1, h.2.1, h.2.2.1, ok_get h.2.2.2⟩,
    issues_imp (issues_of (fun e => e.act ≠ [] ∧ (myIsle e 0).owner = some e.ctx ∧
      (getQueue e.s e.tm.inst 5).any (fun y => qValid y.decl && decide (qCKind y.decl = 4 ∧ qCStage y.decl = e.tm.stage)) = true)
      (by decide +kernel)) fun _ h => ⟨h.1, rfl, h.2⟩,
    issues_of _ (by decide +kernel),
    issues_imp (issues_of (fun e => e.act ≠ [] ∧ (match passDesc e 1 with
      | .ok (t, v) => decide ((getIsle t 0 (isleIdx e 0)).pass = none ∧ pdMalformed v = false ∧
          isleReady (getIsle t 0 (isleIdx e 0)) e.ctx = true)
      | .error _ => false) = true) (by decide +kernel)) fun e h => ⟨h.1, desc e h.2⟩,
    issues_of _ (by decide +kernel), issues_of _ (by decide +kernel),
    issues_imp (issues_of (fun e => e.act ≠ [] ∧ (match passDesc e 1 with
      | .ok (t, v) => decide ((getIsle t 0 (isleIdx e 0)).pass = none ∧ pdMalformed v = false ∧
          isleReady (getIsle t 0 (isleIdx e 0)) e.ctx = true)
      | .error _ => false) = true) (by decide +kernel)) fun e h => ⟨h.1, ?_⟩⟩
  obtain ⟨t, v, h1, _, h2⟩ := desc e h.2
  exact ⟨t, v, h1, h2⟩

/-- A bind of a second queue by another team finds port 0 of the class free (status 0). -/
theorem test_bind_status : bindStatus (raster0 []) 0 0 0 (some (imgOf 1 [0x00010008, 0x81010010])) 0 0 (declOf 1 0 4 0 8 8)
    true false 0 = 0 := by decide +kernel

def recsOf (n : Nat) (w : Word) : List Record := List.replicate 5 ⟨List.replicate n w, true, false, none, none, 0, 0, 0, .core 0⟩
def blendIsle : Island := isleOf 0x3001 [0x00050000] [bindOf 0 3 0 0 (BitVec.ofNat 128 (0x2000 + 2 * 2 ^ 96 + 15 * 2 ^ 112))]

/-- A unit of five records whose control words name no pixel, or pixel (0, 0) of a target that no page holds. -/
def blending (w : Word) : State := isled (.group 0 0) .empty .empty blendIsle (recsOf 32 w)
/-- One coarse record: the triangle (0, 0), (0, 16), (16, 0) pixels in units of 1/256, in an immediate pass of one pixel. -/
def coarsing : State := isled (.group 0 0) { raster0 both with pass := some (passStart 0 0 0) } .empty .empty
  [⟨[0, 0, 0, 4096, 4096, 0, 0, 0], true, false, none, none, 0, 0, 0, .core 0⟩]

/-- `Serves` and an outcome of the request, in a form that decides. -/
def servedB (s : State) (kind idx cls : Nat) (f : Serve) (y : Binding) (ok : Bool) : Bool :=
  decide ((isleView s kind idx).binds.find? (fun z => z.id == y.id) = some y) &&
  decide ((classOf (isleView s kind idx) y).map (·.1) = some cls) && (isleView s kind idx).fault.isNone &&
  (unitReady s (isleView s kind idx) y).any (fun u => decide (u.1 = none)) &&
  (unitTake s kind idx (isleView s kind idx) y none).2.all (fun r => !r.poison) &&
  okB (f (requested s kind idx y none) y none (requestNo s kind idx) (unitTake s kind idx (isleView s kind idx) y none).2) == ok

theorem serves_of {s : State} {i : Instr} {kind idx cls b : Nat} {f : Serve} {y : Binding} {ok : Bool}
    (he : eventOf i = some (kind, idx, cls, b, f)) (hb : b = y.id) (ht : turnOf s kind idx y)
    (h : servedB s kind idx cls f y ok = true) : ∃ l, Serves s i kind idx f y none l ∧
      okB (f (requested s kind idx y none) y none (requestNo s kind idx) l) = ok := by
  unfold servedB at h
  simp only [Bool.and_eq_true, decide_eq_true_eq, beq_iff_eq, Option.isNone_iff_eq_none, List.all_eq_true,
    Bool.not_eq_true'] at h
  obtain ⟨⟨⟨⟨⟨h1, h2⟩, h3⟩, h4⟩, h5⟩, h6⟩ := h
  refine ⟨_, ⟨cls, b, ?_⟩, h6⟩
  cases hu : unitReady s (isleView s kind idx) y with
  | none => simp [hu] at h4
  | some u =>
    simp only [hu, Option.any_some, decide_eq_true_eq] at h4
    refine ⟨u.2, he, by rw [hb]; exact h1, h2, ht, ?_, h3, rfl, h5⟩
    rw [← h4]

/-- A request of each outcome: of the blend island, sound and failing; of the raster island, sound. -/
theorem test_hyp_RequestsAreServed :
    (∃ y l, Serves (blending 0) (.blendColour 0) 3 0 blendUnit y none l ∧
      okB (blendUnit (requested (blending 0) 3 0 y none) y none (requestNo (blending 0) 3 0) l) = true) ∧
    (∃ y l, Serves (blending 0x80000000) (.blendColour 0) 3 0 blendUnit y none l ∧
      okB (blendUnit (requested (blending 0x80000000) 3 0 y none) y none (requestNo (blending 0x80000000) 3 0) l) = false) ∧
    (∃ y l, Serves coarsing (.rasterCoarse 0 0) 0 0 (coarseUnit 0) y none l ∧
      okB (coarseUnit 0 (requested coarsing 0 0 y none) y none (requestNo coarsing 0 0) l) = true) := by
  refine ⟨⟨bindOf 0 3 0 0 (BitVec.ofNat 128 (0x2000 + 2 * 2 ^ 96 + 15 * 2 ^ 112)),
      serves_of rfl rfl ⟨0, ?_⟩ (by decide +kernel)⟩,
    ⟨bindOf 0 3 0 0 (BitVec.ofNat 128 (0x2000 + 2 * 2 ^ 96 + 15 * 2 ^ 112)), serves_of rfl rfl ⟨0, ?_⟩ (by decide +kernel)⟩,
    ⟨bindOf 0 5 0 0 0, serves_of rfl rfl ?_ (by decide +kernel)⟩⟩
  · decide +kernel
  · decide +kernel
  · show nextBinding coarsing (getIsle coarsing 0 0) (bindOf 0 5 0 0 0).cls _ = some (bindOf 0 5 0 0 0)
    decide +kernel

/-! ### Hypotheses: the classes' answers -/

/-- The cells of a word at an address. -/
def cellsOf (a v : Nat) : List (Nat × Byte) := ((List.range 4).map fun i => (a + i, BitVec.ofNat 8 (v / 2 ^ (8 * i)))).filter (·.2 != 0)
def one32 : Nat := 0x3F800000

/-- Two texture entries at 0x10000, one of them reserved: 2 x 2 texels of UN8x4 at 0x10100. A node at 0x10200, whose box 0 runs from
1 to 2; a triangle at 0x10300. -/
def classMem : State := { fresh leadH with
  mem := cellsOf 0x10000 0x10100 ++ cellsOf 0x10008 0x4402 ++ cellsOf 0x10010 0x10100 ++ cellsOf 0x10018 0x10000002 ++
    cellsOf 0x10104 0x0100FF80 ++ cellsOf 0x1010C 0x00400000 ++
    ((List.range 3).flatMap fun i => cellsOf (0x10200 + 4 * i) one32) ++
    ((List.range 3).flatMap fun i => cellsOf (0x1020C + 4 * i) 0x40000000) ++
    (cellsOf 0x10300 0xBF800000 ++ cellsOf 0x10304 0xBF800000 ++ cellsOf 0x10308 0x40A00000) ++
    (cellsOf 0x10310 one32 ++ cellsOf 0x10314 0xBF800000 ++ cellsOf 0x10318 0x40A00000) ++
    (cellsOf 0x10324 one32 ++ cellsOf 0x10328 0x40A00000) }

/-- The read answers what `P` holds of. -/
def readsTo {α : Type} (r : Except IStop (State × α)) (P : State → α → Bool) : Bool :=
  match r with
  | .ok x => P x.1 x.2
  | .error _ => false

theorem readsTo_spec {α : Type} {r : Except IStop (State × α)} {P : State → α → Bool} (h : readsTo r P = true) :
    ∃ s v, r = .ok (s, v) ∧ P s v = true := by
  unfold readsTo at h
  split at h
  · exact ⟨_, _, rfl, h⟩
  · cases h

/-- R231: a unit of five records of one lane that is not valid. -/
theorem test_hyp_LanesAnswer :
    (eventOf (.sample2d 0 0)).isSome = true ∧
    (laneClass (.sample2d 0 0)).isSome = true ∧ recsOf 1 0 ≠ [] ∧ (∀ r ∈ recsOf 1 0, r.words.length = 1) ∧
    sampleLane classMem 0 0 0 0 ((recsOf 1 0).map fun r => (r.words.getD 0 0).toNat) = .ok (classMem, [0, 0, 0, 0]) :=
  ⟨rfl, rfl, by decide, by decide, rfl⟩

/-- A coordinate that is a number. -/
def ratOf (x : Ext) : Machine.Rat :=
  match x with
  | .rat r => r
  | _ => .zero

theorem test_hyp_SampleAnswers :
    ([0, 0, 0, 0, 0].getD 4 0).testBit 31 = false ∧
    (∃ s v, isleRead classMem 0 0 (0x10000 + 16 * (0x80000001 % 256)) 16 1 = .ok (s, v) ∧ v < 2 ^ 128 ∧ texOk v = false) ∧
    (∃ s v t x, isleRead classMem 0 0 (0x10000 + 16 * (0x80000000 % 256)) 16 1 = .ok (s, v) ∧ (v < 2 ^ 128 ∧
      (texOk v = true ∧ (texOf v).filt = 0 ∧ (texOf v).fmt = 2 ∧ Nat.testBit 0x80000000 31 = true ∧ 0x80000000 / 256 % 4096 < 128) ∧
      coordVal 0x3F400000 = .rat (ratOf (coordVal 0x3F400000)) ∧ coordVal 0x3E800000 = .rat (ratOf (coordVal 0x3E800000)) ∧
      ((1 : Nat) : Int) = placed (texOf v).addrU (2 ^ (texOf v).logW) (scaledFloor (ratOf (coordVal 0x3F400000)) (2 ^ (texOf v).logW)) ∧
      ((0 : Nat) : Int) = placed (texOf v).addrV (2 ^ (texOf v).logH) (scaledFloor (ratOf (coordVal 0x3E800000)) (2 ^ (texOf v).logH))) ∧
      isleRead s 0 0 ((texOf v).base + (0 * 2 ^ (texOf v).logW + 1) * 4) 4 4 = .ok (t, x)) := by
  refine ⟨by decide, ?_, ?_⟩
  · obtain ⟨s, v, h, p⟩ := readsTo_spec (r := isleRead classMem 0 0 (0x10000 + 16 * (0x80000001 % 256)) 16 1)
      (P := fun _ v => decide (v < 2 ^ 128 ∧ texOk v = false)) (by decide +kernel)
    exact ⟨s, v, h, of_decide_eq_true p⟩
  · obtain ⟨s, v, h, p⟩ := readsTo_spec (r := isleRead classMem 0 0 (0x10000 + 16 * (0x80000000 % 256)) 16 1)
      (P := fun s v => decide (v < 2 ^ 128 ∧
        (texOk v = true ∧ (texOf v).filt = 0 ∧ (texOf v).fmt = 2 ∧ Nat.testBit 0x80000000 31 = true ∧ 0x80000000 / 256 % 4096 < 128) ∧
        coordVal 0x3F400000 = .rat (ratOf (coordVal 0x3F400000)) ∧ coordVal 0x3E800000 = .rat (ratOf (coordVal 0x3E800000)) ∧
        ((1 : Nat) : Int) = placed (texOf v).addrU (2 ^ (texOf v).logW) (scaledFloor (ratOf (coordVal 0x3F400000)) (2 ^ (texOf v).logW)) ∧
        ((0 : Nat) : Int) = placed (texOf v).addrV (2 ^ (texOf v).logH) (scaledFloor (ratOf (coordVal 0x3E800000)) (2 ^ (texOf v).logH))) &&
        readsTo (isleRead s 0 0 ((texOf v).base + (0 * 2 ^ (texOf v).logW + 1) * 4) 4 4) fun _ _ => true) (by decide +kernel)
    obtain ⟨p, q⟩ := Bool.and_eq_true_iff.1 p
    obtain ⟨t, x, hx, -⟩ := readsTo_spec q
    exact ⟨s, v, t, x, h, of_decide_eq_true p, hx⟩

/-- u and v of the middle of a face. -/
def middle : Machine.Rat :=
  ratOf ((((((fpDecode fp32 0).ext.neg).div (fpDecode fp32 one32).ext.abs).add (.rat .one)).div (.rat (.ofInt 2))).rounded fp32 0)

/-- The vector (1, 0, 0): the middle of face 0, whose texel is (1, 1). -/
theorem test_hyp_CubeAnswers :
    ([one32, 0, 0, 0].getD 3 0).testBit 31 = false ∧ ¬numbers [0x7FC00000, 0, 0, 0] 3 ∧
    (∀ i, i < 3 → [0, 0x80000000, 0, 0].getD i 0 % 2 ^ 31 = 0) ∧ numbers [one32, 0, 0, 0x80000000] 3 ∧
    (fpDecode fp32 one32).ext.isZero = false ∧
    cubeRow (fpDecode fp32 one32).ext (fpDecode fp32 0).ext (fpDecode fp32 0).ext 0 (fpDecode fp32 0).ext.neg
      (fpDecode fp32 0).ext.neg (fpDecode fp32 one32).ext.abs ∧
    (((((fpDecode fp32 0).ext.neg).div (fpDecode fp32 one32).ext.abs).add (.rat .one)).div (.rat (.ofInt 2))).rounded fp32 0 =
      .rat middle ∧
    (∃ s v t x, isleRead classMem 0 0 (0x10000 + 16 * (0x80000000 % 256)) 16 1 = .ok (s, v) ∧ (v < 2 ^ 128 ∧
      (texOk v = true ∧ (texOf v).filt = 0 ∧ (texOf v).fmt = 2 ∧ Nat.testBit 0x80000000 31 = true ∧ 0x80000000 / 256 % 4096 < 128) ∧
      ((1 : Nat) : Int) = placed 1 (2 ^ (texOf v).logW) (scaledFloor middle (2 ^ (texOf v).logW)) ∧
      ((1 : Nat) : Int) = placed 1 (2 ^ (texOf v).logH) (scaledFloor middle (2 ^ (texOf v).logH))) ∧
      isleRead s 0 0 ((texOf v).addr 0 0 1 1) 4 4 = .ok (t, x)) := by
  refine ⟨by decide, fun h => absurd (h 0 (by decide)) (by decide +kernel), by decide, ?_, by decide +kernel,
    .inl (by decide +kernel), by decide +kernel, ?_⟩
  · intro i hi
    have : i = 0 ∨ i = 1 ∨ i = 2 := by omega
    rcases this with rfl | rfl | rfl <;> decide +kernel
  · obtain ⟨s, v, h, p⟩ := readsTo_spec (r := isleRead classMem 0 0 (0x10000 + 16 * (0x80000000 % 256)) 16 1)
      (P := fun s v => decide (v < 2 ^ 128 ∧ (texOk v = true ∧ (texOf v).filt = 0 ∧ (texOf v).fmt = 2 ∧
        Nat.testBit 0x80000000 31 = true ∧ 0x80000000 / 256 % 4096 < 128) ∧
        ((1 : Nat) : Int) = placed 1 (2 ^ (texOf v).logW) (scaledFloor middle (2 ^ (texOf v).logW)) ∧
        ((1 : Nat) : Int) = placed 1 (2 ^ (texOf v).logH) (scaledFloor middle (2 ^ (texOf v).logH))) &&
        readsTo (isleRead s 0 0 ((texOf v).addr 0 0 1 1) 4 4) fun _ _ => true) (by decide +kernel)
    obtain ⟨p, q⟩ := Bool.and_eq_true_iff.1 p
    obtain ⟨t, x, hx, -⟩ := readsTo_spec q
    exact ⟨s, v, t, x, h, of_decide_eq_true p, hx⟩

theorem numbers_of {w : List Nat} {n : Nat} (h : (List.range n).all (fun i => (fpDecode fp32 (w.getD i 0)).ext != .nan) = true) :
    numbers w n := fun i hi => by simpa using List.all_eq_true.1 h i (List.mem_range.2 hi)

/-- A ray from the origin along (1, 1, 1), T from 0 to 16; one along (0, 0, 1); a frustum whose intervals are the point 1. -/
def boxRay : List Nat := [0, 0, 0, one32, one32, one32, 0, 0x41800000, 0x80000000]
def triRay : List Nat := [0, 0, 0, 0, 0, one32, 0, 0x41800000, 0x80000000]
def frustum (hi : Nat) : List Nat :=
  [0, 0, 0, one32, hi, one32, one32, one32, one32, 0, 0x41800000, 0x80000000, 0, 0, 0, 0]
def wordsExt (w : List Nat) (i : Nat) : Ext := (fpDecode fp32 (w.getD i 0)).ext

/-- No product of the four boxes is a NaN. -/
def productsGood (ws : List Nat) (o : Nat → Ext) (inv : Nat → List Ext) : Bool :=
  (List.range 4).all fun k => (List.range 3).all fun a =>
    (slabProducts (boxOf ws k a) (boxOf ws k (a + 3)) (o a) (inv a)).all (· != .nan)

theorem products_of {ws : List Nat} {o : Nat → Ext} {inv : Nat → List Ext} (h : productsGood ws o inv = true) (k a : Nat)
    (hk : k < 4) (ha : a < 3) : ∀ p ∈ slabProducts (boxOf ws k a) (boxOf ws k (a + 3)) (o a) (inv a), p ≠ .nan := fun p hp => by
  have := List.all_eq_true.1 (List.all_eq_true.1 (List.all_eq_true.1 h k (List.mem_range.2 hk)) a (List.mem_range.2 ha)) p hp
  simpa using this

theorem test_hyp_BoxAnswers :
    boxRay.length = 9 ∧ (boxRay.getD 8 0).testBit 31 = true ∧ numbers boxRay 8 ∧
    (∃ s ws, nodeRead classMem 0 0 0x10200 (boxRay.getD 8 0) = .ok (s, ws) ∧ ws.length = 24 ∧ numbers ws 24 ∧
      ∀ k a, k < 4 → a < 3 → ∀ p ∈ slabProducts (boxOf ws k a) (boxOf ws k (a + 3)) (wordsExt boxRay a)
        [wordsExt boxRay (3 + a)], p ≠ .nan) ∧
    (∃ s ws, nodeRead { classMem with mem := cellsOf 0x10200 0x7FC00000 } 0 0 0x10200 (boxRay.getD 8 0) = .ok (s, ws) ∧
      ws.length = 24 ∧ ¬numbers ws 24) := by
  refine ⟨rfl, by decide, numbers_of (by decide +kernel), ?_, ?_⟩
  · obtain ⟨s, ws, h, p⟩ := readsTo_spec (r := nodeRead classMem 0 0 0x10200 (boxRay.getD 8 0)) (P := fun _ ws =>
      decide (ws.length = 24) && (List.range 24).all (fun i => (fpDecode fp32 (ws.getD i 0)).ext != .nan) &&
      productsGood ws (wordsExt boxRay) fun a => [wordsExt boxRay (3 + a)]) (by decide +kernel)
    obtain ⟨⟨a, b⟩, c⟩ := (Bool.and_eq_true_iff.1 p).imp_left Bool.and_eq_true_iff.1
    exact ⟨s, ws, h, of_decide_eq_true a, numbers_of b, products_of c⟩
  · obtain ⟨s, ws, h, p⟩ := readsTo_spec (r := nodeRead { classMem with mem := cellsOf 0x10200 0x7FC00000 } 0 0 0x10200
      (boxRay.getD 8 0)) (P := fun _ ws => decide (ws.length = 24 ∧ (fpDecode fp32 (ws.getD 0 0)).ext = .nan)) (by decide +kernel)
    exact ⟨s, ws, h, (of_decide_eq_true p).1, fun hn => hn 0 (by decide) (of_decide_eq_true p).2⟩

theorem test_hyp_FrustumAnswers :
    (frustum one32).length = 16 ∧ ((frustum one32).getD 11 0).testBit 31 = true ∧ numbers (frustum one32) 11 ∧
    numbers (frustum 0x3F000000) 11 ∧ (wordsExt (frustum 0x3F000000) 4).lt (wordsExt (frustum 0x3F000000) 3) = true ∧
    (∀ a, a < 3 → (wordsExt (frustum one32) (4 + 2 * a)).lt (wordsExt (frustum one32) (3 + 2 * a)) = false) ∧
    (∃ s ws, nodeRead classMem 0 0 0x10200 ((frustum one32).getD 11 0) = .ok (s, ws) ∧ ws.length = 24 ∧ numbers ws 24 ∧
      ∀ k a, k < 4 → a < 3 → ∀ p ∈ slabProducts (boxOf ws k a) (boxOf ws k (a + 3)) (wordsExt (frustum one32) a)
        [wordsExt (frustum one32) (3 + 2 * a), wordsExt (frustum one32) (4 + 2 * a)], p ≠ .nan) ∧
    (∃ s o, frustumWord classMem 0 0 0x10200 (frustum one32) = .ok (s, o)) := by
  refine ⟨rfl, by decide, numbers_of (by decide +kernel), numbers_of (by decide +kernel), by decide +kernel, ?_, ?_, ?_⟩
  · intro a ha
    have : a = 0 ∨ a = 1 ∨ a = 2 := by omega
    rcases this with rfl | rfl | rfl <;> decide +kernel
  · obtain ⟨s, ws, h, p⟩ := readsTo_spec (r := nodeRead classMem 0 0 0x10200 ((frustum one32).getD 11 0)) (P := fun _ ws =>
      decide (ws.length = 24) && (List.range 24).all (fun i => (fpDecode fp32 (ws.getD i 0)).ext != .nan) &&
      productsGood ws (wordsExt (frustum one32)) fun a =>
        [wordsExt (frustum one32) (3 + 2 * a), wordsExt (frustum one32) (4 + 2 * a)]) (by decide +kernel)
    obtain ⟨⟨a, b⟩, c⟩ := (Bool.and_eq_true_iff.1 p).imp_left Bool.and_eq_true_iff.1
    exact ⟨s, ws, h, of_decide_eq_true a, numbers_of b, products_of c⟩
  · obtain ⟨s, o, h, -⟩ := readsTo_spec (r := frustumWord classMem 0 0 0x10200 (frustum one32)) (P := fun _ _ => true)
      (by decide +kernel)
    exact ⟨s, o, h⟩

/-- The words of the triangle: A, B and C. -/
def triWords : List Nat := [0xBF800000, 0xBF800000, 0x40A00000, one32, 0xBF800000, 0x40A00000, 0, one32, 0x40A00000]
def triHit (o : Nat → Ext) : RayTri := rayTriOf o (fun i => wordsExt triRay (3 + i)) (wordsExt triWords)
  (fun i => wordsExt triWords (3 + i)) (fun i => wordsExt triWords (6 + i)) 0 1 2

/-- The triangle's sides count as one sign, and T = 5 lies in the interval. -/
theorem test_hyp_TriAnswers :
    triRay.length = 9 ∧ (triRay.getD 8 0).testBit 31 = true ∧ numbers triRay 8 ∧
    (∃ s, triRead classMem 0 0 0x10300 (triRay.getD 8 0) = .ok (s, triWords)) ∧ numbers triWords 9 ∧
    rayAxes (fun i => wordsExt triRay (3 + i)) 0 1 2 ∧
    ((triHit (wordsExt triRay)).u ≠ .nan ∧ (triHit (wordsExt triRay)).v ≠ .nan ∧ (triHit (wordsExt triRay)).w ≠ .nan ∧
      (triHit (wordsExt triRay)).det ≠ .nan ∧ (triHit (wordsExt triRay)).det.isZero = false ∧
      (triHit (wordsExt triRay)).t ≠ .nan) ∧
    ((triHit (wordsExt triRay)).pu ↔ (triHit (wordsExt triRay)).pv) ∧
    ((triHit (wordsExt triRay)).pv ↔ (triHit (wordsExt triRay)).pw) ∧
    (wordsExt triRay 6).le (triHit (wordsExt triRay)).t = true ∧ (triHit (wordsExt triRay)).t.le (wordsExt triRay 7) = true := by
  refine ⟨rfl, by decide, numbers_of (by decide +kernel), ?_, numbers_of (by decide +kernel), ?_, by decide +kernel, ?_, ?_,
    by decide +kernel, by decide +kernel⟩
  · obtain ⟨s, ws, h, p⟩ := readsTo_spec (r := triRead classMem 0 0 0x10300 (triRay.getD 8 0))
      (P := fun _ ws => decide (ws = triWords)) (by decide +kernel)
    obtain rfl := of_decide_eq_true p
    exact ⟨s, h⟩
  · refine ⟨by decide, ?_, ?_, ?_⟩
    · intro i hi
      have : i = 0 ∨ i = 1 ∨ i = 2 := by omega
      rcases this with rfl | rfl | rfl <;> decide +kernel
    · intro i hi
      have : i = 0 ∨ i = 1 := by omega
      rcases this with rfl | rfl <;> decide +kernel
    · rw [if_neg (by decide +kernel)]
      exact ⟨rfl, rfl⟩
  all_goals
    simp only [triHit, rayTriOf, countsPositive]
    rw [if_neg (by decide +kernel), if_neg (by decide +kernel)]
    decide +kernel

/-- A target of UN8x4 pixels at 0x10400, the source taken whole; lane 0 names its first pixel. -/
def blendBinding : Binding := bindOf 0 3 0 0 (BitVec.ofNat 128 (0x10400 + 2 * 2 ^ 96 + 2 ^ 100 + 2 ^ 106 + 15 * 2 ^ 112))
def blendRecs : List Record := [0x80000000, 0x3F000000, 0x3F000000, 0x3F000000, 0x3F000000].map fun w =>
  ⟨[w, 0], true, false, none, none, 0, 0, 0, .core 0⟩

theorem test_hyp_BlendAnswers :
    (∀ r ∈ (recsOf 2 0).head?, ∀ l, l < r.words.length → (r.words.getD l 0).getLsbD 31 = false) ∧
    classMem.Inv ∧ blendRecs.length = 5 ∧
    (∀ r ∈ blendRecs.head?, 0 < r.words.length ∧ ∀ l, l < r.words.length → ((r.words.getD l 0).getLsbD 31 = true ↔ l = 0)) ∧
    (∃ q q', checkNow classMem (isleOwner classMem 3 0) Config.cores 0x10400 4 .loadNoKey = .ok q ∧
      checkNow classMem (isleOwner classMem 3 0) Config.cores 0x10400 4 .storeNoKey = .ok q' ∧ simple q.pa q.key 4 ∧
      q.pa / 32 ∉ classMem.poison ∧ q.pa / 32 ∉ classMem.refused) := by
  refine ⟨?_, by decide +kernel, rfl, ?_, ?_⟩
  · intro r hr l hl
    obtain rfl : _ = r := Option.some.inj hr
    have : l = 0 ∨ l = 1 := by change l < 2 at hl; omega
    rcases this with rfl | rfl <;> decide
  · intro r hr
    obtain rfl : _ = r := Option.some.inj hr
    refine ⟨by decide, fun l hl => ?_⟩
    have : l = 0 ∨ l = 1 := by change l < 2 at hl; omega
    rcases this with rfl | rfl <;> decide
  · have h : (match checkNow classMem (isleOwner classMem 3 0) Config.cores 0x10400 4 .loadNoKey,
        checkNow classMem (isleOwner classMem 3 0) Config.cores 0x10400 4 .storeNoKey with
      | .ok q, .ok _ => decide ((q.key = 0 ∧ q.pa % 32 + 4 ≤ 32) ∧ q.pa / 32 ∉ classMem.poison ∧ q.pa / 32 ∉ classMem.refused)
      | _, _ => false) = true := by decide +kernel
    split at h
    · rename_i q q' h1 h2
      have h := of_decide_eq_true h
      exact ⟨q, q', h1, h2, h.1, h.2⟩
    · cases h

/-- The right triangle of `coarsing` reaches the one tile of a target of one pixel; a record out of range; one without area. -/
def coarseWordsOf : List Word := [0, 0, 0, 4096, 4096, 0, 0, 0]
def coordOf (j i : Nat) : Int := signed 32 (coarseWordsOf.getD (2 * i + j) 0).toNat

theorem coordIn_of {w : Word} (h : -8388608 ≤ signed 32 w.toNat ∧ signed 32 w.toNat ≤ 8388608) : coordIn w := h

theorem reaches_first (e : Nat) (he : e < 3) : reaches (coordOf 0) (coordOf 1) e (0, 0) := by
  have : e = 0 ∨ e = 1 ∨ e = 2 := by omega
  rcases this with rfl | rfl | rfl <;> exact ⟨0, 0, by decide, by decide, .inl (by decide +kernel)⟩

theorem test_hyp_CoarseAnswers :
    ((getIsle coarsing 0 0).pass = some (passStart 0 0 0) ∧ (passStart 0 0 0).desc.getLsbD 0 = false ∧
      (passStart 0 0 0).desc.extractLsb' 320 49 = 0) ∧
    ¬coarseGood (fun i => [0x7FFFFFFF, 0, 0, 0, 0, 0, 0, 0].getD i 0) ∧ coarseGood (fun i => coarseWordsOf.getD i 0) ∧
    coarseGood (fun _ => 0) ∧ triArea (fun _ => 0) (fun _ => 0) = 0 ∧ triArea (coordOf 0) (coordOf 1) ≠ 0 ∧
    coarseWordsOf.getD 7 0 = 0 ∧ triTiles [(0, 0)] (coordOf 0) (coordOf 1) 1 1 := by
  refine ⟨by decide +kernel, fun h => absurd (h.1 0 (by decide)).2 (by decide), ⟨?_, by decide⟩, ⟨fun _ _ => coordIn_of (w := 0) (by decide), by decide⟩, by decide,
    by decide +kernel, rfl, List.pairwise_singleton .., fun t => ⟨fun ht => ?_, fun ht => ?_⟩⟩
  · intro i hi
    have : i = 0 ∨ i = 1 ∨ i = 2 ∨ i = 3 ∨ i = 4 ∨ i = 5 := by omega
    rcases this with rfl | rfl | rfl | rfl | rfl | rfl <;> exact coordIn_of (by decide)
  · obtain rfl := List.mem_singleton.1 ht
    exact ⟨by decide, by decide, fun e he => reaches_first e he⟩
  · obtain ⟨x, y⟩ := t
    have h : x = 0 ∧ y = 0 := by
      obtain ⟨h1, h2, -⟩ := ht
      simp only at h1 h2
      omega
    simp [h.1, h.2]

/-- A cell of full cover; an immediate pass of one pixel with no path open; the line from (0, 0) to (0, 1/2) pixels. -/
def pathOne : PathAcc := ⟨0, [⟨0, 0, 7864320, 7864320⟩], [], false⟩
def pathing : State := isled (.group 0 0) { raster0 both with
  pass := some (passStart 0 0 0) } .empty .empty []
/-- A part of no bytes of the pool is left alone. -/
theorem poolSpoil_none (s : State) (ctx : Nat) (d : BitVec 512) (off : Nat) : poolSpoil s ctx d off 0 = .ok s := by
  have h : ∀ a n k, ((upto a n).filter fun i => decide (0 ≠ 0 ∧ 4096 * i < k)) = [] := by simp
  simp only [poolSpoil, poolWrite, poolCheck, Nat.zero_sub, List.take_zero, List.length_nil, h]
  rfl

theorem pathing_room : pathRoom pathing 0 0 = .ok pathing := by
  have : (getIsle pathing 0 0).pass = some (passStart 0 0 0) := by decide +kernel
  have h1 : min (pathsHold (getIsle pathing 0 0) (passStart 0 0 0).desc) (usablePool (passStart 0 0 0).desc) = 0 := by decide +kernel
  have h2 : (pathAt (getIsle pathing 0 0) 0).drop = false := by decide +kernel
  have h3 : ¬(usablePool (passStart 0 0 0).desc < 64 * (passStart 0 0 0).bins.length + pathsHold (getIsle pathing 0 0) (passStart 0 0 0).desc
    ∧ (passStart 0 0 0).bins ≠ []) := by decide +kernel
  have h4 : ¬usablePool (passStart 0 0 0).desc < pathNeed (pdW (passStart 0 0 0).desc) (pdH (passStart 0 0 0).desc)
    (pathAt (getIsle pathing 0 0) 0).cells := by decide +kernel
  simp only [pathRoom, this, h1, h2, if_neg h3, if_neg h4, Nat.zero_min, Nat.sub_self, poolSpoil_none, Bool.false_eq_true, if_false]

def lineWords : List Word := [0, 9, 0, 0, 0, 128, 0, 0]

theorem test_hyp_PathAnswers :
    (∀ n, ¬pathGood (fun _ => 1) n) ∧ pathGood (fun i => lineWords.getD i 0) 2 ∧
    ((pathAt (getIsle pathing 0 0) 0).drop = false ∧ (getIsle pathing 0 0).pass = some (passStart 0 0 0)) ∧
    pathGood (fun i => [0xC0000000, 9, 0, 0, 0, 0, 0, 0].getD i 0) 0 ∧ pathRoom pathing 0 0 = .ok pathing ∧ (pathAt (getIsle pathing 0 0) 0).cells = [] ∧
    (∀ t, t ∈ ([] : List (Nat × Nat)) ↔ ∃ i, i < 64 ∧ pixelCover [] 1 1 false t i ≠ 0) ∧
    (∀ t, t ∈ [(0, 0)] ↔ ∃ i, i < 64 ∧ pixelCover pathOne.cells 1 1 false t i ≠ 0) := by
  refine ⟨fun n h => absurd h.1 (by decide), ⟨by decide, by decide, fun _ => by decide, ?_, ?_⟩, by decide +kernel,
    ⟨by decide, by decide, fun h => absurd rfl h, fun i hi => absurd hi (by omega), ?_⟩, pathing_room, by decide +kernel,
    fun t => ⟨fun ht => absurd ht List.not_mem_nil, fun ⟨i, hi, h⟩ => ?_⟩, fun t => ⟨fun ht => ?_, fun ht => ?_⟩⟩
  · intro i hi
    have : i = 0 ∨ i = 1 ∨ i = 2 ∨ i = 3 := by omega
    rcases this with rfl | rfl | rfl | rfl <;> exact coordIn_of (by decide)
  · intro i h1 h2
    have : i = 4 ∨ i = 5 ∨ i = 6 ∨ i = 7 := by omega
    rcases this with rfl | rfl | rfl | rfl <;> rfl
  · intro i h1 h2
    have : i = 0 ∨ i = 1 ∨ i = 2 ∨ i = 3 ∨ i = 4 ∨ i = 5 ∨ i = 6 ∨ i = 7 := by omega
    rcases this with rfl | rfl | rfl | rfl | rfl | rfl | rfl | rfl <;> rfl
  · refine absurd ?_ h
    unfold pixelCover
    dsimp only
    split
    · exact (rfl : coverOf 0 false = 0)
    · rfl
  · obtain rfl := List.mem_singleton.1 ht
    exact ⟨0, by decide, by decide +kernel⟩
  · obtain ⟨i, -, hi⟩ := ht
    obtain ⟨x, y⟩ := t
    by_cases h : 8 * x + i % 8 < 1 ∧ 8 * y + i / 8 < 1
    · have : x = 0 ∧ y = 0 := by omega
      simp [this.1, this.2]
    · exact absurd (if_neg h) hi

/-! ### Hypotheses: events of islands -/

/-- An ILOAD of 64 zero bytes waits; an island is loading; a response waits; a fault stands. -/
def iloadOp : Op := opOf (.iload c0 3 1 0xD0 8 0) (.iload 0 0 0x10000 64 (List.replicate 64 0) false none none) [] [(3, 0, 0)]
def loading : State := isled (.lead 0) { Island.empty with
  owner := some 0, loading := some (imgOf 1 []) } .empty .empty []
def answering : State := isled (.lead 0) { raster0 both with
  resps := [⟨0, none, 0, 0, 0, [List.replicate 16 7]⟩] } .empty .empty []

theorem test_hyp_IslandEventsAct :
    (oldestIload (busy iloadOp) 0 = some (.lead 0, iloadOp) ∧
      imageStatus 0 0x10000 64 (List.replicate 64 0) false (Tab.find (getCtx (busy iloadOp) 0).images 0) = 1) ∧
    (getIsle loading 0 0).loading = some (imgOf 1 []) ∧
    (deliverable answering 0 0 = [(0, ⟨0, none, 0, 0, 0, [List.replicate 16 7]⟩)] ∧
      outBinding (getIsle answering 0 0) 0 0 = some (bindOf 1 4 1 0 0) ∧
      (getIsle answering 0 0).binds.find? (fun y => y.id == 0) = some (bindOf 0 5 0 0 0) ∧
      (getQueue answering 0 4).any (fun z => !z.cclosed) = true) ∧
    ((getIsle (faulty (.lead 0)) 0 0).fault = some ifault0 ∧ ifault0.raised = false) := by decide +kernel

/-! ### Hypotheses: host, launches, HKC -/

/-- A READY device with context 0 ACTIVE, 1 GiB of memory and a sound KDU, whose lead has trapped and escalated. -/
def ctx0 : Context := { Context.free with st := 1 }
def hosted (x : Context) : State := { mapped (withTeam trapped (.lead 0)) with
  ready := true, ctxs := [(0, x)], dev := (0x8, 2) :: (mapped gst).dev }

theorem test_hyp_HostRegistersAct :
    ((hosted ctx0).ready = true ∧ (getCtx (hosted ctx0) 0).st ≠ 0 ∧ (getCtx (hosted ctx0) 0).tlbinv = none) ∧
    (∃ s : State, s.ready = true ∧ cfgEn (lqCfg s 0 0) = true ∧ cfgValid (lqCfg s 0 0) = true ∧ 0 ∉ (getCtx s 0).lqErr ∧
      inRing s 0 0 (lqWr s 0 0) ≠ 0) ∧
    (Tab.find (getCtx (hosted { ctx0 with lqNext := [(0, 0x12)] }) 0).lqNext 0 = some 0x12 ∧
      inRing (hosted { ctx0 with lqNext := [(0, 0x12)] }) 0 0 0 = 0) ∧
    (∃ s : State, s.ready = true ∧ ¬ (cfgEn (lqCfg s 0 0) = true ∧ cfgValid (lqCfg s 0 0) = true ∧ inRing s 0 0 (lqWr s 0 0) ≠ 0)) ∧
    State.reset.ready = false ∧
    (getCtx (hosted { ctx0 with tlbinv := some 0x8000000000001000 }) 0).tlbinv = some 0x8000000000001000 ∧
    ((getCtx (hosted { ctx0 with escalations := [⟨0, trap0, 0, false⟩] }) 0).escalations = ⟨0, trap0, 0, false⟩ :: [] ∧
      trap0.src = .party (.lead 0) ∧ (0x100 : DWord).toNat % 4 = 0 ∧ (0x100 : DWord).toNat.testBit 8 = true ∧
      (getCom (hosted ctx0) (.lead 0)).any (fun m => decide (m.defer = none ∧ m.st = .trapped)) = true ∧
      trap0.info.code ≠ tcBound ∧
      (getCom (hosted ctx0) (.lead 0)).any (fun m => !m.late) = true ∧
      (getCtx (hosted { ctx0 with escalations := [⟨0, trap0, 0, true⟩] }) 0).escalations = ⟨0, trap0, 0, true⟩ :: [] ∧
      getTeam (hosted { ctx0 with escalations := [⟨0, trap0, 0, true⟩] }) (Config.handlerBase + 0) = none ∧
      (0x102 : DWord).toNat % 4 = 2 ∧ (0x102 : DWord).toNat.testBit 8 = true ∧ (getTeam (hosted ctx0) trap0.team).isSome = true) ∧
    ((getCtx (hosted ctx0) 0).reserve = none ∧ displayHead (hosted ctx0) 0 = none ∧ (getCtx (hosted ctx0) 0).reserved = []) := by
  refine ⟨by decide +kernel, ⟨{ hosted ctx0 with page := [(0, 0x12), (8, 1)] }, by decide +kernel⟩, by decide +kernel,
    ⟨hosted ctx0, by decide +kernel⟩,
    by decide +kernel, by decide +kernel, by decide +kernel, by decide +kernel⟩

/-- The places of a context's page in BAR0, of the device and of VF 2; what lies behind the pages; and no place of a VF is of
the device page. -/
theorem test_hyp_RegisterPages :
    atPage (hosted ctx0) .pf 0x150000 5 0 ∧ atPage (hosted ctx0) .pf 0x6FFFF8 95 0xFFF8 ∧ 0x700000 ≤ (0x700000 : Nat) ∧
    (∃ s : State, s.ready = true ∧ s.vfs = 2 ∧ atPage s (.vf 2) 0x110 66 0x110) :=
  ⟨⟨by decide, by decide, .inl (by decide)⟩, ⟨by decide, by decide, .inl (by decide)⟩, by decide,
    ⟨{ hosted ctx0 with vfs := 2 }, rfl, rfl, by decide, by decide, .inr ⟨2, by decide⟩⟩⟩

theorem test_hyp_DeviceEventsAct :
    (hosted ctx0).ready = true ∧ State.reset.ready = false ∧ memCap (hosted ctx0) ≤ 2 ^ 45 ∧ isSys (2 ^ 45) = true ∧
    ({ hosted ctx0 with vfs := 1, ctxs := [(65, ctx0)] }.vfs = 1 ∧
      (getCtx { hosted ctx0 with vfs := 1, ctxs := [(65, ctx0)] } (64 + 1)).st ≠ 0) ∧
    ((2 : BitVec 4).toNat ≤ 9 ∧ 0x10000 % 4 = 0 ∧ 0x10000 + 4 ≤ memCap (hosted ctx0) ∧ 0x10000 / 32 ∉ (hosted ctx0).poison ∧
      atomicQueue (hosted ctx0) 0x10000 = []) ∧
    ((∀ c ∈ [0], c < 80) ∧ revokeOrder (hosted ctx0) [0] = true) := by decide +kernel

/-- A command that runs for context 0, its argument at 0x10000. -/
def commanded (code st : Nat) (begun : Bool) (result : Option Nat) : State := { hosted { ctx0 with st := st } with
  command := some ⟨code, 0, 0x10000, begun, result⟩ }

theorem test_hyp_ContextCommandsAct :
    (Asked (commanded 1 1 false none) 1 0 ⟨1, 0, 0x10000, false, none⟩ ∧
      asksState 1 (getCtx (commanded 1 1 false none) 0).st = false ∧ kduGood (commanded 1 1 false none) = true) ∧
    (∃ s : State, Asked s 1 0 ⟨1, 0, 0x10000, false, none⟩ ∧ kduGood s = false) ∧
    (Asked (commanded 1 0 false none) 1 0 ⟨1, 0, 0x10000, false, none⟩ ∧ (getCtx (commanded 1 0 false none) 0).st = 0 ∧
      (physRead (commanded 1 0 false none) 0x10000 9).any (fun l => decide (argNum l 8 1 = 0)) = true ∧
      kduGood (commanded 1 0 false none) = true ∧ freeSlots (commanded 1 0 false none) 0 = some []) ∧
    (Asked (commanded 2 1 false none) 2 0 ⟨2, 0, 0x10000, false, none⟩ ∧ (getCtx (commanded 2 1 false none) 0).st ≠ 0) ∧
    (∃ s : State, Asked s 3 0 ⟨3, 0, 0x10000, false, none⟩ ∧ (physRead s 0x10000 44).any (fun l =>
      decide (192 ≤ argNum l 40 4 ∧ argNum l 40 4 < 384 ∧ argNum l 32 8 + 192 ≤ memCap s)) = true ∧ memCap s ≤ 2 ^ 45) ∧
    (Asked (commanded 3 1 false none) 3 0 ⟨3, 0, 0x10000, false, none⟩ ∧
      (physRead (commanded 3 1 false none) 0x10000 44).any (fun l => decide (argNum l 40 4 < 192)) = true) ∧
    (Asked (commanded 8 2 false none) 8 0 ⟨8, 0, 0x10000, false, none⟩ ∧ (getCtx (commanded 8 2 false none) 0).st = 2 ∧
      freeSlots (commanded 8 2 false none) (getCtx (commanded 8 2 false none) 0).nkeys = some []) ∧
    (commanded 1 1 false (some 0)).command = some ⟨1, 0, 0x10000, false, some 0⟩ := by
  have a : ∀ (code st : Nat), Asked (commanded code st false none) code 0 ⟨code, 0, 0x10000, false, none⟩ :=
    fun code st => ⟨rfl, rfl, rfl, by decide, rfl⟩
  refine ⟨⟨a 1 1, by decide +kernel⟩,
    ⟨{ commanded 1 0 false none with dev := [] }, ⟨rfl, rfl, rfl, by decide, rfl⟩, by decide +kernel⟩, ⟨a 1 0, by decide +kernel⟩, ⟨a 2 1, by decide +kernel⟩,
    ⟨{ commanded 3 1 false none with mem := [(0x10028, 0xC0)] }, ⟨rfl, rfl, rfl, by decide, rfl⟩, by decide +kernel⟩,
    ⟨a 3 1, by decide +kernel⟩, ⟨a 8 2, by decide +kernel⟩, by decide +kernel⟩

/-- An image that this device made, with an empty header. -/
def image0 : Exported :=
  { header := [], dest := Config.sm2Public atstKey, source := 0, tenant := 5, period := 0, nkeys := 0, key := [], pages := [],
    teams := [], insts := [], launches := [], saves := [], heads := [], last := [] }

theorem test_hyp_ContextsMoveAndLoad :
    (Asked (commanded 4 1 false none) 4 0 ⟨4, 0, 0x10000, false, none⟩ ∧ (getCtx (commanded 4 1 false none) 0).st = 1 ∧
      (physRead (commanded 4 1 false none) 0x10000 88).isSome = true) ∧
    (∃ s : State, Asked s 4 0 ⟨4, 0, 0x10000, true, none⟩ ∧ residentTeams s 0 ≠ [] ∧
      ∀ y ∈ residentTeams s 0, y.2.preempt = true) ∧
    (∃ s : State, Asked s 4 0 ⟨4, 0, 0x10000, true, none⟩ ∧ residentTeams s 0 = [] ∧ (physRead s 0x10000 88).isSome = true) ∧
    (∃ s : State, Asked s 5 0 ⟨5, 0, 0x10000, false, none⟩ ∧ (getCtx s 0).st = 0 ∧ kduGood s = true ∧
      (physRead s 0x10000 16).any (fun l => decide (argNum l 0 8 = 0 ∧ argNum l 8 8 = 0)) = true ∧
      imageAt s 0 = some image0 ∧ freeSlots s image0.nkeys = some [] ∧ image0.pages = [] ∧ physOk s 0 64 = true) ∧
    (Asked (commanded 6 2 false none) 6 0 ⟨6, 0, 0x10000, false, none⟩ ∧ (getCtx (commanded 6 2 false none) 0).st = 2 ∧
      (physRead (commanded 6 2 false none) 0x10000 16).any (fun l => decide (argNum l 0 8 = 0 ∧ argNum l 8 8 = 0)) = true ∧
      (physRead (commanded 6 2 false none) 0 64).isSome = true ∧ physOk (commanded 6 2 false none) 0 64 = true) ∧
    (Asked (commanded 7 3 false none) 7 0 ⟨7, 0, 0x10000, false, none⟩ ∧ (getCtx (commanded 7 3 false none) 0).st = 3 ∧
      (physRead (commanded 7 3 false none) 0x10000 8).any (fun l => decide (argNum l 0 8 = 0)) = true ∧
      (physRead (commanded 7 3 false none) 0 64).isSome = true) ∧
    (Asked (commanded 9 1 false none) 9 0 ⟨9, 0, 0x10000, false, none⟩ ∧ (getCtx (commanded 9 1 false none) 0).st = 1 ∧
      (physRead (commanded 9 1 false none) 0x10000 40).isSome = true) := by
  have a : ∀ (code st : Nat), Asked (commanded code st false none) code 0 ⟨code, 0, 0x10000, false, none⟩ :=
    fun code st => ⟨rfl, rfl, rfl, by decide, rfl⟩
  refine ⟨⟨a 4 1, by decide +kernel⟩,
    ⟨{ commanded 4 1 true none with teams := [(0, { team0 with preempt := true })] }, ⟨rfl, rfl, rfl, by decide, rfl⟩,
      by decide +kernel⟩,
    ⟨{ commanded 4 1 true none with teams := [] }, ⟨rfl, rfl, rfl, by decide, rfl⟩, by decide +kernel⟩,
    ⟨{ commanded 5 0 false none with exports := [image0] }, ⟨rfl, rfl, rfl, by decide, rfl⟩, by decide +kernel, by decide +kernel,
      by decide +kernel, ?_, by decide +kernel, rfl, by decide +kernel⟩,
    ⟨a 6 2, by decide +kernel⟩, ⟨a 7 3, by decide +kernel⟩, ⟨a 9 1, by decide +kernel⟩⟩
  unfold imageAt
  have : ({ commanded 5 0 false none with exports := [image0] }.exports.find? fun e =>
      cellsGet { commanded 5 0 false none with exports := [image0] }.mem 0 e.header.length == e.header) = some image0 := rfl
  rw [this]
  exact if_pos rfl

/-- A second-stage EXPORT of context 0, whose argument block names the range list at 0. -/
def exportAsked : State := { commanded 4 1 true none with teams := [] }

/-- EXPORT's second stage where no range is named and the header is empty, as Config may have it. -/
theorem test_hyp_export (hr : ∀ l, Config.rangeList l = some []) (hh : ∀ s d, imageHead s 0 d [] = []) :
    ∃ (x : Command) (l r : List Byte), Asked exportAsked 4 0 x ∧ x.begun = true ∧ residentTeams exportAsked 0 = [] ∧
      physRead exportAsked x.arg 88 = some l ∧ physRead exportAsked (argNum l 64 8) 4096 = some r ∧ Config.rangeList r = some [] ∧
      exportPages exportAsked 0 [] = some [] ∧ (imageHead exportAsked 0 (BitVec.ofNat 512 (argNum l 0 64)) []).length % 32 = 0 ∧
      (imageBytes exportAsked 0 (BitVec.ofNat 512 (argNum l 0 64)) [] []).length ≤ argNum l 80 8 ∧
      argNum l 72 8 + (imageBytes exportAsked 0 (BitVec.ofNat 512 (argNum l 0 64)) [] []).length ≤ memCap exportAsked ∧
      memCap exportAsked ≤ 2 ^ 45 := by
  have hb : (physRead exportAsked 0 4096).isSome = true := by decide +kernel
  obtain ⟨r, hb⟩ := Option.isSome_iff_exists.mp hb
  refine ⟨_, List.replicate 88 0, r, ⟨rfl, rfl, rfl, by decide, rfl⟩, rfl, by decide +kernel, by decide +kernel, ?_, hr r,
    by decide +kernel, by rw [hh]; rfl, ?_, ?_, by decide +kernel⟩
  · rw [show argNum (List.replicate 88 (0 : Byte)) 64 8 = 0 by decide +kernel]
    exact hb
  all_goals
    simp only [imageBytes, hh]
    decide +kernel

/-- KESLOAD of kernel 0 of an image at 0x1000, through a cache area at 0x10000 that is empty. -/
def kesState : State := { commanded 9 1 false none with
  command := some ⟨9, 0, 0x10800, false, none⟩
  mem := [(0x1000, 0x4B), (0x1001, 0x45), (0x1002, 0x53), (0x1003, 0x52), (0x1004, 1), (0x1006, 1), (0x1010, 0x40), (0x1044, 8),
    (0x10801, 0x10), (0x1080A, 3), (0x10812, 1), (0x10819, 0x40), (0x10820, 0x40), (0x10821, 8), (0x10822, 1)] }
def kesArgs : List Byte := (physRead kesState 0x10800 40).getD []
def kesBytesOf : List Byte := (kesRead kesState 0 0x1000 192).getD []

/-- The image read is `l`. -/
def readsImage (r : Except Nat (List Byte)) (l : List Byte) : Bool :=
  match r with
  | .ok a => a == l
  | .error _ => false

theorem readsImage_spec {r : Except Nat (List Byte)} {l : List Byte} (h : readsImage r l = true) : r = .ok l := by
  unfold readsImage at h
  split at h
  · simp_all
  · cases h

theorem test_hyp_kesload (h1 : ∀ l, Config.kesBytes l = 192) :
    Loads kesState 0 ⟨9, 0, 0x10800, false, none⟩ kesArgs kesBytesOf (kesJob kesState kesArgs kesBytesOf) ∧
      walkArea (kesTaken kesState 0 kesArgs) 0 kesArgs (kesJob kesState kesArgs kesBytesOf) = some ([], 0, none) := by
  refine ⟨⟨⟨rfl, rfl, rfl, by decide, rfl⟩, by decide +kernel, by decide +kernel, by decide +kernel, ?_, ?_, rfl⟩, ?_⟩
  · simp only [kesImage, h1]
    exact readsImage_spec (by decide +kernel)
  · decide +kernel
  · simp only [walkArea, kesTaken, kesReads, kesImage, h1]
    decide +kernel

/-- A launch of context 0 on queue 0: one team of one group, width 16, 8 pool units of registers and of scratchpad, 64 bytes
of registers a lane, `PRIO` 1; one wait of scope 4 at 0x1000 for 0. -/
def launch0 : Launch :=
  { ctx := 0, queue := 0, index := 0, va := 0x1000, header := List.replicate 76 0, placed := 0, retired := 0, killed := 0,
    published := [], released := true, producer := none, code := 0, reason := 0, ended := false, tokenErr := false, cores := []
    packet := BitVec.ofNat 1024 (2 ^ 165 + 2 ^ 192 + 2 ^ 208 + 2 ^ 224 + 2 ^ 256 + 2 ^ 264 + 2 ^ 291 + 2 ^ 298 + 0xFF * 2 ^ 320 +
      0x1000 * 2 ^ 512 + 4 * 2 ^ 561) }

def launching (x : Launch) (ts : Tab Team) (cs : Tab Core) : State := { hosted { ctx0 with heads := [(0, 0)] } with
  launches := [(0, x)], nextLaunch := 1, teams := ts, cores := cs, page := [(0, 0x12), (8, 1), (0x100, 0xFFFF50)] }

theorem test_hyp_LaunchesRunAndEnd_1 :
    (∃ s : State, packetDue s 0 0 = true) ∧
    (getLaunch (launching { launch0 with released := false } [] []) 0 = some { launch0 with released := false } ∧
      pkWaits launch0 = [(4, 0x1000, 0)] ∧
      (pkWaits launch0).map (fun w => tokenAt (launching { launch0 with released := false } [] []) 0 w.2.1) = [0].map some) ∧
    (turns (launching launch0 [] []) = (0, launch0) :: [] ∧ (getCtx (launching launch0 [] []) launch0.ctx).st = 1 ∧
      exporting (launching launch0 [] []) 0 = false ∧ launchCores launch0 = false ∧ savedItems (launching launch0 [] []) 0 = [] ∧
      freshItems (launching launch0 [] []) 0 launch0 ≠ [] ∧ launchPipe launch0 = false ∧
      budgetCores (launching launch0 [] []) launch0 ≠ 0 ∧ (placeHomes (launching launch0 [] []) 0 launch0 .fresh).isSome = true) ∧
    (∀ x ∈ turns State.reset, tryLaunch State.reset x.1 x.2 = none) ∧
    ((getCore (launching launch0 [] [(0, { Core.reset with zeroing := true })]) 0).zeroing = true) ∧
    ((tenancyOf (launching launch0 [] [(0, { Core.reset with copying := true, tenant := some (0, 0) })]) 0) = some (0, launch0) ∧
      (getCore (launching launch0 [] [(0, { Core.reset with copying := true, tenant := some (0, 0) })]) 0).copying = true) := by
  refine ⟨⟨{ launching launch0 [] [] with ctxs := [(0, ctx0)] }, by decide +kernel⟩, by decide +kernel, by decide +kernel,
    by decide +kernel, by decide +kernel, by decide +kernel⟩

/-- The team before it starts, and when its lead and groups have exited. -/
def waitingTeam : Team := { team0 with started := false }
def endedTeam : Team := { team0 with
  groups := [], lead := { team0.lead with com := exitCommon Common.start } }

theorem test_hyp_LaunchesRunAndEnd_2 :
    (getTeam (launching launch0 [(0, waitingTeam)] []) 0 = some waitingTeam ∧ (∀ c ∈ teamCores waitingTeam,
      (getCore (launching launch0 [(0, waitingTeam)] []) c).zeroing = false ∧
      (getCore (launching launch0 [(0, waitingTeam)] []) c).copying = false) ∧ teamOps waitingTeam = []) ∧
    (getTeam (launching launch0 [(0, endedTeam)] []) 0 = some endedTeam ∧
      mayRetire (launching launch0 [(0, endedTeam)] []) 0 endedTeam = true ∧
      getLaunch (launching launch0 [(0, endedTeam)] []) endedTeam.launch = some launch0) ∧
    (getLaunch (launching { launch0 with code := 2 } [] []) 0 = some { launch0 with code := 2 } ∧
      getLaunch (launching { launch0 with placed := 1, retired := 1 } [] []) 0 = some { launch0 with placed := 1, retired := 1 } ∧
      { launch0 with placed := 1, retired := 1 }.retired = launchTotal launch0) := by decide +kernel

/-- All parties of a team have stopped for pre-emption. -/
def stopped (c : Common) : Common := { c with st := .stopped }
def haltedTeam : Team := { team0 with
  preempt := true, lead := { team0.lead with com := stopped team0.lead.com }
  groups := team0.groups.map fun g => (g.1, { g.2 with com := stopped g.2.com }) }
def halting (size : DWord) : State := { hosted { ctx0 with force := [(0x328, size)] } with teams := [(0, haltedTeam)] }

/-- Stage 0 has two groups that wait for queue 0 at a QPOP, stage 1 one group and a queue that is full. -/
def popper (slot : Nat) : Group := { startGroup 32 0 0 slot 0 0 0 with
  com := { Common.start with stall := some .queueEmpty } }
def stageTeam (j : Nat) (g : Tab Group) : Team := { team0 with stage := j, inst := 7, groups := g }
def donorStage : Stage := ⟨2, 1, 2, some 0, 0, 0, false⟩
def otherStage : Stage := ⟨1, 1, 2, some 1, 1, 0x40, false⟩
def inst7 : Instance := ⟨0, false, [(0, ⟨declOf 1 1 1 0 1 4, [], false, false, []⟩),
  (1, ⟨declOf 1 0 1 1 1 4, List.replicate 4 (recOf true [1]), false, false, []⟩)], [(0, donorStage), (1, otherStage)], [1], true⟩
def rebalancing : State := { hosted ctx0 with
  teams := [(0, stageTeam 0 [(0, popper 0), (1, popper 1)]), (1, stageTeam 1 [(0, startGroup 32 0 1 0 0 0 0x40)])]
  insts := [(7, inst7)], fbuf := [⟨0, 0, 0, oneLine ((encode (.qpop c0 3 0 0xB1)).getD 0) false, false⟩] }

theorem test_hyp_TeamsAreSavedAndRebalanced :
    (getTeam (halting 0x400000) 0 = some haltedTeam ∧ isHandler 0 = false ∧
      (∀ x ∈ instTeams (halting 0x400000) haltedTeam.inst, teamHalted (halting 0x400000) x.1 x.2 = true) ∧ haltedTeam.region = none ∧
      teamOps haltedTeam = [] ∧
      2654208 * max 1 (maxOf ((upto 0 4).map fun b => (pageReg (halting 0x400000) 0 (0x100 + 8 * b)).toNat % 256) 0) ≤
        forceReg (halting 0x400000) 0 0x328) ∧
    ((∀ x ∈ instTeams (halting 0) haltedTeam.inst, teamHalted (halting 0) x.1 x.2 = true) ∧ forceReg (halting 0) 0 0x328 < 4096 ∧
      ∀ x ∈ instTeams (halting 0) haltedTeam.inst, teamOps x.2 = []) ∧
    (getInst rebalancing 7 = some inst7 ∧ instTeams rebalancing 7 ≠ [] ∧
      (∀ t ∈ instTeams rebalancing 7, t.2.resident = true ∧ t.2.preempt = false)) ∧
    ((inst7.stages.map (·.2)).find? (donor rebalancing inst7) = some donorStage ∧
      (inst7.stages.map (·.2)).find? (recipient rebalancing inst7) = some otherStage ∧
      ((stageTeam 0 [(0, popper 0), (1, popper 1)]).groups.filter fun y => y.2.core == 0 && y.2.part == 0 &&
        idleAt rebalancing 0 y.1 0 0 y.2).getLast? = some (1, popper 1)) := by
  refine ⟨by decide +kernel, by decide +kernel, by decide +kernel, by decide +kernel⟩

/-! ### Worked examples of the manual, one step each -/

/-- A group with vector registers set alike in every lane; a lead with scalar registers set. -/
def vst (l : List (Nat × Word)) : State := withTeam { team0 with
  groups := team0.groups.map fun g => (g.1, { g.2 with
    v := l.flatMap fun x => (upto 0 32).map fun j => (x.1 * 64 + j, x.2) }) } (.group 0 0)
def sst (l : Tab DWord) : State := withTeam { team0 with
  lead := { team0.lead with
    s := l } } (.lead 0)
def vAfter (i : Instr) (l : List (Nat × Word)) (r : Nat) : Nat := regAt (after i (vst l)) (.group 0 0) (r * 64)
def sAfter (i : Instr) (l : Tab DWord) (r : Nat) : Nat := regAt (after i (sst l)) (.lead 0) (r * 64)

/-- R416: saturation; both shapes of IMADW; IDOT4. -/
theorem test_iadd_sat : vAfter (.iadd c0 3 1 (.reg 2) 1) [(1, 0x7FFFFFFF), (2, 1)] 3 = 0x7FFFFFFF := by decide +kernel
theorem test_isub_usat : vAfter (.isub c0 3 1 (.reg 2) 2) [(1, 3), (2, 5)] 3 = 0 := by decide +kernel
theorem test_imadw_signed : (vAfter (.imadw c0 8 1 (.reg 2) 4 false) [(1, 0xFFFFFFFF), (2, 0xFFFFFFFF), (4, 1), (5, 0)] 8,
    vAfter (.imadw c0 8 1 (.reg 2) 4 false) [(1, 0xFFFFFFFF), (2, 0xFFFFFFFF), (4, 1), (5, 0)] 9) = (2, 0) := by decide +kernel
theorem test_imadw_unsigned : (vAfter (.imadw c0 8 1 (.reg 2) 4 true) [(1, 0xFFFFFFFF), (2, 0xFFFFFFFF), (4, 1), (5, 0)] 8,
    vAfter (.imadw c0 8 1 (.reg 2) 4 true) [(1, 0xFFFFFFFF), (2, 0xFFFFFFFF), (4, 1), (5, 0)] 9) = (2, 0xFFFFFFFE) := by
  decide +kernel
theorem test_idot4 : vAfter (.idot4 c0 4 1 (.reg 2) 0xD0 false false) [(1, 0x010203FF), (2, 0x01010101)] 4 = 5 ∧
    vAfter (.idot4 c0 4 1 (.reg 2) 0xD0 true false) [(1, 0x010203FF), (2, 0x01010101)] 4 = 261 := by decide +kernel
/-- R385, R388: bit fields of group registers. -/
theorem test_bfx : vAfter (.bfx c0 2 1 (.imm 0x0C04) false) [(1, 0x0000ABCD)] 2 = 0x00000ABC ∧
    vAfter (.bfx c0 2 1 (.imm 0x0C04) true) [(1, 0x0000ABCD)] 2 = 0xFFFFFABC := by decide +kernel
theorem test_bfi : vAfter (.bfi c0 3 1 (.imm 0x0804) 4) [(1, 0x000000A5), (4, 0xFFFFFFFF)] 3 = 0xFFFFFA5F := by decide +kernel
theorem test_brev : vAfter (.brev c0 3 1) [(1, 1)] 3 = 0x80000000 := by decide +kernel
theorem test_clz : vAfter (.clz c0 3 1) [(1, 0x1000)] 3 = 19 ∧ vAfter (.clz c0 3 1) [(1, 0)] 3 = 32 := by decide +kernel
theorem test_funl : vAfter (.funl c0 2 1 (.imm 8) 3) [(1, 0x89ABCDEF), (3, 0x01234567)] 2 = 0x6789ABCD := by decide +kernel
/-- Shifts by 4, 40 and more. -/
theorem test_sar : vAfter (.sar c0 2 1 (.imm 4)) [(1, 0x80000010)] 2 = 0xF8000001 ∧
    vAfter (.sar c0 2 1 (.imm 40)) [(1, 0x80000010)] 2 = 0xFFFFFFFF ∧
    vAfter (.shr c0 2 1 (.imm 40)) [(1, 0x80000010)] 2 = 0 := by decide +kernel
theorem test_shl_lead : sAfter (.shl c0 1 2 (.imm 0xFFFFFFFF)) [(2, 5)] 1 = 0 ∧
    sAfter (.shl c0 1 2 (.imm 40)) [(2, 1)] 1 = 0x0000010000000000 := by decide +kernel
/-- IMM32 is sign-extended in a lead. -/
theorem test_and_lead : sAfter (.bAnd c0 3 1 (.imm 0xFFFFF000)) [(1, 0x123456789ABCDEF0)] 3 = 0x123456789ABCD000 := by
  decide +kernel
/-- `LOCA.w v8, k2, v9, 2`. -/
theorem test_loca_w : (fun s => (regAt s (.group 0 0) (8 * 64), regAt s (.group 0 0) (9 * 64)))
    (after (.loca c0 8 0x82 (.reg 9) 2 true) (withTeam { team0 with
      groups := team0.groups.map fun g => (g.1, { g.2 with
        k := [(2, 0x1000), (3, 0x40)], v := (upto 0 32).map fun j => (9 * 64 + j, 0xFFFFFFFD) }) } (.group 0 0))) =
    (0x00000FF4, 0x00000040) := by decide +kernel
/-- RCP of 3.0 under RNE and RZ, LOG2 of 8.0, RSQ of 4.0. -/
theorem test_rcp : vAfter (.rcp c0 2 1 0 0) [(1, 0x40400000)] 2 = 0x3EAAAAAB ∧
    vAfter (.rcp c0 2 1 0 5) [(1, 0x40400000)] 2 = 0x3EAAAAAA := by decide +kernel
theorem test_log2 : vAfter (.log2 c0 2 1 0 0) [(1, 0x41000000)] 2 = 0x40400000 := by decide +kernel
theorem test_rsq : vAfter (.rsq c0 2 1 0 0) [(1, 0x40800000)] 2 = 0x3F000000 := by decide +kernel
/-- A load goes on with one lane per thread outstanding; a store stands in the write buffer. -/
theorem test_ld_outstanding : (((getCom (after (.ld c0 3 ⟨0x80, 0, 4, false, 0⟩ mo4 false) (mapped gst)) (.group 0 0)).map
    (·.ops)).map fun l => l.map fun o => o.lanes.length) = some [32] := by decide +kernel
theorem test_st_buffered : (after (.st c0 0x80 2 0 mo4) (mapped gst)).wb.map (fun x => (x.sector, x.mask)) =
    [(0x80, 0xF)] := by decide +kernel
/-- TRAP saves its PC and code; TRET with action 1 moves the trapped lead past its instruction. -/
theorem test_trap : ((getCom (after (.trap c0 7) lst) (.lead 0)).map fun c => (c.st, c.tcode, c.tdetail)) =
    some (.trapped, 0x30, 7) := by decide +kernel
theorem test_tret_skip : pcAt (after (.tret c0 1) (serving (.lead Config.handlerBase))) (.lead 0) 0 = 1 := by decide +kernel

end Sys2Proof.Tests
end

section
/-! O4: every step keeps the canonical form of memory. The operations that instructions and events call keep it by the
lemmas `_mem` and `_wf` of the model; here follow the fetch, the moulds that instructions share, the instructions and
events family by family, and the step. -/

namespace Sys2Proof.Machine

/-! ### Answers -/

/-- A next state, if the answer is one, has memory in its canonical form. -/
def KeepsForm (o : Host.Outcome State Fault Refusal) : Prop := ∀ t, o = .next t → Memory.wf t.mem = true

/-- The state that the body of an issue leaves, if it does not stop, has memory in its canonical form. -/
def BodyKeepsForm (x : Except Stop State) : Prop := ∀ t, x = .ok t → Memory.wf t.mem = true

theorem KeepsForm.next {t : State} (h : Memory.wf t.mem = true) : KeepsForm (.next t) := by
  rintro _ ⟨⟩
  exact h

theorem BodyKeepsForm.ok {t : State} (h : Memory.wf t.mem = true) : BodyKeepsForm (.ok t) := by
  rintro _ ⟨⟩
  exact h

/-- A body that stops leaves no state. -/
theorem BodyKeepsForm.stop {x : Stop} : BodyKeepsForm (.error x) := nofun

/-- The form does not depend on which of two states was chosen. -/
@[simp] theorem wf_mem_ite {c : Prop} [Decidable c] {s t : State} (hs : Memory.wf s.mem = true)
    (ht : Memory.wf t.mem = true) : Memory.wf (if c then s else t).mem = true := by
  split
  · exact hs
  · exact ht

theorem KeepsForm.ite {c : Prop} [Decidable c] {x y : Host.Outcome State Fault Refusal} (hx : KeepsForm x)
    (hy : KeepsForm y) : KeepsForm (if c then x else y) := by
  split
  · exact hx
  · exact hy

theorem BodyKeepsForm.ite {c : Prop} [Decidable c] {x y : Except Stop State} (hx : BodyKeepsForm x)
    (hy : BodyKeepsForm y) : BodyKeepsForm (if c then x else y) := by
  split
  · exact hx
  · exact hy

/-- An issue keeps the form where its body does: its checks and stalls leave memory alone. -/
theorem perform_keeps {i : Instr} {c : Ctl} {r : Rules} {s : State} {body : Env → Except Stop State}
    (hw : Memory.wf s.mem = true) (hb : ∀ e, Memory.wf e.s.mem = true → BodyKeepsForm (body e)) :
    KeepsForm (perform i c r s body) :=
  fun _ h => perform_wf hw (fun e t he ht => hb e he t ht) h

/-! ### Reads and draws that leave memory alone -/

theorem drawSalt_answer_mem {s t : State} {r} (h : drawSalt s = (t, r)) : t.mem = s.mem := by
  simpa [h] using drawSalt_mem s

theorem mcastRead_mem (s : State) (e : Env) (x : Xfer) (u : Nat) : (mcastRead s e x u).1.mem = s.mem := by
  unfold mcastRead
  split
  · exact unitRead_mem ..
  · exact foldl_fst_mem _ _ _ _ rfl fun a p => readSlice_mem (n := p.n) ..

@[simp] theorem mcastImage_mem (s : State) (e : Env) (x : Xfer) (us : List Nat) : (mcastImage s e x us).1.mem = s.mem :=
  foldl_fst_mem _ _ _ _ rfl fun _ _ => mcastRead_mem _ _ _ _

/-! ### The fetch -/

/-- The state that a try to issue leaves, whether it stopped or found its instruction. -/
def Issued.state : Issued → State
  | .stopped s => s
  | .run _ s => s

@[simp] theorem Issued.state_stopped (s : State) : (Issued.stopped s).state = s := rfl

@[simp] theorem Issued.state_run (i : Instr) (s : State) : (Issued.run i s).state = s := rfl

theorem Issued.mem_ite {c : Prop} [Decidable c] {x y : Issued} {m : List Host.Cell} (hx : x.state.mem = m)
    (hy : y.state.mem = m) : (if c then x else y).state.mem = m := by
  split
  · exact hx
  · exact hy

@[simp] theorem issueSlot_mem (s : State) (p : Party) (pc : DWord) (line : Nat) (entered arrived : Bool) :
    (issueSlot s p pc line entered arrived).state.mem = s.mem := by
  unfold issueSlot
  dsimp only
  split; · simp
  split; · simp
  split
  · exact Issued.mem_ite (by simp) (Issued.mem_ite (by simp) (by simp))
  · simp

theorem issueOf_mem (s : State) (p : Party) : (issueOf s p).state.mem = s.mem := by
  unfold issueOf
  split; · simp
  split
  · dsimp only
    split <;> simp
  · dsimp only
    split; · simp
    split; · simp
    next h => exact (issueSlot_mem ..).trans (fetchLine_mem _ _ _ _ h)

section
variable {s : State} (hw : Memory.wf s.mem = true)
include hw

/-! ### The moulds of the instructions -/

/-- A body that always goes on. -/
theorem perform_ok_keeps {i : Instr} {c : Ctl} {r : Rules} {f : Env → State}
    (hf : ∀ e, Memory.wf e.s.mem = true → Memory.wf (f e).mem = true) :
    KeepsForm (perform i c r s fun e => .ok (f e)) :=
  perform_keeps hw fun e he => .ok (hf e he)

theorem alu_keeps {i : Instr} {c : Ctl} {d a : Code} {b : Src} {more : List Code}
    {f : Nat → Nat → Nat → Nat → Nat} : KeepsForm (alu i c d a b more s f) :=
  perform_ok_keeps hw fun e he => by simp [he]

theorem alu1_keeps {i : Instr} {c : Ctl} {d a : Code} {f : Nat → Nat → Nat} : KeepsForm (alu1 i c d a s f) :=
  perform_ok_keeps hw fun e he => by simp [he]

theorem fpAlu_keeps {i : Instr} {c : Ctl} {d a : Code} {b : Src} {more : List Code} {ty : BitVec 2}
    {f : Env → Fp → Fp → Fp → FRes} : KeepsForm (fpAlu i c d a b more ty s f) :=
  perform_keeps hw fun e he _ h => fpFinish_wf e _ _ _ (fun _ _ => writeOut_wf _ _ _ _) h he

theorem fpUnary_keeps {i : Instr} {c : Ctl} {d a : Code} {ty : BitVec 2} {f : Env → Fp → FRes} :
    KeepsForm (fpUnary i c d a ty s f) :=
  perform_keeps hw fun e he _ h => fpFinish_wf e _ _ _ (fun _ _ => writeOut_wf _ _ _ _) h he

theorem meIssue_keeps {i : Instr} {c : Ctl} {r : Rules} {q : MeReq} : KeepsForm (perform i c r s (meIssue q)) :=
  perform_keeps hw fun e he _ h => meIssue_wf q e h he

theorem rangeInstr_keeps {i : Instr} {c : Ctl} {d : Option Code} {a b : Code} {off : BitVec 24} {k : Acc133}
    {act : Env → List (Nat × Nat × Phys) → State × OpKind × Nat}
    (hact : ∀ e ps, Memory.wf e.s.mem = true → Memory.wf (act e ps).1.mem = true) :
    KeepsForm (rangeInstr i c d a b off k s act) := by
  refine perform_keeps hw fun e he => ?_
  dsimp only
  split; · exact .ok (by simp [he])
  split; · exact .stop
  next ps _ => exact .ok (by simp [hact e ps he])

theorem rowTransfer_keeps {i : Instr} {c : Ctl} {a b g : Code} {td : BitVec 6} {n : BitVec 10} :
    KeepsForm (rowTransfer i c a b g td n s) := by
  refine perform_keeps hw fun e he => ?_
  dsimp only
  split; · exact .stop
  split; · exact .stop
  split; · exact .stop
  split; · exact .stop
  split; · exact .stop
  split <;> exact .ok (by simp [he])

theorem runCommand_keeps {code c : Nat} {f : Command → Answer} (hf : ∀ x, Memory.wf (f x).1.mem = true) :
    KeepsForm (runCommand s code c f) := by
  unfold runCommand
  split
  · exact .next hw
  · exact .next (hf _)

theorem classTurn_keeps {kind idx cls b : Nat} {f : Serve} (hf : f.Keeps) :
    KeepsForm (classTurn s kind idx cls b f) := by
  unfold classTurn
  dsimp only
  split; · exact .next hw
  split
  · exact .next (takeUnit_wf _ _ _ _ _ hf hw)
  · exact .next hw

theorem rasterTurn_keeps {q cls b : Nat} {f : Serve} (hf : f.Keeps) : KeepsForm (rasterTurn s q cls b f) := by
  unfold rasterTurn
  dsimp only
  split; · exact .next hw
  next y _ =>
    have h := takeUnit_wf s 0 q y f hf hw
    split
    · exact .next (wf_mem_ite h (by simpa [passCount] using h))
    · exact .next hw

/-! ### Numbers: the instructions that no mould covers -/

theorem execFcmp_keeps {c d a b ty cond comb pc} : KeepsForm (execFcmp c d a b ty cond comb pc s) :=
  perform_keeps hw fun e he _ h => fpFinish_wf e _ _ _ (fun s v hs => by simp [hs]) h he

theorem execSincos_keeps {c d a ty rnd} : KeepsForm (execSincos c d a ty rnd s) :=
  perform_keeps hw fun e he _ h => fpFinish_wf e _ _ _ (fun s v hs => by simp [hs]) h he

theorem execCvt_keeps {c d a e mrg dsel ssel sat rnd df sf} :
    KeepsForm (execCvt c d a e mrg dsel ssel sat rnd df sf s) :=
  perform_keeps hw fun e he _ h => fpFinish_wf e _ _ _ (fun _ _ => writeOut_wf _ _ _ _) h he

theorem execRedux_keeps {c d a op rnd} : KeepsForm (execRedux c d a op rnd s) :=
  perform_keeps hw fun e he _ h => fpFinish_wf e _ _ _ (fun _ _ => writeOut_wf _ _ _ _) h he

theorem execScan_keeps {c d a op rnd x} : KeepsForm (execScan c d a op rnd x s) :=
  perform_keeps hw fun e he _ h => fpFinish_wf e _ _ _ (fun _ _ => writeOut_wf _ _ _ _) h he

/-! ### Loads, stores, atomics and the scratchpad -/

theorem execLd_keeps {c d m o sx} : KeepsForm (execLd c d m o sx s) := by
  refine perform_keeps hw fun e he => ?_
  dsimp only
  split; · exact .stop
  split; · exact .stop
  exact .ok (by simp [he])

theorem execSt_keeps {c a b off o} : KeepsForm (execSt c a b off o s) := by
  refine perform_keeps hw fun e he => ?_
  dsimp only
  split; · exact .stop
  split; · exact .stop
  split; · exact .stop
  split; · exact .stop
  exact .ok (by simp [he])

theorem execLds_keeps {c d m size sx} : KeepsForm (execLds c d m size sx s) := by
  refine perform_keeps hw fun e he => ?_
  dsimp only
  split; · exact .stop
  split; · exact .stop
  split; · exact .stop
  exact .ok (by simp [he])

theorem execSts_keeps {c a b off size} : KeepsForm (execSts c a b off size s) := by
  refine perform_keeps hw fun e he => ?_
  dsimp only
  split; · exact .stop
  split; · exact .stop
  split; · exact .stop
  exact .ok (by simp [he])

theorem execAtom_keeps {c d a b off o op} : KeepsForm (execAtom c d a b off o op s) :=
  perform_keeps hw fun e he _ h => atomicIssue_wf e _ _ _ _ _ _ _ _ h he

theorem execRed_keeps {c a b off o op} : KeepsForm (execRed c a b off o op s) :=
  perform_keeps hw fun e he _ h => atomicIssue_wf e _ _ _ _ _ _ _ _ h he

theorem execAtomb_keeps {c d a b off size op} : KeepsForm (execAtomb c d a b off size op s) := by
  refine perform_keeps hw fun e he => ?_
  dsimp only
  split; · exact .stop
  split; · exact .stop
  split; · exact .stop
  exact .ok (by simp [he])

theorem execMonw_keeps {c d a b off o cond} : KeepsForm (execMonw c d a b off o cond s) := by
  refine perform_keeps hw fun e he => ?_
  dsimp only
  split; · exact .stop
  split; · exact .stop
  exact .ok (by simp [he])

theorem execPref_keeps {c m pol} : KeepsForm (execPref c m pol s) :=
  perform_ok_keeps hw fun e he => by
    rw [done_mem, foldl_mem _ _ _ _ rfl fun _ _ => prefLane_mem ..]
    exact he

theorem execCwb_keeps {c a b off} : KeepsForm (execCwb c a b off s) :=
  rangeInstr_keeps hw fun e ps he =>
    foldl_wf _ _ _ (foldl_wf _ _ _ he fun s x hs => drainSector_wf s _ x.1 hs) fun s x hs => by simpa using hs

theorem execCpin_keeps {c d a b off} : KeepsForm (execCpin c d a b off s) :=
  rangeInstr_keeps hw fun e ps he =>
    foldl_fst_wf _ _ (e.s, 0, 0) he fun a x ha => by simpa using ha

/-! ### Outstanding operations, caches and translation -/

theorem execQueueRecordVisible_keeps {inst q} : KeepsForm (execQueueRecordVisible inst q s) := by
  unfold execQueueRecordVisible
  split
  · exact .next (by simp [hw])
  · exact .next hw

theorem execBarriveArrivalApplied_keeps {core entry} : KeepsForm (execBarriveArrivalApplied core entry s) := by
  unfold execBarriveArrivalApplied
  dsimp only
  split; · exact .next hw
  split; · exact .next hw
  split; · exact .next hw
  exact .next (by simp [hw])

theorem execSliceAccess_keeps {p op lane} : KeepsForm (execSliceAccess p op lane s) := by
  unfold execSliceAccess
  split; · exact .next hw
  split; · exact .next hw
  split; · exact .next hw
  split; · exact .next (by simp [hw])
  dsimp only
  split <;> exact .next (by simp [hw])

theorem execScFillComplete_keeps {line} : KeepsForm (execScFillComplete line s) := by
  unfold execScFillComplete
  split; · exact .next hw
  exact .next (foldl_wf _ _ _ hw fun a x ha => by simpa using ha)

theorem execWriteBufferDrain_keeps {core i} : KeepsForm (execWriteBufferDrain core i s) := by
  unfold execWriteBufferDrain
  split
  · exact .next (drainEntry_wf _ _ hw)
  · exact .next hw

theorem execInstructionLineFill_keeps {core va} : KeepsForm (execInstructionLineFill core va s) := by
  unfold execInstructionLineFill
  split; · exact .next (by simp [hw])
  dsimp only
  split <;> exact .next (by simp [hw])

theorem execInstructionComplete_keeps {p op} : KeepsForm (execInstructionComplete p op s) := by
  unfold execInstructionComplete
  split
  · split <;> exact .next (by simp [hw])
  · exact .next hw

/-! ### Queues and descriptors -/

theorem execQpush_keeps {c a q} : KeepsForm (execQpush c a q s) := by
  refine perform_keeps hw fun e he => ?_
  dsimp only
  split; · exact .stop
  split; · exact .stop
  split; · exact .stop
  exact .ok (by simp [he])

theorem execQpop_keeps {c d q p} : KeepsForm (execQpop c d q p s) := by
  refine perform_keeps hw fun e he => ?_
  dsimp only
  split; · exact .ok (by simp [he])
  split; · exact .stop
  split; · exact .stop
  split; · exact .stop
  exact .ok (by simp [he, popAll_mem])

theorem execQstat_keeps {c d q} : KeepsForm (execQstat c d q s) := by
  refine perform_keeps hw fun e he => ?_
  split; · exact .ok (by simp [he])
  split
  · split
    · exact .ok (by simp [he])
    · exact .stop
  · exact .stop

theorem execTdset_keeps {c a td w i} : KeepsForm (execTdset c a td w i s) := by
  refine perform_keeps hw fun e he => ?_
  split; · exact .ok (by simp [he])
  split; · exact .stop
  exact .ok (by simp [he])

theorem execTdget_keeps {c d td w i} : KeepsForm (execTdget c d td w i s) := by
  refine perform_keeps hw fun e he => ?_
  split; · exact .ok (by simp [he])
  split; · exact .stop
  exact .ok (by simp [he])

theorem execQbind_keeps {c d a q kind slot port unbind} : KeepsForm (execQbind c d a q kind slot port unbind s) := by
  refine perform_keeps hw fun e he => ?_
  split; · exact .ok (by simp [he])
  split; · exact .stop
  dsimp only
  split; · exact .stop
  split; · exact .stop
  split; · exact .stop
  split
  · split
    · exact .ok (by simp [he])
    next h => exact .ok (by simp [he, unbindDo_mem _ _ _ _ _ h])
  · split <;> exact .ok (by simp [he])

/-! ### Matrix engines -/

theorem execMatrixRowWrite_keeps {core} : KeepsForm (execMatrixRowWrite core s) := by
  unfold execMatrixRowWrite
  split; · exact .next hw
  split; · exact .next hw
  dsimp only
  split <;> exact .next (by simp [hw])

theorem execMatrixCommandComplete_keeps {core} : KeepsForm (execMatrixCommandComplete core s) := by
  unfold execMatrixCommandComplete
  split; · exact .next hw
  split <;> exact .next (by simp [hw])

/-! ### Porters and transfers -/

theorem execPstart_keeps {c d a b unit entry n resume} : KeepsForm (execPstart c d a b unit entry n resume s) := by
  refine perform_keeps hw fun e he => ?_
  split; · exact .ok (by simp [he])
  split; · exact .stop
  exact .ok (by simp [he])

theorem execPstop_keeps {c d unit} : KeepsForm (execPstop c d unit s) := by
  refine perform_keeps hw fun e he => ?_
  split; · exact .ok (by simp [he])
  split; · exact .stop
  split; · exact .stop
  dsimp only
  split; · exact .stop
  split <;> exact .ok (by simp [he])

theorem execPstat_keeps {c d unit sel} : KeepsForm (execPstat c d unit sel s) := by
  refine perform_keeps hw fun e he => ?_
  split; · exact .ok (by simp [he])
  split; · exact .stop
  split; · exact .stop
  exact .ok (by simp [he])

theorem execXldi_keeps {c d a off pol size sp} : KeepsForm (execXldi c d a off pol size sp s) := by
  refine perform_keeps hw fun e he => ?_
  dsimp only
  split
  · split; · exact .stop
    split; · exact .stop
    split; · exact .stop
    exact .ok (by simp [he])
  · split; · exact .stop
    split; · exact .stop
    refine .ite .stop (.ok ?_)
    split <;> simp [he]

theorem execXcoord_keeps {c d a td} : KeepsForm (execXcoord c d a td s) := by
  refine perform_keeps hw fun e he => ?_
  split; · exact .stop
  exact .ok (by simp [he])

theorem execXcopy_keeps {c a b g td q pad dir} : KeepsForm (execXcopy c a b g td q pad dir s) := by
  refine perform_keeps hw fun e he => ?_
  dsimp only
  split; · exact .stop
  split; · exact .stop
  split; · exact .stop
  split; · exact .stop
  split; · exact .stop
  exact .ok (by simp [he])

theorem execXmcast_keeps {c a b g td pad} : KeepsForm (execXmcast c a b g td pad s) := by
  refine perform_keeps hw fun e he => ?_
  dsimp only
  split; · exact .stop
  split; · exact .stop
  split; · exact .stop
  split; · exact .stop
  split; · exact .stop
  split; · exact .stop
  split; · exact .ok (by simp [he])
  split; · exact .stop
  exact .ok (by simp [he])

theorem execXstmx_keeps {c a b td pad bf16 had} : KeepsForm (execXstmx c a b td pad bf16 had s) := by
  refine perform_keeps hw fun e he => ?_
  dsimp only
  split; · exact .stop
  split; · exact .stop
  split; · exact .stop
  split; · exact .stop
  split; · exact .stop
  exact .ok (by simp [he])

theorem execXfill_keeps {c a b g td lin} : KeepsForm (execXfill c a b g td lin s) := by
  refine perform_keeps hw fun e he => ?_
  dsimp only
  split; · exact .stop
  split
  · split; · exact .stop
    split; · exact .stop
    split; · exact .stop
    exact .ok (by simp [he])
  · split; · exact .stop
    split; · exact .stop
    exact .ok (by simp [he])

theorem execXarrive_keeps {c imm a v} : KeepsForm (execXarrive c imm a v s) := by
  refine perform_keeps hw fun e he => ?_
  split; · exact .stop
  split; · exact .stop
  exact .ok (by simp [he])

theorem execXstamp_keeps {c a b off pol scope} : KeepsForm (execXstamp c a b off pol scope s) := by
  refine perform_keeps hw fun e he => ?_
  dsimp only
  split; · exact .stop
  exact .ok (by simp [he])

theorem execXwait_keeps {c bar a n} : KeepsForm (execXwait c bar a n s) := by
  refine perform_keeps hw fun e he => ?_
  dsimp only
  split
  · split
    · exact .ok (by simp [he])
    · exact .stop
  · split; · exact .stop
    split
    · split
      · exact .stop
      · exact .ok (by simp [he])
    · exact .stop
    · split; · exact .stop
      split <;> exact .ok (by simp [he])

theorem execXfence_keeps {c scope order} : KeepsForm (execXfence c scope order s) := by
  refine perform_keeps hw fun e he => ?_
  split; · exact .stop
  split <;> exact .ok (by simp [he])

theorem execXtrap_keeps {c v} : KeepsForm (execXtrap c v s) := by
  refine perform_keeps hw fun e he => ?_
  split
  · exact .ok (by simp [he])
  · exact .stop

theorem execPorterUnitPerform_keeps {core num id} : KeepsForm (execPorterUnitPerform core num id s) := by
  unfold execPorterUnitPerform
  dsimp only
  split
  · split
    · exact .ite (.next (unitPerform_wf _ _ _ _ _ _ hw)) (.next hw)
    · exact .next hw
  · exact .next hw

theorem execXmcastDelivery_keeps {core num id dst} : KeepsForm (execXmcastDelivery core num id dst s) := by
  unfold execXmcastDelivery
  dsimp only
  split
  · split
    · exact .next hw
    · split
      · split
        · exact .next hw
        · exact .next (by simp [hw])
      · exact .next (by simp [hw])
      · exact .next hw
  · exact .next hw

theorem execXstampWrite_keeps {core num} : KeepsForm (execXstampWrite core num s) := by
  unfold execXstampWrite
  dsimp only
  split
  · split; · exact .next hw
    refine .next ?_
    rw [modPorter_mem]
    exact wf_mem_ite (drainSector_wf _ _ _ (storeBytes_wf _ _ _ _ _ _ _ (by simp [hw])))
      (storeBytes_wf _ _ _ _ _ _ _ (by simp [hw]))
  · exact .next hw

theorem execPorterFault_keeps {core num} : KeepsForm (execPorterFault core num s) := by
  unfold execPorterFault
  dsimp only
  split <;> exact .next (by simp [hw])

theorem execDroppedCreditFault_keeps {core num} : KeepsForm (execDroppedCreditFault core num s) := by
  unfold execDroppedCreditFault
  dsimp only
  split <;> exact .next (by simp [hw])

theorem execPorterDrainEnd_keeps {core num} : KeepsForm (execPorterDrainEnd core num s) := by
  unfold execPorterDrainEnd
  dsimp only
  split <;> exact .next (by simp [hw])

/-! ### Islands and passes -/

theorem execIload_keeps {c d a b g kind} : KeepsForm (execIload c d a b g kind s) := by
  refine perform_keeps hw fun e he => ?_
  split; · exact .ok (by simp [he])
  split; · exact .stop
  dsimp only
  split; · exact .stop
  split; · exact .stop
  exact .ok (by split <;> simp [he])

theorem execIloadComplete_keeps {ctx} : KeepsForm (execIloadComplete ctx s) := by
  unfold execIloadComplete
  split; · exact .next hw
  split
  · split
    · exact .next (by simp [hw])
    · dsimp only
      split; · exact .next (by simp [hw])
      exact .next (wf_mem_ite (by simp [hw]) (by simp [hw]))
  · exact .next hw

theorem execIslandLoad_keeps {kind idx} : KeepsForm (execIslandLoad kind idx s) := by
  unfold execIslandLoad
  split <;> exact .next (by simp [hw])

theorem execIslandResponseDeliver_keeps {kind idx} : KeepsForm (execIslandResponseDeliver kind idx s) := by
  unfold execIslandResponseDeliver
  dsimp only
  split <;> exact .next (by simp [hw])

theorem execIslandFault_keeps {kind idx} : KeepsForm (execIslandFault kind idx s) := by
  unfold execIslandFault
  split; · exact .next hw
  split <;> exact .next (by simp [hw])

theorem execIctlState_keeps {c d a kind} : KeepsForm (execIctlState c d a kind s) := by
  refine perform_keeps hw fun e he => ?_
  split <;> exact .ok (by simp [he])

theorem execIctlFaultAddress_keeps {c d a kind} : KeepsForm (execIctlFaultAddress c d a kind s) := by
  refine perform_keeps hw fun e he => ?_
  split <;> exact .ok (by simp [he])

theorem execIctlResume_keeps {c d a kind} : KeepsForm (execIctlResume c d a kind s) := by
  refine perform_keeps hw fun e he => ?_
  split; · exact .ok (by simp [he])
  dsimp only
  split <;> exact .ok (by simp [he])

theorem execIctlDiscard_keeps {c d a kind} : KeepsForm (execIctlDiscard c d a kind s) := by
  refine perform_keeps hw fun e he => ?_
  split; · exact .ok (by simp [he])
  dsimp only
  split <;> exact .ok (by simp [he])

theorem execPassbegin_keeps {c d a} : KeepsForm (execPassbegin c d a s) := by
  refine perform_keeps hw fun e he => ?_
  split; · exact .ok (by simp [he])
  split; · exact .stop
  next h => exact .ok (by simp [passDesc_wf e a h he])

theorem execPassend_keeps {c d a} : KeepsForm (execPassend c d a s) := by
  refine perform_keeps hw fun e he => ?_
  split; · exact .ok (by simp [he])
  dsimp only
  split; · exact .ok (by simp [he])
  split <;> exact .ok (by simp [he])

theorem execPassstat_keeps {c d a} : KeepsForm (execPassstat c d a s) := by
  refine perform_keeps hw fun e he => ?_
  split <;> exact .ok (by simp [he])

theorem execResolve_keeps {c d a} : KeepsForm (execResolve c d a s) := by
  refine perform_keeps hw fun e he => ?_
  split; · exact .ok (by simp [he])
  split; · exact .stop
  next h =>
    have h1 := passDesc_wf e a h he
    dsimp only at h1 ⊢
    split; · exact .ok (by simp [h1])
    split <;> exact .ok (by simp [h1])

theorem execBlendColour_keeps {b} : KeepsForm (execBlendColour b s) := by
  unfold execBlendColour
  split
  · split
    · exact .next (takeUnit_wf _ _ _ _ _ blendUnit_keeps hw)
    · exact .next hw
  · exact .next hw

/-! ### Control flow -/

theorem execBr_keeps {c t} : KeepsForm (execBr c t s) :=
  perform_keeps hw fun e he _ h => by rw [branchTo_mem _ _ _ _ _ h]; exact he

theorem execBrc_keeps {c a b cond t} : KeepsForm (execBrc c a b cond t s) :=
  perform_keeps hw fun e he _ h => by rw [branchTo_mem _ _ _ _ _ h]; exact he

theorem execBrv_keeps {c a t m} : KeepsForm (execBrv c a t m s) :=
  perform_keeps hw fun e he _ h => by rw [branchTo_mem _ _ _ _ _ h]; simp [he]

theorem execBdq_keeps {c n z t} : KeepsForm (execBdq c n z t s) :=
  perform_keeps hw fun e he _ h => by rw [branchTo_mem _ _ _ _ _ h]; exact he

theorem execBrx_keeps {c a} : KeepsForm (execBrx c a s) := by
  refine perform_keeps hw fun e he => ?_
  dsimp only
  split; · exact .stop
  exact .ok (by simp [he])

theorem execCall_keeps {c slide t} : KeepsForm (execCall c slide t s) := by
  refine perform_keeps hw fun e he => ?_
  dsimp only
  split; · exact .stop
  split; · exact fun _ h => by rw [groupCall_mem _ _ _ h]; exact he
  split; · exact .ok (by simp [he])
  split; · exact .stop
  exact .ok (by simp [he])

theorem execCallx_keeps {c a slide} : KeepsForm (execCallx c a slide s) := by
  refine perform_keeps hw fun e he => ?_
  dsimp only
  split; · exact .stop
  exact fun _ h => by rw [groupCall_mem _ _ _ h]; exact he

theorem execRet_keeps {c} : KeepsForm (execRet c s) := by
  refine perform_keeps hw fun e he => ?_
  split; · exact fun _ h => by rw [groupRet_mem _ h]; exact he
  split; · exact .ok (by simp [he])
  split; · exact .stop
  split; · exact .stop
  exact .ok (by simp [he])

theorem execLoop_keeps {c a t} : KeepsForm (execLoop c a t s) := by
  refine perform_keeps hw fun e he => ?_
  split; · exact .ok (by simp [he])
  exact fun _ h => by rw [branchTo_mem _ _ _ _ _ h]; simp [he]

theorem execExit_keeps {c} : KeepsForm (execExit c s) := by
  refine perform_keeps hw fun e he => ?_
  split; · exact .ok (by simp [he])
  split
  · exact .ok (by simp [he])
  · exact .ok (by split <;> simp [he])

theorem execDqpush_keeps {c a} : KeepsForm (execDqpush c a s) := by
  refine perform_keeps hw fun e he => ?_
  split; · exact .ok (by simp [he])
  split; · exact .stop
  exact .ok (by simp [he])

theorem execRstlbl_keeps {c close t} : KeepsForm (execRstlbl c close t s) := by
  refine perform_keeps hw fun e he => ?_
  dsimp only
  split; · exact .stop
  exact .ok (by simp [he])

theorem execYield_keeps {c} : KeepsForm (execYield c s) :=
  perform_ok_keeps hw fun e he => by split <;> simp [he]

/-! ### Barriers, special registers and traps -/

theorem execBalloc_keeps {c d pair f} : KeepsForm (execBalloc c d pair f s) := by
  refine perform_keeps hw fun e he => ?_
  split <;> exact .ok (by simp [he])

theorem execBfree_keeps {c a} : KeepsForm (execBfree c a s) := by
  refine perform_keeps hw fun e he => ?_
  dsimp only
  split; · exact .ok (by simp [he])
  split; · exact .stop
  split; · exact .stop
  exact .ok (by simp [he])

theorem execBinit_keeps {c a n} : KeepsForm (execBinit c a n s) := by
  refine perform_keeps hw fun e he => ?_
  dsimp only
  split; · exact .ok (by simp [he])
  split; · exact .stop
  split; · exact .stop
  split; · exact .stop
  split; · exact .stop
  split; · exact .stop
  exact .ok (by simp [he])

theorem execBarrive_keeps {c a n f} : KeepsForm (execBarrive c a n f s) := by
  refine perform_keeps hw fun e he => ?_
  dsimp only
  split; · exact .ok (by simp [he])
  split; · exact .stop
  split; · exact .ok (by simp [he])
  split; · exact .stop
  exact .ok (by simp [he])

theorem execBwait_keeps {c d a f} : KeepsForm (execBwait c d a f s) := by
  refine perform_keeps hw fun e he => ?_
  split; · exact .ok (by simp [he])
  split
  · split <;> exact .ok (by simp [he])
  · exact .stop
  · split; · exact .stop
    split; · exact .ok (by simp [he])
    split <;> exact .ok (by simp [he])

theorem execBtest_keeps {c d a r f} : KeepsForm (execBtest c d a r f s) := by
  refine perform_keeps hw fun e he => ?_
  split; · exact .ok (by simp [he])
  split; · exact .stop
  exact .ok (by simp [he])

theorem execBinval_keeps {c a} : KeepsForm (execBinval c a s) := by
  refine perform_keeps hw fun e he => ?_
  split; · exact .ok (by simp [he])
  split; · exact .stop
  exact .ok (by simp [he])

theorem execSync_keeps {c} : KeepsForm (execSync c s) := by
  refine perform_keeps hw fun e he => ?_
  split
  · split
    · exact .ok (by simp [he])
    · exact .stop
  · exact .ok (by simp [he])

theorem execRdsr_keeps {c d sr} : KeepsForm (execRdsr c d sr s) := by
  refine perform_keeps hw fun e he => ?_
  split; · exact .stop
  exact .ok (by simp [he])

theorem execWrsr_keeps {c a sr imm v} : KeepsForm (execWrsr c a sr imm v s) := by
  refine perform_keeps hw fun e he => ?_
  split; · exact .ok (by simp [he])
  split
  · split; · exact .stop
    next h => exact .ok (by simp [meetWrite_mem _ _ h, he])
  · exact .ite .stop (.ok (by simp [he]))

theorem execTrap_keeps {c v} : KeepsForm (execTrap c v s) := by
  refine perform_keeps hw fun e he => ?_
  split
  · exact .ok (by simp [he])
  · exact .stop

theorem execTret_keeps {c act} : KeepsForm (execTret c act s) := by
  refine perform_keeps hw fun e he => ?_
  split; · exact .ok (by simp [he])
  split; · exact .stop
  exact .ok (by split <;> simp [he])

/-! ### Launches and teams -/

theorem execPacketBecomesHead_keeps {c q} : KeepsForm (execPacketBecomesHead c q s) := by
  unfold execPacketBecomesHead
  split; · exact .next hw
  exact .next (by simp [hw])

theorem execTokenReread_keeps {l} : KeepsForm (execTokenReread l s) := by
  unfold execTokenReread
  split; · exact .next hw
  split; · exact .next hw
  dsimp only
  split <;> exact .next (by simp [hw])

theorem execAdmissionStep_keeps : KeepsForm (execAdmissionStep s) := by
  unfold execAdmissionStep
  split; · exact .next hw
  next h => exact .next (by simp [admitOne_mem _ h, hw])

theorem execPorterSectionCopyDone_keeps {core} : KeepsForm (execPorterSectionCopyDone core s) := by
  unfold execPorterSectionCopyDone
  split; · exact .next hw
  split; · exact .next hw
  have h : ∀ (l : List Nat) (f : State → Nat → State), (∀ a i, (f a i).mem = a.mem) →
      Memory.wf (l.foldl f s).mem = true := fun l f hf => by rw [foldl_mem _ _ _ _ rfl hf]; exact hw
  exact .next (by simp [h])

theorem execTeamStart_keeps {t} : KeepsForm (execTeamStart t s) := by
  unfold execTeamStart
  split; · exact .next hw
  split; · exact .next hw
  exact .next (by split <;> simp [hw])

theorem execTeamRetirement_keeps {id} : KeepsForm (execTeamRetirement id s) := by
  unfold execTeamRetirement
  split; · exact .next hw
  split; · exact .next hw
  next t _ _ =>
    have h := foldl_wf (teamCores t) drainCore s hw fun s c hs => drainCore_wf s c hs
    exact .next (by simp [h])

theorem execLaunchEnd_keeps {l} : KeepsForm (execLaunchEnd l s) := by
  unfold execLaunchEnd
  split <;> exact .next (by simp [hw])

theorem execTeamSave_keeps {id} : KeepsForm (execTeamSave id s) := by
  unfold execTeamSave
  split; · exact .next hw
  dsimp only
  split; · exact .next hw
  split; · exact .next (by simp [hw])
  refine .next (foldl_wf _ _ _ hw fun s x hs => ?_)
  split
  · exact saveOne_wf _ _ _ hs
  · exact hs

theorem execRebalanceInterval_keeps {inst} : KeepsForm (execRebalanceInterval inst s) := by
  unfold execRebalanceInterval
  split <;> exact .next (by simp [hw])

theorem execPowerAlarmRaise_keeps {cores} : KeepsForm (execPowerAlarmRaise cores s) := by
  unfold execPowerAlarmRaise
  split
  · refine .next ?_
    rw [foldl_mem _ _ _ _ rfl fun _ _ => modCore_mem ..]
    exact hw
  · exact .next hw

theorem execBandwidthWindowEnd_keeps {mc} : KeepsForm (execBandwidthWindowEnd mc s) := by
  unfold execBandwidthWindowEnd
  split <;> exact .next hw

/-! ### The host's registers and accesses -/

theorem execLqwrWrite_keeps {c q v} : KeepsForm (execLqwrWrite c q v s) := by
  unfold execLqwrWrite
  split <;> exact .next (by simp [hw])

theorem execLqcfgWrite_keeps {c q v} : KeepsForm (execLqcfgWrite c q v s) := by
  unfold execLqcfgWrite
  split
  · split <;> exact .next (by simp [hw])
  · exact .next hw

theorem execDeadlineApproach_keeps {c v} : KeepsForm (execDeadlineApproach c v s) := by
  unfold execDeadlineApproach
  split <;> exact .next (by simp [hw])

theorem execTlbinvWrite_keeps {c v} : KeepsForm (execTlbinvWrite c v s) := by
  unfold execTlbinvWrite
  split; · exact .next hw
  refine .next (wf_mem_ite ?_ ?_)
  · rw [modCtx_mem, setPage_mem]
    exact hw
  · rw [setPage_mem]
    exact hw

theorem execTlbInvalidationDone_keeps {c} : KeepsForm (execTlbInvalidationDone c s) := by
  unfold execTlbInvalidationDone
  split <;> exact .next (by simp [hw])

theorem execTrapactWrite_keeps {c v} : KeepsForm (execTrapactWrite c v s) := by
  unfold execTrapactWrite
  split; · exact .next hw
  split <;> exact .next (by simp [hw])

theorem execVfFunctionLevelReset_keeps {vf} : KeepsForm (execVfFunctionLevelReset vf s) := by
  unfold execVfFunctionLevelReset
  split <;> exact .next (by simp [hw])

theorem execDeviceReset_keeps : KeepsForm (execDeviceReset s) := by
  have h := foldl_wf s.ctxs (fun s x => if x.2.st = 0 then s else resetContext s x.1 true) s hw
    fun s x hs => by simp [hs]
  exact .next (filter_wf _ _ h)

theorem execHkcBringupComplete_keeps : KeepsForm (execHkcBringupComplete s) := by
  unfold execHkcBringupComplete
  split <;> exact .next (by simp [hw])

theorem execRegisterWrite_keeps {bar off v} : KeepsForm (execRegisterWrite bar off v s) := by
  unfold execRegisterWrite
  split; · exact .next hw
  · exact .next (by simp [hw])
  split; · exact .next hw
  split; · exact execLqcfgWrite_keeps hw
  split; · exact execLqwrWrite_keeps hw
  split; · exact .next (by simp [hw])
  split; · exact execDeadlineApproach_keeps hw
  split; · exact .next (by simp [hw])
  split; · exact execTlbinvWrite_keeps hw
  split; · exact execTrapactWrite_keeps hw
  exact .next hw

theorem execHostCxlMemAccess_keeps {pa n acc} : KeepsForm (execHostCxlMemAccess pa n acc s) := by
  unfold execHostCxlMemAccess
  split; · exact .next hw
  split <;> exact .next (by simp [hw])

/-! ### The commands of the HKC -/

theorem execCtxCreate_keeps {c} : KeepsForm (execCtxCreate c s) := by
  refine runCommand_keeps hw fun x => ?_
  split; · exact hw
  split; · exact hw
  split; · exact hw
  dsimp only
  split; · exact hw
  split; · exact hw
  split
  next h => exact (drawSalt_answer_mem h).symm ▸ hw
  next h => simp [drawSalt_answer_mem h, hw]

theorem execCtxReset_keeps {c} : KeepsForm (execCtxReset c s) :=
  runCommand_keeps hw fun x => by split <;> simp [hw]

theorem execCtxAttest_keeps {c} : KeepsForm (execCtxAttest c s) := by
  refine runCommand_keeps hw fun x => ?_
  split; · exact hw
  dsimp only
  split; · exact hw
  split
  next h => exact physWrite_wf _ _ _ _ h hw
  next => exact hw

theorem writeExport_wf (c : Nat) (l : List Byte) : Memory.wf (writeExport s c l).1.mem = true := by
  unfold writeExport
  split; · exact hw
  split; · exact hw
  dsimp only
  split; · exact hw
  split; · exact hw
  next h =>
    have h1 := physWrite_wf _ _ _ _ h (by simpa using hw)
    simpa using h1

theorem execCtxExport_keeps {c} : KeepsForm (execCtxExport c s) := by
  unfold execCtxExport
  split; · exact .next hw
  dsimp only
  split
  · split; · exact .next hw
    split; · exact .next hw
    exact .next (by simp [hw])
  · split; · exact .next hw
    split; · exact .next hw
    split
    · exact .next (writeExport_wf hw _ _)
    · exact .next hw

theorem execCtxImport_keeps {c} : KeepsForm (execCtxImport c s) := by
  refine runCommand_keeps hw fun x => ?_
  split; · exact hw
  split; · exact hw
  split; · exact hw
  split; · exact hw
  split; · exact hw
  split
  next h => exact (drawSalt_answer_mem h).symm ▸ hw
  next h =>
    dsimp only
    split
    next h2 =>
      obtain ⟨s3, h3, h4⟩ := Option.bind_eq_some_iff.1 h2
      have hs3 := importPages_wf _ _ _ _ h3 (by simp [drawSalt_answer_mem h, hw])
      have hs4 := physWrite_wf _ _ _ _ h4 hs3
      simpa using hs4
    next => exact hw

theorem execCtxConfirm_keeps {c} : KeepsForm (execCtxConfirm c s) := by
  refine runCommand_keeps hw fun x => ?_
  dsimp only
  split; · exact hw
  split; · exact hw
  split; · exact hw
  split
  next h => exact resetContext_wf _ _ _ (physWrite_wf _ _ _ _ h hw)
  next => exact hw

theorem execCtxRelease_keeps {c} : KeepsForm (execCtxRelease c s) := by
  refine runCommand_keeps hw fun x => ?_
  dsimp only
  split; · exact hw
  split; · exact hw
  split <;> simp [hw]

theorem execCtxAbort_keeps {c} : KeepsForm (execCtxAbort c s) := by
  refine runCommand_keeps hw fun x => ?_
  dsimp only
  split; · exact hw
  split <;> simp [hw]

theorem execCtxCommandComplete_keeps : KeepsForm (execCtxCommandComplete s) := by
  unfold execCtxCommandComplete
  split; · exact .next hw
  split <;> exact .next (by simp [hw])

theorem kesRun_wf (c : Nat) (a : List Byte) (j : KesJob) : Memory.wf (kesRun s c a j).1.mem = true := by
  unfold kesRun
  dsimp only
  split
  · exact hw
  · split
    next h =>
      obtain ⟨_, _, h1⟩ := Option.bind_eq_some_iff.1 h
      exact kesWrite_wf _ _ _ _ h1 hw
    next => exact hw
  · split; · exact hw
    split
    next h =>
      obtain ⟨_, h1, h2⟩ := Option.bind_eq_some_iff.1 h
      exact kesWrite_wf _ _ _ _ h2 (kesWrite_wf _ _ _ _ h1 hw)
    next => exact hw

theorem execKesload_keeps {c} : KeepsForm (execKesload c s) := by
  refine runCommand_keeps hw fun x => ?_
  split; · exact hw
  split; · exact hw
  next a _ =>
    have h1 : Memory.wf (kesTaken s c a).mem = true := by simp [hw]
    split; · exact hw
    dsimp only
    split; · exact h1
    split; · exact h1
    exact kesRun_wf h1 _ _ _

/-! ### The whole device -/

/-- Every row of the table of operations keeps the form. -/
theorem exec_keeps (i : Instr) : KeepsForm (exec i s) := by
  unfold exec
  cases i with
  | iadd | isub | imul | imulh | imad | idot4 | imin | imax | bAnd | bAndn | bOr | bXor | shl | shr | sar | funl
  | bfx | bfi | mixb => exact alu_keeps hw
  | imadw | icmp | tern | loca | psop | mov | movi | fclass | rngc | edge | swiz | ballot | fence | nop | dqpop
  | setmeet | waypt | fbar | xend => exact perform_ok_keeps hw fun e he => by simp [he]
  | iabs | popc | clz | brev => exact alu1_keeps hw
  | fadd | fsub | fmul | ffma | fmin | fmax | fdivf => exact fpAlu_keeps hw
  | fcmp => exact execFcmp_keeps hw
  | frnd | rcp | rsq | sqrt | exp2 | log2 | tanh => exact fpUnary_keeps hw
  | cvt => exact execCvt_keeps hw
  | sincos => exact execSincos_keeps hw
  | redux => exact execRedux_keeps hw
  | scan => exact execScan_keeps hw
  | ld => exact execLd_keeps hw
  | st => exact execSt_keeps hw
  | lds => exact execLds_keeps hw
  | sts => exact execSts_keeps hw
  | atom => exact execAtom_keeps hw
  | atomb => exact execAtomb_keeps hw
  | red => exact execRed_keeps hw
  | monw => exact execMonw_keeps hw
  | pref => exact execPref_keeps hw
  | cwb => exact execCwb_keeps hw
  | cinv | iinv | cunpin => exact rangeInstr_keeps hw fun _ _ he => he
  | cpin => exact execCpin_keeps hw
  | br => exact execBr_keeps hw
  | brc => exact execBrc_keeps hw
  | brv => exact execBrv_keeps hw
  | bdq => exact execBdq_keeps hw
  | brx => exact execBrx_keeps hw
  | call => exact execCall_keeps hw
  | callx => exact execCallx_keeps hw
  | ret => exact execRet_keeps hw
  | loop => exact execLoop_keeps hw
  | exit => exact execExit_keeps hw
  | dqpush => exact execDqpush_keeps hw
  | rstlbl => exact execRstlbl_keeps hw
  | yield => exact execYield_keeps hw
  | qpush => exact execQpush_keeps hw
  | qpop => exact execQpop_keeps hw
  | qstat => exact execQstat_keeps hw
  | qbind => exact execQbind_keeps hw
  | tdset => exact execTdset_keeps hw
  | tdget => exact execTdget_keeps hw
  | mldw | mswap | mma | mmaq | mzero | mlda | msta => exact meIssue_keeps hw
  | pstart => exact execPstart_keeps hw
  | pstop => exact execPstop_keeps hw
  | pstat => exact execPstat_keeps hw
  | iload => exact execIload_keeps hw
  | ictlState => exact execIctlState_keeps hw
  | ictlResume => exact execIctlResume_keeps hw
  | ictlDiscard => exact execIctlDiscard_keeps hw
  | ictlFaultAddress => exact execIctlFaultAddress_keeps hw
  | passbegin => exact execPassbegin_keeps hw
  | passend => exact execPassend_keeps hw
  | passstat => exact execPassstat_keeps hw
  | resolve => exact execResolve_keeps hw
  | xldi => exact execXldi_keeps hw
  | xcoord => exact execXcoord_keeps hw
  | xcopy => exact execXcopy_keeps hw
  | xgather | xscatter => exact rowTransfer_keeps hw
  | xmcast => exact execXmcast_keeps hw
  | xstmx => exact execXstmx_keeps hw
  | xfill => exact execXfill_keeps hw
  | xarrive => exact execXarrive_keeps hw
  | xstamp => exact execXstamp_keeps hw
  | xwait => exact execXwait_keeps hw
  | xfence => exact execXfence_keeps hw
  | xtrap => exact execXtrap_keeps hw
  | balloc => exact execBalloc_keeps hw
  | bfree => exact execBfree_keeps hw
  | binit => exact execBinit_keeps hw
  | barrive => exact execBarrive_keeps hw
  | bwait => exact execBwait_keeps hw
  | btest => exact execBtest_keeps hw
  | binval => exact execBinval_keeps hw
  | sync => exact execSync_keeps hw
  | rdsr => exact execRdsr_keeps hw
  | wrsr => exact execWrsr_keeps hw
  | trap => exact execTrap_keeps hw
  | tret => exact execTret_keeps hw
  | handlerEntry | sliceAtomic | monitorReread | pageWalkComplete | contextZeroingDone | powerAlarmLower
  | coreReset | scownWrite | ecccntClear | bar2Write | bar2Read | systemSpaceRefusal | vfEnable =>
    exact .next (by simp [hw])
  | instructionComplete => exact execInstructionComplete_keeps hw
  | queueRecordVisible => exact execQueueRecordVisible_keeps hw
  | barriveArrivalApplied => exact execBarriveArrivalApplied_keeps hw
  | sliceAccess => exact execSliceAccess_keeps hw
  | scFillComplete => exact execScFillComplete_keeps hw
  | writeBufferDrain => exact execWriteBufferDrain_keeps hw
  | instructionLineFill => exact execInstructionLineFill_keeps hw
  | lqwrWrite => exact execLqwrWrite_keeps hw
  | lqcfgWrite => exact execLqcfgWrite_keeps hw
  | packetBecomesHead => exact execPacketBecomesHead_keeps hw
  | tokenReread => exact execTokenReread_keeps hw
  | admissionStep => exact execAdmissionStep_keeps hw
  | porterSectionCopyDone => exact execPorterSectionCopyDone_keeps hw
  | teamStart => exact execTeamStart_keeps hw
  | teamRetirement => exact execTeamRetirement_keeps hw
  | launchEnd => exact execLaunchEnd_keeps hw
  | rebalanceInterval => exact execRebalanceInterval_keeps hw
  | deadlineApproach => exact execDeadlineApproach_keeps hw
  | teamSave => exact execTeamSave_keeps hw
  | powerAlarmRaise => exact execPowerAlarmRaise_keeps hw
  | matrixRowWrite => exact execMatrixRowWrite_keeps hw
  | matrixCommandComplete => exact execMatrixCommandComplete_keeps hw
  | porterUnitPerform => exact execPorterUnitPerform_keeps hw
  | xmcastDelivery => exact execXmcastDelivery_keeps hw
  | xstampWrite => exact execXstampWrite_keeps hw
  | porterFault => exact execPorterFault_keeps hw
  | droppedCreditFault => exact execDroppedCreditFault_keeps hw
  | porterDrainEnd => exact execPorterDrainEnd_keeps hw
  | iloadComplete => exact execIloadComplete_keeps hw
  | islandLoad => exact execIslandLoad_keeps hw
  | sample2d => exact classTurn_keeps hw (oneUnit_keeps _ _ _ fun _ _ _ _ _ h => sample2dUnit_mem _ _ _ _ _ h)
  | sampleCube => exact classTurn_keeps hw (oneUnit_keeps _ _ _ fun _ _ _ _ _ h => sampleCubeUnit_mem _ _ _ _ _ h)
  | rayBox4 => exact classTurn_keeps hw (oneUnit_keeps _ _ _ fun _ _ _ _ _ h => box4Unit_mem _ _ _ _ _ h)
  | rayTri => exact classTurn_keeps hw (oneUnit_keeps _ _ _ fun _ _ _ _ _ h => triUnit_mem _ _ _ _ _ h)
  | rayFrustum64 => exact classTurn_keeps hw (oneUnit_keeps _ _ _ fun _ _ _ _ _ h => frustumUnit_mem _ _ _ _ _ h)
  | blendColour => exact execBlendColour_keeps hw
  | rasterCoarse => exact rasterTurn_keeps hw (coarseUnit_keeps _)
  | rasterPath => exact rasterTurn_keeps hw (pathRecord_keeps _)
  | islandResponseDeliver => exact execIslandResponseDeliver_keeps hw
  | islandFault => exact execIslandFault_keeps hw
  | ctxCreate => exact execCtxCreate_keeps hw
  | ctxReset => exact execCtxReset_keeps hw
  | ctxAttest => exact execCtxAttest_keeps hw
  | ctxExport => exact execCtxExport_keeps hw
  | ctxImport => exact execCtxImport_keeps hw
  | ctxConfirm => exact execCtxConfirm_keeps hw
  | ctxRelease => exact execCtxRelease_keeps hw
  | ctxAbort => exact execCtxAbort_keeps hw
  | kesload => exact execKesload_keeps hw
  | ctxCommandComplete => exact execCtxCommandComplete_keeps hw
  | tlbinvWrite => exact execTlbinvWrite_keeps hw
  | tlbInvalidationDone => exact execTlbInvalidationDone_keeps hw
  | trapactWrite => exact execTrapactWrite_keeps hw
  | registerWrite => exact execRegisterWrite_keeps hw
  | deviceReset => exact execDeviceReset_keeps hw
  | vfFunctionLevelReset => exact execVfFunctionLevelReset_keeps hw
  | hkcBringupComplete => exact execHkcBringupComplete_keeps hw
  | hostCxlMemAccess => exact execHostCxlMemAccess_keeps hw
  | bandwidthWindowEnd => exact execBandwidthWindowEnd_keeps hw

/-- A move keeps the form: the fetch before an instruction leaves memory alone. -/
theorem runMove_keeps (m : Move) : KeepsForm (runMove m s) := by
  unfold runMove
  split
  · exact exec_keeps hw _
  next p =>
    have h : Memory.wf (issueOf s p).state.mem = true := by rw [issueOf_mem]; exact hw
    split
    next h1 => exact .next (by simpa [h1] using h)
    next h1 => exact exec_keeps (by simpa [h1] using h) _

/-- A step keeps the form: its move does, and so does the error that may strike before a free choice (R145 to R147). -/
theorem step_keeps : KeepsForm (step s) := by
  unfold step
  split
  · refine runMove_keeps ?_ _
    exact hw
  · have h := strike_wf s hw
    dsimp only
    split
    · refine runMove_keeps ?_ _
      exact h
    · exact .next h

end

/-- Settles O4: every step keeps the canonical form of memory, as every move of the device does (`runMove_keeps`), an
instruction's or an event's by `exec_keeps`. -/
theorem stepKeepsMemoryForm : Obligations.StepKeepsMemoryForm := by
  unfold Obligations.StepKeepsMemoryForm
  exact fun _ t hs h => step_keeps hs t h

end Sys2Proof.Machine
end

section
/-! O51: what the host's TRAPACT resume leaves of a trap whose record names another team than its party's. The model asks
the pre-emption of the party's own team (`goOn`, by R286 and R302), the statement that of the team in the record. Every
record that `raiseTrap` makes names the party's team, but the statement asks its clause of every state. -/

namespace Sys2Proof.Machine

/-- WAYPOINT_BOUND of the lead of team 0, in a record that names team 1. -/
def strayTrap : TrapEntry := ⟨.party (.lead 0), 1, ⟨tcBound, 0, 0, 0⟩⟩

/-- Team 0 has only its lead, which stands at WAYPOINT_BOUND and awaits the host; a pre-emption of the team is pending. -/
def boundTeam : Team := { Tests.trapped with
  groups := []
  preempt := true
  lead := { Tests.trapped.lead with
    com := { Tests.trapped.lead.com with
      st := .escalated, tcode := tcBound } } }

/-- A READY device whose ACTIVE context 0 has the one escalation `strayTrap`; team 1 is asked for no pre-emption. -/
def strayState : State := { Tests.hosted { Tests.ctx0 with escalations := [⟨0, strayTrap, 0, false⟩] } with
  teams := [(0, boundTeam), (1, Tests.team0)] }

/-- The escalated lead meets what O51 asks of the party of the record. -/
theorem strayState_lead_awaits : getCom strayState (.lead 0) = some boundTeam.lead.com ∧ boundTeam.lead.com.defer = none ∧
    boundTeam.lead.com.st = .escalated ∧ boundTeam.lead.com.late = false ∧ boundTeam.lead.com.ops = [] := by decide +kernel

/-- The team that the record names has no pre-emption pending, though the party's own team has. -/
theorem strayState_preempts : (getTeam strayState strayTrap.team).map (·.preempt) = some false ∧
    (getTeam strayState 0).map (·.preempt) = some true := by decide +kernel

/-- Resume after WAYPOINT_BOUND is a waypoint (R300): the lead, whose team is asked to stop, stops there (R286). -/
theorem strayState_resume_stops :
    (getCom (Tests.after (.trapactWrite 0 0x100) strayState) (.lead 0)).map (·.st) = some .stopped := by decide +kernel

/-- Refutes O51: its clause on TRAPACT resume bounds the pre-emption of the team that the trap's record names, not of the
party's team. In `strayState` the two differ: after the write of 0x100 the lead is stopped, where the clause has it run. -/
theorem not_hostRegistersAct : ¬ Obligations.HostRegistersAct := by
  unfold Obligations.HostRegistersAct
  rintro ⟨-, -, -, -, -, -, -, -, -, resumes, -⟩
  obtain ⟨hcom, hdefer, hst, hlate, hops⟩ := strayState_lead_awaits
  have quiet : ∀ y, getTeam strayState strayTrap.team = some y → y.preempt = false := by
    intro y hy
    simpa [hy] using strayState_preempts.1
  obtain ⟨t, n, hx, -, hn, hrun, -⟩ := resumes 0 0 0x100 strayState (.lead 0) strayTrap 0 [] boundTeam.lead.com
    rfl (by decide) (by decide) (by decide) (by decide) rfl rfl hcom hdefer (.inr hst) hlate
    fun _ => ⟨by simp [hops], quiet⟩
  have ht : Tests.after (.trapactWrite 0 0x100) strayState = t := by rw [Tests.after, hx]
  have stops := strayState_resume_stops
  rw [ht, hn] at stops
  simp [hrun] at stops

end Sys2Proof.Machine
end

section
/-! The layer of O18 and O39: the opcodes of their instructions, what an issue that pops no queue works with, what of its
team a lead changes by going on, and what drains and phase boundaries leave of the teams. -/

namespace Sys2Proof.Machine

/-! ### Opcodes -/

/-- R336: the opcode stands above the other fields of a word. -/
theorem encHead_add_div (op fmt : Nat) (c : Ctl) (r : Nat) (hf : fmt < 8) (hr : r < 2 ^ 77) :
    (encHead op fmt c + r) / 2 ^ 86 = op := by
  have h1 := Bool.toNat_le c.gn
  have h2 := c.gp.isLt
  have h3 := c.cf.isLt
  simp only [encHead]
  generalize c.gn.toNat = g at *
  generalize c.gp.toNat = p at *
  generalize c.cf.toNat = f at *
  omega

theorem opOf_encode {i : Instr} {w op : Nat} (h : encode i = some w) (hw : w / 2 ^ 86 = op) : opOf i = op := by
  rw [opOf, h, Option.getD_some, hw]

theorem encR_div (op : Nat) (c : Ctl) (d a : Code) (mod : Nat) (hm : mod < 2 ^ 61) : encR op c d a mod / 2 ^ 86 = op := by
  rw [encR, Nat.add_assoc]
  exact encHead_add_div _ _ _ _ (by omega) (encDA_add_lt _ _ _ hm)

theorem encS_div (op : Nat) (c : Ctl) (d a sr : Code) (n : BitVec 24) (low : Nat) (hm : low < 2 ^ 29) :
    encS op c d a sr n low / 2 ^ 86 = op := by
  simp only [encS, Nat.add_assoc]
  exact encHead_add_div _ _ _ _ (by omega) (encDA_add_lt _ _ _ (by omega))

theorem opOf_dqpush (c : Ctl) (a : Code) : opOf (.dqpush c a) = 0x20B :=
  opOf_encode rfl (encR_div _ _ _ _ _ (by omega))

theorem opOf_dqpop (c : Ctl) (d : Code) (half : Bool) : opOf (.dqpop c d half) = 0x20C :=
  opOf_encode rfl (encR_div _ _ _ _ _ (Nat.lt_of_le_of_lt (Bool.toNat_le half) (by omega)))

theorem opOf_rdsr (c : Ctl) (d : Code) (sr : BitVec 8) : opOf (.rdsr c d sr) = 0x390 :=
  opOf_encode rfl (encS_div _ _ _ _ _ _ _ (by omega))

theorem opOf_wrsr (c : Ctl) (a : Code) (sr : BitVec 8) (imm : Bool) (v : BitVec 24) : opOf (.wrsr c a sr imm v) = 0x391 :=
  opOf_encode rfl (encS_div _ _ _ _ _ _ _ (Nat.lt_of_le_of_lt (Bool.toNat_le imm) (by omega)))

/-! ### What an issue works with -/

section
variable {s : State} {i : Instr} {c : Ctl} {r : Rules} {e : Env}

/-- The checks that every issue has passed: its kind may issue the opcode, and its operand codes are good. -/
theorem Issues.checked (h : Issues s i c r e) : kindOk (opOf i) e.kind = true ∧ e.kind = kindOf e.p ∧
    ∀ f ∈ r.fields e.kind, goodCode e.kind (clsOf i) e.tm.alloc f = true := by
  obtain ⟨b, -, hb, hplain, rfl⟩ := h
  obtain ⟨-, hi, -, hkind, -⟩ := envOf_spec hb
  have hs := (plain_spec hplain).1
  have hcodes := hs
  simp only [sourced, Bool.and_eq_true] at hcodes
  exact ⟨hi ▸ (sourced_spec hs).1.2.1, hkind, hi ▸ List.all_eq_true.1 hcodes.1.1.1.1.1.1.2⟩

/-- The issuer of an opcode that no porter may issue. -/
theorem Issues.no_porter (h : Issues s i c r e) (hop : kindOk (opOf i) .porter = false) : kindOf e.p ≠ .porter := by
  obtain ⟨hok, hkind, -⟩ := h.checked
  intro hp
  rw [hkind, hp, hop] at hok
  cases hok

/-- An issue that pops no queue: the DQ entry, if it uses the DQ, is all that it takes. -/
theorem Issues.env_of_no_pop (h : Issues s i c r e) (hpop : popFields (r.fields e.kind) = []) :
    ∃ b, envOf s e.p i c = some b ∧ e = popAll { b with dq := if usesDq b r then dqHead b else none } := by
  obtain ⟨b, -, hb, -, rfl⟩ := h
  obtain ⟨-, -, -, -, hrecs, -⟩ := envOf_spec hb
  have hpop : popFields (r.fields b.kind) = [] := hpop
  refine ⟨b, hb, ?_⟩
  rw [Env.taking, hpop, List.filterMap_nil, ← hrecs]

/-- An issue that pops no queue and not the DQ works with the state as it found it. -/
theorem Issues.env_of_takes_nothing (h : Issues s i c r e) (hpop : popFields (r.fields e.kind) = [])
    (hdq : usesDq e r = false) : envOf s e.p i c = some e := by
  obtain ⟨b, hb, he⟩ := h.env_of_no_pop hpop
  obtain ⟨-, -, -, -, hrecs, hnone, -⟩ := envOf_spec hb
  have hdq : usesDq b r = false := by rw [← hdq, he]; rfl
  have : e = b := by
    rw [he, hdq]
    cases b
    obtain rfl : _ = [] := hrecs
    obtain rfl : _ = none := hnone
    rfl
  rw [hb, this]

end

/-- R67: an issue of a lead. -/
theorem envOf_lead_spec {s : State} {t : Nat} {i : Instr} {c : Ctl} {e : Env} (h : envOf s (.lead t) i c = some e) :
    getTeam s t = some e.tm ∧ e.s = s ∧ e.t = t ∧ e.lanes = [0] ∧ e.pc = e.tm.lead.pc := by
  unfold envOf at h
  cases ht : getTeam s t with
  | none => simp [teamOf, ht] at h
  | some tm =>
    simp only [teamOf, ht] at h
    cases h
    exact ⟨rfl, rfl, rfl, rfl, rfl⟩

/-- R67, R70: an issue of a group: the state has the group as its frontier leaves it. -/
theorem envOf_group_spec {s : State} {t n : Nat} {i : Instr} {c : Ctl} {e : Env}
    (h : envOf s (.group t n) i c = some e) :
    getTeam s t = some e.tm ∧ e.s = setTeam s t (setGroup e.tm n e.g) ∧ e.t = t ∧ e.gid = n := by
  unfold envOf at h
  cases ht : getTeam s t with
  | none => simp [teamOf, ht] at h
  | some tm =>
    simp only [teamOf, ht] at h
    split at h
    · cases h
    split at h
    · cases h
    cases h
    exact ⟨rfl, rfl, rfl, rfl⟩

/-! ### Going on -/

/-- `t` differs from `s` in teams at most. -/
def OnlyTeams (s t : State) : Prop := t = { s with teams := t.teams }

theorem OnlyTeams.trans {s t u : State} (h : OnlyTeams s t) (k : OnlyTeams t u) : OnlyTeams s u := by
  unfold OnlyTeams at *
  rw [k, h]

/-- With the teams put back, the state is the old one. -/
theorem OnlyTeams.restore {s t : State} (h : OnlyTeams s t) : { t with teams := s.teams } = s := by
  unfold OnlyTeams at h
  rw [h]

theorem modTeam_only_teams (s : State) (t : Nat) (f : Team → Team) : OnlyTeams s (modTeam s t f) := by
  unfold modTeam
  split <;> rfl

theorem modLead_only_teams (s : State) (t : Nat) (f : Lead → Lead) : OnlyTeams s (modLead s t f) :=
  modTeam_only_teams ..

theorem modCom_lead_eq (s : State) (t : Nat) (f : Common → Common) : modCom s (.lead t) f =
    modTeam s t fun x => { x with lead := { x.lead with com := f x.lead.com } } := rfl

section
variable {e : Env} {s : State} {t : Nat} {x : Team}

/-- The record of a lead's team after a change of the lead's control state. -/
theorem modCom_lead (h : getTeam s t = some x) (f : Common → Common) :
    OnlyTeams s (modCom s (.lead t) f) ∧
      getTeam (modCom s (.lead t) f) t = some { x with lead := { x.lead with com := f x.lead.com } } :=
  modCom_lead_eq s t f ▸ ⟨modTeam_only_teams .., getTeam_modTeam_same _ _ _ _ h⟩

/-- R67, R91, R300: of its team, an issue of a lead that goes on changes the lead's control state and PC. -/
theorem done_lead (hp : e.p = .lead t) (h : getTeam s t = some x) :
    OnlyTeams s (done e s) ∧ ∃ m, getTeam (done e s) t = some { x with lead := leadFall { x.lead with com := m } } := by
  obtain ⟨hc, hx⟩ : OnlyTeams s (counted e s) ∧
      ∃ m, getTeam (counted e s) t = some { x with lead := { x.lead with com := m } } := by
    rw [counted, hp]
    exact ⟨(modCom_lead h _).1, _, (modCom_lead h _).2⟩
  obtain ⟨m, hx⟩ := hx
  obtain ⟨ha, hy⟩ : OnlyTeams (counted e s) (attach e (counted e s)) ∧
      ∃ m, getTeam (attach e (counted e s)) t = some { x with lead := { x.lead with com := m } } := by
    unfold attach
    split
    · exact ⟨rfl, m, hx⟩
    · rw [addOp, hp]
      exact ⟨(modCom_lead hx _).1, _, (modCom_lead hx _).2⟩
  obtain ⟨n, hy⟩ := hy
  rw [done, fall, hp]
  exact ⟨(hc.trans ha).trans (modLead_only_teams ..), n, getTeam_modTeam_same _ _ _ _ hy⟩

end

/-! ### What the caches leave of the teams -/

theorem foldl_teams {α : Type} (l : List α) (f : State → α → State) (s : State)
    (hf : ∀ s x, (f s x).teams = s.teams) : (l.foldl f s).teams = s.teams := by
  induction l generalizing s with
  | nil => rfl
  | cons x r ih => exact (ih _).trans (hf s x)

@[simp] theorem countSector_teams (s : State) (ctx : Option Nat) (sector : Nat) :
    (countSector s ctx sector).teams = s.teams := by
  unfold countSector
  split
  · split <;> rfl
  · rfl

@[simp] theorem countLine_teams (s : State) (p line : Nat) : (countLine s p line).teams = s.teams :=
  foldl_teams _ _ _ fun _ _ => countSector_teams ..

@[simp] theorem movedSector_teams (s : State) (ctx sector : Nat) : (movedSector s ctx sector).teams = s.teams := by
  unfold movedSector
  split
  · rfl
  · exact countSector_teams ..

@[simp] theorem lineBack_teams (s : State) (line : Nat) : (lineBack s line).teams = s.teams := by
  unfold lineBack
  split
  · split
    · exact countLine_teams ..
    · rfl
  · rfl

@[simp] theorem scAllocate_teams (s : State) (line p lv : Nat) : (scAllocate s line p lv).teams = s.teams := by
  unfold scAllocate
  dsimp only
  split
  · rfl
  split
  · simp
  split
  · simp
  · rfl

@[simp] theorem sliceWrite_teams (s : State) (ctx sector mask : Nat) (l : List Byte) (bad : Bool) :
    (sliceWrite s ctx sector mask l bad).teams = s.teams := by
  unfold sliceWrite
  dsimp only
  split
  · rfl
  split
  · rfl
  · exact movedSector_teams ..

@[simp] theorem drainEntry_teams (s : State) (e : WbEntry) : (drainEntry s e).teams = s.teams := by
  unfold drainEntry
  dsimp only
  split <;> simp [wbDrop]

/-- R153: a drain moves bytes from the write buffer to the slices, and no party. -/
@[simp] theorem drainCore_teams (s : State) (core : Nat) : (drainCore s core).teams = s.teams :=
  foldl_teams _ _ _ drainEntry_teams

/-! ### What a phase boundary leaves of a group -/

theorem Tab.find_map {α β : Type} (t : Tab α) (f : α → β) (k : Nat) :
    Tab.find (t.map fun x => (x.1, f x.2) : Tab β) k = (Tab.find t k).map f := by
  induction t with
  | nil => rfl
  | cons x r ih =>
    simp only [List.map_cons, Tab.find]
    split
    · rfl
    · exact ih

/-- A party's control state when its accesses in flight allocate no more in L1 (R153). -/
def withholdL1 (c : Common) : Common :=
  { c with ops := c.ops.map fun o => { o with lanes := o.lanes.map fun l => { l with l1 := 0 } } }

/-- A group as a phase boundary of a core leaves it. -/
def groupPastBoundary (core : Nat) (g : Group) : Group := if g.core = core then { g with com := withholdL1 g.com } else g

/-- A team as a phase boundary of a core leaves it. -/
def teamPastBoundary (core : Nat) (t : Team) : Team := { t with
  lead := if t.core = core then { t.lead with com := withholdL1 t.lead.com } else t.lead
  groups := t.groups.map fun g => (g.1, groupPastBoundary core g.2) }

theorem phaseBoundary_teams (s : State) (core : Nat) :
    (phaseBoundary s core).teams = s.teams.map fun t => (t.1, teamPastBoundary core t.2) := by
  have hgroup : (fun g : Nat × Group => if g.2.core = core then (g.1, { g.2 with com := withholdL1 g.2.com }) else g) =
      fun g => (g.1, groupPastBoundary core g.2) := by
    funext g
    unfold groupPastBoundary
    split <;> rfl
  unfold teamPastBoundary
  rw [← hgroup]
  rfl

theorem getTeam_phaseBoundary (s : State) (core t : Nat) :
    getTeam (phaseBoundary s core) t = (getTeam s t).map (teamPastBoundary core) := by
  rw [getTeam, phaseBoundary_teams, Tab.find_map]
  rfl

theorem getGroup_phaseBoundary (s : State) (core t g : Nat) :
    getGroup (phaseBoundary s core) t g = (getGroup s t g).map (groupPastBoundary core) := by
  rw [getGroup, getGroup, getTeam_phaseBoundary]
  cases getTeam s t with
  | none => rfl
  | some x => exact Tab.find_map x.groups _ g

@[simp] theorem groupPastBoundary_rd (core : Nat) (g : Group) : (groupPastBoundary core g).rd = g.rd := by
  unfold groupPastBoundary
  split <;> rfl

@[simp] theorem phaseBoundary_tick (s : State) (core : Nat) : (phaseBoundary s core).tick = s.tick := rfl

/-! ### Taking the DQ entry -/

section
variable {e : Env} {v : DWord}

/-- R41: taking the DQ entry moves the group's `rd` on. -/
theorem popAll_rd {g : Group} (hd : e.dq = some v) (hr : e.recs = []) (hg : getGroup e.s e.t e.gid = some g) :
    (getGroup (popAll e).s e.t e.gid).map (·.rd) = some (g.rd + 1) := by
  rw [popAll, hd, hr]
  dsimp only [List.foldl_nil]
  split
  · simp [getGroup_phaseBoundary, getGroup_modGroup, hg]
  · simp [getGroup_modGroup, hg]

/-- R39: the entry taken is still the one at the group's `rd` before the issue. -/
theorem popAll_dqHead (hr : e.recs = []) : dqHead (popAll e) = dqHead e := by
  have htick : (popAll e).s.tick = e.s.tick := by
    rw [popAll, hr]
    dsimp only [List.foldl_nil]
    split
    · rfl
    split
    · rw [phaseBoundary_tick, modGroup_tick]
    · exact modGroup_tick ..
  unfold dqHead
  rw [htick]
  rfl

end

end Sys2Proof.Machine
end

section
/-! O18: DQPUSH and DQPOP. A lead appends to the queue of its team; a group reads at its own `rd`, which taking the entry
moves on. -/

namespace Sys2Proof.Machine

/-- The opcode of DQPUSH is a lead's alone. -/
theorem kindOk_dqpush {k : Kind} (h : kindOk 0x20B k = true) : k = .lead := by
  cases k with
  | lead => rfl
  | group => exact absurd h (by decide)
  | porter => exact absurd h (by decide)

/-- The opcode of DQPOP is a group's alone. -/
theorem kindOk_dqpop {k : Kind} (h : kindOk 0x20C k = true) : k = .group := by
  cases k with
  | group => rfl
  | lead => exact absurd h (by decide)
  | porter => exact absurd h (by decide)

theorem kindOf_lead {p : Party} (h : kindOf p = .lead) : ∃ t, p = .lead t := by
  cases p with
  | lead t => exact ⟨t, rfl⟩
  | group t g => cases h
  | porter c n => cases h

theorem kindOf_group {p : Party} (h : kindOf p = .group) : ∃ t g, p = .group t g := by
  cases p with
  | group t g => exact ⟨t, g, rfl⟩
  | lead t => cases h
  | porter c n => cases h

/-- R400: what DQPUSH does where an `Active` thread pushes and the queue has room. -/
theorem exec_dqpush {c : Ctl} {a : Code} {s : State} {e : Env} (h : Runs s (.dqpush c a) e) (hact : e.act ≠ [])
    (hroom : dqOccupancy e.tm < 64) : Machine.exec (.dqpush c a) s = .next (done e (modTeam
      (if e.tm.pair then drainCore e.s e.core else e.s) e.t (dqPushOne (BitVec.ofNat 64 (val e a 0))))) := by
  change execDqpush c a s = _
  refine perform_next h ?_
  rw [if_neg (by simpa using hact), if_neg (Nat.not_le.2 hroom)]

/-- R39, R40: the entry stands at the end of the team's queue; nothing but teams changes, a pair's drain aside. -/
theorem dqpush_appends {c : Ctl} {a : Code} {s : State} {e : Env} (h : Runs s (.dqpush c a) e) (hact : e.act ≠ [])
    (hroom : dqOccupancy e.tm < 64) :
    ∃ u x, Machine.exec (.dqpush c a) s = .next u ∧ getTeam u e.t = some x ∧ x.wr = e.tm.wr + 1 ∧
      x.dq = (e.tm.dq ++ [BitVec.ofNat 64 (val e a 0)]).drop (e.tm.dq.length + 1 - 64) ∧ x.groups = e.tm.groups ∧
      (e.tm.pair = false → { u with teams := s.teams } = s) ∧ Moves u e (fun _ => none) := by
  obtain ⟨hop, hkind, -⟩ := h.checked
  have hlead : e.kind = .lead := kindOk_dqpush (opOf_dqpush c a ▸ hop)
  obtain ⟨t, hp⟩ := kindOf_lead (hkind ▸ hlead)
  have henv := h.env_of_takes_nothing rfl (by simp [usesDq, hlead])
  rw [hp] at henv
  obtain ⟨hteam, hs, ht, -, hpc⟩ := envOf_lead_spec henv
  have hdrained : getTeam (if e.tm.pair then drainCore e.s e.core else e.s) e.t = some e.tm := by
    rw [hs, ht, ← hteam]
    split
    · rw [getTeam, drainCore_teams, getTeam]
    · rfl
  have hpushed := getTeam_modTeam_same _ e.t (dqPushOne (BitVec.ofNat 64 (val e a 0))) _ hdrained
  obtain ⟨honly, m, hx⟩ := done_lead (ht ▸ hp) hpushed
  refine ⟨_, _, exec_dqpush h hact hroom, hx, rfl, rfl, rfl, fun hpair => ?_, fun l _ => ?_⟩
  · have hkept : (if e.tm.pair then drainCore e.s e.core else e.s) = s := by rw [hpair, hs]; rfl
    rw [hkept] at honly ⊢
    exact ((modTeam_only_teams ..).trans honly).restore
  · simp [pcAt, hp, ← ht, hx, leadFall, hpc, dqPushOne]

/-- R41, R399: DQPOP writes the entry that the issue took. -/
theorem exec_dqpop {c : Ctl} {d : Code} {half : Bool} {s : State} {e : Env} {v : DWord} (h : Runs s (.dqpop c d half) e)
    (hv : e.dq = some v) : Machine.exec (.dqpop c d half) s =
      .next (done e (writeRun e e.s d (if half then 1 else 2) fun _ => v.toNat)) := by
  change execDqpop c d half s = _
  refine perform_next h ?_
  rw [hv]
  rfl

/-- R41: the issue has moved the group's `rd` on, and took the entry there. -/
theorem dqpop_takes {c : Ctl} {d : Code} {half : Bool} {s : State} {e : Env} {v : DWord} (h : Runs s (.dqpop c d half) e)
    (hv : e.dq = some v) : (getGroup e.s e.t e.gid).map (·.rd) = some (e.g.rd + 1) ∧ dqHead e = some v := by
  obtain ⟨hop, hkind, -⟩ := h.checked
  obtain ⟨t, n, hp⟩ := kindOf_group (hkind ▸ kindOk_dqpop (opOf_dqpop c d half ▸ hop))
  obtain ⟨b, hb, he⟩ := h.env_of_no_pop rfl
  obtain ⟨-, -, -, -, hrecs, -⟩ := envOf_spec hb
  rw [hp] at hb
  obtain ⟨-, hs, ht, hg⟩ := envOf_group_spec hb
  have hgroup : getGroup b.s b.t b.gid = some b.g := by
    rw [hs, ht, hg, getGroup, getTeam_setTeam]
    exact find_setGroup_same ..
  have hdq : (if usesDq b (rulesOf (.dqpop c d half)) then dqHead b else none) = some v := by rw [← hv, he]; rfl
  have hhead : dqHead b = some v := by
    split at hdq
    · exact hdq
    · cases hdq
  rw [hdq] at he
  subst he
  exact ⟨popAll_rd rfl hrecs hgroup, (popAll_dqHead (e := { b with dq := some v }) hrecs).trans hhead⟩

/-- Settles O18: DQPUSH is a lead's, whose team takes the entry (`dqpush_appends`); DQPOP is a group's, whose `rd` moves
on as the entry is taken (`dqpop_takes`). -/
theorem decisionQueuePushAndPop : Obligations.DecisionQueuePushAndPop := by
  unfold Obligations.DecisionQueuePushAndPop
  exact ⟨fun _ _ _ _ h hact hroom => dqpush_appends h hact hroom,
    fun _ _ _ _ _ _ h hv => ⟨exec_dqpop h hv, dqpop_takes h hv⟩⟩

end Sys2Proof.Machine
end

section
/-! O39: RDSR and WRSR. The value read is the table's entry, and the reserved bits of a register are one field of the word,
so that a mask that finds them clear bounds the word. -/

namespace Sys2Proof.Machine

/-! ### Bits -/

theorem fromBits_lt (f : Nat → Bool) (n : Nat) : fromBits f n < 2 ^ n := by
  induction n with
  | zero => exact Nat.one_pos
  | succ n ih =>
    have := Nat.mul_le_mul_right (2 ^ n) (Bool.toNat_le (f n))
    rw [fromBits, Nat.pow_succ]
    omega

theorem testBit_fromBits (f : Nat → Bool) (n i : Nat) : (fromBits f n).testBit i = (decide (i < n) && f i) := by
  induction n with
  | zero => simp [fromBits]
  | succ n ih =>
    rw [fromBits, Nat.add_comm, Nat.mul_comm, Nat.testBit_two_pow_mul_add _ (fromBits_lt f n), ih]
    by_cases hlt : i < n
    · simp [hlt, Nat.lt_succ_of_lt hlt]
    by_cases heq : i = n
    · subst heq
      cases f i <;> simp
    · have hlt' : ¬ i < n + 1 := by omega
      obtain ⟨k, hk⟩ : ∃ k, i - n = k + 1 := ⟨i - n - 1, by omega⟩
      rw [if_neg hlt, hk]
      cases f n <;> simp [hlt', Nat.testBit_add_one]

/-- Eight bits by their lowest, their highest, and the six between. -/
theorem fromBits_between (f : Nat → Bool) (a b : Bool) :
    fromBits (fun i => if i = 0 then a else if i = 7 then b else f i) 8 =
      fromBits (fun i => decide (1 ≤ i ∧ i ≤ 6) && f i) 7 + b.toNat * 128 + a.toNat := by
  change 0 + a.toNat * 2 ^ 0 + (f 1).toNat * 2 ^ 1 + (f 2).toNat * 2 ^ 2 + (f 3).toNat * 2 ^ 3 + (f 4).toNat * 2 ^ 4 +
      (f 5).toNat * 2 ^ 5 + (f 6).toNat * 2 ^ 6 + b.toNat * 2 ^ 7 =
    0 + 0 * 2 ^ 0 + (f 1).toNat * 2 ^ 1 + (f 2).toNat * 2 ^ 2 + (f 3).toNat * 2 ^ 3 + (f 4).toNat * 2 ^ 4 +
      (f 5).toNat * 2 ^ 5 + (f 6).toNat * 2 ^ 6 + b.toNat * 128 + a.toNat
  omega

/-- R214: the sticky bits of `%mstat`. -/
theorem testBit_sticky (i : Nat) : (0x7E).testBit i = decide (1 ≤ i ∧ i ≤ 6) := by
  by_cases h : i < 7
  · exact (by decide : ∀ i < 7, (0x7E).testBit i = decide (1 ≤ i ∧ i ≤ 6)) i h
  · rw [Nat.testBit_lt_two_pow (Nat.lt_of_lt_of_le (by omega) (Nat.pow_le_pow_right Nat.two_pos (Nat.not_lt.1 h)))]
    exact (decide_eq_false (by omega)).symm

/-- A mask of `w` bits from bit `lo` on takes that field of a number. -/
theorem and_field (n lo w : Nat) : n &&& (2 ^ w - 1) <<< lo = (n / 2 ^ lo % 2 ^ w) <<< lo := by
  refine Nat.eq_of_testBit_eq fun i => ?_
  rw [← Nat.shiftRight_eq_div_pow]
  by_cases h : lo ≤ i
  · simp [h, Bool.and_comm]
  · simp [h]

theorem and_field_eq_zero (n lo w : Nat) : n &&& (2 ^ w - 1) <<< lo = 0 ↔ n / 2 ^ lo % 2 ^ w = 0 := by
  rw [and_field, Nat.shiftLeft_eq, Nat.mul_eq_zero, or_iff_left (Nat.ne_of_gt (Nat.two_pow_pos lo))]

/-! ### Reading -/

theorem trapSeen_eq (e : Env) : trapSeen e = seenTrap e := by
  unfold trapSeen seenTrap served
  cases (getCore e.s e.core).serving <;> rfl

theorem mstatOf_eq (s : State) (t : Nat) (tm : Team) : mstatOf s t tm = fromBits (fun i =>
    if i = 0 then s.cores.any fun k => k.2.me.any fun m => m.team == t
    else if i = 7 then (getCore s tm.core).narrow
    else tm.mstat.getLsbD i) 8 := by
  have hsticky : tm.mstat.toNat &&& 0x7E = fromBits (fun i => decide (1 ≤ i ∧ i ≤ 6) && tm.mstat.getLsbD i) 7 := by
    refine Nat.eq_of_testBit_eq fun i => ?_
    rw [Nat.testBit_and, testBit_sticky, testBit_fromBits, BitVec.testBit_toNat]
    by_cases h : 1 ≤ i ∧ i ≤ 6
    · simp [h, show i < 7 by omega]
    · simp [h]
  rw [mstatOf, hsticky, fromBits_between]

theorem keySlotOf_eq (x : Context) : keySlotOf x =
    (((x.slots.length % 8 * 64 + (x.slots[3]?).getD 0 % 64) * 64 + (x.slots[2]?).getD 0 % 64) * 64 +
      (x.slots[1]?).getD 0 % 64) * 64 + (x.slots[0]?).getD 0 % 64 := by
  simp only [keySlotOf, nth]
  omega

/-- R453: the values that RDSR gives are those of the table. -/
theorem srValue_eq_specialOf (e : Env) (sr l : Nat) : srValue e sr l = specialOf e sr l := by
  unfold srValue
  split
  case h_27 =>
    simp only [imp_false] at *
    simp [specialOf, *]
  all_goals simp [specialOf, trapSeen_eq, mstatOf_eq, keySlotOf_eq, served, and_comm]

theorem srWide_iff (sr : BitVec 8) : srWide sr.toNat = true ↔
    sr = 0x0C ∨ sr = 0x0E ∨ sr = 0x15 ∨ sr = 0x16 ∨ sr = 0x22 := by
  simp [srWide, ← BitVec.toNat_inj]

section
variable {c : Ctl} {d : Code} {s : State} {e : Env}

/-- A trap that is none of a page or a line stops a group or lead at once. -/
theorem settle_trap {p : Party} (hp : kindOf p ≠ .porter) (i : Instr) (pc : DWord) {code : Byte} (detail va : Nat)
    (hpage : code ≠ tcPage) (hparity : code ≠ tcParity) :
    settle s p i pc (.trap code detail va) = raiseTrap s p code detail pc va := by
  simp only [settle, if_neg hpage, if_neg hparity]
  cases p with
  | porter n k => exact absurd rfl hp
  | group t g => rfl
  | lead t => rfl

/-- The opcode of RDSR is no porter's. -/
theorem rdsr_no_porter {sr : BitVec 8} (h : Runs s (.rdsr c d sr) e) : kindOf e.p ≠ .porter :=
  h.no_porter (by rw [opOf_rdsr]; decide)

/-- R452: RDSR of a register that may be read. -/
theorem exec_rdsr {sr : BitVec 8} (h : Runs s (.rdsr c d sr) e) (hwidth : sr = 0x08 → e.tm.declared = true) {t : State}
    (ht : t = if sr = 0x0C then tickCycle e.s e.core else e.s) :
    Machine.exec (.rdsr c d sr) s = .next (done e (writeRun e t d
      (if e.kind == .group && srWide sr.toNat then 2 else 1) (specialOf { e with s := t } sr.toNat))) := by
  have hdeclared : ¬(sr = 0x08 ∧ e.act ≠ [] ∧ e.tm.declared = false) := by
    rintro ⟨hsr, -, hno⟩
    rw [hwidth hsr] at hno
    cases hno
  have hvalue : srValue { e with s := t } sr.toNat = specialOf { e with s := t } sr.toNat :=
    funext (srValue_eq_specialOf _ _)
  change execRdsr c d sr s = _
  refine perform_next h ?_
  dsimp only
  rw [if_neg hdeclared, ← ht, hvalue]

/-- R452, R453: RDSR of every register but `%cycle`. -/
theorem rdsr_reads {sr : BitVec 8} (h : Runs s (.rdsr c d sr) e) (hcycle : sr ≠ 0x0C)
    (hwidth : sr = 0x08 → e.tm.declared = true) :
    Machine.exec (.rdsr c d sr) s = .next (done e (writeRun e e.s d
      (if e.kind = .group ∧ (sr = 0x0E ∨ sr = 0x15 ∨ sr = 0x16 ∨ sr = 0x22) then 2 else 1) (specialOf e sr.toNat))) := by
  have hwide : (e.kind == .group && srWide sr.toNat) = true ↔
      e.kind = .group ∧ (sr = 0x0E ∨ sr = 0x15 ∨ sr = 0x16 ∨ sr = 0x22) := by
    rw [Bool.and_eq_true, beq_iff_eq, srWide_iff, or_iff_right hcycle]
  rw [exec_rdsr h hwidth (if_neg hcycle).symm]
  simp only [hwide]

/-- R289: what `%cycle` has counted to as it is read. -/
def cycleRead (e : Env) : DWord := (getCore e.s e.core).cycle + BitVec.ofNat 64 (Config.freeCycles e.s.tick)

/-- R289: RDSR of `%cycle`, which has counted on. -/
theorem rdsr_cycle_counts (h : Runs s (.rdsr c d 0x0C) e) :
    ∃ n : DWord, Machine.exec (.rdsr c d 0x0C) s = .next (done e (writeRun e
      (modCore e.s e.core fun k => { k with
        cycle := n }) d (if e.kind = .group then 2 else 1) fun _ => n.toNat)) := by
  have hvalue : specialOf { e with s := tickCycle e.s e.core } (0x0C : BitVec 8).toNat = fun _ => (cycleRead e).toNat := by
    funext l
    simp [specialOf, tickCycle, cycleRead]
  refine ⟨cycleRead e, ?_⟩
  rw [exec_rdsr h (fun x => absurd x (by decide)) (if_pos rfl).symm, hvalue]
  cases e.kind <;> rfl

/-- R29, R452: RDSR of `%width` traps where the kernel declares none. -/
theorem exec_rdsr_undeclared (h : Runs s (.rdsr c d 0x08) e) (hact : e.act ≠ []) (hno : e.tm.declared = false) :
    Machine.exec (.rdsr c d 0x08) s = .next (raiseTrap s e.p 0x15 0x08 e.pc 0) := by
  rw [← show tcWidth = 0x15 from rfl, ← settle_trap (rdsr_no_porter h) (.rdsr c d 0x08) _ _ _ (by decide) (by decide)]
  change execRdsr c d 0x08 s = _
  exact perform_stop h (if_pos ⟨rfl, hact, hno⟩)

end

/-! ### Writing -/

theorem wordWritten_lt (e : Env) (a : Code) (imm : Bool) (v : BitVec 24) : wordWritten e a imm v < 2 ^ 32 := by
  unfold wordWritten
  split
  · exact Nat.lt_trans v.isLt (by omega)
  · exact Nat.mod_lt _ (by omega)

/-- R481: the reserved bits of a writable register are the field of `w` bits from bit `lo`. -/
theorem reserved_clear_iff {n lo w : Nat} {sr : Nat} (h : srReserved sr = (2 ^ w - 1) <<< lo) :
    n &&& srReserved sr = 0 ↔ n / 2 ^ lo % 2 ^ w = 0 := by
  rw [h, and_field_eq_zero]

theorem modTeam_congr {s : State} {t : Nat} {x : Team} {f g : Team → Team} (hx : getTeam s t = some x) (h : f x = g x) :
    modTeam s t f = modTeam s t g := by
  simp only [modTeam, hx, h]

theorem mapLanes_congr {thr : List Thread} {i : Nat} {ls : List Nat} {f g : Nat → Thread → Thread}
    (h : ∀ l ∈ ls, f l = g l) : mapLanes thr i ls f = mapLanes thr i ls g := by
  induction thr generalizing i with
  | nil => rfl
  | cons t r ih =>
    rw [mapLanes, mapLanes, ih]
    congr 1
    split
    next hl => rw [h i (by simpa using hl)]
    · rfl

/-- A run of source registers is not the DQ. -/
theorem goodCode_reg_not_dq {k : Kind} {cls alloc n : Nat} {a : Code} (h : goodCode k cls alloc ⟨a, .reg n⟩ = true) :
    isDq a = false := by
  have hplain : plainCode k alloc ⟨a, .reg n⟩ = true := by simpa [goodCode, Role.queued] using h
  exact (plainCode_spec cls 0 hplain).2.2.2

/-- The team of a group or lead that issues stands in the state but for its groups. -/
theorem envOf_team {s : State} {p : Party} {i : Instr} {c : Ctl} {e : Env} (h : envOf s p i c = some e)
    (hp : kindOf p ≠ .porter) : ∃ x, getTeam e.s e.t = some x ∧ x.mstat = e.tm.mstat := by
  cases p with
  | porter n k => exact absurd rfl hp
  | lead t =>
    obtain ⟨hteam, hs, ht, -⟩ := envOf_lead_spec h
    exact ⟨e.tm, by rw [hs, ht, hteam], rfl⟩
  | group t g =>
    obtain ⟨-, hs, ht, -⟩ := envOf_group_spec h
    exact ⟨setGroup e.tm g e.g, by rw [hs, ht, getTeam_setTeam], rfl⟩

section
variable {c : Ctl} {a : Code} {sr : BitVec 8} {imm : Bool} {v : BitVec 24} {s : State} {e : Env}

/-- The opcode of WRSR is no porter's. -/
theorem wrsr_no_porter (h : Runs s (.wrsr c a sr imm v) e) : kindOf e.p ≠ .porter :=
  h.no_porter (by rw [opOf_wrsr]; decide)

/-- WRSR takes nothing out of the state before it writes. -/
theorem wrsr_team (h : Runs s (.wrsr c a sr imm v) e) : ∃ x, getTeam e.s e.t = some x ∧ x.mstat = e.tm.mstat := by
  obtain ⟨-, -, hcodes⟩ := h.checked
  refine envOf_team (h.env_of_takes_nothing ?_ ?_) (wrsr_no_porter h)
  · cases imm <;> rfl
  · cases imm with
    | true => simp [usesDq, rulesOf]
    | false =>
      have hdq := goodCode_reg_not_dq (hcodes _ (List.mem_singleton.2 rfl))
      simp [usesDq, rulesOf, hdq]

/-- R480, R481: WRSR of a 32-bit register with its reserved bits clear. -/
theorem wrsr_writes (h : Runs s (.wrsr c a sr imm v) e) (hact : e.act ≠ []) (hmeet : sr ≠ 0x0E)
    (hclear : wordWritten e a imm v &&& srReserved sr.toNat = 0) :
    Machine.exec (.wrsr c a sr imm v) s = .next (done e (srWrite e sr.toNat (wordWritten e a imm v))) := by
  change execWrsr c a sr imm v s = _
  refine perform_next h ?_
  rw [if_neg (by simpa using hact), if_neg hmeet]
  exact if_neg fun hset => hset hclear

/-- R481: WRSR of a 32-bit register with a reserved bit set. -/
theorem wrsr_traps (h : Runs s (.wrsr c a sr imm v) e) (hact : e.act ≠ []) (hmeet : sr ≠ 0x0E)
    (hset : wordWritten e a imm v &&& srReserved sr.toNat ≠ 0) :
    Machine.exec (.wrsr c a sr imm v) s = .next (raiseTrap s e.p 0x01 sr.toNat e.pc 0) := by
  rw [← show tcIllegal = 0x01 from rfl,
    ← settle_trap (wrsr_no_porter h) (.wrsr c a sr imm v) _ _ _ (by decide) (by decide)]
  change execWrsr c a sr imm v s = _
  refine perform_stop h ?_
  rw [if_neg (by simpa using hact), if_neg hmeet]
  exact if_pos hset

/-- R73, R481: WRSR of `%meet` with none or a well-formed PC in every `Active` lane. -/
theorem wrsr_meet (h : Runs s (.wrsr c a 0x0E imm v) e) (hact : e.act ≠ []) {n : Nat → DWord}
    (hn : ∀ l ∈ e.act, n l = BitVec.ofNat 64 (if imm then v.toNat else val64 e a l) ∧ (n l = noPc ∨ pcOk (n l) = true)) :
    Machine.exec (.wrsr c a 0x0E imm v) s = .next (done e (modGroup e.s e.t e.gid fun x => { x with
      thr := mapLanes x.thr 0 e.act fun l h => { h with
        meet := n l } })) := by
  have hmeet : meetWrite e (fun l => if imm then v.toNat else val64 e a l) =
      .ok (modGroup e.s e.t e.gid fun x => { x with
        thr := mapLanes x.thr 0 e.act fun l h => { h with
          meet := n l } }) := by
    have hgood : e.act.find? (fun l => !(BitVec.ofNat 64 (if imm then v.toNat else val64 e a l) == noPc ||
        pcOk (BitVec.ofNat 64 (if imm then v.toNat else val64 e a l)))) = none := by
      refine List.find?_eq_none.2 fun l hl => ?_
      rw [← (hn l hl).1]
      rcases (hn l hl).2 with h | h <;> simp [h]
    rw [meetWrite, hgood]
    dsimp only
    have hthr : ∀ x : Group, mapLanes x.thr 0 e.act (fun l h => { h with
          meet := BitVec.ofNat 64 (if imm then v.toNat else val64 e a l) }) =
        mapLanes x.thr 0 e.act fun l h => { h with
          meet := n l } :=
      fun x => mapLanes_congr fun l hl => by rw [(hn l hl).1]
    simp only [hthr]
  change execWrsr c a 0x0E imm v s = _
  refine perform_next h ?_
  rw [if_neg (by simpa using hact), if_pos rfl, hmeet]

/-- R214: the sticky bits of `%mstat` that the word has set fall, and the other bits stand. -/
theorem getLsbD_sticky_cleared (m : Word) (n i : Nat) : (m &&& ~~~BitVec.ofNat 32 (n &&& 0x7E)).getLsbD i =
    (m.getLsbD i && !(decide (1 ≤ i ∧ i ≤ 6) && n.testBit i)) := by
  rw [BitVec.getLsbD_and, BitVec.getLsbD_not, BitVec.getLsbD_ofNat, Nat.testBit_and, testBit_sticky]
  by_cases hi : i < 32
  · simp [hi, Bool.and_comm]
  · simp [BitVec.getLsbD_of_ge m i (by omega)]

/-- R214, R481: WRSR of `%mstat`. -/
theorem wrsr_mstat (h : Runs s (.wrsr c a 0x12 imm v) e) (hact : e.act ≠ []) (hlow : wordWritten e a imm v < 2 ^ 8) :
    ∃ w : Word, Machine.exec (.wrsr c a 0x12 imm v) s = .next (done e (modTeam e.s e.t fun t => { t with
      mstat := w })) ∧ ∀ i, w.getLsbD i = (e.tm.mstat.getLsbD i &&
        !(decide (1 ≤ i ∧ i ≤ 6) && (wordWritten e a imm v).testBit i)) := by
  obtain ⟨x, hx, hm⟩ := wrsr_team h
  have hclear : wordWritten e a imm v &&& srReserved 0x12 = 0 := (reserved_clear_iff (lo := 8) (w := 24) rfl).2 (by omega)
  refine ⟨e.tm.mstat &&& ~~~BitVec.ofNat 32 (wordWritten e a imm v &&& 0x7E), ?_, getLsbD_sticky_cleared _ _⟩
  rw [wrsr_writes h hact (by decide) hclear, ← hm]
  exact congrArg (fun t => Host.Outcome.next (done e t)) (modTeam_congr hx rfl)

/-- R303, R481: WRSR of `%preempttest`, but for bit 31 over a zero count. -/
theorem wrsr_preempttest (h : Runs s (.wrsr c a 0x20 imm v) e) (hact : e.act ≠ [])
    (hfree : wordWritten e a imm v / 2 ^ 16 % 2 ^ 15 = 0) (hcount : wordWritten e a imm v ≠ 2 ^ 31) :
    Machine.exec (.wrsr c a 0x20 imm v) s = .next (done e (modCore e.s e.core fun k => { k with
      ptest := BitVec.ofNat 32 (wordWritten e a imm v) })) := by
  have hlt := wordWritten_lt e a imm v
  rw [wrsr_writes h hact (by decide) ((reserved_clear_iff (lo := 16) (w := 15) rfl).2 hfree)]
  have hnow : ¬(tb (wordWritten e a imm v) 31 ∧ wordWritten e a imm v % 2 ^ 16 = 0) := by
    simp only [tb, beq_iff_eq]
    omega
  exact congrArg (fun t => Host.Outcome.next (done e t)) (if_neg hnow)

/-- R303: bit 31 of `%preempttest` over a zero count pre-empts at once. -/
theorem wrsr_preempts (h : Runs s (.wrsr c a 0x20 imm v) e) (hact : e.act ≠ []) (hnow : wordWritten e a imm v = 2 ^ 31) :
    Machine.exec (.wrsr c a 0x20 imm v) s = .next (done e (preemptCore (modCore e.s e.core fun k => { k with
      ptest := 0 }) e.core)) := by
  have hclear : wordWritten e a imm v &&& srReserved 0x20 = 0 := (reserved_clear_iff (lo := 16) (w := 15) rfl).2 (by omega)
  rw [wrsr_writes h hact (by decide) hclear, hnow]
  rfl

/-- R481: a reserved bit set in a 32-bit register. -/
theorem wrsr_reserved_traps (h : Runs s (.wrsr c a sr imm v) e) (hact : e.act ≠ [])
    (hset : sr = 0x10 ∧ 2 ^ 9 ≤ wordWritten e a imm v ∨ sr = 0x11 ∧ 2 ^ 5 ≤ wordWritten e a imm v ∨
      sr = 0x12 ∧ 2 ^ 8 ≤ wordWritten e a imm v ∨ sr = 0x20 ∧ wordWritten e a imm v / 2 ^ 16 % 2 ^ 15 ≠ 0) :
    Machine.exec (.wrsr c a sr imm v) s = .next (raiseTrap s e.p 0x01 sr.toNat e.pc 0) := by
  have hlt := wordWritten_lt e a imm v
  rcases hset with ⟨rfl, hw⟩ | ⟨rfl, hw⟩ | ⟨rfl, hw⟩ | ⟨rfl, hw⟩
  · exact wrsr_traps h hact (by decide) fun h0 => absurd ((reserved_clear_iff (lo := 9) (w := 23) rfl).1 h0) (by omega)
  · exact wrsr_traps h hact (by decide) fun h0 => absurd ((reserved_clear_iff (lo := 5) (w := 27) rfl).1 h0) (by omega)
  · exact wrsr_traps h hact (by decide) fun h0 => absurd ((reserved_clear_iff (lo := 8) (w := 24) rfl).1 h0) (by omega)
  · exact wrsr_traps h hact (by decide) fun h0 => hw ((reserved_clear_iff (lo := 16) (w := 15) rfl).1 h0)

end

/-- Settles O39: what RDSR reads is the table of the special registers (`srValue_eq_specialOf`); what WRSR writes is decided
by the reserved bits of its register (`wrsr_writes`, `wrsr_traps`), and lane by lane for `%meet` (`wrsr_meet`). -/
theorem specialRegistersAreReadAndWritten : Obligations.SpecialRegistersAreReadAndWritten := by
  unfold Obligations.SpecialRegistersAreReadAndWritten
  refine ⟨⟨fun _ _ _ _ _ h => rdsr_reads h, fun _ _ _ _ h => rdsr_cycle_counts h,
    fun _ _ _ _ h => exec_rdsr_undeclared h⟩, ?fcr, ?fsr, fun _ _ _ _ _ _ h => wrsr_mstat h,
    fun _ _ _ _ _ _ h => wrsr_preempttest h, fun _ _ _ _ _ _ h => wrsr_preempts h,
    fun _ _ _ _ _ _ _ h hact hn => wrsr_meet h hact hn, fun _ _ _ _ _ _ _ h => wrsr_reserved_traps h⟩
  case fcr =>
    intro c a imm v s e h hact hlow
    exact wrsr_writes h hact (by decide) ((reserved_clear_iff (lo := 9) (w := 23) rfl).2 (by omega))
  case fsr =>
    intro c a imm v s e h hact hlow
    exact wrsr_writes h hact (by decide) ((reserved_clear_iff (lo := 5) (w := 27) rfl).2 (by omega))

end Sys2Proof.Machine
end
section
/-! O55: what a team's start leaves of the loads that the team has outstanding. The acquire that precedes the first issue
(R163, R280) is a phase boundary, after which no access in flight on the core allocates in L1 (R153); the statement has the
team as it was but for its mark. Every team that `resumeTeam` brings back has passed a phase boundary of its own, but the
statement asks its clause of every state. -/

namespace Sys2Proof.Machine

/-- A load outstanding, whose sector its core's L1 is to take at level 2. -/
def cachingLoad : Op :=
  Tests.opOf (.ld Tests.c0 3 ⟨1, 0, 0, false, 0⟩ Tests.mo4 false) .access
    [{ Tests.laneAt 0x10000 0 0 none with
      l1 := 2 }] [(3, 0, 0)]

/-- A resident team that has not started, its lead with the load outstanding. -/
def loadingTeam : Team := { Tests.waitingTeam with
  lead := { Tests.waitingTeam.lead with
    com := { Tests.waitingTeam.lead.com with
      ops := [cachingLoad] } } }

/-- The team is of `launch0`, which has waited for a token of scope 4; its core has nothing to zero or copy. -/
def loadingState : State := Tests.launching Tests.launch0 [(0, loadingTeam)] []

/-- The team meets what O55 asks of a team that starts: its core is ready, and no operation is a monitor. -/
theorem loadingTeam_may_start :
    (∀ c ∈ teamCores loadingTeam, (getCore loadingState c).zeroing = false ∧ (getCore loadingState c).copying = false) ∧
    teamOps loadingTeam = [cachingLoad] := by decide +kernel

/-- R153, R280: once the team has started, the load allocates in L1 no more. -/
theorem loadingState_start_withholds_l1 :
    ((getTeam (Tests.after (.teamStart 0) loadingState) 0).map teamOps).map (·.map fun o => o.lanes.map (·.l1)) =
      some [[0]] := by decide +kernel

/-- Refutes O55: its clause on TEAM_START has the team unchanged but for `started`. In `loadingState` the start's acquire
takes the L1 level from the team's outstanding load. -/
theorem not_launchesRunAndEnd : ¬ Obligations.LaunchesRunAndEnd := by
  unfold Obligations.LaunchesRunAndEnd
  rintro ⟨-, -, -, -, -, -, starts, -⟩
  obtain ⟨hready, hops⟩ := loadingTeam_may_start
  have noMonitor : ∀ o ∈ teamOps loadingTeam, ∀ c d a b off m cond, o.instr ≠ .monw c d a b off m cond := by
    simp [hops, cachingLoad, Tests.opOf]
  obtain ⟨u, hx, hu, -⟩ := starts 0 loadingState loadingTeam rfl rfl rfl hready noMonitor
  have after_eq : Tests.after (.teamStart 0) loadingState = u := by rw [Tests.after, hx]
  have withheld := loadingState_start_withholds_l1
  rw [after_eq, hu] at withheld
  exact absurd withheld (by decide)

end Sys2Proof.Machine
end

section
/-! The layer of the queue statements (O21, O22, O23, O25): the opcodes of QPUSH, QPOP and QSTAT, what a queue reads after an
update of a queue, and where a party that goes on stands. -/

namespace Sys2Proof.Machine

/-! ### Opcodes -/

theorem encE_div (op : Nat) (c : Ctl) (d a b x : Code) (td : BitVec 6) (q : BitVec 4) (low : Nat) (hm : low < 2 ^ 35) :
    encE op c d a b x td q low / 2 ^ 86 = op := by
  simp only [encE, Nat.add_assoc]
  exact encHead_add_div _ _ _ _ (by omega) (encDA_add_lt _ _ _ (by omega))

theorem opOf_qpush (c : Ctl) (a : Code) (q : BitVec 4) : opOf (.qpush c a q) = 0x280 :=
  opOf_encode rfl (encE_div _ _ _ _ _ _ _ _ _ (by omega))

theorem opOf_qpop (c : Ctl) (d : Code) (q : BitVec 4) (p : Code) : opOf (.qpop c d q p) = 0x281 :=
  opOf_encode rfl (encE_div _ _ _ _ _ _ _ _ _ (by omega))

theorem opOf_qstat (c : Ctl) (d : Code) (q : BitVec 4) : opOf (.qstat c d q) = 0x282 :=
  opOf_encode rfl (encE_div _ _ _ _ _ _ _ _ _ (by omega))

/-! ### Reading a queue back -/

/-- A queue is read from the instances alone. -/
theorem getQueue_of_insts {s t : State} (h : t.insts = s.insts) (i q : Nat) : getQueue t i q = getQueue s i q := by
  unfold getQueue getInst
  rw [h]

theorem getInst_modInst_same {s : State} {i : Nat} {x : Instance} (f : Instance → Instance) (h : getInst s i = some x) :
    getInst (modInst s i f) i = some (f x) := by
  unfold modInst
  rw [h]
  exact Tab.find_set_same ..

theorem getInst_modInst_other (s : State) {i j : Nat} (f : Instance → Instance) (h : j ≠ i) :
    getInst (modInst s i f) j = getInst s j := by
  unfold modInst
  split
  · exact Tab.find_set_other _ _ _ _ h
  · rfl

theorem getQueue_eq_some {s : State} {i q : Nat} {x : Queue} :
    getQueue s i q = some x ↔ ∃ y, getInst s i = some y ∧ Tab.find y.queues q = some x := Option.bind_eq_some_iff

section
variable {s : State} {i q : Nat}

theorem getQueue_modQueue_same {x : Queue} (f : Queue → Queue) (h : getQueue s i q = some x) :
    getQueue (modQueue s i q f) i q = some (f x) := by
  obtain ⟨y, hy, hq⟩ := getQueue_eq_some.1 h
  refine getQueue_eq_some.2 ⟨_, getInst_modInst_same _ hy, ?_⟩
  rw [hq]
  exact Tab.find_set_same ..

theorem getQueue_modQueue_other (f : Queue → Queue) {j n : Nat} (h : (j, n) ≠ (i, q)) :
    getQueue (modQueue s i q f) j n = getQueue s j n := by
  by_cases hj : j = i
  · subst hj
    have hn : n ≠ q := fun hn => h (by rw [hn])
    unfold getQueue modQueue
    cases hy : getInst s j with
    | none => simp [modInst, hy]
    | some y =>
      rw [getInst_modInst_same _ hy, Option.bind_some, Option.bind_some]
      cases hq : Tab.find y.queues q with
      | none => rfl
      | some x => exact Tab.find_set_other _ _ _ _ hn
  · rw [getQueue, modQueue, getInst_modInst_other _ _ hj, getQueue]

end

/-! ### Where a party that goes on stands -/

theorem getElem?_mapLanes (thr : List Thread) (i : Nat) (ls : List Nat) (f : Nat → Thread → Thread) (l : Nat) :
    (mapLanes thr i ls f)[l]? = (thr[l]?).map fun t => if ls.contains (i + l) then f (i + l) t else t := by
  induction thr generalizing i l with
  | nil => rfl
  | cons t r ih =>
    cases l with
    | zero => rfl
    | succ l => rw [mapLanes, List.getElem?_cons_succ, ih, List.getElem?_cons_succ, Nat.add_right_comm, Nat.add_assoc i]

theorem lt_of_mem_lanesWhere {thr : List Thread} {i : Nat} {f : Thread → Bool} {l : Nat} (h : l ∈ lanesWhere thr i f) :
    l < i + thr.length := by
  induction thr generalizing i with
  | nil => cases h
  | cons t r ih =>
    have hr : l ∈ lanesWhere r (i + 1) f → l < i + (r.length + 1) := fun h => by
      have := ih h
      omega
    rw [lanesWhere] at h
    split at h
    · rcases List.mem_cons.1 h with rfl | h
      · rw [List.length_cons]
        omega
      · exact hr h
    · exact hr h

/-- A change of the threads that leaves their PCs leaves them as read by lane. -/
theorem thread_map_pc (g : Group) (f : Thread → Thread) (hf : ∀ t, (f t).pc = t.pc) (l : Nat) :
    (thread { g with
      thr := g.thr.map f } l).pc = (thread g l).pc := by
  unfold thread nth
  rw [List.getElem?_map]
  cases g.thr[l]? with
  | none => rfl
  | some t => exact hf t

/-- R70: the lanes of a frontier are threads of the group that stand at its PC. -/
theorem frontier_spec {g y : Group} {ls : List Nat} {pc : DWord} (h : frontier g = some (y, ls, pc)) :
    ∀ l ∈ ls, l < y.thr.length ∧ (thread y l).pc = pc := by
  unfold frontier at h
  dsimp only at h
  split at h
  · cases h
  next k r hpref =>
    obtain ⟨hy, h⟩ := Prod.mk.inj (Option.some.inj h)
    obtain ⟨rfl, rfl⟩ := Prod.mk.inj h
    have hsame : y.thr.length = g.thr.length ∧ ∀ l, (thread y l).pc = (thread g l).pc := by
      rw [← hy]
      split
      · exact ⟨List.length_map _, thread_map_pc g _ fun t => by split <;> rfl⟩
      · exact ⟨rfl, fun _ => rfl⟩
    intro l hl
    obtain ⟨hmem, hpc⟩ := List.mem_filter.1 hl
    have hlt : l < 0 + g.thr.length := by
      split at hmem
      · exact lt_of_mem_lanesWhere hmem
      · exact lt_of_mem_lanesWhere (List.mem_filter.1 hmem).1
    refine ⟨by omega, ?_⟩
    rw [hsame.2, ← beq_iff_eq.1 hpc, BitVec.ofNat_toNat, BitVec.setWidth_eq]

/-- R67, R70: the frontier of a group that issues. -/
theorem envOf_group_frontier {s : State} {t n : Nat} {i : Instr} {c : Ctl} {e : Env}
    (h : envOf s (.group t n) i c = some e) : ∃ g, frontier g = some (e.g, e.lanes, e.pc) := by
  unfold envOf at h
  cases ht : getTeam s t with
  | none => simp [teamOf, ht] at h
  | some tm =>
    simp only [teamOf, ht] at h
    split at h
    · cases h
    split at h
    · cases h
    next hf =>
      cases h
      exact ⟨_, hf⟩

section
variable {e : Env} {s : State} {t n : Nat} {x : Group}

theorem modCom_group (h : getGroup s t n = some x) (f : Common → Common) :
    getGroup (modCom s (.group t n) f) t n = some { x with
      com := f x.com } := by
  rw [modCom, getGroup_modGroup, h, Option.map_some]

/-- R67, R91, R300: of a group that issues, going on changes its control state and the frontier's threads. -/
theorem done_group (hp : e.p = .group t n) (h : getGroup s t n = some x) :
    ∃ m, getGroup (done e s) t n = some { x with
      com := m
      thr := mapLanes x.thr 0 e.lanes fun _ k => fallThrough k } := by
  have hc : getGroup (counted e s) t n = some { x with
      com := { x.com with wcount := x.com.wcount + 1, stall := none, wait := none } } := by
    rw [counted, hp, modCom_group h]
  obtain ⟨m, ha⟩ : ∃ m, getGroup (attach e (counted e s)) t n = some { x with
      com := m } := by
    unfold attach
    split
    · exact ⟨_, hc⟩
    · exact ⟨_, by rw [addOp, hp, modCom_group hc]⟩
  refine ⟨m, ?_⟩
  rw [done, fall, hp]
  dsimp only
  rw [getGroup_modGroup, ha, Option.map_some]

end

/-- R67: the frontier of a group or lead that has taken nothing, and whose effect moves no team, goes to the next PC. -/
theorem done_moves {s0 s : State} {i : Instr} {c : Ctl} {e : Env} (henv : envOf s0 e.p i c = some e)
    (hp : kindOf e.p ≠ .porter) (hs : s.teams = e.s.teams) : Moves (done e s) e fun _ => none := by
  intro l hl
  rw [Option.getD_none]
  cases hparty : e.p with
  | porter k n => exact absurd (by rw [hparty]; rfl) hp
  | lead t =>
    rw [hparty] at henv
    obtain ⟨hteam, hse, -, -, hpc⟩ := envOf_lead_spec henv
    have hnow : getTeam s t = some e.tm := by rw [getTeam, hs, hse, ← hteam, getTeam]
    obtain ⟨-, m, hm⟩ := done_lead hparty hnow
    rw [pcAt, hm, hpc]
    rfl
  | group t n =>
    rw [hparty] at henv
    obtain ⟨-, hse, -⟩ := envOf_group_spec henv
    obtain ⟨g, hg⟩ := envOf_group_frontier henv
    obtain ⟨hlt, hpc⟩ := frontier_spec hg l hl
    have hnow : getGroup s t n = some e.g := by
      rw [getGroup, getTeam, hs, hse]
      change getGroup (setTeam s0 t (setGroup e.tm n e.g)) t n = _
      rw [getGroup, getTeam_setTeam]
      exact find_setGroup_same ..
    obtain ⟨m, hm⟩ := done_group hparty hnow
    have hthread : (e.g.thr[l]?) = some (thread e.g l) := by
      rw [thread, nth, List.getElem?_eq_getElem hlt, Option.getD_some]
    rw [pcAt, hm, Option.map_some, Option.getD_some, thread, nth]
    dsimp only
    rw [getElem?_mapLanes, hthread, Nat.zero_add, Option.map_some, if_pos (by simpa using hl), Option.getD_some,
      fallThrough, hpc]

end Sys2Proof.Machine
end

section
/-! O21, O22 and O25: QPUSH, QPOP and QSTAT. None of them pops a queue by an operand, so that each works with the state as
it found it; QPOP takes its record by itself. -/

namespace Sys2Proof.Machine

section
variable {c : Ctl} {a d p : Code} {q : BitVec 4} {s : State} {e : Env}

/-! ### Their issue -/

theorem qpush_no_porter (h : Runs s (.qpush c a q) e) : kindOf e.p ≠ .porter :=
  h.no_porter (by rw [opOf_qpush]; decide)

theorem qpop_no_porter (h : Runs s (.qpop c d q p) e) : kindOf e.p ≠ .porter :=
  h.no_porter (by rw [opOf_qpop]; decide)

theorem qstat_no_porter (h : Runs s (.qstat c d q) e) : kindOf e.p ≠ .porter :=
  h.no_porter (by rw [opOf_qstat]; decide)

/-- QPUSH takes nothing out of the state before it pushes. -/
theorem qpush_env (h : Runs s (.qpush c a q) e) : envOf s e.p (.qpush c a q) c = some e := by
  obtain ⟨-, -, hcodes⟩ := h.checked
  have hdq := goodCode_reg_not_dq (hcodes _ (List.mem_singleton.2 rfl))
  exact h.env_of_takes_nothing rfl (by simp [usesDq, rulesOf, hdq])

/-! ### QUEUE_BINDING -/

theorem queueReason_eq_one {pop : Bool} (h : ∀ x, getQueue e.s e.tm.inst q.toNat = some x → qValid x.decl = false) :
    queueReason e q.toNat pop = 1 := by
  unfold queueReason
  cases hq : getQueue e.s e.tm.inst q.toNat with
  | none => rfl
  | some x => simp [h x hq]

theorem queueReason_eq_two {pop : Bool} {x : Queue} (hx : getQueue e.s e.tm.inst q.toNat = some x)
    (hv : qValid x.decl = true) (hend : (if pop then endOk (qCKind x.decl) (qCStage x.decl) e.kind e.tm.stage
      else endOk (qPKind x.decl) (qPStage x.decl) e.kind e.tm.stage) = false) : queueReason e q.toNat pop = 2 := by
  rw [queueReason, hx]
  dsimp only
  rw [hv, hend]
  rfl

/-- R61: a QUEUE_BINDING trap of a group or lead. -/
theorem settle_queueTrap {p : Party} (hp : kindOf p ≠ .porter) (i : Instr) (pc : DWord) (q reason : Nat) :
    settle s p i pc (queueTrapAt q reason) = raiseTrap s p 0x13 (0xA0 + q + reason * 256) pc 0 :=
  settle_trap hp i pc _ _ (by decide) (by decide)

/-- R61: QPUSH at a queue that the issuer may not push to. -/
theorem exec_qpush_traps (h : Runs s (.qpush c a q) e) {n : Nat} (hn : queueReason e q.toNat false = n) (h0 : n ≠ 0) :
    Machine.exec (.qpush c a q) s = .next (raiseTrap s e.p 0x13 (0xA0 + q.toNat + n * 256) e.pc 0) := by
  rw [← settle_queueTrap (qpush_no_porter h) (.qpush c a q)]
  change execQpush c a q s = _
  refine perform_stop h ?_
  dsimp only
  rw [hn, if_pos h0]

/-- R61: QPOP at a queue that the issuer may not pop from. -/
theorem exec_qpop_traps (h : Runs s (.qpop c d q p) e) {n : Nat} (hn : queueReason e q.toNat true = n) (h0 : n ≠ 0)
    (h3 : n ≠ 3) :
    Machine.exec (.qpop c d q p) s = .next (raiseTrap s e.p 0x13 (0xA0 + q.toNat + n * 256) e.pc 0) := by
  rw [← settle_queueTrap (qpop_no_porter h) (.qpop c d q p)]
  change execQpop c d q p s = _
  refine perform_stop h ?_
  dsimp only
  rw [hn, if_neg h3, if_pos h0]

/-- R451: QSTAT of a queue that is not valid. -/
theorem exec_qstat_traps (h : Runs s (.qstat c d q) e) (hact : e.act ≠ [])
    (hv : ∀ x, getQueue e.s e.tm.inst q.toNat = some x → qValid x.decl = false) :
    Machine.exec (.qstat c d q) s = .next (raiseTrap s e.p 0x13 (0xA0 + q.toNat + 1 * 256) e.pc 0) := by
  rw [← settle_queueTrap (qstat_no_porter h) (.qstat c d q)]
  change execQstat c d q s = _
  refine perform_stop h ?_
  rw [if_neg (by simpa using hact)]
  cases hq : getQueue e.s e.tm.inst q.toNat with
  | none => rfl
  | some x =>
    dsimp only
    rw [hv x hq]
    rfl

/-! ### QPUSH -/

/-- R449: QPUSH where the queue has room. -/
theorem exec_qpush (h : Runs s (.qpush c a q) e) (hr : queueReason e q.toNat false = 0) {x : Queue}
    (hx : getQueue e.s e.tm.inst q.toNat = some x) (hroom : qFull x = false) :
    Machine.exec (.qpush c a q) s = .next (done e (pushQueue e e.s q.toNat (val e a))) := by
  change execQpush c a q s = _
  refine perform_next h ?_
  dsimp only
  rw [hr, hx]
  dsimp only
  rw [hroom]
  rfl

theorem upto_eq_range' (lo n : Nat) : upto lo n = List.range' lo n := by
  induction n generalizing lo with
  | zero => rfl
  | succ n ih => rw [upto, ih, List.range'_succ]

/-- R55: the words of a record pushed. -/
theorem pushWords_eq (e : Env) (w : Nat) (v : Nat → Nat) : pushWords e w v = (List.range w).map (pushedWord e v) := by
  have hrange : upto 0 w = List.range w := by rw [upto_eq_range', List.range_eq_range']
  unfold pushWords
  rw [hrange]
  split
  next hk => simp [pushedWord, hk]
  next hk =>
    split
    next hact =>
      have hact : e.act = [] := by simpa using hact
      have hword : pushedWord e v = fun _ => 0 := by
        funext j
        simp [pushedWord, hk, hact]
      rw [hword, List.map_const', List.length_range]
    next hact =>
      have hact : e.act ≠ [] := by simpa using hact
      simp [pushedWord, hk, hact]

theorem fitWords_of_length {n : Nat} {l : List Word} (h : l.length = n) : fitWords n l = l := by
  rw [fitWords, List.take_of_length_le (Nat.le_of_eq h), h, Nat.sub_self, List.replicate_zero, List.append_nil]

/-- R57, R60: a record pushed stands last, reserved; a queue whose consumer end has closed discards it. -/
theorem pushRec_spec (e : Env) (x : Queue) (v : Nat → Nat) {after : Nat} {o : Origin} {y : Queue}
    (hy : y = pushRec x (pushWords e (qWords x.decl) v) (some e.p) none 0 false after o) :
    (x.cclosed = true → y = x) ∧
    (x.cclosed = false → y.decl = x.decl ∧ ∃ r, y.recs = x.recs ++ [r] ∧ r.vis = false ∧ r.tag = some e.p ∧
      r.poison = false ∧ r.words = (List.range (qWords x.decl)).map (pushedWord e v)) := by
  subst hy
  unfold pushRec
  refine ⟨fun hc => by rw [if_pos hc], fun hc => ?_⟩
  rw [if_neg (by simp [hc])]
  refine ⟨rfl, _, rfl, rfl, rfl, rfl, ?_⟩
  rw [← pushWords_eq]
  exact fitWords_of_length (by simp [pushWords_eq])

theorem modQueue_teams (s : State) (i n : Nat) (f : Queue → Queue) : (modQueue s i n f).teams = s.teams := modInst_teams ..

/-- Going on moves no queue. -/
theorem done_insts (e : Env) (s : State) : (done e s).insts = s.insts := by rw [done_only e s]

theorem qpush_reserves (h : Runs s (.qpush c a q) e) (hr : queueReason e q.toNat false = 0) {x : Queue}
    (hx : getQueue e.s e.tm.inst q.toNat = some x) (hroom : qFull x = false) :
    ∃ u y, Machine.exec (.qpush c a q) s = .next u ∧ Moves u e (fun _ => none) ∧
      getQueue u e.tm.inst q.toNat = some y ∧
      (∀ i n, (i, n) ≠ (e.tm.inst, q.toNat) → getQueue u i n = getQueue e.s i n) ∧
      (x.cclosed = true → y = x) ∧
      (x.cclosed = false → y.decl = x.decl ∧ ∃ r, y.recs = x.recs ++ [r] ∧ r.vis = false ∧ r.tag = some e.p ∧
        r.poison = false ∧ r.words = (List.range (qWords x.decl)).map (pushedWord e (val e a))) := by
  have hsame := (getQueue_of_insts (done_insts e (pushQueue e e.s q.toNat (val e a))) ..).trans
    (getQueue_modQueue_same _ hx)
  refine ⟨_, _, exec_qpush h hr hx hroom, done_moves (qpush_env h) (qpush_no_porter h) (modQueue_teams ..), hsame, ?_,
    pushRec_spec e x (val e a) rfl⟩
  intro i n hne
  rw [getQueue_of_insts (done_insts ..)]
  exact getQueue_modQueue_other _ hne

/-! ### QPOP -/

theorem headRec_eq {e : Env} {q : Nat} {x : Queue} {n : Nat} {r : Record} (hx : getQueue e.s e.tm.inst q = some x)
    (hn : popIndex x e.p = some n) (hr : x.recs[n]? = some r) : headRec e q = some (q, n, r) := by
  simp [headRec, hx, hn, hr]

/-- R450: QPOP of a record that is not poisoned. -/
theorem exec_qpop (h : Runs s (.qpop c d q p) e) (hq : queueReason e q.toNat true = 0) {n : Nat} {r : Record}
    (hhead : headRec e q.toNat = some (q.toNat, n, r)) (hpoison : r.poison = false) {f : Env}
    (hf : f = popAll { e with recs := [(q.toNat, n, r)], dq := none }) :
    Machine.exec (.qpop c d q p) s =
      .next (done f (writePred f (writeRun f f.s d 1 fun l => recVal e.kind r l) p fun _ => false)) := by
  subst hf
  change execQpop c d q p s = _
  refine perform_next h ?_
  dsimp only
  rw [hq, hhead]
  dsimp only
  rw [hpoison]
  rfl

/-- R450: QPOP at a queue whose producer end has closed and that holds nothing for the issuer. -/
theorem exec_qpop_ended (h : Runs s (.qpop c d q p) e) (hq : queueReason e q.toNat true = 3) :
    Machine.exec (.qpop c d q p) s = .next (done e (writePred e e.s p fun _ => true)) := by
  change execQpop c d q p s = _
  refine perform_next h ?_
  dsimp only
  rw [hq]
  rfl

theorem popAt_recs {x : Queue} {n : Nat} {r : Record} (p : Party) (hr : x.recs[n]? = some r) :
    (popAt x p n).recs = x.recs.eraseIdx n := by
  rw [popAt, hr]
  rfl

theorem popOrder_insts (s : State) (core : Nat) (r : Record) : (popOrder s core r).insts = s.insts := by
  unfold popOrder
  split <;> rfl

/-- R55: the record taken is gone from its queue, and no other. -/
theorem popAll_one_recs {k n : Nat} {x : Queue} {r : Record} (hx : getQueue e.s e.tm.inst k = some x)
    (hr : x.recs[n]? = some r) :
    (getQueue (popAll { e with recs := [(k, n, r)], dq := none }).s e.tm.inst k).map (·.recs) =
      some (x.recs.eraseIdx n) := by
  have hpop : getQueue (popAll { e with recs := [(k, n, r)], dq := none }).s e.tm.inst k = some (popAt x e.p n) := by
    refine (getQueue_of_insts (popOrder_insts ..) ..).trans ?_
    exact getQueue_modQueue_same _ hx
  rw [hpop, Option.map_some, popAt_recs _ hr]

theorem recVal_eq_poppedValue (k : Kind) {r : Record} (hw : r.words ≠ []) (l : Nat) : recVal k r l = poppedValue k r l := by
  have hpos : max 1 r.words.length = r.words.length := Nat.max_eq_right (List.length_pos_iff.2 hw)
  unfold recVal poppedValue nth
  dsimp only
  rw [hpos]
  split
  · rw [List.getD_eq_getElem?_getD]
  · split
    · simp only [List.getD_eq_getElem?_getD]
    next hshort =>
      have hnone : r.words[1]? = none := List.getElem?_eq_none (by omega)
      rw [hnone, List.getD_eq_getElem?_getD]
      rfl

/-! ### QSTAT -/

theorem qstatWord_eq_queueWord (x : Queue) : qstatWord x = queueWord x := by
  unfold qstatWord queueWord
  rw [List.countP_eq_length_filter]
  cases x.pclosed <;> cases x.cclosed <;> simp <;> omega

/-- R451: QSTAT of a valid queue. -/
theorem exec_qstat (h : Runs s (.qstat c d q) e) (hact : e.act ≠ []) {x : Queue}
    (hx : getQueue e.s e.tm.inst q.toNat = some x) (hv : qValid x.decl = true) :
    Machine.exec (.qstat c d q) s = .next (done e (writeRun e e.s d 1 fun _ => queueWord x)) := by
  change execQstat c d q s = _
  refine perform_next h ?_
  rw [if_neg (by simpa using hact), hx]
  dsimp only
  rw [if_pos hv, qstatWord_eq_queueWord]

end

/-! ### The statements -/

/-- Settles O21: the push changes its own queue alone (`qpush_reserves`), where the record stands last with the lanes' words
(`pushRec_spec`). -/
theorem pushesReserveAtTheTail : Obligations.PushesReserveAtTheTail := by
  unfold Obligations.PushesReserveAtTheTail
  exact fun _ _ _ _ _ _ h hr hx hroom => qpush_reserves h hr hx hroom

/-- Settles O22: QPOP by the reason for which it may not pop, 0 or 3 (`exec_qpop`, `exec_qpop_ended`); QSTAT's word is that
of R451 (`qstatWord_eq_queueWord`). -/
theorem popsAndState : Obligations.PopsAndState := by
  unfold Obligations.PopsAndState
  refine ⟨?pop, fun _ _ _ _ _ _ h hq => exec_qpop_ended h hq, fun _ _ _ _ _ _ h hact hx hv => exec_qstat h hact hx hv⟩
  case pop =>
    intro c d q p s e x n r h hq hx hn hr hpoison
    exact ⟨_, rfl, exec_qpop h hq (headRec_eq hx hn hr) hpoison rfl, popAll_one_recs hx hr,
      fun hw l => recVal_eq_poppedValue e.kind hw l⟩

/-- Settles O25: each trap is the settling of the reason that `queueReason` gives (`queueReason_eq_one`,
`queueReason_eq_two`), before the effect of the instruction. -/
theorem queueBindingTraps : Obligations.QueueBindingTraps := by
  unfold Obligations.QueueBindingTraps
  have hcode : ∀ (q : BitVec 4) (n : Nat), 0xA0 + q.toNat + n * 256 = n * 256 + 0xA0 + q.toNat := fun _ _ => by omega
  refine ⟨?_, ?_, ?_, ?_, ?_⟩
  · intro c a q s e h hv
    rw [exec_qpush_traps h (queueReason_eq_one hv) (by decide), hcode]
  · intro c a q s e x h hx hv hend
    rw [exec_qpush_traps h (queueReason_eq_two hx hv hend) (by decide), hcode]
  · intro c d q p s e x h hx hv hend
    rw [exec_qpop_traps h (queueReason_eq_two hx hv hend) (by decide) (by decide), hcode]
  · intro c d q p s e h hv
    rw [exec_qpop_traps h (queueReason_eq_one hv) (by decide) (by decide), hcode]
  · intro c d q s e h hact hv
    rw [exec_qstat_traps h hact hv, hcode]

end Sys2Proof.Machine
end

section
/-! The layer of O23 and O56: what the caches, the slices and the write buffers leave of the state. -/

namespace Sys2Proof.Machine

/-! ### Caches and slices -/

/-- `t` differs from `s` in the stacked cache, L1, the TLBs and walks, the link's refusals and the bandwidth counts at
most. -/
def OnlyCaches (s t : State) : Prop := t = { s with
  l1 := t.l1, sc := t.sc, tlb := t.tlb, walks := t.walks, refused := t.refused, bwNow := t.bwNow }

/-- Moreover memory, its poison and the vectors raised may differ: what accesses at the slices do. -/
def OnlySlices (s t : State) : Prop := t = { s with
  mem := t.mem, poison := t.poison, msix := t.msix, l1 := t.l1, sc := t.sc, tlb := t.tlb, walks := t.walks,
  refused := t.refused, bwNow := t.bwNow }

theorem OnlyCaches.trans {s t u : State} (h : OnlyCaches s t) (k : OnlyCaches t u) : OnlyCaches s u := by
  unfold OnlyCaches at *
  rw [k, h]

theorem OnlySlices.trans {s t u : State} (h : OnlySlices s t) (k : OnlySlices t u) : OnlySlices s u := by
  unfold OnlySlices at *
  rw [k, h]

theorem OnlyCaches.slices {s t : State} (h : OnlyCaches s t) : OnlySlices s t := by
  unfold OnlySlices OnlyCaches at *
  rw [h]

theorem OnlySlices.wb {s t : State} (h : OnlySlices s t) : t.wb = s.wb := by rw [h]

theorem OnlyCaches.foldl {α : Type} {f : State → α → State} (hf : ∀ s x, OnlyCaches s (f s x)) (l : List α) (s : State) :
    OnlyCaches s (l.foldl f s) :=
  List.foldlRecOn l f (motive := OnlyCaches s) rfl fun u hu x _ => hu.trans (hf u x)

theorem OnlySlices.foldl {α : Type} {f : State → α → State} (hf : ∀ s x, OnlySlices s (f s x)) (l : List α) (s : State) :
    OnlySlices s (l.foldl f s) :=
  List.foldlRecOn l f (motive := OnlySlices s) rfl fun u hu x _ => hu.trans (hf u x)

/-! ### Counts and allocation -/

theorem countSector_only (s : State) (c : Option Nat) (k : Nat) : OnlyCaches s (countSector s c k) := by
  unfold countSector
  split
  · split <;> rfl
  · rfl

theorem countLine_only (s : State) (p line : Nat) : OnlyCaches s (countLine s p line) :=
  OnlyCaches.foldl (fun s k => countSector_only s _ k) _ s

theorem movedSector_only (s : State) (c k : Nat) : OnlyCaches s (movedSector s c k) := by
  unfold movedSector
  split
  · rfl
  · exact countSector_only ..

theorem lineBack_only (s : State) (line : Nat) : OnlyCaches s (lineBack s line) := by
  unfold lineBack
  split
  · split
    · exact countLine_only ..
    · rfl
  · rfl

theorem scAllocate_only (s : State) (line p lv : Nat) : OnlyCaches s (scAllocate s line p lv) := by
  unfold scAllocate
  dsimp only
  split
  · rfl
  split
  · exact (countLine_only s p line).trans rfl
  split
  · exact ((lineBack_only ..).trans (countLine_only ..)).trans rfl
  · rfl

theorem sliceWrite_only (s : State) (ctx k mask : Nat) (l : List Byte) (bad : Bool) :
    OnlySlices s (sliceWrite s ctx k mask l bad) := by
  unfold sliceWrite
  dsimp only
  split
  · rfl
  split
  · rfl
  · exact (movedSector_only s ctx k).slices.trans rfl

/-! ### Drains -/

/-- R153: a drained entry leaves the write buffer. -/
theorem drainEntry_spec (s : State) (e : WbEntry) : ∃ t, OnlySlices s t ∧ drainEntry s e = { t with
    wb := s.wb.filter fun y => !(y.core == e.core && y.sector == e.sector) } := by
  have halloc : OnlySlices s (if e.sc = 0 then s else scAllocate s (e.sector / 4) e.part e.sc) := by
    split
    · rfl
    · exact (scAllocate_only ..).slices
  unfold drainEntry wbDrop
  dsimp only
  rw [(halloc.trans (sliceWrite_only ..)).wb]
  exact ⟨_, halloc.trans (sliceWrite_only ..), rfl⟩

theorem foldl_drainEntry_spec (l : List WbEntry) (s : State) : ∃ t, OnlySlices s t ∧ l.foldl drainEntry s = { t with
    wb := s.wb.filter fun y => l.all fun e => !(y.core == e.core && y.sector == e.sector) } := by
  induction l generalizing s with
  | nil =>
    have hall : (s.wb.filter fun y => ([] : List WbEntry).all fun e => !(y.core == e.core && y.sector == e.sector)) = s.wb :=
      List.filter_eq_self.2 fun _ _ => rfl
    exact ⟨s, rfl, congrArg (fun l => { s with
      wb := l }) hall.symm⟩
  | cons e l ih =>
    obtain ⟨t, ht, he⟩ := drainEntry_spec s e
    obtain ⟨u, hu, hl⟩ := ih (drainEntry s e)
    refine ⟨{ u with
      wb := s.wb }, ?_, ?_⟩
    · unfold OnlySlices at *
      rw [hu, he, ht]
    · rw [List.foldl_cons, hl, he]
      simp [List.filter_filter, Bool.and_comm]

/-- R153: a drain empties the write buffer of its core. -/
theorem drainCore_spec (s : State) (core : Nat) : ∃ t, OnlySlices s t ∧ drainCore s core = { t with
    wb := s.wb.filter fun y => y.core != core } := by
  obtain ⟨t, ht, hd⟩ := foldl_drainEntry_spec (s.wb.filter fun e => e.core == core) s
  refine ⟨t, ht, ?_⟩
  have hgone : (s.wb.filter fun y => (s.wb.filter fun e => e.core == core).all fun e =>
      !(y.core == e.core && y.sector == e.sector)) = s.wb.filter fun y => y.core != core := by
    refine List.filter_congr fun y hy => ?_
    by_cases hc : y.core = core
    · rw [hc, bne_self_eq_false, List.all_eq_false]
      exact ⟨y, List.mem_filter.2 ⟨hy, by simp [hc]⟩, by simp [hc]⟩
    · rw [(bne_iff_ne ..).2 hc, List.all_eq_true]
      intro e he
      have hec : e.core = core := by simpa using (List.mem_filter.1 he).2
      simp [hec, hc]
  rw [drainCore, hd, hgone]

theorem drainCore_wb (s : State) (core : Nat) : (drainCore s core).wb = s.wb.filter fun y => y.core != core := by
  obtain ⟨t, -, hd⟩ := drainCore_spec s core
  rw [hd]

theorem drainCore_insts (s : State) (core : Nat) : (drainCore s core).insts = s.insts := by
  obtain ⟨t, ht, hd⟩ := drainCore_spec s core
  rw [hd, ht]

end Sys2Proof.Machine
end

section
/-! O23: a reserved record becomes visible. Its release drains a core or does nothing, and moves no queue; then its queue
changes in the one record, and its pipeline in the queues that it has seen hold one. -/

namespace Sys2Proof.Machine

/-! ### The oldest reserved record -/

section
variable {x : Queue} {n : Nat} {r : Record}

theorem reserved_eq (hr : x.recs[n]? = some r) (hv : r.vis = false)
    (hfirst : ∀ i y, i < n → x.recs[i]? = some y → y.vis = true) : reserved x = some r := by
  obtain ⟨hn, hget⟩ := List.getElem?_eq_some_iff.1 hr
  refine List.find?_eq_some_iff_getElem.2 ⟨by simp [hv], n, hn, hget, fun j hj => ?_⟩
  simp [hfirst j _ hj (List.getElem?_eq_getElem (by omega))]

/-- R57: of the records of its queue, the one that becomes visible is set in its place. -/
theorem makeVisible_eq (hr : x.recs[n]? = some r) (hv : r.vis = false) (hu : r.unit = 0)
    (hfirst : ∀ i y, i < n → x.recs[i]? = some y → y.vis = true) (k : Nat) :
    makeVisible x.recs k = x.recs.set n { r with
      vis := true, seen := k } := by
  obtain ⟨hn, hget⟩ := List.getElem?_eq_some_iff.1 hr
  have hidx : x.recs.findIdx? (fun r => !r.vis) = some n := by
    refine List.findIdx?_eq_some_iff_getElem.2 ⟨hn, by simp [hget, hv], fun j hj => ?_⟩
    simp [hfirst j _ hj (List.getElem?_eq_getElem (by omega))]
  have hfind : x.recs.find? (fun r => !r.vis) = some r := reserved_eq hr hv hfirst
  rw [makeVisible, hfind]
  dsimp only
  rw [if_neg (by simp [hu]), hidx]
  rfl

end

/-! ### Its release -/

section
variable {s : State} {inst q : Nat} {x : Queue} {r : Record}

/-- R59, R150, R153: the release of a record is a drain of the pusher's core, or nothing. -/
theorem recordRelease_eq (s : State) (inst q : Nat) :
    recordRelease s inst q = s ∨ ∃ core, recordRelease s inst q = drainCore s core := by
  unfold recordRelease
  split
  · split
    · unfold pushOrder
      split
      · split
        · exact .inr ⟨_, rfl⟩
        · exact .inl rfl
      · exact .inl rfl
    · exact .inl rfl
  · exact .inl rfl

theorem recordRelease_insts (s : State) (inst q : Nat) : (recordRelease s inst q).insts = s.insts := by
  rcases recordRelease_eq s inst q with h | ⟨core, h⟩
  · rw [h]
  · rw [h, drainCore_insts]

/-- R150, R153, R160: on a pair, and towards an island that is no sampler or ray unit, the pusher's core drains. -/
theorem recordRelease_drains {i : Instance} {p : Party} {core : Nat} (hq : getQueue s inst q = some x)
    (hres : reserved x = some r) (htag : r.tag = some p) (horigin : r.origin = .core core) (hi : getInst s inst = some i)
    (hdrain : i.pair = true ∨ (qCKind x.decl = 4 ∧ samplerOrRay s inst q 0 = false)) :
    recordRelease s inst q = drainCore s core := by
  have hcond : (i.pair || (qCKind x.decl == 4 && !samplerOrRay s inst q 0)) = true := by simpa using hdrain
  rw [recordRelease, hq, Option.bind_some, hres]
  dsimp only
  rw [htag, horigin]
  dsimp only
  rw [pushOrder, hi, hq]
  exact if_pos hcond

/-- R59: on a single core, towards no island, the release does nothing. -/
theorem recordRelease_none (hq : getQueue s inst q = some x) (hpair : ∀ i, getInst s inst = some i → i.pair = false)
    (hkind : qCKind x.decl ≠ 4) : recordRelease s inst q = s := by
  obtain ⟨i, hi, -⟩ := getQueue_eq_some.1 hq
  have hcond : ¬(i.pair || (qCKind x.decl == 4 && !samplerOrRay s inst q 0)) = true := by simp [hpair i hi, hkind]
  unfold recordRelease
  split
  · split
    · rw [pushOrder, hi, hq]
      exact if_neg hcond
    · rfl
  · rfl

/-! ### The step -/

theorem recordReady_of_not_due (hq : getQueue s inst q = some x) (hres : reserved x = some r)
    (hdue : ∀ p c, r.tag = some p → getCom s p = some c → accessDue c r.after = false) : recordReady s inst q = true := by
  rw [recordReady, hq, Option.bind_some, hres]
  dsimp only
  cases htag : r.tag with
  | none => rfl
  | some p =>
    dsimp only
    unfold partyDue
    cases hc : getCom s p with
    | none => rfl
    | some c => simp [hdue p c htag hc]

theorem modInst_only_insts (s : State) (i : Nat) (f : Instance → Instance) : modInst s i f = { s with
    insts := (modInst s i f).insts } := by
  unfold modInst
  split <;> rfl

/-- An update of a pipeline that leaves its queues. -/
theorem getQueue_modInst (s : State) (i : Nat) {f : Instance → Instance} (hf : ∀ y, (f y).queues = y.queues) (j n : Nat) :
    getQueue (modInst s i f) j n = getQueue s j n := by
  by_cases hj : j = i
  · subst hj
    unfold getQueue
    cases hy : getInst s j with
    | none => simp [modInst, hy]
    | some y => rw [getInst_modInst_same _ hy, Option.bind_some, Option.bind_some, hf]
  · rw [getQueue, getInst_modInst_other _ _ hj, getQueue]

/-- The state once the queue's oldest reserved record is visible: its release made, the queue and the pipeline's list of
queues seen with records changed, and the record counted. -/
def recordSeen (s : State) (inst q : Nat) : State :=
  { modInst (modQueue (recordRelease s inst q) inst q fun y => { y with
      recs := makeVisible y.recs (s.seen + 1) }) inst fun y => { y with
      qseen := insSorted y.qseen q } with
    seen := s.seen + 1 }

theorem exec_queueRecordVisible (h : recordReady s inst q = true) :
    Machine.exec (.queueRecordVisible inst q) s = .next (recordSeen s inst q) := by
  change execQueueRecordVisible inst q s = _
  unfold execQueueRecordVisible
  rw [if_pos h]
  rfl

theorem recordSeen_sameButQueues (s : State) (inst q : Nat) : sameButQueues (recordRelease s inst q) (recordSeen s inst q) := by
  unfold recordSeen sameButQueues modQueue
  rw [modInst_only_insts (modInst ..), modInst_only_insts (recordRelease ..)]

theorem recordSeen_wb (s : State) (inst q : Nat) : (recordSeen s inst q).wb = (recordRelease s inst q).wb := by
  rw [← show _ = recordRelease s inst q from recordSeen_sameButQueues s inst q]

theorem getQueue_recordSeen_same (hq : getQueue s inst q = some x) :
    getQueue (recordSeen s inst q) inst q = some { x with
      recs := makeVisible x.recs (s.seen + 1) } := by
  have hreleased : getQueue (recordRelease s inst q) inst q = some x := by
    rw [getQueue_of_insts (recordRelease_insts ..), hq]
  refine (getQueue_modInst (modQueue ..) inst ?_ inst q).trans (getQueue_modQueue_same _ hreleased)
  exact fun _ => rfl

theorem getQueue_recordSeen_other (s : State) {inst q i m : Nat} (h : (i, m) ≠ (inst, q)) :
    getQueue (recordSeen s inst q) i m = getQueue s i m := by
  refine (getQueue_modInst (modQueue ..) inst ?_ i m).trans ?_
  · exact fun _ => rfl
  · rw [getQueue_modQueue_other _ h, getQueue_of_insts (recordRelease_insts ..)]

end

/-- Settles O23: the step is `recordSeen`, whose record is the oldest reserved one (`makeVisible_eq`); where R150 asks it, its
release is a drain (`recordRelease_drains`), and elsewhere nothing (`recordRelease_none`). -/
theorem recordsBecomeVisibleInOrder : Obligations.RecordsBecomeVisibleInOrder := by
  unfold Obligations.RecordsBecomeVisibleInOrder
  intro inst q s x n r hq hr hv hu hfirst hdue
  have hres := reserved_eq hr hv hfirst
  have hsame := recordSeen_sameButQueues s inst q
  refine ⟨_, _, exec_queueRecordVisible (recordReady_of_not_due hq hres hdue), hsame, getQueue_recordSeen_same hq, ?_,
    fun i m h => getQueue_recordSeen_other s h, ?_, ?_⟩
  · rw [makeVisible_eq hr hv hu hfirst]
  · intro i p core htag horigin hi hdrain
    rw [recordSeen_wb, recordRelease_drains hq hres htag horigin hi hdrain, drainCore_wb]
  · intro hpair hkind
    rwa [recordRelease_none hq hpair hkind] at hsame

end Sys2Proof.Machine
end

section
/-! O56, the pre-emption that fails: its teams run on. Their monitors are armed again, which reads memory and marks lanes, and
stops no party. -/

namespace Sys2Proof.Machine

/-! ### Reads of memory -/

theorem tlbFill_only (s : State) (e : TlbEntry) : OnlyCaches s (tlbFill s e) := by
  unfold tlbFill
  dsimp only
  split
  · rfl
  split <;> rfl

theorem fillTlbs_only (s : State) (c core : Nat) (part : Option Nat) (va lg : Nat) (pte : DWord) :
    OnlyCaches s (fillTlbs s c core part va lg pte) := OnlyCaches.foldl (fun s _ => tlbFill_only s _) _ s

theorem walked_only (s : State) (c va : Nat) : OnlyCaches s (walked s c va) := by
  unfold walked
  dsimp only
  split
  · exact OnlyCaches.foldl (fun s k => movedSector_only s c k) _ s
  · rfl

theorem endWalk_only (s : State) (i : Nat) : OnlyCaches s (endWalk s i) := by
  unfold endWalk
  split
  · rfl
  next w _ =>
    have hwalk : ∀ l, OnlyCaches s { walked s w.ctx (w.vpn * 4096) with
        walks := l } := fun l => (walked_only ..).trans rfl
    split
    · rfl
    split
    · exact (hwalk _).trans (fillTlbs_only ..)
    · exact hwalk _

theorem touchTlb_only (s : State) (c core va : Nat) : OnlyCaches s (touchTlb s c core va) := by
  unfold touchTlb
  dsimp only
  split
  · rfl
  · have hwalk : OnlyCaches s (match joinWalk s c (va / 4096) with
        | some i => endWalk s i
        | none => walked s c va) := by
      split
      · exact endWalk_only ..
      · exact walked_only ..
    split
    · exact hwalk.trans (fillTlbs_only ..)
    · exact hwalk

theorem l1Allocate_only (s : State) (core k lv : Nat) (l : List Byte) (bad : Bool) :
    OnlyCaches s (l1Allocate s core k lv l bad) := by
  unfold l1Allocate
  dsimp only
  split
  · rfl
  split
  · rfl
  split <;> rfl

theorem readSlice_only (s : State) (core pa key n l1 sc part : Nat) :
    OnlyCaches s (readSlice s core pa key n l1 sc part).1 := by
  unfold readSlice
  dsimp only
  have hserved : OnlyCaches s (linkServed s pa) := rfl
  have halloc : OnlyCaches s (if sc = 0 then linkServed s pa else scAllocate (linkServed s pa) (pa / 128) part sc) := by
    split
    · exact hserved
    · exact hserved.trans (scAllocate_only ..)
  split
  · exact (halloc.trans (movedSector_only ..)).trans rfl
  · exact (halloc.trans (movedSector_only ..)).trans (l1Allocate_only ..)

theorem Tab.mem_of_find {α : Type} {t : Tab α} {k : Nat} {x : α} (h : Tab.find t k = some x) : (k, x) ∈ t := by
  induction t with
  | nil => cases h
  | cons c r ih =>
    rw [Tab.find] at h
    split at h
    next hk =>
      cases h
      exact hk ▸ List.mem_cons_self
    · exact List.mem_cons_of_mem _ (ih h)

/-! ### Parties that run on -/

/-- A team as a pre-emption that fails leaves it: asked to stop no more, and no party stopped; as resident as `t`. -/
structure RunsOn (t y : Team) : Prop where
  preempt : y.preempt = false
  resident : y.resident = t.resident
  lead : y.lead.com.st ≠ .stopped
  groups : ∀ g ∈ y.groups, g.2.com.st ≠ .stopped

/-- `u` has the vectors and saves of `s`, and a team that runs on in `s` runs on in `u`. -/
structure KeepsRunning (s u : State) : Prop where
  msix : u.msix = s.msix
  vfs : u.vfs = s.vfs
  saves : u.saves = s.saves
  teams : ∀ id t y, getTeam s id = some y → RunsOn t y → ∃ z, getTeam u id = some z ∧ RunsOn t z

theorem KeepsRunning.refl (s : State) : KeepsRunning s s := ⟨rfl, rfl, rfl, fun _ _ y h hy => ⟨y, h, hy⟩⟩

theorem KeepsRunning.trans {s t u : State} (h : KeepsRunning s t) (k : KeepsRunning t u) : KeepsRunning s u where
  msix := k.msix.trans h.msix
  vfs := k.vfs.trans h.vfs
  saves := k.saves.trans h.saves
  teams := fun id x y hy hr => by
    obtain ⟨z, hz, hrz⟩ := h.teams id x y hy hr
    exact k.teams id x z hz hrz

theorem KeepsRunning.foldl {α : Type} {f : State → α → State} (hf : ∀ s x, KeepsRunning s (f s x)) (l : List α)
    (s : State) : KeepsRunning s (l.foldl f s) :=
  List.foldlRecOn l f (motive := KeepsRunning s) (.refl s) fun u hu x _ => hu.trans (hf u x)

theorem OnlyCaches.keepsRunning {s t : State} (h : OnlyCaches s t) : KeepsRunning s t := by
  rw [h]
  exact ⟨rfl, rfl, rfl, fun _ _ y hy hr => ⟨y, hy, hr⟩⟩

theorem getTeam_modTeam_cases (s : State) (t : Nat) (f : Team → Team) {k : Nat} {x : Team} (h : getTeam s k = some x) :
    getTeam (modTeam s t f) k = some (if k = t then f x else x) := by
  by_cases hk : k = t
  · subst hk
    rw [if_pos rfl]
    exact getTeam_modTeam_same _ _ _ _ h
  · rw [if_neg hk, getTeam_modTeam_other _ _ _ _ hk, h]

/-- A change of a party's control state that leaves whether it runs. -/
theorem modCom_keepsRunning (s : State) (p : Party) {f : Common → Common} (hf : ∀ c, (f c).st = c.st) :
    KeepsRunning s (modCom s p f) := by
  refine ⟨by simp, by simp, by simp, fun id t y hy hr => ?_⟩
  cases p with
  | porter c n => exact ⟨y, hy, hr⟩
  | lead k =>
    refine ⟨_, getTeam_modTeam_cases s k _ hy, ?_⟩
    split
    · exact ⟨hr.preempt, hr.resident, by simpa [hf] using hr.lead, hr.groups⟩
    · exact hr
  | group k n =>
    by_cases hk : id = k
    · subst hk
      rw [modCom, modGroup, hy]
      dsimp only
      cases hg : Tab.find y.groups n with
      | none => exact ⟨y, hy, hr⟩
      | some g =>
        refine ⟨_, getTeam_setTeam_same .., hr.preempt, hr.resident, hr.lead, fun x hx => ?_⟩
        rcases Tab.mem_set _ _ _ _ hx with rfl | hx
        · have := hr.groups _ (Tab.mem_of_find hg)
          simpa [hf] using this
        · exact hr.groups x hx
    · exact ⟨y, by rw [modCom, getTeam_modGroup_other _ _ _ _ _ hk, hy], hr⟩

theorem modLane_keepsRunning (s : State) (p : Party) (id lane : Nat) (f : Lane → Lane) :
    KeepsRunning s (modLane s p id lane f) := modCom_keepsRunning _ _ fun _ => rfl

/-! ### Arming monitors again -/

theorem monTake_keepsRunning {s u : State} {p : Party} {op : Nat} {l : Lane} {cond n v : Nat} {bad : Bool}
    (h : monTake s p op l cond n v bad = some u) : KeepsRunning s u := by
  unfold monTake at h
  split at h
  · cases h
    exact modLane_keepsRunning ..
  split at h
  · cases h
    exact modLane_keepsRunning ..
  · cases h

theorem monTake_getD_keepsRunning (s : State) (p : Party) (op : Nat) (l : Lane) (cond n v : Nat) (bad : Bool) :
    KeepsRunning s ((monTake s p op l cond n v bad).getD s) := by
  cases h : monTake s p op l cond n v bad with
  | none => exact .refl s
  | some u => exact monTake_keepsRunning h

theorem monitorRead_keepsRunning (s : State) (p : Party) (op lane : Nat) : KeepsRunning s (monitorRead s p op lane) := by
  unfold monitorRead
  split
  · exact .refl s
  split
  · dsimp only
    split
    next u hnear =>
      obtain ⟨x, -, hx⟩ := Option.bind_eq_some_iff.1 hnear
      exact monTake_keepsRunning hx
    · exact (readSlice_only ..).keepsRunning.trans (monTake_getD_keepsRunning ..)
  · exact .refl s

theorem rearmLane_keepsRunning (s : State) (p : Party) (o : Op) (l : Lane) : KeepsRunning s (rearmLane s p o l) := by
  unfold rearmLane
  split
  · exact ((touchTlb_only ..).keepsRunning.trans (modLane_keepsRunning ..)).trans (monitorRead_keepsRunning ..)
  · exact modLane_keepsRunning ..

/-- R433: to arm a party's monitors again stops nobody. -/
theorem rearm_keepsRunning (s : State) (p : Party) : KeepsRunning s (rearm s p) := by
  refine KeepsRunning.foldl (fun s o => ?_) _ s
  split
  · exact KeepsRunning.foldl (fun s l => rearmLane_keepsRunning s p o l) _ s
  · exact .refl s

/-! ### The failure -/

/-- A party that stood at its stop for pre-emption runs on. -/
def unstopped (c : Common) : Common := { c with
  st := if c.st = .stopped then .running else c.st }

theorem unstopped_st (c : Common) : (unstopped c).st ≠ .stopped := by
  unfold unstopped
  dsimp only
  split
  · decide
  · assumption

/-- A team of pipeline `i` runs on. -/
def teamUnstopped (i : Nat) (t : Nat × Team) : Nat × Team :=
  if !isHandler t.1 && t.2.inst == i then
    (t.1, { t.2 with
      preempt := false
      lead := { t.2.lead with
        com := unstopped t.2.lead.com }
      groups := t.2.groups.map fun g => (g.1, { g.2 with
        com := unstopped g.2.com, live := none }) })
  else t

theorem Tab.find_map_of_key {α β : Type} {t : Tab α} {f : Nat × α → Nat × β} (hf : ∀ x, (f x).1 = x.1) (k : Nat) :
    Tab.find (t.map f : Tab β) k = (Tab.find t k).map fun x => (f (k, x)).2 := by
  induction t with
  | nil => rfl
  | cons x r ih =>
    simp only [List.map_cons, Tab.find, hf]
    split
    next h =>
      subst h
      rfl
    · exact ih

theorem teamUnstopped_key (i : Nat) (t : Nat × Team) : (teamUnstopped i t).1 = t.1 := by
  unfold teamUnstopped
  split <;> rfl

theorem teamUnstopped_runsOn {i k : Nat} {t : Team} (hk : isHandler k = false) (hi : t.inst = i) :
    RunsOn t (teamUnstopped i (k, t)).2 := by
  rw [teamUnstopped, if_pos (by simp [hk, hi])]
  refine ⟨rfl, rfl, unstopped_st _, fun g hg => ?_⟩
  obtain ⟨g0, -, rfl⟩ := List.mem_map.1 hg
  exact unstopped_st _

/-- R314: what a pre-emption that fails does. -/
theorem saveFails_eq (s : State) (i c : Nat) : ∃ ps : List Party, saveFails s i c =
    raiseCtx (ps.foldl rearm { s with
      teams := s.teams.map (teamUnstopped i) }) c 1 := ⟨_, rfl⟩

theorem raiseCtx_vector (s : State) (c k : Nat) : (raiseCtx s c k).msix = s.msix ++ [ctxVector s c k] := by
  have hslot : (vfSlot s c = true) = (64 < c ∧ c - 64 ≤ s.vfs) := by simp [vfSlot]
  unfold raiseCtx ctxVector
  simp only [hslot]

/-- R314: the teams run on, and the error vector is raised. -/
theorem saveFails_spec {s : State} {id i c : Nat} {t : Team} (ht : getTeam s id = some t) (hid : isHandler id = false)
    (hi : t.inst = i) : (saveFails s i c).msix = s.msix ++ [ctxVector s c 1] ∧ (saveFails s i c).saves = s.saves ∧
      ∃ y, getTeam (saveFails s i c) id = some y ∧ RunsOn t y := by
  obtain ⟨ps, hu⟩ := saveFails_eq s i c
  have hrun := KeepsRunning.foldl (f := rearm) rearm_keepsRunning ps { s with
    teams := s.teams.map (teamUnstopped i) }
  have hstart : getTeam { s with
      teams := s.teams.map (teamUnstopped i) } id = some (teamUnstopped i (id, t)).2 := by
    refine (Tab.find_map_of_key (teamUnstopped_key i) id).trans ?_
    rw [show Tab.find s.teams id = some t from ht, Option.map_some]
  rw [hu]
  refine ⟨?_, hrun.saves, hrun.teams id t _ hstart (teamUnstopped_runsOn hid hi)⟩
  rw [raiseCtx_vector, hrun.msix, ctxVector, hrun.vfs, ctxVector]

end Sys2Proof.Machine
end

section
/-! O56, the save: a team that is saved leaves its cores and islands, which moves no other team; its own record is
`savedTeam`. The teams of a pipeline are saved one after another. -/

namespace Sys2Proof.Machine

/-! ### What leaves the teams -/

/-- `t` has the teams, launches and saves of `s`. -/
structure KeepsTeams (s t : State) : Prop where
  teams : t.teams = s.teams
  launches : t.launches = s.launches
  saves : t.saves = s.saves

theorem KeepsTeams.refl (s : State) : KeepsTeams s s := ⟨rfl, rfl, rfl⟩

theorem KeepsTeams.trans {s t u : State} (h : KeepsTeams s t) (k : KeepsTeams t u) : KeepsTeams s u :=
  ⟨k.teams.trans h.teams, k.launches.trans h.launches, k.saves.trans h.saves⟩

theorem KeepsTeams.foldl {α : Type} {f : State → α → State} (hf : ∀ s x, KeepsTeams s (f s x)) (l : List α) (s : State) :
    KeepsTeams s (l.foldl f s) :=
  List.foldlRecOn l f (motive := KeepsTeams s) (.refl s) fun u hu x _ => hu.trans (hf u x)

/-- As `KeepsTeams.foldl`, of a loop that collects a record beside the state. -/
theorem KeepsTeams.foldl_fst {α β : Type} {f : State × β → α → State × β} (hf : ∀ a x, KeepsTeams a.1 (f a x).1)
    (l : List α) (a : State × β) : KeepsTeams a.1 (l.foldl f a).1 :=
  List.foldlRecOn l f (motive := fun b => KeepsTeams a.1 b.1) (.refl a.1) fun u hu x _ => hu.trans (hf u x)

theorem OnlySlices.keepsTeams {s t : State} (h : OnlySlices s t) : KeepsTeams s t := by
  rw [h]
  exact ⟨rfl, rfl, rfl⟩

theorem KeepsTeams.getTeam_eq {s t : State} (h : KeepsTeams s t) (k : Nat) : getTeam t k = getTeam s k := by
  rw [getTeam, h.teams, getTeam]

theorem modCore_keepsTeams (s : State) (c : Nat) (f : Core → Core) : KeepsTeams s (modCore s c f) := ⟨rfl, rfl, rfl⟩

theorem drainCore_keepsTeams (s : State) (core : Nat) : KeepsTeams s (drainCore s core) := by
  obtain ⟨t, ht, hd⟩ := drainCore_spec s core
  rw [hd]
  exact ht.keepsTeams.trans ⟨rfl, rfl, rfl⟩

theorem endTenancy_keepsTeams (s : State) (core : Nat) : KeepsTeams s (endTenancy s core) := by
  unfold endTenancy
  split
  · exact modCore_keepsTeams ..
  · exact .refl s

theorem storeWrite_keepsTeams (s : State) (c base size limit n : Nat) : KeepsTeams s (storeWrite s c base size limit n) :=
  ⟨rfl, rfl, rfl⟩

/-! ### What the cores and islands hold of a team -/

theorem barDrop_keepsTeams (s : State) (b : BarRef) : KeepsTeams s (barDrop s b) := by
  unfold barDrop
  split
  · split
    · exact modCore_keepsTeams ..
    · unfold modBar
      split
      · exact modCore_keepsTeams ..
      · exact .refl s
  · exact .refl s

theorem dropCmd_keepsTeams (s : State) (m : MeCmd) : KeepsTeams s (dropCmd s m) := by
  unfold dropCmd
  split
  · split
    · exact .refl s
    · exact barDrop_keepsTeams ..
  · exact .refl s

theorem abandonCmds_keepsTeams (s : State) (t : Nat) (f : MeCmd → Bool) : KeepsTeams s (abandonCmds s t f) :=
  KeepsTeams.foldl (fun s _ => (KeepsTeams.foldl dropCmd_keepsTeams _ s).trans (modCore_keepsTeams ..)) _ s

theorem modInst_keepsTeams (s : State) (i : Nat) (f : Instance → Instance) : KeepsTeams s (modInst s i f) :=
  ⟨modInst_teams .., modInst_launches .., modInst_saves ..⟩

theorem closeEnds_keepsTeams (s : State) (i : Nat) : KeepsTeams s (closeEnds s i) := by
  unfold closeEnds
  split
  · exact .refl s
  · exact modInst_keepsTeams ..

theorem porterIdle_keepsTeams (s : State) (core n : Nat) : KeepsTeams s (porterIdle s core n) := by
  have hset : KeepsTeams s (setPorter s core n { Porter.idle with
      team := none }) := ⟨rfl, rfl, rfl⟩
  have hbar : KeepsTeams s (match (getPorter s core n).bar with
      | some b => barDrop (setPorter s core n { Porter.idle with
          team := none }) b
      | none => setPorter s core n { Porter.idle with
          team := none }) := by
    split
    · exact hset.trans (barDrop_keepsTeams ..)
    · exact hset
  unfold porterIdle
  dsimp only
  split
  · exact hbar.trans (closeEnds_keepsTeams ..)
  · exact hbar

theorem takeCore_keepsTeams (s : State) (id : Nat) (t : Team) (v : Saved) (half core : Nat) :
    KeepsTeams s (takeCore s id t v half core).1 := ⟨rfl, rfl, rfl⟩

theorem writeAt_only (s : State) (ctx : Nat) (p : Phys) (l : List Byte) : OnlySlices s (writeAt s ctx p l) := by
  unfold writeAt
  dsimp only
  split <;> exact sliceWrite_only ..

theorem writeVirt_only {s u : State} {c va : Nat} {l : List Byte} {k : Acc133} (h : writeVirt s c va l k = .ok u) :
    OnlySlices s u := by
  unfold writeVirt at h
  split at h
  · cases h
  · cases h
    exact OnlySlices.foldl (fun _ _ => writeAt_only ..) _ s

theorem poolWrite_only {s u : State} {ctx : Nat} {d : BitVec 512} {off : Nat} {l : List Byte}
    (h : poolWrite s ctx d off l = .ok u) : OnlySlices s u := by
  unfold poolWrite at h
  split at h
  · cases h
  split at h
  next hw =>
    cases h
    exact (OnlyCaches.foldl (fun s a => touchTlb_only s ctx _ a) _ s).slices.trans (writeVirt_only hw)
  · cases h

/-- R256: a pass suspended is stored in its pool. -/
theorem poolState_store_only {s u : State} {ctx : Nat} {d : BitVec 512} (h : poolState s ctx d true = .ok u) :
    OnlySlices s u := by
  rw [poolState, if_pos rfl, poolSpoil] at h
  split at h
  · cases h
  · exact poolWrite_only h

theorem suspendPass_keepsTeams (s : State) (id : Nat) (t : Team) (v : Saved) (p : Pass) :
    KeepsTeams s (suspendPass s id t v p).1 := by
  unfold suspendPass
  split
  next h => exact (poolState_store_only h).keepsTeams
  · split <;> exact .refl s

theorem setIsle_keepsTeams (s : State) (kind idx : Nat) (x : Island) : KeepsTeams s (setIsle s kind idx x) := by
  unfold setIsle
  split <;> exact ⟨rfl, rfl, rfl⟩

theorem takeIsle_keepsTeams (s : State) (id : Nat) (t : Team) (v : Saved) (kind idx : Nat) :
    KeepsTeams s (takeIsle s id t v kind idx).1 := by
  unfold takeIsle
  dsimp only
  split
  · exact .refl s
  split
  · exact (setIsle_keepsTeams ..).trans (suspendPass_keepsTeams ..)
  · exact setIsle_keepsTeams ..

/-! ### The save's record -/

/-- What a save's record says of the team itself, with the bytes that it takes. -/
def namesTeam (v : Saved) (id : Nat) (t : Team) : Prop :=
  v.team = id ∧ v.ctx = t.ctx ∧ v.launch = t.launch ∧ v.bytes ≤ 2654208 * (teamCores t).length

theorem takeCore_names (s : State) (k id : Nat) (t x : Team) (v : Saved) (half core : Nat) (h : namesTeam v id t) :
    namesTeam (takeCore s k x v half core).2 id t := h

theorem suspendPass_names (s : State) (k id : Nat) (t x : Team) (v : Saved) (p : Pass) (h : namesTeam v id t) :
    namesTeam (suspendPass s k x v p).2 id t := by
  unfold suspendPass
  split
  · exact h
  · split <;> exact h

theorem takeIsle_names (s : State) (k id : Nat) (t x : Team) (v : Saved) (kind idx : Nat) (h : namesTeam v id t) :
    namesTeam (takeIsle s k x v kind idx).2 id t := by
  unfold takeIsle
  dsimp only
  split
  · exact h
  split
  · exact suspendPass_names _ _ _ _ _ _ _ h
  · exact h

/-- R314: the bytes of a save fit in what the save area leaves it. -/
theorem storePlan_length_le (s : State) (size limit n : Nat) : (storePlan s size limit n).2.length ≤ limit := by
  unfold storePlan
  dsimp only
  exact Nat.le_trans (Nat.le_trans (List.length_take_le' ..) (List.length_take_le ..)) (Nat.min_le_right ..)

/-! ### The team's own record -/

/-- R218: the team once its region's matrix commands are abandoned. -/
def withoutEngines (t : Team) : Team :=
  if t.region.isNone then t
  else { t with
    lead := { t.lead with
      com := dropEngineOps t.lead.com }
    groups := t.groups.map fun g => (g.1, { g.2 with
      com := dropEngineOps g.2.com }) }

/-- R218, R301, R304: a team's record as it leaves the cores. -/
def awayTeam (t : Team) : Team :=
  { regionBack { t with
      groups := t.groups.map fun g => (g.1, saveGroup t.alloc g.2)
      lead := { t.lead with
        com := saveCommon t.lead.com } } with
    resident := false
    preempt := false
    started := false }

/-- R304: the record of a team that has been saved. -/
def savedTeam (t : Team) : Team := awayTeam (withoutEngines t)

/-- R235, R256, R304: what the cores and islands hold of a team leaves them for its save. -/
def gathered (s : State) (id : Nat) (t : Team) (v : Saved) : State × Saved :=
  let a := (teamCores t).zipIdx.foldl (fun a c => takeCore a.1 id t a.2 c.2 c.1) (s, v)
  (allIsles a.1).foldl (fun a k => takeIsle a.1 id t a.2 k.1 k.2) a

theorem gathered_keepsTeams (s : State) (id : Nat) (t : Team) (v : Saved) : KeepsTeams s (gathered s id t v).1 :=
  (KeepsTeams.foldl_fst (fun _ _ => takeCore_keepsTeams ..) _ (s, v)).trans
    (KeepsTeams.foldl_fst (fun _ _ => takeIsle_keepsTeams ..) _ _)

theorem gathered_names (s : State) {id : Nat} {t : Team} {v : Saved} (h : namesTeam v id t) :
    namesTeam (gathered s id t v).2 id t :=
  List.foldlRecOn _ _ (motive := fun a : State × Saved => namesTeam a.2 id t)
    (List.foldlRecOn _ _ (motive := fun a : State × Saved => namesTeam a.2 id t) h fun _ ha _ _ => takeCore_names _ _ _ _ _ _ _ _ ha)
    fun _ ha _ _ => takeIsle_names _ _ _ _ _ _ _ _ ha

/-- R304: the record of a save as it begins. -/
def savedFrom (s : State) (id : Nat) (t : Team) : Saved :=
  { team := id, ctx := t.ctx, launch := t.launch, core := t.core,
    bytes := (storePlan s (forceReg s t.ctx 0x328) (saveRoom s t) id).2.length,
    porters := [], bars := [], planes := [], binds := [], resps := [], faults := [], pass := none, paths := [], traps := [] }

theorem savedFrom_names (s : State) (id : Nat) (t : Team) : namesTeam (savedFrom s id t) id t :=
  ⟨rfl, rfl, rfl, Nat.le_trans (storePlan_length_le ..) (Nat.sub_le ..)⟩

/-- R304: a save by its parts: the drain, the region, what is gathered, the record, and the bytes stored. -/
theorem saveOne_eq (s : State) (id : Nat) (t : Team) : ∃ s1 a, s1 = regionDrop ((teamCores t).foldl drainCore s) id t ∧
    a = gathered s1 id t (savedFrom s id t) ∧ KeepsTeams (modTeam { a.1 with
      saves := a.1.saves ++ [a.2] } id awayTeam) (saveOne s id t) :=
  ⟨_, _, rfl, rfl, (storeWrite_keepsTeams ..).trans (KeepsTeams.foldl endTenancy_keepsTeams _ _)⟩

section
variable {s : State} {id : Nat} {t : Team}

/-- R218: the region's porters stop and its matrix commands go, by which only the team itself changes. -/
theorem regionDrop_spec (ht : getTeam s id = some t) : getTeam (regionDrop s id t) id = some (withoutEngines t) ∧
    (∀ k, k ≠ id → getTeam (regionDrop s id t) k = getTeam s k) ∧ (regionDrop s id t).launches = s.launches ∧
    (regionDrop s id t).saves = s.saves := by
  unfold regionDrop withoutEngines
  split
  · exact ⟨ht, fun _ _ => rfl, rfl, rfl⟩
  · have hcmds := abandonCmds_keepsTeams s id fun _ => true
    have hporters : ∀ u, KeepsTeams u ((teamCores t).foldl (fun s c => [0, 1].foldl (fun s n =>
        if (getPorter s c n).team == some id && (getPorter s c n).inRegion then porterIdle s c n else s) s) u) := by
      refine KeepsTeams.foldl (fun s c => KeepsTeams.foldl (fun s n => ?_) _ s) _
      split
      · exact porterIdle_keepsTeams ..
      · exact .refl s
    refine ⟨?_, fun k hk => ?_, ?_, ?_⟩
    · rw [(hporters _).getTeam_eq]
      exact getTeam_modTeam_same _ _ _ _ ((hcmds.getTeam_eq id).trans ht)
    · rw [(hporters _).getTeam_eq, getTeam_modTeam_other _ _ _ _ hk, hcmds.getTeam_eq]
    · rw [(hporters _).launches, modTeam_launches, hcmds.launches]
    · rw [(hporters _).saves, modTeam_saves, hcmds.saves]

/-- R304: a save changes the record of its team alone, and adds its own to the saves. -/
theorem saveOne_spec (ht : getTeam s id = some t) : getTeam (saveOne s id t) id = some (savedTeam t) ∧
    (∀ k, k ≠ id → getTeam (saveOne s id t) k = getTeam s k) ∧ (saveOne s id t).launches = s.launches ∧
    ∃ v, (saveOne s id t).saves = s.saves ++ [v] ∧ namesTeam v id t := by
  have hdrain := KeepsTeams.foldl drainCore_keepsTeams (teamCores t) s
  obtain ⟨hown, hothers, hlaunches, hsaves⟩ := regionDrop_spec ((hdrain.getTeam_eq id).trans ht)
  obtain ⟨s1, a, rfl, ha, hrest⟩ := saveOne_eq s id t
  have hgather : KeepsTeams _ a.1 := ha ▸ gathered_keepsTeams ..
  have hkept : ∀ k, getTeam { a.1 with
      saves := a.1.saves ++ [a.2] } k = getTeam (regionDrop ((teamCores t).foldl drainCore s) id t) k := hgather.getTeam_eq
  refine ⟨?_, fun k hk => ?_, ?_, a.2, ?_, ha ▸ gathered_names _ (savedFrom_names ..)⟩
  · rw [hrest.getTeam_eq]
    exact getTeam_modTeam_same _ _ _ _ ((hkept id).trans hown)
  · rw [hrest.getTeam_eq, getTeam_modTeam_other _ _ _ _ hk, hkept, hothers k hk, hdrain.getTeam_eq]
  · rw [hrest.launches, modTeam_launches]
    exact hgather.launches.trans (hlaunches.trans hdrain.launches)
  · rw [hrest.saves, modTeam_saves]
    exact congrArg (· ++ [a.2]) (hgather.saves.trans (hsaves.trans hdrain.saves))

end

end Sys2Proof.Machine
end

section
/-! O56, what a saved team keeps, and the teams of a pipeline saved one after another. A list of the teams may name a number
twice, so that what is kept is said of any number of saves. -/

namespace Sys2Proof.Machine

/-! ### One save -/

theorem saveCommon_ops (c : Common) : (saveCommon c).ops = c.ops := by
  unfold saveCommon
  split <;> rfl

theorem saveCommon_of_sound {c : Common} (h : ∀ o ∈ c.ops, o.poisoned = false) : saveCommon c = c := by
  have hnone : c.ops.filter (·.poisoned) = [] := List.filter_eq_nil_iff.2 fun o ho => by simp [h o ho]
  rw [saveCommon, hnone]

/-- R92, R293: the mark of a trap that is still to come. -/
theorem saveCommon_late (c : Common) :
    (saveCommon c).late = true ↔ c.late = true ∨ ∃ o ∈ c.ops, o.poisoned = true := by
  unfold saveCommon
  split
  next hnone =>
    have hsound : ¬∃ o ∈ c.ops, o.poisoned = true := by
      rintro ⟨o, ho, hp⟩
      exact List.filter_eq_nil_iff.1 hnone o ho hp
    simp [hsound]
  next hsome =>
    obtain ⟨o, ho⟩ := List.exists_mem_of_ne_nil _ hsome
    obtain ⟨ho, hp⟩ := List.mem_filter.1 ho
    simp only [true_iff]
    exact .inr ⟨o, ho, hp⟩

/-- R301: a group as a save leaves it, where no load of it has ended in poison. -/
def maskedGroup (alloc : Nat) (g : Group) : Group :=
  match g.live with
  | none => g
  | some m => { maskWindow g alloc m with
    live := none }

theorem maskedGroup_idem (alloc : Nat) (g : Group) : maskedGroup alloc (maskedGroup alloc g) = maskedGroup alloc g := by
  cases h : g.live with
  | none => simp [maskedGroup, h]
  | some m => simp [maskedGroup, h]

theorem saveGroup_of_sound {alloc : Nat} {g : Group} (h : ∀ o ∈ g.com.ops, o.poisoned = false) :
    saveGroup alloc g = maskedGroup alloc g := by
  have hg : { g with
    com := saveCommon g.com } = g := by rw [saveCommon_of_sound h]
  rw [saveGroup, hg, maskedGroup]
  cases g.live <;> rfl

theorem saveGroup_ops (alloc : Nat) (g : Group) : (saveGroup alloc g).com.ops = g.com.ops := by
  unfold saveGroup
  dsimp only
  split <;> exact saveCommon_ops _

/-- R218: with no region open, the record goes as it stands. -/
theorem savedTeam_of_closed {t : Team} (h : t.region = none) : savedTeam t = { t with
    groups := t.groups.map fun g => (g.1, saveGroup t.alloc g.2)
    lead := { t.lead with
      com := saveCommon t.lead.com }
    resident := false
    preempt := false
    started := false } := by
  simp [savedTeam, awayTeam, withoutEngines, regionBack, h]

theorem savedTeam_teamOps {t : Team} (h : t.region = none) : teamOps (savedTeam t) = teamOps t := by
  rw [savedTeam_of_closed h]
  simp [teamOps, saveCommon_ops, saveGroup_ops, List.flatMap_map]

/-! ### What is kept -/

/-- A team's groups as a save leaves them, where none of its loads has ended in poison. -/
def maskedGroups (t : Team) : Tab Group := t.groups.map fun g => (g.1, maskedGroup t.alloc g.2)

/-- R293: a deferred trap of the lead is still to come, or is recorded. -/
def leadOwes (t : Team) : Prop := t.lead.com.late = true ∨ ∃ o ∈ t.lead.com.ops, o.poisoned = true

/-- No load of the team has ended in poison. -/
def OpsSound (t : Team) : Prop := ∀ o ∈ teamOps t, o.poisoned = false

/-- `y` is team `x`, saved any number of times. -/
structure Follows (x y : Team) : Prop where
  launch : y.launch = x.launch
  idx : y.idx = x.idx
  ctx : y.ctx = x.ctx
  cores : teamCores y = teamCores x
  keys : y.groups.map (·.1) = x.groups.map (·.1)
  closed : x.region = none → y.region = none ∧ y.win0 = x.win0 ∧ y.win1 = x.win1 ∧ (leadOwes y ↔ leadOwes x)
  sound : x.region = none → OpsSound x → OpsSound y ∧ y.lead = x.lead ∧ maskedGroups y = maskedGroups x

theorem Follows.refl (x : Team) : Follows x x :=
  ⟨rfl, rfl, rfl, rfl, rfl, fun h => ⟨h, rfl, rfl, .rfl⟩, fun _ h => ⟨h, rfl, rfl⟩⟩

theorem Follows.trans {x y z : Team} (h : Follows x y) (k : Follows y z) : Follows x z where
  launch := k.launch.trans h.launch
  idx := k.idx.trans h.idx
  ctx := k.ctx.trans h.ctx
  cores := k.cores.trans h.cores
  keys := k.keys.trans h.keys
  closed := fun hx => by
    obtain ⟨hy, h0, h1, howe⟩ := h.closed hx
    obtain ⟨hz, k0, k1, kowe⟩ := k.closed hy
    exact ⟨hz, k0.trans h0, k1.trans h1, kowe.trans howe⟩
  sound := fun hx hs => by
    obtain ⟨hy, hlead, hgroups⟩ := h.sound hx hs
    obtain ⟨hz, klead, kgroups⟩ := k.sound (h.closed hx).1 hy
    exact ⟨hz, klead.trans hlead, kgroups.trans hgroups⟩

section
variable {t : Team}

/-- R92, R293: what a save records of the lead's trap. -/
theorem savedTeam_late (h : t.region = none) : (savedTeam t).lead.com.late = true ↔ leadOwes t := by
  rw [savedTeam_of_closed h]
  exact saveCommon_late _

theorem savedTeam_lead (h : t.region = none) (hs : OpsSound t) : (savedTeam t).lead = t.lead := by
  have hlead : saveCommon t.lead.com = t.lead.com :=
    saveCommon_of_sound fun o ho => hs o (List.mem_append_left _ ho)
  rw [savedTeam_of_closed h, hlead]

theorem savedTeam_groups (h : t.region = none) (hs : OpsSound t) : (savedTeam t).groups = maskedGroups t := by
  rw [savedTeam_of_closed h]
  refine List.map_congr_left fun g hg => ?_
  rw [saveGroup_of_sound fun o ho => hs o (List.mem_append_right _ (List.mem_flatMap.2 ⟨g, hg, ho⟩))]

theorem savedTeam_follows (t : Team) : Follows t (savedTeam t) := by
  have hnames : (savedTeam t).launch = t.launch ∧ (savedTeam t).idx = t.idx ∧ (savedTeam t).ctx = t.ctx ∧
      teamCores (savedTeam t) = teamCores t ∧ (savedTeam t).groups.map (·.1) = t.groups.map (·.1) := by
    cases h : t.region <;> simp [savedTeam, awayTeam, withoutEngines, regionBack, teamCores, h]
  obtain ⟨hlaunch, hidx, hctx, hcores, hkeys⟩ := hnames
  refine ⟨hlaunch, hidx, hctx, hcores, hkeys, fun h => ?_, fun h hs => ⟨?_, savedTeam_lead h hs, ?_⟩⟩
  · refine ⟨?_, ?_, ?_, ?_⟩
    · rw [savedTeam_of_closed h, h]
    · rw [savedTeam_of_closed h]
    · rw [savedTeam_of_closed h]
    · have hops : (savedTeam t).lead.com.ops = t.lead.com.ops := by
        rw [savedTeam_of_closed h]
        exact saveCommon_ops _
      have hlate := savedTeam_late h
      unfold leadOwes at hlate ⊢
      rw [hops, hlate, or_assoc, or_self]
  · unfold OpsSound
    rw [savedTeam_teamOps h]
    exact hs
  · have halloc : (savedTeam t).alloc = t.alloc := by rw [savedTeam_of_closed h]
    rw [maskedGroups, halloc, savedTeam_groups h hs, maskedGroups, List.map_map]
    exact List.map_congr_left fun g _ => by rw [Function.comp_apply, maskedGroup_idem]

end

/-! ### The teams of a pipeline -/

/-- Team `k`, once `x`, stands in `u`, saved any number of times. -/
def Kept (u : State) (k : Nat) (x : Team) : Prop := ∃ z, getTeam u k = some z ∧ Follows x z

/-- Team `k`, once `x`, stands in `u` as its last save left it, and that save's record stands. -/
def SavedIn (u : State) (k : Nat) (x : Team) : Prop :=
  ∃ z, getTeam u k = some (savedTeam z) ∧ Follows x z ∧ ∃ v ∈ u.saves, namesTeam v k x

/-- R304: a save of the team that has number `k`. -/
def saveNumber (s : State) (k : Nat) : State :=
  match getTeam s k with
  | some y => saveOne s k y
  | none => s

section
variable {u : State} {k : Nat} {x : Team}

theorem SavedIn.kept (h : SavedIn u k x) : Kept u k x := by
  obtain ⟨z, hz, hx, -⟩ := h
  exact ⟨_, hz, hx.trans (savedTeam_follows z)⟩

theorem Kept.saved (h : Kept u k x) : SavedIn (saveNumber u k) k x := by
  obtain ⟨z, hz, hx⟩ := h
  obtain ⟨hown, -, -, v, hv, hname, hctx, hlaunch, hbytes⟩ := saveOne_spec hz
  rw [saveNumber, hz]
  refine ⟨z, hown, hx, v, by rw [hv]; simp, hname, hctx.trans hx.ctx, hlaunch.trans hx.launch, ?_⟩
  rwa [hx.cores] at hbytes

theorem saveNumber_launches (u : State) (n : Nat) : (saveNumber u n).launches = u.launches := by
  unfold saveNumber
  split
  next h => exact (saveOne_spec h).2.2.1
  · rfl

/-- A save of another team. -/
theorem saveNumber_other (u : State) {n k : Nat} (h : k ≠ n) : getTeam (saveNumber u n) k = getTeam u k ∧
    ∀ v ∈ u.saves, v ∈ (saveNumber u n).saves := by
  unfold saveNumber
  split
  next hn =>
    obtain ⟨-, hothers, -, v, hv, -⟩ := saveOne_spec hn
    exact ⟨hothers k h, fun w hw => by rw [hv]; exact List.mem_append_left _ hw⟩
  · exact ⟨rfl, fun _ => id⟩

theorem Kept.after_saveNumber (h : Kept u k x) (n : Nat) : Kept (saveNumber u n) k x := by
  by_cases hk : k = n
  · subst hk
    exact h.saved.kept
  · obtain ⟨z, hz, hx⟩ := h
    exact ⟨z, by rw [(saveNumber_other u hk).1, hz], hx⟩

theorem SavedIn.after_saveNumber (h : SavedIn u k x) (n : Nat) : SavedIn (saveNumber u n) k x := by
  by_cases hk : k = n
  · subst hk
    exact h.kept.saved
  · obtain ⟨hteam, hsaves⟩ := saveNumber_other u hk
    obtain ⟨z, hz, hx, v, hv, hname⟩ := h
    exact ⟨z, by rw [hteam, hz], hx, v, hsaves v hv, hname⟩

/-- R305: of the teams whose numbers are saved in turn, each stands saved. -/
theorem foldl_saveNumber (l : List Nat) (h : Kept u k x) (hk : SavedIn u k x ∨ k ∈ l) :
    SavedIn (l.foldl saveNumber u) k x := by
  induction l generalizing u with
  | nil => exact hk.resolve_right List.not_mem_nil
  | cons n l ih =>
    refine ih (h.after_saveNumber n) ?_
    rcases hk with hs | hk
    · exact .inl (hs.after_saveNumber n)
    rcases List.mem_cons.1 hk with rfl | hk
    · exact .inl h.saved
    · exact .inr hk

end

theorem foldl_saveNumber_launches (l : List Nat) (u : State) : (l.foldl saveNumber u).launches = u.launches :=
  List.foldlRecOn l saveNumber (motive := fun w => w.launches = u.launches) rfl fun w hw n _ =>
    (saveNumber_launches w n).trans hw

/-- The teams of a pipeline, but for handlers. -/
theorem mem_instTeams {s : State} {k i : Nat} {x : Team} (hx : getTeam s k = some x) (hk : isHandler k = false)
    (hi : x.inst = i) : (k, x) ∈ instTeams s i := by
  refine List.mem_filter.2 ⟨Tab.mem_of_find hx, ?_⟩
  simp [hk, hi]

/-! ### TEAM_SAVE -/

section
variable {id : Nat} {s : State} {t : Team} (hid : isHandler id = false) (hpre : t.preempt = true)
  (hhalt : ∀ x ∈ instTeams s t.inst, teamHalted s x.1 x.2 = true)
include hid hpre hhalt

theorem teamSave_due : ¬(isHandler id || !t.preempt || !((instTeams s t.inst).all fun x => teamHalted s x.1 x.2)) = true := by
  have hall : ((instTeams s t.inst).all fun x => teamHalted s x.1 x.2) = true := List.all_eq_true.2 hhalt
  simp [hid, hpre, hall]

/-- R286, R304, R305: where the save area holds them, the teams of the pipeline are saved in turn. -/
theorem exec_teamSave_fits (ht : getTeam s id = some t) (hfits : saveFits s t.ctx = true) :
    Machine.exec (.teamSave id) s = .next (((instTeams s t.inst).map (·.1)).foldl saveNumber s) := by
  change execTeamSave id s = _
  rw [execTeamSave, ht]
  dsimp only
  rw [if_neg (teamSave_due hid hpre hhalt), if_neg (by simp [hfits]), List.foldl_map]
  rfl

theorem exec_teamSave_fails (ht : getTeam s id = some t) (hfits : saveFits s t.ctx = false) :
    Machine.exec (.teamSave id) s = .next (saveFails s t.inst t.ctx) := by
  change execTeamSave id s = _
  rw [execTeamSave, ht]
  dsimp only
  rw [if_neg (teamSave_due hid hpre hhalt), if_pos (by simp [hfits])]

end

theorem saveFits_of_large {s : State} {c : Nat} (h : 2654208 * max 1 (maxOf ((upto 0 4).map fun b =>
    (pageReg s c (0x100 + 8 * b)).toNat % 256) 0) ≤ forceReg s c 0x328) : saveFits s c = true := by
  have hbits : ∀ v, bits v 0 8 = v % 256 := fun v => by simp [bits]
  simp only [saveFits, hbits, decide_eq_true h, Bool.true_or]

theorem saveFits_of_small {s : State} {c : Nat} (h : forceReg s c 0x328 < 4096) : saveFits s c = false := by
  have hmax := Nat.le_max_left 1 (maxOf ((upto 0 4).map fun b => bits (pageReg s c (0x100 + 8 * b)).toNat 0 8) 0)
  have hlarge : ¬2654208 * max 1 (maxOf ((upto 0 4).map fun b => bits (pageReg s c (0x100 + 8 * b)).toNat 0 8) 0) ≤
      forceReg s c 0x328 := by omega
  have hsmall : ¬4096 ≤ forceReg s c 0x328 := by omega
  unfold saveFits
  dsimp only
  rw [decide_eq_false hlarge, decide_eq_false hsmall]
  rfl

end Sys2Proof.Machine
end

section
/-! O56, rebalancing: of the eight partitions, those below the idle group's hold none that is idle, its own moves it, and
after that the donor has no group to spare. -/

namespace Sys2Proof.Machine

/-! ### What an interval's end leaves -/

theorem setTeam_only_teams (s : State) (t : Nat) (x : Team) : OnlyTeams s (setTeam s t x) := rfl

theorem syncAdvance_only_teams (s : State) (t : Nat) : OnlyTeams s (syncAdvance s t) := modTeam_only_teams ..

theorem rebalancePart_only_teams (d r : Stage) (q : Nat) (s : State) (core part : Nat) :
    OnlyTeams s (rebalancePart d r q s core part) := by
  unfold rebalancePart
  split
  · split
    · rfl
    split
    · rfl
    · exact ((setTeam_only_teams ..).trans (syncAdvance_only_teams ..)).trans (modTeam_only_teams ..)
  · rfl

theorem OnlyTeams.foldl {α : Type} {f : State → α → State} (hf : ∀ s x, OnlyTeams s (f s x)) (l : List α) (s : State) :
    OnlyTeams s (l.foldl f s) :=
  List.foldlRecOn l f (motive := OnlyTeams s) rfl fun u hu x _ => hu.trans (hf u x)

theorem rebalance_only_teams (s : State) (x : Instance) : OnlyTeams s (rebalance s x) := by
  unfold rebalance
  dsimp only
  split
  · exact OnlyTeams.foldl (fun s c => OnlyTeams.foldl (fun s p => rebalancePart_only_teams _ _ _ s c p) _ s) _ s
  · rfl

/-- R63: the state once the interval's move, where one is due, is made. -/
def intervalMoved (s : State) (inst : Nat) (x : Instance) : State :=
  if (!(instTeams s inst).isEmpty && (instTeams s inst).all fun t => t.2.resident) && x.resident &&
    !((instTeams s inst).any fun t => t.2.preempt) then rebalance s x else s

/-- R63: the pipeline as its next interval begins. -/
def nextInterval (s u : State) (inst : Nat) (x : Instance) : Instance := { x with
  resident := !(instTeams s inst).isEmpty && (instTeams s inst).all fun t => t.2.resident
  qseen := (x.queues.map (·.1)).filter fun q => visibleIn x q != 0
  stages := x.stages.map fun st => (st.1, { st.2 with
    exited := stageExited u st.2 }) }

section
variable {s : State} {inst : Nat} {x : Instance}

theorem intervalMoved_only_teams (s : State) (inst : Nat) (x : Instance) : OnlyTeams s (intervalMoved s inst x) := by
  unfold intervalMoved
  split
  · exact rebalance_only_teams ..
  · rfl

/-- R63, R65: what the end of an interval does to the state and to its pipeline. -/
theorem exec_rebalanceInterval (hx : getInst s inst = some x) :
    ∃ u, Machine.exec (.rebalanceInterval inst) s = .next u ∧ u.teams = (intervalMoved s inst x).teams ∧ u.mem = s.mem ∧
      getInst u inst = some (nextInterval s (intervalMoved s inst x) inst x) := by
  have honly := intervalMoved_only_teams s inst x
  have hinst : getInst (intervalMoved s inst x) inst = some x := by
    rw [honly]
    exact hx
  refine ⟨_, ?_, modInst_teams .., ?_, getInst_modInst_same (nextInterval s (intervalMoved s inst x) inst) hinst⟩
  · change execRebalanceInterval inst s = _
    rw [execRebalanceInterval, hx]
    rfl
  · rw [modInst_mem, honly]

theorem nextInterval_resident (u : State) : (nextInterval s u inst x).resident = true ↔
    instTeams s inst ≠ [] ∧ ∀ t ∈ instTeams s inst, t.2.resident = true := by
  simp [nextInterval]

theorem mem_nextInterval_qseen (u : State) (q : Nat) :
    q ∈ (nextInterval s u inst x).qseen ↔ (∃ z ∈ x.queues, z.1 = q) ∧ visibleIn x q ≠ 0 := by
  simp [nextInterval, List.mem_filter]

theorem rebalance_of_no_donor (h : ∀ d ∈ x.stages, donor s x d.2 = false) : rebalance s x = s := by
  have hnone : (x.stages.map (·.2)).find? (donor s x) = none := List.find?_eq_none.2 fun d hd => by
    obtain ⟨y, hy, rfl⟩ := List.mem_map.1 hd
    simp [h y hy]
  rw [rebalance, hnone]

theorem rebalance_of_no_recipient (h : ∀ d ∈ x.stages, recipient s x d.2 = false) : rebalance s x = s := by
  have hnone : (x.stages.map (·.2)).find? (recipient s x) = none := List.find?_eq_none.2 fun d hd => by
    obtain ⟨y, hy, rfl⟩ := List.mem_map.1 hd
    simp [h y hy]
  rw [rebalance, hnone]
  split
  next heq => cases heq
  · rfl

/-- R63, R65: an interval in which nothing may move. -/
theorem intervalMoved_of_still (h : x.resident = false ∨
    (∃ t ∈ instTeams s inst, t.2.resident = false ∨ t.2.preempt = true) ∨
    (∀ d ∈ x.stages, donor s x d.2 = false) ∨ (∀ d ∈ x.stages, recipient s x d.2 = false)) : intervalMoved s inst x = s := by
  rcases h with h | ⟨t, ht, h⟩ | h | h
  · rw [intervalMoved, if_neg (by simp [h])]
  · refine if_neg fun hmay => ?_
    simp only [Bool.and_eq_true, Bool.not_eq_true', List.any_eq_false, List.all_eq_true] at hmay
    obtain ⟨⟨⟨-, hall⟩, -⟩, hstill⟩ := hmay
    rcases h with h | h
    · exact absurd (hall t ht) (by simp [h])
    · exact hstill t ht h
  · rw [intervalMoved, rebalance_of_no_donor h, ite_self]
  · rw [intervalMoved, rebalance_of_no_recipient h, ite_self]

end

/-! ### The move -/

theorem Tab.length_del_le {α : Type} (t : Tab α) (k : Nat) : (Tab.del t k).length ≤ t.length := by
  induction t with
  | nil => exact Nat.le_refl _
  | cons c r ih =>
    rw [Tab.del]
    split
    · exact Nat.le_succ_of_le ih
    · exact Nat.succ_le_succ ih

theorem Tab.length_del_lt {α : Type} {t : Tab α} {k : Nat} {x : α} (h : (k, x) ∈ t) : (Tab.del t k).length < t.length := by
  induction t with
  | nil => cases h
  | cons c r ih =>
    rw [Tab.del]
    split
    · exact Nat.lt_succ_of_le (Tab.length_del_le r k)
    next hne =>
      rcases List.mem_cons.1 h with rfl | h
      · exact absurd rfl hne
      · exact Nat.succ_lt_succ (ih h)

/-- R63: the donor's idle groups of a partition. -/
def idleGroups (s : State) (d : Stage) (q : Nat) (a : Team) (core part : Nat) : List (Nat × Group) :=
  a.groups.filter fun g => g.2.core == core && g.2.part == part && idleAt s d.team g.1 a.ctx q g.2

/-- R63: the state once the donor's group `n` has gone, and the recipient has started one in its slot. -/
def groupMoved (s : State) (d r : Stage) (a b : Team) (core part n slot : Nat) : State :=
  modTeam (syncAdvance (setTeam s d.team { a with
    groups := Tab.del a.groups n }) d.team) r.team fun t => { t with
      groups := Tab.set t.groups (((upto 0 32).find? fun k => (Tab.find b.groups k).isNone).getD 0)
        (startGroup t.width core part slot t.wr t.syncP r.grpEntry) }

section
variable {s : State} {d r : Stage} {a b : Team} {core part q n : Nat} {g : Group}

theorem rebalancePart_of_none_idle (ha : getTeam s d.team = some a) (hb : getTeam s r.team = some b)
    (hidle : idleGroups s d q a core part = []) : rebalancePart d r q s core part = s := by
  unfold idleGroups at hidle
  rw [rebalancePart, ha, hb]
  dsimp only
  rw [hidle]
  exact ite_self s

theorem rebalancePart_of_idle (ha : getTeam s d.team = some a) (hb : getTeam s r.team = some b)
    (hspare : d.gmin < a.groups.length) (hroom : b.groups.length < r.gmax)
    (hidle : (idleGroups s d q a core part).getLast? = some (n, g)) :
    rebalancePart d r q s core part = groupMoved s d r a b core part n g.slot := by
  unfold idleGroups at hidle
  rw [rebalancePart, ha, hb]
  dsimp only
  rw [if_neg (by omega), hidle]
  rfl

theorem rebalancePart_of_spent (ha : getTeam s d.team = some a) (hspent : a.groups.length ≤ d.gmin) (part : Nat) :
    rebalancePart d r q s core part = s := by
  rw [rebalancePart, ha]
  cases getTeam s r.team with
  | none => rfl
  | some b => exact if_pos (.inl hspent)

theorem getTeam_syncAdvance {t : Nat} {x : Team} (h : getTeam s t = some x) :
    ∃ k, getTeam (syncAdvance s t) t = some { x with
      syncP := k } := by
  rw [syncAdvance, getTeam_modTeam_same _ _ _ _ h]
  dsimp only
  split
  · exact ⟨_, rfl⟩
  · exact ⟨x.syncP, rfl⟩

theorem groupMoved_donor (hne : d.team ≠ r.team) (slot : Nat) :
    ∃ y, getTeam (groupMoved s d r a b core part n slot) d.team = some y ∧ y.groups = Tab.del a.groups n ∧
      y.lead = a.lead := by
  obtain ⟨k, hk⟩ := getTeam_syncAdvance (getTeam_setTeam_same s d.team { a with
    groups := Tab.del a.groups n })
  exact ⟨_, (getTeam_modTeam_other _ _ _ _ hne).trans hk, rfl, rfl⟩

theorem groupMoved_recipient (hne : d.team ≠ r.team) (hb : getTeam s r.team = some b) (slot : Nat) :
    getTeam (groupMoved s d r a b core part n slot) r.team = some { b with
      groups := Tab.set b.groups (((upto 0 32).find? fun k => (Tab.find b.groups k).isNone).getD 0)
        (startGroup b.width core part slot b.wr b.syncP r.grpEntry) } := by
  refine getTeam_modTeam_same _ _ _ _ ?_
  rw [syncAdvance, getTeam_modTeam_other _ _ _ _ hne.symm, getTeam_setTeam_other _ _ _ _ hne.symm, hb]

/-- R65: a fresh group takes a free number below 32. -/
theorem freshNumber_spec (h : ∃ k, k < 32 ∧ Tab.find b.groups k = none) :
    ∃ k, ((upto 0 32).find? fun k => (Tab.find b.groups k).isNone).getD 0 = k ∧ Tab.find b.groups k = none ∧ k < 32 := by
  obtain ⟨k, hk, hfree⟩ := h
  have hrange : upto 0 32 = List.range 32 := by rw [upto_eq_range', List.range_eq_range']
  cases hfind : (upto 0 32).find? fun k => (Tab.find b.groups k).isNone with
  | none =>
    have := List.find?_eq_none.1 hfind k (hrange ▸ List.mem_range.2 hk)
    simp [hfree] at this
  | some j =>
    refine ⟨j, rfl, ?_, ?_⟩
    · simpa using List.find?_some hfind
    · exact List.mem_range.1 (hrange ▸ List.mem_of_find?_eq_some hfind)

/-- R63: one group goes, from the lowest partition that holds an idle one. -/
theorem foldl_rebalancePart (ha : getTeam s d.team = some a) (hb : getTeam s r.team = some b) (hne : d.team ≠ r.team)
    (hspare : a.groups.length = d.gmin + 1) (hroom : b.groups.length < r.gmax) (hpart : part < 8)
    (hidle : (idleGroups s d q a core part).getLast? = some (n, g))
    (hbelow : ∀ p < part, idleGroups s d q a core p = []) :
    (upto 0 8).foldl (fun s p => rebalancePart d r q s core p) s = groupMoved s d r a b core part n g.slot := by
  have hparts : upto 0 8 = upto 0 part ++ part :: upto (part + 1) (7 - part) := by
    have hlen : 8 = part + (7 - part + 1) := by omega
    rw [hlen, upto_eq_range', upto_eq_range', ← List.range'_append_1, List.range'_succ, upto_eq_range']
    simp
  have hstill : ∀ (l : List Nat) (u : State), (∀ p ∈ l, rebalancePart d r q u core p = u) →
      l.foldl (fun s p => rebalancePart d r q s core p) u = u := fun l u h =>
    List.foldlRecOn l _ (motive := fun w => w = u) rfl fun w hw p hp => by rw [hw, h p hp]
  have hmember : (n, g) ∈ a.groups := (List.mem_filter.1 (List.mem_of_getLast? hidle)).1
  have hfewer := Tab.length_del_lt hmember
  rw [hparts, List.foldl_append, List.foldl_cons, hstill (upto 0 part) s ?below,
    rebalancePart_of_idle ha hb (by omega) hroom hidle, hstill _ _ ?above]
  case below =>
    intro p hp
    rw [upto_eq_range', List.mem_range'_1] at hp
    exact rebalancePart_of_none_idle ha hb (hbelow p (by omega))
  case above =>
    intro p _
    obtain ⟨y, hy, hgroups, -⟩ := groupMoved_donor (s := s) (a := a) (b := b) (core := core) (part := part) (n := n) hne g.slot
    exact rebalancePart_of_spent hy (by rw [hgroups]; omega) p

end

theorem intervalMoved_of_move {s : State} {inst : Nat} {x : Instance} {d r : Stage} (hpair : x.pair = false)
    (hres : x.resident = true) (hteams : instTeams s inst ≠ [])
    (hhere : ∀ t ∈ instTeams s inst, t.2.resident = true ∧ t.2.preempt = false)
    (hd : (x.stages.map (·.2)).find? (donor s x) = some d) (hr : (x.stages.map (·.2)).find? (recipient s x) = some r) :
    intervalMoved s inst x = (upto 0 8).foldl (fun s p => rebalancePart d r (d.inq.getD 0) s x.core p) s := by
  have hmay : ((!(instTeams s inst).isEmpty && (instTeams s inst).all fun t => t.2.resident) && x.resident &&
      !((instTeams s inst).any fun t => t.2.preempt)) = true := by
    simp only [Bool.and_eq_true, Bool.not_eq_true', List.any_eq_false, List.all_eq_true, List.isEmpty_eq_false_iff]
    exact ⟨⟨⟨hteams, fun t ht => (hhere t ht).1⟩, hres⟩, fun t ht => by simp [(hhere t ht).2]⟩
  rw [intervalMoved, if_pos hmay, rebalance, hd, hr, hpair]
  rfl

/-! ### The statement -/

/-- Settles O56: a save goes team by team (`foldl_saveNumber`), and what it keeps of a team `Follows` says; one that fails
stops nobody (`saveFails_spec`); an interval moves nothing (`intervalMoved_of_still`), or one group
(`foldl_rebalancePart`). -/
theorem teamsAreSavedAndRebalanced : Obligations.TeamsAreSavedAndRebalanced := by
  unfold Obligations.TeamsAreSavedAndRebalanced
  refine ⟨?saved, ?fails, ?interval, ?move⟩
  case saved =>
    intro id s t ht hid hpre hhalt hlarge
    refine ⟨_, exec_teamSave_fits hid hpre hhalt ht (saveFits_of_large hlarge), foldl_saveNumber_launches _ s, ?_⟩
    intro k x hx hk hi
    have hmem : k ∈ (instTeams s t.inst).map (·.1) := List.mem_map_of_mem (f := (·.1)) (mem_instTeams hx hk hi)
    obtain ⟨z, hz, hf, v, hv, hname, hctx, hlaunch, hbytes⟩ := foldl_saveNumber _ ⟨x, hx, .refl x⟩ (.inr hmem)
    have hy := hf.trans (savedTeam_follows z)
    refine ⟨⟨v, hv, hname, hctx, hlaunch, hbytes⟩, savedTeam z, hz, rfl, rfl, rfl, hy.launch, hy.idx, hy.keys, ?_, ?_⟩
    · intro hregion hsound
      obtain ⟨-, h0, h1, -⟩ := hy.closed hregion
      obtain ⟨hzs, -, hmasked⟩ := hf.sound hregion hsound
      exact ⟨(hy.sound hregion hsound).2.1, h0, h1,
        (savedTeam_groups (hf.closed hregion).1 hzs).trans hmasked⟩
    · intro hregion
      obtain ⟨-, h0, h1, -⟩ := hy.closed hregion
      obtain ⟨hclosed, -, -, howes⟩ := hf.closed hregion
      exact ⟨h0, h1, (savedTeam_late hclosed).trans howes⟩
  case fails =>
    intro id s t ht hid hpre hhalt hsmall _
    obtain ⟨hmsix, hsaves, y, hy, hruns⟩ := saveFails_spec (c := t.ctx) ht hid rfl
    exact ⟨_, exec_teamSave_fails hid hpre hhalt ht (saveFits_of_small hsmall), hmsix, hsaves, saveFails_mem .., y, hy,
      hruns.preempt, hruns.resident, hruns.lead, hruns.groups⟩
  case interval =>
    intro inst s x hx
    obtain ⟨u, hu, hteams, hmem, hinst⟩ := exec_rebalanceInterval hx
    refine ⟨u, _, hu, hinst, rfl, nextInterval_resident _, mem_nextInterval_qseen _, hmem, fun hstill => ?_⟩
    rw [hteams, intervalMoved_of_still hstill]
  case move =>
    intro inst n p s x d r g a b hx hpair hres hne hhere hd hr hdr ha hb hspare hroom hfree hp hidle hbelow
    obtain ⟨u, hu, hteams, -⟩ := exec_rebalanceInterval hx
    have hmoved : intervalMoved s inst x = groupMoved s d r a b x.core p n g.slot := by
      rw [intervalMoved_of_move hpair hres hne hhere hd hr]
      refine foldl_rebalancePart ha hb hdr hspare hroom hp hidle fun j hj => List.filter_eq_nil_iff.2 fun y hy hidle => ?_
      simp only [Bool.and_eq_true, beq_iff_eq] at hidle
      obtain ⟨⟨hcore, hpart⟩, hidle⟩ := hidle
      rw [hbelow y hy hcore (hpart ▸ hj)] at hidle
      cases hidle
    have hread : ∀ k, getTeam u k = getTeam (groupMoved s d r a b x.core p n g.slot) k := fun k => by
      rw [getTeam, hteams, hmoved, getTeam]
    obtain ⟨y, hy, hgroups, hlead⟩ := groupMoved_donor (s := s) (a := a) (b := b) (core := x.core) (part := p) (n := n) hdr g.slot
    obtain ⟨k, hk, hnone, hlt⟩ := freshNumber_spec hfree
    refine ⟨u, y, _, k, startGroup b.width x.core p g.slot b.wr b.syncP r.grpEntry, hu, (hread _).trans hy, hgroups, hlead,
      (hread _).trans (groupMoved_recipient hdr hb _), hnone, hlt, by rw [hk], rfl, rfl, rfl, rfl, rfl,
      List.length_replicate, fun l hl => ?_⟩
    rw [List.eq_of_mem_replicate hl]
    exact ⟨rfl, rfl⟩

end Sys2Proof.Machine
end

section
/-! O3: the step. What a party's try to issue comes to where it stands at an open slot. -/

namespace Sys2Proof.Machine

section
variable {s s1 : State} {p : Party} {pc : DWord} {line : Nat} {entered arrived : Bool} {i : Instr}

/-- R67, R92, R333, R334: an open slot whose word decodes is run, with the party as `turn` and the line's word noted. -/
theorem issueSlot_of_open (h : SlotOpen s p pc line entered arrived) (hi : decode (slotWord line (slotOf pc)) = .ok i) :
    issueSlot s p pc line entered arrived = .run i { s with turn := some p, lw := BitVec.ofNat 32 (lineWord line) } := by
  obtain ⟨htarget, hwait, hword⟩ := h
  have hentry : (entered && !tgtBit line (slotOf pc)) = false := by
    cases entered with
    | false => rfl
    | true => simp [htarget]
  have hflags : (match getCom s p with
      | some c => if arrived then waitTest c (lwWait (lineWord line)) else .ok ()
      | none => .ok () : Except Stop Unit) = .ok () := by
    cases hc : getCom s p with
    | none => rfl
    | some c =>
      cases arrived with
      | false => rfl
      | true => exact hwait rfl c hc
  have hformed : (if kindOf p = .porter then arrived && lwPorterBad (lineWord line) else lwMalformed (lineWord line)) =
      false := by
    split
    next hp => rwa [if_pos hp] at hword
    next hp => rwa [if_neg hp] at hword
  unfold issueSlot
  dsimp only
  rw [hentry, hformed, hi]
  simp only [Bool.false_eq_true, if_false]
  split
  next x hx => cases hx.symm.trans hflags
  · rfl

/-- R67, R70, R164: a party that may issue tries the slot at which it stands. -/
theorem issueOf_of_stands (hmay : mayIssue s p = true) (h : StandsAt s p s1 pc line entered arrived) :
    issueOf s p = issueSlot s1 p pc line entered arrived := by
  unfold issueOf
  rw [hmay]
  cases p with
  | lead t =>
    obtain ⟨x, hx, rfl, rfl, rfl, hline⟩ := h
    simp [hx, hline]
  | group t g =>
    obtain ⟨x, y, ls, hx, hfront, rfl, rfl, hline⟩ := h
    simp [hx, hfront, hline]
  | porter c n =>
    obtain ⟨rfl, rfl, rfl, hgood, rfl, rfl⟩ := h
    simp [hgood]

end

/-- Settles O3: an event runs as it is; an issue comes to the slot at which its party stands (`issueOf_of_stands`), which is
run where it is open (`issueSlot_of_open`). -/
theorem stepRunsDecodedInstruction : Obligations.StepRunsDecodedInstruction := by
  unfold Obligations.StepRunsDecodedInstruction
  refine ⟨?event, ?issue, ?free⟩
  case event =>
    intro s i r h
    rw [step, h]
    rfl
  case issue =>
    intro s s1 p r pc line entered arrived i h hmay hstands hopen hi
    rw [step, h]
    dsimp only
    rw [runMove, issueOf_of_stands hmay hstands, issueSlot_of_open hopen hi]
  case free =>
    intro s m hnone hm
    rw [step, hnone]
    dsimp only
    rw [hm]

end Sys2Proof.Machine
end

section
/-! O13: what REDUX raises in a team whose width is no power of 2. By R123 a level has W / 2^j nodes, as in the model; the
tree by which the statement takes the flags has 2^k leaves, k being the logarithm of W rounded down. The widths of R28 are
powers of 2, where the two trees have the same nodes, but the statement asks its frame of every state. -/

namespace Sys2Proof.Machine

/-- Six threads, of which only those of lanes 4 and 5 live; v0 holds the two infinities there, and every trap of R106 is
enabled. -/
def oddGroup : Group := { startGroup 6 0 0 0 0 0 0 with
  thr := List.replicate 4 { Thread.start 0 with live := false } ++ List.replicate 2 (Thread.start 0)
  v := [(4, 0x7F800000), (5, 0xFF800000)]
  com := { Common.start with fcr := 0xF8 } }

/-- The group, in a team of width 6, is about to issue. -/
def oddState : State := Tests.withTeam { Tests.team0 with width := 6, groups := [(0, oddGroup)] } (.group 0 0)

/-- The sum of all lanes, to v3. -/
def oddSum : Instr := .redux Tests.c0 3 0 0 0

/-- The sum issues with register operands, and the tree of four leaves raises no enabled exception. -/
theorem oddSum_issues : ∃ w e, writesOf oddSum = some w ∧ Issues oddState oddSum w.c w.rules e ∧ e.recs = [] ∧
    e.dq = none ∧ isQ w.d = false ∧ e.p = .group 0 0 ∧ 4 ∈ e.lanes ∧ e.pc = 0 ∧
    ((floatRow oddSum).all fun r => r.flags e &&& fcrTraps e.com == 0) = true :=
  Tests.row_of (fun (w : Writes) (e : Env) => e.recs = [] ∧ e.dq = none ∧ isQ w.d = false ∧ e.p = .group 0 0 ∧
    4 ∈ e.lanes ∧ e.pc = 0 ∧ ((floatRow oddSum).all fun r => r.flags e &&& fcrTraps e.com == 0) = true) (by decide +kernel)

/-- R115, R123: the node of lanes 4 and 5 raises the invalid flag, which traps; the group stands where it was. -/
theorem oddSum_stays : pcAt (Tests.after oddSum oddState) (.group 0 0) 4 = 0 := by decide +kernel

/-- Refutes O13: in `oddState` the sum meets every condition, and traps FP_EXCEPTION by lanes 4 and 5, which the tree of the
statement leaves out: no thread of the frontier goes to the next PC. -/
theorem not_resultsChangeOnlyTheirRegisters : ¬ Obligations.ResultsChangeOnlyTheirRegisters := by
  unfold Obligations.ResultsChangeOnlyTheirRegisters
  intro h
  obtain ⟨w, e, hw, hissues, hrecs, hdq, hd, hp, hlane, hpc, hquiet⟩ := oddSum_issues
  have quiet : ∀ r, floatRow oddSum = some r → r.flags e &&& fcrTraps e.com = 0 := by
    intro r hr
    simpa [hr] using hquiet
  obtain ⟨t, hx, -, -, moves, -⟩ := h oddSum w oddState e hw hissues hrecs hdq hd quiet
  have after_eq : Tests.after oddSum oddState = t := by rw [Tests.after, hx]
  have moved := moves 4 hlane
  rw [hp, ← after_eq, oddSum_stays, hpc] at moved
  exact absurd moved (by decide)

end Sys2Proof.Machine
end

section
/-! O19: a branch into a line whose parity has failed. R68 makes no TGT test for such a line at the branch: the threads move,
and FETCH_PARITY is taken at the target. A line fetched ahead of need may be held with its parity failed (R164, log entry
49); the statement asks its trap of every line that is held. -/

namespace Sys2Proof.Machine

/-- The lead stands in a line that has no target and whose parity failed on both reads. -/
def spoiltState : State := { Tests.untargeted Tests.lst with fbuf := [⟨0, 0, 0, 0, true⟩] }

/-- A branch to slot 1 of the lead's own line. -/
def spoiltBranch : Instr := .br Tests.c0 ⟨0, 1⟩

/-- The branch meets what O19 asks. -/
theorem spoiltBranch_issues : ∃ e, Runs spoiltState spoiltBranch e ∧ e.act ≠ [] ∧ e.kind ≠ .porter ∧
    Tests.okB (fetchCheck e.s e.p (lineOf (targetPc e.pc ⟨0, 1⟩))) = true ∧
    findLine e.s.fbuf e.core e.ctx (lineOf (targetPc e.pc ⟨0, 1⟩)) = some ⟨0, 0, 0, 0, true⟩ ∧
    tgtBit 0 (slotOf (targetPc e.pc ⟨0, 1⟩)) = false ∧ e.p = .lead 0 ∧ e.pc = 0 :=
  Tests.issues_of _ (by decide +kernel)

/-- R68, R146: the lead has not trapped, and stands at its target. -/
theorem spoiltBranch_moves :
    getCom (Tests.after spoiltBranch spoiltState) (.lead 0) = some { Common.start with wcount := 1 } ∧
    pcAt (Tests.after spoiltBranch spoiltState) (.lead 0) 0 = 1 := by decide +kernel

/-- R292: had the lead trapped, it would stand where it was. -/
theorem spoiltState_trap_stays : pcAt (raiseTrap spoiltState (.lead 0) 0x04 ((targetPc 0 ⟨0, 1⟩).toNat % 2 ^ 32) 0 0)
    (.lead 0) 0 = 0 := by decide +kernel

/-- Refutes O19: in `spoiltState` the branch finds its line held and its slot unmarked, and its lead moves all the same. -/
theorem not_badTargetsTrap : ¬ Obligations.BadTargetsTrap := by
  unfold Obligations.BadTargetsTrap
  rintro ⟨branches, -⟩
  obtain ⟨e, hruns, hact, hkind, hcheck, hline, hmark, hp, hpc⟩ := spoiltBranch_issues
  have traps := branches _ _ spoiltState e _ hruns hact hkind (Tests.ok_of hcheck) hline hmark
  rw [hp, hpc] at traps
  have after_eq : Tests.after spoiltBranch spoiltState =
      raiseTrap spoiltState (.lead 0) 0x04 ((targetPc 0 ⟨0, 1⟩).toNat % 2 ^ 32) 0 0 := by
    unfold spoiltBranch
    rw [Tests.after, traps]
  have stays := spoiltState_trap_stays
  rw [← after_eq, spoiltBranch_moves.2] at stays
  exact absurd stays (by decide)

end Sys2Proof.Machine
end

section
/-! The layer of O15 and O16: what an update of one party's record leaves of the state, and where a party that issues
stands. -/

namespace Sys2Proof.Machine

/-! ### Two updates of one record -/

theorem Tab.set_set {α : Type} (t : Tab α) (k : Nat) (x y : α) : Tab.set (Tab.set t k x) k y = Tab.set t k y := by
  induction t with
  | nil => simp [Tab.set]
  | cons c r ih =>
    obtain ⟨i, z⟩ := c
    rw [Tab.set]
    split
    next hlt => simp [Tab.set, hlt]
    next hge =>
      split
      next heq => simp [Tab.set, heq]
      next hne => simp [Tab.set, hge, hne, ih]

theorem setTeam_setTeam (s : State) (t : Nat) (x y : Team) : setTeam (setTeam s t x) t y = setTeam s t y := by
  simp only [setTeam, Tab.set_set]

theorem setGroup_setGroup (x : Team) (n : Nat) (y z : Group) : setGroup (setGroup x n y) n z = setGroup x n z := by
  simp only [setGroup, Tab.set_set]

theorem modTeam_modTeam (s : State) (t : Nat) (f g : Team → Team) :
    modTeam (modTeam s t f) t g = modTeam s t fun x => g (f x) := by
  cases h : getTeam s t with
  | none => simp [modTeam, h]
  | some x => simp [modTeam, h, setTeam_setTeam]

theorem modLead_modLead (s : State) (t : Nat) (f g : Lead → Lead) :
    modLead (modLead s t f) t g = modLead s t fun x => g (f x) := modTeam_modTeam ..

/-- An update of a group sets the group in its team, where both are there. -/
theorem modGroup_eq {s : State} {t n : Nat} {x : Team} {y : Group} (hx : getTeam s t = some x)
    (hy : Tab.find x.groups n = some y) (f : Group → Group) : modGroup s t n f = setTeam s t (setGroup x n (f y)) := by
  simp [modGroup, hx, hy]

theorem modGroup_of_none {s : State} {t n : Nat} (h : getGroup s t n = none) (f : Group → Group) : modGroup s t n f = s := by
  unfold getGroup at h
  unfold modGroup
  cases hx : getTeam s t with
  | none => rfl
  | some x =>
    simp only [hx] at h
    simp [h]

theorem getGroup_eq_some {s : State} {t n : Nat} {y : Group} :
    getGroup s t n = some y ↔ ∃ x, getTeam s t = some x ∧ Tab.find x.groups n = some y := by
  unfold getGroup
  cases getTeam s t <;> simp

theorem modGroup_modGroup (s : State) (t n : Nat) (f g : Group → Group) :
    modGroup (modGroup s t n f) t n g = modGroup s t n fun x => g (f x) := by
  cases h : getGroup s t n with
  | none => simp only [modGroup_of_none h]
  | some y =>
    obtain ⟨x, hx, hy⟩ := getGroup_eq_some.1 h
    rw [modGroup_eq hx hy, modGroup_eq (getTeam_setTeam ..) (find_setGroup_same ..), setTeam_setTeam, setGroup_setGroup,
      modGroup_eq hx hy]

theorem modCom_modCom (s : State) (p : Party) (f g : Common → Common) :
    modCom (modCom s p f) p g = modCom s p fun c => g (f c) := by
  cases p with
  | group t n => exact modGroup_modGroup ..
  | lead t => simp only [modCom, modLead_modLead]
  | porter c n => rfl

/-! ### What the update of a party leaves of the other parties -/

/-- `t` has the control state and the registers of party `q` as `s` has them. -/
def SameParty (s t : State) (q : Party) : Prop := getCom t q = getCom s q ∧ ∀ k, regAt t q k = regAt s q k

section
variable {s t : State} {i n : Nat}

theorem SameParty.of_group (h : getGroup t i n = getGroup s i n) : SameParty s t (.group i n) :=
  ⟨by rw [getCom, getCom, h], fun k => by rw [regAt, regAt, h]⟩

theorem SameParty.of_lead (h : (getTeam t i).map (·.lead) = (getTeam s i).map (·.lead)) : SameParty s t (.lead i) := by
  have hcom : ∀ u : State, getCom u (.lead i) = ((getTeam u i).map (·.lead)).map (·.com) := fun u => by
    rw [getCom, Option.map_map]
    rfl
  have hreg : ∀ (u : State) (k : Nat), regAt u (.lead i) k = (((getTeam u i).map (·.lead)).map fun x =>
      if k / 64 < 0x5000 then (Tab.get x.s (k / 64) 0).toNat else (tb x.p.toNat (k / 64 - 0x5000)).toNat).getD 0 :=
    fun u k => by
      rw [regAt]
      cases getTeam u i <;> rfl
  exact ⟨by rw [hcom, hcom, h], fun k => by rw [hreg, hreg, h]⟩

theorem SameParty.of_porter (h : getPorter t i n = getPorter s i n) : SameParty s t (.porter i n) :=
  ⟨rfl, fun k => by rw [regAt, regAt, h]⟩

end

/-- A porter is read from the cores alone. -/
theorem getPorter_of_cores {s t : State} (h : t.cores = s.cores) (c n : Nat) : getPorter t c n = getPorter s c n := by
  unfold getPorter getCore
  rw [h]

/-- A group is read from the teams alone. -/
theorem getGroup_of_team {s t : State} {i : Nat} (h : getTeam t i = getTeam s i) (n : Nat) :
    getGroup t i n = getGroup s i n := by
  rw [getGroup, h, getGroup]

theorem getTeam_modGroup_lead (s : State) (t n : Nat) (f : Group → Group) (i : Nat) :
    (getTeam (modGroup s t n f) i).map (·.lead) = (getTeam s i).map (·.lead) := by
  cases h : getGroup s t n with
  | none => rw [modGroup_of_none h]
  | some y =>
    obtain ⟨x, hx, hy⟩ := getGroup_eq_some.1 h
    by_cases hi : i = t
    · subst hi
      rw [getTeam_modGroup_same _ _ _ _ _ _ hx hy, hx]
      rfl
    · rw [getTeam_modGroup_other _ _ _ _ _ hi]

theorem modGroup_sameParty (s : State) {t n : Nat} (f : Group → Group) {q : Party} (h : q ≠ .group t n) :
    SameParty s (modGroup s t n f) q := by
  cases q with
  | group i m =>
    refine .of_group ?_
    by_cases hi : i = t
    · subst hi
      exact getGroup_modGroup_other _ _ _ _ _ fun hm => h (by rw [hm])
    · exact getGroup_of_team (getTeam_modGroup_other _ _ _ _ _ hi) _
  | lead i => exact .of_lead (getTeam_modGroup_lead ..)
  | porter c m => exact .of_porter (getPorter_of_cores (by simp) ..)

theorem modLead_sameParty (s : State) {t : Nat} (f : Lead → Lead) {q : Party} (h : q ≠ .lead t) :
    SameParty s (modLead s t f) q := by
  cases q with
  | group i m =>
    refine .of_group ?_
    by_cases hi : i = t
    · subst hi
      rw [getGroup, getTeam_modLead, getGroup]
      cases getTeam s i <;> rfl
    · exact getGroup_of_team (getTeam_modTeam_other _ _ _ _ hi) _
  | lead i =>
    have hi : i ≠ t := fun hi => h (by rw [hi])
    exact .of_lead (by rw [modLead, getTeam_modTeam_other _ _ _ _ hi])
  | porter c m => exact .of_porter (getPorter_of_cores (by simp) ..)

theorem getPorter_modPorter_same (s : State) (c n : Nat) (f : Porter → Porter) :
    getPorter (modPorter s c n f) c n = f (getPorter s c n) := getPorter_setPorter ..

theorem getPorter_modPorter_other (s : State) {c n k m : Nat} (f : Porter → Porter)
    (h : seat (.porter k m) ≠ seat (.porter c n)) : getPorter (modPorter s c n f) k m = getPorter s k m := by
  unfold modPorter setPorter getPorter
  by_cases hk : k = c
  · subst hk
    have hm : min m 1 ≠ min n 1 := fun hm => h (by rw [seat, seat, hm])
    rw [getCore_modCore]
    by_cases hn : n = 0
    · rw [if_neg (by omega : m ≠ 0), if_neg (by omega : m ≠ 0)]
      simp [hn]
    · rw [if_pos (by omega : m = 0), if_pos (by omega : m = 0)]
      simp [hn]
  · rw [getCore_modCore_other _ _ _ _ hk]

theorem modPorter_sameParty (s : State) {c n : Nat} (f : Porter → Porter) {q : Party} (h : seat q ≠ seat (.porter c n)) :
    SameParty s (modPorter s c n f) q := by
  cases q with
  | group i m => exact .of_group rfl
  | lead i => exact .of_lead rfl
  | porter k m => exact .of_porter (getPorter_modPorter_other s f h)

/-! ### Frames of the update of the issuing party -/

section
variable {s : State} {e : Env}

theorem OnlyParty.of_group (hp : e.p = .group e.t e.gid) (hk : e.kind = .group) (f : Group → Group) :
    OnlyParty s (modGroup s e.t e.gid f) e := by
  refine ⟨?_, fun n hn => getTeam_modGroup_other _ _ _ _ _ hn, fun a ha => ?_, fun c n h => ?_, fun q hq => ?_⟩
  · rw [if_neg (by simp [hk])]
    unfold modGroup
    repeat' split
    all_goals rfl
  · rw [hp]
    cases hg : getGroup s e.t e.gid with
    | none =>
      rw [modGroup_of_none hg]
      exact ⟨a, ha, rfl, fun _ _ => rfl⟩
    | some y =>
      obtain ⟨x, hx, hy⟩ := getGroup_eq_some.1 hg
      obtain rfl : a = x := Option.some.inj (ha.symm.trans hx)
      exact ⟨_, getTeam_modGroup_same _ _ _ _ _ _ hx hy, rfl, fun n hn => find_setGroup_other _ _ _ _ hn⟩
  · rw [hp] at h
    cases h
  · exact modGroup_sameParty s f fun h => hq (by rw [h, hp])

theorem OnlyParty.of_lead (hp : e.p = .lead e.t) (hk : e.kind = .lead) (f : Lead → Lead) :
    OnlyParty s (modLead s e.t f) e := by
  refine ⟨?_, fun n hn => getTeam_modTeam_other _ _ _ _ hn, fun a ha => ?_, fun c n h => ?_, fun q hq => ?_⟩
  · rw [if_neg (by simp [hk])]
    exact (modLead_only_teams ..).restore
  · rw [hp]
    exact ⟨{ a with lead := f a.lead }, by rw [getTeam_modLead, ha, Option.map_some], rfl⟩
  · rw [hp] at h
    cases h
  · exact modLead_sameParty s f fun h => hq (by rw [h, hp])

theorem modPorter_coresStand (s : State) (c n : Nat) (f : Porter → Porter) : coresStand s (modPorter s c n f) c n := by
  refine ⟨fun k hk => getCore_modCore_other _ _ _ _ hk, ?_⟩
  unfold modPorter setPorter
  rw [getCore_modCore]
  by_cases hn : n = 0 <;> simp [hn]

theorem OnlyParty.of_porter {c n : Nat} (hp : e.p = .porter c n) (hk : e.kind = .porter) (f : Porter → Porter) :
    OnlyParty s (modPorter s c n f) e := by
  refine ⟨?_, fun _ _ => rfl, fun a ha => ⟨a, ha, by rw [hp]; rfl⟩, fun k m h => ?_, fun q hq => ?_⟩
  · rw [if_pos hk]
    rfl
  · obtain ⟨rfl, rfl⟩ : c = k ∧ n = m := by simpa [hp] using h
    exact modPorter_coresStand ..
  · exact modPorter_sameParty s f (by rwa [hp] at hq)

/-- A group's record with its registers as they were, and of its control state what an issue counts. -/
def GroupCounts (flag : Option Nat) (x y : Group) : Prop :=
  y.v = x.v ∧ y.k = x.k ∧ y.p = x.p ∧ sameControl flag x.com y.com

/-- The same of a lead. -/
def LeadCounts (flag : Option Nat) (x y : Lead) : Prop := y.s = x.s ∧ y.p = x.p ∧ sameControl flag x.com y.com

theorem OnlyWrites.of_group (hp : e.p = .group e.t e.gid) (hk : e.kind = .group) {f : Group → Group}
    (hf : ∀ x, GroupCounts (cfFlag e.s.lw.toNat e.c) x (f x)) : OnlyWrites s (modGroup s e.t e.gid f) e [] := by
  refine ⟨.of_group hp hk f, fun k _ => ?_, fun a b ha hb => ?_⟩
  · rw [hp, regAt, regAt, getGroup_modGroup]
    cases getGroup s e.t e.gid with
    | none => rfl
    | some x =>
      obtain ⟨hv, hk, hpred, -⟩ := hf x
      simp only [Option.map_some, hv, hk, hpred]
  · rw [hp, getCom, getGroup_modGroup] at hb
    rw [hp, getCom] at ha
    obtain ⟨x, hx, rfl⟩ := Option.map_eq_some_iff.1 ha
    rw [hx] at hb
    cases hb
    exact (hf x).2.2.2

theorem OnlyWrites.of_lead (hp : e.p = .lead e.t) (hk : e.kind = .lead) {f : Lead → Lead}
    (hf : ∀ x, LeadCounts (cfFlag e.s.lw.toNat e.c) x (f x)) : OnlyWrites s (modLead s e.t f) e [] := by
  refine ⟨.of_lead hp hk f, fun k _ => ?_, fun a b ha hb => ?_⟩
  · rw [hp, regAt, regAt, getTeam_modLead]
    cases getTeam s e.t with
    | none => rfl
    | some x =>
      obtain ⟨hs, hpred, -⟩ := hf x.lead
      simp only [Option.map_some, hs, hpred]
  · rw [hp, getCom, getTeam_modLead] at hb
    rw [hp, getCom] at ha
    obtain ⟨x, hx, rfl⟩ := Option.map_eq_some_iff.1 ha
    rw [hx] at hb
    cases hb
    exact (hf x.lead).2.2

theorem OnlyWrites.of_porter {c n : Nat} (hp : e.p = .porter c n) (hk : e.kind = .porter) {f : Porter → Porter}
    (hf : ∀ x, (f x).g = x.g) : OnlyWrites s (modPorter s c n f) e [] := by
  refine ⟨.of_porter hp hk f, fun k _ => ?_, fun a b ha => ?_⟩
  · rw [hp, regAt, regAt, getPorter_modPorter_same, hf]
  · rw [hp] at ha
    cases ha

end

/-! ### Where a party that issues stands -/

/-- The group `x` of `s` issues: the lanes of its frontier are threads that stand at the PC of the issue (R70). -/
structure GroupStands (s : State) (e : Env) (x : Group) : Prop where
  party : e.p = .group e.t e.gid
  kind : e.kind = .group
  group : getGroup s e.t e.gid = some x
  front : ∀ l ∈ e.lanes, l < x.thr.length ∧ (thread x l).pc = e.pc

/-- The lead of a team of `s` issues: its one thread, if its guard passes (R67, R336). -/
structure LeadStands (s : State) (e : Env) : Prop where
  party : e.p = .lead e.t
  kind : e.kind = .lead
  lanes : e.lanes = [0]
  active : e.act ≠ [] → e.act = [0]
  team : getTeam s e.t = some e.tm
  front : e.tm.lead.pc = e.pc

/-- A porter of `s` issues. -/
structure PorterStands (s : State) (e : Env) (c n : Nat) : Prop where
  party : e.p = .porter c n
  kind : e.kind = .porter
  lanes : e.lanes = [0]
  front : (getPorter s c n).pc = e.pc

/-- R336: a lead's one thread is active or not. -/
theorem envOf_lead_act {s : State} {t : Nat} {i : Instr} {c : Ctl} {e : Env} (h : envOf s (.lead t) i c = some e)
    (hact : e.act ≠ []) : e.act = [0] := by
  unfold envOf at h
  cases ht : getTeam s t with
  | none => simp [teamOf, ht] at h
  | some tm =>
    simp only [teamOf, ht] at h
    cases h
    dsimp only at hact ⊢
    split
    · rfl
    next hno => exact absurd (if_neg hno) hact

theorem envOf_porter_spec {s : State} {k n : Nat} {i : Instr} {c : Ctl} {e : Env}
    (h : envOf s (.porter k n) i c = some e) : e.s = s ∧ e.lanes = [0] ∧ e.pc = (getPorter s k n).pc := by
  unfold envOf at h
  cases ht : getTeam s (teamOf s (.porter k n)) with
  | none => simp [ht] at h
  | some tm =>
    simp only [ht] at h
    cases h
    exact ⟨rfl, rfl, rfl⟩

/-- Taking the DQ entry leaves the group's threads where they are. -/
theorem popAll_thr {e : Env} {g : Group} (hr : e.recs = []) (hg : getGroup e.s e.t e.gid = some g) :
    ∃ x, getGroup (popAll e).s e.t e.gid = some x ∧ x.thr = g.thr := by
  rw [popAll, hr]
  dsimp only [List.foldl_nil]
  split
  · exact ⟨g, hg, rfl⟩
  have hrd : getGroup (modGroup e.s e.t e.gid fun g => { g with rd := g.rd + 1 }) e.t e.gid =
      some { g with rd := g.rd + 1 } := by
    rw [getGroup_modGroup, hg, Option.map_some]
  split
  · refine ⟨_, by rw [getGroup_phaseBoundary, hrd, Option.map_some], ?_⟩
    unfold groupPastBoundary
    split <;> rfl
  · exact ⟨_, hrd, rfl⟩

section
variable {s : State} {i : Instr} {c : Ctl} {r : Rules} {e : Env}

theorem Issues.groupStands (h : Issues s i c r e) (hpop : popFields (r.fields e.kind) = []) {t n : Nat}
    (hp : e.p = .group t n) : ∃ x, GroupStands e.s e x := by
  obtain ⟨b, hb, he⟩ := h.env_of_no_pop hpop
  rw [hp] at hb
  obtain ⟨-, hs, ht, hgid⟩ := envOf_group_spec hb
  obtain ⟨-, -, -, hkind, hrecs, -⟩ := envOf_spec hb
  obtain ⟨g0, hfront⟩ := envOf_group_frontier hb
  have hgroup : getGroup b.s b.t b.gid = some b.g := by
    rw [hs, ht, hgid, getGroup, getTeam_setTeam]
    exact find_setGroup_same ..
  generalize (if usesDq b r then dqHead b else none) = d at he
  subst he
  obtain ⟨x, hx, hthr⟩ := popAll_thr (e := { b with dq := d }) hrecs hgroup
  refine ⟨x, ⟨?_, hkind, hx, fun l hl => ?_⟩⟩
  · exact hp.trans (by rw [← ht, ← hgid]; rfl)
  · obtain ⟨hlt, hpc⟩ := frontier_spec hfront l hl
    exact ⟨by rwa [hthr], by rw [thread, hthr]; exact hpc⟩

theorem Issues.env_of_no_group (h : Issues s i c r e) (hpop : popFields (r.fields e.kind) = []) (hk : e.kind ≠ .group) :
    envOf s e.p i c = some e := h.env_of_takes_nothing hpop (by simp [usesDq, hk])

theorem Issues.leadStands (h : Issues s i c r e) (hpop : popFields (r.fields e.kind) = []) {t : Nat}
    (hp : e.p = .lead t) : LeadStands e.s e := by
  obtain ⟨-, hkind, -⟩ := h.checked
  have hkind : e.kind = .lead := by rw [hkind, hp]; rfl
  have henv := h.env_of_no_group hpop (by simp [hkind])
  rw [hp] at henv
  obtain ⟨hteam, hs, ht, hlanes, hpc⟩ := envOf_lead_spec henv
  exact ⟨by rw [hp, ht], hkind, hlanes, envOf_lead_act henv, by rw [hs, ht, hteam], hpc.symm⟩

theorem Issues.porterStands (h : Issues s i c r e) (hpop : popFields (r.fields e.kind) = []) {k n : Nat}
    (hp : e.p = .porter k n) : PorterStands e.s e k n := by
  obtain ⟨-, hkind, -⟩ := h.checked
  have hkind : e.kind = .porter := by rw [hkind, hp]; rfl
  have henv := h.env_of_no_group hpop (by simp [hkind])
  rw [hp] at henv
  obtain ⟨hs, hlanes, hpc⟩ := envOf_porter_spec henv
  exact ⟨hp, hkind, hlanes, by rw [hpc, hs]⟩

end

end Sys2Proof.Machine
end

section
/-! O15: the branches. Each comes to `branch` of one map of lanes to targets, which is one update of the party's record. -/

namespace Sys2Proof.Machine

/-! ### What an issue counts -/

/-- R91, R300, R348: a party's control state once an instruction of fixed latency has issued. -/
def issuedCom (e : Env) (c : Common) : Common :=
  let c := { c with wcount := c.wcount + 1, stall := none, wait := none }
  if e.c.cf = 0 then c
  else
    let o := newOp e c .fixed [] [] 0
    let d := match o.flag with
      | some f => flagUp c f
      | none => c
    { d with ops := d.ops ++ [o], nextOp := d.nextOp + 1 }

theorem attach_counted (e : Env) (s : State) : attach e (counted e s) = modCom s e.p (issuedCom e) := by
  by_cases hcf : e.c.cf = 0
  · have hcom : issuedCom e = fun c => { c with wcount := c.wcount + 1, stall := none, wait := none } :=
      funext fun c => if_pos hcf
    rw [attach, if_pos hcf, counted, hcom]
  · rw [attach, if_neg hcf, counted, addOp, modCom_modCom]
    refine congrArg (modCom s e.p) (funext fun c => ?_)
    rw [issuedCom, if_neg hcf]
    rfl

theorem issuedCom_sameControl (e : Env) (c : Common) : sameControl (cfFlag e.s.lw.toNat e.c) c (issuedCom e c) := by
  unfold issuedCom
  dsimp only [newOp]
  split
  · exact ⟨rfl, rfl, rfl, rfl, rfl, rfl, rfl, fun _ _ => rfl⟩
  cases hf : cfFlag e.s.lw.toNat e.c with
  | none => exact ⟨rfl, rfl, rfl, rfl, rfl, rfl, rfl, fun _ _ => rfl⟩
  | some f =>
    refine ⟨rfl, rfl, rfl, rfl, rfl, rfl, rfl, fun n hn => ?_⟩
    dsimp only [flagUp]
    exact (Tab.get_put_other _ _ _ _ _ _ fun h => hn (congrArg some h.symm)).symm

/-! ### A branch as one update -/

/-- A frontier thread after a branch (R67, R71). -/
def branchThread (e : Env) (keep : Bool) (f : Nat → Option DWord) (l : Nat) (h : Thread) : Thread :=
  if keep && !e.act.contains l then stayThread h
  else match f l with
    | some pc => enterAt pc h
    | none => fallThrough h

/-- A group, a lead and a porter after a branch. -/
def branchGroup (e : Env) (keep : Bool) (f : Nat → Option DWord) (x : Group) : Group :=
  { x with com := issuedCom e x.com, thr := mapLanes x.thr 0 e.lanes (branchThread e keep f) }

def branchLead (e : Env) (f : Nat → Option DWord) (x : Lead) : Lead :=
  match f 0 with
  | some pc => leadEnter pc { x with com := issuedCom e x.com }
  | none => leadFall { x with com := issuedCom e x.com }

def branchPorter (f : Nat → Option DWord) (x : Porter) : Porter :=
  match f 0 with
  | some pc => porterEnter pc x
  | none => porterFall x

section
variable {e : Env} (s : State) (keep : Bool) (f : Nat → Option DWord)

theorem branch_group {t n : Nat} (hp : e.p = .group t n) :
    branch e s keep f = modGroup s t n (branchGroup e keep f) := by
  rw [branch, attach_counted, moveTo, hp]
  exact modGroup_modGroup ..

theorem branch_lead {t : Nat} (hp : e.p = .lead t) : branch e s keep f = modLead s t (branchLead e f) := by
  rw [branch, attach_counted, moveTo, hp]
  exact modLead_modLead s t (fun x => { x with com := issuedCom e x.com }) _

theorem branch_porter {c n : Nat} (hp : e.p = .porter c n) : branch e s keep f = modPorter s c n (branchPorter f) := by
  rw [branch, attach_counted, moveTo, hp]
  rfl

end

section
variable (e : Env) (keep : Bool) (f : Nat → Option DWord)

theorem branchThread_pc (l : Nat) (h : Thread) : (branchThread e keep f l h).pc =
    if keep && !e.act.contains l then h.pc else (f l).getD (nextPc h.pc) := by
  unfold branchThread
  split
  · rfl
  · cases f l <;> rfl

theorem branchThread_meet (l : Nat) (h : Thread) : (branchThread e keep f l h).meet = h.meet := by
  unfold branchThread
  split
  · rfl
  · cases f l <;> rfl

theorem branchGroup_counts (x : Group) : GroupCounts (cfFlag e.s.lw.toNat e.c) x (branchGroup e keep f x) :=
  ⟨rfl, rfl, rfl, issuedCom_sameControl e x.com⟩

theorem branchLead_counts (x : Lead) : LeadCounts (cfFlag e.s.lw.toNat e.c) x (branchLead e f x) := by
  unfold branchLead
  cases f 0 <;> exact ⟨rfl, rfl, issuedCom_sameControl e x.com⟩

theorem branchLead_pc (x : Lead) : (branchLead e f x).pc = (f 0).getD (nextPc x.pc) := by
  unfold branchLead
  cases f 0 <;> rfl

theorem branchPorter_g (x : Porter) : (branchPorter f x).g = x.g := by
  unfold branchPorter
  cases f 0 <;> rfl

theorem branchPorter_pc (x : Porter) : (branchPorter f x).pc = (f 0).getD (nextPc x.pc) := by
  unfold branchPorter
  cases f 0 <;> rfl

end

/-- A thread after a change of some lanes. -/
theorem thread_mapLanes {x : Group} {ls : List Nat} (g : Nat → Thread → Thread) {l : Nat} (hl : l < x.thr.length) :
    thread { x with thr := mapLanes x.thr 0 ls g } l = if l ∈ ls then g l (thread x l) else thread x l := by
  have hx : x.thr[l]? = some (thread x l) := by
    rw [thread, nth, List.getElem?_eq_getElem hl, Option.getD_some]
  rw [thread, nth]
  dsimp only
  rw [getElem?_mapLanes, hx, Nat.zero_add, Option.map_some, Option.getD_some]
  simp only [List.contains_iff_mem]

/-! ### Where the frontier goes -/

section
variable {s : State} {e : Env} {keep : Bool} {f : Nat → Option DWord}

theorem pcAt_group {t n : Nat} {x : Group} (h : getGroup s t n = some x) (l : Nat) :
    pcAt s (.group t n) l = (thread x l).pc := by
  rw [pcAt, h]
  rfl

theorem thread_branchGroup {x : Group} {l : Nat} (hl : l ∈ e.lanes) (hlt : l < x.thr.length) :
    thread (branchGroup e keep f x) l = branchThread e keep f l (thread x l) :=
  (thread_mapLanes _ hlt).trans (if_pos hl)

/-- R67, R71: a group's branch. -/
theorem GroupStands.branch {x : Group} (h : GroupStands s e x) : OnlyWrites s (branch e s keep f) e [] ∧
    Moves (branch e s keep f) e (fun l => if keep && !e.act.contains l then some e.pc else f l) := by
  rw [branch_group s keep f h.party]
  refine ⟨.of_group h.party h.kind (branchGroup_counts e keep f), fun l hl => ?_⟩
  obtain ⟨hlt, hpc⟩ := h.front l hl
  rw [h.party, pcAt_group (by rw [getGroup_modGroup, h.group, Option.map_some]), thread_branchGroup hl hlt,
    branchThread_pc, hpc]
  dsimp only
  split <;> rfl

theorem LeadStands.branch (h : LeadStands s e) :
    OnlyWrites s (branch e s keep f) e [] ∧ Moves (branch e s keep f) e f := by
  rw [branch_lead s keep f h.party]
  refine ⟨.of_lead h.party h.kind (branchLead_counts e f), fun l hl => ?_⟩
  obtain rfl : l = 0 := by simpa [h.lanes] using hl
  rw [h.party, pcAt, getTeam_modLead, h.team]
  exact (branchLead_pc ..).trans (by rw [h.front])

theorem PorterStands.branch {c n : Nat} (h : PorterStands s e c n) :
    OnlyWrites s (branch e s keep f) e [] ∧ Moves (branch e s keep f) e f := by
  rw [branch_porter s keep f h.party]
  refine ⟨.of_porter h.party h.kind (branchPorter_g f), fun l hl => ?_⟩
  obtain rfl : l = 0 := by simpa [h.lanes] using hl
  rw [h.party, pcAt, getPorter_modPorter_same, branchPorter_pc, h.front]

end

section
variable {s : State} {i : Instr} {c : Ctl} {r : Rules} {e : Env}

/-- R67: a branch that moves the whole frontier changes nothing but the PCs and what an issue counts. -/
theorem Issues.branch_frame (h : Issues s i c r e) (hpop : popFields (r.fields e.kind) = []) (f : Nat → Option DWord) :
    OnlyWrites e.s (branch e e.s false f) e [] ∧ Moves (branch e e.s false f) e f := by
  cases hp : e.p with
  | group t n =>
    obtain ⟨x, hx⟩ := h.groupStands hpop hp
    exact hx.branch
  | lead t => exact (h.leadStands hpop hp).branch
  | porter k n => exact (h.porterStands hpop hp).branch

/-- The group of an opcode that only groups issue. -/
theorem Issues.groupStands_of_kindOk (h : Issues s i c r e) (hpop : popFields (r.fields e.kind) = [])
    (hlead : kindOk (opOf i) .lead = false) (hporter : kindOk (opOf i) .porter = false) :
    ∃ x, GroupStands e.s e x := by
  obtain ⟨hok, hkind, -⟩ := h.checked
  cases hp : e.p with
  | group t n => exact h.groupStands hpop hp
  | lead t =>
    rw [hkind, hp, kindOf, hlead] at hok
    cases hok
  | porter k n =>
    rw [hkind, hp, kindOf, hporter] at hok
    cases hok

end

/-! ### Targets -/

section
variable {e : Env}

/-- R68: a branch to one target, whose slot is one where any lane takes it. -/
theorem branchTo_of_targetOk {t : Target} {take : Nat → Bool} (h : targetOk e t take) (s : State) (keep : Bool) :
    branchTo e s keep (targetPc e.pc t) take = .ok (branch e s keep (taken e t take)) := by
  have htaken : (fun l => if e.act.contains l && take l then some (targetPc e.pc t) else none) = taken e t take := by
    funext l
    simp [taken]
  unfold branchTo
  dsimp only
  rw [htaken]
  split
  next hany => rw [h (by simpa using hany)]
  · rfl

theorem mapE_ok {ε α β : Type} {l : List α} {g : α → Except ε β} (h : ∀ a ∈ l, ∃ b, g a = .ok b) :
    ∃ r, mapE l g = .ok r := by
  induction l with
  | nil => exact ⟨[], rfl⟩
  | cons a l ih =>
    obtain ⟨b, hb⟩ := h a (List.mem_cons_self ..)
    obtain ⟨r, hr⟩ := ih fun x hx => h x (List.mem_cons_of_mem _ hx)
    exact ⟨b :: r, by rw [mapE, hb]; dsimp only; rw [hr]⟩

/-- R68: register targets that are well formed and marked pass their checks. -/
theorem checkTargets_of_targetsOk {tgt : Nat → DWord} (h : targetsOk e tgt) : checkTargets e tgt = .ok () := by
  obtain ⟨r, hr⟩ := mapE_ok (l := e.act) (g := fun l =>
      if pcOk (tgt l) then targetCheck e (tgt l) else .error (.trap tcTarget ((tgt l).toNat % 2 ^ 32) 0)) fun l hl => by
    obtain ⟨hpc, hcheck⟩ := h l hl
    exact ⟨(), by rw [if_pos hpc, hcheck]⟩
  rw [checkTargets, hr]

end

/-! ### Opcodes -/

theorem opOf_brx (c : Ctl) (a : Code) : opOf (.brx c a) = 0x205 := opOf_encode rfl (encR_div _ _ _ _ _ (by omega))

theorem opOf_brv (c : Ctl) (a : Code) (t m : Target) : opOf (.brv c a t m) = 0x203 := by
  refine opOf_encode rfl ?_
  rw [Nat.add_assoc, Nat.add_assoc]
  refine encHead_add_div _ _ _ _ (by omega) ?_
  unfold encTgt encMeet
  omega

/-! ### BR, BRC and BDQ -/

/-- R2: the model and the statements read a word as signed alike. -/
theorem sext_eq_signed (v n : Nat) (hn : 0 < n) : sext v n = signed n v := by
  obtain ⟨k, rfl⟩ : ∃ k, n = k + 1 := ⟨n - 1, by omega⟩
  have hpow : 2 ^ (k + 1) = 2 ^ k * 2 := Nat.pow_succ ..
  simp only [sext, signed, Nat.add_sub_cancel, hpow]
  by_cases h : v % (2 ^ k * 2) < 2 ^ k
  · rw [if_neg (by omega), if_pos h]
  · rw [if_pos (by omega), if_neg h]
    push_cast
    rfl

/-- R385: the model's condition of BRC is that of the table. -/
theorem brcTaken_eq_compareHolds (cond : BitVec 3) (a b : Nat) : brcTaken cond a b = compareHolds cond a b := by
  have hcode : ∀ n : BitVec 3, cond = n ↔ cond.toNat = n.toNat := fun n => BitVec.toNat_inj.symm
  unfold brcTaken compareHolds
  simp only [sext_eq_signed _ 64 (by decide), hcode]
  split <;> simp_all

section
variable {c : Ctl} {a b : Code} {t m : Target} {s : State} {e : Env}

theorem exec_br (h : Runs s (.br c t) e) (ht : targetOk e t fun _ => true) :
    Machine.exec (.br c t) s = .next (branch e e.s false (taken e t fun _ => true)) := by
  change execBr c t s = _
  exact perform_next h (branchTo_of_targetOk ht ..)

theorem exec_brc {cond : BitVec 3} (h : Runs s (.brc c a b cond t) e)
    (ht : targetOk e t fun _ => compareHolds cond (val e a 0) (val e b 0)) : Machine.exec (.brc c a b cond t) s =
      .next (branch e e.s false (taken e t fun _ => compareHolds cond (val e a 0) (val e b 0))) := by
  change execBrc c a b cond t s = _
  refine perform_next h ?_
  rw [brcTaken_eq_compareHolds]
  exact branchTo_of_targetOk ht ..

theorem exec_bdq {n : BitVec 6} {z : Bool} {v : DWord} (h : Runs s (.bdq c n z t) e) (hv : e.dq = some v)
    (ht : targetOk e t fun _ => v.getLsbD n.toNat != z) : Machine.exec (.bdq c n z t) s =
      .next (branch e e.s false (taken e t fun _ => v.getLsbD n.toNat != z)) := by
  have hbit : tb v.toNat n.toNat = v.getLsbD n.toNat := by
    rw [tb, BitVec.getLsbD, Nat.testBit_eq_decide_div_mod_eq]
    rfl
  change execBdq c n z t s = _
  refine perform_next h ?_
  rw [hv, Option.getD_some, hbit]
  exact branchTo_of_targetOk ht ..

/-! ### BRX and LOOP -/

theorem exec_brx (h : Runs s (.brx c a) e) (ht : targetsOk e (pcOf e a)) :
    Machine.exec (.brx c a) s = .next (branch e e.s true fun l => some (pcOf e a l)) := by
  change execBrx c a s = _
  refine perform_next h ?_
  dsimp only
  rw [show checkTargets e (fun l => BitVec.ofNat 64 (val64 e a l)) = .ok () from checkTargets_of_targetsOk ht]
  rfl

/-- One less, modulo 2^w, of a number that is one more. -/
theorem wrap_pred {n v w : Nat} (hn : n < 2 ^ w) (hv : (n + 1) % 2 ^ w = v) : wrap ((v : Int) - 1) w = n := by
  unfold wrap
  generalize 2 ^ w = m at *
  by_cases hlast : n + 1 = m
  · obtain rfl : v = 0 := by rw [← hv, hlast, Nat.mod_self]
    rw [← Int.add_emod_right, Int.emod_eq_of_lt] <;> omega
  · obtain rfl : v = n + 1 := by rw [← hv, Nat.mod_eq_of_lt (by omega)]
    rw [Int.emod_eq_of_lt] <;> omega

theorem exec_loop {n : Nat} (h : Runs s (.loop c a t) e) (hact : e.act ≠ []) (hn : n < 2 ^ e.w)
    (hv : (n + 1) % 2 ^ e.w = val e a e.low) (ht : targetOk e t fun _ => n != 0) :
    Machine.exec (.loop c a t) s =
      .next (branch e (writeRun e e.s a 1 fun _ => n) false (taken e t fun _ => n != 0)) := by
  change execLoop c a t s = _
  refine perform_next h ?_
  rw [if_neg (by simpa using hact), wrap_pred hn hv]
  exact branchTo_of_targetOk ht ..

end

/-! ### BRV -/

/-- R72: a group whose `Active` threads take the meeting point `pc`. -/
def meetGroup (e : Env) (pc : DWord) (x : Group) : Group :=
  { x with thr := mapLanes x.thr 0 e.act fun _ h => { h with meet := pc } }

/-- R72: the vote divides the `Active` lanes. -/
def divides (e : Env) (take : Nat → Bool) : Bool := e.act.any take && !e.act.all take

theorem divides_iff (e : Env) (take : Nat → Bool) :
    divides e take = true ↔ (∃ i ∈ e.act, take i = true) ∧ ∃ i ∈ e.act, take i = false := by
  simp [divides]

section
variable {c : Ctl} {a : Code} {t m : Target} {s : State} {e : Env}

/-- R72: BRV reads a predicate. -/
theorem brv_takes (h : Runs s (.brv c a t m) e) (l : Nat) : (val e a l == 1) = predVal e (predNum a) l := by
  obtain ⟨-, -, hcodes⟩ := h.checked
  have hcode := hcodes ⟨a, .pin false⟩ (List.mem_singleton.2 rfl)
  obtain ⟨-, hlo, hhi⟩ : e.kind ≠ .porter ∧ 0xB0 ≤ a.toNat ∧ a.toNat ≤ 0xB7 := by
    simpa [goodCode, plainCode, Role.queued, isPred] using hcode
  have hq : isQ a = false := by simp [isQ]; omega
  have hd : isDq a = false := by simp [isDq]; omega
  have hpred : isPred a = true := by simp [isPred]; omega
  rw [val, hq, hd, hpred]
  simp only [Bool.false_eq_true, if_false, if_true]
  cases predVal e (predNum a) l <;> rfl

/-- R72, R387: BRV is a branch of a group whose `Active` threads meet where the vote divides them. -/
theorem exec_brv (h : Runs s (.brv c a t m) e) (ht : targetOk e t fun l => predVal e (predNum a) l) :
    Machine.exec (.brv c a t m) s = .next (branch e
      (if divides e (predVal e (predNum a)) then
        modGroup e.s e.t e.gid (meetGroup e (targetPc e.pc m)) else e.s)
      true (taken e t fun l => predVal e (predNum a) l)) := by
  have htake : (fun l => val e a l == 1) = predVal e (predNum a) := funext (brv_takes h)
  change execBrv c a t m s = _
  refine perform_next h ?_
  dsimp only
  rw [htake]
  exact branchTo_of_targetOk ht ..

end

/-- R72: the group of a BRV before its threads move. -/
def votedGroup (e : Env) (pc : DWord) (take : Nat → Bool) (x : Group) : Group :=
  if divides e take then meetGroup e pc x else x

section
variable {s : State} {e : Env} {x : Group} {pc : DWord} {take : Nat → Bool} {f : Nat → Option DWord}

theorem votedGroup_counts : GroupCounts (cfFlag e.s.lw.toNat e.c) x (branchGroup e true f (votedGroup e pc take x)) := by
  unfold votedGroup
  split <;> exact branchGroup_counts e true f _

theorem length_mapLanes (thr : List Thread) (i : Nat) (ls : List Nat) (g : Nat → Thread → Thread) :
    (mapLanes thr i ls g).length = thr.length := by
  induction thr generalizing i with
  | nil => rfl
  | cons h r ih => rw [mapLanes, List.length_cons, ih, List.length_cons]

theorem votedGroup_length : (votedGroup e pc take x).thr.length = x.thr.length := by
  unfold votedGroup
  split
  · exact length_mapLanes ..
  · rfl

/-- R72: only `%meet` of the `Active` threads differs, and only where the vote divides them. -/
theorem thread_votedGroup {l : Nat} (hl : l < x.thr.length) : thread (votedGroup e pc take x) l =
    if l ∈ e.act ∧ divides e take then { thread x l with meet := pc } else thread x l := by
  unfold votedGroup
  by_cases hdiv : divides e take
  · rw [if_pos hdiv, meetGroup, thread_mapLanes _ hl]
    simp only [hdiv, and_true]
  · rw [if_neg hdiv, if_neg fun h => hdiv h.2]

theorem branch_voted (hp : e.p = .group e.t e.gid) : branch e
    (if divides e take then modGroup s e.t e.gid (meetGroup e pc) else s) true f =
      modGroup s e.t e.gid fun x => branchGroup e true f (votedGroup e pc take x) := by
  rw [branch_group _ true f hp]
  unfold votedGroup
  split
  · exact modGroup_modGroup ..
  · rfl

/-- R71, R72: what BRV does to its group. -/
theorem GroupStands.vote (h : GroupStands s e x) {u : State}
    (hu : u = modGroup s e.t e.gid fun x => branchGroup e true f (votedGroup e pc take x)) :
    OnlyWrites s u e [] ∧ Moves u e (keepsOut e f) ∧ ∃ y, getGroup u e.t e.gid = some y ∧
      ∀ l ∈ e.lanes, (thread y l).meet = if l ∈ e.act ∧ divides e take then pc else (thread x l).meet := by
  subst hu
  have hy : getGroup (modGroup s e.t e.gid fun x => branchGroup e true f (votedGroup e pc take x)) e.t e.gid =
      some (branchGroup e true f (votedGroup e pc take x)) := by
    rw [getGroup_modGroup, h.group, Option.map_some]
  have hthread : ∀ l ∈ e.lanes, thread (branchGroup e true f (votedGroup e pc take x)) l =
      branchThread e true f l (if l ∈ e.act ∧ divides e take then { thread x l with meet := pc } else thread x l) := by
    intro l hl
    obtain ⟨hlt, -⟩ := h.front l hl
    rw [thread_branchGroup hl (by rwa [votedGroup_length]), thread_votedGroup hlt]
  refine ⟨.of_group h.party h.kind fun _ => votedGroup_counts, fun l hl => ?_, _, hy, fun l hl => ?_⟩
  · have hpc : (if l ∈ e.act ∧ divides e take then { thread x l with meet := pc } else thread x l).pc = e.pc := by
      split <;> exact (h.front l hl).2
    rw [h.party, pcAt_group hy, hthread l hl, branchThread_pc, hpc, keepsOut]
    by_cases hact : l ∈ e.act <;> simp [hact]
  · rw [hthread l hl, branchThread_meet]
    split <;> rfl

end

/-! ### The statement -/

/-- Settles O15: BR, BRC and BDQ are branches of the whole frontier (`Issues.branch_frame`), BRX one that keeps the lanes
outside `Active` (`GroupStands.branch`), BRV one after a vote (`GroupStands.vote`); LOOP branches once its counter is
written. -/
theorem branchesMoveTheirLanes : Obligations.BranchesMoveTheirLanes := by
  unfold Obligations.BranchesMoveTheirLanes
  refine ⟨⟨?br, ?brc, ?bdq⟩, ?brv, ?brx, ?loop⟩
  case br =>
    intro c t s e h ht
    exact ⟨_, exec_br h ht, h.branch_frame rfl _⟩
  case brc =>
    intro c a b cond t s e h ht
    exact ⟨_, exec_brc h ht, h.branch_frame rfl _⟩
  case bdq =>
    intro c n z t s e v h hv ht
    exact ⟨_, exec_bdq h hv ht, h.branch_frame rfl _⟩
  case brv =>
    intro c a t m s e x h ht hx
    obtain ⟨y, hy⟩ := h.groupStands_of_kindOk rfl (by rw [opOf_brv]; decide) (by rw [opOf_brv]; decide)
    obtain rfl : x = y := Option.some.inj (hx.symm.trans hy.group)
    obtain ⟨hframe, hmoves, z, hz, hmeet⟩ := hy.vote (branch_voted hy.party)
    refine ⟨_, z, exec_brv h ht, hframe, hmoves, hz, fun l hl => ?_⟩
    rw [hmeet l hl]
    exact ite_congr (propext (and_congr_right fun _ => divides_iff ..)) (fun _ => rfl) fun _ => rfl
  case brx =>
    intro c a s e h ht
    obtain ⟨x, hx⟩ := h.groupStands_of_kindOk rfl (by rw [opOf_brx]; decide) (by rw [opOf_brx]; decide)
    obtain ⟨hframe, hmoves⟩ := hx.branch (keep := true) (f := fun l => some (pcOf e a l))
    refine ⟨_, exec_brx h ht, hframe, fun l hl => (hmoves l hl).trans ?_⟩
    by_cases hact : l ∈ e.act <;> simp [keepsOut, hact]
  case loop =>
    intro c a t s e n h hact hn hv ht
    exact exec_loop h hact hn hv ht

end Sys2Proof.Machine
end

section
/-! O16: calls and returns. A group's is `groupCall` or `groupRet` where every check passes, a lead's a branch with a
change of its return stack. -/

namespace Sys2Proof.Machine

/-! ### A group's call and return -/

section
variable {e : Env} {w : Slide}

/-- R80, R348: no operation is to be waited for where none writes a block that leaves. -/
theorem spillWait_of_spills (h : spills e w) : spillWait e w = .ok () := by
  have hnone : (e.com.ops.find? fun o => o.dst.any fun d => w.spill.any fun b => inBlock e.tm.alloc b d.1) = none := by
    simpa [List.find?_eq_none, spills] using h
  rw [spillWait, hnone]

/-- R147: a refill meets no poison where no spilled register of its blocks is poisoned. -/
theorem refillPoison_of_clean {g : Group} (h : ∀ k ∈ g.spillPoison, k / 512 ∉ w.refill) : refillPoison g w = none := by
  have hnil : (g.spillPoison.filter fun k => w.refill.contains (k / 512)) = [] := by
    simpa [List.filter_eq_nil_iff] using h
  rw [refillPoison, hnil]
  rfl

/-- R78, R80, R392. -/
theorem groupCall_ok {n : Nat} (hact : e.act ≠ []) (tgt : Nat → DWord)
    (hw : slideWindow e true (fun l => (thread e.g l).wb + n) = .ok w) (hs : spills e w) :
    groupCall e n tgt = .ok (modGroup (attach e (counted e e.s)) e.t e.gid fun x =>
      slideGroup e.tm.alloc w { x with
        thr := mapLanes x.thr 0 e.lanes fun l h =>
          if e.act.contains l then afterCall e n (tgt l) h else fallThrough h }) := by
  rw [groupCall, if_neg (by simpa using hact), hw]
  dsimp only
  rw [spillWait_of_spills hs]
  rfl

theorem popFrame_eq_afterRet (h : Thread) : popFrame h = afterRet h := by
  unfold popFrame afterRet
  cases h.stack <;> rfl

/-- R70, R78, R458. -/
theorem groupRet_ok {f : Nat → Frame} (hact : e.act ≠ []) (htop : ∀ l ∈ e.act, (thread e.g l).stack.head? = some (f l))
    (hw : slideWindow e false (fun l => (thread e.g l).wb -
      (((thread e.g l).stack.head?).map frameSlide).getD 0) = .ok w)
    (hclean : ∀ k ∈ e.g.spillPoison, k / 512 ∉ w.refill) (ht : targetsOk e fun l => retPc (f l)) :
    groupRet e = .ok (modGroup (attach e (counted e e.s)) e.t e.gid fun x =>
      slideGroup e.tm.alloc w { x with
        thr := mapLanes x.thr 0 e.lanes fun l h =>
          if e.act.contains l then afterRet h else stayThread h }) := by
  have hframes : e.act.any (fun l => ((thread e.g l).stack.head?).isNone) = false :=
    List.any_eq_false.2 fun l hl => by simp [htop l hl]
  have htargets : targetsOk e fun l => (((thread e.g l).stack.head?).map retPc).getD 0 := by
    intro l hl
    simpa [htop l hl] using ht l hl
  rw [groupRet, if_neg (by simpa using hact)]
  dsimp only
  rw [hframes, if_neg Bool.false_ne_true, hw]
  dsimp only
  rw [refillPoison_of_clean hclean]
  dsimp only
  rw [checkTargets_of_targetsOk htargets]
  simp only [popFrame_eq_afterRet]

end

section
variable {c : Ctl} {a : Code} {k : BitVec 3} {t : Target} {s : State} {e : Env} {w : Slide}

/-- R68: the target that every `Active` lane takes is a target, where a lane is `Active`. -/
theorem targetCheck_of_targetOk (hact : e.act ≠ []) (ht : targetOk e t fun _ => true) :
    (if e.act.isEmpty then .ok () else targetCheck e (targetPc e.pc t) : Except Stop Unit) = .ok () := by
  obtain ⟨l, hl⟩ := List.exists_mem_of_ne_nil _ hact
  rw [if_neg (by simpa using hact), ht ⟨l, hl, rfl⟩]

theorem exec_call_group (h : Runs s (.call c k t) e) (hk : e.kind = .group) (hact : e.act ≠ [])
    (ht : targetOk e t fun _ => true)
    (hw : slideWindow e true (fun l => (thread e.g l).wb + (k.toNat + 1) * 8) = .ok w) (hs : spills e w) :
    Machine.exec (.call c k t) s = .next (modGroup (attach e (counted e e.s)) e.t e.gid fun x =>
      slideGroup e.tm.alloc w { x with
        thr := mapLanes x.thr 0 e.lanes fun l h =>
          if e.act.contains l then afterCall e ((k.toNat + 1) * 8) (targetPc e.pc t) h else fallThrough h }) := by
  change execCall c k t s = _
  refine perform_next h ?_
  dsimp only
  rw [targetCheck_of_targetOk hact ht]
  dsimp only
  rw [if_pos hk]
  exact groupCall_ok hact (fun _ => targetPc e.pc t) hw hs

theorem exec_callx (h : Runs s (.callx c a k) e) (hact : e.act ≠ []) (ht : targetsOk e (pcOf e a))
    (hw : slideWindow e true (fun l => (thread e.g l).wb + (k.toNat + 1) * 8) = .ok w) (hs : spills e w) :
    Machine.exec (.callx c a k) s = .next (modGroup (attach e (counted e e.s)) e.t e.gid fun x =>
      slideGroup e.tm.alloc w { x with
        thr := mapLanes x.thr 0 e.lanes fun l h =>
          if e.act.contains l then afterCall e ((k.toNat + 1) * 8) (pcOf e a l) h else fallThrough h }) := by
  change execCallx c a k s = _
  refine perform_next h ?_
  dsimp only
  rw [show checkTargets e (fun l => BitVec.ofNat 64 (val64 e a l)) = .ok () from checkTargets_of_targetsOk ht]
  exact groupCall_ok hact (pcOf e a) hw hs

theorem exec_ret_group {f : Nat → Frame} (h : Runs s (.ret c) e) (hk : e.kind = .group) (hact : e.act ≠ [])
    (htop : ∀ l ∈ e.act, (thread e.g l).stack.head? = some (f l))
    (hw : slideWindow e false (fun l => (thread e.g l).wb -
      (((thread e.g l).stack.head?).map frameSlide).getD 0) = .ok w)
    (hclean : ∀ k ∈ e.g.spillPoison, k / 512 ∉ w.refill) (ht : targetsOk e fun l => retPc (f l)) :
    Machine.exec (.ret c) s = .next (modGroup (attach e (counted e e.s)) e.t e.gid fun x =>
      slideGroup e.tm.alloc w { x with
        thr := mapLanes x.thr 0 e.lanes fun l h =>
          if e.act.contains l then afterRet h else stayThread h }) := by
  change execRet c s = _
  refine perform_next h ?_
  rw [if_pos hk]
  exact groupRet_ok hact htop hw hclean ht

end

/-! ### A lead's call and return -/

/-- R392, R458: a lead's branch with a change of its return stack. -/
def leadStacked (e : Env) (f : Nat → Option DWord) (stack above : List DWord → List DWord → List DWord) (x : Lead) :
    Lead :=
  { branchLead e f x with stack := stack x.stack x.above, above := above x.stack x.above }

section
variable {s : State} {e : Env} {f : Nat → Option DWord} {stack above : List DWord → List DWord → List DWord}

theorem branchLead_stacks (x : Lead) : (branchLead e f x).stack = x.stack ∧ (branchLead e f x).above = x.above := by
  unfold branchLead
  cases f 0 <;> exact ⟨rfl, rfl⟩

/-- A branch and then a change of the return stack are one update of the lead. -/
theorem stack_branch_lead {g : Lead → Lead} (hp : e.p = .lead e.t)
    (hg : ∀ y : Lead, g y = { y with stack := stack y.stack y.above, above := above y.stack y.above }) :
    modLead (branch e s false f) e.t g = modLead s e.t (leadStacked e f stack above) := by
  rw [branch_lead s false f hp, modLead_modLead]
  refine congrArg (modLead s e.t) (funext fun x => ?_)
  obtain ⟨hstack, habove⟩ := branchLead_stacks (e := e) (f := f) x
  rw [hg, leadStacked, hstack, habove]

/-- What a lead's call or return changes. -/
theorem LeadStands.stacked (h : LeadStands s e) :
    OnlyWrites s (modLead s e.t (leadStacked e f stack above)) e [] ∧
    Moves (modLead s e.t (leadStacked e f stack above)) e f ∧
    ∃ x, getTeam (modLead s e.t (leadStacked e f stack above)) e.t = some x ∧
      x.lead.stack = stack e.tm.lead.stack e.tm.lead.above ∧ x.lead.above = above e.tm.lead.stack e.tm.lead.above := by
  have hteam : getTeam (modLead s e.t (leadStacked e f stack above)) e.t =
      some { e.tm with lead := leadStacked e f stack above e.tm.lead } := by
    rw [getTeam_modLead, h.team, Option.map_some]
  refine ⟨.of_lead h.party h.kind fun x => branchLead_counts e f x, fun l hl => ?_, _, hteam, rfl, rfl⟩
  obtain rfl : l = 0 := by simpa [h.lanes] using hl
  rw [h.party, pcAt, hteam]
  exact (branchLead_pc ..).trans (by rw [h.front])

end

section
variable {c : Ctl} {k : BitVec 3} {t : Target} {s : State} {e : Env}

theorem exec_call_lead (h : Runs s (.call c k t) e) (hl : LeadStands e.s e) (hact : e.act ≠ [])
    (ht : targetOk e t fun _ => true) (hroom : e.tm.lead.stack.length < 8) :
    Machine.exec (.call c k t) s = .next (modLead e.s e.t (leadStacked e (fun _ => some (targetPc e.pc t))
      (fun st _ => nextPc e.pc :: st) fun _ ab => ab.drop 1)) := by
  change execCall c k t s = _
  refine perform_next h ?_
  dsimp only
  rw [targetCheck_of_targetOk hact ht]
  dsimp only
  rw [if_neg (by simp [hl.kind]), if_neg (by simpa using hact), if_neg (by omega)]
  exact congrArg Except.ok (stack_branch_lead hl.party fun _ => rfl)

theorem exec_ret_lead {pc : DWord} {r : List DWord} (h : Runs s (.ret c) e) (hl : LeadStands e.s e) (hact : e.act ≠ [])
    (hstack : e.tm.lead.stack = pc :: r) (ht : targetsOk e fun _ => pc) :
    Machine.exec (.ret c) s = .next (modLead e.s e.t (leadStacked e (fun _ => some pc)
      (fun _ _ => r) fun _ ab => pc :: ab)) := by
  change execRet c s = _
  refine perform_next h ?_
  rw [if_neg (by simp [hl.kind]), if_neg (by simpa using hact), hstack]
  dsimp only
  rw [checkTargets_of_targetsOk ht]
  exact congrArg Except.ok (stack_branch_lead hl.party fun _ => rfl)

end

/-! ### The statement -/

/-- Settles O16: a group's call and return pass every check (`groupCall_ok`, `groupRet_ok`); a lead's are one update of
its record (`LeadStands.stacked`). -/
theorem callsAndReturns : Obligations.CallsAndReturns := by
  unfold Obligations.CallsAndReturns
  refine ⟨⟨?call, ?callx, ?leadCall⟩, ?ret, ?leadRet⟩
  case call =>
    intro c k t s e w h hk hact ht hw hs
    exact exec_call_group h hk hact ht hw hs
  case callx =>
    intro c a k s e w h hact ht hw hs
    exact exec_callx h hact ht hw hs
  case leadCall =>
    intro c k t s e n h hp hact ht hroom
    have hl := h.leadStands rfl hp
    obtain ⟨hframe, hmoves, x, hx, hstack, habove⟩ := hl.stacked
    refine ⟨_, x, exec_call_lead h hl hact ht hroom, hframe, fun l hlane => ?_, hx, hstack, habove⟩
    obtain rfl : l = 0 := by simpa [hl.lanes] using hlane
    rw [hmoves 0 hlane, taken, if_pos (by simp [hl.active hact])]
  case ret =>
    intro c s e w f h hk hact htop hw hclean ht
    exact exec_ret_group h hk hact htop hw hclean ht
  case leadRet =>
    intro c s e n pc r h hp hact hstack ht
    have hl := h.leadStands rfl hp
    obtain ⟨hframe, hmoves, x, hx, hrest, habove⟩ := hl.stacked
    exact ⟨_, x, exec_ret_lead h hl hact hstack ht, hframe, hmoves, hx, hrest, habove⟩

end Sys2Proof.Machine
end

section
/-! O29: what INSTRUCTION_COMPLETE makes of an operation of each kind. -/

namespace Sys2Proof.Machine

/-! ### Extension of a loaded value -/

/-- The model and the statements cut an integer to w bits alike. -/
theorem wrap_eq_lowBits (i : Int) (w : Nat) : wrap i w = lowBits w i := by
  unfold wrap lowBits
  push_cast
  rfl

/-- R422: the model and the statements extend a loaded value alike. -/
theorem extendTo_eq_extended (w size : Nat) (sx : Bool) (v : Nat) : extendTo w size sx v = extended w size sx v := by
  have hbits : 0 < 8 * 2 ^ size := Nat.mul_pos (by decide) (Nat.two_pow_pos size)
  simp [extendTo, extended, sext_eq_signed _ _ hbits, wrap_eq_lowBits]

/-- R149: the registers that a finished access writes take their lanes' values. -/
theorem accessRegs_eq_loadedWords {k : Kind} {o : Op} {f : Nat → Nat} (h : ∀ v, laneValue k o.instr v = f v) :
    accessRegs k o = loadedWords k o f := by
  obtain rfl : laneValue k o.instr = f := funext h
  rfl

/-! ### The kinds of operation -/

section
variable {p : Party} {op : Nat} {s : State} {c : Common} {o : Op} {t : Team}

theorem exec_complete_fixed (hc : getCom s p = some c) (ho : findOp s p op = some o) (hk : o.kind = .fixed) :
    Machine.exec (.instructionComplete p op) s = .next (modCom s p fun c => endOp c o) := by
  change execInstructionComplete p op s = _
  simp only [execInstructionComplete, hc, ho, hk]

theorem exec_complete_access (hc : getCom s p = some c) (ho : findOp s p op = some o) (hk : o.kind = .access) :
    Machine.exec (.instructionComplete p op) s = .next (finishAccess s p c o) := by
  change execInstructionComplete p op s = _
  simp only [execInstructionComplete, hc, ho, hk]

theorem exec_complete_fence (hc : getCom s p = some c) (ho : findOp s p op = some o) (hk : o.kind = .fence) :
    Machine.exec (.instructionComplete p op) s = .next (finishFence s p c o) := by
  change execInstructionComplete p op s = _
  simp only [execInstructionComplete, hc, ho, hk]

/-- R149: an access waits for its last lane. -/
theorem finishAccess_of_due (h : ∃ l ∈ o.lanes, l.done = none) : finishAccess s p c o = s :=
  if_pos (by simpa using h)

/-- R149, R153: an access whose lanes have all come back sound. -/
theorem finishAccess_of_done (hsound : o.poisoned = false) (hlanes : ∀ l ∈ o.lanes, l.done.isSome = true ∧ l.bad = false)
    (ht : getTeam s (teamOf s p) = some t) {f : Nat → Nat} (hvalue : ∀ v, laneValue (kindOf p) o.instr v = f v) :
    finishAccess s p c o = modCom (putRegs
      (if acquireOf t o.instr = true ∧ o.active ≠ [] then phaseBoundary s (coreOf s p) else s) p
      (loadedWords (kindOf p) o f)) p fun c => endOp c o := by
  have hdone : (o.lanes.any fun l => l.done.isNone) = false :=
    List.any_eq_false.2 fun l hl => by simpa using Option.isSome_iff_ne_none.1 (hlanes l hl).1
  have hbad : (o.lanes.any fun l => l.bad) = false := List.any_eq_false.2 fun l hl => by simp [(hlanes l hl).2]
  simp [finishAccess, hdone, hsound, hbad, ht, accessRegs_eq_loadedWords hvalue]

/-- R156: a FENCE that stays on its core, and asks for no fence of the slices, ends with the accesses it waits for. -/
theorem finishFence_of_local {k : Ctl} {scope order : BitVec 3} (hi : o.instr = .fence k scope order)
    (ht : getTeam s (teamOf s p) = some t) (hwaits : fenceWaits c o = false) (hscope : scopeLeaves t scope = false)
    (horder : order ≠ 4) : finishFence s p c o = modCom s p fun c => endOp c o := by
  have hno : ¬order = 4#3 := horder
  simp [finishFence, hi, ht, hwaits, hscope, hno]

end

/-! ### The statement -/

/-- Settles O29, by the operation's kind: an access by `finishAccess_of_done` or `finishAccess_of_due`, a FENCE by
`finishFence_of_local`. -/
theorem completionsWriteRegisters : Obligations.CompletionsWriteRegisters := by
  unfold Obligations.CompletionsWriteRegisters
  refine ⟨?done, ?fixed, ?due, ?fence⟩
  case done =>
    intro p op s c o t hc ho hk hsound hlanes ht
    refine (exec_complete_access hc ho hk).trans (congrArg Host.Outcome.next ?_)
    refine finishAccess_of_done hsound hlanes ht fun v => ?_
    cases o.instr with
    | ld c d a m sx => exact extendTo_eq_extended ..
    | _ => rfl
  case fixed =>
    intro p op s c o hc ho hk
    exact exec_complete_fixed hc ho hk
  case due =>
    intro p op s c o hc ho hk hdue
    rw [exec_complete_access hc ho hk, finishAccess_of_due hdue]
  case fence =>
    intro p op s c o t k scope order hc ho hk hi ht hwaits hscope horder
    rw [exec_complete_fence hc ho hk, finishFence_of_local hi ht hwaits hscope horder]

end Sys2Proof.Machine
end

section
/-! The layer of O31: numbers and their bytes, the places of a window, the checks of its accesses, and what a store leaves in
it. -/

namespace Sys2Proof.Machine

/-! ### Numbers and their bytes -/

theorem length_bytesOf (n v : Nat) : (bytesOf n v).length = n := by
  induction n generalizing v with
  | zero => rfl
  | succ n ih => rw [bytesOf, List.length_cons, ih]

theorem getD_bytesOf {n i : Nat} (v : Nat) (h : i < n) : (bytesOf n v).getD i 0 = BitVec.ofNat 8 (v / 2 ^ (8 * i)) := by
  induction n generalizing v i with
  | zero => omega
  | succ n ih =>
    cases i with
    | zero => simp [bytesOf]
    | succ i =>
      have hdiv : v / 256 / 2 ^ (8 * i) = v / 2 ^ (8 * (i + 1)) := by
        rw [Nat.div_div_eq_div_mul, Nat.mul_succ, Nat.pow_add, Nat.mul_comm]
      rw [bytesOf, List.getD_cons_succ, ih _ (by omega), hdiv]

theorem numberOf_congr {f g : Nat → Byte} {n : Nat} (h : ∀ i, i < n → f i = g i) : numberOf f n = numberOf g n := by
  induction n with
  | zero => rfl
  | succ n ih => rw [numberOf, numberOf, ih fun i hi => h i (by omega), h n (by omega)]

/-- R3: a number by its lowest byte. -/
theorem numberOf_succ_low (f : Nat → Byte) (n : Nat) :
    numberOf f (n + 1) = (f 0).toNat + 256 * numberOf (fun i => f (i + 1)) n := by
  induction n with
  | zero => simp [numberOf]
  | succ n ih =>
    have hpow : 2 ^ (8 * (n + 1)) = 256 * 2 ^ (8 * n) := by rw [Nat.mul_succ, Nat.pow_add, Nat.mul_comm]
    rw [numberOf, ih, numberOf, hpow, Nat.mul_left_comm _ 256, Nat.mul_add, Nat.add_assoc]

/-- R3: the model and the statements read bytes as a number alike. -/
theorem ofBytes_map_upto (f : Nat → Byte) (lo n : Nat) :
    ofBytes ((upto lo n).map f) = numberOf (fun i => f (lo + i)) n := by
  induction n generalizing lo with
  | zero => rfl
  | succ n ih =>
    rw [upto, List.map_cons, ofBytes, ih, numberOf_succ_low]
    simp only [Nat.add_zero, Nat.add_assoc, Nat.add_comm 1]

/-- R3: the number of a number's bytes. -/
theorem numberOf_bytes (v n : Nat) : numberOf (fun i => BitVec.ofNat 8 (v / 2 ^ (8 * i))) n = v % 2 ^ (8 * n) := by
  induction n with
  | zero => simp [numberOf, Nat.mod_one]
  | succ n ih =>
    rw [numberOf, ih, BitVec.toNat_ofNat, Nat.mul_succ, Nat.pow_add, Nat.mod_mul,
      Nat.mul_comm (2 ^ (8 * n))]

/-! ### Places -/

/-- R93: bit 24 of an address. -/
theorem tb_bit24 (a : Nat) : tb a 24 = decide (2 ^ 24 ≤ a % 2 ^ 25) := by
  unfold tb
  rw [Bool.eq_iff_iff, beq_iff_eq, decide_eq_true_eq]
  omega

/-- R93: the model and the statements name the half and the offset of a window alike. -/
theorem spPlace_eq (t : Team) (core a : Nat) : spPlace t core a = (spHalf t core a, a % 2 ^ 24) := by
  unfold spPlace spHalf halfOf
  rw [tb_bit24]
  by_cases hcore : core = t.core <;> cases decide (2 ^ 24 ≤ a % 2 ^ 25) <;> simp [hcore]

theorem halfOf_le_one (t : Team) (core : Nat) : halfOf t core ≤ 1 := by
  unfold halfOf
  split <;> omega

theorem spHalf_le_one (t : Team) (core a : Nat) : spHalf t core a ≤ 1 := by
  have hle := halfOf_le_one t core
  unfold spHalf
  split <;> omega

/-- R93: the half that an address names from a core tells its bit 24. -/
theorem spHalf_inj {t : Team} {core a b : Nat} (h : spHalf t core a = spHalf t core b) : tb a 24 = tb b 24 := by
  have hle := halfOf_le_one t core
  unfold spHalf at h
  cases ha : tb a 24 <;> cases hb : tb b 24
  case false.false | true.true => rfl
  all_goals
    simp only [ha, hb, Bool.false_eq_true, if_true, if_false] at h
    omega

theorem add_mod_of_aligned {a m i : Nat} (ha : a % m = 0) (hi : i < m) : (a + i) % m = i := by
  rw [← Nat.mod_add_mod, ha, Nat.zero_add, Nat.mod_eq_of_lt hi]

/-- R93: distinct addresses that are multiples of a power of 2 name bytes that do not meet. -/
theorem spPlace_disjoint {t : Team} {core a b size : Nat} (hsize : size < 8) (ha : a < 2 ^ 25) (hb : b < 2 ^ 25)
    (hma : a % 2 ^ size = 0) (hmb : b % 2 ^ size = 0) (hne : a ≠ b) {i j : Nat} (hi : i < 2 ^ size) (hj : j < 2 ^ size) :
    ((spPlace t core a).1, (spPlace t core a).2 + i) ≠ ((spPlace t core b).1, (spPlace t core b).2 + j) := by
  rw [spPlace_eq, spPlace_eq]
  intro h
  obtain ⟨hhalf, hoff⟩ := Prod.mk.inj h
  have hbit : (2 ^ 24 ≤ a) ↔ (2 ^ 24 ≤ b) := by
    have hsame : tb a 24 = tb b 24 := spHalf_inj hhalf
    rwa [tb_bit24, tb_bit24, Nat.mod_eq_of_lt ha, Nat.mod_eq_of_lt hb, decide_eq_decide] at hsame
  have hoff : a % 2 ^ 24 + i = b % 2 ^ 24 + j := hoff
  have hwindow : 2 ^ size ∣ 2 ^ 24 := Nat.pow_dvd_pow 2 (by omega)
  have hij : i = j := by
    rw [← add_mod_of_aligned (i := i) (m := 2 ^ size) ((Nat.mod_mod_of_dvd a hwindow).trans hma) hi, hoff,
      add_mod_of_aligned ((Nat.mod_mod_of_dvd b hwindow).trans hmb) hj]
  omega

theorem spAddr_eq_spAddrOf (e : Env) (a b : Code) (off : BitVec 24) (idx : Bool) (sh : BitVec 3) :
    spAddr e a b off idx sh = spAddrOf e a b off idx sh := by
  funext l
  have hoff : sext off.toNat 24 = off.toInt := by
    rw [sext_eq_signed _ _ (by decide), signed, BitVec.toInt_eq_toNat_cond, Nat.mod_eq_of_lt off.isLt]
    by_cases hlow : 2 * off.toNat < 2 ^ 24
    · rw [if_pos hlow, if_pos (by omega)]
    · rw [if_neg hlow, if_neg (by omega)]
      rfl
  unfold spAddr spAddrOf
  rw [wrap_eq_lowBits, hoff]
  simp [sext_eq_signed]

/-! ### Checks -/

theorem mapE_eq_map {ε α β : Type} {l : List α} {g : α → Except ε β} {f : α → β} (h : ∀ a ∈ l, g a = .ok (f a)) :
    mapE l g = .ok (l.map f) := by
  induction l with
  | nil => rfl
  | cons a l ih =>
    rw [mapE, h a (List.mem_cons_self ..)]
    dsimp only
    rw [ih fun x hx => h x (List.mem_cons_of_mem _ hx)]
    rfl

section
variable {e : Env} {a n : Nat} {addr : Nat → Nat}

/-- R93: an address in the window passes its checks. -/
theorem spCheck_of_open (h : spOpen e a n) : spCheck e.tm a n = none := by
  obtain ⟨hlt, hroom, hpair, halign⟩ := h
  have hhigh : bits a 25 7 = 0 := by
    unfold bits
    omega
  have hbit : tb a 24 = true → e.tm.pair = true := by
    rw [tb_bit24, decide_eq_true_eq, Nat.mod_eq_of_lt hlt]
    exact hpair
  unfold spCheck
  rw [if_neg ?inside, if_neg (not_not_intro halign)]
  rintro (hbad | hbad | ⟨hbad, hno⟩)
  · exact hbad hhigh
  · omega
  · simp [hbit hbad] at hno

theorem spLanes_of_open (h : ∀ l ∈ e.act, spOpen e (addr l) n) :
    spLanes e n addr = .ok (e.act.map fun l => (l, addr l)) :=
  mapE_eq_map fun l hl => by rw [spCheck_of_open (h l hl)]

/-- The 8-byte words that n bytes touch are words of single bytes of them. -/
theorem exists_byte_of_mem_spWords {off n w : Nat} (hn : 0 < n) (h : w ∈ spWords off n) :
    ∃ i, i < n ∧ (off + i) / 8 = w := by
  rw [spWords, upto_eq_range', List.mem_range'_1] at h
  obtain ⟨hlo, hhi⟩ := h
  exact ⟨max off (8 * w) - off, by omega, by omega⟩

/-- R147: clean bytes hold no poisoned word. -/
theorem spBad_of_clean {t : Team} {core : Nat} (hn : 0 < n) (h : spClean t core a n) :
    spBad t (spHalf t core a) (a % 2 ^ 24) n = false := by
  refine List.any_eq_false.2 fun w hw => ?_
  obtain ⟨i, hi, rfl⟩ := exists_byte_of_mem_spWords hn hw
  have hclean := h i hi
  rw [spPlace_eq] at hclean
  simpa [winPoison] using hclean

theorem spPoison_of_clean (hn : 0 < n) (h : ∀ l ∈ e.act, spClean e.tm e.core (addr l) n) :
    spPoison e n (e.act.map fun l => (l, addr l)) = .ok () := by
  have hnone : (e.act.map fun l => (l, addr l)).find?
      (fun x => spBad e.tm (spHalf e.tm e.core x.2) (x.2 % 2 ^ 24) n) = none := by
    simpa using fun l hl => spBad_of_clean hn (h l hl)
  rw [spPoison, hnone]

end

/-! ### Reading a window -/

/-- The pairs of lanes with their addresses, searched by lane. -/
theorem find?_lane_map {β : Type} (ls : List Nat) (f : Nat → β) (l : Nat) :
    (ls.map fun j => (j, f j)).find? (fun x => x.1 == l) = if l ∈ ls then some (l, f l) else none := by
  induction ls with
  | nil => rfl
  | cons j ls ih =>
    by_cases hj : j = l
    · simp [hj]
    · rw [List.map_cons, List.find?_cons_of_neg (by simpa using hj), ih]
      simp [Ne.symm hj]

/-- R424: the bytes that a load takes are the number of the statements. -/
theorem ofBytes_spBytes (t : Team) (core a n : Nat) :
    ofBytes (spBytes t (spHalf t core a) (a % 2 ^ 24) n) = spNumber t core a n := by
  unfold spBytes
  rw [ofBytes_map_upto, spNumber, spPlace_eq]
  rfl

/-! ### Writing a window -/

/-- Bytes of a window are written as bytes of memory are. -/
theorem winPut_eq_cellsPut (w : Tab Byte) (off : Nat) (l : List Byte) : winPut w off l = cellsPut w off l := by
  induction l generalizing w off with
  | nil => rfl
  | cons b r ih => exact ih ..

/-- A team with the windows, and their poison, of `w`. -/
def withWindows (w x : Team) : Team := { x with
  win0 := w.win0, win1 := w.win1, wpo0 := w.wpo0, wpo1 := w.wpo1 }

theorem withWindows_setGroup (w x : Team) (n : Nat) (g : Group) :
    withWindows w (setGroup x n g) = setGroup (withWindows w x) n g := rfl

/-- A write of a window changes windows and their poison only. -/
@[simp] theorem withWindows_spWrite (w t : Team) (half off : Nat) (l : List Byte) (bad : Bool) :
    withWindows w (spWrite t half off l bad) = withWindows w t := by
  unfold spWrite
  split
  · rfl
  split <;> rfl

theorem winGet_spWrite (t : Team) {half m : Nat} (off : Nat) (l : List Byte) (bad : Bool) (hhalf : half ≤ 1) (hm : m ≤ 1) :
    winGet (spWrite t half off l bad) m = if m = half then winPut (winGet t half) off l else winGet t m := by
  unfold spWrite
  split
  next hnil =>
    obtain rfl : l = [] := by simpa using hnil
    split
    next heq => rw [heq, winPut]
    · rfl
  next =>
    obtain rfl | rfl : half = 0 ∨ half = 1 := by omega
    all_goals obtain rfl | rfl : m = 0 ∨ m = 1 := by omega
    all_goals rfl

theorem winByte_spWrite (t : Team) {half m : Nat} (off : Nat) (l : List Byte) (bad : Bool) (hhalf : half ≤ 1) (hm : m ≤ 1)
    (k : Nat) : winByte (spWrite t half off l bad) m k =
      if m = half then cellGet (cellsPut (winGet t half) off l) k else winByte t m k := by
  change cellGet (winGet _ m) k = _
  rw [winGet_spWrite _ _ _ _ hhalf hm, winPut_eq_cellsPut]
  split <;> rfl

/-- R471: a team after a lane's store of n bytes of `v` at a scratchpad address. -/
def spStore (core n a v : Nat) (t : Team) : Team := spWrite t (spHalf t core a) (a % 2 ^ 24) (bytesOf n v) false

section
variable {t : Team} {core n a v : Nat}

@[simp] theorem withWindows_spStore (w : Team) : withWindows w (spStore core n a v t) = withWindows w t :=
  withWindows_spWrite ..

@[simp] theorem spStore_core : (spStore core n a v t).core = t.core := by
  change (withWindows t (spStore core n a v t)).core = _
  rw [withWindows_spStore]
  rfl

/-- Places are those of the team before a store. -/
@[simp] theorem spPlace_spStore (b : Nat) : spPlace (spStore core n a v t) core b = spPlace t core b := by
  unfold spPlace
  rw [spStore_core]

/-- R471: a store leaves every byte that it does not cover. -/
theorem winByte_spStore_other {half k : Nat} (hhalf : half ≤ 1)
    (h : ∀ i, i < n → (half, k) ≠ ((spPlace t core a).1, (spPlace t core a).2 + i)) :
    winByte (spStore core n a v t) half k = winByte t half k := by
  rw [spPlace_eq] at h
  rw [spStore, winByte_spWrite _ _ _ _ (spHalf_le_one ..) hhalf]
  split
  next heq =>
    subst heq
    refine cellGet_cellsPut_other _ _ _ _ ?_
    rw [length_bytesOf]
    rcases Nat.lt_or_ge k (a % 2 ^ 24) with hlo | hlo
    · exact .inl hlo
    · refine .inr (Nat.le_of_not_lt fun hhi => ?_)
      exact h (k - a % 2 ^ 24) (by omega) (Prod.ext rfl (Nat.add_sub_cancel' hlo).symm)
  · rfl

/-- R471: a store leaves its bytes. -/
theorem spNumber_spStore_same : spNumber (spStore core n a v t) core a n = v % 2 ^ (8 * n) := by
  rw [spNumber, spPlace_spStore, ← numberOf_bytes]
  refine numberOf_congr fun i hi => ?_
  rw [spPlace_eq, spStore, winByte_spWrite _ _ _ _ (spHalf_le_one ..) (spHalf_le_one ..), if_pos rfl,
    cellGet_cellsPut_same _ _ _ _ (by rwa [length_bytesOf]), getD_bytesOf _ hi]

/-- R471: a store leaves the number at another address of its size. -/
theorem spNumber_spStore_other {size b : Nat} (hsize : size < 8) (ha : a < 2 ^ 25) (hb : b < 2 ^ 25)
    (hma : a % 2 ^ size = 0) (hmb : b % 2 ^ size = 0) (hne : a ≠ b) :
    spNumber (spStore core (2 ^ size) a v t) core b (2 ^ size) = spNumber t core b (2 ^ size) := by
  rw [spNumber, spPlace_spStore, spNumber]
  refine numberOf_congr fun i hi => winByte_spStore_other ?_ fun j hj =>
    spPlace_disjoint hsize hb ha hmb hma hne.symm hi hj
  rw [spPlace_eq]
  exact spHalf_le_one ..

end

/-! ### The stores of the lanes -/

/-- R471: a team after the stores of some lanes, in their order. -/
def spStores (core n : Nat) (addr data : Nat → Nat) (ls : List Nat) (t : Team) : Team :=
  ls.foldl (fun t l => spStore core n (addr l) (data l) t) t

section
variable {core n : Nat} {addr data : Nat → Nat} {ls : List Nat} {t : Team}

theorem spStores_cons (l : Nat) :
    spStores core n addr data (l :: ls) t = spStores core n addr data ls (spStore core n (addr l) (data l) t) := rfl

/-- R471: of a team the stores change windows and their poison only. -/
@[simp] theorem withWindows_spStores (w : Team) : withWindows w (spStores core n addr data ls t) = withWindows w t := by
  induction ls generalizing t with
  | nil => rfl
  | cons l ls ih => rw [spStores_cons, ih, withWindows_spStore]

/-- R471: the stores leave every byte that no lane covers. -/
theorem winByte_spStores_other {half k : Nat} (hhalf : half ≤ 1)
    (h : ∀ l ∈ ls, ∀ i, i < n → (half, k) ≠ ((spPlace t core (addr l)).1, (spPlace t core (addr l)).2 + i)) :
    winByte (spStores core n addr data ls t) half k = winByte t half k := by
  induction ls generalizing t with
  | nil => rfl
  | cons l ls ih =>
    rw [spStores_cons, ih fun j hj => ?_, winByte_spStore_other hhalf (h l (List.mem_cons_self ..))]
    rw [spPlace_spStore]
    exact h j (List.mem_cons_of_mem _ hj)

section
variable {size : Nat} (hsize : size < 8) (hopen : ∀ l ∈ ls, addr l < 2 ^ 25 ∧ addr l % 2 ^ size = 0)
include hsize hopen

/-- R471: the stores leave the number at an address that no lane has. -/
theorem spNumber_spStores_other {a : Nat} (ha : a < 2 ^ 25) (hma : a % 2 ^ size = 0) (hne : ∀ l ∈ ls, addr l ≠ a) :
    spNumber (spStores core (2 ^ size) addr data ls t) core a (2 ^ size) = spNumber t core a (2 ^ size) := by
  induction ls generalizing t with
  | nil => rfl
  | cons l ls ih =>
    obtain ⟨hlt, halign⟩ := hopen l (List.mem_cons_self ..)
    rw [spStores_cons, ih (fun j hj => hopen j (List.mem_cons_of_mem _ hj)) fun j hj => hne j (List.mem_cons_of_mem _ hj),
      spNumber_spStore_other hsize hlt ha halign hma (hne l (List.mem_cons_self ..))]

/-- R471: a lane's bytes stand at its address when no other lane has it. -/
theorem spNumber_spStores_same {l : Nat} (hl : l ∈ ls) (hne : ∀ j ∈ ls, j ≠ l → addr j ≠ addr l) :
    spNumber (spStores core (2 ^ size) addr data ls t) core (addr l) (2 ^ size) = data l % 2 ^ (8 * 2 ^ size) := by
  induction ls generalizing t with
  | nil => cases hl
  | cons j ls ih =>
    have hrest : ∀ k ∈ ls, addr k < 2 ^ 25 ∧ addr k % 2 ^ size = 0 := fun k hk => hopen k (List.mem_cons_of_mem _ hk)
    rw [spStores_cons]
    by_cases hmem : l ∈ ls
    · exact ih hrest hmem fun k hk => hne k (List.mem_cons_of_mem _ hk)
    · obtain rfl : l = j := (List.mem_cons.1 hl).resolve_right hmem
      obtain ⟨hlt, halign⟩ := hopen l (List.mem_cons_self ..)
      have hother : ∀ k ∈ ls, addr k ≠ addr l := fun k hk =>
        hne k (List.mem_cons_of_mem _ hk) fun h => hmem (h ▸ hk)
      rw [spNumber_spStores_other hsize hrest hlt halign hother, spNumber_spStore_same]

end

end

end Sys2Proof.Machine
end

section
/-! O31: LDS and STS. Both come to the lanes' numbers at their places in the windows; of its team, STS changes windows, then
goes on as any other instruction of a group. -/

namespace Sys2Proof.Machine

/-! ### LDS -/

theorem extendTo_zero (w size : Nat) (sx : Bool) : extendTo w size sx 0 = 0 := by
  simp [extendTo, sext, wrap]

theorem exec_lds {c : Ctl} {d : Code} {m : Addr} {size : BitVec 3} {sx : Bool} {s : State} {e : Env}
    (h : Runs s (.lds c d m size sx) e) (hwait : accessWait e false [] = .ok ())
    (hopen : ∀ l ∈ e.act, spOpen e (spAddrOf e m.a m.b m.off m.idx m.sh l) (2 ^ size.toNat) ∧
      spClean e.tm e.core (spAddrOf e m.a m.b m.off m.idx m.sh l) (2 ^ size.toNat)) :
    Machine.exec (.lds c d m size sx) s = .next (done e (writeRun e e.s d (dataRun e.kind size.toNat) fun l =>
      if l ∈ e.act then extended e.w size.toNat sx
        (spNumber e.tm e.core (spAddrOf e m.a m.b m.off m.idx m.sh l) (2 ^ size.toNat))
      else 0)) := by
  change execLds c d m size sx s = _
  refine perform_next h ?_
  rw [spAddr_eq_spAddrOf]
  dsimp only
  rw [spLanes_of_open fun l hl => (hopen l hl).1, hwait]
  dsimp only
  rw [spPoison_of_clean (Nat.two_pow_pos _) fun l hl => (hopen l hl).2]
  refine congrArg (fun f => Except.ok (done e (writeRun e e.s d (dataRun e.kind size.toNat) f))) (funext fun l => ?_)
  rw [find?_lane_map]
  by_cases hl : l ∈ e.act
  · rw [if_pos hl, if_pos hl, ← extendTo_eq_extended, ← ofBytes_spBytes]
  · rw [if_neg hl, if_neg hl, extendTo_zero]

/-! ### Going on -/

/-- R67: to go on is to branch to the next PC. -/
theorem done_eq_branch (e : Env) (s : State) : done e s = branch e s false fun _ => none := by
  unfold done fall branch moveTo
  cases e.p <;> rfl

/-- R67: what an instruction of a group changes by going on. -/
theorem GroupStands.done {s : State} {e : Env} {x : Group} (h : GroupStands s e x) :
    OnlyWrites s (done e s) e [] ∧ Moves (done e s) e fun _ => none := by
  rw [done_eq_branch]
  exact h.branch

section
variable {s : State} {e : Env} {x : Group} {y : Team} {f : Team → Team}

/-- A change of its team's windows leaves the group. -/
theorem GroupStands.of_windows (h : GroupStands s e x) (ht : getTeam s e.t = some y) (hf : withWindows y (f y) = y) :
    GroupStands (modTeam s e.t f) e x := by
  obtain ⟨hp, hk, hg, hfront⟩ := h
  obtain ⟨z, hz, hx⟩ := getGroup_eq_some.1 hg
  obtain rfl : y = z := Option.some.inj (ht.symm.trans hz)
  have hgroups : (f y).groups = y.groups := by
    change (withWindows y (f y)).groups = _
    rw [hf]
  exact ⟨hp, hk, getGroup_eq_some.2 ⟨f y, getTeam_modTeam_same _ _ _ _ ht, by rwa [hgroups]⟩, hfront⟩

/-- R67: a group that goes on after a change of its team's windows: with the windows put back, the state is that of a group
that only goes on. -/
theorem GroupStands.done_windows (h : GroupStands s e x) (ht : getTeam s e.t = some y) (hf : withWindows y (f y) = y) :
    ∃ g, getTeam (Machine.done e (modTeam s e.t f)) e.t = some (setGroup (f y) e.gid g) ∧
      setTeam (Machine.done e (modTeam s e.t f)) e.t (withWindows y (setGroup (f y) e.gid g)) = Machine.done e s := by
  have hwritten : getTeam (modTeam s e.t f) e.t = some (f y) := getTeam_modTeam_same _ _ _ _ ht
  have hmod : modTeam s e.t f = setTeam s e.t (f y) := by rw [modTeam, ht]
  have hgroup : ∀ u z, GroupStands u e x → getTeam u e.t = some z →
      Machine.done e u = setTeam u e.t (setGroup z e.gid (branchGroup e false (fun _ => none) x)) := by
    intro u z hu hz
    obtain ⟨z', hz', hx⟩ := getGroup_eq_some.1 hu.group
    obtain rfl : z = z' := Option.some.inj (hz.symm.trans hz')
    rw [done_eq_branch, branch_group _ _ _ hu.party, modGroup_eq hz hx]
  refine ⟨branchGroup e false (fun _ => none) x, ?_, ?_⟩
  · rw [hgroup _ _ (h.of_windows ht hf) hwritten, getTeam_setTeam]
  · rw [hgroup _ _ (h.of_windows ht hf) hwritten, hgroup _ _ h ht, setTeam_setTeam, hmod, setTeam_setTeam,
      withWindows_setGroup, hf]

end

/-! ### STS -/

theorem encM_div (op : Nat) (c : Ctl) (d a b : Code) (off : BitVec 24) (low : Nat) (hm : low < 2 ^ 29) :
    encM op c d a b off low / 2 ^ 86 = op := by
  simp only [encM, Nat.add_assoc]
  exact encHead_add_div _ _ _ _ (by omega) (encDA_add_lt _ _ _ (by omega))

theorem opOf_sts (c : Ctl) (a b : Code) (off : BitVec 24) (size : BitVec 3) : opOf (.sts c a b off size) = 0x183 :=
  opOf_encode rfl (encM_div _ _ _ _ _ _ _ (by omega))

/-- A run of data registers is not the DQ. -/
theorem goodCode_data_not_dq {k : Kind} {cls alloc n : Nat} {b : Code} (h : goodCode k cls alloc ⟨b, .data n⟩ = true) :
    isDq b = false := by
  have hplain : plainCode k alloc ⟨b, .data n⟩ = true := by simpa [goodCode, Role.queued] using h
  exact (plainCode_spec cls 0 hplain).2.2.2

section
variable {c : Ctl} {a b : Code} {off : BitVec 24} {size : BitVec 3} {s : State} {e : Env}

/-- STS is a group's alone. -/
theorem sts_groupStands (h : Runs s (.sts c a b off size) e) : ∃ x, GroupStands e.s e x :=
  h.groupStands_of_kindOk rfl (by rw [opOf_sts]; decide) (by rw [opOf_sts]; decide)

/-- STS takes nothing out of the state before it writes: its team stands but for its group's frontier. -/
theorem sts_team (h : Runs s (.sts c a b off size) e) : getTeam e.s e.t = some (setGroup e.tm e.gid e.g) := by
  obtain ⟨-, -, hcodes⟩ := h.checked
  have ha := goodCode_reg_not_dq (hcodes ⟨a, .reg 1⟩ (by simp [rulesOf]))
  have hb := goodCode_data_not_dq (hcodes ⟨b, .data (dataRun e.kind size.toNat)⟩ (by simp [rulesOf]))
  have henv := h.env_of_takes_nothing rfl (by simp [usesDq, rulesOf, ha, hb])
  obtain ⟨x, hx⟩ := sts_groupStands h
  rw [hx.party] at henv
  obtain ⟨-, hs, -⟩ := envOf_group_spec henv
  rw [hs]
  exact getTeam_setTeam ..

theorem exec_sts (h : Runs s (.sts c a b off size) e) (hdata : dataPoison e b (dataRun e.kind size.toNat) = .ok ())
    (hwait : accessWait e true [] = .ok ())
    (hopen : ∀ l ∈ e.act, spOpen e (spAddrOf e a 0 off false 0 l) (2 ^ size.toNat)) :
    Machine.exec (.sts c a b off size) s = .next (done e (modTeam e.s e.t (spStores e.core (2 ^ size.toNat)
      (spAddrOf e a 0 off false 0) (runVal e b (dataRun e.kind size.toNat)) e.act))) := by
  change execSts c a b off size s = _
  refine perform_next h ?_
  rw [spAddr_eq_spAddrOf]
  dsimp only
  rw [spLanes_of_open hopen, hdata, hwait]
  simp only [List.foldl_map]
  rfl

end

/-! ### The statement -/

/-- Settles O31: a lane's number at its place is what LDS loads (`exec_lds`) and what STS leaves (`spNumber_spStores_same`);
but for the windows, STS is an instruction that only goes on (`GroupStands.done_windows`). -/
theorem scratchpadLoadsAndStores : Obligations.ScratchpadLoadsAndStores := by
  unfold Obligations.ScratchpadLoadsAndStores
  refine ⟨?lds, ?sts⟩
  case lds =>
    intro c d m size sx s e h hwait hopen
    exact exec_lds h hwait hopen
  case sts =>
    intro c a b off size s e h hdata hwait hopen
    obtain ⟨x, hx⟩ := sts_groupStands h
    have hteam := sts_team h
    have hwindows : withWindows (setGroup e.tm e.gid e.g) (spStores e.core (2 ^ size.toNat) (spAddrOf e a 0 off false 0)
        (runVal e b (dataRun e.kind size.toNat)) e.act (setGroup e.tm e.gid e.g)) = setGroup e.tm e.gid e.g :=
      withWindows_spStores _
    obtain ⟨g, hafter, hback⟩ := hx.done_windows hteam hwindows
    refine ⟨_, _, exec_sts h hdata hwait hopen, (hx.of_windows hteam hwindows).done.2, hafter, ?_, ?_, ?_⟩
    · change OnlyWrites e.s (setTeam _ e.t (withWindows (setGroup e.tm e.gid e.g) _)) e []
      rw [hback]
      exact hx.done.1
    · intro half k hcover hhalf
      exact winByte_spStores_other (t := setGroup e.tm e.gid e.g) hhalf hcover
    · intro l hl hother _
      exact spNumber_spStores_same size.isLt
        (fun j hj => ⟨(hopen j hj).1, (hopen j hj).2.2.2⟩) hl fun j hj hne => hother j hj hne

end Sys2Proof.Machine
end

section
/-! O24: TDSET and TDGET. Both name a descriptor of one team. The form that acts on one word puts or takes 64 bits of the
512, so that a descriptor read as its eight words says what either leaves. -/

namespace Sys2Proof.Machine

/-! ### Opcodes -/

theorem opOf_tdset (c : Ctl) (a : Code) (td : BitVec 6) (w : Bool) (i : BitVec 3) : opOf (.tdset c a td w i) = 0x288 :=
  opOf_encode rfl (encE_div _ _ _ _ _ _ _ _ _ (by have := Bool.toNat_le w; omega))

theorem opOf_tdget (c : Ctl) (d : Code) (td : BitVec 6) (w : Bool) (i : BitVec 3) : opOf (.tdget c d td w i) = 0x289 :=
  opOf_encode rfl (encE_div _ _ _ _ _ _ _ _ _ (by have := Bool.toNat_le w; omega))

/-! ### The words of a descriptor -/

/-- R475: the model takes a word of a descriptor as a field of its number. -/
theorem bits_eq_descWord (d : BitVec 512) (i : Nat) : bits d.toNat (64 * i) 64 = (descWord d i).toNat := by
  rw [bits, descWord, BitVec.extractLsb'_toNat, Nat.shiftRight_eq_div_pow]

theorem getLsbD_descWord (d : BitVec 512) (j : Nat) {k : Nat} (hk : k < 64) :
    (descWord d j).getLsbD k = d.getLsbD (64 * j + k) := by
  simp only [descWord, BitVec.getLsbD_extractLsb', hk, decide_true, Bool.true_and]

/-- Word j of an entry put whole. -/
theorem descWord_ofNat (v : Nat) {j : Nat} (hj : j < 8) :
    descWord (BitVec.ofNat 512 v) j = BitVec.ofNat 64 (v / 2 ^ (64 * j)) := by
  refine BitVec.eq_of_getLsbD_eq fun k hk => ?_
  have hbit : 64 * j + k < 512 := by omega
  rw [getLsbD_descWord _ _ hk, BitVec.getLsbD_ofNat, BitVec.getLsbD_ofNat, decide_eq_true hbit, decide_eq_true hk,
    Nat.testBit_div_two_pow, Nat.add_comm]

/-- A number with the digit at `p` of `b` bits replaced, split at that digit. -/
theorem putDigit_eq (n v p b : Nat) : n - n / 2 ^ p % 2 ^ b * 2 ^ p + v % 2 ^ b * 2 ^ p =
    2 ^ p * (2 ^ b * (n / 2 ^ p / 2 ^ b) + v % 2 ^ b) + n % 2 ^ p := by
  have hsplit : n = 2 ^ p * (2 ^ b * (n / 2 ^ p / 2 ^ b) + n / 2 ^ p % 2 ^ b) + n % 2 ^ p := by
    rw [Nat.div_add_mod, Nat.div_add_mod]
  have hrest : n - n / 2 ^ p % 2 ^ b * 2 ^ p = 2 ^ p * (2 ^ b * (n / 2 ^ p / 2 ^ b)) + n % 2 ^ p := by
    rw [Nat.mul_add, Nat.mul_comm (2 ^ p) (n / 2 ^ p % 2 ^ b)] at hsplit
    omega
  rw [hrest, Nat.mul_add, Nat.mul_comm (v % 2 ^ b)]
  omega

theorem testBit_putDigit (n v p b k : Nat) : (n - n / 2 ^ p % 2 ^ b * 2 ^ p + v % 2 ^ b * 2 ^ p).testBit k =
    if p ≤ k ∧ k < p + b then v.testBit (k - p) else n.testBit k := by
  rw [putDigit_eq, Nat.testBit_two_pow_mul_add _ (Nat.mod_lt _ (Nat.two_pow_pos p)),
    Nat.testBit_two_pow_mul_add _ (Nat.mod_lt _ (Nat.two_pow_pos b)), Nat.testBit_mod_two_pow, Nat.testBit_mod_two_pow,
    Nat.testBit_div_two_pow, Nat.testBit_div_two_pow]
  by_cases hlow : k < p
  · simp [hlow, Nat.not_le.2 hlow]
  by_cases hin : k < p + b
  · have : k - p < b := by omega
    simp [hlow, hin, Nat.not_lt.1 hlow, this]
  · have : ¬k - p < b := by omega
    simp [hlow, hin, this, show k - p - b + b + p = k by omega]

theorem descWord_tdPut_word (d : BitVec 512) {i j : Nat} (v : Nat) (hj : j < 8) :
    descWord (tdPut d true i v) j = if j = i then BitVec.ofNat 64 v else descWord d j := by
  refine BitVec.eq_of_getLsbD_eq fun k hk => ?_
  have hbit : 64 * j + k < 512 := by omega
  rw [getLsbD_descWord _ _ hk, tdPut, if_pos rfl, bits, BitVec.getLsbD_ofNat, decide_eq_true hbit, Bool.true_and,
    testBit_putDigit, BitVec.testBit_toNat]
  by_cases hij : j = i
  · rw [hij, if_pos ⟨by omega, by omega⟩, if_pos rfl, Nat.add_sub_cancel_left, BitVec.getLsbD_ofNat,
      decide_eq_true hk, Bool.true_and]
  · rw [if_neg (by omega), if_neg hij, getLsbD_descWord _ _ hk]

/-! ### Naming a descriptor -/

section
variable {s : State} {core t n : Nat} {x : Team}

theorem tdGet_of_lt (h : getTeam s (tdOwner s core t) = some x) (hn : n < x.nd) :
    tdGet s core t n = .ok (Tab.get x.tds n 0) := by
  rw [tdGet, h]
  exact if_pos hn

theorem tdGet_of_ge (h : getTeam s (tdOwner s core t) = some x) (hn : x.nd ≤ n) :
    tdGet s core t n = .error (.trap tcDesc (0x900 + n) 0) := by
  rw [tdGet, h]
  exact if_neg (Nat.not_lt.2 hn)

end

/-- R475: the word form takes its lane's 64 bits as every instruction does. -/
theorem runVal_tdRun_word (e : Env) (a : Code) (lane : Nat) : runVal e a (tdRun true e.kind) lane = val64 e a lane := by
  rw [val64]
  cases e.kind <;> rfl

/-! ### TDSET -/

section
variable {c : Ctl} {a d : Code} {td : BitVec 6} {w : Bool} {i : BitVec 3} {s : State} {e : Env} {x : Team}

theorem exec_tdset (h : Runs s (.tdset c a td w i) e) (hact : e.act ≠ [])
    (hx : getTeam e.s (tdOwner e.s e.core e.t) = some x) (hn : td.toNat < x.nd) :
    Machine.exec (.tdset c a td w i) s = .next (done e (modTeam e.s (tdOwner e.s e.core e.t) fun y => { y with
      tds := Tab.put y.tds td.toNat
        (tdPut (Tab.get x.tds td.toNat 0) w i.toNat (runVal e a (tdRun w e.kind) e.low)) 0 })) := by
  change execTdset c a td w i s = _
  refine perform_next h ?_
  rw [if_neg (by simpa using hact), tdGet_of_lt hx hn]

theorem exec_tdset_traps (h : Runs s (.tdset c a td w i) e) (hact : e.act ≠ [])
    (hx : getTeam e.s (tdOwner e.s e.core e.t) = some x) (hn : x.nd ≤ td.toNat) :
    Machine.exec (.tdset c a td w i) s = .next (raiseTrap s e.p 0x14 (0x900 + td.toNat) e.pc 0) := by
  have hparty : kindOf e.p ≠ .porter := h.no_porter (by rw [opOf_tdset]; decide)
  change execTdset c a td w i s = .next (raiseTrap s e.p tcDesc _ _ _)
  rw [← settle_trap hparty (.tdset c a td w i) _ _ _ (by decide) (by decide)]
  refine perform_stop h ?_
  rw [if_neg (by simpa using hact), tdGet_of_ge hx hn]

/-! ### TDGET -/

theorem exec_tdget (h : Runs s (.tdget c d td w i) e) (hact : e.act ≠ [])
    (hx : getTeam e.s (tdOwner e.s e.core e.t) = some x) (hn : td.toNat < x.nd) :
    Machine.exec (.tdget c d td w i) s = .next (done e (writeRun e e.s d (tdRun w e.kind) fun _ =>
      if w then (descWord (Tab.get x.tds td.toNat 0) i.toNat).toNat else (Tab.get x.tds td.toNat 0).toNat)) := by
  change execTdget c d td w i s = _
  refine perform_next h ?_
  rw [if_neg (by simpa using hact), tdGet_of_lt hx hn]
  simp only [bits_eq_descWord]

theorem exec_tdget_traps (h : Runs s (.tdget c d td w i) e) (hact : e.act ≠ [])
    (hx : getTeam e.s (tdOwner e.s e.core e.t) = some x) (hn : x.nd ≤ td.toNat) :
    Machine.exec (.tdget c d td w i) s = .next (raiseTrap s e.p 0x14 (0x900 + td.toNat) e.pc 0) := by
  have hparty : kindOf e.p ≠ .porter := h.no_porter (by rw [opOf_tdget]; decide)
  change execTdget c d td w i s = .next (raiseTrap s e.p tcDesc _ _ _)
  rw [← settle_trap hparty (.tdget c d td w i) _ _ _ (by decide) (by decide)]
  refine perform_stop h ?_
  rw [if_neg (by simpa using hact), tdGet_of_ge hx hn]

end

/-! ### The statement -/

/-- Settles O24: TDSET puts `tdPut` of the entry, whose words are those of the statement (`descWord_tdPut_word`,
`descWord_ofNat`), and TDGET writes the entry or its word. -/
theorem descriptorsAreSetAndRead : Obligations.DescriptorsAreSetAndRead := by
  unfold Obligations.DescriptorsAreSetAndRead
  refine ⟨?set, ?get, ?getTraps, ?setTraps⟩
  case set =>
    intro c a td w i s e x h hact hx hn
    refine ⟨_, exec_tdset h hact hx hn, fun j hj => ?_⟩
    cases w with
    | true => exact runVal_tdRun_word e a e.low ▸ descWord_tdPut_word _ _ hj
    | false => exact descWord_ofNat _ hj
  case get => exact fun _ _ _ _ _ _ _ _ h hact hx hn => exec_tdget h hact hx hn
  case getTraps => exact fun _ _ _ _ _ _ _ _ h hact hx hn => exec_tdget_traps h hact hx hn
  case setTraps => exact fun _ _ _ _ _ _ _ _ h hact hx hn => exec_tdset_traps h hact hx hn

end Sys2Proof.Machine
end

section
/-! O42: a matrix command. Where the checks of R430 pass, `meIssue` takes a reference on the barrier, drains the core of a
pair's team, and puts one command, or its two halves, at the end of the queues. Of a core, no more than its pool, its
command queue and the number of its next command changes. -/

namespace Sys2Proof.Machine

/-! ### The parts of a matrix instruction -/

/-- R203: every matrix instruction is issued by the one function of its parts. -/
theorem exec_matrix {i : Instr} {r : MeReq} (hr : matrixParts i = some r) (s : State) :
    Machine.exec i s = perform i (ctlOf i) (rulesOf i) s (meIssue r) := by
  unfold matrixParts at hr
  split at hr <;> cases hr <;> rfl

theorem Issues.env_instr {s : State} {i : Instr} {c : Ctl} {r : Rules} {e : Env} (h : Issues s i c r e) : e.i = i := by
  obtain ⟨b, -, hb, -, rfl⟩ := h
  exact (envOf_spec hb).2.1

/-! ### The checks of R430 -/

theorem tb_eq_testBit (v i : Nat) : tb v i = v.testBit i := by
  rw [tb, Nat.testBit_eq_decide_div_mod_eq, Bool.eq_iff_iff, beq_iff_eq, decide_eq_true_eq]

/-- R306: the generation in a handle is not 0. -/
theorem Holds.handle_ne_zero {s : State} {t : Team} {core h : Nat} {b : BarRef} {x : Barrier}
    (hh : Holds s t core h b x) : h ≠ 0 := by
  obtain ⟨n, -, -, -, -, hgen, hnz, -⟩ := hh
  rintro rfl
  exact hnz hgen

/-- R306: a barrier that the team holds, and that is not invalidated, is what its handle names. -/
theorem barValid_of_holds {s : State} {t : Team} {core h : Nat} {b : BarRef} {x : Barrier} (hh : Holds s t core h b x)
    (hvalid : x.inval = false) : barValid s t core h = some b := by
  obtain ⟨n, hname, hbar, hlow, hlt, hgen, hnz, hres, hpair, hcore, hx⟩ := hh
  have hbit : tb h 6 = n.pair := by rw [tb_eq_testBit, Bool.eq_iff_iff, hpair]
  have href : (⟨b.core, b.entry, BitVec.ofNat 16 h⟩ : BarRef) = b := by rw [← hlow]
  have hheld : barHeld s t core h = some b := by
    simp only [barHeld, hname, hbar, href]
    rw [if_pos ⟨hgen, hgen ▸ hnz, hres, hbit, hlt, hcore⟩, hx]
    rfl
  simp [barValid, hheld, hx, hvalid]

section
variable {e : Env} {r : MeReq} {d : BitVec 512} {bar : Option BarRef} {pages : Tab (Nat × Nat × Nat × Nat)}

/-- R430 steps 1 to 3. -/
theorem meHead_of_passes (h : headPasses e r d bar) : meHead e r = .ok d := by
  obtain ⟨hpair, htile, hnone, hdesc, -⟩ := h
  unfold meHead
  rw [if_neg ?pair, if_neg ?tile]
  case pair => simpa using hpair
  case tile =>
    cases ht : r.tile with
    | none => exact Bool.false_ne_true
    | some c => simpa using htile c ht
  cases htd : r.td with
  | none => rw [hnone htd]
  | some n =>
    obtain ⟨x, hx, hn, rfl, hreason⟩ := hdesc n htd
    simp only [tdGet_of_lt hx hn, if_pos hreason]

/-- R430 step 4. -/
theorem meBar_of_passes (h : headPasses e r d bar) : meBar e r.bar r.pair = .ok bar := by
  obtain ⟨-, -, -, -, ⟨hzero, rfl⟩ | ⟨b, x, rfl, hholds, hvalid, hpair⟩⟩ := h
  · exact if_pos hzero
  · have hnamed : barValid e.s e.tm e.core (val e r.bar e.low % 2 ^ 32) = some b := barValid_of_holds hholds hvalid
    have hnz : val e r.bar e.low % 2 ^ 32 ≠ 0 := hholds.handle_ne_zero
    simp only [meBar, if_neg hnz, hnamed]
    refine if_neg ?_
    simpa [tb_eq_testBit, handle] using hpair

/-- R430 step 5. -/
theorem meQueue_of_passes (h : bodyPasses e r d pages) : ∃ words, meQueue e r = .ok words ∧
    ∀ k ∈ enginesOf e r, meReason d r e.t words (planesAfter (getCore e.s k)) = 0 := by
  obtain ⟨⟨words, hwords, hreason⟩, -⟩ := h
  refine ⟨words, ?_, hreason⟩
  unfold meQueue
  by_cases hq : r.kind = .rowsQueue
  · rw [if_pos hq] at hwords
    obtain ⟨x, hx, hvalid, hkind, hstage, rfl⟩ := hwords
    simp [hq, hx, hvalid, hkind, hstage]
  · rw [if_neg hq] at hwords
    simp [hq, hwords]

/-- R202: the model and the statements read the two halves of a coordinate alike. -/
theorem boxAt_eq (e : Env) (c : Code) : boxAt e c = (sext (val64 e c e.low) 32, sext (val64 e c e.low / 2 ^ 32) 32) := by
  rw [boxAt, sext_eq_signed _ 32 (by decide), sext_eq_signed _ 32 (by decide)]

/-- R430 step 8: the pages that a command takes with it, from the checks of its box's addresses. -/
def boxPages (e : Env) (r : MeReq) (d : BitVec 512) : Except Stop (Tab (Nat × Nat × Nat × Nat)) :=
  let box := fun c1 => boxCoords (boxAt e r.coord).1 c1 (tdBox d 0) (tdBox d 1)
  let near := if r.kind == .rowsQueue || r.td.isNone then [] else box (boxAt e r.coord).2
  let far := if r.pair then box ((boxAt e r.coord).2 + tdBox d 1) else []
  if r.td.isNone then .ok []
  else if tdSpace d then match spBox e d near with
    | .error x => .error x
    | .ok _ => .ok []
  else if r.kind == .storeTile then memBox e d (near ++ far)
  else .ok []

theorem spBox_nil (e : Env) (d : BitVec 512) : spBox e d [] = .ok () := rfl

theorem boxPages_of_passes (h : bodyPasses e r d pages) : boxPages e r d = .ok pages := by
  obtain ⟨-, -, hpages⟩ := h
  unfold boxPages
  by_cases hnone : r.td = none
  · rw [if_pos (.inl hnone)] at hpages
    simp [hnone, hpages]
  by_cases hq : r.kind = .rowsQueue
  · rw [if_pos (.inr hq)] at hpages
    simp [hnone, hq, hpages, spBox_nil]
  rw [if_neg (not_or.2 ⟨hnone, hq⟩)] at hpages
  by_cases hspace : tdSpace d = true
  · rw [if_pos hspace] at hpages
    simp [hnone, hq, hspace, hpages.1, hpages.2]
  rw [if_neg hspace] at hpages
  by_cases hstore : r.kind = .storeTile
  · rw [if_pos hstore] at hpages
    simp [hnone, hstore, hspace, hpages]
  · rw [if_neg hstore] at hpages
    simp [hnone, hstore, hspace, hpages]

/-! ### The command -/

/-- The command that an issue leaves in the queues, before its half is set. -/
def issuedCmd (e : Env) (r : MeReq) (d : BitVec 512) (bar : Option BarRef) (pages : Tab (Nat × Nat × Nat × Nat)) :
    MeCmd :=
  { id := (getCore e.s ((enginesOf e r).headD 0)).nextCmd, team := e.t, party := e.p,
    flag := if e.c.cf = 0 then none else some e.com.nextOp, instr := e.i, desc := d, pages := pages,
    c0 := (boxAt e r.coord).1, c1 := (boxAt e r.coord).2, bar := bar, pair := r.pair, half := 0, row := 0,
    narrow := false, begun := false, region := e.tm.region.isSome, sticky := 0 }

/-- R307: the reference that a command takes on its barrier. -/
def barTaken (s : State) : Option BarRef → State
  | some b => barTake s b
  | none => s

/-- R153, R159: the state in which the command enters: its reference taken, the core of a pair's team drained. -/
def beforeEntry (e : Env) (bar : Option BarRef) : State :=
  if e.tm.pair then drainCore (barTaken e.s bar) e.core else barTaken e.s bar

theorem meIssue_of_passes (hh : headPasses e r d bar) (hb : bodyPasses e r d pages) :
    meIssue r e = .ok (if e.c.cf = 0 then done e (meEnter e (beforeEntry e bar) (issuedCmd e r d bar pages))
      else later e (meEnter e (beforeEntry e bar) (issuedCmd e r d bar pages)) .engine [] [] 0) := by
  obtain ⟨words, hqueue, hreason⟩ := meQueue_of_passes hb
  have hpages := boxPages_of_passes hb
  obtain ⟨-, hregion, -⟩ := hb
  have hnone : ((enginesOf e r).map fun k => meReason d r e.t words (planesAfter (getCore e.s k))).filter (· != 0) =
      [] := by
    simpa using hreason
  have hfree : ¬(r.kind == .storeTile && e.tm.region.isSome && !tdSpace d && !tdOut d) = true := by
    simpa [and_assoc] using hregion
  rw [enginesOf] at hnone
  rw [boxPages, boxAt_eq] at hpages
  simp only [meIssue, meHead_of_passes hh, meBar_of_passes hh, hqueue, hnone, List.contains_nil, List.find?_cons,
    List.find?_nil, if_neg hfree]
  rw [issuedCmd, boxAt_eq]
  split
  · next x hx => cases hx.symm.trans hpages
  · next p hp =>
    obtain rfl := Except.ok.inj (hp.symm.trans hpages)
    rfl

end

/-! ### What the entry leaves -/

theorem getCore_modCore_eq (s : State) (c k : Nat) (f : Core → Core) :
    getCore (modCore s c f) k = if k = c then f (getCore s k) else getCore s k := by
  split
  · next h => rw [h, getCore_modCore]
  · next h => exact getCore_modCore_other _ _ _ _ h

theorem partnerOf_ne (c : Nat) : partnerOf c ≠ c := by
  unfold partnerOf
  split <;> omega

/-- R204, R211: of a core, the entry changes the command queue and the number of the next command. -/
theorem getCore_meEnter {e : Env} {r : MeReq} {m : MeCmd} (hm : m.pair = r.pair) (s : State) (k : Nat) :
    getCore (meEnter e s m) k = { getCore s k with
      nextCmd := (getCore (meEnter e s m) k).nextCmd
      me := (getCore s k).me ++ if k ∈ enginesOf e r then [{ m with half := halfAt e r k }] else [] } := by
  unfold meEnter enginesOf halfAt halfOf
  rw [hm]
  cases r.pair with
  | true =>
    have hne := partnerOf_ne e.tm.core
    by_cases hk : k = e.tm.core
    · simp [getCore_modCore_eq, hk, hne.symm]
    by_cases hk' : k = partnerOf e.tm.core
    · simp [getCore_modCore_eq, hk', hne]
    · simp [getCore_modCore_eq, hk, hk']
  | false =>
    by_cases hk : k = e.core
    · simp [hk]
    · simp [getCore_modCore_eq, hk]

theorem meEnter_teams (e : Env) (s : State) (m : MeCmd) : (meEnter e s m).teams = s.teams := by
  unfold meEnter
  dsimp only
  split <;> rfl

theorem drainCore_cores (s : State) (core : Nat) : (drainCore s core).cores = s.cores := by
  obtain ⟨t, ht, hd⟩ := drainCore_spec s core
  rw [hd, ht]

/-- R307: a reference taken changes the pool of the barrier's core. -/
theorem barTake_spec (s : State) (b : BarRef) :
    barTake s b = s ∨ ∃ p : Core → Tab Barrier, barTake s b = modCore s b.core fun k => { k with pool := p k } := by
  unfold barTake modBar
  cases getBar s b with
  | none => exact .inl rfl
  | some x => exact .inr ⟨_, rfl⟩

theorem barTaken_teams (s : State) (bar : Option BarRef) : (barTaken s bar).teams = s.teams := by
  cases bar with
  | none => rfl
  | some b =>
    obtain h | ⟨p, h⟩ := barTake_spec s b <;> rw [barTaken, h]
    rfl

/-- R307: of a core, a reference taken changes the pool. -/
theorem getCore_barTaken (s : State) (bar : Option BarRef) (k : Nat) :
    ∃ p, getCore (barTaken s bar) k = { getCore s k with pool := p } := by
  cases bar with
  | none => exact ⟨_, rfl⟩
  | some b =>
    obtain h | ⟨p, h⟩ := barTake_spec s b <;> rw [barTaken, h]
    · exact ⟨_, rfl⟩
    · rw [getCore_modCore_eq]
      split <;> exact ⟨_, rfl⟩

theorem getBar_barTake {s : State} {b : BarRef} {x : Barrier} (h : getBar s b = some x) :
    getBar (barTake s b) b = some { x with refs := x.refs + 1 } := by
  simp only [barTake, modBar, h]
  rw [getBar, getCore_modCore]
  exact Tab.find_set_same ..

theorem beforeEntry_teams (e : Env) (bar : Option BarRef) : (beforeEntry e bar).teams = e.s.teams := by
  unfold beforeEntry
  split
  · rw [drainCore_teams, barTaken_teams]
  · exact barTaken_teams ..

/-- R153: the drain leaves the cores alone. -/
theorem getCore_beforeEntry (e : Env) (bar : Option BarRef) (k : Nat) :
    getCore (beforeEntry e bar) k = getCore (barTaken e.s bar) k := by
  unfold beforeEntry
  split
  · rw [getCore, drainCore_cores, getCore]
  · rfl

section
variable {e : Env} {r : MeReq} {m : MeCmd}

/-- R204: the engine of a core after the entry. -/
theorem engine_of_entry (hm : m.pair = r.pair) (bar : Option BarRef) (k : Nat) :
    (getCore (meEnter e (beforeEntry e bar) m) k).me = (getCore e.s k).me ++
        (if k ∈ enginesOf e r then [{ m with half := halfAt e r k }] else []) ∧
      (getCore (meEnter e (beforeEntry e bar) m) k).active = (getCore e.s k).active ∧
      (getCore (meEnter e (beforeEntry e bar) m) k).shadow = (getCore e.s k).shadow := by
  have hentry := getCore_meEnter (e := e) hm (beforeEntry e bar) k
  obtain ⟨p, htaken⟩ := getCore_barTaken e.s bar k
  rw [hentry, getCore_beforeEntry, htaken]
  exact ⟨rfl, rfl, rfl⟩

/-- R203, R307: the barrier after the entry. -/
theorem getBar_of_entry (hm : m.pair = r.pair) {b : BarRef} {x : Barrier} (hx : getBar e.s b = some x) :
    getBar (meEnter e (beforeEntry e (some b)) m) b = some { x with refs := x.refs + 1 } := by
  have hentry := getCore_meEnter (e := e) hm (beforeEntry e (some b)) b.core
  rw [getBar, hentry, getCore_beforeEntry]
  exact getBar_barTake hx

end

/-! ### The statement -/

/-- Settles O42: `meIssue_of_passes` gives the state that a command which passes leaves, `engine_of_entry` the engines of
its cores, and `getBar_of_entry` its barrier. -/
theorem matrixCommandsEnterTheQueue : Obligations.MatrixCommandsEnterTheQueue := by
  unfold Obligations.MatrixCommandsEnterTheQueue
  intro i r s e d bar pages hr h hhead hbody
  refine ⟨meEnter e (beforeEntry e bar) (issuedCmd e r d bar pages), issuedCmd e r d bar pages, ?exec, h.env_instr, rfl,
    rfl, rfl, rfl, rfl, rfl, rfl, rfl, rfl, rfl, rfl, rfl, ?teams, engine_of_entry rfl bar, ?bar⟩
  case exec =>
    rw [exec_matrix hr]
    exact perform_next h (meIssue_of_passes hhead hbody)
  case teams => rw [meEnter_teams, beforeEntry_teams]
  case bar =>
    rintro b x rfl hx
    exact getBar_of_entry (r := r) rfl hx

end Sys2Proof.Machine
end

section
/-! The layer of O48, O49 and O50: what an update of one island reads back, which updates leave the islands alone, and
what an access leaves in the TLBs and on the counters. -/

namespace Sys2Proof.Machine

/-! ### Reading islands back -/

/-- Two states whose islands are the same. -/
def SameIslands (s t : State) : Prop :=
  t.raster = s.raster ∧ t.sampler = s.sampler ∧ t.ray = s.ray ∧ t.blend = s.blend

theorem SameIslands.getIsle_eq {s t : State} (h : SameIslands s t) (kind idx : Nat) : getIsle t kind idx = getIsle s kind idx := by
  obtain ⟨hraster, hsampler, hray, hblend⟩ := h
  simp only [getIsle, hraster, hsampler, hray, hblend]

theorem SameIslands.view_eq {s t : State} (h : SameIslands s t) (kind idx : Nat) : viewIdx t kind idx = viewIdx s kind idx := by
  simp only [viewIdx, h.getIsle_eq]

theorem SameIslands.isleView_eq {s t : State} (h : SameIslands s t) (kind idx : Nat) :
    isleView t kind idx = isleView s kind idx := by
  rw [isleView, isleView, h.view_eq, h.getIsle_eq]

theorem OnlySlices.sameIslands {s t : State} (h : OnlySlices s t) : SameIslands s t := by
  rw [h]
  exact ⟨rfl, rfl, rfl, rfl⟩

theorem OnlyWork.sameIslands {s t : State} (h : OnlyWork s t) : SameIslands s t := by
  rw [h]
  exact ⟨rfl, rfl, rfl, rfl⟩

theorem modInst_sameIslands (s : State) (i : Nat) (f : Instance → Instance) : SameIslands s (modInst s i f) := by
  rw [modInst_only_insts]
  exact ⟨rfl, rfl, rfl, rfl⟩

/-- The number under which an island of a kind stands: a kind above 3 is a blend island. -/
abbrev kindNo (kind : Nat) : Nat := min kind 3

theorem getIsle_setIsle_same (s : State) (kind idx : Nat) (x : Island) : getIsle (setIsle s kind idx x) kind idx = x := by
  match kind with
  | 0 | 1 | 2 | _ + 3 => exact Tab.get_set_same ..

theorem getIsle_setIsle_other (s : State) {kind idx k j : Nat} (x : Island) (h : kindNo k ≠ kindNo kind ∨ j ≠ idx) :
    getIsle (setIsle s kind idx x) k j = getIsle s k j := by
  have hfield : ∀ t : Tab Island, kindNo k = kindNo kind → Tab.get (Tab.set t idx x) j .empty = Tab.get t j .empty :=
    fun t hk => Tab.get_set_other _ _ _ _ _ (h.resolve_left fun hne => hne hk)
  match kind, k with
  | 0, 0 | 1, 1 | 2, 2 | _ + 3, _ + 3 => exact hfield _ (by simp [kindNo])
  | 0, 1 | 0, 2 | 0, _ + 3 | 1, 0 | 1, 2 | 1, _ + 3 | 2, 0 | 2, 1 | 2, _ + 3 | _ + 3, 0 | _ + 3, 1 | _ + 3, 2 => rfl

theorem setIsle_setIsle (s : State) (kind idx : Nat) (x y : Island) :
    setIsle (setIsle s kind idx x) kind idx y = setIsle s kind idx y := by
  unfold setIsle
  split <;> simp only [Tab.set_set]

@[simp] theorem getIsle_modIsle_same (s : State) (kind idx : Nat) (f : Island → Island) :
    getIsle (modIsle s kind idx f) kind idx = f (getIsle s kind idx) := getIsle_setIsle_same ..

theorem getIsle_modIsle_other (s : State) {kind idx k j : Nat} (f : Island → Island) (h : kindNo k ≠ kindNo kind ∨ j ≠ idx) :
    getIsle (modIsle s kind idx f) k j = getIsle s k j := getIsle_setIsle_other s _ h

theorem modIsle_modIsle (s : State) (kind idx : Nat) (f g : Island → Island) :
    modIsle (modIsle s kind idx f) kind idx g = modIsle s kind idx fun x => g (f x) := by
  rw [modIsle, getIsle_modIsle_same, modIsle, setIsle_setIsle, modIsle]

theorem modIsle_congr {s : State} {kind idx : Nat} {f g : Island → Island} (h : f (getIsle s kind idx) = g (getIsle s kind idx)) :
    modIsle s kind idx f = modIsle s kind idx g := by
  rw [modIsle, h, modIsle]

/-- R229: only the blend islands share their ports. -/
theorem viewIdx_of_ne {kind : Nat} (h : kind ≠ 3) (s : State) (idx : Nat) : viewIdx s kind idx = idx := by
  unfold viewIdx portSet
  rw [if_neg h]
  cases hf : (getIsle s kind idx).fault.isSome <;> cases hl : (getIsle s kind idx).loading.isSome <;> simp [hf, hl]

theorem isleView_of_ne {kind : Nat} (h : kind ≠ 3) (s : State) (idx : Nat) : isleView s kind idx = getIsle s kind idx := by
  rw [isleView, viewIdx_of_ne h]

theorem modPass_of_pass {s : State} {q : Nat} {p : Pass} (hp : (getIsle s 0 q).pass = some p) (f : Pass → Pass) :
    modPass s q f = modIsle s 0 q fun x => { x with
      pass := some (f p) } := by
  rw [modPass]
  exact modIsle_congr (by simp only [hp, Option.map_some])

theorem myIsle_zero (e : Env) : myIsle e 0 = getIsle e.s 0 (isleIdx e 0) := isleView_of_ne (by decide) ..

/-! ### What an access leaves in the TLBs and on the counters -/

/-- `t` differs from `s` in the TLBs, the walks and the controllers' counters at most (`touchedOnly`, read the other way
round). -/
def OnlyTouched (s t : State) : Prop := t = { s with
  tlb := t.tlb, walks := t.walks, bwNow := t.bwNow }

theorem OnlyTouched.trans {s t u : State} (h : OnlyTouched s t) (k : OnlyTouched t u) : OnlyTouched s u := by
  unfold OnlyTouched at *
  rw [k, h]

theorem OnlyTouched.touchedOnly {s t : State} (h : OnlyTouched s t) : touchedOnly s t := by
  unfold Machine.touchedOnly
  rw [h]

theorem OnlyTouched.caches {s t : State} (h : OnlyTouched s t) : OnlyCaches s t := by
  unfold OnlyTouched OnlyCaches at *
  rw [h]

theorem OnlyTouched.slices {s t : State} (h : OnlyTouched s t) : OnlySlices s t := h.caches.slices

theorem OnlyTouched.foldl {α : Type} {f : State → α → State} (hf : ∀ s x, OnlyTouched s (f s x)) (l : List α) (s : State) :
    OnlyTouched s (l.foldl f s) :=
  List.foldlRecOn l f (motive := OnlyTouched s) rfl fun u hu x _ => hu.trans (hf u x)

theorem countSector_touched (s : State) (c : Option Nat) (k : Nat) : OnlyTouched s (countSector s c k) := by
  unfold countSector
  split
  · split <;> rfl
  · rfl

theorem movedSector_touched (s : State) (c k : Nat) : OnlyTouched s (movedSector s c k) := by
  unfold movedSector
  split
  · rfl
  · exact countSector_touched ..

theorem tlbFill_touched (s : State) (e : TlbEntry) : OnlyTouched s (tlbFill s e) := by
  unfold tlbFill
  dsimp only
  split
  · rfl
  split <;> rfl

theorem fillTlbs_touched (s : State) (c core : Nat) (part : Option Nat) (va lg : Nat) (pte : DWord) :
    OnlyTouched s (fillTlbs s c core part va lg pte) := OnlyTouched.foldl (fun s _ => tlbFill_touched s _) _ s

theorem walked_touched (s : State) (c va : Nat) : OnlyTouched s (walked s c va) := by
  unfold walked
  dsimp only
  split
  · exact OnlyTouched.foldl (fun s k => movedSector_touched s c k) _ s
  · rfl

theorem endWalk_touched (s : State) (i : Nat) : OnlyTouched s (endWalk s i) := by
  unfold endWalk
  split
  · rfl
  next w _ =>
    have hwalk : ∀ l, OnlyTouched s { walked s w.ctx (w.vpn * 4096) with
        walks := l } := fun l => (walked_touched ..).trans rfl
    split
    · rfl
    split
    · exact (hwalk _).trans (fillTlbs_touched ..)
    · exact hwalk _

theorem touchTlb_touched (s : State) (c core va : Nat) : OnlyTouched s (touchTlb s c core va) := by
  unfold touchTlb
  dsimp only
  split
  · rfl
  · have hwalk : OnlyTouched s (match joinWalk s c (va / 4096) with
        | some i => endWalk s i
        | none => walked s c va) := by
      split
      · exact endWalk_touched ..
      · exact walked_touched ..
    split
    · exact hwalk.trans (fillTlbs_touched ..)
    · exact hwalk

theorem takenPieces_touched (s : State) (c core : Nat) (k : Acc133) (l : List Nat) :
    OnlyTouched s (takenPieces s c core k l) := by
  induction l generalizing s with
  | nil => rfl
  | cons va r ih =>
    unfold takenPieces
    dsimp only
    split
    · exact ((touchTlb_touched ..).trans (movedSector_touched ..)).trans (ih _)
    · exact touchTlb_touched ..

theorem takenVirt_touched (s : State) (c core va n : Nat) (k : Acc133) : OnlyTouched s (takenVirt s c core va n k) :=
  takenPieces_touched ..

end Sys2Proof.Machine
end

section
/-! The layer of O48, O49 and O50: the bytes of numbers, lists and sectors, and reads of one step through a core. -/

namespace Sys2Proof.Machine

/-! ### Bytes of a number and of a list -/

theorem bytesOf_ofBytes (l : List Byte) : bytesOf l.length (ofBytes l) = l := by
  induction l with
  | nil => rfl
  | cons b r ih =>
    have hlow : BitVec.ofNat 8 (b.toNat + 256 * ofBytes r) = b := by
      apply BitVec.eq_of_toNat_eq
      rw [BitVec.toNat_ofNat, Nat.add_mul_mod_self_left, Nat.mod_eq_of_lt b.isLt]
    have hhigh : (b.toNat + 256 * ofBytes r) / 256 = ofBytes r := by
      have := b.isLt
      omega
    rw [List.length_cons, ofBytes, bytesOf, hlow, hhigh, ih]

theorem ofBytes_lt (l : List Byte) : ofBytes l < 2 ^ (8 * l.length) := by
  induction l with
  | nil => exact Nat.one_pos
  | cons b r ih =>
    have hb := b.isLt
    rw [ofBytes, List.length_cons, Nat.mul_succ, Nat.pow_add, Nat.mul_comm]
    omega

theorem ofBytes_bytesOf (n v : Nat) : ofBytes (bytesOf n v) = v % 2 ^ (8 * n) := by
  induction n generalizing v with
  | zero => rw [bytesOf, ofBytes, Nat.mul_zero, Nat.pow_zero, Nat.mod_one]
  | succ n ih => rw [bytesOf, ofBytes, ih, BitVec.toNat_ofNat, Nat.mul_succ, Nat.pow_add, Nat.mul_comm (2 ^ (8 * n)),
      Nat.mod_mul]

/-- A sector kept as one number comes back as its bytes. -/
theorem bytesOf_sectorNumber {l : List Byte} (h : l.length = 32) : bytesOf 32 (BitVec.ofNat 256 (ofBytes l)).toNat = l := by
  have hlt := ofBytes_lt l
  rw [h] at hlt
  rw [BitVec.toNat_ofNat, Nat.mod_eq_of_lt hlt]
  exact h ▸ bytesOf_ofBytes l

theorem ext_getD {l m : List Byte} (hlen : l.length = m.length) (h : ∀ i, i < l.length → l.getD i 0 = m.getD i 0) : l = m :=
  List.ext_getElem hlen fun i hl hm => by
    rw [← List.getD_eq_getElem l 0 hl, ← List.getD_eq_getElem m 0 hm, h i hl]

theorem length_upto (lo n : Nat) : (upto lo n).length = n := by rw [upto_eq_range', List.length_range']

theorem length_cellsGet (m : List Host.Cell) (a n : Nat) : (cellsGet m a n).length = n := by
  rw [cellsGet, List.length_map, length_upto]

theorem getD_map_upto (f : Nat → Byte) (lo : Nat) {n i : Nat} (h : i < n) : ((upto lo n).map f).getD i 0 = f (lo + i) := by
  rw [upto_eq_range', List.getD_eq_getElem _ _ (by simpa using h)]
  simp

theorem getD_cellsGet (m : List Host.Cell) (a : Nat) {n i : Nat} (h : i < n) : (cellsGet m a n).getD i 0 = cellGet m (a + i) :=
  getD_map_upto _ _ h

/-! ### Bytes under a mask -/

theorem length_mergeBytes (m : Nat) (new old : List Byte) :
    (mergeBytes m new old).length = min new.length old.length := by
  induction new generalizing m old with
  | nil => simp [mergeBytes]
  | cons a r ih =>
    cases old with
    | nil => simp [mergeBytes]
    | cons b t => simp [mergeBytes, ih]

theorem getD_mergeBytes {m i : Nat} {new old : List Byte} (hn : i < new.length) (ho : i < old.length) :
    (mergeBytes m new old).getD i 0 = if m.testBit i then new.getD i 0 else old.getD i 0 := by
  induction new generalizing m i old with
  | nil => simp at hn
  | cons a r ih =>
    cases old with
    | nil => simp at ho
    | cons b t =>
      cases i with
      | zero => by_cases hm : m % 2 = 1 <;> simp [mergeBytes, hm, Nat.testBit_zero]
      | succ i =>
        rw [mergeBytes, List.getD_cons_succ, List.getD_cons_succ, List.getD_cons_succ, Nat.testBit_succ]
        exact ih (by simpa using hn) (by simpa using ho)

/-! ### What a core sees of a sector -/

/-- The bytes of a sector as a core sees them (R137, R152). -/
def seenSector (s : State) (core k : Nat) : List Byte := (upto 0 32).map fun i => seenByte s core (32 * k + i)

theorem length_seenSector (s : State) (core k : Nat) : (seenSector s core k).length = 32 := by
  rw [seenSector, List.length_map, length_upto]

theorem getD_seenSector (s : State) (core k : Nat) {i : Nat} (h : i < 32) :
    (seenSector s core k).getD i 0 = seenByte s core (32 * k + i) := by
  rw [seenSector, getD_map_upto _ _ h, Nat.zero_add]

theorem bufByte_sector (s : State) (core k : Nat) {i : Nat} (h : i < 32) : bufByte s core (32 * k + i) =
    match wbFind s core k with
    | some x => if x.mask.getLsbD i then some (x.data.extractLsb' (8 * i) 8) else none
    | none => none := by
  have hsector : (32 * k + i) / 32 = k := by omega
  have hplace : (32 * k + i) % 32 = i := by omega
  unfold bufByte
  cases hf : wbFind s core k <;> simp only [hsector, hplace, hf]

theorem getD_bufData (x : WbEntry) {i : Nat} (h : i < 32) :
    (bytesOf 32 x.data.toNat).getD i 0 = x.data.extractLsb' (8 * i) 8 := by
  rw [getD_bytesOf _ h]
  apply BitVec.eq_of_toNat_eq
  rw [BitVec.toNat_ofNat, BitVec.extractLsb'_toNat, Nat.shiftRight_eq_div_pow]

/-- R137, R152: the write buffer over an image that holds the slice's bytes where the buffer holds none, or over what the
core sees already, is what the core sees. -/
theorem overlay_eq_seen {s : State} {core k : Nat} {img : List Byte} (hlen : img.length = 32)
    (himg : ∀ i, i < 32 → bufByte s core (32 * k + i) = none → img.getD i 0 = cellGet s.mem (32 * k + i)) (bad : Bool) :
    (overlay s core k 0 img bad).1 = seenSector s core k := by
  have hplain : cryptSector s false 0 k img = img := if_pos rfl
  have hbuf := fun i (hi : i < 32) => bufByte_sector s core k hi
  unfold overlay
  simp only [hplain]
  cases hf : wbFind s core k with
  | none =>
    refine ext_getD (hlen.trans (length_seenSector ..).symm) fun i hi => ?_
    have hi : i < 32 := hlen ▸ hi
    have hnone : bufByte s core (32 * k + i) = none := by rw [hbuf i hi, hf]
    rw [getD_seenSector _ _ _ hi, seenByte, hnone, himg i hi hnone]
    rfl
  | some x =>
    have hm : (mergeBytes x.mask.toNat (bytesOf 32 x.data.toNat) img).length = 32 := by
      rw [length_mergeBytes, length_bytesOf, hlen]
      rfl
    refine ext_getD (hm.trans (length_seenSector ..).symm) fun i hi => ?_
    have hi : i < 32 := hm ▸ hi
    have hbi : bufByte s core (32 * k + i) = if x.mask.getLsbD i then some (x.data.extractLsb' (8 * i) 8) else none := by
      rw [hbuf i hi, hf]
    rw [getD_mergeBytes (by rwa [length_bytesOf]) (by rwa [hlen]), getD_seenSector _ _ _ hi, seenByte, hbi,
      BitVec.testBit_toNat]
    split
    next hmask => exact getD_bufData x hi
    next hmask => exact himg i hi (by rw [hbi, if_neg hmask])

theorem sliceRead_bytes (s : State) (k : Nat) {i : Nat} (h : i < 32) :
    (sliceRead s k).1.getD i 0 = cellGet s.mem (32 * k + i) := getD_cellsGet _ _ h

theorem overlay_slice (s : State) (core k : Nat) (bad : Bool) :
    (overlay s core k 0 (sliceRead s k).1 bad).1 = seenSector s core k :=
  overlay_eq_seen (length_cellsGet ..) (fun _ hi _ => sliceRead_bytes s k hi) bad

theorem overlay_seen (s : State) (core k : Nat) (bad : Bool) :
    (overlay s core k 0 (seenSector s core k) bad).1 = seenSector s core k :=
  overlay_eq_seen (length_seenSector ..) (fun i hi hnone => by rw [getD_seenSector _ _ _ hi, seenByte, hnone]; rfl) bad

theorem coreImage_eq_seen (s : State) (core k : Nat) : (coreImage s core k 0).1 = seenSector s core k := by
  have hover := overlay_slice s core k (sliceRead s k).2
  have hcrypt : ∀ l, cryptSector s true 0 k l = l := fun _ => if_pos rfl
  unfold coreImage
  cases hf : wbFind s core k with
  | none =>
    have himg : (overlay s core k 0 (sliceRead s k).1 (sliceRead s k).2).1 = (sliceRead s k).1 := by
      simp only [overlay, hf]
      exact if_pos rfl
    exact himg.symm.trans hover
  | some x => simp only [hcrypt, hover]

/-- R137: a sector that the write buffer holds whole. -/
theorem bufData_of_full {s : State} {core k : Nat} {x : WbEntry} (hf : wbFind s core k = some x)
    (hfull : x.mask.toNat = fullMask) : bytesOf 32 x.data.toNat = seenSector s core k := by
  refine ext_getD ((length_bytesOf ..).trans (length_seenSector ..).symm) fun i hi => ?_
  have hi : i < 32 := by rwa [length_bytesOf] at hi
  have hbit : x.mask.getLsbD i = true := by
    rw [← BitVec.testBit_toNat, hfull, fullMask, Nat.testBit_two_pow_sub_one, decide_eq_true hi]
  rw [getD_seenSector _ _ _ hi, seenByte, bufByte_sector _ _ _ hi, hf, getD_bufData _ hi]
  simp only [hbit, if_true, Option.getD_some]

/-! ### L1 -/

/-- Each sector that L1 of the core holds in `t` stood in L1 of `s`, or is as the core sees it. -/
def L1Sees (s t : State) (core : Nat) : Prop :=
  ∀ k x, l1Find t core k = some x → (l1Find s core k).isSome = true ∨ bytesOf 32 x.data.toNat = seenSector s core k

/-- The first match of a test among the entries that a filter keeps, where the filter treats all matches alike. -/
theorem find?_of_filter {α : Type} {l : List α} {p q : α → Bool} {x : α} (h : (l.filter p).find? q = some x)
    (hp : ∀ y z, q y = true → q z = true → p y = p z) : l.find? q = some x := by
  have hx : q x = true := List.find?_some h
  have hkeep : p x = true := (List.mem_filter.1 (List.mem_of_find?_eq_some h)).2
  rw [List.find?_filter] at h
  rw [← h]
  congr 1
  funext y
  by_cases hy : q y = true
  · simp [hp y x hy hx, hkeep]
  · simp [hy]

theorem L1Sees.of_l1 {s t u : State} {core : Nat} (h : L1Sees s t core) (hl : u.l1 = t.l1) : L1Sees s u core :=
  fun k x hx => h k x (by rw [← hx, l1Find, l1Find, hl])

/-- L1 lets go of entries, by core and sector. -/
theorem L1Sees.filter {s t u : State} {core : Nat} (h : L1Sees s t core) (keep : Nat → Nat → Bool)
    (hl : u.l1 = t.l1.filter fun e => keep e.core e.sector) : L1Sees s u core := by
  intro k x hx
  refine h k x (find?_of_filter (p := fun e => keep e.core e.sector) (by rw [← hl]; exact hx) fun y z hy hz => ?_)
  simp only [Bool.and_eq_true, beq_iff_eq] at hy hz
  simp only [hy, hz]

/-- L1 takes a sector as the core sees it. -/
theorem L1Sees.append {s t u : State} {core sector : Nat} {x : L1Entry} (h : L1Sees s t core) (hl : u.l1 = t.l1 ++ [x])
    (hsector : x.sector = sector) (hdata : bytesOf 32 x.data.toNat = seenSector s core sector) : L1Sees s u core := by
  intro k y hy
  rw [l1Find, hl, List.find?_append] at hy
  cases hf : t.l1.find? fun e => e.core == core && e.sector == k with
  | some z =>
    rw [hf] at hy
    cases hy
    exact h k y hf
  | none =>
    rw [hf, Option.none_or, List.find?_singleton] at hy
    split at hy
    next hk =>
      cases hy
      simp only [Bool.and_eq_true, beq_iff_eq] at hk
      rw [← hsector, hk.2] at hdata
      exact .inr hdata
    · cases hy

theorem L1Sees.refresh {s t : State} {core sector : Nat} {l : List Byte} (h : L1Sees s t core) (bad : Bool)
    (hdata : l = seenSector s core sector) : L1Sees s (l1Refresh t core sector l bad) core := by
  intro k x hx
  simp only [l1Find, l1Refresh, mapIf, List.find?_map, Option.map_eq_some_iff] at hx
  obtain ⟨y, hy, rfl⟩ := hx
  have hkey : ((fun e : L1Entry => e.core == core && e.sector == k) ∘ fun x : L1Entry =>
      if x.core == core && x.sector == sector then { x with
        data := BitVec.ofNat 256 (ofBytes l), bad := bad } else x) = fun e => e.core == core && e.sector == k := by
    funext e
    simp only [Function.comp_apply]
    split <;> rfl
  rw [hkey] at hy
  have hyk := List.find?_some hy
  simp only [Bool.and_eq_true, beq_iff_eq] at hyk
  split
  next hs =>
    simp only [Bool.and_eq_true, beq_iff_eq] at hs
    rw [← hyk.2, hs.2, ← hdata]
    exact .inr (bytesOf_sectorNumber (hdata ▸ length_seenSector ..))
  next => exact h k y hy

theorem L1Sees.allocate {s t : State} {core sector lv : Nat} {l : List Byte} (h : L1Sees s t core) (bad : Bool)
    (hdata : l = seenSector s core sector) : L1Sees s (l1Allocate t core sector lv l bad) core := by
  have hdrop : L1Sees s (l1Drop t core sector) core := h.filter (fun c k => !(c == core && k == sector)) rfl
  have hnew : bytesOf 32 (BitVec.ofNat 256 (ofBytes l)).toNat = seenSector s core sector := by
    rw [bytesOf_sectorNumber (hdata ▸ length_seenSector ..), hdata]
  unfold l1Allocate
  dsimp only
  split
  · exact hdrop.append rfl rfl hnew
  split
  next v _ =>
    have hout : L1Sees s { l1Drop t core sector with
        l1 := (l1Drop t core sector).l1.filter fun e => !(e.core == core && e.sector / 4 == v) } core :=
      hdrop.filter (fun c k => !(c == core && k / 4 == v)) rfl
    exact hout.append rfl rfl hnew
  · split
    · exact hdrop.append rfl rfl hnew
    · exact hdrop

/-! ### One read through a core -/

theorem foldl_l1_tlb {α : Type} {f : State → α → State} (hf : ∀ s x, (f s x).l1 = s.l1 ∧ (f s x).tlb = s.tlb) (l : List α)
    (s : State) : (l.foldl f s).l1 = s.l1 ∧ (l.foldl f s).tlb = s.tlb :=
  List.foldlRecOn l f (motive := fun t => t.l1 = s.l1 ∧ t.tlb = s.tlb) ⟨rfl, rfl⟩ fun u hu x _ =>
    ⟨(hf u x).1.trans hu.1, (hf u x).2.trans hu.2⟩

theorem countSector_l1_tlb (s : State) (c : Option Nat) (k : Nat) :
    (countSector s c k).l1 = s.l1 ∧ (countSector s c k).tlb = s.tlb := by
  unfold countSector
  split
  · split <;> exact ⟨rfl, rfl⟩
  · exact ⟨rfl, rfl⟩

theorem countLine_l1_tlb (s : State) (p line : Nat) : (countLine s p line).l1 = s.l1 ∧ (countLine s p line).tlb = s.tlb :=
  foldl_l1_tlb (fun s k => countSector_l1_tlb s _ k) _ s

theorem movedSector_l1_tlb (s : State) (c k : Nat) : (movedSector s c k).l1 = s.l1 ∧ (movedSector s c k).tlb = s.tlb := by
  unfold movedSector
  split
  · exact ⟨rfl, rfl⟩
  · exact countSector_l1_tlb ..

theorem lineBack_l1_tlb (s : State) (line : Nat) : (lineBack s line).l1 = s.l1 ∧ (lineBack s line).tlb = s.tlb := by
  unfold lineBack
  split
  · split
    · exact countLine_l1_tlb ..
    · exact ⟨rfl, rfl⟩
  · exact ⟨rfl, rfl⟩

theorem scAllocate_l1_tlb (s : State) (line p lv : Nat) :
    (scAllocate s line p lv).l1 = s.l1 ∧ (scAllocate s line p lv).tlb = s.tlb := by
  unfold scAllocate
  dsimp only
  split
  · exact ⟨rfl, rfl⟩
  split
  · exact countLine_l1_tlb ..
  split
  next v _ =>
    obtain ⟨hl, ht⟩ := countLine_l1_tlb (lineBack s v.line) p line
    obtain ⟨hl', ht'⟩ := lineBack_l1_tlb s v.line
    exact ⟨hl.trans hl', ht.trans ht'⟩
  · exact ⟨rfl, rfl⟩

theorem l1Allocate_tlb (s : State) (core k lv : Nat) (l : List Byte) (bad : Bool) :
    (l1Allocate s core k lv l bad).tlb = s.tlb := by
  unfold l1Allocate
  dsimp only
  split
  · rfl
  split
  · rfl
  split <;> rfl

/-- R160: what reads of one step through a core leave: the caches differ, no translation does, and L1 holds what the core
sees. -/
structure ReadFrom (s t : State) (core : Nat) : Prop where
  only : OnlyCaches s t
  tlb : t.tlb = s.tlb
  sees : L1Sees s t core

theorem ReadFrom.refl (s : State) (core : Nat) : ReadFrom s s core := ⟨rfl, rfl, fun _ _ h => .inl (by rw [h]; rfl)⟩

theorem OnlyCaches.seenSector_eq {s t : State} (h : OnlyCaches s t) (core k : Nat) :
    seenSector t core k = seenSector s core k := by
  rw [h]
  rfl

/-- The bytes from `pa` on that a number read there holds. -/
def seenNumber (s : State) (core pa n : Nat) : Nat := ofBytes (((seenSector s core (pa / 32)).drop (pa % 32)).take n)

section
variable {s t : State} {core : Nat}

theorem ReadFrom.readSlice (h : ReadFrom s t core) (pa n l1 sc part : Nat) :
    ReadFrom s (readSlice t core pa 0 n l1 sc part).1 core ∧
      (readSlice t core pa 0 n l1 sc part).2.1 = seenNumber s core pa n := by
  have hover := (overlay_slice t core (pa / 32) (sliceRead t (pa / 32)).2).trans (h.only.seenSector_eq core _)
  have himage := (coreImage_eq_seen t core (pa / 32)).trans (h.only.seenSector_eq core _)
  have hmoved : ∀ v : State, v.l1 = t.l1 ∧ v.tlb = t.tlb → ∀ c k, L1Sees s (movedSector v c k) core ∧
      (movedSector v c k).tlb = s.tlb := fun v hv c k =>
    ⟨h.sees.of_l1 ((movedSector_l1_tlb v c k).1.trans hv.1), ((movedSector_l1_tlb v c k).2.trans hv.2).trans h.tlb⟩
  have halloc : (if sc = 0 then linkServed t pa else scAllocate (linkServed t pa) (pa / 128) part sc).l1 = t.l1 ∧
      (if sc = 0 then linkServed t pa else scAllocate (linkServed t pa) (pa / 128) part sc).tlb = t.tlb := by
    split
    · exact ⟨rfl, rfl⟩
    · exact scAllocate_l1_tlb ..
  obtain ⟨hsees, htlb⟩ := hmoved _ halloc (coreCtx (if sc = 0 then linkServed t pa
    else scAllocate (linkServed t pa) (pa / 128) part sc) core) (pa / 32)
  refine ⟨⟨h.only.trans (readSlice_only ..), ?tlb, ?sees⟩, ?value⟩
  case value => simp only [Machine.readSlice, hover, seenNumber]
  case tlb =>
    unfold Machine.readSlice
    dsimp only
    split
    · exact htlb
    · rw [l1Allocate_tlb, htlb]
  case sees =>
    unfold Machine.readSlice
    dsimp only
    split
    · exact hsees.refresh _ himage
    · exact hsees.allocate _ himage

/-- R152: what the write buffer or L1 serves is what the core sees. -/
theorem ReadFrom.readNear (h : ReadFrom s t core) {pa n v : Nat} {bad : Bool} (hl1 : l1Find s core (pa / 32) = none)
    (hv : readNear t core pa 0 n = some (v, bad)) : v = seenNumber s core pa n := by
  have hline : ∀ x, l1Find t core (pa / 32) = some x → ∀ b,
      (overlay t core (pa / 32) 0 (bytesOf 32 x.data.toNat) b).1 = seenSector s core (pa / 32) := by
    intro x hx b
    have hdata := (h.sees _ x hx).resolve_left (by rw [hl1]; exact Bool.false_ne_true)
    rw [hdata, ← h.only.seenSector_eq, overlay_seen]
  unfold Machine.readNear at hv
  dsimp only at hv
  split at hv
  next e he =>
    split at hv
    next hfull =>
      cases hv
      rw [bufData_of_full he hfull.2, h.only.seenSector_eq, seenNumber]
    · split at hv
      next x hx =>
        cases hv
        rw [hline x hx, seenNumber]
      · cases hv
  · split at hv
    next x hx =>
      cases hv
      rw [hline x hx, seenNumber]
    · cases hv

theorem ReadFrom.portRead (h : ReadFrom s t core) {p : Phys} (hkey : p.key = 0) (hl1 : l1Find s core (p.pa / 32) = none)
    (n : Nat) : ReadFrom s (portRead t core p n).1 core ∧ (portRead t core p n).2.1 = seenNumber s core p.pa n := by
  unfold Machine.portRead readMem
  dsimp only
  rw [hkey]
  split
  · exact h.readSlice ..
  · cases hnear : Machine.readNear t core p.pa 0 n with
    | none => exact h.readSlice ..
    | some v => exact ⟨h, h.readNear hl1 hnear⟩

/-- R131: an address that the TLBs translate leads where it did. -/
theorem ReadFrom.tlbFind_eq (h : ReadFrom s t core) (ctx va : Nat) (places : List TlbPlace) :
    tlbFind t ctx va places = tlbFind s ctx va places := by
  induction places with
  | nil => rfl
  | cons p r ih => rw [tlbFind, tlbFind, h.tlb, ih]

theorem OnlyCaches.checkLeaf_eq (h : OnlyCaches s t) (c va : Nat) (k : Acc133) (pte lg : Nat) :
    checkLeaf t c va k pte lg = checkLeaf s c va k pte lg := by
  rw [h]
  rfl

theorem ReadFrom.checkNow_eq (h : ReadFrom s t core) {ctx va : Nat} (size : Nat) (k : Acc133)
    (hit : (tlbFind s ctx va (tlbPlaces core none)).isSome = true) :
    checkNow t ctx core va size k = checkNow s ctx core va size k ∧ touchTlb t ctx core va = t := by
  obtain ⟨e, he⟩ := Option.isSome_iff_exists.1 hit
  have het := (h.tlbFind_eq ctx va (tlbPlaces core none)).trans he
  constructor
  · simp only [checkNow, he, het, h.only.checkLeaf_eq]
  · rw [touchTlb, if_pos (.inr (by rw [het]; rfl))]

/-- The bytes of a piece within a sector. -/
theorem bytesOf_seenNumber (s : State) (core : Nat) {pa n : Nat} (h : pa % 32 + n ≤ 32) :
    bytesOf n (seenNumber s core pa n) = (List.range n).map fun i => seenByte s core (pa + i) := by
  have hlen : (((seenSector s core (pa / 32)).drop (pa % 32)).take n).length = n := by
    rw [List.length_take, List.length_drop, length_seenSector]
    omega
  have hback := bytesOf_ofBytes (((seenSector s core (pa / 32)).drop (pa % 32)).take n)
  rw [hlen] at hback
  rw [seenNumber, hback]
  refine ext_getD (hlen.trans (by simp)) fun i hi => ?_
  rw [hlen] at hi
  have hdrop : (((seenSector s core (pa / 32)).drop (pa % 32)).take n).getD i 0 =
      (seenSector s core (pa / 32)).getD (pa % 32 + i) 0 := by
    simp [List.getD_eq_getElem?_getD, hi]
  rw [hdrop, getD_seenSector _ _ _ (by omega), show 32 * (pa / 32) + (pa % 32 + i) = pa + i by omega]
  simp [List.getD_eq_getElem?_getD, hi]

end

/-- R160: the bytes of a range whose translations the core holds, of unkeyed sectors that its L1 does not hold. -/
theorem coreBytes_eq_seen {s : State} {ctx core va n : Nat} {p : Nat → Phys}
    (h : ∀ x ∈ sectorPieces (n / 32 + 2) va n 0, checkNow s ctx core (va + x.1) 1 .load = .ok (p x.1) ∧
      (tlbFind s ctx (va + x.1) (tlbPlaces core none)).isSome = true ∧ simple (p x.1).pa (p x.1).key x.2 ∧
      l1Find s core ((p x.1).pa / 32) = none) :
    (coreBytes s ctx core va n).2.1 = (sectorPieces (n / 32 + 2) va n 0).flatMap fun x =>
      (List.range x.2).map fun i => seenByte s core ((p x.1).pa + i) := by
  have hfold : ∀ (l : List (Nat × Nat)), (∀ x ∈ l, x ∈ sectorPieces (n / 32 + 2) va n 0) →
      ∀ (a : State × List Byte × Bool),
      ReadFrom s a.1 core → (l.foldl (fun (acc : State × List Byte × Bool) pc =>
        match checkNow acc.1 ctx core (va + pc.1) 1 .load with
        | .ok p => let r := portRead (touchTlb acc.1 ctx core (va + pc.1)) core p pc.2
          (r.1, acc.2.1 ++ bytesOf pc.2 r.2.1, acc.2.2 || r.2.2)
        | .error _ => acc) a).2.1 = a.2.1 ++ l.flatMap fun x => (List.range x.2).map fun i => seenByte s core ((p x.1).pa + i) := by
    intro l
    induction l with
    | nil => simp
    | cons x l ih =>
      intro hl a ha
      obtain ⟨hcheck, hit, ⟨hkey, hlen⟩, hl1⟩ := h x (hl x (by simp))
      obtain ⟨hcheck', htouch⟩ := ha.checkNow_eq 1 .load hit
      obtain ⟨hread, hvalue⟩ := ha.portRead hkey hl1 x.2
      rw [List.foldl_cons, hcheck', hcheck]
      dsimp only
      rw [htouch, ih (fun y hy => hl y (by simp [hy])) _ hread]
      simp only [hvalue, bytesOf_seenNumber _ _ hlen, List.flatMap_cons, List.append_assoc]
  exact (hfold _ (fun _ hx => hx) (s, [], false) (.refl s core)).trans (List.nil_append _)

end Sys2Proof.Machine
end

section
/-! O48: the instructions of the islands. ICTL, QBIND and those of a pass answer by the island that they name; an ILOAD takes
the bytes of its range as its core sees them. -/

namespace Sys2Proof.Machine

section
variable {c : Ctl} {d a : Code} {kind : BitVec 3} {s : State} {e : Env}

/-! ### ICTL -/

/-- R234: the model and the statement sum the same fields of the state word. -/
theorem isleWord_eq_stateWord (s : State) (x : Island) (ctx team : Nat) : isleWord s x ctx team = stateWord s x ctx team := by
  unfold isleWord stateWord isleState
  cases x.fault <;> cases x.image <;> by_cases ho : x.owner = some ctx <;> simp [ho] <;> omega

theorem exec_ictlState (h : Runs s (.ictlState c d a kind) e) (hact : e.act ≠ []) :
    Machine.exec (.ictlState c d a kind) s = .next (done e (writeRun e e.s d (baseRun e.kind) fun _ =>
      stateWord e.s (myIsle e kind.toNat) e.ctx (tdOwner e.s e.core e.t))) := by
  change execIctlState c d a kind s = _
  refine perform_next h ?_
  rw [if_neg (by simpa using hact)]
  dsimp only
  rw [isleWord_eq_stateWord]
  rfl

theorem exec_ictlFaultAddress (h : Runs s (.ictlFaultAddress c d a kind) e) (hact : e.act ≠ []) :
    Machine.exec (.ictlFaultAddress c d a kind) s = .next (done e (writeRun e e.s d (baseRun e.kind) fun _ =>
      ((myIsle e kind.toNat).fault.map (·.va.toNat)).getD 0)) := by
  change execIctlFaultAddress c d a kind s = _
  refine perform_next h ?_
  rw [if_neg (by simpa using hact)]
  rfl

/-- R234: what a selector of the handler answers where a fault stands, `g` its action on the island's fault. -/
theorem ictl_of_fault {i : Instr} {r : Rules} (h : Issues s i c r e) (hact : e.act ≠ [])
    (g : State → Nat → Nat → IFault → State) {f : IFault} (hf : (myIsle e kind.toNat).fault = some f) :
    perform i c r s (fun e => if e.act.isEmpty then .ok (done e e.s)
      else match (getIsle e.s kind.toNat (viewIdx e.s kind.toNat (isleIdx e kind.toNat))).fault with
        | none => .ok (ictlDone e e.s d 1)
        | some f => .ok (ictlDone e (g e.s kind.toNat (viewIdx e.s kind.toNat (isleIdx e kind.toNat)) f) d 0)) =
      .next (ictlDone e (g e.s kind.toNat (viewIdx e.s kind.toNat (isleIdx e kind.toNat)) f) d 0) := by
  refine perform_next h ?_
  rw [if_neg (by simpa using hact)]
  have hf' : (getIsle e.s kind.toNat (viewIdx e.s kind.toNat (isleIdx e kind.toNat))).fault = some f := hf
  simp only [hf']

theorem ictl_of_no_fault {i : Instr} {r : Rules} (h : Issues s i c r e) (hact : e.act ≠ [])
    (g : State → Nat → Nat → IFault → State) (hf : (myIsle e kind.toNat).fault = none) :
    perform i c r s (fun e => if e.act.isEmpty then .ok (done e e.s)
      else match (getIsle e.s kind.toNat (viewIdx e.s kind.toNat (isleIdx e kind.toNat))).fault with
        | none => .ok (ictlDone e e.s d 1)
        | some f => .ok (ictlDone e (g e.s kind.toNat (viewIdx e.s kind.toNat (isleIdx e kind.toNat)) f) d 0)) =
      .next (ictlDone e e.s d 1) := by
  refine perform_next h ?_
  rw [if_neg (by simpa using hact)]
  have hf' : (getIsle e.s kind.toNat (viewIdx e.s kind.toNat (isleIdx e kind.toNat))).fault = none := hf
  simp only [hf']

theorem exec_ictlResume_fault {f : IFault} (h : Runs s (.ictlResume c d a kind) e) (hact : e.act ≠ [])
    (hf : (myIsle e kind.toNat).fault = some f) : Machine.exec (.ictlResume c d a kind) s =
      .next (ictlDone e (rerun e.s kind.toNat (viewIdx e.s kind.toNat (isleIdx e kind.toNat)) f) d 0) :=
  ictl_of_fault h hact rerun hf

theorem exec_ictlDiscard_fault {f : IFault} (h : Runs s (.ictlDiscard c d a kind) e) (hact : e.act ≠ [])
    (hf : (myIsle e kind.toNat).fault = some f) : Machine.exec (.ictlDiscard c d a kind) s =
      .next (ictlDone e (discard e.s kind.toNat (viewIdx e.s kind.toNat (isleIdx e kind.toNat)) f) d 0) :=
  ictl_of_fault h hact discard hf

theorem exec_ictl_no_fault {i : Instr} (hi : i = .ictlResume c d a kind ∨ i = .ictlDiscard c d a kind) (h : Runs s i e)
    (hact : e.act ≠ []) (hf : (myIsle e kind.toNat).fault = none) :
    Machine.exec i s = .next (done e (writeRun e e.s d (baseRun e.kind) fun _ => 1)) := by
  obtain rfl | rfl := hi
  · exact ictl_of_no_fault h hact rerun hf
  · exact ictl_of_no_fault h hact discard hf

end

/-- R233: what RESUME leaves of a request that its class answers. -/
theorem rerun_of_served {s : State} {kind idx : Nat} {f : IFault} {p : Option Party} {n : Nat} {l : List Record} {b : Binding}
    {cls : Nat × List Word} {g : Serve} {s1 : State} {units : List (List (List Word))} (hstop : f.stopped = .request p n l)
    (hb : (getIsle s kind idx).binds.find? (fun y => y.id == f.bind) = some b)
    (hcls : classOf (getIsle s kind idx) b = some cls) (hg : serveOf kind idx cls.1 = some g)
    (hsound : ∀ r ∈ l, r.poison = false)
    (hserve : g (modIsle s kind idx fun x => { x with
      fault := none }) b p n l = .ok (s1, units)) :
    rerun s kind idx f = modIsle s1 kind idx fun x => { x with
      resps := x.resps ++ units.map fun w => ⟨b.team, p, b.id, b.cls, n, w⟩ } := by
  have hclean : recsPoison l = false := List.any_eq_false.2 fun r hr => by simp [hsound r hr]
  simp only [rerun, hstop, hb, hcls, Option.bind_some, hg, serveRequest, hclean, Bool.false_eq_true, if_false, hserve,
    respond]

/-- R233: what DISCARD leaves of a request. -/
theorem discard_of_request {s : State} {kind idx : Nat} {f : IFault} {p : Option Party} {n : Nat} {l : List Record}
    {b : Binding} (hstop : f.stopped = .request p n l)
    (hb : (getIsle s kind idx).binds.find? (fun y => y.id == f.bind) = some b) :
    discard s kind idx f = modIsle s kind idx fun x => { x with
      fault := none,
      resps := x.resps ++ (zeroUnit s (getIsle s kind idx) b).map fun w => ⟨b.team, p, b.id, b.cls, n, w⟩ } := by
  simp only [discard, hstop, hb, respond, modIsle_modIsle]

theorem zeroUnit_of_no_port {s : State} {x : Island} {b : Binding} (h : (classOf x b).bind outPort = none) :
    zeroUnit s x b = [] := by
  simp only [zeroUnit, h]

theorem zeroUnit_of_bound {s : State} {x : Island} {b o : Binding} {w : Word} {y : Queue}
    (hw : (classOf x b).bind outPort = some w) (ho : outBinding x b.team b.cls = some o)
    (hy : getQueue s o.inst o.q = some y) :
    zeroUnit s x b = [List.replicate (portUnit w) (List.replicate (qWords y.decl) 0)] := by
  simp only [zeroUnit, hw, ho, hy, Option.map_some, Option.getD_some]

/-! ### Passes -/

section
variable {c : Ctl} {d a : Code} {s t : State} {e : Env}

theorem exec_passbegin {v : BitVec 512} (h : Runs s (.passbegin c d a) e) (hact : e.act ≠ []) (hdesc : passDesc e a = .ok (t, v))
    (hnone : (getIsle t 0 (isleIdx e 0)).pass = none) (hgood : pdMalformed v = false)
    (hready : isleReady (getIsle t 0 (isleIdx e 0)) e.ctx = true) :
    Machine.exec (.passbegin c d a) s = .next (done e (writeRun e
      (modIsle { t with
        nextBind := t.nextBind + 1 } 0 (isleIdx e 0) fun x => { x with
        pass := some (passStart t.nextBind v e.ctx) }) d (baseRun e.kind) fun _ => 0)) := by
  change execPassbegin c d a s = _
  refine perform_next h ?_
  rw [if_neg (by simpa using hact)]
  simp only [hdesc, hnone, hgood, hready]
  rfl

/-- R254: the model and the statement sum the same fields of the status word. -/
theorem passWord_eq_passBits (p : Pass) (opened : Bool) : passWord p opened = passBits p opened := by
  have hlow : fromBits (fun i => if i = 0 then opened else if i = 1 then pdBinned p.desc else if i = 2 then p.susp
      else p.badrec) 4 = p.badrec.toNat * 8 + p.susp.toNat * 4 + (pdBinned p.desc).toNat * 2 + opened.toNat := by
    cases opened <;> cases pdBinned p.desc <;> cases p.susp <;> cases p.badrec <;> rfl
  rw [passWord, passBits, hlow]
  omega

theorem exec_passstat (h : Runs s (.passstat c d a) e) (hact : e.act ≠ []) :
    Machine.exec (.passstat c d a) s = .next (done e (writeRun e e.s d (baseRun e.kind) fun _ =>
      match (myIsle e 0).pass with
      | some p => passBits p true
      | none => (myIsle e 0).pstat.toNat)) := by
  change execPassstat c d a s = _
  refine perform_next h ?_
  rw [if_neg (by simpa using hact), myIsle_zero]
  cases hp : (getIsle e.s 0 (isleIdx e 0)).pass with
  | none =>
    simp only [hp]
    rfl
  | some p =>
    simp only [hp, passWord_eq_passBits]
    rfl

/-- R253: a PASSEND takes in what the input ports hold, and nothing of a binding that is none. -/
theorem get_reservedNow_of_no_input {x : Island} {b : Nat} (h : ∀ y ∈ x.binds, y.id = b → isInput x y = false) :
    Tab.get (reservedNow s x) b 0 = 0 := by
  unfold reservedNow
  refine List.foldlRecOn _ _ (motive := fun t => Tab.get t b 0 = 0) rfl fun t ht y hy => ?_
  obtain ⟨hmem, hin⟩ := List.mem_filter.1 hy
  have hne : b ≠ y.id := fun hid => Bool.false_ne_true ((h y hmem hid.symm).symm.trans hin)
  rw [Tab.get_put_other _ _ _ _ _ _ hne, ht]

theorem exec_passend {p : Pass} (h : Runs s (.passend c d a) e) (hact : e.act ≠ []) (hp : (myIsle e 0).pass = some p)
    (hctx : p.ctx = e.ctx) :
    Machine.exec (.passend c d a) s = .next (later e (modIsle e.s 0 (isleIdx e 0) fun x => { x with
      pass := some { p with
        ending := some (p.ending.getD (reservedNow e.s (myIsle e 0))) } }) (.passend p.num) []
      (outKeys e d (baseRun e.kind)) 0) := by
  change execPassend c d a s = _
  refine perform_next h ?_
  rw [myIsle_zero] at hp ⊢
  rw [if_neg (by simpa using hact)]
  simp only [hp, if_neg (not_not.2 hctx)]
  rw [modPass_of_pass hp]

theorem exec_passend_of_none (h : Runs s (.passend c d a) e) (hact : e.act ≠ [])
    (hno : ∀ p, (myIsle e 0).pass = some p → p.ctx ≠ e.ctx) :
    Machine.exec (.passend c d a) s = .next (done e (writeRun e e.s d (baseRun e.kind) fun _ => 0)) := by
  change execPassend c d a s = _
  refine perform_next h ?_
  rw [myIsle_zero] at hno
  rw [if_neg (by simpa using hact)]
  cases hp : (getIsle e.s 0 (isleIdx e 0)).pass with
  | none =>
    simp only [hp]
    rfl
  | some p =>
    simp only [hp, if_pos (hno p hp)]
    rfl

end

/-! ### RESOLVE -/

/-- R91: what an operation notes of its issue. -/
theorem later_of_lw {e : Env} {t : State} (h : t.lw = e.s.lw) (s : State) (k : OpKind) (l : List Lane)
    (d : List (Nat × Nat × Nat)) (v : Nat) : later { e with
      s := t } s k l d v = later e s k l d v := by
  simp only [later, fall, addOp, newOp, counted, h]

theorem drainCore_lw (s : State) (core : Nat) : (drainCore s core).lw = s.lw := by
  obtain ⟨t, ht, hd⟩ := drainCore_spec s core
  rw [hd, ht]

theorem passDesc_lw {e : Env} {a : Code} {t : State} {v : BitVec 512} (h : passDesc e a = .ok (t, v)) : t.lw = e.s.lw := by
  unfold passDesc at h
  dsimp only at h
  split at h
  · cases h
  · cases h
  · split at h
    · cases h
    · cases h
      rw [takenVirt_touched, drainCore_lw]

theorem exec_resolve {c : Ctl} {d a : Code} {s t : State} {e : Env} {v : BitVec 512} (h : Runs s (.resolve c d a) e)
    (hact : e.act ≠ []) (hdesc : passDesc e a = .ok (t, v)) (hgood : pdMalformed v = false)
    (hready : isleReady (getIsle t 0 (isleIdx e 0)) e.ctx = true) :
    Machine.exec (.resolve c d a) s = .next (later e t (.resolve v 0 0) [] (outKeys e d (baseRun e.kind)) 0) := by
  change execResolve c d a s = _
  refine perform_next h ?_
  rw [if_neg (by simpa using hact)]
  simp only [hdesc, hgood, hready, Bool.not_true, Bool.false_eq_true, if_false, later_of_lw (passDesc_lw hdesc)]

/-! ### QBIND -/

section
variable {c : Ctl} {d a : Code} {q : BitVec 4} {kind : BitVec 3} {slot : BitVec 4} {port : BitVec 3} {s : State} {e : Env}
  {y : Queue}

/-- R61, R447: the queue is declared, and the issuer's stage is joined to an island at one of its ends. -/
theorem queue_joins {w : Word} {stage : Nat} (h : qCKind w = 4 ∧ qCStage w = stage ∨ qPKind w = 4 ∧ qPStage w = stage) :
    (qCKind w == 4 && qCStage w == stage || qPKind w == 4 && qPStage w == stage) = true := by
  simpa using h

theorem entryTaken_spec (e : Env) (kind param : Nat) (unbind : Bool) : ∃ t, OnlyTouched e.s t ∧
    entryTaken e kind param unbind = { e with
      s := t } := by
  unfold entryTaken
  split
  · exact ⟨e.s, rfl, rfl⟩
  · exact ⟨_, takenVirt_touched .., rfl⟩

/-- R230: the binding that a QBIND makes. -/
def newBinding (e : Env) (q slot port param : Nat) (entry : BitVec 128) : Binding :=
  ⟨e.s.nextBind, e.t, e.tm.inst, q, slot, port, BitVec.ofNat 64 param, entry,
    ((getInst e.s e.tm.inst).map (·.core)).getD e.core, false⟩

/-- R229, R230: on an island of its own context a bind that finds nothing wrong changes no owner. -/
theorem bindDo_of_owned {kind q slot port param : Nat} {w : Word} {cin cout : Bool} {entry : BitVec 128}
    (howner : (getIsle e.s kind (isleIdx e kind)).owner = some e.ctx)
    (hok : bindStatus (getIsle e.s kind (isleIdx e kind)) e.ctx kind e.t (Tab.find (getCtx e.s e.ctx).images kind) slot port w
      cin cout entry = 0) : bindDo e kind q slot port param w cin cout entry =
        (modPorts { e.s with
          nextBind := e.s.nextBind + 1 } kind (isleIdx e kind) fun x => { x with
            binds := x.binds ++ [newBinding e q slot port param entry] }, 0) := by
  unfold bindDo
  simp only [hok, howner, ne_eq, not_true, false_and, if_false]
  rfl

theorem exec_qbind {entry : BitVec 128} (h : Runs s (.qbind c d a q kind slot port false) e) (hact : e.act ≠ [])
    (hy : getQueue e.s e.tm.inst q.toNat = some y) (hvalid : qValid y.decl = true)
    (hjoins : qCKind y.decl = 4 ∧ qCStage y.decl = e.tm.stage ∨ qPKind y.decl = 4 ∧ qPStage y.decl = e.tm.stage)
    (hentry : targetEntry e kind.toNat (val64 e a e.low) false = .ok entry)
    (howner : (getIsle e.s kind.toNat (isleIdx e kind.toNat)).owner = some e.ctx)
    (hok : bindStatus (getIsle e.s kind.toNat (isleIdx e kind.toNat)) e.ctx kind.toNat e.t
      (Tab.find (getCtx e.s e.ctx).images kind.toNat) slot.toNat port.toNat y.decl
      (qCKind y.decl == 4 && qCStage y.decl == e.tm.stage) (qPKind y.decl == 4 && qPStage y.decl == e.tm.stage) entry = 0) :
    ∃ t, OnlyTouched e.s t ∧ entryTaken e kind.toNat (val64 e a e.low) false = { e with
        s := t } ∧
      Machine.exec (.qbind c d a q kind slot port false) s = .next (later { e with
        s := t } (modPorts { t with
          nextBind := t.nextBind + 1 } kind.toNat (isleIdx e kind.toNat) fun x => { x with
            binds := x.binds ++ [newBinding e q.toNat slot.toNat port.toNat (val64 e a e.low) entry] }) .qbind []
          (outKeys e d 1) 0) := by
  obtain ⟨t, ht, htaken⟩ := entryTaken_spec e kind.toNat (val64 e a e.low) false
  refine ⟨t, ht, htaken, ?_⟩
  change execQbind c d a q kind slot port false s = _
  refine perform_next h ?_
  have hdo := bindDo_of_owned (e := { e with
    s := t }) (q := q.toNat) (param := val64 e a e.low) (by rw [← howner, ht.slices.sameIslands.getIsle_eq]; rfl)
    (by rw [ht.slices.sameIslands.getIsle_eq, ht]; exact hok)
  rw [if_neg (by simpa using hact), hy]
  simp only [hvalid, queue_joins hjoins, hentry, htaken, Bool.not_true, Bool.false_eq_true, if_false, hdo, ne_eq, not_true]
  have hb : newBinding { e with
      s := t } q.toNat slot.toNat port.toNat (val64 e a e.low) entry =
      newBinding e q.toNat slot.toNat port.toNat (val64 e a e.low) entry := by
    rw [ht]
    rfl
  rw [hb]
  rfl

/-- R230: the binding that an unbind names. -/
theorem unbindDo_eq {mine : Binding → Bool} {kind q slot port : Nat} (hmine : ∀ b, mine b = decide (b.team = e.t ∧
      b.inst = e.tm.inst ∧ b.q = q ∧ b.cls = slot ∧ b.port = port ∧ b.closing = false)) :
    unbindDo e kind q slot port = if (getIsle e.s kind (isleIdx e kind)).binds.any mine
      then some (modPorts e.s kind (isleIdx e kind) fun x => { x with
        binds := x.binds.map fun b => if mine b then { b with
          closing := true } else b })
      else none := by
  have hhit : ∀ b : Binding, (b.team == e.t && b.inst == e.tm.inst && b.q == q && b.cls == slot && b.port == port &&
      !b.closing) = mine b := fun b => by
    rw [hmine, Bool.eq_iff_iff]
    simp [and_assoc]
  simp only [unbindDo, mapIf, hhit]

theorem exec_unbind (h : Runs s (.qbind c d a q kind slot port true) e) (hact : e.act ≠ [])
    (hy : getQueue e.s e.tm.inst q.toNat = some y) (hvalid : qValid y.decl = true)
    (hjoins : qCKind y.decl = 4 ∧ qCStage y.decl = e.tm.stage ∨ qPKind y.decl = 4 ∧ qPStage y.decl = e.tm.stage) :
    Machine.exec (.qbind c d a q kind slot port true) s = .next (
      match unbindDo e kind.toNat q.toNat slot.toNat port.toNat with
      | none => done e (writeRun e e.s d 1 fun _ => 6)
      | some t => later e t .qbind [] (outKeys e d 1) 0) := by
  change execQbind c d a q kind slot port true s = _
  refine perform_next h ?_
  have hentry : targetEntry e kind.toNat (val64 e a e.low) true = .ok 0 := by simp [targetEntry]
  have htaken : entryTaken e kind.toNat (val64 e a e.low) true = e := by simp [entryTaken]
  rw [if_neg (by simpa using hact), hy]
  simp only [hvalid, queue_joins hjoins, hentry, htaken, Bool.not_true, Bool.false_eq_true, if_false, if_true]
  cases unbindDo e kind.toNat q.toNat slot.toNat port.toNat <;> rfl

end

/-! ### ILOAD -/

theorem OnlyCaches.refl (s : State) : OnlyCaches s s := rfl

theorem portRead_only (s : State) (core : Nat) (p : Phys) (n : Nat) : OnlyCaches s (portRead s core p n).1 := by
  unfold portRead readMem
  dsimp only
  split
  · exact readSlice_only ..
  · split
    · rfl
    · exact readSlice_only ..

theorem coreBytes_only (s : State) (ctx core va n : Nat) : OnlyCaches s (coreBytes s ctx core va n).1 := by
  unfold coreBytes
  refine List.foldlRecOn _ _ (motive := fun (a : State × List Byte × Bool) => OnlyCaches s a.1) (.refl s)
    fun a ha x _ => ?_
  split
  · exact (ha.trans (touchTlb_only ..)).trans (portRead_only ..)
  · exact ha

theorem drainCore_ctxs (s : State) (core : Nat) : (drainCore s core).ctxs = s.ctxs := by
  obtain ⟨t, ht, hd⟩ := drainCore_spec s core
  rw [hd, ht]

/-- R203, R306: the barrier that a handle operand names. -/
theorem meBar_of_handle {e : Env} {b : Code} {bar : Option BarRef} (h : handle e b = 0 ∧ bar = none ∨
      ∃ r x, bar = some r ∧ Holds e.s e.tm e.core (handle e b) r x ∧ x.inval = false) : meBar e b false = .ok bar := by
  obtain ⟨hzero, rfl⟩ | ⟨r, x, rfl, hholds, hvalid⟩ := h
  · exact if_pos hzero
  · have hnamed : barValid e.s e.tm e.core (val e b e.low % 2 ^ 32) = some r := barValid_of_holds hholds hvalid
    have hnz : val e b e.low % 2 ^ 32 ≠ 0 := hholds.handle_ne_zero
    simp only [meBar, if_neg hnz, hnamed]
    rfl

section
variable {c : Ctl} {d a b g : Code} {kind : BitVec 3} {s : State} {e : Env}

/-- R153, R230: the state that an ILOAD reads its image in. -/
def iloadFrom (e : Env) : State := if e.tm.pair then drainCore e.s e.core else e.s

theorem exec_iload {ps : List (Nat × Nat × Phys)} {bar : Option BarRef} (h : Runs s (.iload c d a b g kind) e)
    (hact : e.act ≠ []) (hrights : hasRights e = true) (hbar : meBar e b false = .ok bar)
    (hpages : rangePages (val e g e.low % 2 ^ 32 / 4096 + 2) e .load (val64 e a e.low) (val e g e.low % 2 ^ 32) = .ok ps)
    {t : State} {l : List Byte} {bad : Bool}
    (hread : coreBytes (iloadFrom e) e.ctx e.core (val64 e a e.low) (val e g e.low % 2 ^ 32) = (t, l, bad)) :
    Machine.exec (.iload c d a b g kind) s = .next (later e (barTaken t bar) (.iload e.s.tick kind.toNat
        (BitVec.ofNat 64 (val64 e a e.low)) (val e g e.low % 2 ^ 32) l bad none bar) [] (outKeys e d 1) 0) := by
  change execIload c d a b g kind s = _
  refine perform_next h ?_
  rw [iloadFrom] at hread
  rw [if_neg (by simpa using hact)]
  simp only [hrights, hpages, hbar, hread, Bool.not_true, Bool.false_eq_true, if_false]
  cases bar <;> rfl

end

/-! ### The statement -/

/-- Settles O48: the lemmas above say what each instruction comes to; RESUME and DISCARD are `rerun_of_served` and
`discard_of_request`, the bytes of ILOAD `coreBytes_eq_seen`. -/
theorem islandInstructionsAct : Obligations.IslandInstructionsAct := by
  unfold Obligations.IslandInstructionsAct
  refine ⟨?state, ?address, ?noFault, ?resume, ?discard, ?iload, ?bytes, ?bind, ?unbind, ?begin, ?stat, ?passend, ?noPass,
    ?resolve⟩
  case state => exact fun _ _ _ _ _ _ h hact => exec_ictlState h hact
  case address =>
    intro c d a kind s e h hact
    refine ⟨_, exec_ictlFaultAddress h hact, fun hf => ?_, fun f hf => ?_⟩ <;> rw [hf] <;> rfl
  case noFault => exact fun _ _ _ _ _ _ _ hi h hact hf => exec_ictl_no_fault hi h hact hf
  case resume =>
    rintro c d a kind s e f p n l b cls g _ s1 units h hact rfl hf hstop hb hcls hg hsound hserve
    rw [exec_ictlResume_fault h hact hf, rerun_of_served hstop hb hcls hg hsound hserve]
    rfl
  case discard =>
    intro c d a kind s e f p n l b h hact hf hstop hb
    refine ⟨zeroUnit e.s (myIsle e kind.toNat) b, ?_, zeroUnit_of_no_port, fun w o y => zeroUnit_of_bound⟩
    rw [exec_ictlDiscard_fault h hact hf, discard_of_request hstop hb]
    rfl
  case iload =>
    intro c d a b g kind s e ps bar h hact hrights hbar hpages
    obtain ⟨t, l, bad, hread⟩ : ∃ t l bad, coreBytes (iloadFrom e) e.ctx e.core (val64 e a e.low)
        (val e g e.low % 2 ^ 32) = (t, l, bad) := ⟨_, _, _, rfl⟩
    have hstate : (coreBytes (iloadFrom e) e.ctx e.core (val64 e a e.low) (val e g e.low % 2 ^ 32)).1 = t :=
      congrArg Prod.fst hread
    have honly : OnlyCaches (iloadFrom e) t := hstate ▸ coreBytes_only ..
    have hfrom : (iloadFrom e).teams = e.s.teams ∧ (iloadFrom e).ctxs = e.s.ctxs := by
      unfold iloadFrom
      split
      · exact ⟨drainCore_teams .., drainCore_ctxs ..⟩
      · exact ⟨rfl, rfl⟩
    refine ⟨t, l, bad, ?_, hread.symm, ?_, ?_⟩
    · rw [exec_iload h hact hrights (meBar_of_handle hbar) hpages hread]
      cases bar <;> rfl
    · rw [honly, hfrom.1]
    · rw [honly, hfrom.2]
  case bytes => exact fun _ _ _ _ _ _ h => coreBytes_eq_seen h
  case bind =>
    intro c d a q kind slot port s e y entry h hact hy hvalid hjoins hentry howner hok
    obtain ⟨t, ht, htaken, hexec⟩ := exec_qbind h hact hy hvalid hjoins hentry howner hok
    refine ⟨newBinding e q.toNat slot.toNat port.toNat (val64 e a e.low) entry, _, t, htaken.symm, rfl, ht.touchedOnly, hexec,
      rfl, rfl, rfl, rfl, rfl, rfl, rfl, rfl, rfl⟩
  case unbind =>
    intro c d a q kind slot port s e y mine h hact hy hvalid hjoins hmine
    rw [exec_unbind h hact hy hvalid hjoins, unbindDo_eq hmine]
    by_cases hany : ∃ b ∈ (getIsle e.s kind.toNat (isleIdx e kind.toNat)).binds, mine b = true
    · rw [if_pos hany, if_pos (List.any_eq_true.2 hany)]
    · rw [if_neg hany, if_neg fun h => hany (List.any_eq_true.1 h)]
  case begin => exact fun _ _ _ _ _ _ _ h hact hdesc hnone hgood hready => exec_passbegin h hact hdesc hnone hgood hready
  case stat =>
    intro c d a s e h hact
    exact (exec_passstat h hact).trans rfl
  case passend =>
    intro c d a s e p h hact hp hctx
    refine ⟨_, exec_passend h hact hp hctx, fun z hz => by rw [hz]; rfl, fun hnone b hb => ?_⟩
    rw [hnone]
    exact get_reservedNow_of_no_input hb
  case noPass => exact fun _ _ _ _ _ h hact hno => exec_passend_of_none h hact hno
  case resolve => exact fun _ _ _ _ _ _ _ h hact hdesc hgood hready => exec_resolve h hact hdesc hgood hready

end Sys2Proof.Machine
end

section
/-! The layer of O49 and O50: which byte of memory a write at the slices leaves where. -/

namespace Sys2Proof.Machine

/-! ### Bytes placed in a sector -/

theorem testBit_placeBytes (off : Nat) (l : List Byte) (i : Nat) :
    (placeBytes off l).1.testBit i = decide (off ≤ i ∧ i < off + l.length) := by
  rw [placeBytes, Nat.testBit_two_pow_mul, Nat.testBit_two_pow_sub_one, Bool.eq_iff_iff]
  simp only [Bool.and_eq_true, decide_eq_true_eq]
  omega

theorem length_placeBytes {off : Nat} {l : List Byte} (h : off + l.length ≤ 32) : (placeBytes off l).2.length = 32 := by
  simp only [placeBytes, List.length_append, List.length_replicate]
  omega

theorem getD_placeBytes {off i : Nat} {l : List Byte} (h : i < l.length) : (placeBytes off l).2.getD (off + i) 0 = l.getD i 0 := by
  have hoff : off + i < (List.replicate off 0#8 ++ l).length := by simpa using h
  rw [placeBytes, List.getD_append _ _ _ _ hoff, List.getD_append_right _ _ _ _ (by simp)]
  simp

/-! ### One sector -/

/-- R139, R155: a write at a slice changes the bytes of its sector that its mask names. -/
theorem cellGet_sliceWrite_other {s : State} {ctx k mask a : Nat} {l : List Byte} {bad : Bool}
    (h : a / 32 ≠ k ∨ mask.testBit (a % 32) = false) : cellGet (sliceWrite s ctx k mask l bad).mem a = cellGet s.mem a := by
  unfold sliceWrite
  dsimp only
  split
  · rfl
  split
  · rw [raiseCtx_mem, linkServed_mem]
  simp only [sectorBytes, scDirty_mem, movedSector_mem]
  have hlen := length_mergeBytes mask l (cellsGet s.mem (32 * k) 32)
  rw [length_cellsGet] at hlen
  by_cases hin : 32 * k ≤ a ∧ a < 32 * k + (mergeBytes mask l (cellsGet s.mem (32 * k) 32)).length
  · have hbit := h.resolve_left (by omega)
    obtain ⟨i, rfl⟩ : ∃ i, a = 32 * k + i := ⟨a - 32 * k, by omega⟩
    rw [show (32 * k + i) % 32 = i by omega] at hbit
    rw [cellGet_cellsPut_same _ _ _ _ (by omega), getD_mergeBytes (by omega) (by rw [length_cellsGet]; omega), hbit,
      if_neg Bool.false_ne_true, getD_cellsGet _ _ (by omega)]
  · exact cellGet_cellsPut_other _ _ _ _ (by omega)

theorem cellGet_sliceWrite_same {s : State} {ctx k mask i : Nat} {l : List Byte} {bad : Bool} (hl : l.length = 32)
    (hi : i < 32) (hlink : linkRefuses s (32 * k) = false) (hbit : mask.testBit i = true) :
    cellGet (sliceWrite s ctx k mask l bad).mem (32 * k + i) = l.getD i 0 := by
  have hmask : mask ≠ 0 := by
    rintro rfl
    simp at hbit
  unfold sliceWrite
  dsimp only
  rw [if_neg hmask, hlink, if_neg Bool.false_ne_true]
  simp only [sectorBytes, scDirty_mem, movedSector_mem]
  rw [cellGet_cellsPut_same _ _ _ _ (by rw [length_mergeBytes, length_cellsGet]; omega),
    getD_mergeBytes (by omega) (by rwa [length_cellsGet]), hbit, if_pos rfl]

/-! ### A range of bytes -/

theorem mem_sectorPieces {fuel a n off : Nat} {x : Nat × Nat} (h : x ∈ sectorPieces fuel a n off) :
    off ≤ x.1 ∧ x.1 + x.2 ≤ off + n ∧ (a + (x.1 - off)) % 32 + x.2 ≤ 32 := by
  induction fuel generalizing a n off with
  | zero => simp [sectorPieces] at h
  | succ k ih =>
    rw [sectorPieces] at h
    split at h
    · simp at h
    obtain rfl | h := List.mem_cons.1 h
    · dsimp only
      omega
    · obtain ⟨hlo, hhi, hin⟩ := ih h
      rw [show a + min n (32 - a % 32) + (x.1 - (off + min n (32 - a % 32))) = a + (x.1 - off) by omega] at hin
      omega

theorem cellGet_physPut_other {s : State} {ctx pa a : Nat} {l : List Byte} (h : a < pa ∨ pa + l.length ≤ a) :
    cellGet (physPut s ctx pa l).mem a = cellGet s.mem a := by
  unfold physPut
  dsimp only
  refine List.foldlRecOn _ _ (motive := fun t : State => cellGet t.mem a = cellGet s.mem a) rfl fun t ht x hx => ?_
  have hpiece := mem_sectorPieces hx
  have hlen := List.length_take_le (memCap s - pa) l
  have hlen' := List.length_take_le x.2 ((l.take (memCap s - pa)).drop x.1)
  refine (cellGet_sliceWrite_other ?_).trans ht
  refine or_iff_not_imp_left.2 fun hk => ?_
  rw [testBit_placeBytes, decide_eq_false_iff_not]
  have hle := List.length_take_le' (memCap s - pa) l
  omega

end Sys2Proof.Machine
end

section
/-! O50: images, responses and faults of islands. -/

namespace Sys2Proof.Machine

/-! ### Updates of islands alone -/

theorem sameButIslands.refl (s : State) : sameButIslands s s := rfl

theorem sameButIslands.trans {s t u : State} (h : sameButIslands s t) (k : sameButIslands t u) : sameButIslands s u := by
  unfold sameButIslands at *
  rw [← h, ← k]

theorem setIsle_sameBut (s : State) (kind idx : Nat) (x : Island) : sameButIslands s (setIsle s kind idx x) := by
  unfold setIsle
  split <;> rfl

theorem modIsle_sameBut (s : State) (kind idx : Nat) (f : Island → Island) : sameButIslands s (modIsle s kind idx f) :=
  setIsle_sameBut ..

theorem sameButIslands.mem_eq {s t : State} (h : sameButIslands s t) : t.mem = s.mem := by rw [← h]

theorem sameButIslands.getCtx_eq {s t : State} (h : sameButIslands s t) (c : Nat) : getCtx t c = getCtx s c := by rw [← h]; rfl

theorem sameButIslands.getCore_eq {s t : State} (h : sameButIslands s t) (c : Nat) : getCore t c = getCore s c := by
  rw [← h]
  rfl

theorem sameButIslands.getQueue_eq {s t : State} (h : sameButIslands s t) (i q : Nat) : getQueue t i q = getQueue s i q := by
  rw [← h]
  rfl

/-! ### The image set's area -/

theorem length_xtsBlocks (ks : List Nat) (t : Nat) (l : List (List Byte)) : (xtsBlocks ks t l).length = 16 * l.length := by
  induction l generalizing t with
  | nil => rfl
  | cons b r ih =>
    rw [xtsBlocks, List.length_append, length_bytesOf, ih, List.length_cons]
    omega

theorem length_xtsSector (enc : Bool) (k1 k2 : List Byte) (tweak : Nat) (l : List Byte) :
    (xtsSector enc k1 k2 tweak l).length = 32 := length_xtsBlocks ..

theorem length_sealStore_le (key : List Byte) (pa : Nat) (l : List Byte) : (sealStore key pa l).length ≤ l.length := by
  have hsum : ∀ r : List Nat, ((r.map fun k => xtsSector true key key (pa / 32 + k) ((l.drop (32 * k)).take 32)).flatten).length =
      32 * r.length := by
    intro r
    induction r with
    | nil => rfl
    | cons k r ih =>
      rw [List.map_cons, List.flatten_cons, List.length_append, ih, length_xtsSector, List.length_cons]
      omega
  rw [sealStore, hsum, length_upto]
  omega

/-- R228, R304: what the HKC keeps for a context stands within the area. -/
theorem storePlan_within (s : State) (size limit n : Nat) (h : (storePlan s size limit n).2 ≠ []) :
    (storePlan s size limit n).1 + (storePlan s size limit n).2.length ≤ size := by
  have hpos := List.length_pos_iff.2 h
  unfold storePlan at *
  dsimp only at *
  have hlen := List.length_take_le' ((List.take (min (size - (Config.freeStore s.tick n).1 / 4096 * 4096) limit)
    (Config.freeStore s.tick n).2).length / 4096 * 4096) (List.take (min (size - (Config.freeStore s.tick n).1 / 4096 * 4096) limit)
    (Config.freeStore s.tick n).2)
  have hlim := List.length_take_le (min (size - (Config.freeStore s.tick n).1 / 4096 * 4096) limit) (Config.freeStore s.tick n).2
  omega

theorem cellGet_storeWrite_other {s : State} {c base size limit n a : Nat} (h : a < base ∨ base + size ≤ a) :
    cellGet (storeWrite s c base size limit n).mem a = cellGet s.mem a := by
  refine cellGet_physPut_other (or_iff_not_imp_left.2 fun hlo => ?_)
  have hseal := length_sealStore_le (imgKey s c) (base + (storePlan s size limit n).1) (storePlan s size limit n).2
  by_cases hnil : (storePlan s size limit n).2 = []
  · rw [hnil] at hseal ⊢
    rw [List.length_nil] at hseal
    omega
  · have := storePlan_within s size limit n hnil
    omega

/-! ### An entry of the image set is filled -/

/-- R229: an empty island of the context starts to load. -/
def startLoad (ctx : Nat) (img : Image) (x : Island) : Island :=
  if x.owner = some ctx ∧ x.image = none ∧ x.loading = none then { x with loading := some img } else x

/-- R229: the islands of the kind, of those named, start to load. -/
def startLoads (ctx kind : Nat) (img : Image) (l : List (Nat × Nat)) (s : State) : State :=
  l.foldl (fun s k => if k.1 = kind then modIsle s k.1 k.2 (startLoad ctx img) else s) s

/-- R228: the image set once an entry is filled and copied to the island store. -/
def imageSet (s : State) (ctx kind : Nat) (img : Image) : State :=
  modCtx (storeWrite s ctx (forceReg s ctx 0x330) (forceReg s ctx 0x338) (forceReg s ctx 0x338) kind) ctx fun x =>
    { x with images := Tab.set x.images kind img }

theorem fillImage_eq (s : State) (ctx kind : Nat) (img : Image) :
    fillImage s ctx kind img = startLoads ctx kind img (allIsles s) (imageSet s ctx kind img) := rfl

theorem imageSet_sameIslands (s : State) (ctx kind : Nat) (img : Image) : SameIslands s (imageSet s ctx kind img) :=
  ⟨rfl, rfl, rfl, rfl⟩

theorem images_imageSet (s : State) (ctx kind : Nat) (img : Image) :
    Tab.find (getCtx (imageSet s ctx kind img) ctx).images kind = some img := by
  rw [imageSet, modCtx, getCtx_setCtx]
  exact Tab.find_set_same ..

theorem startLoads_sameBut (ctx kind : Nat) (img : Image) (l : List (Nat × Nat)) (s : State) :
    sameButIslands s (startLoads ctx kind img l s) :=
  List.foldlRecOn l _ (motive := sameButIslands s) (.refl s) fun t ht k _ => by
    split
    · exact ht.trans (modIsle_sameBut ..)
    · exact ht

theorem startLoad_step {s : State} {ctx kind idx : Nat} {img : Image} (k : Nat × Nat) {P : Island → Prop}
    (hP : ∀ x, P x → P (startLoad ctx img x)) (h : P (getIsle s kind idx)) :
    P (getIsle (if k.1 = kind then modIsle s k.1 k.2 (startLoad ctx img) else s) kind idx) := by
  split
  next hk =>
    obtain ⟨kk, j⟩ := k
    obtain rfl : kk = kind := hk
    by_cases hj : j = idx
    · rw [← hj] at h ⊢
      rw [getIsle_modIsle_same]
      exact hP _ h
    · rwa [getIsle_modIsle_other _ _ (.inr (Ne.symm hj))]
  next => exact h

/-- R229: an empty island of the kind that the context owns loads the image. -/
theorem startLoads_loading {s : State} {ctx kind idx : Nat} {img : Image} {l : List (Nat × Nat)} (hl : (kind, idx) ∈ l)
    (howner : (getIsle s kind idx).owner = some ctx) (himage : (getIsle s kind idx).image = none)
    (hload : (getIsle s kind idx).loading = none) :
    (getIsle (startLoads ctx kind img l s) kind idx).loading = some img := by
  obtain ⟨l₁, l₂, rfl⟩ := List.append_of_mem hl
  unfold startLoads
  rw [List.foldl_append, List.foldl_cons]
  refine List.foldlRecOn l₂ _ (motive := fun t : State => (getIsle t kind idx).loading = some img) ?_
    fun t ht k _ => startLoad_step (P := fun x => x.loading = some img) k (fun x hx => ?_) ht
  · have hbefore := List.foldlRecOn l₁ (fun s (k : Nat × Nat) => if k.1 = kind then modIsle s k.1 k.2 (startLoad ctx img) else s)
      (motive := fun t : State => (getIsle t kind idx).owner = some ctx ∧ (getIsle t kind idx).image = none ∧
        ((getIsle t kind idx).loading = none ∨ (getIsle t kind idx).loading = some img)) (b := s) ⟨howner, himage, .inl hload⟩
      fun t ht k _ => startLoad_step (P := fun x => x.owner = some ctx ∧ x.image = none ∧
        (x.loading = none ∨ x.loading = some img)) k (fun x hx => ?_) ht
    · obtain ⟨howner, himage, hload⟩ := hbefore
      rw [if_pos rfl, getIsle_modIsle_same, startLoad]
      obtain hload | hload := hload <;> simp [howner, himage, hload]
    · obtain ⟨howner, himage, hload⟩ := hx
      unfold startLoad
      split
      · exact ⟨howner, himage, .inr rfl⟩
      · exact ⟨howner, himage, hload⟩
  · simp [startLoad, hx]

theorem images_fillImage (s : State) (ctx kind : Nat) (img : Image) :
    Tab.find (getCtx (fillImage s ctx kind img) ctx).images kind = some img := by
  rw [fillImage_eq, (startLoads_sameBut ..).getCtx_eq, images_imageSet]

theorem cellGet_fillImage_other {s : State} {ctx kind a : Nat} {img : Image}
    (h : a < forceReg s ctx 0x330 ∨ forceReg s ctx 0x330 + forceReg s ctx 0x338 ≤ a) :
    cellGet (fillImage s ctx kind img).mem a = cellGet s.mem a := by
  rw [fillImage_eq, (startLoads_sameBut ..).mem_eq]
  exact cellGet_storeWrite_other h

theorem fillImage_loading {s : State} {ctx kind idx : Nat} {img : Image} (hl : (kind, idx) ∈ allIsles s)
    (howner : (getIsle s kind idx).owner = some ctx) (himage : (getIsle s kind idx).image = none)
    (hload : (getIsle s kind idx).loading = none) : (getIsle (fillImage s ctx kind img) kind idx).loading = some img := by
  have hsame := (imageSet_sameIslands s ctx kind img).getIsle_eq kind idx
  rw [fillImage_eq]
  exact startLoads_loading hl (by rw [hsame, howner]) (by rw [hsame, himage]) (by rw [hsame, hload])

/-! ### The end of an ILOAD -/

theorem completeOp_only (s : State) (p : Party) (o : Op) (v : Nat) : OnlyWork s (completeOp s p o v) := by
  unfold completeOp
  exact (putRegs_only ..).trans (modCom_only ..)

section
variable {ctx : Nat} {s : State} {p : Party} {o : Op} {seq kind : Nat} {base : DWord} {len : Nat} {l : List Byte}

theorem exec_iloadComplete_failed {bad : Bool} (ho : oldestIload s ctx = some (p, o))
    (hk : o.kind = .iload seq kind base len l bad none none)
    (hv : imageStatus kind base.toNat len l bad (Tab.find (getCtx s ctx).images kind) ≠ 0) :
    Machine.exec (.iloadComplete ctx) s = .next (completeOp s p o
      (imageStatus kind base.toNat len l bad (Tab.find (getCtx s ctx).images kind))) := by
  change execIloadComplete ctx s = _
  simp only [execIloadComplete, ho, hk, if_pos hv]
  rfl

/-- R229, R230: an image that verifies fills its entry; the rest of the step is the issuer's. -/
theorem exec_iloadComplete_filled (ho : oldestIload s ctx = some (p, o))
    (hk : o.kind = .iload seq kind base len l false none none) (hold : Tab.find (getCtx s ctx).images kind = none)
    (hv : imageStatus kind base.toNat len l false none = 0) :
    ∃ u, Machine.exec (.iloadComplete ctx) s = .next u ∧ OnlyWork (fillImage s ctx kind (imageOf l)) u := by
  change ∃ u, execIloadComplete ctx s = _ ∧ _
  simp only [execIloadComplete, ho, hk, hold, hv, ne_eq, not_true, if_false, Option.isNone_none, if_true]
  split
  · exact ⟨_, rfl, modCom_only ..⟩
  · exact ⟨_, rfl, completeOp_only ..⟩

end

/-! ### Deliveries -/

theorem respOut_of_own {s : State} {kind idx : Nat} {r : Response} {o : Binding}
    (h : outBinding (getIsle s kind idx) r.team r.cls = some o) : respOut s kind idx r = some o := by
  rw [respOut, bindIsles, List.findSome?_cons, h]

theorem respIn_of_own {s : State} {kind idx : Nat} {r : Response} {b : Binding}
    (h : (getIsle s kind idx).binds.find? (fun y => y.id == r.inB) = some b) : respIn s kind idx r = some b := by
  rw [respIn, bindIsles, List.findSome?_cons, h]

/-- R57, R231: the records of one unit stand last, reserved together. -/
theorem foldl_pushRec (ws : List (List Word)) (dest : Option Party) (unit : Nat) (poison : Bool) (after : Nat) (o : Origin)
    {z : Queue} (hz : z.cclosed = false) :
    ∃ new, (ws.foldl (fun y w => pushRec y w none dest unit poison after o) z).recs = z.recs ++ new ∧
      new.map (·.words) = ws.map (fitWords (qWords z.decl)) ∧ ∀ x ∈ new, x.vis = false ∧ x.tag = none := by
  induction ws generalizing z with
  | nil => exact ⟨[], by simp⟩
  | cons w ws ih =>
    have hpush : pushRec z w none dest unit poison after o = { z with
        recs := z.recs ++ [⟨fitWords (qWords z.decl) w, false, poison, none, dest, unit, after, 0, o⟩] } := by
      rw [pushRec, if_neg (by simp [hz])]
    obtain ⟨new, hrecs, hwords, hnew⟩ := ih (z := pushRec z w none dest unit poison after o) (by rw [hpush]; exact hz)
    rw [hpush] at hrecs hwords
    refine ⟨⟨fitWords (qWords z.decl) w, false, poison, none, dest, unit, after, 0, o⟩ :: new, ?_, ?_, ?_⟩
    · rw [List.foldl_cons, hpush, hrecs, List.append_assoc, List.singleton_append]
    · rw [List.map_cons, List.map_cons, hwords]
    · rintro x (_ | ⟨_, hx⟩)
      · exact ⟨rfl, rfl⟩
      · exact hnew x hx

theorem modQueue_sameIslands (s : State) (i q : Nat) (f : Queue → Queue) : SameIslands s (modQueue s i q f) :=
  modInst_sameIslands ..

theorem exec_deliver {s : State} {kind idx i : Nat} {r : Response} (h : deliverable s kind idx = [(i, r)]) :
    Machine.exec (.islandResponseDeliver kind idx) s = .next (deliver s kind idx i r) := by
  change execIslandResponseDeliver kind idx s = _
  simp only [execIslandResponseDeliver, h, List.length_singleton, Nat.max_self, Nat.mod_one, List.getElem?_cons_zero]

theorem deliver_spec {s : State} {kind idx i : Nat} {r : Response} {o b : Binding} {z : Queue}
    (ho : respOut s kind idx r = some o) (hb : respIn s kind idx r = some b) (hz : getQueue s o.inst o.q = some z)
    (hopen : z.cclosed = false) :
    (getIsle (deliver s kind idx i r) kind idx).resps = (getIsle s kind idx).resps.eraseIdx i ∧
    ∃ y, getQueue (deliver s kind idx i r) o.inst o.q = some y ∧ ∃ new, y.recs = z.recs ++ new ∧
      new.map (·.words) = r.words.map (fitWords (qWords z.decl)) ∧ ∀ x ∈ new, x.vis = false ∧ x.tag = none := by
  unfold deliver
  rw [ho, hb]
  dsimp only
  refine ⟨?_, _, getQueue_modQueue_same _ (((modIsle_sameBut ..).getQueue_eq ..).trans hz), foldl_pushRec _ _ _ _ _ _ hopen⟩
  rw [(modQueue_sameIslands ..).getIsle_eq, getIsle_modIsle_same, dropAt]

/-! ### Faults -/

theorem isleDetail_lt {kind : Nat} (f : IFault) (h : kind ≤ 3) : isleDetail kind f < 2 ^ 32 := by
  have hcode : f.code.toNat < 256 := f.code.isLt
  norm_num [isleDetail]
  omega

theorem exec_islandFault {s : State} {kind idx : Nat} {f : IFault} (hf : (getIsle s kind idx).fault = some f)
    (hr : f.raised = false) : Machine.exec (.islandFault kind idx) s = .next (queueTrap
      (modIsle s kind idx fun x => { x with
        fault := some { f with
          raised := true } }) f.core
      ⟨.island kind idx, f.team, ⟨tcIsland, BitVec.ofNat 32 (isleDetail kind f), 0, f.va⟩⟩) := by
  change execIslandFault kind idx s = _
  simp only [execIslandFault, hf, hr, Bool.false_eq_true, if_false]

theorem queueTrap_only (s : State) (core : Nat) (x : TrapEntry) : OnlyWork s (queueTrap s core x) := rfl

/-! ### The statement -/

/-- Settles O50: one lemma for each event, above. -/
theorem islandEventsAct : Obligations.IslandEventsAct := by
  unfold Obligations.IslandEventsAct
  refine ⟨?failed, ?filled, ?held, ?delivered, ?fault⟩
  case failed =>
    rintro ctx s p o seq kind base len l bad n ho hk rfl hv
    exact exec_iloadComplete_failed ho hk hv
  case filled =>
    intro ctx s p o seq kind base len l ho hk hold
    by_cases hv : imageStatus kind base.toNat len l false none = 0
    · obtain ⟨u, hexec, hwork⟩ := exec_iloadComplete_filled ho hk hold hv
      refine ⟨u, hexec, fun _ a ha => ?_, fun _ => ⟨?_, fun idx howner himage hl hload _ => ?_⟩⟩
      · rw [hwork]
        exact cellGet_fillImage_other ha
      · rw [hwork]
        exact images_fillImage ..
      · rw [hwork.sameIslands.getIsle_eq]
        exact fillImage_loading hl howner himage hload
    · have hv' := hv
      rw [← hold] at hv'
      refine ⟨_, exec_iloadComplete_failed ho hk hv', fun _ a _ => ?_, fun h => absurd h hv⟩
      rw [completeOp_mem]
  case held =>
    intro kind idx s i hi
    change execIslandLoad kind idx s = _
    rw [execIslandLoad, hi]
    rfl
  case delivered =>
    intro kind idx i s r o b z hl ho hb hz hopen
    obtain ⟨hresps, y, hy, hnew⟩ := deliver_spec (respOut_of_own ho) (respIn_of_own hb) hz hopen
    exact ⟨_, y, exec_deliver hl, hresps, hy, hnew⟩
  case fault =>
    intro kind idx s f hkind hf hr
    refine ⟨_, ⟨.island kind idx, f.team, tcIsland, BitVec.ofNat 32 (isleDetail kind f), 0, f.va⟩, exec_islandFault hf hr, ?_, ?_,
      rfl, rfl, rfl, rfl, ?_, ?_⟩
    · rw [(queueTrap_only ..).sameIslands.getIsle_eq, getIsle_modIsle_same]
    · rw [queueTrap, getCore_modCore, (modIsle_sameBut ..).getCore_eq]
    · rw [BitVec.toNat_ofNat, Nat.mod_eq_of_lt (isleDetail_lt f hkind), isleDetail]
    · exact modIsle_mem ..

end Sys2Proof.Machine
end

section
/-! O49: a class takes a unit and answers it, or stops with its records kept. -/

namespace Sys2Proof.Machine

/-! ### Updates of the islands of one port set -/

theorem SameIslands.trans {s t u : State} (h : SameIslands s t) (k : SameIslands t u) : SameIslands s u := by
  obtain ⟨hraster, hsampler, hray, hblend⟩ := h
  obtain ⟨kraster, ksampler, kray, kblend⟩ := k
  exact ⟨kraster.trans hraster, ksampler.trans hsampler, kray.trans hray, kblend.trans hblend⟩

theorem takeOrder_sameIslands (s : State) (kind idx : Nat) (l : List Record) : SameIslands s (takeOrder s kind idx l) := by
  unfold takeOrder
  split <;> exact ⟨rfl, rfl, rfl, rfl⟩

theorem unitTake_sameIslands (s : State) (kind idx : Nat) (x : Island) (b : Binding) (p : Option Party) :
    SameIslands s (unitTake s kind idx x b p).1 := by
  unfold unitTake
  dsimp only
  split
  · exact (modQueue_sameIslands ..).trans (takeOrder_sameIslands ..)
  · exact ⟨rfl, rfl, rfl, rfl⟩

/-- What an update of an island keeps of it, it keeps of every island. -/
theorem getIsle_modIsle_keeps {α : Type} {g : Island → α} {f : Island → Island} (h : ∀ x, g (f x) = g x) (s : State)
    (kind idx k j : Nat) : g (getIsle (modIsle s kind idx f) k j) = g (getIsle s k j) := by
  by_cases hk : kindNo k = kindNo kind ∧ j = idx
  · obtain ⟨hkind, rfl⟩ := hk
    have hsame : ∀ t : State, getIsle t k j = getIsle t kind j := fun t => by
      match kind, k with
      | 0, 0 | 1, 1 | 2, 2 | _ + 3, _ + 3 => rfl
      | 0, 1 | 0, 2 | 0, _ + 3 | 1, 0 | 1, 2 | 1, _ + 3 | 2, 0 | 2, 1 | 2, _ + 3 | _ + 3, 0 | _ + 3, 1 | _ + 3, 2 =>
        simp [kindNo] at hkind
    rw [hsame, hsame s, getIsle_modIsle_same, h]
  · rw [getIsle_modIsle_other]
    omega

theorem getIsle_modPorts_keeps {α : Type} {g : Island → α} {f : Island → Island} (h : ∀ x, g (f x) = g x) (s : State)
    (kind idx k j : Nat) : g (getIsle (modPorts s kind idx f) k j) = g (getIsle s k j) :=
  List.foldlRecOn (portSet kind idx) _ (motive := fun t : State => g (getIsle t k j) = g (getIsle s k j)) rfl
    fun t ht i _ => (getIsle_modIsle_keeps h t kind i k j).trans ht

theorem requested_resps (s : State) (kind idx : Nat) (y : Binding) (p : Option Party) (k j : Nat) :
    (getIsle (requested s kind idx y p) k j).resps = (getIsle s k j).resps := by
  rw [requested, getIsle_modPorts_keeps (g := Island.resps), (unitTake_sameIslands ..).getIsle_eq]
  exact fun _ => rfl

theorem requested_mem (s : State) (kind idx : Nat) (y : Binding) (p : Option Party) : (requested s kind idx y p).mem = s.mem := by
  rw [requested, modPorts_mem, unitTake_mem]

theorem passCount_sameBut (s : State) (q b : Nat) : sameButIslands s (passCount s q b) := modIsle_sameBut ..

theorem passCount_keeps {α : Type} {g : Island → α} (h : ∀ (x : Island) (v : Option Pass), g { x with
    pass := v } = g x) (s : State) (q b k j : Nat) : g (getIsle (passCount s q b) k j) = g (getIsle s k j) :=
  getIsle_modIsle_keeps (fun x => h x _) s 0 q k j

/-! ### A unit is taken -/

/-- R231, R233: a sound unit of a binding is taken and its request performed. -/
theorem takeUnit_eq {s : State} {kind idx n : Nat} {y : Binding} {p : Option Party} (f : Serve)
    (hready : unitReady s (isleView s kind idx) y = some (p, n)) (hfault : (isleView s kind idx).fault = none) :
    takeUnit s kind idx y f = serveRequest (requested s kind idx y p) kind idx y p (requestNo s kind idx)
      (unitTake s kind idx (isleView s kind idx) y p).2 f := by
  simp only [takeUnit, hready, hfault, Option.isSome_none, Bool.false_and, Bool.false_eq_true, if_false]
  rfl

theorem serveRequest_ok {s t : State} {kind idx no : Nat} {y : Binding} {p : Option Party} {recs : List Record} {f : Serve}
    {units : List (List (List Word))} (hsound : ∀ r ∈ recs, r.poison = false) (h : f s y p no recs = .ok (t, units)) :
    serveRequest s kind idx y p no recs f = respond t kind idx y p no units := by
  have hclean : recsPoison recs = false := by simpa [recsPoison] using hsound
  simp only [serveRequest, hclean, Bool.false_eq_true, if_false, h]

theorem serveRequest_error {s : State} {kind idx no : Nat} {y : Binding} {p : Option Party} {recs : List Record} {f : Serve}
    {x : Byte × Nat × Nat} (hsound : ∀ r ∈ recs, r.poison = false) (h : f s y p no recs = .error x) :
    serveRequest s kind idx y p no recs f = isleFault s kind idx y (.request p no recs) x := by
  have hclean : recsPoison recs = false := by simpa [recsPoison] using hsound
  simp only [serveRequest, hclean, Bool.false_eq_true, if_false, h]

/-! ### The events of the classes -/

/-- A class's function leaves memory alone. -/
def Serve.ReadsOnly (f : Serve) : Prop :=
  ∀ s b p no recs r, f s b p no recs = .ok r → r.1.mem = s.mem

theorem oneUnit_readsOnly {kind idx : Nat}
    {f : Nat → State → Nat → Binding → List Record → Except IStop (State × List (List Word))}
    (hf : ∀ s ctx b recs r, f idx s ctx b recs = .ok r → r.1.mem = s.mem) : (oneUnit kind idx f).ReadsOnly := by
  intro s b p no recs r h
  unfold oneUnit at h
  split at h
  next hok =>
    cases h
    exact hf _ _ _ _ _ hok
  next => cases h

/-- What the event of a class is: one of a sampler or ray class, of the blend class, or of a raster class. -/
theorem eventOf_cases {i : Instr} {kind idx cls b : Nat} {f : Serve} (h : eventOf i = some (kind, idx, cls, b, f)) (s : State) :
    ((kind = 1 ∨ kind = 2) ∧ f.ReadsOnly ∧ Machine.exec i s = classTurn s kind idx cls b f) ∨
    (kind = 3 ∧ idx = 0 ∧ f = blendUnit ∧ Machine.exec i s = execBlendColour b s) ∨
    (kind = 0 ∧ Machine.exec i s = rasterTurn s idx cls b f) := by
  unfold eventOf at h
  split at h <;> cases h
  · exact .inl ⟨.inl rfl, oneUnit_readsOnly fun _ _ _ _ _ => sample2dUnit_mem _ _ _ _ _, rfl⟩
  · exact .inl ⟨.inl rfl, oneUnit_readsOnly fun _ _ _ _ _ => sampleCubeUnit_mem _ _ _ _ _, rfl⟩
  · exact .inl ⟨.inr rfl, oneUnit_readsOnly fun _ _ _ _ _ => box4Unit_mem _ _ _ _ _, rfl⟩
  · exact .inl ⟨.inr rfl, oneUnit_readsOnly fun _ _ _ _ _ => triUnit_mem _ _ _ _ _, rfl⟩
  · exact .inl ⟨.inr rfl, oneUnit_readsOnly fun _ _ _ _ _ => frustumUnit_mem _ _ _ _ _, rfl⟩
  · exact .inr (.inl ⟨rfl, rfl, rfl, rfl⟩)
  · exact .inr (.inr ⟨rfl, rfl⟩)
  · exact .inr (.inr ⟨rfl, rfl⟩)

section
variable {s : State} {kind idx cls b : Nat} {y : Binding} {f : Serve}

theorem classTurn_takes (hkind : kind ≠ 3) (hfind : (isleView s kind idx).binds.find? (fun z => z.id == b) = some y)
    (hcls : (classOf (isleView s kind idx) y).map (·.1) = some cls)
    (hturn : nextBinding s (getIsle s kind idx) y.cls (fun _ => true) = some y) :
    classTurn s kind idx cls b f = .next (takeUnit s kind idx y f) := by
  rw [isleView_of_ne hkind] at hfind hcls
  simp only [classTurn, hfind, hcls, hturn, and_self, if_true]

theorem rasterTurn_takes (hfind : (isleView s 0 idx).binds.find? (fun z => z.id == b) = some y)
    (hcls : (classOf (isleView s 0 idx) y).map (·.1) = some cls)
    (hturn : nextBinding s (getIsle s 0 idx) y.cls (passTakes (getIsle s 0 idx)) = some y) :
    rasterTurn s idx cls b f = .next (takeUnit s 0 idx y f) ∨
      rasterTurn s idx cls b f = .next (passCount (takeUnit s 0 idx y f) idx y.id) := by
  rw [isleView_of_ne (by decide)] at hfind hcls
  simp only [rasterTurn, hfind, hcls, hturn, and_self, if_true]
  split
  · exact .inl rfl
  · exact .inr rfl

theorem execBlendColour_takes {n : Nat} (hid : y.id = b) (hturn : blendNext s (isleView s 3 0) = some (n, y)) :
    execBlendColour b s = .next (takeUnit s 3 0 y blendUnit) := by
  simp only [execBlendColour, hturn, hid, if_true]

end

/-- R231: the event performs the request; a raster class counts the record besides. -/
theorem Serves.takes {s : State} {i : Instr} {kind idx : Nat} {f : Serve} {y : Binding} {p : Option Party} {recs : List Record}
    (h : Serves s i kind idx f y p recs) : ∃ u t, Machine.exec i s = .next u ∧
      t = serveRequest (requested s kind idx y p) kind idx y p (requestNo s kind idx) recs f ∧ (u = t ∨ u = passCount t idx y.id) ∧
      (kind = 1 ∨ kind = 2 → f.ReadsOnly ∧ u = t) := by
  obtain ⟨cls, b, n, hevent, hfind, hcls, hturn, hready, hfault, rfl, hsound⟩ := h
  rw [← takeUnit_eq f hready hfault]
  obtain ⟨hkind, hreads, hexec⟩ | ⟨rfl, rfl, rfl, hexec⟩ | ⟨rfl, hexec⟩ := eventOf_cases hevent s
  · have hne : kind ≠ 3 := by omega
    rw [turnOf, if_neg hne, if_neg (by omega)] at hturn
    exact ⟨_, _, hexec.trans (classTurn_takes hne hfind hcls hturn), rfl, .inl rfl, fun _ => ⟨hreads, rfl⟩⟩
  · obtain ⟨m, hnext⟩ := hturn
    have hid : y.id = b := by simpa using List.find?_some hfind
    exact ⟨_, _, hexec.trans (execBlendColour_takes hid hnext), rfl, .inl rfl, fun h => by omega⟩
  · rw [turnOf, if_neg (by decide), if_pos rfl] at hturn
    obtain htake | htake := rasterTurn_takes (f := f) hfind hcls hturn
    · exact ⟨_, _, hexec.trans htake, rfl, .inl rfl, fun h => by omega⟩
    · exact ⟨_, _, hexec.trans htake, rfl, .inr rfl, fun h => by omega⟩

theorem Serves.sound {s : State} {i : Instr} {kind idx : Nat} {f : Serve} {y : Binding} {p : Option Party} {recs : List Record}
    (h : Serves s i kind idx f y p recs) : ∀ r ∈ recs, r.poison = false := by
  obtain ⟨_, _, _, _, _, _, _, _, _, _, hsound⟩ := h
  exact hsound

/-- R231: a sound request adds its response units after those that wait. -/
theorem Serves.answered {s s1 : State} {i : Instr} {kind idx : Nat} {f : Serve} {y : Binding} {p : Option Party}
    {recs : List Record} {units : List (List (List Word))} (h : Serves s i kind idx f y p recs)
    (hf : f (requested s kind idx y p) y p (requestNo s kind idx) recs = .ok (s1, units)) :
    ∃ u, Machine.exec i s = .next u ∧ sameButIslands s1 u ∧ (getIsle u kind idx).fault = (getIsle s1 kind idx).fault ∧
      (getIsle u kind idx).resps = (getIsle s1 kind idx).resps ++
        units.map (fun w => ⟨y.team, p, y.id, y.cls, requestNo s kind idx, w⟩) ∧ (kind = 1 ∨ kind = 2 → u.mem = s.mem) := by
  obtain ⟨u, t, hexec, ht, hu, hmem⟩ := h.takes
  rw [serveRequest_ok h.sound hf] at ht
  have hsame : sameButIslands s1 t := ht ▸ modIsle_sameBut ..
  have hfault : (getIsle t kind idx).fault = (getIsle s1 kind idx).fault := by rw [ht, respond, getIsle_modIsle_same]
  have hresps : (getIsle t kind idx).resps = (getIsle s1 kind idx).resps ++
      units.map (fun w => ⟨y.team, p, y.id, y.cls, requestNo s kind idx, w⟩) := by rw [ht, respond, getIsle_modIsle_same]
  refine ⟨u, hexec, ?_, ?_, ?_, fun hkind => ?_⟩
  · obtain rfl | rfl := hu
    · exact hsame
    · exact hsame.trans (passCount_sameBut ..)
  · obtain rfl | rfl := hu
    · exact hfault
    · rw [passCount_keeps (g := Island.fault) fun _ _ => rfl, hfault]
  · obtain rfl | rfl := hu
    · exact hresps
    · rw [passCount_keeps (g := Island.resps) fun _ _ => rfl, hresps]
  · obtain ⟨hreads, rfl⟩ := hmem hkind
    rw [hsame.mem_eq, hreads _ _ _ _ _ _ hf, requested_mem]

/-- R233: a request that fails stops the island with its records kept. -/
theorem Serves.stopped {s : State} {i : Instr} {kind idx : Nat} {f : Serve} {y : Binding} {p : Option Party}
    {recs : List Record} {code : Byte} {cause va : Nat} (h : Serves s i kind idx f y p recs)
    (hf : f (requested s kind idx y p) y p (requestNo s kind idx) recs = .error (code, cause, va)) :
    ∃ u, Machine.exec i s = .next u ∧ sameButIslands (requested s kind idx y p) u ∧
      (getIsle u kind idx).resps = (getIsle s kind idx).resps ∧
      (getIsle u kind (if kind = 3 then blendSlice (requested s kind idx y p)
        (((getIsle (requested s kind idx y p) kind idx).owner).getD 0) va else idx)).fault =
        some ⟨code, cause, y.port, BitVec.ofNat 64 va, y.id, y.cls, y.team, y.core, false,
          .request p (requestNo s kind idx) recs⟩ := by
  obtain ⟨u, t, hexec, ht, hu, -⟩ := h.takes
  rw [serveRequest_error h.sound hf] at ht
  have hsame : sameButIslands (requested s kind idx y p) t := ht ▸ modIsle_sameBut ..
  have hresps : (getIsle t kind idx).resps = (getIsle s kind idx).resps := by
    rw [ht, isleFault, getIsle_modIsle_keeps (g := Island.resps), requested_resps]
    exact fun _ => rfl
  have hfault : (getIsle t kind (if kind = 3 then blendSlice (requested s kind idx y p)
      (((getIsle (requested s kind idx y p) kind idx).owner).getD 0) va else idx)).fault =
        some ⟨code, cause, y.port, BitVec.ofNat 64 va, y.id, y.cls, y.team, y.core, false,
          .request p (requestNo s kind idx) recs⟩ := by rw [ht, isleFault, getIsle_modIsle_same]
  refine ⟨u, hexec, ?_, ?_, ?_⟩
  · obtain rfl | rfl := hu
    · exact hsame
    · exact hsame.trans (passCount_sameBut ..)
  · obtain rfl | rfl := hu
    · exact hresps
    · rw [passCount_keeps (g := Island.resps) fun _ _ => rfl, hresps]
  · obtain rfl | rfl := hu
    · exact hfault
    · rw [passCount_keeps (g := Island.fault) fun _ _ => rfl, hfault]

/-! ### Batch records -/

theorem upto_zero (n : Nat) : upto 0 n = List.range n := by rw [upto_eq_range', List.range_eq_range']

theorem nth_eq_getD {α : Type} (l : List α) (i : Nat) (d : α) : nth l i d = l.getD i d := rfl

/-- One lane of a batch record (R231). -/
def lane (g : State → Nat → List Nat → Except IStop (State × List Nat)) (recs : List Record) (acc : State × List (List Nat))
    (l : Nat) : Except IStop (State × List (List Nat)) :=
  match g acc.1 l (laneWords recs l) with
  | .error e => .error e
  | .ok (s, o) => .ok (s, acc.2 ++ [o])

theorem foldE_lanes {g : State → Nat → List Nat → Except IStop (State × List Nat)} {recs : List Record} {st : Nat → State}
    {outs : Nat → List Nat} {width : Nat} (h : ∀ l, l < width → g (st l) l (laneWords recs l) = .ok (st (l + 1), outs l))
    (n k : Nat) (hk : k + n = width) (done : List (List Nat)) :
    foldE (upto k n) (st k, done) (lane g recs) = .ok (st width, done ++ (upto k n).map outs) := by
  induction n generalizing k done with
  | zero =>
    obtain rfl : k = width := hk
    simp [upto, foldE]
  | succ n ih =>
    rw [upto, foldE, lane, h k (by omega)]
    dsimp only
    rw [ih (k + 1) (by omega), List.map_cons, List.append_assoc, List.singleton_append]

theorem batchUnit_eq {g : State → Nat → List Nat → Except IStop (State × List Nat)} {recs : List Record} {st : Nat → State}
    {outs : Nat → List Nat} {width n : Nat} (hrecs : recs ≠ []) (hwidth : ∀ r ∈ recs, r.words.length = width)
    (h : ∀ l, l < width → g (st l) l (laneWords recs l) = .ok (st (l + 1), outs l)) :
    batchUnit (st 0) recs n g = .ok (st width, (List.range n).map fun c => (List.range width).map fun l =>
      BitVec.ofNat 32 ((outs l).getD c 0)) := by
  obtain ⟨r, rest, rfl⟩ := List.exists_cons_of_ne_nil hrecs
  have hlanes := foldE_lanes h width 0 (by omega) []
  unfold batchUnit
  simp only [List.head?_cons, Option.map_some, Option.getD_some, hwidth r (List.mem_cons_self ..)]
  split
  next he => cases hlanes.symm.trans he
  next he =>
    cases hlanes.symm.trans he
    simp only [List.nil_append, upto_zero, List.map_map, nth_eq_getD]
    rfl

theorem oneUnit_ok {kind idx : Nat} {f : Nat → State → Nat → Binding → List Record → Except IStop (State × List (List Word))}
    {s t : State} {y : Binding} {recs : List Record} {u : List (List Word)} (p : Option Party) (no : Nat)
    (h : f idx s (isleOwner s kind idx) y recs = .ok (t, u)) : oneUnit kind idx f s y p no recs = .ok (t, [u]) := by
  simp only [oneUnit, h]

theorem lanesAnswer : LanesAnswer := by
  intro i kind idx cls b n width no f g s y p recs st outs hevent hlane hrecs hwidth hst hg
  subst hst
  unfold laneClass at hlane
  split at hlane <;> cases hlane <;> cases hevent <;> exact oneUnit_ok p no (batchUnit_eq hrecs hwidth hg)

end Sys2Proof.Machine
end

section
/-! O49: the point filter of the sampler classes (R236 to R239, R241). -/

namespace Sys2Proof.Machine

/-! ### Texture entries -/

theorem sectorPieces_half {a : Nat} (h : a % 16 = 0) : sectorPieces (16 / 32 + 2) a 16 0 = [(0, 16)] := by
  have hmin : min 16 (32 - a % 32) = 16 := by omega
  simp [sectorPieces, hmin]

/-- R236: an entry lies within a sector and is read at once. -/
theorem entryRead_of_isleRead {s t : State} {ctx core par ctl v : Nat} (hpar : par % 16 = 0) (hv : v < 2 ^ 128)
    (h : isleRead s ctx core (par + 16 * (ctl % 256)) 16 1 = .ok (t, v)) : entryRead s ctx core par ctl = .ok (t, v) := by
  have hval : ofBytes (bytesOf 16 v) = v := by rw [ofBytes_bytesOf]; exact Nat.mod_eq_of_lt hv
  simp only [entryRead, isleBytes, sectorPieces_half (a := par + 16 * (ctl % 256)) (by omega), foldE, Nat.add_zero, h,
    List.nil_append, hval]

theorem Tex.after_addr (t : Tex) (u v l n a : Nat) : Tex.after { t with
    addrU := u, addrV := v } l n a = t.after l n a := by
  induction n generalizing l a with
  | zero => rfl
  | succ n ih => exact ih ..

theorem Tex.face_addr (t : Tex) (u v f a : Nat) : Tex.face { t with
    addrU := u, addrV := v } f a = t.face f a := by
  induction f generalizing a with
  | zero => rfl
  | succ f ih =>
    rw [Tex.face, ih, Tex.after_addr]
    rfl

/-- R241: the address modes of an entry place its texels nowhere else. -/
theorem Tex.addr_addr (t : Tex) (u v f l i j : Nat) : Tex.addr { t with
    addrU := u, addrV := v } f l i j = t.addr f l i j := by
  simp only [Tex.addr, Tex.level, Tex.after_addr, Tex.face_addr]
  rfl

theorem Tex.w_zero (t : Tex) : t.w 0 = 2 ^ t.logW := by
  rw [Tex.w, Nat.pow_zero, Nat.div_one]
  exact Nat.max_eq_right Nat.one_le_two_pow

theorem Tex.h_zero (t : Tex) : t.h 0 = 2 ^ t.logH := by
  rw [Tex.h, Nat.pow_zero, Nat.div_one]
  exact Nat.max_eq_right Nat.one_le_two_pow

theorem Tex.addr_un8 {t : Tex} (h : t.fmt = 2) (i j : Nat) : t.addr 0 0 i j = t.base + (j * 2 ^ t.logW + i) * 4 := by
  simp [Tex.addr, Tex.level, Tex.after, Tex.face, Tex.blocks, Tex.unit, h, Tex.w_zero]

/-- R238: the place of an index. -/
theorem placeIndex_eq {mode n i : Nat} {k : Int} (hn : 0 < n) (h : (i : Int) = placed mode n k) : placeIndex mode n k = i := by
  have hmod := Int.emod_nonneg k (b := 2 * (n : Int)) (by omega)
  have hlt := Int.emod_lt_of_pos k (b := 2 * (n : Int)) (by omega)
  unfold placed at h
  match mode with
  | 0 => simp only [placeIndex, if_true] at h ⊢; omega
  | 1 => simp only [placeIndex, one_ne_zero, if_true, if_false] at h ⊢; omega
  | m + 2 =>
    have hcast : ((2 * n : Nat) : Int) = 2 * (n : Int) := by push_cast; rfl
    have hne : m + 2 ≠ 1 := by omega
    simp only [placeIndex, hcast, hne, Nat.add_eq_zero_iff, OfNat.ofNat_ne_zero, and_false, if_false] at h ⊢
    split at h <;> split <;> omega

/-! ### The point filter -/

/-- R238: an LOD below half a level names level 0. -/
theorem near_zero {t : Tex} {ctl : Nat} (h : ctl / 256 % 4096 < 128) : (lodOf t ctl + 128) / 256 = 0 := by
  have hsext : sext (bits ctl 8 12) 12 = (ctl / 256 % 4096 : Nat) := by
    have hbits : bits ctl 8 12 = ctl / 256 % 4096 := rfl
    rw [hbits, sext_eq_signed _ _ (by decide)]
    unfold signed
    split <;> omega
  unfold lodOf
  rw [hsext]
  omega

theorem footprint_point (t : Tex) {ctl : Nat} (hctl : ctl / 256 % 4096 < 128) (u v : Rat) (du dv : Ext) (free : Nat → BitVec 32) :
    footprint t 0 ctl (.rat u) (.rat v) du dv free =
      ([⟨0, scaledFloor u (2 ^ t.logW), scaledFloor v (2 ^ t.logH), 1⟩], 1) := by
  simp only [footprint, near_zero hctl, t.w_zero, t.h_zero, Ext.mul, placeOf, Rat.floor, Rat.mul, Rat.ofInt, Rat.of, Nat.mul_one,
    scaledFloor]

/-- R239, R113: a channel of one texel of weight 1 of 1 is rounded as it is. -/
theorem weigh_unorm (c : Nat) : ((Ext.add (.rat .negZero) ((unorm c).mul (.rat (.ofInt 1)))).mul (.rat (.of 1 1))).round fp32 0 =
    Rat.round fp32 0 (.of (c : Int) 255) := by
  have hneg : ¬(c : Int) < 0 := by omega
  simp [unorm, Ext.mul, Ext.add, Ext.round, Rat.add, Rat.mul, Rat.of, Rat.ofInt, Rat.negZero, Rat.minus, hneg]

theorem filterTexels_point {s t : State} {ctx core face x i j : Nat} {y : Tex} {k l : Int} (hfmt : y.fmt = 2)
    (hi : placeIndex y.addrU (2 ^ y.logW) k = i) (hj : placeIndex y.addrV (2 ^ y.logH) l = j)
    (h : isleRead s ctx core (y.addr face 0 i j) 4 4 = .ok (t, x)) :
    filterTexels s ctx core y face [⟨0, k, l, 1⟩] 1 = .ok (t, un8Words x) := by
  have hunit : y.unit = 4 := by simp only [Tex.unit, hfmt]
  have hread : texelRead s ctx core y face 0 i j = .ok (t, (upto 0 4).map fun c => unorm (bits x (8 * c) 8)) := by
    simp only [texelRead, hunit, h, hfmt, texelValue]
  have hsum : ∀ c, Rat.round fp32 0 (.of ((bits x (8 * c) 8 : Nat) : Int) 255) =
      Rat.round fp32 0 (.of ((x / 256 ^ c % 256 : Nat) : Int) 255) := fun c => by
    rw [bits, Nat.pow_mul]
    rfl
  have hweight : ((1 : Nat) != 0) = true := rfl
  simp only [filterTexels, List.filter_cons, List.filter_nil, hweight, if_true, foldE, y.w_zero, y.h_zero, hi, hj, hread]
  simp only [upto, List.replicate, List.map_cons, List.map_nil, List.zipWith_cons_cons, List.zipWith_nil_left,
    Nat.cast_one, weigh_unorm, hsum]
  rfl

/-! ### SAMPLE.2D -/

theorem tb_false {v i : Nat} (h : v.testBit i = false) : tb v i = false := by rw [tb_eq_testBit, h]

theorem tb_true {v i : Nat} (h : v.testBit i = true) : tb v i = true := by rw [tb_eq_testBit, h]

section
variable {s t u : State} {ctx core par lane v x i j : Nat} {w : List Nat}

theorem sampleLane_invalid (h : (w.getD 4 0).testBit 31 = false) : sampleLane s ctx core par lane w = .ok (s, [0, 0, 0, 0]) := by
  simp only [sampleLane, nth_eq_getD, tb_false h, Bool.not_false, if_true]
  rfl

theorem sampleLane_reserved (hvalid : (w.getD 4 0).testBit 31 = true) (hpar : par % 16 = 0) (hv : v < 2 ^ 128)
    (hread : isleRead s ctx core (par + 16 * (w.getD 4 0 % 256)) 16 1 = .ok (t, v)) (hbad : texOk v = false) :
    sampleLane s ctx core par lane w = .ok (t, [0, 0, 0, 0]) := by
  simp only [sampleLane, nth_eq_getD, tb_true hvalid, Bool.not_true, Bool.false_eq_true, if_false,
    entryRead_of_isleRead hpar hv hread, hbad, Bool.not_false, if_true]
  rfl

theorem sampleLane_point {ru rv : Rat} (hpar : par % 16 = 0) (hv : v < 2 ^ 128)
    (hread : isleRead s ctx core (par + 16 * (w.getD 4 0 % 256)) 16 1 = .ok (t, v)) (hentry : pointEntry v (w.getD 4 0))
    (hu : coordVal (w.getD 0 0) = .rat ru) (hw : coordVal (w.getD 1 0) = .rat rv)
    (hi : (i : Int) = placed (texOf v).addrU (2 ^ (texOf v).logW) (scaledFloor ru (2 ^ (texOf v).logW)))
    (hj : (j : Int) = placed (texOf v).addrV (2 ^ (texOf v).logH) (scaledFloor rv (2 ^ (texOf v).logH)))
    (htexel : isleRead t ctx core ((texOf v).base + (j * 2 ^ (texOf v).logW + i) * 4) 4 4 = .ok (u, x)) :
    sampleLane s ctx core par lane w = .ok (u, un8Words x) := by
  obtain ⟨hok, hfilt, hfmt, hvalid, hlod⟩ := hentry
  rw [← Tex.addr_un8 hfmt] at htexel
  simp only [sampleLane, nth_eq_getD, tb_true hvalid, Bool.not_true, Bool.false_eq_true, if_false,
    entryRead_of_isleRead hpar hv hread, hok, hfilt, hu, hw, footprint_point _ hlod]
  exact filterTexels_point hfmt (placeIndex_eq (Nat.two_pow_pos _) (by exact_mod_cast hi))
    (placeIndex_eq (Nat.two_pow_pos _) (by exact_mod_cast hj)) htexel

end

theorem sampleAnswers : SampleAnswers := by
  refine ⟨fun s ctx core par lane w h => sampleLane_invalid h, fun s t ctx core par lane v w hvalid hpar hv hread hbad =>
    sampleLane_reserved hvalid hpar hv hread hbad, ?_⟩
  rintro s t u ctx core par lane v x i j ru rv _ w rfl hpar hv hread hentry hu hw hi hj htexel
  exact sampleLane_point hpar hv hread hentry hu hw hi hj htexel

/-! ### NaNs and zeros of words -/

theorem isNan32_iff (w : Nat) : isNan32 w = true ↔ (fpDecode fp32 w).ext = .nan := by
  unfold isNan32
  cases fpDecode fp32 w <;> simp [Fp.ext]

/-- The words that a NaN check looks at. -/
theorem any_isNan32 {w : List Nat} {n : Nat} (h : n ≤ w.length) : (w.take n).any isNan32 = true ↔ ¬numbers w n := by
  rw [List.any_eq_true, numbers, not_forall]
  constructor
  · rintro ⟨x, hx, hnan⟩
    obtain ⟨i, hi, rfl⟩ := List.mem_iff_getElem.1 hx
    rw [List.length_take] at hi
    refine ⟨i, fun hall => hall (by omega) ?_⟩
    rw [List.getElem_take] at hnan
    rw [List.getD_eq_getElem _ _ (by omega)]
    exact (isNan32_iff _).1 hnan
  · rintro ⟨i, hi⟩
    obtain ⟨hlt, hnan⟩ := Classical.not_imp.1 hi
    have hlen : i < (w.take n).length := by rw [List.length_take]; omega
    refine ⟨(w.take n)[i], List.getElem_mem hlen, (isNan32_iff _).2 ?_⟩
    rw [List.getElem_take, ← List.getD_eq_getElem w 0 (by omega)]
    exact not_not.1 hnan

theorem any_isNan32_of_numbers {w : List Nat} {n : Nat} (h : n ≤ w.length) (hnum : numbers w n) :
    (w.take n).any isNan32 = false := by
  rw [← Bool.not_eq_true, any_isNan32 h]
  exact not_not.2 hnum

theorem isZero_of_low {w : Nat} (h : w % 2 ^ 31 = 0) : (fpDecode fp32 w).ext.isZero = true := by
  have hexp : bits w 23 8 = 0 := by unfold bits; omega
  have hfrac : bits w 0 23 = 0 := by unfold bits; omega
  have hdec : fpDecode fp32 w = .zero (tb w 31) := by simp [fpDecode, fp32, hexp, hfrac]
  rw [hdec]
  cases tb w 31 <;> rfl

/-! ### SAMPLE.CUBE -/

section
variable {s t u : State} {ctx core par lane v x i j : Nat} {w : List Nat}

theorem cubeLane_invalid (hlen : w.length = 4)
    (h : (w.getD 3 0).testBit 31 = false ∨ ¬numbers w 3 ∨ ∀ i, i < 3 → w.getD i 0 % 2 ^ 31 = 0) :
    cubeLane s ctx core par lane w = .ok (s, [0, 0, 0, 0]) := by
  have hstop : (!tb (w.getD 3 0) 31 || (w.take 3).any isNan32 || (fpDecode fp32 (w.getD 0 0)).ext.isZero &&
      (fpDecode fp32 (w.getD 1 0)).ext.isZero && (fpDecode fp32 (w.getD 2 0)).ext.isZero) = true := by
    obtain h | h | h := h
    · rw [tb_false h]
      rfl
    · simp [(any_isNan32 (by omega)).2 h]
    · rw [isZero_of_low (h 0 (by decide)), isZero_of_low (h 1 (by decide)), isZero_of_low (h 2 (by decide))]
      exact Bool.or_true _
  simp only [cubeLane, nth_eq_getD, hstop, if_true]
  rfl

/-- R241: a lane is valid, of numbers, and points somewhere. -/
theorem cubeLane_goes (hlen : w.length = 4) (hnum : numbers w 3)
    (hpoints : ∃ i, i < 3 ∧ (fpDecode fp32 (w.getD i 0)).ext.isZero = false) (hvalid : (w.getD 3 0).testBit 31 = true) :
    (!tb (w.getD 3 0) 31 || (w.take 3).any isNan32 || (fpDecode fp32 (w.getD 0 0)).ext.isZero &&
      (fpDecode fp32 (w.getD 1 0)).ext.isZero && (fpDecode fp32 (w.getD 2 0)).ext.isZero) = false := by
  rw [tb_true hvalid, any_isNan32_of_numbers (by omega) hnum]
  obtain ⟨i, hi, hzero⟩ := hpoints
  obtain rfl | rfl | rfl : i = 0 ∨ i = 1 ∨ i = 2 := by omega
  all_goals simp only [hzero, Bool.false_and, Bool.and_false, Bool.or_false, Bool.not_true]

theorem cubeLane_reserved (hlen : w.length = 4) (hnum : numbers w 3)
    (hpoints : ∃ i, i < 3 ∧ (fpDecode fp32 (w.getD i 0)).ext.isZero = false) (hvalid : (w.getD 3 0).testBit 31 = true)
    (hpar : par % 16 = 0) (hv : v < 2 ^ 128)
    (hread : isleRead s ctx core (par + 16 * (w.getD 3 0 % 256)) 16 1 = .ok (t, v)) (hbad : texOk v = false) :
    cubeLane s ctx core par lane w = .ok (t, [0, 0, 0, 0]) := by
  simp only [cubeLane, nth_eq_getD, cubeLane_goes hlen hnum hpoints hvalid, Bool.false_eq_true, if_false,
    entryRead_of_isleRead hpar hv hread, hbad, Bool.not_false, if_true]
  rfl

/-- R241: the row of the face table. -/
theorem cubeFace_of_row {a b c : Ext} {face : Nat} {sc tc ma : Ext} (h : cubeRow a b c face sc tc ma) :
    cubeFace a b c = (face, sc, tc, ma) := by
  unfold cubeRow at h
  dsimp only at h
  rw [← Bool.and_eq_true] at h
  obtain ⟨hmajor, hsign, rfl, rfl, rfl, rfl⟩ |
    ⟨hmajor, hsign, rfl, rfl, rfl, rfl⟩ | ⟨⟨hnot, hmajor⟩, hsign, rfl, rfl, rfl, rfl⟩ |
    ⟨⟨hnot, hmajor⟩, hsign, rfl, rfl, rfl, rfl⟩ | ⟨⟨hnot, hmajor⟩, hsign, rfl, rfl, rfl, rfl⟩ |
    ⟨⟨hnot, hmajor⟩, hsign, rfl, rfl, rfl, rfl⟩ := h
  all_goals simp only [cubeFace, *, if_true, if_false, Bool.false_eq_true]

theorem cubeLane_point {face : Nat} {sc tc ma : Ext} {ru rv : Rat} (hlen : w.length = 4) (hnum : numbers w 3)
    (hpoints : ∃ i, i < 3 ∧ (fpDecode fp32 (w.getD i 0)).ext.isZero = false) (hpar : par % 16 = 0) (hv : v < 2 ^ 128)
    (hread : isleRead s ctx core (par + 16 * (w.getD 3 0 % 256)) 16 1 = .ok (t, v)) (hentry : pointEntry v (w.getD 3 0))
    (hrow : cubeRow (fpDecode fp32 (w.getD 0 0)).ext (fpDecode fp32 (w.getD 1 0)).ext (fpDecode fp32 (w.getD 2 0)).ext face sc tc ma)
    (hu : faceCoord sc ma = .rat ru) (hw : faceCoord tc ma = .rat rv)
    (hi : (i : Int) = placed 1 (2 ^ (texOf v).logW) (scaledFloor ru (2 ^ (texOf v).logW)))
    (hj : (j : Int) = placed 1 (2 ^ (texOf v).logH) (scaledFloor rv (2 ^ (texOf v).logH)))
    (htexel : isleRead t ctx core ((texOf v).addr face 0 i j) 4 4 = .ok (u, x)) :
    cubeLane s ctx core par lane w = .ok (u, un8Words x) := by
  obtain ⟨hok, hfilt, hfmt, hvalid, hlod⟩ := hentry
  rw [← Tex.addr_addr _ 1 1, hfilt] at htexel
  have hne : ¬(0 : Nat) = 3 := by decide
  simp only [cubeLane, nth_eq_getD, cubeLane_goes hlen hnum hpoints hvalid, Bool.false_eq_true, if_false, hne,
    entryRead_of_isleRead hpar hv hread, hok, Bool.not_true, hfilt, cubeFace_of_row hrow, hu, hw, footprint_point _ hlod]
  exact filterTexels_point hfmt (placeIndex_eq (Nat.two_pow_pos _) (by exact_mod_cast hi))
    (placeIndex_eq (Nat.two_pow_pos _) (by exact_mod_cast hj)) htexel

end

theorem cubeAnswers : CubeAnswers := by
  refine ⟨fun s ctx core par lane w hlen h => cubeLane_invalid hlen h,
    fun s t ctx core par lane v w hlen hnum hpoints hvalid hpar hv hread hbad =>
      cubeLane_reserved hlen hnum hpoints hvalid hpar hv hread hbad, ?_⟩
  rintro s t u ctx core par lane v x i j face sc tc ma ru rv _ w rfl hlen hnum hpoints hpar hv hread hentry hrow hu hw hi hj htexel
  exact cubeLane_point hlen hnum hpoints hpar hv hread hentry hrow hu hw hi hj htexel

end Sys2Proof.Machine
end

section
/-! O49: what a rounding leaves (R102, R109): a number or an infinity, never a NaN. -/

namespace Sys2Proof.Machine

/-- R100: a format with infinities, its bias in the middle of the exponents. -/
def Fmt.Regular (f : Fmt) : Prop := f.ieee = true ∧ 2 ^ f.eb = 2 * f.bias + 2

theorem fp32_regular : fp32.Regular := ⟨rfl, rfl⟩

theorem fp16_regular : fp16.Regular := ⟨rfl, rfl⟩

/-- The largest exponent field above the mantissa: the magnitude of an infinity. -/
def Fmt.top (f : Fmt) : Nat := (2 ^ f.eb - 1) * 2 ^ f.mb

theorem Fmt.Regular.top_eq {f : Fmt} (h : f.Regular) : f.top = (2 * f.bias + 1) * 2 ^ f.mb := by
  rw [Fmt.top, h.2]
  rfl

/-- The significand that an encoding keeps of k x 2^q, in units of 2^u. -/
theorem significand_lt {k n : Nat} {q u : Int} (h : (Nat.log2 k : Int) + q + 1 ≤ u + n) :
    (if q ≥ u then k * 2 ^ (q - u).toNat else k / 2 ^ (u - q).toNat) < 2 ^ n := by
  have hk : k < 2 ^ (Nat.log2 k + 1) := Nat.lt_log2_self
  split
  next hq =>
    calc k * 2 ^ (q - u).toNat < 2 ^ (Nat.log2 k + 1) * 2 ^ (q - u).toNat :=
          Nat.mul_lt_mul_of_pos_right hk (Nat.two_pow_pos _)
      _ = 2 ^ (Nat.log2 k + 1 + (q - u).toNat) := (Nat.pow_add ..).symm
      _ ≤ 2 ^ n := Nat.pow_le_pow_right (by decide) (by omega)
  next hq =>
    rw [Nat.div_lt_iff_lt_mul (Nat.two_pow_pos _), ← Nat.pow_add]
    exact hk.trans_le (Nat.pow_le_pow_right (by decide) (by omega))

/-- R109: what is not beyond the largest finite value has no exponent beyond its own. -/
theorem log2_le_of_not_gtScaled {k m : Nat} {q b : Int} (hk : k ≠ 0) (h : gtScaled k q (2 ^ (m + 1) - 1) b = false) :
    (Nat.log2 k : Int) + q ≤ m + b := by
  have hlog : 2 ^ Nat.log2 k ≤ k := Nat.log2_self_le hk
  have hpos := Nat.two_pow_pos (m + 1)
  unfold gtScaled at h
  split at h
  next hq =>
    have hle : k * 2 ^ (q - b).toNat ≤ 2 ^ (m + 1) - 1 := by simpa using h
    have hpow : 2 ^ (Nat.log2 k + (q - b).toNat) < 2 ^ (m + 1) := by
      rw [Nat.pow_add]
      have := Nat.mul_le_mul_right (2 ^ (q - b).toNat) hlog
      omega
    have := (Nat.pow_lt_pow_iff_right (by decide)).1 hpow
    omega
  next hq =>
    have hle : k ≤ (2 ^ (m + 1) - 1) * 2 ^ (b - q).toNat := by simpa using h
    have hpow : 2 ^ Nat.log2 k < 2 ^ (m + 1 + (b - q).toNat) := by
      rw [Nat.pow_add]
      have := Nat.mul_lt_mul_of_pos_right (Nat.sub_lt hpos Nat.one_pos) (Nat.two_pow_pos (b - q).toNat)
      omega
    have := (Nat.pow_lt_pow_iff_right (by decide)).1 hpow
    omega

section
variable {f : Fmt}

/-- A sign and a magnitude up to that of an infinity. -/
def Fmt.Signed (f : Fmt) (v : Nat) : Prop := ∃ neg m, m ≤ f.top ∧ v = f.signBit neg + m

theorem Fmt.signed_zero (f : Fmt) (neg : Bool) : f.Signed (f.signBit neg) := ⟨neg, 0, Nat.zero_le _, rfl⟩

theorem encFin_signed (hf : f.Regular) (neg : Bool) {k : Nat} {q : Int} (hk : k ≠ 0)
    (h : gtScaled k q f.topSig (f.emax - f.mb) = false) : f.Signed (encFin f neg k q) := by
  obtain ⟨hieee, hbias⟩ := hf
  have htop : f.topSig = 2 ^ (f.mb + 1) - 1 := by simp [Fmt.topSig, hieee]
  have hemax : f.emax = f.bias := by simp [Fmt.emax, hieee]
  rw [htop, hemax] at h
  have hlog := log2_le_of_not_gtScaled hk h
  unfold encFin Fmt.Signed
  dsimp only
  split
  next hsub =>
    have hsig := significand_lt (k := k) (n := f.mb) (q := q) (u := f.emin - f.mb) (by omega)
    refine ⟨neg, _, ?_, rfl⟩
    rw [Fmt.top, hbias]
    exact hsig.le.trans (Nat.le_mul_of_pos_left _ (by omega))
  next hnorm =>
    have hsig := significand_lt (k := k) (n := f.mb + 1) (q := q) (u := (Nat.log2 k : Int) + q - f.mb) (by push_cast; omega)
    rw [Nat.pow_succ] at hsig
    refine ⟨neg, _, ?_, Nat.add_assoc ..⟩
    have hexp : ((Nat.log2 k : Int) + q + f.bias).toNat ≤ 2 * f.bias := by omega
    have hmul := Nat.mul_le_mul_right (2 ^ f.mb) hexp
    rw [Fmt.top, hbias, show 2 * f.bias + 2 - 1 = 2 * f.bias + 1 by omega, Nat.add_mul (2 * f.bias) 1]
    omega

theorem largest_signed (hf : f.Regular) (neg : Bool) : f.Signed (f.largest neg) := by
  obtain ⟨hieee, hbias⟩ := hf
  have htop : f.topSig = 2 ^ (f.mb + 1) - 1 := by simp [Fmt.topSig, hieee]
  refine ⟨neg, _, ?_, by rw [Fmt.largest, Nat.add_assoc]⟩
  rw [if_pos hieee, htop, Fmt.top, hbias, Nat.pow_succ, show 2 * f.bias + 2 - 2 = 2 * f.bias by omega,
    show 2 * f.bias + 2 - 1 = 2 * f.bias + 1 by omega, Nat.add_mul (2 * f.bias) 1]
  omega

theorem infinity_signed (f : Fmt) (neg : Bool) : f.Signed (f.infinity neg) := ⟨neg, f.top, le_refl _, rfl⟩

theorem overflow_signed (hf : f.Regular) (neg toInf : Bool) : f.Signed (if toInf then f.infinity neg else f.largest neg) := by
  cases toInf
  · exact largest_signed hf neg
  · exact infinity_signed f neg

theorem ite_signed {c : Prop} [Decidable c] {a b : FRes} (ha : c → f.Signed a.bits) (hb : ¬c → f.Signed b.bits) :
    f.Signed (if c then a else b).bits := by
  split
  next hc => exact ha hc
  next hc => exact hb hc

/-- R109: every result of a rounding. -/
theorem roundF_signed (hf : f.Regular) (mode : Nat) (ftz sat neg : Bool) (n d : Nat) (e : Int) :
    f.Signed (roundF f mode ftz sat neg n d e).bits := by
  unfold roundF
  dsimp only
  refine ite_signed (fun _ => f.signed_zero neg) fun _ => ite_signed (fun _ => ?_) fun hgt =>
    ite_signed (fun _ => f.signed_zero neg) fun hk => encFin_signed hf neg hk (Bool.not_eq_true _ ▸ hgt)
  exact overflow_signed hf neg _

theorem rat_round_signed (hf : f.Regular) (mode : Nat) (r : Rat) : f.Signed (r.round f mode) := by
  unfold Rat.round
  split
  · exact f.signed_zero r.z
  · exact roundF_signed hf ..

theorem Fmt.top_lt (f : Fmt) : f.top < 2 ^ (f.eb + f.mb) := by
  rw [Fmt.top, Nat.pow_add]
  exact Nat.mul_lt_mul_of_pos_right (Nat.sub_lt (Nat.two_pow_pos _) Nat.one_pos) (Nat.two_pow_pos _)

/-- R102: a rounded value fits in its format. -/
theorem Fmt.Signed.lt {v : Nat} (h : f.Signed v) : v < 2 ^ f.width := by
  obtain ⟨neg, m, hm, rfl⟩ := h
  have htop := f.top_lt
  have hsign : f.signBit neg ≤ 2 ^ (f.eb + f.mb) := by
    unfold Fmt.signBit
    split <;> omega
  rw [Fmt.width, show 1 + f.eb + f.mb = f.eb + f.mb + 1 by omega, Nat.pow_succ]
  omega

/-- R101: a magnitude up to that of an infinity is read as no NaN. -/
theorem Fmt.Signed.decode_ne_nan (hf : f.Regular) {v : Nat} (h : f.Signed v) : (fpDecode f v).ext ≠ .nan := by
  obtain ⟨neg, m, hm, rfl⟩ := h
  have htop := f.top_lt
  obtain ⟨c, hc⟩ : ∃ c, f.signBit neg = c * 2 ^ (f.eb + f.mb) := by
    cases neg
    · exact ⟨0, by simp [Fmt.signBit]⟩
    · exact ⟨1, by simp [Fmt.signBit]⟩
  have hexp : bits (f.signBit neg + m) f.mb f.eb = m / 2 ^ f.mb := by
    rw [bits, hc, Nat.pow_add, ← Nat.mul_assoc, Nat.mul_comm _ (2 ^ f.mb), Nat.mul_add_div (Nat.two_pow_pos _),
      Nat.mul_add_mod_self_right, Nat.mod_eq_of_lt]
    rw [Nat.div_lt_iff_lt_mul (Nat.two_pow_pos _), ← Nat.pow_add]
    exact hm.trans_lt htop
  have hmant : bits (f.signBit neg + m) 0 f.mb = m % 2 ^ f.mb := by
    rw [bits, hc, Nat.pow_zero, Nat.div_one, Nat.pow_add, ← Nat.mul_assoc, Nat.mul_add_mod_self_right]
  unfold fpDecode
  rw [hexp, hmant]
  dsimp only
  by_cases he : m / 2 ^ f.mb = 2 ^ f.eb - 1
  · have hlow : m % 2 ^ f.mb = 0 := by
      have := Nat.div_add_mod m (2 ^ f.mb)
      rw [he, Nat.mul_comm] at this
      rw [Fmt.top] at hm
      omega
    rw [if_pos ⟨he, hf.1⟩, if_pos hlow]
    exact nofun
  · rw [if_neg fun h => he h.1, if_neg fun h => he h.1]
    split
    · split <;> exact nofun
    · exact nofun

/-- A rounding makes no NaN of a value that is none. -/
theorem rounded_ne_nan (hf : f.Regular) (mode : Nat) {x : Ext} (h : x ≠ .nan) : x.rounded f mode ≠ .nan := by
  cases x with
  | rat r => exact (rat_round_signed hf mode r).decode_ne_nan hf
  | inf s => exact nofun
  | nan => exact absurd rfl h

end

end Sys2Proof.Machine
end

section
/-! O49: RAY.BOX4 and RAY.FRUSTUM64 (R244, R245, R247). -/

namespace Sys2Proof.Machine

/-! ### The order of extended values -/

theorem Ext.lt_asymm {a b : Ext} (h : a.lt b = true) : b.lt a = false := by
  match a, b with
  | .rat x, .rat y =>
    simp only [Ext.lt, Rat.lt, decide_eq_true_eq, decide_eq_false_iff_not] at h ⊢
    omega
  | .inf s, .inf t => cases s <;> cases t <;> simp_all [Ext.lt]
  | .inf s, .rat _ | .inf s, .nan | .rat _, .inf s | .nan, .inf s => cases s <;> simp_all [Ext.lt]
  | .rat _, .nan | .nan, .rat _ | .nan, .nan => rfl

theorem Ext.inf_min (x : Ext) : Ext.min (.inf false) x = x := by
  cases x with
  | rat r => rfl
  | inf s => cases s <;> rfl
  | nan => rfl

theorem Ext.inf_max (x : Ext) : Ext.max (.inf true) x = x := by
  cases x with
  | rat r => rfl
  | inf s => cases s <;> rfl
  | nan => rfl

theorem Ext.min_ne_nan {a b : Ext} (ha : a ≠ .nan) (hb : b ≠ .nan) : a.min b ≠ .nan := by
  unfold Ext.min
  split <;> assumption

theorem Ext.max_ne_nan {a b : Ext} (ha : a ≠ .nan) (hb : b ≠ .nan) : a.max b ≠ .nan := by
  unfold Ext.max
  split <;> assumption

/-! ### Slabs -/

/-- R245: a product that is no NaN is taken as it is. -/
theorem slabMul_eq {d i : Ext} (neg : Bool) (h : d.mul i ≠ .nan) : slabMul d i neg = d.mul i := by
  match d, i with
  | .rat x, .inf s =>
    refine if_neg fun hz => h ?_
    have hn : x.n = 0 := by simpa [Rat.isZero] using hz
    simp only [Ext.mul, hn, if_true]
  | .inf s, .rat y =>
    refine if_neg fun hz => h ?_
    have hn : y.n = 0 := by simpa [Rat.isZero] using hz
    simp only [Ext.mul, hn, if_true]
  | .rat _, .rat _ | .rat _, .nan | .inf _, .inf _ | .inf _, .nan | .nan, _ => rfl

/-- A choice among values, a NaN above all. -/
def pick (f : Ext → Ext → Ext) (a b : Ext) : Ext := if a = .nan ∨ b = .nan then .nan else f a b

theorem foldl_pick {f : Ext → Ext → Ext} (hf : ∀ a b, a ≠ .nan → b ≠ .nan → f a b ≠ .nan) {l : List Ext} {x : Ext}
    (hx : x ≠ .nan) (hl : ∀ y ∈ l, y ≠ .nan) : l.foldl (pick f) x = l.foldl f x ∧ l.foldl f x ≠ .nan := by
  induction l generalizing x with
  | nil => exact ⟨rfl, hx⟩
  | cons y l ih =>
    have hy := hl y (List.mem_cons_self ..)
    have hstep : pick f x y = f x y := if_neg (not_or.2 ⟨hx, hy⟩)
    rw [List.foldl_cons, List.foldl_cons, hstep]
    exact ih (hf _ _ hx hy) fun z hz => hl z (List.mem_cons_of_mem _ hz)

theorem mem_slabProducts {lo hi o p : Ext} {inv : List Ext} :
    p ∈ slabProducts lo hi o inv ↔ ∃ x, (x = lo ∨ x = hi) ∧ ∃ i ∈ inv, (x.sub o).mul i = p := by
  simp [slabProducts]

theorem slab_products {lo hi o : Ext} {inv : List Ext} (neg : Bool) (mode : Nat)
    (hnum : ∀ p ∈ slabProducts lo hi o inv, p ≠ .nan) :
    ([lo.add o.neg, hi.add o.neg].flatMap fun d => inv.map fun i => (slabMul d i neg).rounded fp32 mode) =
      (slabProducts lo hi o inv).map fun p => p.rounded fp32 mode := by
  have hrow : ∀ x, x = lo ∨ x = hi → (inv.map fun i => (slabMul (x.add o.neg) i neg).rounded fp32 mode) =
      (inv.map fun i => (x.sub o).mul i).map fun p => p.rounded fp32 mode := fun x hx => by
    rw [List.map_map]
    exact List.map_congr_left fun i hi => congrArg _ (slabMul_eq neg (hnum _ (mem_slabProducts.2 ⟨x, hx, i, hi, rfl⟩)))
  simp only [slabProducts, List.flatMap_cons, List.flatMap_nil, List.append_nil, List.map_append, hrow lo (.inl rfl),
    hrow hi (.inr rfl)]

/-- R245: the ends of an axis without NaN, which are no NaN either. -/
theorem slab_eq {lo hi o : Ext} {inv : List Ext} (hinv : inv ≠ []) (hnum : ∀ p ∈ slabProducts lo hi o inv, p ≠ .nan) :
    slab lo hi o inv = slabEnds (slabProducts lo hi o inv) ∧
      ((slabEnds (slabProducts lo hi o inv)).1 == .nan || (slabEnds (slabProducts lo hi o inv)).2 == .nan) = false := by
  obtain ⟨p, ps, hps⟩ : ∃ p ps, slabProducts lo hi o inv = p :: ps := by
    obtain ⟨i, r, rfl⟩ := List.exists_cons_of_ne_nil hinv
    exact ⟨_, _, rfl⟩
  have hround : ∀ mode, ∀ q ∈ p :: ps, q.rounded fp32 mode ≠ .nan := fun mode q hq =>
    rounded_ne_nan fp32_regular mode (hnum q (hps ▸ hq))
  have hrest : ∀ mode, ∀ y ∈ ps.map (fun p => p.rounded fp32 mode), y ≠ .nan := fun mode y hy => by
    obtain ⟨q, hq, rfl⟩ := List.mem_map.1 hy
    exact hround mode q (List.mem_cons_of_mem _ hq)
  obtain ⟨hmin, hminNum⟩ := foldl_pick (f := Ext.min) (fun _ _ => Ext.min_ne_nan) (hround 3 p (List.mem_cons_self ..)) (hrest 3)
  obtain ⟨hmax, hmaxNum⟩ := foldl_pick (f := Ext.max) (fun _ _ => Ext.max_ne_nan) (hround 2 p (List.mem_cons_self ..)) (hrest 2)
  have hends : slabEnds (slabProducts lo hi o inv) = ((ps.map fun p => p.rounded fp32 3).foldl Ext.min (p.rounded fp32 3),
      (ps.map fun p => p.rounded fp32 2).foldl Ext.max (p.rounded fp32 2)) := by
    rw [hps, slabEnds, List.map_cons, List.foldl_cons, Ext.inf_min, List.map_cons, List.foldl_cons, Ext.inf_max]
  rw [hends]
  constructor
  · rw [← hmin, ← hmax]
    simp only [slab, slab_products _ _ hnum, hps, List.map_cons]
    rfl
  · simp [hminNum, hmaxNum]

/-! ### One box -/

/-- R245: the test of a box whose products are numbers. -/
theorem boxTest_eq {o : List Ext} {inv : List (List Ext)} {box : List Ext} {tmin tmax : Ext} {p : Nat → Ext} {q : Nat → List Ext}
    {b : Nat → Ext} (ho : ∀ a, a < 3 → nth o a .nan = p a) (hinv : ∀ a, a < 3 → nth inv a [] = q a)
    (hbox : ∀ a, a < 6 → nth box a .nan = b a) (hq : ∀ a, a < 3 → q a ≠ [])
    (hnum : ∀ a, a < 3 → ∀ x ∈ slabProducts (b a) (b (a + 3)) (p a) (q a), x ≠ .nan) :
    boxTest o inv tmin tmax box = some (rayHit p q tmin tmax b) := by
  obtain ⟨h0, k0⟩ := slab_eq (hq 0 (by decide)) (hnum 0 (by decide))
  obtain ⟨h1, k1⟩ := slab_eq (hq 1 (by decide)) (hnum 1 (by decide))
  obtain ⟨h2, k2⟩ := slab_eq (hq 2 (by decide)) (hnum 2 (by decide))
  simp only [Nat.zero_add, Nat.reduceAdd] at h0 h1 h2 k0 k1 k2
  simp only [boxTest, upto, List.map_cons, List.map_nil, List.all_cons, List.all_nil, Bool.and_true, Nat.zero_add, Nat.reduceAdd,
    ho 0 (by decide), ho 1 (by decide), ho 2 (by decide), hinv 0 (by decide), hinv 1 (by decide), hinv 2 (by decide),
    hbox 0 (by decide), hbox 1 (by decide), hbox 2 (by decide), hbox 3 (by decide), hbox 4 (by decide), hbox 5 (by decide),
    h0, h1, h2, List.any_cons, List.any_nil, k0, k1, k2, Bool.or_false, Bool.false_eq_true, if_false, List.foldl_cons,
    List.foldl_nil]
  unfold rayHit
  dsimp only
  cases (b 0).le (b 3) <;> cases (b 1).le (b 4) <;> cases (b 2).le (b 5) <;> rfl

/-! ### The response word -/

/-- R245: two boxes in the order of the response word: hit ones by ascending tnear, ties to the lower index, before missed
ones in ascending index. -/
def hitsInOrder (h : Nat → Option Ext) (a b : Nat) : Prop :=
  match h a, h b with
  | some t, some u => u.lt t = false ∧ (t.lt u = false → a < b)
  | none, none => a < b
  | some _, none => True
  | none, some _ => False

/-- The order of hit boxes, each with its tnear. -/
def nearer (x y : Ext × Nat) : Prop := y.1.lt x.1 = false ∧ (x.1.lt y.1 = false → x.2 < y.2)

theorem insHit_perm (x : Ext × Nat) (l : List (Ext × Nat)) : (insHit x l).Perm (x :: l) := by
  induction l with
  | nil => exact .refl _
  | cons y r ih =>
    rw [insHit]
    split
    · exact .refl _
    · exact (ih.cons y).trans (.swap ..)

theorem insHit_chain {x : Ext × Nat} {l : List (Ext × Nat)} (hx : ∀ y ∈ l, y.2 < x.2) (h : l.IsChain nearer) :
    (insHit x l).IsChain nearer := by
  induction l with
  | nil => exact .singleton x
  | cons y r ih =>
    have hrest := ih (fun z hz => hx z (List.mem_cons_of_mem _ hz)) h.tail
    rw [insHit]
    by_cases hlt : x.1.lt y.1 = true
    · rw [if_pos hlt]
      exact List.isChain_cons_cons.2 ⟨⟨Ext.lt_asymm hlt, fun hno => by simp [hlt] at hno⟩, h⟩
    · rw [if_neg hlt]
      have hyx : nearer y x := ⟨by simpa using hlt, fun _ => hx y (List.mem_cons_self ..)⟩
      cases r with
      | nil => exact List.isChain_cons_cons.2 ⟨hyx, .singleton x⟩
      | cons z r =>
        rw [insHit] at hrest ⊢
        split at hrest
        next hz => rw [if_pos hz]; exact List.isChain_cons_cons.2 ⟨hyx, hrest⟩
        next hz => rw [if_neg hz]; exact List.isChain_cons_cons.2 ⟨(List.isChain_cons_cons.1 h).1, hrest⟩

/-- The boxes below n that are hit, in order. -/
def hitList (h : Nat → Option Ext) : Nat → List (Ext × Nat)
  | 0 => []
  | n + 1 => match h n with
    | some t => insHit (t, n) (hitList h n)
    | none => hitList h n

theorem hitList_spec (h : Nat → Option Ext) (n : Nat) : (hitList h n).IsChain nearer ∧
    ((hitList h n).map (·.2)).Perm ((List.range n).filter fun k => (h k).isSome) ∧ ∀ x ∈ hitList h n, h x.2 = some x.1 := by
  induction n with
  | zero => exact ⟨.nil, .refl _, by simp [hitList]⟩
  | succ n ih =>
    obtain ⟨hchain, hperm, hval⟩ := ih
    rw [hitList, List.range_succ, List.filter_append]
    cases hn : h n with
    | none => exact ⟨hchain, by simpa [hn] using hperm, hval⟩
    | some t =>
      have hbelow : ∀ y ∈ hitList h n, y.2 < n := fun y hy => by
        have := (List.mem_filter.1 (hperm.subset (List.mem_map_of_mem hy))).1
        exact List.mem_range.1 this
      refine ⟨insHit_chain hbelow hchain, ?_, fun x hx => ?_⟩
      · have hsingle : [n].filter (fun k => (h k).isSome) = [n] := by simp [hn]
        rw [hsingle]
        exact ((insHit_perm ..).map _).trans ((hperm.cons n).trans (List.perm_append_singleton ..).symm)
      · obtain rfl | hx := List.mem_cons.1 ((insHit_perm ..).subset hx)
        · exact hn
        · exact hval x hx

/-- R245: the order of the four boxes. -/
def boxOrder (h : Nat → Option Ext) : List Nat := (hitList h 4).map (·.2) ++ (List.range 4).filter fun k => (h k).isNone

theorem boxOrder_perm (h : Nat → Option Ext) : (boxOrder h).Perm (List.range 4) := by
  obtain ⟨-, hperm, -⟩ := hitList_spec h 4
  have hnone : (fun k => (h k).isNone) = fun k => !(h k).isSome := by
    funext k
    cases h k <;> rfl
  rw [boxOrder, hnone]
  exact (hperm.append_right _).trans (List.filter_append_perm _ _)

theorem boxOrder_chain (h : Nat → Option Ext) : (boxOrder h).IsChain (hitsInOrder h) := by
  obtain ⟨hchain, -, hval⟩ := hitList_spec h 4
  refine List.isChain_append.2 ⟨?_, ?_, fun x hx y hy => ?_⟩
  · rw [List.isChain_map]
    refine hchain.imp_of_mem_imp fun x y hx hy hxy => ?_
    simp only [hitsInOrder, hval x hx, hval y hy]
    exact hxy
  · have hsorted := (List.pairwise_lt_range (n := 4)).filter fun k => (h k).isNone
    refine hsorted.isChain.imp_of_mem_imp fun x y hx hy hxy => ?_
    have hnx := Option.isNone_iff_eq_none.1 (List.mem_filter.1 hx).2
    have hny := Option.isNone_iff_eq_none.1 (List.mem_filter.1 hy).2
    simp only [hitsInOrder, hnx, hny]
    exact hxy
  · obtain ⟨z, hz, rfl⟩ := List.mem_map.1 (List.mem_of_getLast? hx)
    have hny := Option.isNone_iff_eq_none.1 (List.mem_filter.1 (List.mem_of_head? hy)).2
    simp only [hitsInOrder, hval z hz, hny]

/-- The number whose bit k, of those below n, is b k. -/
def maskBelow (b : Nat → Bool) (n : Nat) : Nat := (List.range n).foldl (fun m k => if b k then m + 2 ^ k else m) 0

theorem maskBelow_succ (b : Nat → Bool) (n : Nat) : maskBelow b (n + 1) = maskBelow b n + if b n then 2 ^ n else 0 := by
  rw [maskBelow, List.range_succ, List.foldl_append, ← maskBelow, List.foldl_cons, List.foldl_nil]
  split <;> rfl

theorem maskBelow_spec (b : Nat → Bool) (n : Nat) : maskBelow b n < 2 ^ n ∧ ∀ k, k < n → (maskBelow b n).testBit k = b k := by
  induction n with
  | zero => exact ⟨Nat.one_pos, fun k hk => absurd hk (Nat.not_lt_zero k)⟩
  | succ n ih =>
    obtain ⟨hlt, hbits⟩ := ih
    rw [maskBelow_succ, Nat.pow_succ]
    constructor
    · split <;> omega
    intro k hk
    cases hb : b n with
    | false =>
      rw [if_neg Bool.false_ne_true, Nat.add_zero]
      obtain rfl | hk := Nat.lt_succ_iff_lt_or_eq.1 hk |>.symm
      · rw [Nat.testBit_lt_two_pow hlt, hb]
      · exact hbits k hk
    | true =>
      rw [if_pos rfl, Nat.add_comm]
      obtain rfl | hk := Nat.lt_succ_iff_lt_or_eq.1 hk |>.symm
      · rw [Nat.testBit_two_pow_add_eq, Nat.testBit_lt_two_pow hlt, hb]
        rfl
      · rw [Nat.testBit_two_pow_add_gt hk, hbits k hk]

theorem zipIdx_map_range {α : Type} (h : Nat → α) (n : Nat) :
    ((List.range n).map h).zipIdx = (List.range n).map fun k => (h k, k) :=
  List.ext_getElem (by simp) fun i _ _ => by simp

theorem hitList_eq_foldl (h : Nat → Option Ext) (n : Nat) : hitList h n = (List.range n).foldl (fun l k => match h k with
    | some t => insHit (t, k) l
    | none => l) [] := by
  induction n with
  | zero => rfl
  | succ n ih =>
    rw [List.range_succ, List.foldl_append, ← ih, hitList] <;> rfl

/-- R245: the hit bits, and above them the order. -/
theorem boxWord_eq (h : Nat → Option Ext) : boxWord ((upto 0 4).map h) =
    maskBelow (fun k => (h k).isSome) 4 + (boxOrder h).zipIdx.foldl (fun m x => m + x.1 * 2 ^ (4 + 2 * x.2)) 0 := by
  have hmiss : ((((List.range 4).map fun k => (h k, k)).filter fun x => x.1.isNone).map (·.2)) =
      (List.range 4).filter fun k => (h k).isNone := by
    rw [List.filter_map, List.map_map]
    exact List.map_id _
  rw [boxWord, upto_zero, zipIdx_map_range, hmiss, List.foldl_map, List.foldl_map, boxOrder, hitList_eq_foldl] <;> rfl

theorem wordOfHits_boxWord (h : Nat → Option Ext) : wordOfHits (boxWord ((upto 0 4).map h)) h := by
  obtain ⟨hmask, hbits⟩ := maskBelow_spec (fun k => (h k).isSome) 4
  have hperm := boxOrder_perm h
  have hchain := boxOrder_chain h
  rw [boxWord_eq]
  generalize maskBelow (fun k => (h k).isSome) 4 = m at hmask hbits ⊢
  obtain ⟨a, b, c, d, horder⟩ : ∃ a b c d, boxOrder h = [a, b, c, d] := by
    match boxOrder h, hperm.length_eq with
    | [a, b, c, d], _ => exact ⟨a, b, c, d, rfl⟩
  rw [horder] at hperm hchain ⊢
  have hlt : ∀ k ∈ [a, b, c, d], k < 4 := fun k hk => List.mem_range.1 (hperm.subset hk)
  have ha := hlt a (by simp)
  have hb := hlt b (by simp)
  have hc := hlt c (by simp)
  have hd := hlt d (by simp)
  obtain ⟨hab, hbc, hcd⟩ : hitsInOrder h a b ∧ hitsInOrder h b c ∧ hitsInOrder h c d := by
    simpa [List.isChain_cons_cons] using hchain
  have hsum : ([a, b, c, d].zipIdx.foldl (fun m x => m + x.1 * 2 ^ (4 + 2 * x.2)) 0) = 16 * (a + 4 * b + 16 * c + 64 * d) := by
    simp only [List.zipIdx_cons, List.zipIdx_nil, List.foldl_cons, List.foldl_nil]
    omega
  rw [hsum]
  have he : ∀ j, j < 4 → (m + 16 * (a + 4 * b + 16 * c + 64 * d)) / 2 ^ (4 + 2 * j) % 4 = [a, b, c, d].getD j 0 := fun j hj => by
    interval_cases j <;> simp only [List.getD_cons_zero, List.getD_cons_succ] <;> omega
  refine ⟨by omega, fun k hk => ?_, fun k hk => ?_, fun j hj => ?_⟩
  · rw [Nat.add_comm, show (16 : Nat) = 2 ^ 4 from rfl, Nat.testBit_two_pow_mul_add _ hmask, if_pos hk, hbits k hk]
  · obtain ⟨j, hj, hk⟩ := List.mem_iff_getElem.1 (hperm.symm.subset (List.mem_range.2 hk))
    exact ⟨j, hj, (he j hj).trans (by rw [List.getD_eq_getElem _ _ hj, hk])⟩
  · dsimp only
    rw [he j (by omega), he (j + 1) (by omega)]
    interval_cases j
    · exact hab
    · exact hbc
    · exact hcd

/-- R247: no box is hit. -/
theorem boxWord_missed : boxWord (List.replicate 4 none) = 0xE40 := by decide

/-! ### Nodes -/

theorem boxOf_eq {ws : List Nat} (hlen : ws.length = 24) {k a : Nat} (hk : k < 4) (ha : a < 6) :
    nth (((ws.drop (6 * k)).take 6).map extOf) a .nan = boxOf ws k a := by
  have hin : a < ((ws.drop (6 * k)).take 6).length := by
    rw [List.length_take, List.length_drop]
    omega
  rw [nth_eq_getD, List.getD_eq_getElem _ _ (by simpa using hin), List.getElem_map, List.getElem_take, List.getElem_drop, boxOf,
    extOf, List.getD_eq_getElem _ _ (by omega)]

theorem nth_map_extOf {w : List Nat} {n i : Nat} (hi : i < n) (hlen : n ≤ w.length) :
    nth ((w.take n).map extOf) i .nan = (fpDecode fp32 (w.getD i 0)).ext := by
  have hin : i < (w.take n).length := by
    rw [List.length_take]
    omega
  rw [nth_eq_getD, List.getD_eq_getElem _ _ (by simpa using hin), List.getElem_map, List.getElem_take, extOf,
    List.getD_eq_getElem _ _ (by omega)]

theorem any_isNan32_all {w : List Nat} {n : Nat} (h : w.length = n) : w.any isNan32 = true ↔ ¬numbers w n := by
  rw [← any_isNan32 (Nat.le_of_eq h.symm), ← h, List.take_length]

theorem any_isNan32_all_numbers {w : List Nat} {n : Nat} (h : w.length = n) (hnum : numbers w n) : w.any isNan32 = false := by
  rw [← Bool.not_eq_true, any_isNan32_all h]
  exact not_not.2 hnum

/-- R244: a request that is invalid, or of words with a NaN, is not looked at. -/
theorem lane_stops {w : List Nat} {k n : Nat} (hlen : n ≤ w.length) (h : (w.getD k 0).testBit 31 = false ∨ ¬numbers w n) :
    (!tb (w.getD k 0) 31 || (w.take n).any isNan32) = true := by
  obtain h | h := h
  · rw [tb_false h]
    rfl
  · rw [(any_isNan32 hlen).2 h]
    exact Bool.or_true _

theorem lane_goes {w : List Nat} {k n : Nat} (hlen : n ≤ w.length) (hvalid : (w.getD k 0).testBit 31 = true)
    (hnum : numbers w n) : (!tb (w.getD k 0) 31 || (w.take n).any isNan32) = false := by
  rw [tb_true hvalid, any_isNan32_of_numbers hlen hnum]
  rfl

section
variable {s t : State} {ctx core par lane : Nat} {w ws o : List Nat} {inv : List (List Nat)} {tmin tmax node : Nat} {miss : Bool}

theorem nodeTest_nan (h : nodeRead s ctx core par node = .ok (t, ws)) (hlen : ws.length = 24) (hnan : ¬numbers ws 24) :
    nodeTest s ctx core par lane o inv tmin tmax node miss = .ok (t, [0]) := by
  rw [nodeRead, ← upto_zero] at h
  simp only [nodeTest, h, (any_isNan32_all hlen).2 hnan, if_true]

theorem nodeTest_missed (h : nodeRead s ctx core par node = .ok (t, ws)) (hlen : ws.length = 24) (hnum : numbers ws 24) :
    nodeTest s ctx core par lane o inv tmin tmax node true = .ok (t, [0xE40]) := by
  have hgo := any_isNan32_all_numbers hlen hnum
  rw [nodeRead, ← upto_zero] at h
  simp only [nodeTest, h, hgo, Bool.false_eq_true, if_false, if_true, boxWord_missed]

/-- R245: the boxes of a node, their products numbers. -/
theorem nodeTest_tested {p : Nat → Ext} {q : Nat → List Ext} (h : nodeRead s ctx core par node = .ok (t, ws))
    (hlen : ws.length = 24) (hnum : numbers ws 24) (ho : ∀ a, a < 3 → nth (o.map extOf) a .nan = p a)
    (hinv : ∀ a, a < 3 → nth (inv.map fun l => l.map extOf) a [] = q a) (hq : ∀ a, a < 3 → q a ≠ [])
    (hprod : ∀ k a, k < 4 → a < 3 → ∀ x ∈ slabProducts (boxOf ws k a) (boxOf ws k (a + 3)) (p a) (q a), x ≠ .nan) :
    ∃ v, nodeTest s ctx core par lane o inv tmin tmax node false = .ok (t, [v]) ∧
      wordOfHits v fun k => rayHit p q (extOf tmin) (extOf tmax) (boxOf ws k) := by
  have hgo := any_isNan32_all_numbers hlen hnum
  have hbox : ∀ k ∈ upto 0 4, boxOutcome (freeLane t lane) k (boxTest (o.map extOf) (inv.map fun l => l.map extOf) (extOf tmin)
      (extOf tmax) (((ws.drop (6 * k)).take 6).map extOf)) = rayHit p q (extOf tmin) (extOf tmax) (boxOf ws k) := fun k hk => by
    have hk : k < 4 := by rwa [upto_zero, List.mem_range] at hk
    rw [boxTest_eq ho hinv (fun a ha => boxOf_eq hlen hk ha) hq fun a ha => hprod k a hk ha]
    rfl
  rw [nodeRead, ← upto_zero] at h
  refine ⟨_, ?_, wordOfHits_boxWord _⟩
  simp only [nodeTest, h, hgo, Bool.false_eq_true, if_false, List.map_congr_left hbox]

/-! ### RAY.BOX4 -/

theorem boxLane_invalid (hlen : w.length = 9) (h : (w.getD 8 0).testBit 31 = false ∨ ¬numbers w 8) :
    boxLane s ctx core par lane w = .ok (s, [0]) := by
  simp only [boxLane, nth_eq_getD, lane_stops (show 8 ≤ w.length by omega) h, if_true]

theorem boxLane_valid (hlen : w.length = 9) (hvalid : (w.getD 8 0).testBit 31 = true) (hnum : numbers w 8) :
    boxLane s ctx core par lane w = nodeTest s ctx core par lane (w.take 3) [[w.getD 3 0], [w.getD 4 0], [w.getD 5 0]]
      (w.getD 6 0) (w.getD 7 0) (w.getD 8 0) false := by
  simp only [boxLane, nth_eq_getD, lane_goes (show 8 ≤ w.length by omega) hvalid hnum, Bool.false_eq_true, if_false]

theorem boxLane_tested {r : Nat → Ext} (hlen : w.length = 9) (hvalid : (w.getD 8 0).testBit 31 = true) (hnum : numbers w 8)
    (hread : nodeRead s ctx core par (w.getD 8 0) = .ok (t, ws)) (hws : ws.length = 24) (hnums : numbers ws 24)
    (hr : ∀ i, r i = (fpDecode fp32 (w.getD i 0)).ext)
    (hprod : ∀ k a, k < 4 → a < 3 → ∀ p ∈ slabProducts (boxOf ws k a) (boxOf ws k (a + 3)) (r a) [r (3 + a)], p ≠ .nan) :
    ∃ v, boxLane s ctx core par lane w = .ok (t, [v]) ∧
      wordOfHits v fun k => rayHit r (fun a => [r (3 + a)]) (r 6) (r 7) (boxOf ws k) := by
  rw [boxLane_valid hlen hvalid hnum, hr 6, hr 7]
  refine nodeTest_tested hread hws hnums (fun a ha => ?_) (fun a ha => ?_) (fun _ _ => List.cons_ne_nil _ _) hprod
  · rw [nth_map_extOf ha (by omega), hr]
  · interval_cases a <;> exact congrArg (· :: []) (hr _).symm

end

theorem boxAnswers : BoxAnswers := by
  refine ⟨fun s ctx core par lane w hlen h => boxLane_invalid hlen h, ?_, ?_⟩
  · intro s t ctx core par lane w ws hlen hvalid hnum hread hws hnan
    rw [boxLane_valid hlen hvalid hnum, nodeTest_nan hread hws hnan]
  · intro s t ctx core par lane w ws r hlen hvalid hnum hread hws hnums hr hprod
    exact boxLane_tested hlen hvalid hnum hread hws hnums hr hprod

/-! ### RAY.FRUSTUM64 -/

section
variable {s t : State} {ctx core par : Nat} {w ws : List Nat}

theorem frustumWord_invalid (hlen : w.length = 16) (h : (w.getD 11 0).testBit 31 = false ∨ ¬numbers w 11) :
    frustumWord s ctx core par w = .ok (s, [0]) := by
  simp only [frustumWord, nth_eq_getD, lane_stops (show 11 ≤ w.length by omega) h, if_true]

/-- R247: some interval of the inverse directions is empty. -/
def emptyInterval (w : List Nat) : Bool :=
  [3, 5, 7].any fun i => (extOf (w.getD (i + 1) 0)).lt (extOf (w.getD i 0))

theorem emptyInterval_iff {r : Nat → Ext} (hr : ∀ i, r i = (fpDecode fp32 (w.getD i 0)).ext) :
    emptyInterval w = true ↔ ∃ a, a < 3 ∧ (r (4 + 2 * a)).lt (r (3 + 2 * a)) = true := by
  have hext : ∀ i, extOf (w.getD i 0) = r i := fun i => (hr i).symm
  simp only [emptyInterval, hext, List.any_cons, List.any_nil, Bool.or_false, Bool.or_eq_true]
  constructor
  · rintro (h | h | h)
    · exact ⟨0, by decide, h⟩
    · exact ⟨1, by decide, h⟩
    · exact ⟨2, by decide, h⟩
  · rintro ⟨a, ha, h⟩
    interval_cases a
    · exact .inl h
    · exact .inr (.inl h)
    · exact .inr (.inr h)

theorem frustumWord_valid (hlen : w.length = 16) (hvalid : (w.getD 11 0).testBit 31 = true) (hnum : numbers w 11) :
    frustumWord s ctx core par w = nodeTest s ctx core par 0 (w.take 3) [[w.getD 3 0, w.getD 4 0], [w.getD 5 0, w.getD 6 0],
      [w.getD 7 0, w.getD 8 0]] (w.getD 9 0) (w.getD 10 0) (w.getD 11 0) (emptyInterval w) := by
  simp only [frustumWord, nth_eq_getD, lane_goes (show 11 ≤ w.length by omega) hvalid hnum, Bool.false_eq_true, if_false]
  rfl

theorem frustumWord_tested {r : Nat → Ext} (hlen : w.length = 16) (hvalid : (w.getD 11 0).testBit 31 = true) (hnum : numbers w 11)
    (hread : nodeRead s ctx core par (w.getD 11 0) = .ok (t, ws)) (hws : ws.length = 24) (hnums : numbers ws 24)
    (hr : ∀ i, r i = (fpDecode fp32 (w.getD i 0)).ext) (hfull : ∀ a, a < 3 → (r (4 + 2 * a)).lt (r (3 + 2 * a)) = false)
    (hprod : ∀ k a, k < 4 → a < 3 → ∀ p ∈ slabProducts (boxOf ws k a) (boxOf ws k (a + 3)) (r a)
      [r (3 + 2 * a), r (4 + 2 * a)],
      p ≠ .nan) :
    ∃ v, frustumWord s ctx core par w = .ok (t, [v]) ∧
      wordOfHits v fun k => rayHit r (fun a => [r (3 + 2 * a), r (4 + 2 * a)]) (r 9) (r 10) (boxOf ws k) := by
  have hmiss : emptyInterval w = false := by
    rw [← Bool.not_eq_true, emptyInterval_iff hr]
    rintro ⟨a, ha, h⟩
    exact Bool.false_ne_true ((hfull a ha).symm.trans h)
  rw [frustumWord_valid hlen hvalid hnum, hr 9, hr 10, hmiss]
  refine nodeTest_tested hread hws hnums (fun a ha => ?_) (fun a ha => ?_) (fun _ _ => List.cons_ne_nil _ _) hprod
  · rw [nth_map_extOf ha (by omega), hr]
  · interval_cases a <;> exact congrArg₂ (fun x y => [x, y]) (hr _).symm (hr _).symm

theorem frustumUnit_eq {y : Binding} {x : Record} {o : List Nat} (h : frustumWord s ctx core par (x.words.map (·.toNat)) = .ok (t, o))
    (hpar : y.param.toNat = par) : frustumUnit core s ctx y [x] = .ok (t, [o.map (BitVec.ofNat 32)]) := by
  subst hpar
  simp only [frustumUnit, List.head?_cons, Option.map_some, Option.getD_some, h]

end

theorem frustumAnswers : FrustumAnswers := by
  refine ⟨fun s ctx core par w hlen h => frustumWord_invalid hlen h, ?_, ?_, ?_⟩
  · intro s t ctx core par w ws r hlen hvalid hnum hread hws hnums hr hempty
    rw [frustumWord_valid hlen hvalid hnum, (emptyInterval_iff hr).2 hempty, nodeTest_missed hread hws hnums]
  · intro s t ctx core par w ws r hlen hvalid hnum hread hws hnums hr hfull hprod
    exact frustumWord_tested hlen hvalid hnum hread hws hnums hr hfull hprod
  · intro s ctx core par y x t o h hpar
    exact frustumUnit_eq h hpar

end Sys2Proof.Machine
end

section
/-! O49: RAY.TRI (R244, R246). -/

namespace Sys2Proof.Machine

/-! ### Axes, vertices and edges -/

/-- The first three values of a function. -/
def three (f : Nat → Ext) : List Ext := [f 0, f 1, f 2]

theorem nth_three (f : Nat → Ext) {i : Nat} (h : i < 3) : nth (three f) i .nan = f i := by
  interval_cases i <;> rfl

theorem translate_three (v o : Nat → Ext) : translate3 (three v) (three o) = three (moved o v) := rfl

/-- R246: the axes are determined. -/
theorem shearAxes_eq {d : Nat → Ext} {kx ky kz : Nat} (h : rayAxes d kx ky kz) : shearAxes (three d) = (kx, ky, kz) := by
  obtain ⟨hz, hmax, hfirst, hxy⟩ := h
  have h0 := hmax 0 (by decide)
  have h1 := hmax 1 (by decide)
  have h2 := hmax 2 (by decide)
  have hkz : (if ((d 1).abs.le (d 0).abs && (d 2).abs.le (d 0).abs) = true then 0 else if (d 2).abs.le (d 1).abs = true then 1 else 2) =
      kz := by
    unfold Ext.le
    interval_cases kz
    · simp [h1, h2]
    · simp [hfirst 0 (by decide), h2]
    · simp [hfirst 0 (by decide), hfirst 1 (by decide)]
  have hky : ((kz + 1) % 3 + 1) % 3 = (kz + 2) % 3 := by omega
  unfold shearAxes
  simp only [nth_three d (show 0 < 3 by decide), nth_three d (show 1 < 3 by decide), nth_three d (show 2 < 3 by decide), hkz,
    nth_three d hz, hky]
  split at hxy
  next hneg =>
    obtain ⟨rfl, rfl⟩ := hxy
    rw [if_pos hneg]
  next hneg =>
    obtain ⟨rfl, rfl⟩ := hxy
    rw [if_neg hneg]

theorem axes_lt {d : Nat → Ext} {kx ky kz : Nat} (h : rayAxes d kx ky kz) : kx < 3 ∧ ky < 3 ∧ kz < 3 := by
  obtain ⟨hz, -, -, hxy⟩ := h
  split at hxy <;> omega

theorem shear_three {kx ky kz : Nat} (hx : kx < 3) (hy : ky < 3) (hz : kz < 3) (o d v : Nat → Ext) :
    shear kx ky kz (((d kx).div (d kz)).rounded fp32 0) (((d ky).div (d kz)).rounded fp32 0) (three (moved o v)) =
      sheared o d v kx ky kz := by
  simp only [shear, nth_three _ hx, nth_three _ hy, nth_three _ hz, sheared]

theorem edgePositive_iff (e : Ext) (p q : Ext × Ext) : edgePositive e p q = true ↔ countsPositive e p q := by
  unfold edgePositive countsPositive
  split
  · cases p.2.lt q.2 <;> simp
  · rfl

/-! ### The test -/

/-- R246: the signs that the edge functions count as. -/
def signsOf (o d a b c : Nat → Ext) (kx ky kz : Nat) (x : RayTri) : List Bool :=
  let pa := sheared o d a kx ky kz
  let pb := sheared o d b kx ky kz
  let pc := sheared o d c kx ky kz
  [edgePositive x.u pc pb, edgePositive x.v pa pc, edgePositive x.w pb pa]

/-- Both signs occur. -/
def bothSigns (l : List Bool) : Bool := l.contains true && l.contains false

theorem bothSigns_iff (o d a b c : Nat → Ext) (kx ky kz : Nat) {x : RayTri} (hx : x = rayTriOf o d a b c kx ky kz) :
    bothSigns (signsOf o d a b c kx ky kz x) = true ↔ ¬((x.pu ↔ x.pv) ∧ (x.pv ↔ x.pw)) := by
  subst hx
  have hboth : ∀ p q r : Bool, bothSigns [p, q, r] = true ↔ ¬((p = true ↔ q = true) ∧ (q = true ↔ r = true)) := by decide
  rw [signsOf, hboth, edgePositive_iff, edgePositive_iff, edgePositive_iff]
  rfl

/-- R246: the result where no edge function is a NaN. -/
theorem triTest_eq {o d a b c : Nat → Ext} {kx ky kz : Nat} {tmin tmax : Ext} {free : Nat} {x : RayTri}
    (haxes : rayAxes d kx ky kz) (hx : x = rayTriOf o d a b c kx ky kz) (hu : x.u ≠ .nan) (hv : x.v ≠ .nan) (hw : x.w ≠ .nan)
    (hdet : x.det ≠ .nan) :
    triTest (three o) (three d) (three a) (three b) (three c) tmin tmax free =
      if (bothSigns (signsOf o d a b c kx ky kz x) || x.det.isZero) = true then [0, 0, 0, 0]
      else if (if x.t = .nan then tb free 0 else tmin.le x.t && x.t.le tmax) = true then
        [if x.det.lt (.rat .zero) = true then 3 else 1, x.t.round fp32 0, (x.u.div x.det).round fp32 0,
          (x.v.div x.det).round fp32 0]
      else [0, 0, 0, 0] := by
  obtain ⟨hkx, hky, hkz⟩ := axes_lt haxes
  have heu : edgeCross (sheared o d c kx ky kz) (sheared o d b kx ky kz) = x.u := by rw [hx]; rfl
  have hev : edgeCross (sheared o d a kx ky kz) (sheared o d c kx ky kz) = x.v := by rw [hx]; rfl
  have hew : edgeCross (sheared o d b kx ky kz) (sheared o d a kx ky kz) = x.w := by rw [hx]; rfl
  have hsum : (x.u.add x.v).add x.w = x.det := rfl
  have ht : (((((Ext.rat .one).div (d kz)).rounded fp32 0).mul (((x.u.mul (moved o a kz)).add (x.v.mul (moved o b kz))).add
      (x.w.mul (moved o c kz)))).div x.det).rounded fp32 0 = x.t := by rw [hx]; rfl
  have hsigns : ([(x.u, edgePositive x.u (sheared o d c kx ky kz) (sheared o d b kx ky kz)),
      (x.v, edgePositive x.v (sheared o d a kx ky kz) (sheared o d c kx ky kz)),
      (x.w, edgePositive x.w (sheared o d b kx ky kz) (sheared o d a kx ky kz))].filter fun x => x.1 != .nan).map (·.2) =
      signsOf o d a b c kx ky kz x := by
    rw [List.filter_eq_self.2 (by simp [hu, hv, hw])]
    rfl
  unfold triTest bothSigns
  simp only [shearAxes_eq haxes, nth_three d hkx, nth_three d hky, nth_three d hkz, translate_three, shear_three hkx hky hkz,
    nth_three _ hkz, heu, hev, hew, hsum, ht, hsigns, if_neg hdet]

/-! ### One lane -/

theorem map_extOf_six {w : List Nat} {r : Nat → Ext} (hlen : w.length = 9) (hr : ∀ i, r i = (fpDecode fp32 (w.getD i 0)).ext) :
    ((w.take 6).map extOf).take 3 = three r ∧ ((w.take 6).map extOf).drop 3 = three fun i => r (3 + i) := by
  obtain rfl : r = fun i => (fpDecode fp32 (w.getD i 0)).ext := funext hr
  match w, hlen with
  | [_, _, _, _, _, _, _, _, _], _ => exact ⟨rfl, rfl⟩

theorem map_extOf_nine {w : List Nat} {v : Nat → Ext} (hlen : w.length = 9) (hv : ∀ i, v i = (fpDecode fp32 (w.getD i 0)).ext) :
    (w.map extOf).take 3 = three v ∧ ((w.map extOf).drop 3).take 3 = three (fun i => v (3 + i)) ∧
      (w.map extOf).drop 6 = three fun i => v (6 + i) := by
  obtain rfl : v = fun i => (fpDecode fp32 (w.getD i 0)).ext := funext hv
  match w, hlen with
  | [_, _, _, _, _, _, _, _, _], _ => exact ⟨rfl, rfl, rfl⟩

section
variable {s t : State} {ctx core par lane : Nat} {w ws : List Nat}

theorem triLane_invalid (hlen : w.length = 9) (h : (w.getD 8 0).testBit 31 = false ∨ ¬numbers w 8) :
    triLane s ctx core par lane w = .ok (s, [0, 0, 0, 0]) := by
  simp only [triLane, nth_eq_getD, lane_stops (show 8 ≤ w.length by omega) h, if_true]
  rfl

theorem triLane_nan (hlen : w.length = 9) (hvalid : (w.getD 8 0).testBit 31 = true) (hnum : numbers w 8)
    (hread : triRead s ctx core par (w.getD 8 0) = .ok (t, ws)) (hws : ws.length = 9) (hnan : ¬numbers ws 9) :
    triLane s ctx core par lane w = .ok (t, [0, 0, 0, 0]) := by
  rw [triRead] at hread
  simp only [triLane, nth_eq_getD, lane_goes (show 8 ≤ w.length by omega) hvalid hnum, Bool.false_eq_true,
    if_false, hread, (any_isNan32_all hws).2 hnan, if_true]
  rfl

theorem triLane_tested {r v : Nat → Ext} (hlen : w.length = 9) (hvalid : (w.getD 8 0).testBit 31 = true) (hnum : numbers w 8)
    (hread : triRead s ctx core par (w.getD 8 0) = .ok (t, ws)) (hws : ws.length = 9) (hnums : numbers ws 9)
    (hr : ∀ i, r i = (fpDecode fp32 (w.getD i 0)).ext) (hv : ∀ i, v i = (fpDecode fp32 (ws.getD i 0)).ext) :
    triLane s ctx core par lane w = .ok (t, triTest (three r) (three fun i => r (3 + i)) (three v) (three fun i => v (3 + i))
      (three fun i => v (6 + i)) (r 6) (r 7) (freeLane t lane 0)) := by
  obtain ⟨ho, hd⟩ := map_extOf_six hlen hr
  obtain ⟨ha, hb, hc⟩ := map_extOf_nine hws hv
  have hgo := any_isNan32_all_numbers hws hnums
  rw [triRead] at hread
  simp only [triLane, nth_eq_getD, lane_goes (show 8 ≤ w.length by omega) hvalid hnum, Bool.false_eq_true,
    if_false, hread, hgo, ho, hd, ha, hb, hc, hr 6, hr 7]
  rfl

end

theorem triAnswers : TriAnswers := by
  refine ⟨fun s ctx core par lane w hlen h => triLane_invalid hlen h, ?_, ?_⟩
  · intro s t ctx core par lane w ws hlen hvalid hnum hread hws hnan
    exact triLane_nan hlen hvalid hnum hread hws hnan
  · intro s t ctx core par lane kx ky kz w ws r v x hlen hvalid hnum hread hws hnums hr hv haxes hx hu hvx hw hdet
    rw [triLane_tested hlen hvalid hnum hread hws hnums hr hv, triTest_eq haxes hx hu hvx hw hdet]
    have hboth := bothSigns_iff _ _ _ _ _ kx ky kz hx
    constructor
    · rintro (hsigns | hzero | ⟨hnum, hout⟩)
      · rw [hboth.2 hsigns, Bool.true_or, if_pos rfl]
      · rw [hzero, Bool.or_true, if_pos rfl]
      · rw [if_neg hnum, if_neg (c := (_ && _) = true) fun h => hout (by simpa using h), ite_self]
    · intro huv hvw hzero hnum hlo hhi
      have hone : ¬(bothSigns (signsOf r (fun i => r (3 + i)) v (fun i => v (3 + i)) (fun i => v (6 + i)) kx ky kz x) ||
          x.det.isZero) = true := by
        rw [hzero, Bool.or_false, hboth]
        exact not_not.2 ⟨huv, hvw⟩
      rw [if_neg hone, if_neg hnum, hlo, hhi, Bool.and_self, if_pos rfl]

end Sys2Proof.Machine
end

section
/-! O49: BLEND.COLOUR (R242, R243). -/

namespace Sys2Proof.Machine

/-! ### Bytes of a pixel -/

/-- Bytes of one sector, read at its slice. -/
theorem readAt_bytes (s : State) {pa n : Nat} (h : pa % 32 + n ≤ 32) : (readAt s pa 0 n).1 = cellsGet s.mem pa n := by
  have hplain : (readAt s pa 0 n).1 = ((sectorBytes s (pa / 32)).drop (pa % 32)).take n := by
    simp only [readAt, sliceRead, cryptSector, if_true]
  have hlen : (((sectorBytes s (pa / 32)).drop (pa % 32)).take n).length = n := by
    rw [List.length_take, List.length_drop, sectorBytes, length_cellsGet]
    omega
  rw [hplain]
  refine ext_getD (hlen.trans (length_cellsGet ..).symm) fun i hi => ?_
  have hin := hlen ▸ hi
  rw [List.getD_eq_getElem _ _ hi, List.getElem_take, List.getElem_drop, ← List.getD_eq_getElem _ 0, sectorBytes,
    getD_cellsGet _ _ (by omega), getD_cellsGet _ _ hin]
  congr 1
  omega

/-- R139, R155: bytes of one sector, written at its slice where the link refuses nothing. -/
theorem cellGet_writeAt {s : State} {ctx : Nat} {q : Phys} {l : List Byte} (hq : simple q.pa q.key l.length)
    (hlink : q.pa / 32 ∉ s.refused) (a : Nat) : cellGet (writeAt s ctx q l).mem a =
      if q.pa ≤ a ∧ a < q.pa + l.length then l.getD (a - q.pa) 0 else cellGet s.mem a := by
  obtain ⟨hkey, hfits⟩ := hq
  have hlink' : linkRefuses s (32 * (q.pa / 32)) = false := by
    rw [linkRefuses, show 32 * (q.pa / 32) / 32 = q.pa / 32 by omega, List.contains_eq_mem, decide_eq_false hlink, Bool.and_false]
  unfold writeAt
  dsimp only
  rw [if_pos hkey]
  split
  next ha =>
    obtain ⟨i, rfl⟩ : ∃ i, a = q.pa + i := ⟨a - q.pa, by omega⟩
    rw [show q.pa + i = 32 * (q.pa / 32) + (q.pa % 32 + i) by omega,
      cellGet_sliceWrite_same (length_placeBytes hfits) (by omega) hlink' (by rw [testBit_placeBytes, decide_eq_true_eq]; omega),
      getD_placeBytes (by omega)]
    congr 1
    omega
  next ha =>
    refine cellGet_sliceWrite_other (or_iff_not_imp_left.2 fun hk => ?_)
    rw [testBit_placeBytes, decide_eq_false_iff_not]
    omega

/-! ### Numbers by their digits -/

/-- The number whose digit c in base 2^m, of those below n, is f c. -/
def digitsBelow (f : Nat → Nat) (m n : Nat) : Nat := (List.range n).foldl (fun v c => v + f c * 2 ^ (m * c)) 0

theorem digitsBelow_succ (f : Nat → Nat) (m n : Nat) : digitsBelow f m (n + 1) = digitsBelow f m n + f n * 2 ^ (m * n) := by
  rw [digitsBelow, List.range_succ, List.foldl_append]
  rfl

theorem digitsBelow_spec {f : Nat → Nat} {m n : Nat} (hf : ∀ c, c < n → f c < 2 ^ m) : digitsBelow f m n < 2 ^ (m * n) ∧
    ∀ c, c < n → digitsBelow f m n / 2 ^ (m * c) % 2 ^ m = f c := by
  induction n with
  | zero => exact ⟨Nat.two_pow_pos _, fun c hc => absurd hc (Nat.not_lt_zero c)⟩
  | succ n ih =>
    obtain ⟨hlt, hdigit⟩ := ih fun c hc => hf c (by omega)
    have hn := hf n (by omega)
    rw [digitsBelow_succ]
    constructor
    · calc digitsBelow f m n + f n * 2 ^ (m * n) < 2 ^ (m * n) + f n * 2 ^ (m * n) := Nat.add_lt_add_right hlt _
        _ = (f n + 1) * 2 ^ (m * n) := by rw [Nat.add_mul, Nat.one_mul, Nat.add_comm]
        _ ≤ 2 ^ m * 2 ^ (m * n) := Nat.mul_le_mul_right _ hn
        _ = 2 ^ (m * (n + 1)) := by rw [← Nat.pow_add, Nat.mul_succ, Nat.add_comm]
    intro c hc
    obtain rfl | hc := Nat.lt_succ_iff_lt_or_eq.1 hc |>.symm
    · rw [Nat.add_mul_div_right _ _ (Nat.two_pow_pos _), Nat.div_eq_of_lt hlt, Nat.zero_add, Nat.mod_eq_of_lt hn]
    · obtain ⟨k, rfl⟩ : ∃ k, n = c + 1 + k := ⟨n - (c + 1), by omega⟩
      have hpow : f (c + 1 + k) * 2 ^ (m * (c + 1 + k)) = f (c + 1 + k) * 2 ^ (m * k) * 2 ^ m * 2 ^ (m * c) := by ring
      rw [hpow, Nat.add_mul_div_right _ _ (Nat.two_pow_pos _), Nat.add_mul_mod_self_right, hdigit c hc]

/-! ### Channels -/

theorem bits_toNat {n : Nat} (t : BitVec n) (lo w : Nat) : bits t.toNat lo w = (t.extractLsb' lo w).toNat := by
  rw [bits, BitVec.extractLsb'_toNat, Nat.shiftRight_eq_div_pow]

theorem tgFmt_iff (t : BitVec 128) : (tgFmt t == 4) = true ↔ t.extractLsb' 96 4 = 4 := by
  rw [beq_iff_eq, tgFmt, bits_toNat, ← BitVec.toNat_inj]
  rfl

theorem tgPixel_eq (t : BitVec 128) : tgPixel t = if t.extractLsb' 96 4 = 4 then 8 else 4 := by
  rw [tgPixel]
  exact if_congr (by rw [← tgFmt_iff, beq_iff_eq]) rfl rfl

theorem blendFactor_eq (t : BitVec 128) (lo : Nat) (sa da : Ext) :
    blendFactor (tgFactor t lo) sa da = factorOf (t.extractLsb' lo 3) sa da := by
  rw [tgFactor, bits_toNat]
  generalize t.extractLsb' lo 3 = c
  have hc : c = BitVec.ofNat 3 c.toNat := (BitVec.ofNat_toNat 3 c).symm ▸ by simp
  have hlt := c.isLt
  rw [hc]
  generalize c.toNat = k at hlt ⊢
  interval_cases k <;> rfl

theorem mask_bit (t : BitVec 128) {c : Nat} (h : c < 4) : tb (tgMask t) c = t.getLsbD (112 + c) := by
  rw [tb_eq_testBit, tgMask, bits_toNat, BitVec.testBit_toNat, BitVec.getLsbD_extractLsb', decide_eq_true h, Bool.true_and]

/-- R243: a value in [0, 1] in 255ths. -/
theorem nearestEven_lt {n : Int} {d : Nat} (h0 : 0 ≤ n) (h1 : n ≤ d) : (nearestEven (255 * n) d).toNat < 2 ^ 8 := by
  unfold nearestEven
  dsimp only
  by_cases hd : d = 0
  · subst hd
    obtain rfl : n = 0 := by omega
    decide
  · have hdiv := Int.mul_ediv_add_emod (255 * n) d
    have hmod := Int.emod_nonneg (255 * n) (b := (d : Int)) (by omega)
    have hle : 255 * n / (d : Int) ≤ 255 := by
      have := Int.ediv_le_ediv (c := (d : Int)) (by omega) (show 255 * n ≤ 255 * d by omega)
      rwa [Int.mul_ediv_cancel _ (by omega)] at this
    have htop : 255 * n / (d : Int) = 255 → 255 * n % (d : Int) = 0 := fun h => by
      rw [h] at hdiv
      omega
    split_ifs <;> omega

theorem Rat.max_zero_nonneg (q : Rat) : 0 ≤ (q.max .zero).n := by
  unfold Rat.max
  split
  next => exact le_refl _
  next h =>
    simpa [Rat.lt, Rat.zero, Rat.of] using h

theorem Rat.min_one_range {q : Rat} (h : 0 ≤ q.n) : 0 ≤ (q.min .one).n ∧ (q.min .one).n ≤ (q.min .one).d := by
  unfold Rat.min
  split
  next => exact ⟨by decide, by decide⟩
  next hlt =>
    exact ⟨h, by simpa [Rat.lt, Rat.one, Rat.of] using hlt⟩

/-- A value clamped to [0, 1]. -/
theorem satUnit_range {x : Ext} {r : Rat} (h : satUnit x = .rat r) : 0 ≤ r.n ∧ r.n ≤ r.d := by
  cases x with
  | rat q =>
    cases h
    exact Rat.min_one_range q.max_zero_nonneg
  | inf s =>
    cases h
    cases s <;> exact ⟨by decide, by decide⟩
  | nan =>
    cases h
    exact ⟨by decide, by decide⟩

theorem ext_round_lt {f : Fmt} (hf : f.Regular) (hnan : f.cnan < 2 ^ f.width) (mode : Nat) (x : Ext) :
    x.round f mode < 2 ^ f.width := by
  cases x with
  | rat r => exact (rat_round_signed hf mode r).lt
  | inf s => exact (infinity_signed f s).lt
  | nan => exact hnan

/-- The bits of a channel of a pixel. -/
def channelBits (t : BitVec 128) : Nat := if t.extractLsb' 96 4 = 4 then 16 else 8

theorem channelOf_lt (t : BitVec 128) (old : Nat) (src : Nat → Ext) (c : Nat) : channelOf t old src c < 2 ^ channelBits t := by
  unfold channelOf channelBits
  dsimp only
  split
  · exact Nat.mod_lt _ (Nat.two_pow_pos _)
  split
  · exact ext_round_lt fp16_regular (by decide) ..
  · split
    next h =>
      obtain ⟨h0, h1⟩ := satUnit_range h
      exact nearestEven_lt h0 h1
    · exact Nat.two_pow_pos _

/-- R243: the model's pixel has the channels of the statements as its digits. -/
theorem blendPixel_eq {t : BitVec 128} {old : Nat} {l : List Ext} {src : Nat → Ext} (hl : ∀ c, c < 4 → nth l c .nan = src c) :
    blendPixel t old l = digitsBelow (channelOf t old src) (channelBits t) 4 := by
  unfold blendPixel digitsBelow
  dsimp only
  rw [upto_zero]
  refine List.foldl_ext _ _ _ fun v c hc => ?_
  have hc : c < 4 := List.mem_range.1 hc
  have hsel : ∀ i j : Nat, t.extractLsb' (if c = 3 then i else j) 3 = if c = 3 then t.extractLsb' i 3 else t.extractLsb' j 3 :=
    fun i j => apply_ite (fun lo => t.extractLsb' lo 3) ..
  unfold channelOf
  by_cases hf : t.extractLsb' 96 4 = 4
  · have hm : channelBits t = 16 := if_pos hf
    simp only [(tgFmt_iff t).2 hf, hf, hm, if_true, mask_bit t hc, hl c hc, hl 3 (by decide), blendFactor_eq, blendSum, bits, hsel,
      Bool.not_eq_true']
  · have hm : channelBits t = 8 := if_neg hf
    have hfmt : (tgFmt t == 4) = false := by rw [← Bool.not_eq_true, tgFmt_iff]; exact hf
    simp only [hfmt, hf, hm, Bool.false_eq_true, if_false, mask_bit t hc, hl c hc, hl 3 (by decide), blendFactor_eq, blendSum, bits,
      hsel, Bool.not_eq_true', unorm] <;> rfl

/-! ### Lanes -/

/-- R242: the lanes of a unit that are valid. -/
def validLanes (recs : List Record) : List Nat :=
  (upto 0 (((recs.head?).map (·.words.length)).getD 0)).filter fun l => tb (nth (laneWords recs l) 0 0) 31

theorem validLane_iff (r : Record) (rest : List Record) (l : Nat) :
    tb (nth (laneWords (r :: rest) l) 0 0) 31 = (r.words.getD l 0).getLsbD 31 := by
  rw [tb_eq_testBit, ← BitVec.testBit_toNat]
  rfl

theorem validLanes_none {recs : List Record}
    (h : ∀ r ∈ recs.head?, ∀ l, l < r.words.length → (r.words.getD l 0).getLsbD 31 = false) : validLanes recs = [] := by
  cases recs with
  | nil => rfl
  | cons r rest =>
    refine List.filter_eq_nil_iff.2 fun l hl => ?_
    rw [upto_zero, List.mem_range] at hl
    rw [validLane_iff, h r rfl l hl]
    exact Bool.false_ne_true

theorem validLanes_one {recs : List Record} {lane : Nat} (hrecs : recs ≠ [])
    (h : ∀ r ∈ recs.head?, lane < r.words.length ∧
      ∀ l, l < r.words.length → ((r.words.getD l 0).getLsbD 31 = true ↔ l = lane)) :
    validLanes recs = [lane] := by
  obtain ⟨r, rest, rfl⟩ := List.exists_cons_of_ne_nil hrecs
  obtain ⟨hlane, hvalid⟩ := h r rfl
  have hfilter : validLanes (r :: rest) = (List.range r.words.length).filter (· == lane) := by
    rw [validLanes, upto_zero]
    refine List.filter_congr fun l hl => ?_
    rw [validLane_iff, Bool.eq_iff_iff, hvalid l (List.mem_range.1 hl), beq_iff_eq]
  rw [hfilter, List.filter_beq, List.nodup_range.count, if_pos (List.mem_range.2 hlane)]
  rfl

theorem nth_laneWords {recs : List Record} {lane : Nat} {w : Nat → Nat}
    (hw : ∀ c, w c = ((recs.map fun (r : Record) => r.words.getD lane 0).getD c 0).toNat) (c : Nat) :
    nth (laneWords recs lane) c 0 = w c := by
  rw [hw, nth_eq_getD, laneWords]
  by_cases hc : c < recs.length
  · rw [List.getD_eq_getElem _ _ (by simpa using hc), List.getD_eq_getElem _ _ (by simpa using hc), List.getElem_map,
      List.getElem_map]
    rfl
  · rw [List.getD_eq_default _ _ (by simpa using hc), List.getD_eq_default _ _ (by simpa using hc)]
    rfl

/-- The source channels of a lane: the words after the first. -/
theorem nth_source {recs : List Record} {lane : Nat} {w : Nat → Nat} (hlen : recs.length = 5)
    (hw : ∀ c, w c = ((recs.map fun (r : Record) => r.words.getD lane 0).getD c 0).toNat) {c : Nat} (hc : c < 4) :
    nth (((laneWords recs lane).drop 1).map extOf) c .nan = (fpDecode fp32 (w (1 + c))).ext := by
  have hwords : (laneWords recs lane).length = 5 := by rw [laneWords, List.length_map, hlen]
  rw [← nth_laneWords hw, nth_eq_getD, nth_eq_getD, List.getD_eq_getElem _ _ (by simp [hwords]; omega), List.getElem_map,
    List.getElem_drop, List.getD_eq_getElem _ _ (by omega)]
  rfl

theorem blendAddr_eq (t : BitVec 128) (ctl : Nat) : blendAddr t ctl =
    (t.extractLsb' 0 49).toNat + ctl / 2 ^ 15 % 2 ^ 15 * (t.extractLsb' 64 32).toNat + ctl % 2 ^ 15 * tgPixel t := by
  rw [blendAddr, tgBase, tgPitch, bits_toNat, bits_toNat, bits, bits, Nat.pow_zero, Nat.div_one]

section
variable {s : State} {ctx lane ctl va n : Nat} {y : Binding} {recs : List Record} {q q' : Phys}

theorem blendLanes_eq (h : validLanes recs = []) : blendLanes s ctx y recs = .ok [] := by
  rw [validLanes] at h
  simp only [blendLanes, h]
  rfl

/-- R233, R243: the one valid lane, its pixel checked. -/
theorem blendLanes_one (hlanes : validLanes recs = [lane]) (hctl : nth (laneWords recs lane) 0 0 = ctl)
    (hva : va = blendAddr y.entry ctl) (hn : n = tgPixel y.entry)
    (hload : checkNow s ctx Config.cores va n .loadNoKey = .ok q) (hstore : checkNow s ctx Config.cores va n .storeNoKey = .ok q')
    (hpoison : q.pa / 32 ∉ s.poison) (hlink : q.pa / 32 ∉ s.refused) : blendLanes s ctx y recs = .ok [(lane, q)] := by
  subst hva hn
  have hcheck : blendCheck s ctx (blendAddr y.entry ctl) (tgPixel y.entry) = .ok q := by simp only [blendCheck, hload, hstore]
  have hclean : (s.poison.contains (q.pa / 32) || linkRefuses s q.pa) = false := by
    rw [linkRefuses, List.contains_eq_mem, List.contains_eq_mem, decide_eq_false hpoison, decide_eq_false hlink, Bool.and_false]
    rfl
  rw [validLanes] at hlanes
  simp only [blendLanes, hlanes, mapE, hctl, hcheck, hclean, Bool.false_eq_true, if_false]

end

/-- R243: the pixel of the one valid lane is blended, and nothing else is written. -/
theorem blendOne_spec {s : State} {ctx lane n : Nat} {y : Binding} {recs : List Record} {q : Phys} {src : Nat → Ext}
    (hn : n = tgPixel y.entry) (hq : simple q.pa q.key n) (hlink : q.pa / 32 ∉ s.refused)
    (hsrc : ∀ c, c < 4 → nth (((laneWords recs lane).drop 1).map extOf) c .nan = src c) :
    let v := digitsBelow (channelOf y.entry (numberOf (fun i => cellGet s.mem (q.pa + i)) n) src) (channelBits y.entry) 4
    ∀ a, cellGet (blendOne s ctx y recs (lane, q)).mem a = (storedByte q.pa n v a).getD (cellGet s.mem a) := by
  intro v a
  subst hn
  have hold : ofBytes (readAt s q.pa 0 (tgPixel y.entry)).1 = numberOf (fun i => cellGet s.mem (q.pa + i)) (tgPixel y.entry) := by
    rw [readAt_bytes s hq.2, cellsGet, ofBytes_map_upto]
  have htouched := takenVirt_touched s ctx Config.cores (blendAddr y.entry (nth (laneWords recs lane) 0 0)) (tgPixel y.entry)
    .loadNoKey
  unfold blendOne
  dsimp only
  rw [hold, blendPixel_eq hsrc]
  change cellGet (writeAt _ ctx q (bytesOf (tgPixel y.entry) v)).mem a = _
  rw [cellGet_writeAt (by rw [length_bytesOf]; exact hq) (by rw [htouched]; exact hlink), length_bytesOf, htouched, storedByte]
  split
  next ha => rw [getD_bytesOf _ (by omega)]; rfl
  next => rfl

theorem blendAnswers : BlendAnswers := by
  refine ⟨fun s y p no recs h => ?_, ?_⟩
  · simp only [blendUnit, blendLanes_eq (validLanes_none h), List.foldl_nil]
  · intro s y p no lane ctl va n pa old recs w q q' _ hlen hw hvalid hctl hn hva hload hstore hpa hq hpoison hlink hold
    subst hpa
    have hpixel : n = tgPixel y.entry := hn.trans (tgPixel_eq y.entry).symm
    have hbits : channelBits y.entry = 2 * n := by
      rw [hn, channelBits]
      split <;> rfl
    have hrecs : recs ≠ [] := by
      rintro rfl
      simp at hlen
    have hword : nth (laneWords recs lane) 0 0 = ctl := (nth_laneWords hw 0).trans hctl.symm
    have hlanes := blendLanes_one (validLanes_one hrecs hvalid) hword (by rw [hva, blendAddr_eq, hpixel]) hpixel hload hstore hpoison
      hlink
    obtain ⟨hlt, hdigits⟩ := digitsBelow_spec (n := 4) fun c _ =>
      channelOf_lt y.entry old (fun i => (fpDecode fp32 (w (1 + i))).ext) c
    rw [hbits] at hlt hdigits
    refine ⟨blendOne s (isleOwner s 3 0) y recs (lane, q), _, ?_, ?_, hdigits, ?_⟩
    · simp only [blendUnit, hlanes, List.foldl_cons, List.foldl_nil]
    · rwa [show 2 * n * 4 = 8 * n by omega] at hlt
    · rw [← hbits, hold]
      exact blendOne_spec hpixel hq hlink fun c hc => nth_source hlen hw hc

end Sys2Proof.Machine
end

section
/-! O49: RASTER.COARSE (R257 to R260). -/

namespace Sys2Proof.Machine

/-! ### Records -/

theorem coordOk_iff (w : Word) : coordOk w = true ↔ coordIn w := by
  simp only [coordOk, coordIn, sext_eq_signed _ _ (show 0 < 32 by decide), Bool.and_eq_true, decide_eq_true_eq]

/-- R257: the checks of the two sides. -/
theorem coarseBad_iff (r : List Word) : coarseBad r = true ↔ ¬coarseGood fun i => r.getD i 0 := by
  have hcoords : ((upto 0 6).any fun i => !coordOk (nth r i 0)) = false ↔ ∀ i, i < 6 → coordIn (r.getD i 0) := by
    rw [upto_zero, List.any_eq_false]
    refine forall_congr' fun i => ?_
    rw [List.mem_range, nth_eq_getD, ← coordOk_iff, Bool.not_eq_true', Bool.not_eq_false]
  have hcull : decide (3 ≤ (nth r 7 0).toNat) = false ↔ r.getD 7 0 < 3 := by
    rw [decide_eq_false_iff_not, Nat.not_le, nth_eq_getD, BitVec.lt_def]
    rfl
  rw [coarseGood, ← hcoords, ← hcull, coarseBad, ← Bool.or_eq_false_iff, Bool.not_eq_false]

/-! ### Vertices and edges -/

/-- The vertices of a record. -/
theorem coarsePts_eq (r : List Word) : coarsePts r = (List.range 3).map fun i =>
    (signed 32 (r.getD (2 * i) 0).toNat, signed 32 (r.getD (2 * i + 1) 0).toNat) := by
  simp only [coarsePts, upto_zero, sext_eq_signed _ _ (show 0 < 32 by decide), nth_eq_getD]

/-- The points of three vertices. -/
def corners (x y : Nat → Int) : List Pt := (List.range 3).map fun i => (x i, y i)

theorem ptAt_corners (x y : Nat → Int) {i : Nat} (h : i < 3) : ptAt (corners x y) i = (x i, y i) := by
  interval_cases i <;> rfl

theorem coarseD_corners (x y : Nat → Int) : coarseD (corners x y) = triArea x y := rfl

/-- R258: edge e of a triangle. -/
def edgeOf (x y : Nat → Int) (e : Nat) : Edge :=
  ⟨(x (edgeFrom (triArea x y) e), y (edgeFrom (triArea x y) e)), (x (edgeTo (triArea x y) e), y (edgeTo (triArea x y) e))⟩

theorem coarseEdges_corners (x y : Nat → Int) : coarseEdges (corners x y) = (List.range 3).map (edgeOf x y) := by
  unfold coarseEdges
  dsimp only
  rw [ptAt_corners x y (show 0 < 3 by decide), ptAt_corners x y (show 1 < 3 by decide), ptAt_corners x y (show 2 < 3 by decide),
    coarseD_corners]
  have hedge : ∀ e, edgeOf x y e = if triArea x y < 0 then ⟨(x ((e + 1) % 3), y ((e + 1) % 3)), (x ((e + 2) % 3), y ((e + 2) % 3))⟩
      else ⟨(x ((e + 2) % 3), y ((e + 2) % 3)), (x ((e + 1) % 3), y ((e + 1) % 3))⟩ := fun e => by
    unfold edgeOf edgeFrom edgeTo
    split <;> rfl
  simp only [List.range, List.range.loop, List.map_cons, List.map_nil, hedge]
  split <;> rfl

section
variable (x y : Nat → Int) (e : Nat)

theorem edgeOf_sa : (edgeOf x y e).sa = edgeSa x y e := rfl

theorem edgeOf_sb : (edgeOf x y e).sb = edgeSb x y e := rfl

theorem edgeOf_at (px py : Int) : (edgeOf x y e).at' (px, py) = edgeAt x y e px py := rfl

theorem edgeOf_tl : (edgeOf x y e).tl = true ↔ edgeTl x y e := by
  rw [Edge.tl, edgeOf_sa, edgeOf_sb, edgeTl, Bool.or_eq_true, Bool.and_eq_true, decide_eq_true_eq, decide_eq_true_eq, beq_iff_eq]

/-- R258: E is affine. -/
theorem edgeAt_add (px py i j : Int) :
    edgeAt x y e (px + i) (py + j) = edgeAt x y e px py + i * edgeSa x y e + j * edgeSb x y e := by
  simp only [edgeAt, edgeSa, edgeSb]
  ring

end

/-- The greatest value of a step over the eight places of a tile. -/
theorem step_le {i a : Int} (h0 : 0 ≤ i) (h7 : i ≤ 7) : i * a ≤ 7 * max a 0 := by
  obtain ha | ha := le_total a 0
  · rw [max_eq_right ha]
    nlinarith
  · rw [max_eq_left ha]
    nlinarith

theorem step_attained (a : Int) : ∃ i : Nat, i < 8 ∧ (i : Int) * a = 7 * max a 0 := by
  obtain ha | ha := le_total a 0
  · exact ⟨0, by decide, by rw [max_eq_right ha]; simp⟩
  · exact ⟨7, by decide, by rw [max_eq_left ha]; rfl⟩

/-- R259: the pixel centre at which E is largest decides. -/
theorem edgeReaches_iff (x y : Nat → Int) (e : Nat) (t : Nat × Nat) :
    edgeReaches (edgeOf x y e) t.1 t.2 = true ↔ reaches x y e t := by
  have hcentre : ∀ i j : Nat, edgeAt x y e (2048 * t.1 + 256 * i + 128 : Nat) (2048 * t.2 + 256 * j + 128 : Nat) =
      edgeAt x y e (2048 * t.1 + 128 : Nat) (2048 * t.2 + 128 : Nat) + 256 * (i * edgeSa x y e) + 256 * (j * edgeSb x y e) :=
    fun i j => by
      rw [← mul_assoc, ← mul_assoc, ← edgeAt_add]
      push_cast
      ring_nf
  unfold edgeReaches edgeE00 reaches
  dsimp only
  rw [edgeOf_at, edgeOf_sa, edgeOf_sb, Bool.or_eq_true, Bool.and_eq_true, decide_eq_true_eq, beq_iff_eq, edgeOf_tl]
  simp only [hcentre]
  generalize edgeAt x y e (2048 * t.1 + 128 : Nat) (2048 * t.2 + 128 : Nat) = v
  constructor
  · intro h
    obtain ⟨i, hi, hia⟩ := step_attained (edgeSa x y e)
    obtain ⟨j, hj, hjb⟩ := step_attained (edgeSb x y e)
    refine ⟨i, j, hi, hj, ?_⟩
    rw [hia, hjb]
    obtain h | ⟨h, htl⟩ := h
    · exact .inl (by omega)
    · exact .inr ⟨by omega, htl⟩
  · rintro ⟨i, j, hi, hj, h⟩
    have hia := step_le (i := i) (a := edgeSa x y e) (by omega) (by omega)
    have hjb := step_le (i := j) (a := edgeSb x y e) (by omega) (by omega)
    obtain h | ⟨h, htl⟩ := h
    · exact .inl (by omega)
    · obtain hlt | heq := lt_or_eq_of_le (show 0 ≤ v + 1792 * (max (edgeSa x y e) 0 + max (edgeSb x y e) 0) by omega)
      · exact .inl hlt
      · exact .inr ⟨heq.symm, htl⟩

/-! ### Tiles -/

/-- R259, R270: ascending TY and then TX. -/
def tileBefore (a b : Nat × Nat) : Prop := a.2 < b.2 ∨ a.2 = b.2 ∧ a.1 < b.1

/-- Lists in that order hold their tiles once each and are known by them. -/
theorem eq_of_tilesSorted {l m : List (Nat × Nat)} (hl : l.Pairwise tileBefore) (hm : m.Pairwise tileBefore)
    (h : ∀ t, t ∈ l ↔ t ∈ m) : l = m := by
  have hasymm : ∀ a b, tileBefore a b → tileBefore b a → a = b := fun a b hab hba => by
    unfold tileBefore at hab hba
    omega
  have hnodup : ∀ {r : List (Nat × Nat)}, r.Pairwise tileBefore → r.Nodup := fun hr => hr.imp fun {a b} hab heq => by
    subst heq
    unfold tileBefore at hab
    omega
  exact ((List.perm_ext_iff_of_nodup (hnodup hl) (hnodup hm)).2 h).eq_of_pairwise (fun a b _ _ => hasymm a b) hl hm

theorem tilesSorted_nodup {l : List (Nat × Nat)} (h : l.Pairwise tileBefore) : l.Nodup := h.imp fun {a b} hab heq => by
  subst heq
  unfold tileBefore at hab
  omega

/-- The tiles of a target, row by row. -/
def tileGrid (w h : Nat) (p : Nat × Nat → Bool) : List (Nat × Nat) :=
  (List.range h).flatMap fun ty => ((List.range w).filter fun tx => p (tx, ty)).map fun tx => (tx, ty)

theorem tileGrid_sorted (w h : Nat) (p : Nat × Nat → Bool) : (tileGrid w h p).Pairwise tileBefore := by
  unfold tileGrid
  refine List.pairwise_flatMap.2 ⟨fun ty _ => ?_, ?_⟩
  · rw [List.pairwise_map]
    exact ((List.pairwise_lt_range (n := w)).filter _).imp fun hlt => .inr ⟨rfl, hlt⟩
  · refine (List.pairwise_lt_range (n := h)).imp fun {a b} hab => ?_
    intro t ht u hu
    obtain ⟨_, _, rfl⟩ := List.mem_map.1 ht
    obtain ⟨_, _, rfl⟩ := List.mem_map.1 hu
    exact .inl hab

theorem mem_tileGrid {w h : Nat} {p : Nat × Nat → Bool} {t : Nat × Nat} :
    t ∈ tileGrid w h p ↔ t.1 < w ∧ t.2 < h ∧ p t = true := by
  obtain ⟨tx, ty⟩ := t
  simp only [tileGrid, List.mem_flatMap, List.mem_range, List.mem_map, List.mem_filter, Prod.mk.injEq]
  constructor
  · rintro ⟨_, hy, _, ⟨hx, hp⟩, rfl, rfl⟩
    exact ⟨hx, hy, hp⟩
  · rintro ⟨hx, hy, hp⟩
    exact ⟨ty, hy, tx, ⟨hx, hp⟩, rfl, rfl⟩

theorem ceilDiv_lt {t n : Nat} : t < ceilDiv n 8 ↔ 8 * t < n := by
  unfold ceilDiv
  omega

theorem pdW_eq (d : BitVec 512) : pdW d = (d.extractLsb' 96 15).toNat + 1 := by rw [pdW, bits_toNat]

theorem pdH_eq (d : BitVec 512) : pdH d = (d.extractLsb' 112 15).toNat + 1 := by rw [pdH, bits_toNat]

/-- R259: the model's tiles are those of the statements. -/
theorem coarseTiles_eq {d : BitVec 512} {x y : Nat → Int} {l : List (Nat × Nat)}
    (h : triTiles l x y ((d.extractLsb' 96 15).toNat + 1) ((d.extractLsb' 112 15).toNat + 1)) :
    coarseTiles d ((List.range 3).map (edgeOf x y)) = l := by
  obtain ⟨hsorted, hmem⟩ := h
  have hgrid : coarseTiles d ((List.range 3).map (edgeOf x y)) = tileGrid (pdTilesX d) (pdTilesY d) fun t =>
      ((List.range 3).map (edgeOf x y)).all fun e => edgeReaches e t.1 t.2 := by
    simp only [coarseTiles, upto_zero, tileGrid]
  rw [hgrid]
  refine eq_of_tilesSorted (tileGrid_sorted ..) hsorted fun t => ?_
  rw [mem_tileGrid, hmem, pdTilesX, pdTilesY, ceilDiv_lt, ceilDiv_lt, pdW_eq, pdH_eq, List.all_map, List.all_eq_true]
  simp only [List.mem_range, Function.comp_apply, edgeReaches_iff]

/-! ### The words of a record -/

theorem wrap_mod {n : Nat} (i : Int) (h : 32 ≤ n) : ((wrap i n % 2 ^ 32 : Nat) : Int) = i % 2 ^ 32 := by
  have hpos : ((2 ^ n : Nat) : Int) ≠ 0 := by positivity
  rw [wrap]
  push_cast
  rw [Int.toNat_of_nonneg (Int.emod_nonneg _ (by exact_mod_cast hpos))]
  exact Int.emod_emod_of_dvd i (pow_dvd_pow 2 h)

theorem ofNat_wrap {n : Nat} (i : Int) (h : 32 ≤ n) : BitVec.ofNat 32 (wrap i n) = BitVec.ofInt 32 i := by
  apply BitVec.eq_of_toNat_eq
  have hmod := wrap_mod i h
  rw [BitVec.toNat_ofNat, BitVec.toNat_ofInt]
  omega

theorem ofNat_wrap_high (i : Int) : BitVec.ofNat 32 (wrap i 64 / 2 ^ 32) = BitVec.ofInt 32 (i / 2 ^ 32) := by
  apply BitVec.eq_of_toNat_eq
  rw [BitVec.toNat_ofNat, BitVec.toNat_ofInt, wrap]
  omega

theorem coarseWords_eq (x y : Nat → Int) (prim : Word) (seq : Nat) (t : Nat × Nat) :
    coarseWords prim (decide (0 < triArea x y)) seq t.1 t.2 ((List.range 3).map (edgeOf x y)) = tileWords x y prim seq t := by
  have hsign : BitVec.ofNat 32 (decide (0 < triArea x y)).toNat = if 0 < triArea x y then 1 else 0 := by
    by_cases h : 0 < triArea x y <;> simp [h]
  simp only [coarseWords, tileWords, hsign, List.flatMap_map, edgeE00, edgeOf_at, edgeOf_sa, edgeOf_sb,
    ofNat_wrap _ (show 32 ≤ 64 by decide), ofNat_wrap _ (le_refl 32), ofNat_wrap_high]

/-! ### The loop over the tiles -/

/-- A loop whose steps all succeed. -/
theorem foldE_eq_foldl {σ ε α : Type} {P : σ → Prop}
    {f : σ → α → Except ε σ} {g : σ → α → σ} {s : σ} (l : List α) (hs : P s)
    (h : ∀ s x, P s → f s x = .ok (g s x) ∧ P (g s x)) : foldE l s f = .ok (l.foldl g s) := by
  induction l generalizing s with
  | nil => rfl
  | cons x l ih =>
    obtain ⟨hstep, hnext⟩ := h s x hs
    rw [foldE, hstep]
    exact ih hnext

/-- R252, R255, R274: the pass of a quadrant without flag array; immediate, or of any kind. -/
def PlainPass (s : State) (q : Nat) : Prop := ∃ ps, (getIsle s 0 q).pass = some ps ∧ pdFlags ps.desc = 0
def ImmediatePass (s : State) (q : Nat) : Prop :=
  ∃ ps, (getIsle s 0 q).pass = some ps ∧ pdFlags ps.desc = 0 ∧ pdBinned ps.desc = false

theorem tileClean_plain {s : State} {q : Nat} (h : PlainPass s q) (tx ty : Nat) : tileClean s q tx ty = .ok s := by
  obtain ⟨ps, hp, hflags⟩ := h
  simp only [tileClean, hp, hflags, true_or, if_true]

theorem ImmediatePass.plain {s : State} {q : Nat} (h : ImmediatePass s q) : PlainPass s q := by
  obtain ⟨ps, hp, hflags, -⟩ := h
  exact ⟨ps, hp, hflags⟩

section
variable {s : State} {q cls tx ty : Nat}

theorem seqNext_of_pass {ps : Pass} (h : (getIsle s 0 q).pass = some ps) :
    seqNext s q cls tx ty = Tab.get ps.seq (seqKey cls tx ty) 0 := by
  rw [seqNext, h]
  rfl

theorem seqCount_sameBut (n : Nat) : sameButIslands s (seqCount s q cls tx ty n) := modIsle_sameBut ..

/-- R260: a count of records leaves an island's responses and its open paths. -/
theorem seqCount_keeps {α : Type} {g : Island → α} (hg : ∀ (x : Island) (v : Option Pass), g { x with
    pass := v } = g x) (n k j : Nat) : g (getIsle (seqCount s q cls tx ty n) k j) = g (getIsle s k j) :=
  getIsle_modIsle_keeps (fun x => hg x _) s 0 q k j

theorem seqCount_pass {ps : Pass} (h : (getIsle s 0 q).pass = some ps) (n : Nat) :
    (getIsle (seqCount s q cls tx ty n) 0 q).pass = some { ps with
      seq := Tab.set ps.seq (seqKey cls tx ty) (Tab.get ps.seq (seqKey cls tx ty) 0 + n) } := by
  rw [seqCount, modPass_of_pass h, getIsle_modIsle_same]

theorem seqCount_plain (h : PlainPass s q) (n : Nat) : PlainPass (seqCount s q cls tx ty n) q := by
  obtain ⟨ps, hp, hflags⟩ := h
  exact ⟨_, seqCount_pass hp n, hflags⟩

/-- R260: tiles of one class have counts of their own. -/
theorem seqNext_seqCount_other (h : PlainPass s q) {ux uy : Nat} (hx : tx < 4096) (hux : ux < 4096) (hne : (ux, uy) ≠ (tx, ty))
    (n : Nat) : seqNext (seqCount s q cls tx ty n) q cls ux uy = seqNext s q cls ux uy := by
  obtain ⟨ps, hp, -⟩ := h
  have hkey : seqKey cls ux uy ≠ seqKey cls tx ty := fun heq => hne (by
    unfold seqKey tileKey at heq
    rw [Prod.mk.injEq]
    omega)
  rw [seqNext_of_pass (seqCount_pass hp n), seqNext_of_pass hp]
  exact Tab.get_set_other _ _ _ _ _ hkey

end

/-- R260: the record of a tile joins the responses, and is counted. -/
def tileAdded (q : Nat) (r : Nat → Nat × Nat → Response) (cls : Nat) (s : State) (t : Nat × Nat) : State :=
  modIsle (seqCount s q cls t.1 t.2 1) 0 q fun x => { x with
    resps := x.resps ++ [r (seqNext s q cls t.1 t.2) t] }

section
variable {q cls : Nat} {r : Nat → Nat × Nat → Response}

theorem tileAdded_immediate {s : State} (h : ImmediatePass s q) (t : Nat × Nat) : ImmediatePass (tileAdded q r cls s t) q := by
  obtain ⟨ps, hp, hflags, hbinned⟩ := h
  have hsame : (getIsle (tileAdded q r cls s t) 0 q).pass = (getIsle (seqCount s q cls t.1 t.2 1) 0 q).pass := by
    rw [tileAdded, getIsle_modIsle_same]
  exact ⟨_, hsame.trans (seqCount_pass hp 1), hflags, hbinned⟩

theorem seqNext_tileAdded_other {s : State} (h : PlainPass s q) {t u : Nat × Nat} (ht : t.1 < 4096) (hu : u.1 < 4096) (hne : u ≠ t) :
    seqNext (tileAdded q r cls s t) q cls u.1 u.2 = seqNext s q cls u.1 u.2 := by
  rw [← seqNext_seqCount_other h (ty := t.2) ht hu hne 1, seqNext, seqNext, tileAdded, getIsle_modIsle_same]

/-- R260: one record for each tile, in order, each with the number that its tile had. -/
theorem foldl_tileAdded {s : State} {l : List (Nat × Nat)} (h : ImmediatePass s q) (hnodup : l.Nodup) (hlt : ∀ t ∈ l, t.1 < 4096) :
    sameButIslands s (l.foldl (tileAdded q r cls) s) ∧ (getIsle (l.foldl (tileAdded q r cls) s) 0 q).resps =
      (getIsle s 0 q).resps ++ l.map fun t => r (seqNext s q cls t.1 t.2) t := by
  induction l generalizing s with
  | nil => exact ⟨.refl s, by simp⟩
  | cons t l ih =>
    obtain ⟨hnot, hnodup⟩ := List.nodup_cons.1 hnodup
    have hrest := fun u (hu : u ∈ l) => hlt u (List.mem_cons_of_mem _ hu)
    obtain ⟨hsame, hresps⟩ := ih (tileAdded_immediate h t) hnodup hrest
    have hstep : sameButIslands s (tileAdded q r cls s t) := (seqCount_sameBut 1).trans (modIsle_sameBut ..)
    have hfirst : (getIsle (tileAdded q r cls s t) 0 q).resps = (getIsle s 0 q).resps ++ [r (seqNext s q cls t.1 t.2) t] := by
      rw [tileAdded, getIsle_modIsle_same, seqCount_keeps (g := Island.resps) fun _ _ => rfl]
    have hnumbers : ∀ u ∈ l, r (seqNext (tileAdded q r cls s t) q cls u.1 u.2) u = r (seqNext s q cls u.1 u.2) u := fun u hu => by
      rw [seqNext_tileAdded_other h.plain (hlt t (List.mem_cons_self ..)) (hrest u hu) (ne_of_mem_of_not_mem hu hnot)]
    refine ⟨hstep.trans hsame, ?_⟩
    rw [List.foldl_cons, hresps, hfirst, List.map_congr_left hnumbers, List.map_cons, List.append_assoc, List.singleton_append]

end

theorem emitCoarse_immediate {s : State} {q : Nat} (h : ImmediatePass s q) (b : Binding) (p : Option Party) (req tile : Nat)
    (w : List Word) : emitCoarse s q b p req tile w = .ok (modIsle s 0 q fun x => { x with
      resps := x.resps ++ [⟨b.team, p, b.id, b.cls, req, [w]⟩] }) := by
  obtain ⟨ps, hp, -, hbinned⟩ := h
  simp only [emitCoarse, hp, hbinned, Bool.not_false, if_true]

/-! ### Requests -/

theorem pdBinned_eq (d : BitVec 512) : pdBinned d = d.getLsbD 0 := by rw [pdBinned, tb_eq_testBit, BitVec.testBit_toNat]

theorem pdFlags_eq {d : BitVec 512} (h : d.extractLsb' 320 49 = 0) : pdFlags d = 0 := by
  rw [pdFlags, bits_toNat, h]
  rfl

section
variable {s : State} {q no : Nat} {y : Binding} {p : Option Party} {x : Record} {ps : Pass} {w : Nat → Word} {vx vy : Nat → Int}

theorem coarsePts_record (hw : ∀ i, w i = x.words.getD i 0) (hx : ∀ i, vx i = signed 32 (w (2 * i)).toNat)
    (hy : ∀ i, vy i = signed 32 (w (2 * i + 1)).toNat) : coarsePts x.words = corners vx vy := by
  rw [coarsePts_eq, corners]
  simp only [hx, hy, hw]

theorem not_coarseBad (hw : ∀ i, w i = x.words.getD i 0) (hgood : coarseGood w) : coarseBad x.words = false := by
  obtain rfl : w = fun i => x.words.getD i 0 := funext hw
  rw [← Bool.not_eq_true, coarseBad_iff]
  exact not_not.2 hgood

/-- R258: the triangle is dropped. -/
theorem culled_iff (hw : ∀ i, w i = x.words.getD i 0) (d : Int) :
    culled x.words d = true ↔ d = 0 ∨ w 7 = 1 ∧ 0 < d ∨ w 7 = 2 ∧ d < 0 := by
  have hcode : ∀ k : Word, (nth x.words 7 0).toNat = k.toNat ↔ w 7 = k := fun k => by rw [hw, BitVec.toNat_inj]; rfl
  rw [← hcode, ← hcode]
  simp [culled, or_assoc]

theorem coarseUnit_bad (hp : (getIsle s 0 q).pass = some ps) (hbad : ¬coarseGood fun i => x.words.getD i 0) :
    coarseUnit q s y p no [x] = .ok (modIsle s 0 q fun z => { z with
      pass := some { ps with
        badrec := true } }, []) := by
  simp only [coarseUnit, List.head?_cons, Option.map_some, Option.getD_some, hp, (coarseBad_iff x.words).2 hbad, if_true,
    modPass_of_pass hp]

theorem coarseUnit_dropped (hp : (getIsle s 0 q).pass = some ps) (hw : ∀ i, w i = x.words.getD i 0) (hgood : coarseGood w)
    (hdrop : culled x.words (coarseD (coarsePts x.words)) = true) : coarseUnit q s y p no [x] = .ok (s, []) := by
  simp only [coarseUnit, List.head?_cons, Option.map_some, Option.getD_some, hp, not_coarseBad hw hgood, Bool.false_eq_true,
    if_false, hdrop, if_true]

/-- R260: the response that a tile adds. -/
def tileResponse (y : Binding) (p : Option Party) (no : Nat) (vx vy : Nat → Int) (prim : Word) (seq : Nat) (t : Nat × Nat) :
    Response := ⟨y.team, p, y.id, y.cls, no, [tileWords vx vy prim seq t]⟩

/-- R259, R260: the records of the tiles that a triangle reaches. -/
theorem coarseUnit_tiles {l : List (Nat × Nat)} (hp : (getIsle s 0 q).pass = some ps) (hbinned : ps.desc.getLsbD 0 = false)
    (hflags : ps.desc.extractLsb' 320 49 = 0) (hw : ∀ i, w i = x.words.getD i 0) (hgood : coarseGood w)
    (hx : ∀ i, vx i = signed 32 (w (2 * i)).toNat) (hy : ∀ i, vy i = signed 32 (w (2 * i + 1)).toNat)
    (hkeep : culled x.words (triArea vx vy) = false)
    (hl : triTiles l vx vy ((ps.desc.extractLsb' 96 15).toNat + 1) ((ps.desc.extractLsb' 112 15).toNat + 1)) :
    coarseUnit q s y p no [x] = .ok (l.foldl (tileAdded q (tileResponse y p no vx vy (w 6)) y.cls) s, []) := by
  have himm : ImmediatePass s q := ⟨ps, hp, pdFlags_eq hflags, by rw [pdBinned_eq, hbinned]⟩
  have hstep : ∀ (s : State) (t : Nat × Nat), ImmediatePass s q →
      emitCoarse (seqCount s q y.cls t.1 t.2 1) q y p no (tileKey t.1 t.2) (coarseWords (nth x.words 6 0)
        (decide (0 < triArea vx vy)) (seqNext s q y.cls t.1 t.2) t.1 t.2 ((List.range 3).map (edgeOf vx vy))) =
        .ok (tileAdded q (tileResponse y p no vx vy (w 6)) y.cls s t) := fun s t h => by
    obtain ⟨qs, hq, hqflags, hqbinned⟩ := h
    rw [coarseWords_eq, emitCoarse_immediate ⟨_, seqCount_pass hq 1, hqflags, hqbinned⟩, hw]
    rfl
  simp only [coarseUnit, List.head?_cons, Option.map_some, Option.getD_some, hp, not_coarseBad hw hgood, Bool.false_eq_true,
    if_false, coarsePts_record hw hx hy, coarseD_corners, hkeep, coarseEdges_corners, coarseTiles_eq hl]
  rw [foldE_eq_foldl (P := fun s => ImmediatePass s q) (g := tileAdded q (tileResponse y p no vx vy (w 6)) y.cls) l himm]
  intro u t hu
  exact ⟨by simp only [tileClean_plain hu.plain, hstep u t hu], tileAdded_immediate hu t⟩

end

theorem coarseAnswers : CoarseAnswers := by
  refine ⟨fun s q no y p x ps hp hbad => coarseUnit_bad hp hbad, ?_, ?_⟩
  · intro s q no y p x ps d w hp hw hgood hd hdrop
    refine coarseUnit_dropped hp hw hgood ?_
    rw [coarsePts_record hw (fun _ => rfl) (fun _ => rfl), coarseD_corners, ← hd]
    exact (culled_iff hw d).2 hdrop
  · intro s q no y p x ps d w vx vy l _ hp hbinned hflags hw hgood hx hy hd hzero hback hfront hl
    subst hd
    have hkeep : culled x.words (triArea vx vy) = false := by
      rw [← Bool.not_eq_true, culled_iff hw]
      rintro (h | ⟨hc, h⟩ | ⟨hc, h⟩)
      · exact hzero h
      · exact absurd (hback hc) (by omega)
      · exact absurd (hfront hc) (by omega)
    have hlt : ∀ t ∈ l, t.1 < 4096 := fun t ht => by
      have := ((hl.2 t).1 ht).1
      have := (ps.desc.extractLsb' 96 15).isLt
      omega
    obtain ⟨hsame, hresps⟩ := foldl_tileAdded (cls := y.cls) (r := tileResponse y p no vx vy (w 6))
      ⟨ps, hp, pdFlags_eq hflags, by rw [pdBinned_eq, hbinned]⟩ (tilesSorted_nodup hl.1) hlt
    exact ⟨_, coarseUnit_tiles hp hbinned hflags hw hgood hx hy hkeep hl, hsame, hresps⟩

end Sys2Proof.Machine
end

section
/-! O49: RASTER.PATH (R263 to R271). -/

namespace Sys2Proof.Machine

/-! ### Records -/

theorem pathPoints_eq {kind : Nat} (h : kind < 4) : pathPoints kind = [2, 3, 4, 0].getD kind 0 := by
  interval_cases kind <;> rfl

/-- R263: the points that a record has by its kind. -/
def pointsOf (w : Nat → Word) : Nat := [2, 3, 4, 0].getD ((w 0).extractLsb' 30 2).toNat 0

theorem pathGood_points {w : Nat → Word} {n : Nat} (h : pathGood w n) : n = pointsOf w := h.2.1

theorem kind_eq (w : Word) : bits w.toNat 30 2 = (w.extractLsb' 30 2).toNat := bits_toNat ..

theorem pathPoints_word (w : Nat → Word) : pathPoints (bits (w 0).toNat 30 2) = pointsOf w := by
  rw [kind_eq]
  exact pathPoints_eq ((w 0).extractLsb' 30 2).isLt

/-- R263: only the end of a path has no points. -/
theorem pointsOf_ne_zero (w : Nat → Word) : pointsOf w ≠ 0 ↔ bits (w 0).toNat 30 2 ≠ 3 := by
  rw [kind_eq, pointsOf]
  have hlt := ((w 0).extractLsb' 30 2).isLt
  generalize ((w 0).extractLsb' 30 2).toNat = k at hlt ⊢
  interval_cases k <;> decide

theorem pointsOf_le (w : Nat → Word) : pointsOf w ≤ 4 := by
  have hlt := ((w 0).extractLsb' 30 2).isLt
  unfold pointsOf
  generalize ((w 0).extractLsb' 30 2).toNat = k at hlt ⊢
  interval_cases k <;> decide

/-- R263: the reserved bits of word 0, and its fill rule, which only the end of a path has. -/
theorem pathReserved_iff (w : Word) : (bits w.toNat 0 29 != 0) = false ↔ w.extractLsb' 0 29 = 0 := by
  rw [bne_eq_false_iff_eq, bits_toNat, ← BitVec.toNat_inj]
  rfl

theorem pathRule_iff (w : Nat → Word) : (bits (w 0).toNat 30 2 != 3 && tb (w 0).toNat 29) = false ↔
    (pointsOf w ≠ 0 → (w 0).getLsbD 29 = false) := by
  rw [pointsOf_ne_zero, tb_eq_testBit, BitVec.testBit_toNat, Bool.and_eq_false_iff, bne_eq_false_iff_eq]
  tauto

/-- R249, R263: the coordinate words, and those that stand for no point. -/
theorem pathWords_iff (w : Nat → Word) :
    ((upto 0 8).any fun i => if i < 2 * pointsOf w then !coordOk (w (2 + i)) else w (2 + i) != 0) = false ↔
      (∀ i, i < 2 * pointsOf w → coordIn (w (2 + i))) ∧ ∀ i, 2 * pointsOf w ≤ i → i < 8 → w (2 + i) = 0 := by
  have hle := pointsOf_le w
  rw [upto_zero, List.any_eq_false]
  constructor
  · intro h
    refine ⟨fun i hi => ?_, fun i hi hi8 => ?_⟩
    · have hok := h i (List.mem_range.2 (by omega))
      rw [if_pos hi, Bool.not_eq_true, Bool.not_eq_false'] at hok
      exact (coordOk_iff _).1 hok
    · have hzero := h i (List.mem_range.2 hi8)
      rw [if_neg (by omega)] at hzero
      simpa using hzero
  · rintro ⟨hin, hzero⟩ i hi
    split
    next hlt => simp [(coordOk_iff _).2 (hin i hlt)]
    next hge => simp [hzero i (by omega) (List.mem_range.1 hi)]

theorem pathBad_iff (r : List Word) : pathBad r = true ↔ ∀ n, ¬pathGood (fun i => r.getD i 0) n := by
  obtain ⟨w, hw⟩ : ∃ w : Nat → Word, w = fun i => r.getD i 0 := ⟨_, rfl⟩
  have hnth : ∀ i, nth r i 0 = w i := fun i => by rw [hw]; rfl
  have hgood : pathBad r = false ↔ pathGood w (pointsOf w) := by
    rw [pathGood, ← pathReserved_iff, ← pathRule_iff, ← pathWords_iff, pathBad]
    simp only [hnth, pathPoints_word, Bool.or_eq_false_iff]
    constructor
    · rintro ⟨⟨hreserved, hrule⟩, hwords⟩
      exact ⟨hreserved, rfl, hrule, hwords⟩
    · rintro ⟨hreserved, -, hrule, hwords⟩
      exact ⟨⟨hreserved, hrule⟩, hwords⟩
  rw [← hw, ← Bool.not_eq_false, hgood]
  exact ⟨fun h n hn => h (pathGood_points hn ▸ hn), fun h => h _⟩

/-! ### A line within a pixel -/

theorem boundsBetween_pixel {a b c : Int} (ha : 256 * c ≤ a ∧ a ≤ 256 * (c + 1)) (hb : 256 * c ≤ b ∧ b ≤ 256 * (c + 1)) :
    boundsBetween a b = [] := by
  have hnone : ((max a b + 255) / 256 - (min a b / 256 + 1)).toNat = 0 := by omega
  unfold boundsBetween
  dsimp only
  rw [hnone]
  rfl

theorem nearestEven_scaled (x : Int) : nearestEven (x * 65536) 65536 = x := by
  unfold nearestEven
  dsimp only
  rw [if_pos (by omega)]
  omega

/-- R265: a line restricted to the whole of its range. -/
theorem restrict_line (p q : Pt) : restrict [p, q] 0 65536 = [p, q] := by
  have hends : ∀ a b : Int, nearestEven (blossom [a, b] [0]) 65536 = a ∧ nearestEven (blossom [a, b] [65536]) 65536 = b :=
    fun a b => by
      have h0 : blossom [a, b] [0] = a * 65536 := by simp [blossom, blossomStep]
      have h1 : blossom [a, b] [65536] = b * 65536 := by simp [blossom, blossomStep]
      exact ⟨by rw [h0, nearestEven_scaled], by rw [h1, nearestEven_scaled]⟩
  simp [restrict, axisOf, upto, hends]

section
variable {p q : Pt} {cx cy : Int}

/-- R264 to R267: a line within a pixel is one sub-piece. -/
theorem curveSubPieces_line (hne : p ≠ q) (hx : ∀ z, z = p.1 ∨ z = q.1 → 256 * cx ≤ z ∧ z ≤ 256 * (cx + 1))
    (hy : ∀ z, z = p.2 ∨ z = q.2 → 256 * cy ≤ z ∧ z ≤ 256 * (cy + 1)) : curveSubPieces [p, q] = [[p, q]] := by
  have hpx := hx p.1 (.inl rfl)
  have hqx := hx q.1 (.inr rfl)
  have hpy := hy p.2 (.inl rfl)
  have hqy := hy q.2 (.inr rfl)
  have hreduce : reduceCurve [p, q] = some [p, q] := by
    simp [reduceCurve, ptAt, nth, Ne.symm hne]
  have hextrema : extremaPieces [p, q] = [[p, q]] := by
    simp [extremaPieces, axisOf, extrema, sortParams]
  have hhalve : halve 96 [p, q] = [[p, q]] := by
    rw [halve, if_neg]
    simp only [axisOf, spanOf, List.map_cons, List.map_nil, List.foldl_cons, List.foldl_nil, if_true, one_ne_zero, if_false]
    omega
  have hcross : crossings [p, q] = [] := by
    have hbx := boundsBetween_pixel hpx hqx
    have hby := boundsBetween_pixel hpy hqy
    simp [crossings, axisOf, nth, hbx, hby]
  have hpieces : subPieces [p, q] = [[p, q]] := by
    simp [subPieces, hcross, subPiece, restrict_line, snapPt, ptAt, nth, monotone]
  simp only [curveSubPieces, hreduce, hextrema, List.flatMap_cons, List.flatMap_nil, hhalve, hpieces, List.append_nil]

end

/-- R268: area and cover of a line. -/
theorem cellOf_line (x0 y0 x1 y1 : Int) : cellOf [(x0, y0), (x1, y1)] = ⟨(x0 + x1) / 512, (y0 + y1) / 512,
    30720 * ((x0 + x1) / 512 + 1) * (y1 - y0) - 60 * (x0 + x1) * (y1 - y0), 30720 * (y1 - y0)⟩ := rfl

/-! ### The open path of a binding -/

theorem pathAt_bind (x : Island) (b : Nat) : (pathAt x b).bind = b := by
  unfold pathAt
  cases h : x.paths.find? fun a => a.bind == b with
  | none => rfl
  | some a =>
    have hb := List.find?_some h
    exact beq_iff_eq.1 hb

theorem setPath_sameBut (s : State) (q : Nat) (a : PathAcc) : sameButIslands s (setPath s q a) := modIsle_sameBut ..

theorem pathAt_setPath (s : State) (q : Nat) (a : PathAcc) : pathAt (getIsle (setPath s q a) 0 q) a.bind = a := by
  have hnone : (((getIsle s 0 q).paths.filter fun y => y.bind != a.bind).find? fun y => y.bind == a.bind) = none := by
    rw [List.find?_eq_none]
    intro y hy
    simpa using (List.mem_filter.1 hy).2
  rw [setPath, getIsle_modIsle_same, pathAt, List.find?_append, hnone]
  simp

/-- R263: the line of a record with two points. -/
theorem pathCurve_line {r : List Word} {w : Nat → Word} (hw : ∀ i, w i = r.getD i 0) (hgood : pathGood w 2) :
    bits (nth r 0 0).toNat 30 2 ≠ 3 ∧ pathCurve r =
      [(signed 32 (w 2).toNat, signed 32 (w 3).toNat), (signed 32 (w 4).toNat, signed 32 (w 5).toNat)] := by
  have hnth : ∀ i, nth r i 0 = w i := fun i => (hw i).symm
  have hpoints := pathGood_points hgood
  constructor
  · rw [hnth, ← pointsOf_ne_zero, ← hpoints]
    decide
  · simp only [pathCurve, hnth, pathPoints_word, ← hpoints, upto, List.map_cons, List.map_nil,
      sext_eq_signed _ _ (show 0 < 32 by decide)]

theorem not_pathBad {r : List Word} {w : Nat → Word} {n : Nat} (hw : ∀ i, w i = r.getD i 0) (hgood : pathGood w n) :
    pathBad r = false := by
  obtain rfl : w = fun i => r.getD i 0 := funext hw
  rw [← Bool.not_eq_true, pathBad_iff]
  exact fun h => h n hgood

section
variable {s : State} {q no : Nat} {y : Binding} {p : Option Party} {x : Record} {ps : Pass} {w : Nat → Word}

theorem pathRecord_bad (hp : (getIsle s 0 q).pass = some ps) (hbad : ∀ n, ¬pathGood (fun i => x.words.getD i 0) n) :
    pathRecord q s y p no [x] = .ok (modIsle s 0 q fun z => { z with
      pass := some { ps with
        badrec := true } }, []) := by
  simp only [pathRecord, List.head?_cons, Option.map_some, Option.getD_some, hp, (pathBad_iff x.words).2 hbad, if_true,
    modPass_of_pass hp]

/-- R263, R271: a segment joins the path, which then finds room. -/
theorem pathRecord_segment {n : Nat} (hp : (getIsle s 0 q).pass = some ps) (hw : ∀ i, w i = x.words.getD i 0) (hgood : pathGood w n)
    (hkind : bits (nth x.words 0 0).toNat 30 2 ≠ 3) : pathRecord q s y p no [x] =
      (pathRoom (pathAdd s q ps (pathAt (getIsle s 0 q) y.id) x.words) q y.id).map fun t => (t, []) := by
  simp only [pathRecord, List.head?_cons, Option.map_some, Option.getD_some, hp, not_pathBad hw hgood, Bool.false_eq_true, if_false,
    hkind]
  cases pathRoom (pathAdd s q ps (pathAt (getIsle s 0 q) y.id) x.words) q y.id <;> rfl

theorem pathAdd_sameBut (a : PathAcc) (r : List Word) : sameButIslands s (pathAdd s q ps a r) := by
  unfold pathAdd
  split
  · exact .refl s
  · exact (setPath_sameBut ..).trans (modIsle_sameBut ..)

theorem pathAdd_cells {b : Nat} {a : PathAcc} {r : List Word} (ha : pathAt (getIsle s 0 q) b = a) (hopen : a.drop = false) :
    (pathAt (getIsle (pathAdd s q ps a r) 0 q) b).cells = ((curveSubPieces (pathCurve r)).map cellOf).foldl addCell a.cells := by
  obtain rfl : a.bind = b := ha ▸ pathAt_bind ..
  unfold pathAdd
  simp only [hopen, Bool.false_eq_true, if_false]
  refine (getIsle_modIsle_keeps (g := fun x => (pathAt x a.bind).cells) (f := fun x => { x with
    pass := x.pass.map _ }) (fun _ => rfl) _ 0 q 0 q).trans ?_
  exact congrArg PathAcc.cells (pathAt_setPath s q ⟨a.bind, _, _, _⟩)

end

/-! ### Coverage -/

theorem coverageOf_eq (w : Int) (evenOdd : Bool) : coverageOf w evenOdd = coverOf w evenOdd := rfl

theorem coverOf_zero (evenOdd : Bool) : coverOf 0 evenOdd = 0 := by cases evenOdd <;> decide

/-- What a cell adds to the winding of a pixel. -/
def cellShare (x y : Int) (c : Cell) : Int := if c.cy = y ∧ c.cx ≤ x then (if c.cx = x then c.c0 else c.c1) else 0

theorem winding_eq (cells : List Cell) (x y : Int) :
    winding cells x y = signed 40 ((cells.map (cellShare x y)).sum % 2 ^ 40).toNat := by
  have hfold : ∀ (l : List Cell) (v : Int), l.foldl (fun w c =>
      if c.cy = y then (if c.cx = x then w + c.c0 else if c.cx < x then w + c.c1 else w) else w) v =
        v + (l.map (cellShare x y)).sum := by
    intro l
    induction l with
    | nil => simp
    | cons c l ih =>
      intro v
      rw [List.foldl_cons, ih, List.map_cons, List.sum_cons, ← add_assoc]
      congr 1
      unfold cellShare
      split_ifs <;> omega
  rw [winding, hfold, zero_add, sext_eq_signed _ _ (by decide), wrap]
  rfl

theorem windingOf_eq (cells : List Cell) (x y : Nat) :
    windingOf cells x y = signed 40 ((cells.map (cellShare x y)).sum % 2 ^ 40).toNat := by
  have hsum : ((cells.filter fun c => decide (c.cy = (y : Int) ∧ c.cx ≤ (x : Int))).map fun c =>
      if c.cx = (x : Int) then c.c0 else c.c1).sum = (cells.map (cellShare x y)).sum := by
    induction cells with
    | nil => rfl
    | cons c l ih =>
      rw [List.map_cons, List.sum_cons, ← ih, List.filter_cons, cellShare]
      split_ifs <;> simp_all
  rw [windingOf, hsum]

/-- R269: cells that add nothing to a pixel do not count for it. -/
theorem sum_filter_share {cells : List Cell} {f : Cell → Bool} {x y : Int} (h : ∀ c ∈ cells, f c = false → cellShare x y c = 0) :
    ((cells.filter f).map (cellShare x y)).sum = (cells.map (cellShare x y)).sum := by
  induction cells with
  | nil => rfl
  | cons c l ih =>
    have hl := ih fun c hc => h c (List.mem_cons_of_mem _ hc)
    cases hf : f c with
    | true => rw [List.filter_cons_of_pos hf, List.map_cons, List.map_cons, List.sum_cons, List.sum_cons, hl]
    | false => rw [List.filter_cons_of_neg (by simp [hf]), List.map_cons, List.sum_cons, hl, h c (List.mem_cons_self ..) hf,
        zero_add]

/-! ### Tiles with coverage -/

theorem mem_insSorted {l : List Nat} {x z : Nat} : z ∈ insSorted l x ↔ z = x ∨ z ∈ l := by
  induction l with
  | nil => simp [insSorted]
  | cons y r ih =>
    rw [insSorted]
    split_ifs with hlt heq
    · exact List.mem_cons
    · simp [heq]
    · rw [List.mem_cons, ih, List.mem_cons]
      tauto

theorem insSorted_sorted {l : List Nat} (x : Nat) (h : l.Pairwise (· < ·)) : (insSorted l x).Pairwise (· < ·) := by
  induction l with
  | nil => exact List.pairwise_singleton ..
  | cons y r ih =>
    obtain ⟨hy, hr⟩ := List.pairwise_cons.1 h
    rw [insSorted]
    split_ifs with hlt heq
    · refine List.pairwise_cons.2 ⟨fun z hz => ?_, h⟩
      obtain rfl | hz := List.mem_cons.1 hz
      · exact hlt
      · exact hlt.trans (hy z hz)
    · exact h
    · refine List.pairwise_cons.2 ⟨fun z hz => ?_, ih hr⟩
      obtain rfl | hz := mem_insSorted.1 hz
      · omega
      · exact hy z hz

/-- The rows of tiles that hold some of the cells. -/
def tileRows (cells : List Cell) : List Nat := cells.foldl (fun l c => insSorted l (cellTile c).2) []

theorem tileRows_spec (cells : List Cell) : (tileRows cells).Pairwise (· < ·) ∧
    ∀ ty, ty ∈ tileRows cells ↔ ∃ c ∈ cells, (cellTile c).2 = ty := by
  have hfold : ∀ (l : List Cell) (acc : List Nat), acc.Pairwise (· < ·) →
      (l.foldl (fun l c => insSorted l (cellTile c).2) acc).Pairwise (· < ·) ∧
        ∀ ty, ty ∈ l.foldl (fun l c => insSorted l (cellTile c).2) acc ↔ ty ∈ acc ∨ ∃ c ∈ l, (cellTile c).2 = ty := by
    intro l
    induction l with
    | nil => exact fun acc h => ⟨h, fun ty => by simp⟩
    | cons c l ih =>
      intro acc h
      obtain ⟨hsorted, hmem⟩ := ih _ (insSorted_sorted (cellTile c).2 h)
      refine ⟨hsorted, fun ty => ?_⟩
      rw [List.foldl_cons, hmem, mem_insSorted]
      simp only [List.mem_cons, exists_eq_or_imp]
      tauto
  obtain ⟨hsorted, hmem⟩ := hfold cells [] .nil
  exact ⟨hsorted, fun ty => by rw [tileRows, hmem]; simp⟩

theorem foldl_min_le (l : List Nat) (x : Nat) : l.foldl min x ≤ x ∧ ∀ y ∈ l, l.foldl min x ≤ y := by
  induction l generalizing x with
  | nil => simp
  | cons z l ih =>
    obtain ⟨hx, hl⟩ := ih (min x z)
    refine ⟨hx.trans (Nat.min_le_left ..), fun y hy => ?_⟩
    obtain rfl | hy := List.mem_cons.1 hy
    · exact hx.trans (Nat.min_le_right ..)
    · exact hl y hy

theorem minOf_le {l : List Nat} {x : Nat} (d : Nat) (h : x ∈ l) : minOf l d ≤ x := by
  cases l with
  | nil => simp at h
  | cons z l =>
    obtain ⟨hz, hl⟩ := foldl_min_le l z
    obtain rfl | h := List.mem_cons.1 h
    · exact hz
    · exact hl x h

/-- The kept cells of a row of tiles. -/
def rowCells (w h : Nat) (cells : List Cell) (ty : Nat) : List Cell :=
  (cells.filter (cellKept w h)).filter fun c => (cellTile c).2 == ty

section
variable {cells : List Cell} {w h : Nat} {eo : Bool}

/-- R269, R271: a cell that adds to a pixel of the target is kept, in the pixel's row of tiles, and not to the right of it. -/
theorem cellShare_kept {c : Cell} {x y : Nat} (hx : x < w) (hy : y < h) (hshare : cellShare x y c ≠ 0) :
    cellKept w h c = true ∧ (cellTile c).2 = y / 8 ∧ (cellTile c).1 ≤ x / 8 := by
  have hin : c.cy = y ∧ c.cx ≤ x := by
    by_contra hno
    exact hshare (if_neg hno)
  unfold cellKept cellTile
  rw [decide_eq_true_eq]
  omega

/-- R269, R271: the row's kept cells give a pixel what all of them give it. -/
theorem coverOf_rowCells {x y : Nat} (hx : x < w) (hy : y < h) :
    coverageOf (winding (rowCells w h cells (y / 8)) x y) eo = coverOf (windingOf cells x y) eo := by
  rw [coverageOf_eq, winding_eq, windingOf_eq, rowCells, sum_filter_share, sum_filter_share]
  · intro c _ hf
    by_contra hshare
    rw [(cellShare_kept hx hy hshare).1] at hf
    exact Bool.false_ne_true hf.symm
  · intro c _ hf
    by_contra hshare
    rw [(cellShare_kept hx hy hshare).2.1, beq_self_eq_true] at hf
    exact Bool.false_ne_true hf.symm

theorem tileCoverage_eq (tx ty : Nat) : tileCoverage w h (rowCells w h cells ty) eo tx ty =
    (List.range 64).map (pixelCover cells w h eo (tx, ty)) := by
  rw [tileCoverage, upto_zero]
  refine List.map_congr_left fun i hi => ?_
  have hi := List.mem_range.1 hi
  unfold pixelCover
  dsimp only
  split
  next hin =>
    have hrow : (8 * ty + i / 8) / 8 = ty := by omega
    have hcover := coverOf_rowCells (cells := cells) (eo := eo) hin.1 hin.2
    rw [hrow] at hcover
    exact hcover
  next => rfl

/-- R269: a pixel with coverage has a cell in its row, not to the right of it. -/
theorem exists_cell_of_cover {x y : Nat} (hcover : coverOf (windingOf cells x y) eo ≠ 0) : ∃ c ∈ cells, cellShare x y c ≠ 0 := by
  by_contra hno
  have hnone : ∀ c ∈ cells, cellShare x y c = 0 := fun c hc => by_contra fun hshare => hno ⟨c, hc, hshare⟩
  have hsum : (cells.map (cellShare x y)).sum = 0 := by
    rw [List.map_congr_left hnone]
    simp
  refine hcover ?_
  rw [windingOf_eq, hsum]
  exact coverOf_zero eo

/-- A tile with coverage. -/
def covered (cells : List Cell) (w h : Nat) (eo : Bool) (t : Nat × Nat) : Prop := ∃ i, i < 64 ∧ pixelCover cells w h eo t i ≠ 0

theorem covered_iff (t : Nat × Nat) :
    covered cells w h eo t ↔ (((List.range 64).map (pixelCover cells w h eo t)).all (· == 0)) = false := by
  rw [List.all_eq_false]
  simp [covered]

/-- R270, R271: a tile with coverage lies in a row of kept cells, not to the left of all of them, within the target. -/
theorem covered_place {t : Nat × Nat} (ht : covered cells w h eo t) : t.2 ∈ tileRows (cells.filter (cellKept w h)) ∧
    minOf ((rowCells w h cells t.2).map fun c => (cellTile c).1) 0 ≤ t.1 ∧ t.1 < ceilDiv w 8 := by
  obtain ⟨i, hi, hcover⟩ := ht
  unfold pixelCover at hcover
  dsimp only at hcover
  by_cases hin : 8 * t.1 + i % 8 < w ∧ 8 * t.2 + i / 8 < h
  · rw [if_pos hin] at hcover
    obtain ⟨hx, hy⟩ := hin
    obtain ⟨c, hc, hshare⟩ := exists_cell_of_cover hcover
    obtain ⟨hkept, hrow, hcol⟩ := cellShare_kept hx hy hshare
    have hrow : (cellTile c).2 = t.2 := by omega
    have hmem : c ∈ rowCells w h cells t.2 := List.mem_filter.2 ⟨List.mem_filter.2 ⟨hc, hkept⟩, by simp [hrow]⟩
    refine ⟨(tileRows_spec _).2 t.2 |>.2 ⟨c, List.mem_filter.2 ⟨hc, hkept⟩, hrow⟩,
      (minOf_le 0 (List.mem_map_of_mem hmem)).trans (by omega), ceilDiv_lt.2 (by omega)⟩
  · exact absurd (if_neg hin) hcover

/-- The tiles of a row that have coverage. -/
def rowTiles (w h : Nat) (cells : List Cell) (eo : Bool) (ty : Nat) : List Nat :=
  (upto (minOf ((rowCells w h cells ty).map fun c => (cellTile c).1) 0)
    (ceilDiv w 8 - minOf ((rowCells w h cells ty).map fun c => (cellTile c).1) 0)).filter fun tx =>
      !((List.range 64).map (pixelCover cells w h eo (tx, ty))).all (· == 0)

theorem mem_rowTiles {tx ty : Nat} : tx ∈ rowTiles w h cells eo ty ↔
    (minOf ((rowCells w h cells ty).map fun c => (cellTile c).1) 0 ≤ tx ∧ tx < ceilDiv w 8) ∧ covered cells w h eo (tx, ty) := by
  rw [rowTiles, List.mem_filter, upto_eq_range', List.mem_range'_1, Bool.not_eq_true', covered_iff]
  refine and_congr_left' ?_
  omega

/-- The tile with its coverage. -/
def withCover (cells : List Cell) (w h : Nat) (eo : Bool) (t : Nat × Nat) : Nat × Nat × List Nat :=
  (t.1, t.2, (List.range 64).map (pixelCover cells w h eo t))

theorem pathTiles_rows : pathTiles w h cells eo = ((tileRows (cells.filter (cellKept w h))).flatMap fun ty =>
    (rowTiles w h cells eo ty).map fun tx => (tx, ty)).map (withCover cells w h eo) := by
  have hrow : ∀ (l : List Nat) (ty : Nat), (l.filterMap fun tx =>
      if (tileCoverage w h (rowCells w h cells ty) eo tx ty).all (· == 0) then none
      else some (tx, ty, tileCoverage w h (rowCells w h cells ty) eo tx ty)) =
        ((l.filter fun tx => !((List.range 64).map (pixelCover cells w h eo (tx, ty))).all (· == 0)).map fun tx => (tx, ty)).map
          (withCover cells w h eo) := by
    intro l ty
    induction l with
    | nil => rfl
    | cons tx l ih =>
      rw [List.filterMap_cons, List.filter_cons, tileCoverage_eq, ih]
      cases ((List.range 64).map (pixelCover cells w h eo (tx, ty))).all (· == 0) <;> rfl
  rw [List.map_flatMap]
  exact congrArg (List.flatMap · _) (funext fun ty => hrow _ ty)

/-- R270: the tiles with coverage, in order. -/
theorem pathTiles_eq {l : List (Nat × Nat)} (hsorted : l.Pairwise tileBefore) (hmem : ∀ t, t ∈ l ↔ covered cells w h eo t) :
    pathTiles w h cells eo = l.map (withCover cells w h eo) := by
  rw [pathTiles_rows]
  congr 1
  refine eq_of_tilesSorted (List.pairwise_flatMap.2 ⟨fun ty _ => ?_, ?_⟩) hsorted fun t => ?_
  · have hrange : ∀ a n, (List.range' a n).Pairwise (· < ·) := fun a n => List.pairwise_lt_range'
    rw [List.pairwise_map, rowTiles, upto_eq_range']
    exact ((hrange ..).filter _).imp fun hlt => .inr ⟨rfl, hlt⟩
  · refine (tileRows_spec _).1.imp fun {a b} hab t ht u hu => ?_
    obtain ⟨_, _, rfl⟩ := List.mem_map.1 ht
    obtain ⟨_, _, rfl⟩ := List.mem_map.1 hu
    exact .inl hab
  · rw [hmem]
    constructor
    · intro ht
      obtain ⟨ty, _, ht⟩ := List.mem_flatMap.1 ht
      obtain ⟨tx, htx, rfl⟩ := List.mem_map.1 ht
      exact (mem_rowTiles.1 htx).2
    · intro ht
      obtain ⟨hrow, hplace⟩ := covered_place ht
      exact List.mem_flatMap.2 ⟨t.2, hrow, List.mem_map.2 ⟨t.1, mem_rowTiles.2 ⟨hplace, ht⟩, rfl⟩⟩

end

/-! ### The units of a path that ends -/

theorem pathUnit_eq (pid : Word) (seq : Nat) (t : Nat × Nat) (cover : Nat → Nat) :
    pathUnit pid t.1 t.2 seq ((List.range 64).map cover) = tileUnit pid seq t cover := by
  have hnth : ∀ i, i < 64 → nth ((List.range 64).map cover) i 0 = cover i := fun i hi => by
    rw [nth_eq_getD, List.getD_eq_getElem _ _ (by simpa using hi)]
    simp
  have hpairs : ((upto 0 32).map fun k => BitVec.ofNat 32 (nth ((List.range 64).map cover) (2 * k) 0 +
      nth ((List.range 64).map cover) (2 * k + 1) 0 * 2 ^ 16)) =
        (List.range 32).map fun k => BitVec.ofNat 32 (cover (2 * k) + cover (2 * k + 1) * 2 ^ 16) := by
    rw [upto_zero]
    refine List.map_congr_left fun k hk => ?_
    have hk := List.mem_range.1 hk
    rw [hnth _ (by omega), hnth _ (by omega)]
  rw [pathUnit, hpairs, List.filter_map, List.length_map]
  rfl

/-- R270: the unit of a tile is answered, and counted as two records. -/
def unitAdded (q cls : Nat) (unit : Nat → Nat × Nat → List (List Word)) (acc : State × List (List (List Word)))
    (t : Nat × Nat) : State × List (List (List Word)) :=
  (seqCount acc.1 q cls t.1 t.2 2, acc.2 ++ [unit (seqNext acc.1 q cls t.1 t.2) t])

theorem foldl_unitAdded {q cls : Nat} {unit : Nat → Nat × Nat → List (List Word)} {s : State} {l : List (Nat × Nat)}
    (done : List (List (List Word))) (hs : PlainPass s q) (hnodup : l.Nodup) (hlt : ∀ t ∈ l, t.1 < 4096) :
    sameButIslands s (l.foldl (unitAdded q cls unit) (s, done)).1 ∧
      (l.foldl (unitAdded q cls unit) (s, done)).2 = done ++ l.map fun t => unit (seqNext s q cls t.1 t.2) t := by
  induction l generalizing s done with
  | nil => exact ⟨.refl s, by simp⟩
  | cons t l ih =>
    obtain ⟨hnot, hnodup⟩ := List.nodup_cons.1 hnodup
    have hrest := fun u (hu : u ∈ l) => hlt u (List.mem_cons_of_mem _ hu)
    obtain ⟨hsame, hunits⟩ := ih (done ++ [unit (seqNext s q cls t.1 t.2) t])
      (seqCount_plain (cls := cls) (tx := t.1) (ty := t.2) hs 2)
      hnodup hrest
    have hnumbers : ∀ u ∈ l, unit (seqNext (seqCount s q cls t.1 t.2 2) q cls u.1 u.2) u = unit (seqNext s q cls u.1 u.2) u :=
      fun u hu => by
        rw [seqNext_seqCount_other hs (hlt t (List.mem_cons_self ..)) (hrest u hu) (ne_of_mem_of_not_mem hu hnot)]
    refine ⟨(seqCount_sameBut 2).trans hsame, ?_⟩
    rw [List.foldl_cons, unitAdded, hunits, List.map_congr_left hnumbers, List.map_cons, List.append_assoc, List.singleton_append]

section
variable {s : State} {q : Nat} {y : Binding} {ps : Pass} {a : PathAcc} {pid : Word} {eo : Bool} {l : List (Nat × Nat)}

theorem pathEmit_eq (hs : PlainPass s q) (hopen : a.drop = false) (hsorted : l.Pairwise tileBefore)
    (hmem : ∀ t, t ∈ l ↔ covered a.cells (pdW ps.desc) (pdH ps.desc) eo t) : pathEmit s q ps y a pid eo =
      .ok (l.foldl (unitAdded q y.cls fun seq t => tileUnit pid seq t (pixelCover a.cells (pdW ps.desc) (pdH ps.desc) eo t))
        (s, [])) := by
  unfold pathEmit
  rw [hopen, if_neg Bool.false_ne_true, pathTiles_eq hsorted hmem,
    foldE_eq_foldl (P := fun acc : State × List (List (List Word)) => PlainPass acc.1 q) (g := fun acc x =>
      (seqCount acc.1 q y.cls x.1 x.2.1 2, acc.2 ++ [pathUnit pid x.1 x.2.1 (seqNext acc.1 q y.cls x.1 x.2.1) x.2.2])) _ hs,
    List.foldl_map]
  · simp only [withCover, pathUnit_eq]
    rfl
  · intro acc x hacc
    exact ⟨by simp only [tileClean_plain hacc], seqCount_plain hacc 2⟩

theorem endPath_sameBut (s : State) (q b : Nat) : sameButIslands s (endPath s q b) := modIsle_sameBut ..

theorem endPath_closed (s : State) (q b : Nat) : ∀ z ∈ (getIsle (endPath s q b) 0 q).paths, z.bind ≠ b := by
  intro z hz
  rw [endPath, getIsle_modIsle_same] at hz
  simpa using (List.mem_filter.1 hz).2

/-- R270, R271: the record that ends a path with room. -/
theorem pathRecord_end {t u : State} {p : Option Party} {no : Nat} {x : Record} {w : Nat → Word}
    {us : List (List (List Word))} (hp : (getIsle s 0 q).pass = some ps) (hw : ∀ i, w i = x.words.getD i 0) (hgood : pathGood w 0)
    (hroom : pathRoom s q y.id = .ok t)
    (hemit : pathEmit t q ps y (pathAt (getIsle t 0 q) y.id) (w 1) ((w 0).getLsbD 29) = .ok (u, us)) :
    pathRecord q s y p no [x] = .ok (endPath u q y.id, us) := by
  have hkind : bits (nth x.words 0 0).toNat 30 2 = 3 := by
    have hpoints := pathGood_points hgood
    by_contra hne
    rw [nth_eq_getD, ← hw] at hne
    exact (pointsOf_ne_zero w).2 hne hpoints.symm
  have hnth : ∀ i, nth x.words i 0 = w i := fun i => (hw i).symm
  rw [hnth] at hkind
  rw [← BitVec.testBit_toNat, ← tb_eq_testBit] at hemit
  simp only [pathRecord, List.head?_cons, Option.map_some, Option.getD_some, hp, not_pathBad hw hgood, Bool.false_eq_true, if_false,
    hnth, hkind, if_true, hroom, hemit]

end

theorem pathAnswers : PathAnswers := by
  refine ⟨fun s q no y p x ps hp hbad => pathRecord_bad hp hbad, ?_, ?_⟩
  · rintro s q no y p x ps w x0 y0 x1 y1 cx cy a _ hp hw hgood rfl rfl rfl rfl hne rfl rfl hx hy ha hopen
    obtain ⟨hkind, hcurve⟩ := pathCurve_line hw hgood
    refine ⟨pathAdd s q ps (pathAt (getIsle s 0 q) y.id) x.words, ?_, pathAdd_sameBut .., ?_⟩
    · rw [pathRecord_segment hp hw hgood hkind]
      cases pathRoom (pathAdd s q ps (pathAt (getIsle s 0 q) y.id) x.words) q y.id <;> rfl
    · rw [ha, pathAdd_cells ha hopen, hcurve, curveSubPieces_line hne hx hy]
      rfl
  · rintro s t q no W H y p x ps w a eo l _ hp hw hgood hroom hpt hflags rfl hopen rfl rfl rfl hsorted hmem
    have hplain : PlainPass t q := ⟨ps, hpt, pdFlags_eq hflags⟩
    have hlt : ∀ u ∈ l, u.1 < 4096 := fun u hu => by
      have := (covered_place ((hmem u).1 hu)).2.2
      have := (ps.desc.extractLsb' 96 15).isLt
      unfold ceilDiv at *
      omega
    rw [← pdW_eq, ← pdH_eq] at hmem ⊢
    obtain ⟨hsame, hunits⟩ := foldl_unitAdded (cls := y.cls) (unit := fun seq u => tileUnit (w 1) seq u
      (pixelCover (pathAt (getIsle t 0 q) y.id).cells (pdW ps.desc) (pdH ps.desc) ((w 0).getLsbD 29) u)) [] hplain
      (tilesSorted_nodup hsorted) hlt
    refine ⟨_, ?_, hsame.trans (endPath_sameBut ..), endPath_closed _ q y.id⟩
    rw [pathRecord_end hp hw hgood hroom (pathEmit_eq hplain hopen hsorted hmem), hunits]
    rfl

/-! ### The statement -/

/-- Settles O49: a unit is taken and answered, or stops, by `Serves.answered` and `Serves.stopped`; the answers of the classes
are the theorems above, one for each. -/
theorem requestsAreServed : Obligations.RequestsAreServed := by
  unfold Obligations.RequestsAreServed
  refine ⟨fun s s1 i kind idx f y p recs units h hf => h.answered hf, ?_, lanesAnswer, sampleAnswers, cubeAnswers, boxAnswers,
    triAnswers, frustumAnswers, blendAnswers, coarseAnswers, pathAnswers⟩
  rintro s i kind idx f y p recs code cause va _ h hf rfl
  exact h.stopped hf

end Sys2Proof.Machine
end
